-- ==== Sys2Proof/Word.lean ====
section
/-!
DEFINITION. Sys2Proof/Word.lean: the word types of the Camty 4820 (00 R6): bytes, 32-bit and 64-bit words, and the
128-bit thread masks of a wave (02 Table 2-4).
-/
namespace Sys2Proof

/-- One byte of memory. -/
abbrev Byte := BitVec 8

/-- A 16-bit line tag: FMT in bits 15:8, SCL in bits 7:0 (03 R55). -/
abbrev Tag := BitVec 16

/-- A 32-bit register. -/
abbrev Word := BitVec 32

/-- A 64-bit register. -/
abbrev DWord := BitVec 64

/-- A set of threads of one wave: bit t stands for thread t (01 R14, at most 128 threads). -/
abbrev Lanes := BitVec 128

end Sys2Proof
end

