-- ==== Sys2Proof/Config.lean ====
section
/-!
DEFINITION. Sys2Proof/Config.lean: the values that the spec leaves open. Each is an uninterpreted constant: nothing in
Lean evaluates it, so a statement holds whatever it is. The row of the assumption log is named at each.
-/
namespace Sys2Proof.Config

/-- The free value of one open choice, applied to the running counter `State.freeCtr`: the serial order of one atomic
instruction (04 R80), V of a DISC (04 R87), the code word fetched after a write (08 R158), the value found after
SPILL-LOST (20 R420), whether a stale cached translation is used (21 R365), the lines of an overlapping copy (14 R278), the
partial sums of a torn MMA (05 R110). DESIGN CHOICE (safe), log 2. -/
opaque free : Nat → Nat

/-- The home slice of a line among those that serve its die: "a fixed hash of its physical address" (04 R66). DESIGN CHOICE (safe), log 7. -/
opaque sliceHash : Nat → Nat

/-- The Causeway port of a request: a hash of the address (22 R377). DESIGN CHOICE (safe), log 7. -/
opaque portHash : Nat → Nat

/-- The header slot of a message on a Causeway link (22 R374 gives no layout), by its channel, its flit's number and the running counter;
the channel that a received header slot names; whether four data slots follow it; and the flits that a channel's receive buffer holds (22
R376). DESIGN CHOICE (safe), log 98. -/
opaque headerSlot : Nat → Nat → Nat → BitVec 128
opaque slotChannel : BitVec 128 → Nat
opaque slotData : BitVec 128 → Bool
opaque portRoom : Nat → Nat

/-- Fabric cycles that one Cairn instruction takes (07 R139 counts them, the spec gives no table). DESIGN CHOICE (safe), log 8. -/
opaque cairnCycles : Nat → Nat

/-- Assay cycles and fabric cycles that pass in one step of the machine (00 R4 gives the clocks, no step's length).
DESIGN CHOICE (safe), log 8. -/
opaque stepCycles : Nat → Nat

/-- What the assay makes of the claim that the main core brings for an instruction (15 R294, 25 R410): bits 2:0 are 1 for a load value
that a prediction got wrong, 2 for a wrong claimed source, 3 for a wrong result, 4 for a check that failed twice on one assay lane and
passed on another; the bits above are the recovery main cycles, or the lane. DESIGN CHOICE (safe), log 72. -/
opaque mismatch : Nat → Nat

/-- The bits that a transcendental returns if interval arithmetic of 2,048 bits does not separate its rounding
(12 R226; the function, format, rounding and operand). DESIGN CHOICE (safe), log 9. -/
opaque transcendental : Nat → Nat → Nat → Nat → Nat

/-- SHA3-512 of the bytes (23 R384 names the hash; its definition is outside the spec). DESIGN CHOICE (safe), log 10. -/
opaque sha3 : List Byte → List Byte

/-- Whether the bytes carry a valid ML-DSA-87 signature under the fused key (23 R384). DESIGN CHOICE (safe), log 10. -/
opaque signatureGood : List Byte → Bool

/-- The ML-DSA-87 signature that Quarry's attestation key makes over the bytes (23 R388). DESIGN CHOICE (safe), log 10. -/
opaque sign : List Byte → List Byte

/-- The certificate chain of the identity key, which the report carries (23 Table 23-3). DESIGN CHOICE (safe), log 10. -/
opaque certificates : List Byte

end Sys2Proof.Config
end

