-- ==== Sys2Proof/Syntax.lean ====
section
/-!
DEFINITION. Sys2Proof/Syntax.lean: the operand forms, modifiers and the ONE inductive `Instr`, one constructor for each
row of spec/opcode_table.json: the 144 opcodes of 09 Table 9-1 (some in two rows), the Cairn instructions of 07, and
the device's own steps (events), each with the data that fixes one occurrence of it.
-/
namespace Sys2Proof

/-! ### Operands (02 Table 2-1, 02 Table 2-3, 08 Table 8-2) -/

/-- A 9-bit operand descriptor (02 R33, R37, R39): the six kinds cover all 512 values. -/
inductive Desc where
  | v (n : BitVec 8)
  | k (n : BitVec 6)
  | h (n : BitVec 4)
  | special (n : BitVec 4)
  | inline (n : BitVec 5)
  | idx (i : BitVec 2) (off : BitVec 5)
  deriving DecidableEq, Repr

/-- The second source: a descriptor (L = 0) or the 32-bit literal of the literal form (08 R153). -/
inductive SrcB where
  | desc (d : Desc)
  | lit (w : Word)
  deriving DecidableEq, Repr

/-- The control fields of an instruction word that uses the guard (08 Table 8-2). -/
structure Ctl where
  sw : Bool
  onc : Bool
  pg : BitVec 3
  pn : Bool
  deriving DecidableEq, Repr

/-- The control fields of an instruction that does not use the guard (08 R152: PG = 7, PN = 0). -/
structure Ctl0 where
  sw : Bool
  onc : Bool
  deriving DecidableEq, Repr

/-- Integer types (09 Table 9-6). -/
inductive ITy where
  | s32 | n32 | s64 | n64
  deriving DecidableEq, Repr

/-- Floating types (09 Table 9-6). -/
inductive FTy where
  | f | d | h | b
  deriving DecidableEq, Repr

/-- Memory access types of forms ML and MS (09 Table 9-6). -/
inductive MTy where
  | s32 | n32 | s64 | n64 | s8 | n8 | s16 | n16 | q
  deriving DecidableEq, Repr

/-- Rounding modes (09 Table 9-7). -/
inductive RM where
  | rn | rz | rd | ru | ra
  deriving DecidableEq, Repr

/-- Comparison conditions (11 Table 11-6). -/
inductive Cond where
  | eq | ne | lt | le | gt | ge
  deriving DecidableEq, Repr

/-- Floating comparison conditions (12 Table 12-3). -/
inductive FCond where
  | eq | ne | lt | le | gt | ge | un | ord
  deriving DecidableEq, Repr

/-- How a comparison is combined with the old predicate (11 R213). -/
inductive Combine where
  | set | and | or
  deriving DecidableEq, Repr

/-- BRC conditions (11 Table 11-2). -/
inductive BrCond where
  | nz | z | lt | ge
  deriving DecidableEq, Repr

/-- VOTE operations (11 R205). -/
inductive VoteOp where
  | ballot | any | all | count
  deriving DecidableEq, Repr

/-- Shift kinds (11 R207). -/
inductive ShKind where
  | shl | shr | rol | ror
  deriving DecidableEq, Repr

/-- VCNT operations (11 R212). -/
inductive CntOp where
  | pop | clz | ctz | brev
  deriving DecidableEq, Repr

/-- VSHFL modes (11 R215). -/
inductive ShflMode where
  | idx | up | down | xor
  deriving DecidableEq, Repr

/-- VSCAN operations (11 R217). -/
inductive ScanOp where
  | add | min | max
  deriving DecidableEq, Repr

/-- The three kinds of VMOV (11 R210). -/
inductive VMovOp where
  | reg (d : Desc) (b : SrcB)
  | toIdx (i : BitVec 2) (b : Desc) (sat : Bool)
  | fromIdx (d : Desc) (i : BitVec 2)
  deriving DecidableEq, Repr

/-- FSGN operations (12 R223). -/
inductive SgnOp where
  | copy | neg | xor
  deriving DecidableEq, Repr

/-- Floating format codes of the conversions (12 R228). -/
inductive FCode where
  | fp32 | fp64 | fp16 | bf16 | e4m3 | e5m2 | e2m1
  deriving DecidableEq, Repr

/-- CVTF: DIR 0 names the destination, DIR 1 the (narrow) source (12 R228). -/
inductive CvtDir where
  | toCode (c : FCode)
  | fromCode (c : FCode)
  deriving DecidableEq, Repr

/-- QBLK target formats (12 R232). -/
inductive QFmt where
  | int8 | e4m3 | e5m2 | s4 | s4h16 | s4h32 | e4m3h16 | e4m3h32
  deriving DecidableEq, Repr

/-- FRED operations (12 R235). -/
inductive RedOp where
  | add | min | max
  deriving DecidableEq, Repr

/-- Modifiers of a load, form ML (09 Table 9-5). -/
structure LdMods where
  ty : MTy
  ch : BitVec 2
  tag : Bool
  part : Bool
  deriving DecidableEq, Repr

/-- Modifiers of a store, form MS (09 Table 9-5). -/
structure StMods where
  ty : MTy
  ch : BitVec 2
  tag : Bool
  deriving DecidableEq, Repr

/-- Atomic operations (09 Table 9-9). -/
inductive AOp where
  | add | fadd | min | max | and | or | xor | swap | cas | incw
  deriving DecidableEq, Repr

/-- Modifiers of an atomic, form MA (09 Table 9-5). `ty` is the TY code 0 to 3, of the integer column or, for FADD,
of the float column (09 R169). -/
structure AmMods where
  op : AOp
  ty : BitVec 2
  ch : BitVec 2
  pkg : Bool
  deriving DecidableEq, Repr

/-- Scopes of FENCE (09 Table 9-8). -/
inductive Scope where
  | crew | conv | die | pkg | dom | sys
  deriving DecidableEq, Repr

/-- Scopes of SGNL (14 Table 14-6). -/
inductive SgScope where
  | die | pkg | sys
  deriving DecidableEq, Repr

/-- Counters of WAITC (13 Table 13-6). -/
inductive Ctr where
  | cpy | grv | msg | dom
  deriving DecidableEq, Repr

/-- The spaces that WAITV can name (13 Table 13-6). -/
inductive WvSpace where
  | sc | sh | cv | dv
  deriving DecidableEq, Repr

/-- CCTL operations (13 Table 13-6). -/
inductive CcOp where
  | wb | wbi | l1inv
  deriving DecidableEq, Repr

/-- The matrix engine that MRES names (14 Table 14-2). -/
inductive MSel where
  | eng (e : BitVec 2)
  | any
  deriving DecidableEq, Repr

/-- MMA operand classes (05 Table 5-2). -/
inductive MCls where
  | n8 | b16 | d64
  deriving DecidableEq, Repr

/-- GCNT result kinds (14 Table 14-5). -/
inductive GCntKind where
  | n32 | u | b
  deriving DecidableEq, Repr

/-- Spaces of the copy engine (14 R277). -/
inductive CpSpace where
  | sc | cv | dv | pr | hs
  deriving DecidableEq, Repr

/-- Conversions of COPY (14 Table 14-6). -/
inductive CpConv where
  | none | int8 | e4m3 | e5m2 | bf16 | e4m3h16 | e4m3h32
  deriving DecidableEq, Repr

/-- COLL operations (14 Table 14-6). -/
inductive CollOp where
  | sum | max | min | mean | bcast | gath | rsum
  deriving DecidableEq, Repr

/-- COLL element types (14 Table 14-6). -/
inductive CollTy where
  | f | b | s32 | n32
  deriving DecidableEq, Repr

/-- Spaces of PROBE (14 Table 14-7). -/
inductive PrSpace where
  | dv | pr | hs
  deriving DecidableEq, Repr

/-- Access kinds of PROBE (14 Table 14-7). -/
inductive PrKind where
  | ld | st | am
  deriving DecidableEq, Repr

/-! ### The Cairn cores (07) -/

/-- RV64 register-register operations, OP and OP-32 (the RISC-V unprivileged specification, 07 R127). -/
inductive RvOp where
  | add | sub | sll | slt | sltu | xor | srl | sra | or | and
  | mul | mulh | mulhsu | mulhu | div | divu | rem | remu
  | addw | subw | sllw | srlw | sraw | mulw | divw | divuw | remw | remuw
  deriving DecidableEq, Repr

/-- RV64 register-immediate operations, OP-IMM and OP-IMM-32. -/
inductive RvOpI where
  | addi | slti | sltiu | xori | ori | andi | addiw
  deriving DecidableEq, Repr

/-- RV64 shifts by an immediate. -/
inductive RvShI where
  | slli | srli | srai | slliw | srliw | sraiw
  deriving DecidableEq, Repr

/-- RV64 branches. -/
inductive RvBr where
  | beq | bne | blt | bge | bltu | bgeu
  deriving DecidableEq, Repr

/-- RV64 loads. -/
inductive RvLd where
  | lb | lh | lw | ld | lbu | lhu | lwu
  deriving DecidableEq, Repr

/-- RV64 stores. -/
inductive RvSt where
  | sb | sh | sw | sd
  deriving DecidableEq, Repr

/-- The counters that a handler may read (07 R129). -/
inductive RvCsr where
  | cycle | time | instret
  deriving DecidableEq, Repr

/-- One RV64IM, Zicsr or Zifencei instruction of a handler (07 R127, R129); a compressed parcel stands for one of
these. -/
inductive RvInstr where
  | lui (rd : BitVec 5) (imm : BitVec 20)
  | auipc (rd : BitVec 5) (imm : BitVec 20)
  | jal (rd : BitVec 5) (off : BitVec 21)
  | jalr (rd rs1 : BitVec 5) (imm : BitVec 12)
  | branch (op : RvBr) (rs1 rs2 : BitVec 5) (off : BitVec 13)
  | load (op : RvLd) (rd rs1 : BitVec 5) (imm : BitVec 12)
  | store (op : RvSt) (rs1 rs2 : BitVec 5) (imm : BitVec 12)
  | opImm (op : RvOpI) (rd rs1 : BitVec 5) (imm : BitVec 12)
  | shImm (op : RvShI) (rd rs1 : BitVec 5) (sh : BitVec 6)
  | opReg (op : RvOp) (rd rs1 rs2 : BitVec 5)
  | fence (rd rs1 : BitVec 5) (imm : BitVec 12)
  | fenceI (rd rs1 : BitVec 5) (imm : BitVec 12)
  | csrRead (csr : RvCsr) (clear : Bool) (rd : BitVec 5)
  deriving DecidableEq, Repr

/-- Operations of cln.atom, by funct7 (07 Table 7-3). -/
inductive ClnAtom where
  | add | and | or | xor | smin | smax | umin | umax | swap
  deriving DecidableEq, Repr

/-! ### What an event names -/

/-- One wave: its convoy (the model's key for a convoy), crew index and wave index. -/
structure WaveId where
  conv : Nat
  crew : Nat
  wave : Nat
  deriving DecidableEq, Repr

/-- What a PEER request asks for (22 R378, R379). -/
inductive PeerOp where
  | read (bytes : Nat)
  | write (data : List Byte) (tag : Tag)
  | atomic (op : AOp) (ty : BitVec 2) (b c : DWord)
  deriving DecidableEq, Repr

/-- A PEER request that arrives at this device (22 R378): source device and function, target function, address. -/
structure PeerReq where
  dev : Nat
  fn : Nat
  vf : Nat
  fpa : Nat
  op : PeerOp
  deriving DecidableEq, Repr

/-- A line that a fill displaces: from its slice, or from the assay cache (04 R86, 07 R135). -/
inductive Victim where
  | slice (line : Nat)
  | assay (line : Nat)
  deriving DecidableEq, Repr

/-- How the far end answers a request (22 R372, R377, R378; 19 R342: an uncorrectable line at a peer). -/
inductive FarStatus where
  | ok | poisoned | unsupported | linkDown | uncorrectable
  deriving DecidableEq, Repr

/-- Reasons of a pre-emption request (20 Table 20-2). -/
inductive PreReason where
  | frequency | shrink | migration | driver | priority | waiting | timeSlice
  deriving DecidableEq, Repr

/-- What a scrub or a physical event finds: a word of scratchpad or convoy memory, corrected, outside every allocation or
uncorrectable (25 R411, R412); a corrected word of another structure of 19 R342; an uncorrectable line of the Slate, word of a window
or of the n-th shadow (05 R111), g register (n < 32) or generator state (32 + class) of a Gravel engine, or line of an L2 slice. -/
inductive ScrubFind where
  | clean
  | corrected (cluster core : Nat) (conv : Bool)
  | outside (die : Nat) (conv : Bool) (unit : Nat)
  | scratch (conv crew off : Nat)
  | cmem (conv off : Nat)
  | correctedIn (die structure_ : Nat)
  | slate (cluster e line : Nat)
  | window (cluster e win off : Nat)
  | shadow (cluster e n off : Nat)
  | gravel (cluster n : Nat)
  | l2 (line : Nat)
  deriving DecidableEq, Repr

/-- What the array does to one K-block in one attempt (05 R109): the errors in the emitted products, by row, column and amount, and
whether the two copies of the scale stage agree. -/
structure KTry where
  errs : List (Nat × Nat × Int)
  agree : Bool
  deriving DecidableEq, Repr

/-- What happens to a destination line of a copy: how often its comparison fails first (19 R340), and how the far ends take the read of its
source and its write (22 R372, R377). -/
structure CopyTry where
  fails : Nat
  rd : FarStatus
  wr : FarStatus
  deriving DecidableEq, Repr

/-- What the array does in one step of an MMA: how many rows it takes on, and its attempts at them (05 R109, R110). -/
structure RowTry where
  rows : Nat
  tries : List KTry
  deriving DecidableEq, Repr

/-- What an engine does with its tile task: the failing attempts at each of its K-blocks (05 R109, R110). -/
structure TileTry where
  engine : Nat
  tries : List (Nat × List KTry)
  deriving DecidableEq, Repr

/-- What one HBM transfer attempt shows: the set of wrong lanes (25 R415) or, with good parity, the ECC outcome. -/
inductive HbmTry where
  | parity (lane : Nat)
  | good
  | corrected
  | uncorrectable
  deriving DecidableEq, Repr

/-- What comes to a slot of a Cairn core (07 R143): Quarry loads code; its memory shows uncorrectable data; the lockstep pair
differs while the slot runs. -/
inductive SlotEvent where
  | load (code : List Byte)
  | uncorrectable
  | differ
  deriving DecidableEq, Repr

/-- What Keystone writes (23 R385). -/
inductive KsWrite where
  | slot (slice slot : Nat) (val : DWord)
  | granule (vf g : Nat) (val : BitVec 16)
  | config (vf : Nat) (val : DWord)
  | bind (vf dev : Nat) (fn : Option Nat)
  | accept (vf : Nat) (pairs : List (Nat × Nat))
  | deviceId (id : BitVec 8)
  deriving DecidableEq, Repr

/-- The 256 bytes of a flit (22 R374): its header (Table 22-2), its fifteen 16-byte slots and its CRC. -/
structure Flit where
  head : BitVec 64
  slots : List (BitVec 128)
  crc : BitVec 64
  deriving DecidableEq, Repr

/-- An AtomicOp that the host asks the device to complete (22 R370): FetchAdd, Swap or CAS. -/
inductive HostAtomic where
  | fetchAdd | swap | cas (compare : Nat)
  deriving DecidableEq, Repr

/-- What the host sends to BAR2 (22 R370): the bytes of a write, or the operand of an AtomicOp. -/
structure HostStore where
  bytes : List Byte
  op : Option HostAtomic
  deriving DecidableEq, Repr

/-! ### The instructions and steps -/

/-- One constructor for each row of spec/opcode_table.json. -/
inductive Instr where
  -- UNI (11 Tables 11-2 and 11-5)
  | nop (c : Ctl0)
  | bra (c : Ctl) (t : SrcB)
  | brc (c : Ctl) (cond : BrCond) (a : Desc) (t : SrcB)
  | brd (c : Ctl) (t : SrcB)
  | join (c : Ctl0) (t : SrcB)
  | call (c : Ctl) (d : Desc) (t : SrcB)
  | ret (c : Ctl) (a : Desc)
  | loop (c : Ctl) (d : Desc) (t : SrcB)
  | kmov (c : Ctl) (d : Desc) (b : SrcB) (ty : ITy)
  | kadd (c : Ctl) (d a : Desc) (b : SrcB) (ty : ITy) (sat : Bool)
  | ksub (c : Ctl) (d a : Desc) (b : SrcB) (ty : ITy) (sat : Bool)
  | kmul (c : Ctl) (d a : Desc) (b : SrcB) (ty : ITy) (sat : Bool)
  | kand (c : Ctl) (d a : Desc) (b : SrcB) (ty : ITy)
  | kor (c : Ctl) (d a : Desc) (b : SrcB) (ty : ITy)
  | kxor (c : Ctl) (d a : Desc) (b : SrcB) (ty : ITy)
  | ksh (c : Ctl) (d a : Desc) (b : SrcB) (ty : ITy) (kind : ShKind) (sat : Bool)
  | kcmp (c : Ctl) (d a : Desc) (b : SrcB) (ty : ITy) (cond : Cond)
  | ksel (c : Ctl) (d a b e : Desc) (ty : ITy)
  | kmad (c : Ctl) (d a b e : Desc) (ty : ITy) (sat : Bool)
  | vote (c : Ctl) (d : Desc) (op : VoteOp) (hi neg : Bool) (n : BitVec 3)
  | rdlane (c : Ctl) (d va : Desc) (t : SrcB) (w64 : Bool)
  | wrlane (c : Ctl) (vd a : Desc) (t : SrcB) (w64 : Bool)
  | tail (c : Ctl0)
  | setiw (c : Ctl) (a : Desc) (b : SrcB)
  -- VEC integer (11 Table 11-7)
  | vmov (c : Ctl) (op : VMovOp) (ty : ITy)
  | vadd (c : Ctl) (d a : Desc) (b : SrcB) (ty : ITy) (sat : Bool)
  | vsub (c : Ctl) (d a : Desc) (b : SrcB) (ty : ITy) (sat : Bool)
  | vmul (c : Ctl) (d a : Desc) (b : SrcB) (ty : ITy) (hi sat : Bool)
  | vmad (c : Ctl) (d a b e : Desc) (ty : ITy) (sat : Bool)
  | vquo (c : Ctl) (d a : Desc) (b : SrcB) (ty : ITy) (rem sat : Bool)
  | vand (c : Ctl) (d a : Desc) (b : SrcB) (ty : ITy)
  | vor (c : Ctl) (d a : Desc) (b : SrcB) (ty : ITy)
  | vxor (c : Ctl) (d a : Desc) (b : SrcB) (ty : ITy)
  | vbic (c : Ctl) (d a : Desc) (b : SrcB) (ty : ITy)
  | vshl (c : Ctl) (d a : Desc) (b : SrcB) (ty : ITy) (sat : Bool)
  | vshr (c : Ctl) (d a : Desc) (b : SrcB) (ty : ITy)
  | vfun (c : Ctl) (d a b e : Desc) (ty : ITy) (left : Bool)
  | vbfx (c : Ctl) (d a : Desc) (b : SrcB) (ty : ITy)
  | vbfi (c : Ctl) (d a b e : Desc) (ty : ITy)
  | vcnt (c : Ctl) (d a : Desc) (op : CntOp) (ty : ITy)
  | vmin (c : Ctl) (d a : Desc) (b : SrcB) (ty : ITy)
  | vmax (c : Ctl) (d a : Desc) (b : SrcB) (ty : ITy)
  | vabsd (c : Ctl) (d a : Desc) (b : SrcB) (ty : ITy) (sat : Bool)
  | vcmp (c : Ctl) (p : BitVec 3) (a : Desc) (b : SrcB) (ty : ITy) (cond : Cond) (comb : Combine)
  | vsel (c : Ctl) (d a : Desc) (b : SrcB) (ty : ITy) (n : BitVec 3) (neg : Bool)
  | vshfl (c : Ctl) (d a : Desc) (b : SrcB) (ty : ITy) (mode : ShflMode) (all : Bool)
  | vmatch (c : Ctl) (d a : Desc) (ty : ITy)
  | vscan (c : Ctl) (d a : Desc) (key : Option Desc) (ty : ITy) (op : ScanOp) (excl all sat : Bool)
  | vaddr (c : Ctl) (d a : Desc) (b : SrcB) (uns : Bool) (sh : BitVec 3)
  | vprm (c : Ctl) (d a b e : Desc) (uns : Bool)
  -- VEC float (12 Table 12-1)
  | fadd (c : Ctl) (d a : Desc) (b : SrcB) (ty : FTy) (rm : RM) (sat : Bool)
  | fsub (c : Ctl) (d a : Desc) (b : SrcB) (ty : FTy) (rm : RM) (sat : Bool)
  | fmul (c : Ctl) (d a : Desc) (b : SrcB) (ty : FTy) (rm : RM) (sat : Bool)
  | fma (c : Ctl) (d a b e : Desc) (ty : FTy) (rm : RM) (sat : Bool)
  | fmin (c : Ctl) (d a : Desc) (b : SrcB) (ty : FTy)
  | fmax (c : Ctl) (d a : Desc) (b : SrcB) (ty : FTy)
  | fsgn (c : Ctl) (d a : Desc) (b : SrcB) (ty : FTy) (op : SgnOp)
  | fcmp (c : Ctl) (p : BitVec 3) (a : Desc) (b : SrcB) (ty : FTy) (cond : FCond) (comb : Combine)
  | fclass (c : Ctl) (d a : Desc) (ty : FTy)
  | frcp (c : Ctl) (d a : Desc) (ty : FTy) (rm : RM) (sat : Bool)
  | frsq (c : Ctl) (d a : Desc) (ty : FTy) (rm : RM) (sat : Bool)
  | fsqrt (c : Ctl) (d a : Desc) (ty : FTy) (rm : RM)
  | fdiv (c : Ctl) (d a : Desc) (b : SrcB) (ty : FTy) (rm : RM) (sat : Bool)
  | fexp2 (c : Ctl) (d a : Desc) (ty : FTy) (rm : RM) (sat : Bool)
  | flog2 (c : Ctl) (d a : Desc) (ty : FTy) (rm : RM)
  | ftrig (c : Ctl) (d a : Desc) (ty : FTy) (cos : Bool) (rm : RM)
  | frnd (c : Ctl) (d a : Desc) (ty : FTy) (rm : RM)
  | cvtf (c : Ctl) (d a : Desc) (dir : CvtDir) (ty : FTy) (rm : RM) (sat : Bool)
  | cvti (c : Ctl) (d a : Desc) (toFloat : Bool) (ity : ITy) (ty : FTy) (rm : RM) (sat : Bool)
  | qblk (c : Ctl) (d a b e : Desc) (fmt : QFmt) (ty : FTy) (rm : RM)
  | dqblk (c : Ctl) (d a b : Desc) (ty : FTy) (rm : RM) (sat : Bool)
  | hadm (c : Ctl) (d a : Desc) (ty : FTy) (h32 : Bool) (rm : RM) (sat : Bool)
  | fdot (c : Ctl) (d a b e : Desc) (ty : FTy) (rm : RM) (sat : Bool)
  | fred (c : Ctl) (d a : Desc) (ty : FTy) (op : RedOp) (all : Bool) (rm : RM) (sat : Bool)
  | fsrn (c : Ctl) (d a cls : Desc) (dst : FCode) (ty : FTy) (sat : Bool)
  | fpack (c : Ctl) (d a b : Desc) (dst : FCode) (pos : BitVec 2) (ty : FTy) (rm : RM) (sat : Bool)
  -- MEM data-moving (13 Table 13-2)
  | ldsc (c : Ctl) (d base : Desc) (off : SrcB) (m : LdMods)
  | stsc (c : Ctl) (base data : Desc) (off : SrcB) (tag : Desc) (m : StMods)
  | stscPush (c : Ctl) (e : BitVec 2) (data tag : Desc) (uns : Bool) (ch : BitVec 2) (tagged : Bool)
  | amsc (c : Ctl) (d addr : Desc) (b : SrcB) (cmp : Desc) (m : AmMods)
  | ldsh (c : Ctl) (d base : Desc) (off : SrcB) (m : LdMods)
  | stsh (c : Ctl) (base data : Desc) (off : SrcB) (tag : Desc) (m : StMods)
  | amsh (c : Ctl) (d addr : Desc) (b : SrcB) (cmp : Desc) (m : AmMods)
  | ldcv (c : Ctl) (d base : Desc) (off : SrcB) (m : LdMods)
  | stcv (c : Ctl) (base data : Desc) (off : SrcB) (tag : Desc) (m : StMods)
  | amcv (c : Ctl) (d addr : Desc) (b : SrcB) (cmp : Desc) (m : AmMods)
  | lddv (c : Ctl) (d base : Desc) (off : SrcB) (m : LdMods)
  | stdv (c : Ctl) (base data : Desc) (off : SrcB) (tag : Desc) (m : StMods)
  | amdv (c : Ctl) (d addr : Desc) (b : SrcB) (cmp : Desc) (m : AmMods)
  | ldpr (c : Ctl) (d base : Desc) (off : SrcB) (m : LdMods)
  | stpr (c : Ctl) (base data : Desc) (off : SrcB) (tag : Desc) (m : StMods)
  | ampr (c : Ctl) (d addr : Desc) (b : SrcB) (cmp : Desc) (m : AmMods)
  | ldhs (c : Ctl) (d base : Desc) (off : SrcB) (m : LdMods)
  | sths (c : Ctl) (base data : Desc) (off : SrcB) (tag : Desc) (m : StMods)
  | amhs (c : Ctl) (d addr : Desc) (b : SrcB) (cmp : Desc) (m : AmMods)
  -- MEM ordering, waiting and maintenance (13 Table 13-6)
  | fence (c : Ctl) (scope : Scope)
  | waitc (c : Ctl) (ctr : Ctr) (n : BitVec 6)
  | barw (c : Ctl0) (conv : Bool) (id : BitVec 4)
  | waitv (c : Ctl) (d addr : Desc) (b : SrcB) (sp : WvSpace) (cond : Cond) (w64 sg : Bool)
  | pref (c : Ctl) (base : Desc) (off : SrcB) (l1 : Bool)
  | disc (c : Ctl) (base : Desc) (off : SrcB)
  | smap (c : Ctl) (slot : BitVec 2) (g o n : Desc)
  | smapUnb (c : Ctl) (slot : BitVec 2)
  | swb (c : Ctl) (a : Desc) (n : SrcB)
  | cctl (c : Ctl) (a : Desc) (n : SrcB) (op : CcOp)
  | evpop (c : Ctl) (d hdr : Desc) (ring nb : Bool)
  -- MTX (14 Table 14-2)
  | mres (c : Ctl) (pd : BitVec 3) (sel : MSel) (kd : Option Desc)
  | mresGrv (c : Ctl) (pd : BitVec 3)
  | mrel (c : Ctl) (e : BitVec 2)
  | mrelGrv (c : Ctl)
  | mldb (c : Ctl) (e : BitVec 2) (page : BitVec 6) (addr : Desc) (saddr : Option Desc)
  | mring (c : Ctl) (e : BitVec 2) (base cnt sbase : Desc)
  | mma (c : Ctl) (e : BitVec 2) (cls : MCls) (w0 : BitVec 9) (page : BitVec 6) (m : Desc) (sh : Option (BitVec 2))
      (boff : Option Desc)
  | mcmt (c : Ctl) (e : BitVec 2) (g : BitVec 2) (cond : Desc)
  | mzero (c : Ctl) (e : BitVec 2) (w0 : BitVec 9) (n : SrcB) (d64 : Bool)
  | mstc (c : Ctl) (e : BitVec 2) (w0 : BitVec 9) (addr n stride : Desc)
  | mldc (c : Ctl) (e : BitVec 2) (w0 : BitVec 9) (addr n stride : Desc) (d64 : Bool)
  | mfnc (c : Ctl) (d : Desc)
  | mwait (c : Ctl) (b : SrcB)
  | taskq (c : Ctl) (addr : Desc)
  | tsten (c : Ctl) (w h mask : Desc)
  | aownRd (c : Ctl) (e : BitVec 2) (d : Desc) (w : BitVec 9)
  | aownWr (c : Ctl) (e : BitVec 2) (w : BitVec 9) (a : Desc)
  -- GRV (14 Table 14-5)
  | ggen (c : Ctl) (gd : BitVec 5) (vn : Desc) (cls : BitVec 6) (bip x : Bool)
  | gcnt (c : Ctl) (vd : Desc) (gs : BitVec 5) (kind : GCntKind)
  | gand (c : Ctl) (gd ga gb : BitVec 5) (cor : Bool)
  | gxnr (c : Ctl) (gd ga gb : BitVec 5) (cor : Bool)
  | gmux (c : Ctl) (gd ga gb gs : BitVec 5) (cor : Bool)
  | gacc (c : Ctl) (vd : Desc) (ga : BitVec 5) (n : BitVec 5)
  | greg (c : Ctl) (gd gs : BitVec 5) (cls : BitVec 6)
  | gshf (c : Ctl) (gd gs : BitVec 5) (r : SrcB)
  | gcmp (c : Ctl) (d : Desc) (gs : BitVec 5) (vn : Desc) (first : Bool)
  | glen (c : Ctl) (l : SrcB)
  | gseed (c : Ctl) (cls : BitVec 6) (value : SrcB)
  | gmov (c : Ctl) (gd gs : BitVec 5)
  | gmovLd (c : Ctl) (gd : BitVec 5) (ka : Desc)
  | gmovSt (c : Ctl) (ka : Desc) (gs : BitVec 5)
  -- CPY (14 Table 14-6)
  | copy (c : Ctl) (dst src : Desc) (n : SrcB) (mask : Desc) (dsp ssp : CpSpace) (cv : CpConv) (mc : Bool)
  | cpy2 (c : Ctl) (dst src kg : Desc) (dsp ssp : CpSpace)
  | task (c : Ctl) (entry arg kh : Desc)
  | sgnl (c : Ctl) (addr b : Desc) (set : Bool) (scope : SgScope)
  | grid (c : Ctl) (rec : Desc) (q : SrcB)
  | cmsg (c : Ctl) (addr kw : Desc)
  | cbuf (c : Ctl) (pd : BitVec 3) (hdr kw : Desc) (nb : Bool)
  | coll (c : Ctl) (dst src n kg : Desc) (op : CollOp) (ty : CollTy) (root : BitVec 8)
  -- SYS (14 Table 14-7)
  | trap (c : Ctl) (imm : BitVec 6)
  | rte (c : Ctl0)
  | sysr (c : Ctl) (d : Desc) (idx : BitVec 6)
  | sysw (c : Ctl) (idx : BitVec 6) (a : Desc)
  | probe (c : Ctl) (d addr : Desc) (sp : PrSpace) (kind : PrKind)
  | achk (c : Ctl)
  -- Xcairn (07 Table 7-2) and the base instructions of a Cairn core
  | clnRd (rd rs1 : BitVec 5) (imm : BitVec 12)
  | clnGet (rd : BitVec 5) (imm : BitVec 12)
  | clnBud (rd : BitVec 5)
  | clnDone (act : BitVec 12)
  | clnKeep (rd : BitVec 5) (prio : BitVec 12)
  | clnWr (rs1 rs2 : BitVec 5) (imm : BitVec 12)
  | clnReq (rd rs1 rs2 : BitVec 5)
  | clnFwd (rd rs1 rs2 : BitVec 5)
  | clnRply (rs1 : BitVec 5)
  | clnAtom (op : ClnAtom) (rd rs1 rs2 : BitVec 5)
  | clnEvq (rd rs1 rs2 : BitVec 5)
  | cairnBase (i : RvInstr) (short : Bool)
  -- steps of the device (spec/95_what_each_step_holds.md)
  | unassignedOpcode (w : DWord)
  | clauseHeaderDecode (w : DWord)
  | lateFault (wv : WaveId) (cause : BitVec 10) (faddr : BitVec 57)
  | storeDrain (wv : WaveId)
  | stashFillArrival (conv crew line : Nat)
  | assayFillArrival (core line : Nat) (victim : Option Victim)
  | leaseFill (core line : Nat)
  | tickRebase (die : Nat)
  | remoteWriteApply (die idx : Nat)
  | peerRequestArrival (r : PeerReq)
  | peerResponse (wv : WaveId) (st : FarStatus)
  | hostCompletion (wv : WaveId) (st : FarStatus)
  | hostCompletionTimeout (wv : WaveId)
  | hostWriteRefused (wv : WaveId)
  | copyComplete (wv : WaveId) (pick : Nat) (r : CopyTry)
  | gravelOpComplete (cluster fails : Nat)
  | matrixKblock (cluster e : Nat) (r : RowTry)
  | matrixOpComplete (cluster e : Nat)
  | tileTaskRelease (cluster : Nat)
  | tileTaskRetire (cluster : Nat) (r : TileTry)
  | tileTaskFault (cluster e : Nat) (cause : BitVec 10) (faddr : BitVec 57)
  | collComplete (wv : WaveId) (data : List (List Byte)) (agree : Bool)
  | messageAccepted (wv : WaveId)
  | handlerInvocation (slice : Nat)
  | cairnBudgetExpiry (slice : Nat)
  | cairnShareExhausted (slice slot : Nat)
  | cairnRequestFill (slice idx : Nat)
  | wakeReevaluate (wv : WaveId)
  | spinDetect (wv : WaveId)
  | spinTimeout (wv : WaveId)
  | taskWaveDispatch (grid cluster : Nat)
  | taskGatherTimeout (grid cluster : Nat)
  | taskAging (grid cluster : Nat)
  | retirementDrainDone (wv : WaveId)
  | doorbell (vf : Nat) (val : DWord)
  | qerrClear (vf : Nat) (val : DWord)
  | queueEnable (vf q : Nat)
  | launchRecordAccept (vf q : Nat)
  | dependenceRelease (vf q : Nat)
  | placementBlockingTimeout (vf q : Nat)
  | starvationPreempt (vf q : Nat)
  | timeSliceExpiry (cluster vf : Nat)
  | residentWaitSwitch (conv : Nat)
  | wakeTableSweep (die : Nat)
  | gridCompletion (grid : Nat)
  | preemptRequest (conv : Nat) (why : PreReason)
  | drainTimeout (conv : Nat)
  | convoySave (conv : Nat)
  | convoyFlush (conv : Nat)
  | freqWrite (cluster : Nat) (code : BitVec 7)
  | transitionTimeout (cluster : Nat)
  | servoStep (cluster mism recov : Nat)
  | frailWrite (die : Nat) (on : Bool)
  | gateDie (die : Nat)
  | wakeDie (die : Nat)
  | selfRefreshEntry (stack : Nat)
  | savereq (val : DWord)
  | thermalMigrationStep (temps : List Nat)
  | rationStep (overPower : Bool) (temps : List Nat)
  | invctlGo (vf : Nat)
  | invalidationDone (vf : Nat)
  | ptbrWrite (vf : Nat) (val : DWord)
  | lwatchEnable (vf n : Nat) (val : DWord)
  | bar2Write (vf fpa : Nat) (data : HostStore)
  | bar2Read (vf fpa bytes : Nat)
  | cxlMemWrite (vf fpa : Nat) (data : List Byte)
  | cxlMemRead (vf fpa bytes : Nat)
  | flitReceive (port : Nat) (f : Flit)
  | trainingDone (port : Nat)
  | trainingTimeout (port : Nat)
  | failureDetect (dev : Nat)
  | declarationApply (dev : Nat)
  | groupEnable (vf j : Nat) (val : DWord)
  | fwAttest (vf : Nat)
  | fwReservedOp (vf : Nat) (op : BitVec 4)
  | memoryTrainingDone (die : Nat)
  | scratchScrub (find : ScrubFind)
  | hbmTransferReceive (line : Nat) (tries : List HbmTry) (reader : Option WaveId)
  | laneSwapDone (stack pch : Nat) (last : HbmTry) (reader : Option WaveId)
  | registerWrite (vf off : Nat) (val : DWord)
  | keystoneConfiguration (w : KsWrite)
  | handlerCodeLoad (slice slot : Nat) (ev : SlotEvent)
  | memoryTrainingFail (die : Nat)
  | katInjection (core lane : Nat) (good : Bool) (retests : List Bool)
  | counterClear (off : Nat)
  | wakeWithoutEvent (wv : WaveId)
  | msiXUnmask (vf vec : Nat)
  | powerLoss (halfWritten : Bool)
  -- rows without data: cln.drop and steps of the device (last, so that every constructor with data can be compiled)
  | clnDrop
  | leaseStep
  | cairnShareWindow
  | convoyPlacement
  | heartbeatSend
  | deviceReset
  | fwUpdate
  | quarryTimeout
  deriving DecidableEq, Repr

end Sys2Proof
end

