-- ==== Sys2Proof/Machine/State.lean ====
section
/-!
DEFINITION. Sys2Proof/Machine/State.lean: everything the spec gives the machine, as plain data, with its value at reset.
Keys that the spec does not name are said at the field. A map lists only the entries that differ from the default that
its docstring names, in rising order of its keys.
-/
namespace Sys2Proof.Machine

open Sys2Proof

/-- A finite map: pairs of a key and a value, keys strictly rising. -/
abbrev NMap (α : Type) := List (Nat × α)

/-- Memory as bytes by address: strictly rising, no byte 0 listed (an unlisted byte reads 0: 03 R49). -/
abbrev Memory := List Host.Cell

/-- Memory with its 64-byte lines' tags (03 R55); an unlisted line is tagged RAW, 0x0000 (03 R49). -/
structure Img where
  bytes : Memory
  tags : NMap Tag
  deriving DecidableEq, Repr

/-- The six address spaces of 03 Table 3-1, in the order of their codes. -/
inductive Space where
  | scratch | stash | convoy | device | peer | host
  deriving DecidableEq, Repr

/-- Engine classes of clauses (08 Table 8-1). -/
inductive Eng where
  | uni | vec | mem | mtx | grv | cpy | sys
  deriving DecidableEq, Repr

/-- Privilege of a wave (02 Table 2-5, 19 R330); Quarry and Keystone act through events. -/
inductive Level where
  | kernel | handler
  deriving DecidableEq, Repr

/-! ### Waves -/

/-- The clause the wave is in: its header's address, class, CNT and M (08 R145, R146). -/
structure Clause where
  addr : DWord
  eng : Eng
  cnt : BitVec 4
  m : Bool
  deriving DecidableEq, Repr

/-- A reconvergence stack entry (02 Table 2-4). -/
structure StackEntry where
  jpc : DWord
  outer : Lanes
  pend : Lanes
  deriving DecidableEq, Repr

/-- The milestone checkpoint (11 R203). -/
structure Ckpt where
  stack : List StackEntry
  active : Lanes
  deriving DecidableEq, Repr

/-- The bytes that one store writes to one line: line base address (physical, or offset), bytes by offset in the line,
the tag to set. -/
structure LineWrite where
  line : Nat
  bytes : NMap Byte
  tag : Option Tag
  deriving DecidableEq, Repr

/-- What an entry of the store queue is (04 R64, R65; 13 R256, R258, R259). A push brings the number of the ring that it was made to. -/
inductive SqKind where
  | store
  | push (e : Nat) (ring first count : Nat)
  | disc
  | swb (a n : Nat)
  | cctl (op : CcOp) (a n : Nat)
  deriving DecidableEq, Repr

/-- One instruction's entry in the store queue. A line of a DEVICE or STASH store is named by its physical address, of a PEER
store by its page's 52-bit PPN address (device and FPA), of a HOST store by its bus address. `info` holds, for each line, its
virtual address and its page's handler set (for CCTL: virtual and physical address of each page of the range); `fn` is the
function, `mmio` marks an MMIO page (21 R361), `hnd` an instruction of the trap handler. -/
structure SqEntry where
  kind : SqKind
  space : Space
  lines : List LineWrite
  info : List (Nat × Nat)
  fn : Nat
  mmio : Bool
  hnd : Bool
  deriving DecidableEq, Repr

/-- A recorded late fault (19 R329): cause and address. -/
structure LateF where
  cause : BitVec 10
  faddr : BitVec 57
  deriving DecidableEq, Repr

/-- An outstanding COPY or CPY2 (14 R278): spaces, base addresses, row bytes, rows, strides, conversion, whether the
trap handler issued it, and the destination lines not yet performed (row, line in the row, crew). -/
structure CopyOp where
  dsp : CpSpace
  ssp : CpSpace
  dst : Nat
  src : Nat
  rowBytes : Nat
  dstStride : Nat
  srcStride : Nat
  cv : CpConv
  multicast : Bool
  hnd : Bool
  left : List (Nat × Nat × Nat)
  deriving DecidableEq, Repr

/-- An outstanding COLL (14 R286, 22 R381). -/
structure CollOp' where
  table : Nat
  gid : Nat
  seq : Nat
  dst : Nat
  src : Nat
  n : Nat
  op : CollOp
  ty : CollTy
  root : Nat
  deriving DecidableEq, Repr

/-- An outstanding CMSG (14 R284): target line (physical and virtual), handler set, payload; `done` once accepted, until its
completion is reported in issue order (04 R83). -/
structure MsgOp where
  pa : Nat
  va : Nat
  set : Nat
  words : List DWord
  hnd : Bool
  done : Bool
  deriving DecidableEq, Repr

/-- The answer to a PEER or HOST request of one line: its status, and the line's bytes and tag as they were read (13 R242). -/
structure FarAnswer where
  line : Nat
  status : FarStatus
  bytes : List Byte
  tag : Tag
  deriving DecidableEq, Repr

/-- A PEER or HOST load or atomic that awaits its answers (13 R248, 22 R372, R379): the lines not yet answered, each with its page's
class (21 Table 21-2), and the answers received; and the HOST writes that left the die before it and are not over, behind which it stays
(22 R372). -/
structure FarReq where
  space : Space
  atomic : Bool
  lines : List (Nat × Nat)
  got : List FarAnswer
  behind : Nat
  deriving DecidableEq, Repr

/-- Operations in flight that a wave's DOM counter counts (04 R72, R76; 13 R248; 14 R286); `hnd`: issued by
the trap handler (19 R334); `done`: complete, its report waiting for earlier ones (04 R83). -/
inductive DomOp where
  | store (e : SqEntry)
  | atomic (space : Space)
  | coll (o : CollOp') (hnd : Bool)
  | done
  deriving DecidableEq, Repr

/-- Wait records (18 Table 18-7). `bar` keeps the barrier's generation at the arrival. A line is named by its physical
address; a scratchpad line of crew c by 2^60 + 2^20·c + offset, a convoy-memory line of convoy n by 2^61 + 2^24·n + offset. -/
inductive WaitRec where
  | line (pa : Nat)
  | bar (conv : Bool) (id : Nat) (gen : Bool)
  | evq
  | batch (n : BitVec 16)
  | mfnc
  | batchEng (e : Nat)
  | slice (n : Nat)
  | aring (e : Nat)
  | tileQueue
  | taskQueue (tdesc : Nat)
  | launchQueue (q : Nat)
  | spin (lines : List Nat)
  deriving DecidableEq, Repr

/-- A task of a task grid: entry and argument record (01 R25); `aged` after 65,536 fabric cycles in the queue (01 R26). -/
structure TaskRec where
  entry : DWord
  arg : List Byte
  aged : Bool
  deriving DecidableEq, Repr

/-- One wave (01 Table 1-1, 02 Table 2-1, 20 Table 20-7). v is keyed by 256·thread + register, i by 128·index register +
thread; an unlisted register, predicate or index register is 0. `wrote` lists the DEVICE lines that its stores have written
since its last FENCE.SYS (04 Table 4-2); `tasks` the tasks that a wave of a task grid carries. `inner` is the clause that a trap interrupted (19 R335). A loop
that the spin detector follows lies from `spinTarget` to `spinEnd` (18
R326). -/
structure Wave where
  core : Nat
  slot : Nat
  depth : Nat
  vregs : Nat
  kregs : Nat
  launched : Lanes
  tasks : List TaskRec
  pc : DWord
  clause : Option Clause
  level : Level
  v : NMap Word
  k : NMap DWord
  p : NMap Lanes
  i : NMap Byte
  active : Lanes
  stack : List StackEntry
  mile : Word
  milepc : DWord
  ckpt : Ckpt
  iwb : BitVec 8
  iwl : BitVec 9
  cCpy : Nat
  cGrv : Nat
  cMsg : Nat
  cDom : Nat
  batchOpen : BitVec 16
  batchClosed : BitVec 16
  sq : List SqEntry
  wrote : List Nat
  copies : List CopyOp
  msgs : List MsgOp
  doms : List DomOp
  far : Option FarReq
  epc : BitVec 57
  cause : BitVec 10
  faddr : BitVec 57
  flane : Lanes
  trapKind : Nat
  frame : Nat
  inner : Option Clause
  late : Option LateF
  wait : Option WaitRec
  woken : Bool
  accepted : Nat
  prog : Nat
  dbg : List DWord
  skipBreak : Option DWord
  replay : Option Lanes
  spinTarget : DWord
  spinEnd : DWord
  spinCount : Nat
  spinCur : List (Nat × Nat)
  spinPrev : List (Nat × Nat)
  stall : Bool
  ended : Bool
  drained : Bool
  deriving DecidableEq, Repr

/-! ### Crews, convoys and grids -/

/-- A barrier word (20 Table 20-6), with the wave indices that have arrived. -/
structure Bar where
  arrived : List Nat
  gen : Bool
  deriving DecidableEq, Repr

/-- A stash binding (03 R51): global range, scratchpad offset, the physical page of each 4 KiB page it touches, and the
lines (offsets in the range) present, dirty and being filled. -/
structure Bind where
  g : Nat
  s : Nat
  n : Nat
  pages : NMap Nat
  present : List Nat
  dirty : List Nat
  filling : List Nat
  deriving DecidableEq, Repr

/-- One crew (01 Table 1-1). `hAt` keeps, for an h register written, the assay cycle of its last write and the wave slot whose
value stands (02 R36). -/
structure Crew where
  core : Nat
  waves : Nat
  h : NMap Word
  hAt : NMap (Nat × Nat)
  scratchBytes : Nat
  scratch : Img
  bars : NMap Bar
  binds : NMap Bind
  evq : List (List Byte)
  held : List (List Byte)
  bad : List Nat
  deriving DecidableEq, Repr

/-- Whether a convoy runs, runs on to retirement (drain), has stopped for a save or a flush, or is saved (20 R346 to R354). -/
inductive ConvSt where
  | resident | draining | saving | flushing | saved
  deriving DecidableEq, Repr

/-- An MMA (05 R100): class, page, whether the page was in state data-S4, first window, rows, shadow group, band scales; and its
progress: the pass, the first row of the next K-block and the K-block's place in its ring entries, and how many rows it takes when its
entries' first K-block is done (05 R109). -/
structure Mma where
  cls : MCls
  page : Nat
  s4 : Bool
  w0 : Nat
  m : Nat
  sh : Option Nat
  betas : Option (List Nat)
  pass : Nat
  row : Nat
  kb : Nat
  grp : Nat
  deriving DecidableEq, Repr

/-- What a matrix operation does (05 R100, R101), with the operands read at its commit and its progress: `left` lists the
lines not yet moved. Lines are pairs of physical and virtual address. MLDB: page, the 512 data lines and under .S4 the 128 lines of the
scale plane. MSTC: first window and the mode of each window. -/
inductive MOpKind where
  | mldb (page : Nat) (lines : List (Nat × Nat)) (left : List Nat)
  | mring
  | mma (o : Mma)
  | mcmt (g : Nat) (commit : Bool)
  | mzero (w0 n : Nat)
  | mstc (w0 : Nat) (modes : List Bool) (lines : List (Nat × Nat)) (left : List Nat)
  | mldc (w0 : Nat) (lines : List (Nat × Nat)) (left : List Nat)
  deriving DecidableEq, Repr

/-- A matrix operation in an engine's queue: issuing wave (key), batch, operation, whether the trap
handler issued it (19 R334). -/
structure MOp where
  wave : Nat
  batch : BitVec 16
  op : MOpKind
  hnd : Bool
  deriving DecidableEq, Repr

/-- One convoy (01 Table 1-1, 20 Tables 20-5 and 20-6). `susp` holds the suspended operations of a saved convoy with their
engine numbers (20 R348), `kept` for each matrix engine it held its number, the crew of its ring and the faults of its shadow groups (4 stands for Gravel),
`lost` the engines whose lazy Slate write failed (R420). `order` is the running number of its last placement, `since` the fabric
cycle of it, `life` the cycles placed before it, `moves` the thermal steps at which it was moved (24 R403). -/
structure Convoy where
  vf : Nat
  q : Nat
  grid : Nat
  index : Nat
  cluster : Nat
  crews : Nat
  slot : Nat
  st : ConvSt
  why : PreReason
  runnable : Bool
  cmemBytes : Nat
  cmem : Img
  bars : NMap Bar
  susp : List (Nat × MOp)
  kept : List (Nat × Nat × NMap LateF)
  lost : List (Nat × LateF)
  submitted : Bool
  relaunches : Nat
  order : Nat
  since : Nat
  life : Nat
  moves : List Nat
  freeChoice : Bool
  target : Option Nat
  teardown : Option LateF
  bad : List Nat
  deriving DecidableEq, Repr

/-- A flushed convoy that waits to be placed again (20 R354): %convoy, save slot, relaunches, and the tasks that it carries in a task
grid. -/
structure Again where
  index : Nat
  slot : Nat
  relaunches : Nat
  tasks : List TaskRec
  deriving DecidableEq, Repr

/-- One accepted launch (18 Table 18-3, R312 to R316; 08 Table 8-7). Of a task grid: the slot array, its size, the physical
address of the descriptor, the number of tasks submitted, and the tasks queued and not dispatched. `again` lists the flushed
convoys; `due` counts, once its convoys have retired, the writes of each die that its completion waits for (18 R314); `life` sums the placed cycles of the retired ones. `after`: the grid whose
completion record must have been written before its convoys are placed (SERIAL). `noRecord`: its queue has been
disabled, and its completion record is dropped (18 R309). `signalled`: the signal is made and the record waits for room, `lost` the
cause where SIGA was lost (18 R315). -/
structure Grid where
  vf : Nat
  q : Nat
  seq : Nat
  entry : DWord
  w : Nat
  d : Nat
  v : Nat
  kk : Nat
  scratch : Nat
  crews : Nat
  cmem : Nat
  idem : Bool
  params : List DWord
  nconv : Nat
  placed : Nat
  again : List Again
  retired : Nat
  due : Option (List Word)
  depa : Option Nat
  depv : DWord
  depMet : Bool
  siga : Nat
  sigv : DWord
  scope : SgScope
  after : Option Nat
  partcap : Bool
  taskgrid : Bool
  tdesc : Nat
  diemask : BitVec 4
  prio : Nat
  utag : DWord
  code : Nat
  qbase : Nat
  qsize : Nat
  tpa : Nat
  sent : Nat
  tasks : List TaskRec
  outst : Nat
  blocking : Bool
  failed : Option (LateF × Nat)
  life : Nat
  noRecord : Bool
  signalled : Bool
  lost : Option (BitVec 10)
  deriving DecidableEq, Repr

/-! ### Engines -/

/-- States of a Slate page (05 Table 5-1). -/
inductive PageSt where
  | empty | data | dataS4 | scaleHolder
  deriving DecidableEq, Repr

/-- The A-ring (05 R97, R98): its number among the engine's rings, owning crew, base, entry count, scale base, head and tail as
running counts, free count, and the pushed entries whose data have been performed. -/
structure Ring where
  no : Nat
  crew : Nat
  base : Nat
  entries : Nat
  sbase : Nat
  head : Nat
  tail : Nat
  free : Nat
  ready : List Nat
  deriving DecidableEq, Repr

/-- A shadow window (05 R104): window, group, contents by byte offset; not `live` until the first write takes the window's
value. `gen` counts the MCMTs of the group that were pending ahead of the MMA.SH that needs it; `bad` lists its uncorrectable words. -/
structure Shadow where
  win : Nat
  group : Nat
  gen : Nat
  live : Bool
  bytes : NMap Byte
  bad : List Nat
  deriving DecidableEq, Repr

/-- A tile-task record (05 Table 5-3), with its poster: context, grid, and the convoy's index in it; `stored` once its writes of C are
performed and that on DONE is to follow (05 R107). -/
structure TileTask where
  ctx : BitVec 16
  grid : Nat
  conv : Nat
  abase : Nat
  astride : Nat
  m : Nat
  npg : Nat
  bbase : Nat
  cbase : Nat
  cstride : Nat
  x : Nat
  y : Nat
  cls : MCls
  acc : Bool
  done : Nat
  stored : Bool
  deriving DecidableEq, Repr

/-- One matrix engine (05 Table 5-1). Slate bytes are keyed by 32,768·page + offset (tags by line), window bytes by
4,096·window + offset; `slateBad` and `winBad` list the uncorrectable lines and words by the same numbers (05 R111). `ringNo` counts
the rings set, and `freedBy` is the convoy that released the engine last (20 R347). -/
structure Engine where
  holder : Option Nat
  freedBy : Option Nat
  slate : Img
  pageSt : NMap PageSt
  win : NMap Byte
  mode64 : BitVec 512
  owner : NMap (BitVec 16)
  ring : Option Ring
  ringNo : Nat
  shadows : List Shadow
  shFault : NMap LateF
  ops : List MOp
  slateBad : List Nat
  winBad : List Nat
  slateOf : Option Nat
  tile : Option TileTask
  deriving DecidableEq, Repr

/-- A set g register: 64 element streams (bit b of the number is bit b of the stream) and its class tag (06 Table 6-1). -/
structure GReg where
  bits : List Nat
  m : DWord
  s : BitVec 12
  x : Bool
  deriving DecidableEq, Repr

/-- An asynchronous Gravel operation (06 R119), with the sources read at commit: GGEN and GREG (`put`) bring the bits that their words,
drawn at the commit, give, and the generator state (32 + class) and registers read. Lines of an image are pairs of physical and virtual address; a stored register brings its tag (M, S, X). -/
inductive GOpKind where
  | put (gd : Nat) (reads bits : List Nat)
  | and (gd ga gb : Nat)
  | xnr (gd ga gb : Nat) (cor : Bool)
  | mux (gd ga gb gs : Nat)
  | shf (gd gs r : Nat)
  | mov (gd gs : Nat)
  | ld (gd : Nat) (lines : List (Nat × Nat))
  | st (gs : Nat) (m : DWord) (sh : BitVec 12) (x : Bool) (lines : List (Nat × Nat))
  | seed (cls : Nat) (value : Word)
  deriving DecidableEq, Repr

/-- A Gravel operation in arrival order, with its issuing wave (key). -/
structure GOp where
  wave : Nat
  op : GOpKind
  hnd : Bool
  deriving DecidableEq, Repr

/-- The Gravel engine of a cluster (06 Table 6-1). `lfsr` lists s_c of the classes 0 to 31; `index` and `shift` list n_j
and D_j of the classes 32 to 63. `bad` lists the uncorrectable registers, and as 32 + class generator states (06 R126); `fails`
counts the failed attempts that the next synchronous instruction meets (06 R126). -/
structure Gravel where
  holder : Option Nat
  freedBy : Option Nat
  len : Nat
  g : NMap GReg
  lfsr : List Word
  index : List Word
  shift : List Word
  ops : List GOp
  bad : List Nat
  fails : Nat
  deriving DecidableEq, Repr

/-- The tile extent, stencil and scoreboard of one context on one cluster (05 R108). -/
structure Board where
  w : Nat
  h : Nat
  mask : BitVec 24
  posted : List (Nat × Nat)
  retired : List (Nat × Nat)
  deriving DecidableEq, Repr

/-- One cluster (18 R320, 24 Table 24-2, 25 Table 25-2). `tileReady` lists the released tile tasks in the order of their
release. Boards are keyed by CTXID. -/
structure Cluster where
  engines : List Engine
  gravel : Gravel
  tileQueue : List TileTask
  tileReady : List TileTask
  boards : NMap Board
  temp : BitVec 8
  vnow : BitVec 8
  vset : BitVec 8
  busy : Bool
  servo : Bool
  fnow : BitVec 7
  freq : BitVec 7
  mrpl : DWord
  grpl : DWord
  crpl : DWord
  prst : DWord
  deriving DecidableEq, Repr

/-! ### Cores -/

/-- A line copy that the main L1 holds under a lease (03 R59), with the bytes that it claims for a load. -/
structure L1Copy where
  line : Nat
  rts : BitVec 20
  bytes : List Byte
  deriving DecidableEq, Repr

/-- What a miss slot waits for (03 R61, R63): a fill of the main L1, for a load or (`pref`) a prefetch; a line on its way to its slice
alone; or a stash fill. -/
inductive MissKind where
  | load | pref | slice | stash
  deriving DecidableEq, Repr

/-- A miss slot in use (03 R61): the line requested, its home slice, and the wave slot whose reserved slot it is; none for a
shared one. -/
structure MissSlot where
  kind : MissKind
  line : Nat
  slice : Nat
  wave : Option Nat
  deriving DecidableEq, Repr

/-- One core (03 R59, R61, 25 Tables 25-1 and 25-2). `miss` lists the miss slots in use, `fills` the assay-reload slots: line, and
whether a write has come between (04 R85); `due` lists the lanes that are to receive three known-answer operations at once (25
R410). -/
structure Core where
  tick : BitVec 20
  lease : BitVec 8
  pwrq : BitVec 6
  aLvm : BitVec 16
  aSrm : BitVec 16
  aRsm : BitVec 16
  aRcy : BitVec 8
  chk : DWord
  lvm : DWord
  srm : DWord
  rsm : DWord
  rcy : DWord
  katRun : DWord
  katFail : DWord
  fenced : Lanes
  pfIss : DWord
  pfUse : DWord
  pfLate : DWord
  pfDrop : DWord
  stUse : DWord
  stDrop : DWord
  spce : DWord
  l1 : List L1Copy
  assay : List Nat
  fills : List (Nat × Bool)
  miss : List MissSlot
  due : List Nat
  gone : Bool
  deriving DecidableEq, Repr

/-! ### L2 slices and Cairn cores -/

/-- The L2 directory entry of a physical line: cache state, Cairn data (07 R131, R135, R136), timestamps (03 R59) the owning crew
of a stash line (03 R52), whether its MISS or EVICT is being served, the core whose PREF brought the line in until a checked access
hits it (25 R417), and when it was last used (`State.freeCtr`, 07 R131). -/
structure LineDir where
  present : Bool
  requested : Bool
  dirty : Bool
  unannounced : Bool
  pf : Option Nat
  prio : BitVec 2
  set : Nat
  vf : Nat
  va : Nat
  wts : BitVec 20
  rts : BitVec 20
  owner : Option Nat
  pinned : Bool
  evicting : Bool
  recent : Nat
  deriving DecidableEq, Repr

/-- A slot register (07 Table 7-1). `dead` marks a slot disabled by uncorrectable data (07 R143); `used` counts the fabric cycles
of this share window that ended invocations used, `spent` that its SHARE record is posted (07 R140). -/
structure Slot where
  en : Bool
  vf : Nat
  share : BitVec 8
  cbase : BitVec 8
  clen : BitVec 8
  dbase : BitVec 6
  dlen : BitVec 6
  dead : Bool
  used : Nat
  spent : Bool
  deriving DecidableEq, Repr

/-- Trigger kinds (07 Table 7-4). -/
inductive TrigKind where
  | miss | fill | evict | msg
  deriving DecidableEq, Repr

/-- A queued trigger (07 R135, R137). `token` is the crew (key) that awaits a completion record. -/
structure Trigger where
  kind : TrigKind
  line : Nat
  va : Nat
  vf : Nat
  set : Nat
  hops : Nat
  src : Nat
  msg : List DWord
  token : Option Nat
  deriving DecidableEq, Repr

/-- The running invocation of a Cairn core (07 R129, R131, R139); `start` is the fabric cycle of its first fetch. -/
structure Invoc where
  slot : Nat
  trig : Trigger
  arg : DWord
  budget : Nat
  start : Nat
  instret : Nat
  pc : DWord
  x : NMap DWord
  keep : Option (BitVec 2)
  drop : Bool
  evqs : Nat
  replied : Bool
  forwarded : Bool
  fetched : Bool
  deriving DecidableEq, Repr

/-- A request of cln.req in flight (07 R132). -/
structure CairnReq where
  line : Nat
  va : Nat
  vf : Nat
  set : Nat
  chain : Bool
  hops : Nat
  deriving DecidableEq, Repr

/-- One L2 slice with its Cairn core (07 R128, R138). -/
structure Slice where
  slots : List Slot
  code : NMap Byte
  data : NMap Byte
  queue : List Trigger
  dropped : Nat
  inv : Option Invoc
  reqs : List CairnReq
  deriving DecidableEq, Repr

/-! ### Dies and the package -/

/-- A write performed at one die and not yet applied at another (04 R69): source die, the dies still to apply it, its
vector clock, the line's bytes and tag, and who wrote it. -/
structure PkgWrite where
  src : Nat
  todo : List Nat
  vc : List Word
  write : LineWrite
  pkgAtomic : Bool
  deriving DecidableEq, Repr

/-- One die: its view of device memory where it differs from `hbm`'s image of it, applied-write counts, peer and host
copies, the waves whose HOST stores and atomics have left it and are not over, in order (22 R372), and DIEPWR (04 R64, R69, R74, R76; 24
Table 24-4). -/
structure Die where
  view : NMap Byte
  viewTags : NMap Tag
  vc : List Word
  peerCopies : NMap (List Byte × Tag)
  hostCopies : NMap (List Byte)
  hostOut : List Nat
  gate : Bool
  frail : Bool
  state : BitVec 2
  sr : BitVec 2
  cmp : Bool
  memReady : Bool
  memFail : Bool
  deriving DecidableEq, Repr

/-- A message of this device on a Causeway link (22 R376): the request for a line of a wave's PEER load or atomic; a line of its PEER
store, of its copy, of its COLL (by number and member device); the answer to a device's request; a heartbeat; the declaration that a
device has failed. A line is named by its page's 52-bit PPN address. -/
inductive CwMsg where
  | request (key line : Nat)
  | write (key line : Nat)
  | copy (key line : Nat)
  | reply (dev : Nat) (status : FarStatus)
  | coll (key seq dev : Nat)
  | heartbeat
  | declare (dev : Nat)
  deriving DecidableEq, Repr

/-- A payload flit that the far end has not acknowledged (22 R375): its number, slots and replays. -/
structure Sent where
  seq : BitVec 12
  slots : List (BitVec 128)
  replays : Nat
  deriving DecidableEq, Repr

/-- One Causeway port (22 R374 to R377): the replay buffer, and the numbers of its flits that are to be sent again; STOP as received; the
number that an outstanding NAK names, and whether the NAK is still to be sent; the messages that await their answers, in the order in which
they entered; the declarations to be sent; the flits that each channel's receive buffer holds; the flit sent last. -/
structure Port where
  up : Bool
  training : Bool
  expect : BitVec 12
  next : BitVec 12
  unacked : List Sent
  resend : List (BitVec 12)
  stopped : BitVec 5
  nak : Option (BitVec 12)
  nakDue : Bool
  msgs : List CwMsg
  flood : List Nat
  held : List Nat
  link : Option Flit
  deriving DecidableEq, Repr

/-- An answer that this device owes to another (22 R379): the device and the requested line's address there, the home die, the line here that
a write must reach all dies by, how it answers, and the data. -/
structure Owed where
  dev : Nat
  page : Nat
  die : Nat
  line : Option Nat
  status : FarStatus
  data : List Byte
  deriving DecidableEq, Repr

/-- Another device of the domain (22 R378): whether it is live, and its memory, keyed by 2^44·function + FPA. Whether it accepts a
request is its own tables' affair: the answer says it. -/
structure PeerDev where
  live : Bool
  mem : Img
  deriving DecidableEq, Repr

/-- One HBM stack's logs (25 Table 25-3); its swapped lanes, as pseudo-channel, lane and spare; and the swaps being made, as
pseudo-channel, lane and the line whose read waits (25 R415). -/
structure Stack where
  ace : DWord
  aue : DWord
  aaddr : DWord
  lrty : DWord
  llim : DWord
  lswap : DWord
  llast : DWord
  swaps : List (Nat × Nat × Nat)
  busySwap : List (Nat × Nat × Nat)
  deriving DecidableEq, Repr

/-- A cached translation (21 R363, R365): virtual page base, log2 of its size, leaf entry, entry address. -/
structure TlbEntry where
  va : Nat
  psz : Nat
  leaf : DWord
  entry : Nat
  deriving DecidableEq, Repr

/-- The device's copy of a launch queue descriptor (18 R308), and the accepted grid whose convoys are not all placed. `hd` and
`tail` are HEAD and TAIL as the device last read or wrote them. -/
structure Queue where
  en : Bool
  dev : Bool
  priv : Bool
  base : Nat
  size : Nat
  prio : Nat
  cring : Nat
  hd : Nat
  tail : Nat
  head : Option Nat
  last : Option Nat
  served : Nat
  deriving DecidableEq, Repr

/-- One function (18 Table 18-1, 19 Table 19-7, 20 Table 20-1, 21 Tables 21-1, 21-3 and 21-4, 22 Tables 22-1 and 22-3,
23 Table 23-2). `inv` is the range of virtual addresses being invalidated, BUSY being 1 then (21 R365); `usage` lists the past residences of its convoys: cluster, first and last fabric cycle (21 R368). -/
structure Fn where
  en : Bool
  mode : BitVec 2
  dies : BitVec 4
  slice : BitVec 8
  weight : BitVec 8
  bar2 : BitVec 4
  gran : NMap (BitVec 16)
  bind : NMap Nat
  accept : List (Nat × Nat)
  trapb : DWord
  htable : Option Nat
  qtb : DWord
  terb : DWord
  qerr : DWord
  lwatch : NMap DWord
  lwLine : NMap Nat
  csa : NMap DWord
  ptbr : DWord
  invaddr : DWord
  inv : Option (Nat × Nat)
  group : NMap DWord
  fwcmd : DWord
  fwlen : Word
  fwstat : BitVec 4
  overflow : Nat
  msixMask : List Nat
  msixPend : List Nat
  msixSent : NMap Nat
  queues : NMap Queue
  tlb : List TlbEntry
  usage : List (Nat × Nat × Nat)
  deriving DecidableEq, Repr

/-- Firmware state that Keystone keeps (23 R384 to R387). -/
structure Firmware where
  keystone : List Byte
  slotImage : List Byte
  running : List Byte
  floor : Nat
  svn : Nat
  key : Bool
  qry : Bool
  rcv : Bool
  deriving DecidableEq, Repr

/-- How the host's last access of device memory completed (22 R371): a read or an AtomicOp with data, or Unsupported Request. -/
inductive HostRead where
  | none
  | data (b : List Byte)
  | unsupported
  | poisoned
  | held
  deriving DecidableEq, Repr

/-- What the device has still to write: a record for the ring at TERB of a function, or for the ring at ERRB (19 R339, 25 R418); EN to
be cleared in a queue descriptor, at its physical address (18 R309). -/
inductive Post where
  | tenant (vf : Nat) (bytes : List Byte)
  | error (bytes : List Byte)
  | clearEn (desc : Nat)
  deriving DecidableEq, Repr

/-- Who acts in a step. -/
inductive Turn where
  | ev (i : Instr)
  | wave (w : WaveId)
  | cairn (slice : Nat)
  deriving DecidableEq, Repr

/-- Which agent steps while the agenda is empty. -/
inductive Focus where
  | none
  | wave (w : WaveId)
  | cairn (slice : Nat)
  deriving DecidableEq, Repr

/-- The whole machine. `poison` lists the lines poisoned in the array, `memErr` the lines whose next read meets the MEMERR cause of a
transfer that failed (25 R415). Waves are keyed by 128·convoy + 16·crew + wave, crews by 8·convoy + crew, convoys and grids by the
model's own running numbers; cores, clusters and slices by the spec's package numbers, die-major; lines by physical
address. `therm` counts the thermal steps, 1 ms each (24 R403). `hostLines` lists the lines that the host
holds under CXL.mem (22 R371); `declared` the failures ordered and not yet applied (22 R382). `codeHist` keeps, for each live grid g and 8-byte word a, at 2^48·g + a, the values it held before writes made while
g lives (08 R158). `leases` and `windows` count the lease steps and share windows begun (00 R4, 07 R140), `posts` lists the records to
append, in the order of their events, `owed` the answers due to other devices (22 R379), and `devPos` is the place in the round of the device's own steps. -/
structure State where
  agenda : List Turn
  focus : Focus
  freeCtr : Nat
  devPos : Nat
  clock : DWord
  fab : Nat
  leases : Nat
  windows : Nat
  posts : List Post
  powered : Bool
  waves : NMap Wave
  crews : NMap Crew
  convoys : NMap Convoy
  grids : NMap Grid
  nextConvoy : Nat
  nextGrid : Nat
  cores : NMap Core
  clusters : NMap Cluster
  slices : NMap Slice
  dies : List Die
  hbm : Img
  poison : List Nat
  memErr : NMap (BitVec 10)
  codeHist : NMap (List DWord)
  dir : NMap LineDir
  pkg : List PkgWrite
  wakeTable : NMap (List Nat)
  fns : NMap Fn
  hostMem : Memory
  peers : NMap PeerDev
  owed : List Owed
  ports : NMap Port
  routes : NMap (BitVec 24)
  devId : BitVec 8
  fw : Firmware
  rlim : BitVec 8
  mtgt : BitVec 16
  hot : BitVec 8
  plim : BitVec 8
  tration : BitVec 6
  therm : Nat
  allHot : Bool
  errb : DWord
  errovf : DWord
  dce : NMap DWord
  hbmStacks : NMap Stack
  errWindow : List (Nat × Nat × Nat)
  held : List Turn
  hostRead : HostRead
  hostLines : List Nat
  heartbeats : Nat
  declared : List Nat
  deriving DecidableEq, Repr

/-! ### How a run stops -/

/-- Faults: none is a trap of the spec, since every trap, teardown and abort the spec describes is a next state. -/
inductive Fault where
  /-- Raised by every meaning of a Kalgil instruction when the focus names no resident wave: there is no wave whose
  instruction this could be. `step` never runs one so. Safe: the machine stops where the spec says nothing. -/
  | noWave
  /-- Raised by every meaning of a Cairn instruction when the focus names no running invocation. `step` never runs one
  so. Safe. -/
  | noInvocation
  deriving DecidableEq, Repr

/-- Refusals. -/
inductive Refusal where
  /-- Raised by a dispatch arm whose instruction has no meaning yet. Safe. -/
  | notModelled (mnemonic : String)
  deriving DecidableEq, Repr

/-! ### Values at reset -/

/-- Empty memory: every byte 0, every line RAW (03 R49). -/
def Img.empty : Img := { bytes := [], tags := [] }

/-- A matrix engine at reset (05 Table 5-1). -/
def Engine.reset : Engine :=
  { holder := none, freedBy := none, slate := Img.empty, pageSt := [], win := [], mode64 := 0, owner := [], ring := none, ringNo := 0, shadows := [],
    shFault := [], ops := [], slateBad := [], winBad := [], slateOf := none, tile := none }

/-- The generator shift D_j (06 Table 6-1). -/
def Gravel.shiftOf (j : Nat) : Word := BitVec.ofNat 32 (0x9E3779B9 * j)

/-- The Gravel engine as an MRES.GRV that takes it finds it (06 Table 6-1), and at reset. -/
def Gravel.reset : Gravel :=
  { holder := none, freedBy := none, len := 1024, g := [], lfsr := (List.range 32).map (fun c => BitVec.ofNat 32 (c + 1)),
    index := List.replicate 32 0, shift := (List.range 32).map Gravel.shiftOf, ops := [], bad := [],
    fails := 0 }

/-- A cluster at reset (24 Table 24-2). -/
def Cluster.reset : Cluster :=
  { engines := List.replicate 4 Engine.reset, gravel := Gravel.reset, tileQueue := [], tileReady := [], boards := [], temp := 0, vnow := 150,
    vset := 150, busy := false, servo := false, fnow := 56, freq := 56, mrpl := 0, grpl := 0, crpl := 0, prst := 0 }

/-- A core at reset (03 R59: LEASE 10; 18 R323: PWRQ 32). -/
def Core.reset : Core :=
  { tick := 0, lease := 10, pwrq := 32, aLvm := 0, aSrm := 0, aRsm := 0, aRcy := 0, chk := 0, lvm := 0, srm := 0, rsm := 0,
    rcy := 0, katRun := 0, katFail := 0, fenced := 0, pfIss := 0, pfUse := 0, pfLate := 0, pfDrop := 0, stUse := 0,
    stDrop := 0, spce := 0, l1 := [], assay := [], fills := [], miss := [], due := [], gone := false }

/-- A line that no slice holds, with timestamps 0 (03 R60). -/
def LineDir.absent : LineDir :=
  { present := false, requested := false, dirty := false, unannounced := false, pf := none, prio := 0, set := 0, vf := 0, va := 0, wts := 0, rts := 0,
    owner := none, pinned := false, evicting := false, recent := 0 }

/-- A slot register at reset (07 Table 7-1). -/
def Slot.reset : Slot :=
  { en := false, vf := 0, share := 25, cbase := 0, clen := 0, dbase := 0, dlen := 0, dead := false, used := 0, spent := false }

/-- A slice at reset. -/
def Slice.reset : Slice :=
  { slots := List.replicate 8 Slot.reset, code := [], data := [], queue := [], dropped := 0, inv := none, reqs := [] }

/-- A die at reset (24 Table 24-4, 23 Table 23-5: READY is 0). -/
def Die.reset : Die :=
  { view := [], viewTags := [], vc := List.replicate 4 0, peerCopies := [], hostCopies := [], hostOut := [], gate := false, frail := false,
    state := 0, sr := 0, cmp := false, memReady := false, memFail := false }

/-- A port before training. -/
def Port.reset : Port :=
  { up := false, training := true, expect := 0, next := 0, unacked := [], resend := [], stopped := 0, nak := none, nakDue := false, msgs := [],
    flood := [], held := List.replicate 5 0, link := none }

/-- A stack's logs at reset (25 Table 25-3). -/
def Stack.reset : Stack :=
  { ace := 0, aue := 0, aaddr := 0, lrty := 0, llim := 0, lswap := 0, llast := 0, swaps := [], busySwap := [] }

/-- A queue that is not enabled. -/
def Queue.reset : Queue :=
  { en := false, dev := false, priv := false, base := 0, size := 0, prio := 0, cring := 0, hd := 0, tail := 0, head := none, last := none,
    served := 0 }

/-- A function at reset (21 Table 21-4: SLICE 16, WEIGHT 16). -/
def Fn.reset : Fn :=
  { en := false, mode := 0, dies := 0, slice := 16, weight := 16, bar2 := 9, gran := [], bind := [], accept := [], trapb := 0,
    htable := none, qtb := 0, terb := 0, qerr := 0, lwatch := [], lwLine := [], csa := [], ptbr := 0, invaddr := 0,
    inv := none, group := [], fwcmd := 0, fwlen := 0, fwstat := 0, overflow := 0, msixMask := [], msixPend := [],
    msixSent := [], queues := [], tlb := [], usage := [] }

/-- Firmware before the boot ROM has run (23 R384). -/
def Firmware.reset : Firmware :=
  { keystone := [], slotImage := [], running := [], floor := 0, svn := 0, key := false, qry := false, rcv := false }

/-- The machine right after reset. Cores, clusters, slices, functions, ports, stacks and line entries that a map does not
list hold their reset value above. -/
def State.reset : State :=
  { agenda := [], focus := .none, freeCtr := 0, devPos := 0, clock := 0, fab := 0, leases := 0, windows := 0, posts := [], powered := true, waves := [], crews := [],
    convoys := [], grids := [], nextConvoy := 0, nextGrid := 0, cores := [], clusters := [], slices := [],
    dies := List.replicate 4 Die.reset, hbm := Img.empty, poison := [], memErr := [], codeHist := [], dir := [], pkg := [], wakeTable := [], fns := [],
    hostMem := [], peers := [], owed := [], ports := [], routes := [], devId := 0, fw := Firmware.reset, rlim := 13, mtgt := 16,
    hot := 95, plim := 132, tration := 0, therm := 0, allHot := false, errb := 0, errovf := 0, dce := [], hbmStacks := [],
    errWindow := [], held := [], hostRead := .none, hostLines := [], heartbeats := 0, declared := [] }

end Sys2Proof.Machine
end

