-- ==== Sys2Proof/Machine/Map.lean ====
section
/-!
DEFINITION. Sys2Proof/Machine/Map.lean: the operations of finite maps and of memory as bytes in canonical form
(strictly rising keys; `put` lists no entry equal to the default).
-/
namespace Sys2Proof.Machine

open Sys2Proof

/-- The entry of a key. -/
def look {α : Type} : NMap α → Nat → Option α
  | [], _ => none
  | (i, a) :: r, k => if i = k then some a else look r k

/-- The entry of a key, or the default. -/
def lookD {α : Type} (m : NMap α) (k : Nat) (d : α) : α := (look m k).getD d

/-- The map with an entry set. -/
def ins {α : Type} : NMap α → Nat → α → NMap α
  | [], k, v => [(k, v)]
  | (i, a) :: r, k, v =>
    if k < i then (k, v) :: (i, a) :: r else if i = k then (k, v) :: r else (i, a) :: ins r k v

/-- The map without the entry of a key. -/
def del {α : Type} (m : NMap α) (k : Nat) : NMap α := m.filter fun p => p.1 != k

/-- The map with an entry set, the default being listed as no entry. -/
def put {α : Type} [DecidableEq α] (d : α) (m : NMap α) (k : Nat) (v : α) : NMap α :=
  if v = d then del m k else ins m k v

/-- Keys strictly rising, the first above `lo`. -/
def risingFrom {α : Type} : Nat → NMap α → Bool
  | _, [] => true
  | lo, (i, _) :: r => lo ≤ i && risingFrom (i + 1) r

/-- The canonical form of memory: addresses strictly rising, no byte 0 listed (03 R49). -/
def Memory.wf (m : Memory) : Bool := risingFrom 0 m && m.all fun c => c.2 != 0

/-- One byte; an unlisted address reads 0. -/
def Memory.read (m : Memory) (a : Nat) : Byte := lookD m a 0

/-- One byte written. -/
def Memory.write (m : Memory) (a : Nat) (b : Byte) : Memory := put 0 m a b

/-- Bytes from an address on. -/
def Memory.writes (m : Memory) (a : Nat) : List Byte → Memory
  | [] => m
  | b :: r => Memory.writes (Memory.write m a b) (a + 1) r

/-- A little-endian value of bytes (00 R6). -/
def leVal : List Byte → Nat
  | [] => 0
  | b :: r => b.toNat + 256 * leVal r

/-- The `n` bytes of a value, little-endian (00 R6). -/
def leBytes : Nat → Nat → List Byte
  | 0, _ => []
  | n + 1, v => BitVec.ofNat 8 v :: leBytes n (v / 256)

/-- The line of an address: its lowest byte's address (64-byte lines, 03 R55). -/
def lineOf (a : Nat) : Nat := a / 64 * 64

namespace Img

/-- A byte of the image. -/
def byte (m : Img) (a : Nat) : Byte := m.bytes.read a
/-- Bytes of the image. -/
def read (m : Img) (a n : Nat) : List Byte := (List.range n).map fun i => m.byte (a + i)
/-- A line's tag; RAW where none is listed. -/
def tag (m : Img) (a : Nat) : Tag := lookD m.tags (lineOf a) 0
/-- A byte written. -/
def setByte (m : Img) (a : Nat) (b : Byte) : Img := { m with bytes := m.bytes.write a b }
/-- Bytes written. -/
def setBytes (m : Img) (a : Nat) (l : List Byte) : Img := { m with bytes := m.bytes.writes a l }
/-- A line's tag set. -/
def setTag (m : Img) (a : Nat) (t : Tag) : Img := { m with tags := put 0 m.tags (lineOf a) t }
/-- The bytes and the tag of a line write applied (03 R56: bytes not written keep their data). -/
def apply (m : Img) (w : LineWrite) : Img :=
  let m' := w.bytes.foldl (fun m p => m.setByte (w.line + p.1) p.2) m
  match w.tag with
  | none => m'
  | some t => m'.setTag w.line t
/-- The canonical form. -/
def wf (m : Img) : Bool := m.bytes.wf && risingFrom 0 m.tags && m.tags.all fun c => c.2 != 0
/-- `n` bytes from `a` read as zero and RAW from now on (03 R49, 13 R255). -/
def clear (m : Img) (a n : Nat) : Img :=
  { bytes := m.bytes.filter fun c => c.1 < a || a + n ≤ c.1, tags := m.tags.filter fun c => c.1 < a || a + n ≤ c.1 }

end Img

/-- A list with one entry replaced. -/
def setAt {α : Type} : List α → Nat → α → List α
  | [], _, _ => []
  | _ :: r, 0, v => v :: r
  | x :: r, n + 1, v => x :: setAt r n v

/-- The list without the entry at a position. -/
def dropAt {α : Type} : List α → Nat → List α
  | [], _ => []
  | _ :: r, 0 => r
  | x :: r, n + 1 => x :: dropAt r n

/-- A list in the order that a number chooses (a permutation for each number below the factorial of the length). -/
def shuffle {α : Type} : Nat → Nat → List α → List α
  | 0, _, l => l
  | _ + 1, _, [] => []
  | _ + 1, _, [x] => [x]
  | fuel + 1, c, x :: r =>
    let l := x :: r
    let j := c % l.length
    match l[j]? with
    | none => l
    | some y => y :: shuffle fuel (c / l.length) (dropAt l j)

/-- A counter raised, saturating at all ones (25 R406, R407). -/
def upTo {w : Nat} (x : BitVec w) (n : Nat) : BitVec w := BitVec.ofNat w (min (x.toNat + n) (2 ^ w - 1))

/-- The threads of a set, ascending. -/
def lanesOf (l : Lanes) : List Nat := (List.range 128).filter fun t => l.getLsbD t

/-- The lowest thread of a set: the leader (01 R16). -/
def lowest (l : Lanes) : Option Nat := (List.range 128).find? fun t => l.getLsbD t

/-- The highest thread of a set. -/
def highest (l : Lanes) : Option Nat := (lanesOf l).getLast?

/-- The set of the listed threads. -/
def lanesFrom (l : List Nat) : Lanes := l.foldl (fun m t => m ||| (1#128 <<< t)) 0

/-- Thread t alone. -/
def oneLane (t : Nat) : Lanes := 1#128 <<< t

end Sys2Proof.Machine
end

