-- ==== Sys2Proof/Machine/Mem.lean ====
section
/-!
DEFINITION. Sys2Proof/Machine/Mem.lean: the named parts of the state by their numbers, device memory as each die sees it
(04 R64 to R70), stash forwarding (03 R53), the two-stage translation (21), the L2 slices' records and triggers (07 R135),
and the one way by which a write takes its place in the die order.
-/
namespace Sys2Proof.Machine

open Sys2Proof

/-! ### Parts by number -/

/-- The key of a wave. -/
def waveKey (w : WaveId) : Nat := 128 * w.conv + 16 * w.crew + w.wave
/-- The wave of a key. -/
def waveOfKey (k : Nat) : WaveId := { conv := k / 128, crew := k / 16 % 8, wave := k % 16 }
/-- The key of a wave's crew. -/
def crewKeyOf (w : WaveId) : Nat := 8 * w.conv + w.crew

namespace State

/-- A core's state (package number 64·die + 8·cluster + core, 25). -/
def core (s : State) (n : Nat) : Core := lookD s.cores n Core.reset
/-- A core's state replaced. -/
def setCore (s : State) (n : Nat) (c : Core) : State := { s with cores := ins s.cores n c }
/-- A cluster's state (8·die + cluster). -/
def cluster (s : State) (n : Nat) : Cluster := lookD s.clusters n Cluster.reset
/-- A cluster's state replaced. -/
def setCluster (s : State) (n : Nat) (c : Cluster) : State := { s with clusters := ins s.clusters n c }
/-- A slice's state (48·die + slice). -/
def slice (s : State) (n : Nat) : Slice := lookD s.slices n Slice.reset
/-- A slice's state replaced. -/
def setSlice (s : State) (n : Nat) (x : Slice) : State := { s with slices := ins s.slices n x }
/-- A function's state (0 physical, 1 to 64 virtual). -/
def fn (s : State) (n : Nat) : Fn := lookD s.fns n Fn.reset
/-- A function's state replaced. -/
def setFn (s : State) (n : Nat) (f : Fn) : State := { s with fns := ins s.fns n f }
/-- A die's state. -/
def die (s : State) (d : Nat) : Die := s.dies[d]?.getD Die.reset
/-- A die's state replaced. -/
def setDie (s : State) (d : Nat) (x : Die) : State := { s with dies := setAt s.dies d x }
/-- A wave. -/
def wave? (s : State) (w : WaveId) : Option Wave := look s.waves (waveKey w)
/-- A wave replaced. -/
def setWave (s : State) (w : WaveId) (x : Wave) : State := { s with waves := ins s.waves (waveKey w) x }
/-- A crew. -/
def crew? (s : State) (k : Nat) : Option Crew := look s.crews k
/-- A crew replaced. -/
def setCrew (s : State) (k : Nat) (c : Crew) : State := { s with crews := ins s.crews k c }
/-- A convoy. -/
def convoy? (s : State) (k : Nat) : Option Convoy := look s.convoys k
/-- A convoy replaced. -/
def setConvoy (s : State) (k : Nat) (c : Convoy) : State := { s with convoys := ins s.convoys k c }
/-- A grid. -/
def grid? (s : State) (k : Nat) : Option Grid := look s.grids k
/-- A grid replaced. -/
def setGrid (s : State) (k : Nat) (g : Grid) : State := { s with grids := ins s.grids k g }
/-- The L2 record of a line. -/
def lineDir (s : State) (line : Nat) : LineDir := lookD s.dir line LineDir.absent
/-- The L2 record of a line replaced. -/
def setLineDir (s : State) (line : Nat) (d : LineDir) : State := { s with dir := ins s.dir line d }
/-- A port. -/
def port (s : State) (n : Nat) : Port := lookD s.ports n Port.reset
/-- A port replaced. -/
def setPort (s : State) (n : Nat) (p : Port) : State := { s with ports := ins s.ports n p }
/-- An HBM stack. -/
def stack (s : State) (n : Nat) : Stack := lookD s.hbmStacks n Stack.reset
/-- An HBM stack replaced. -/
def setStack (s : State) (n : Nat) (x : Stack) : State := { s with hbmStacks := ins s.hbmStacks n x }
/-- A free value is used up. -/
def draw (s : State) : State := { s with freeCtr := s.freeCtr + 1 }
/-- The free value that stands now. -/
def free (s : State) : Nat := Config.free s.freeCtr

end State

/-- Fabric cycles pass; the assay clock runs 4 cycles to their 9 (00 R4: 0.8 GHz and 1.8 GHz, from reset on). -/
def State.elapse (s : State) (k : Nat) : State :=
  { s with fab := s.fab + k, clock := BitVec.ofNat 64 (4 * (s.fab + k) / 9) }

/-- The assay cycles since reset (00 R4). -/
def State.assayCycle (s : State) : Nat := 4 * s.fab / 9

/-- The die of a core (25). -/
def dieOfCore (c : Nat) : Nat := c / 64
/-- The cluster of a core. -/
def clusterOfCore (c : Nat) : Nat := c / 8
/-- The home die of a DEVICE line: PA[38:37] (21 R358). -/
def homeDie (pa : Nat) : Nat := pa / 2 ^ 37 % 4

/-- The home slice of a line: a fixed hash over the slices that serve its die, the four shell slices while the die is
gated or wakes (04 R66, 24 R399). -/
def State.homeSlice (s : State) (pa : Nat) : Nat :=
  let d := homeDie pa
  let h := Config.sliceHash (lineOf pa)
  48 * d + (if 2 ≤ (s.die d).state.toNat then h % 4 else h % 48)

/-! ### Device memory as a die sees it -/

/-- The byte that stands in a die's order, stash copies apart: the die's view, and device memory where it agrees. -/
def State.viewByte (s : State) (d pa : Nat) : Byte :=
  match look (s.die d).view pa with
  | some b => b
  | none => s.hbm.byte pa

/-- The tag that stands in a die's order. -/
def State.viewTag (s : State) (d pa : Nat) : Tag :=
  match look (s.die d).viewTags (lineOf pa) with
  | some t => t
  | none => s.hbm.tag pa

/-- The offset in a binding's range of a physical address, if the binding covers it (03 R51). -/
def bindOff (b : Bind) (pa : Nat) : Option Nat :=
  b.pages.findSome? fun (vp, pp) =>
    let va := 4096 * vp + pa % 4096
    if pp = pa / 4096 * 4096 ∧ b.g ≤ va ∧ va < b.g + b.n then some (va - b.g) else none

/-- The scratchpad offset at which a crew holds a present stash line (03 R52). -/
def Crew.stashAt (c : Crew) (pa : Nat) : Option Nat :=
  c.binds.findSome? fun (_, b) =>
    match bindOff b pa with
    | some o => if b.present.contains (lineOf o) then some (b.s + o) else none
    | none => none

/-- The crew and scratchpad offset that hold a line owned by a stash (03 R53). -/
def State.stashOf (s : State) (pa : Nat) : Option (Nat × Crew × Nat) :=
  match (s.lineDir (lineOf pa)).owner with
  | none => none
  | some k =>
    match s.crew? k with
    | none => none
    | some c => (c.stashAt pa).map fun o => (k, c, o)

/-- A byte as an agent of a die reads it: the owner's stash supplies an owned line (03 R53). -/
def State.devByte (s : State) (d pa : Nat) : Byte :=
  match s.stashOf pa with
  | some (_, c, o) => c.scratch.byte o
  | none => s.viewByte d pa

/-- A line's tag as an agent of a die reads it. -/
def State.devTag (s : State) (d pa : Nat) : Tag :=
  match s.stashOf (lineOf pa) with
  | some (_, c, o) => c.scratch.tag o
  | none => s.viewTag d pa

/-- Bytes as an agent of a die reads them. -/
def State.devRead (s : State) (d pa n : Nat) : List Byte := (List.range n).map fun i => s.devByte d (pa + i)

/-- A little-endian value as an agent of a die reads it. -/
def State.devVal (s : State) (d pa n : Nat) : Nat := leVal (s.devRead d pa n)

/-- A byte set in a die's view, kept as a difference from device memory. -/
def setViewByte (hbm : Img) (v : NMap Byte) (pa : Nat) (b : Byte) : NMap Byte :=
  if b = hbm.byte pa then del v pa else ins v pa b

/-- A line write set in a die's view. -/
def Die.apply (x : Die) (hbm : Img) (w : LineWrite) : Die :=
  let x := { x with view := w.bytes.foldl (fun v p => setViewByte hbm v (w.line + p.1) p.2) x.view }
  match w.tag with
  | none => x
  | some t => { x with viewTags := if t = hbm.tag w.line then del x.viewTags w.line else ins x.viewTags w.line t }

/-- The stack of its die in which a line lies: h[0] of 25 R414. -/
def stackBit (pa : Nat) : Nat := (pa / 2 ^ 6 + pa / 2 ^ 13 + pa / 2 ^ 20) % 2

/-- An access of the array ends its stack's self-refresh (24 R400). -/
def State.exitRefresh (s : State) (line : Nat) : State :=
  let x := s.die (homeDie line)
  if x.sr.getLsbD (stackBit line) then s.setDie (homeDie line) { x with sr := x.sr &&& ~~~ (1#2 <<< stackBit line) } else s

/-- Whether a line's copy in its slice is uncorrectable: MEMERR 0x348 or 0x349 (19 R342). -/
def State.l2Bad (s : State) (line : Nat) : Bool := (look s.memErr line).elim false fun x => x.toNat / 8 == 105

/-- The slice's copy of a line is gone, and its error with it; a value written back from it is poisoned in the array. -/
def State.l2Gone (s : State) (line : Nat) (written : Bool) : State :=
  if s.l2Bad line then { s with memErr := del s.memErr line, poison := if written then s.poison ++ [line] else s.poison } else s

/-- A die's view of a line, its bytes and tag, once device memory has changed there. -/
def Die.rebased (x : Die) (hbm : Img) (line : Nat) (bytes : List (Nat × Byte)) (tag : Tag) : Die :=
  let rest := x.viewTags.filter fun p => lineOf p.1 != lineOf line
  { x with view := bytes.foldl (fun v p => setViewByte hbm v p.1 p.2) x.view,
           viewTags := if tag = hbm.tag line then rest else ins rest line tag }

/-- Device memory takes a line's value at its home die (a write-back: 04 R76, 13 R259); its priority returns to 0 (07 R131). What
every die reads stays as it was. -/
def State.writeBack (s : State) (line : Nat) : State :=
  let d := homeDie line
  let bytes := (List.range 64).map fun i => (line + i, s.viewByte d (line + i))
  let hbm := (bytes.foldl (fun m p => m.setByte p.1 p.2) s.hbm).setTag line (s.viewTag d line)
  let fix (e : Nat) (x : Die) : Die := x.rebased hbm line (bytes.map fun p => (p.1, s.viewByte e p.1)) (s.viewTag e line)
  let s := { s with dies := s.dies.mapIdx fix, hbm := hbm }
  let s := (s.exitRefresh line).l2Gone line true
  s.setLineDir line { s.lineDir line with dirty := false, prio := 0 }

/-! ### Translation (21) -/

/-- The device physical address of a DEVICE-class FPA (21 R358, Table 21-1). -/
def Fn.granule (f : Fn) (fpa : Nat) : Option Nat :=
  if 2 ^ 39 ≤ fpa then none
  else
    let e := lookD f.gran (fpa / 2 ^ 30) 0
    if e.getLsbD 15 then some ((e.extractLsb' 0 9).toNat * 2 ^ 30 + fpa % 2 ^ 30) else none

/-- A translation: the leaf entry, its own physical address, and log₂ of the page size (21 R359). -/
structure Xlat where
  leaf : DWord
  entry : Nat
  psz : Nat
  deriving DecidableEq, Repr

namespace Xlat

/-- CLS: 0 DEVICE, 1 PEER, 2 HOST, 3 MMIO (21 Table 21-2). -/
def cls (x : Xlat) : Nat := (x.leaf.extractLsb' 54 3).toNat
/-- SET. -/
def set (x : Xlat) : Nat := (x.leaf.extractLsb' 57 6).toNat
/-- The page's FPA or bus address. -/
def page (x : Xlat) : Nat := (x.leaf.extractLsb' 12 40).toNat * 4096
/-- X. -/
def px (x : Xlat) : Bool := x.leaf.getLsbD 63
/-- R. -/
def pr (x : Xlat) : Bool := x.leaf.getLsbD 2
/-- W. -/
def pw (x : Xlat) : Bool := x.leaf.getLsbD 3
/-- AT. -/
def pat (x : Xlat) : Bool := x.leaf.getLsbD 4
/-- The FPA or bus address of a virtual address in the page. -/
def addr (x : Xlat) (va : Nat) : Nat := x.page + va % 2 ^ x.psz

end Xlat

/-- One level of the walk (21 R359, R360): none is no translation. `n` counts the levels left below this one. -/
def walkLevel (s : State) (f : Fn) (d va : Nat) : Nat → Nat → Option Xlat
  | n, table =>
    match f.granule table with
    | none => none
    | some t =>
      let e := t + 8 * (va / 2 ^ (12 + 9 * n) % 512)
      let w : DWord := BitVec.ofNat 64 (s.devVal d e 8)
      if !w.getLsbD 0 then none
      else if w.getLsbD 1 then
        -- a leaf: level 2 at most, reserved bits and classes zero, PPN aligned, a DEVICE page within a granule
        let x : Xlat := { leaf := w, entry := e, psz := 12 + 9 * n }
        if 2 < n || w.extractLsb' 52 2 != 0 || w.extractLsb' 7 5 != 0 || 3 < x.cls || x.page % 2 ^ x.psz != 0 ||
            (x.cls == 0 && (f.granule (x.addr va)).isNone) then none
        else some x
      else if w.extractLsb' 52 12 != 0 || w.extractLsb' 1 11 != 0 then none
      else
        match n with
        | 0 => none
        | n + 1 => walkLevel s f d va n ((w.extractLsb' 12 40).toNat * 4096)

/-- A fresh walk of a virtual address by a walker of a die; addresses below 64 KiB are never mapped (03 R50). -/
def State.walk (s : State) (vf d va : Nat) : Option Xlat :=
  let f := s.fn vf
  if !f.ptbr.getLsbD 0 || va < 65536 || 2 ^ 57 ≤ va then none
  else walkLevel s f d va 4 ((f.ptbr.extractLsb' 12 40).toNat * 4096)

/-- A cached translation of the address (21 R365). -/
def Fn.cached (f : Fn) (va : Nat) : Option Xlat :=
  (f.tlb.find? fun t => t.va = va / 2 ^ t.psz * 2 ^ t.psz).map fun t => { leaf := t.leaf, entry := t.entry, psz := t.psz }

/-- The leaf without ACC and DTY. -/
def leafBody (w : DWord) : DWord := w &&& (~~~ 0x60#64)

/-- A cached translation that may be used: PTBR's EN is 1, the address can be mapped, and a DEVICE page still has its granule (03
R50, 21 R358, R365). -/
def Fn.usable (f : Fn) (va : Nat) : Option Xlat :=
  if !f.ptbr.getLsbD 0 || va < 65536 || 2 ^ 57 ≤ va then none
  else (f.cached va).filter fun c => c.cls != 0 || (f.granule (c.addr va)).isSome

/-- The translation that an access uses: a fresh walk, or, where an older entry is still cached and says otherwise,
whichever the free value picks (21 R363, R365). -/
def State.lookup (s : State) (vf d va : Nat) : Option Xlat :=
  match s.walk vf d va, (s.fn vf).usable va with
  | w, none => w
  | none, some c => if s.free % 2 = 0 then none else some c
  | some w, some c => if leafBody w.leaf = leafBody c.leaf ∧ w.psz = c.psz then some w
      else if s.free % 2 = 0 then some w else some c

/-- What an access needs of its leaf (21 R360), with the kind code of its TRANSLATE detail (19 R341). -/
inductive Access where
  | load | store | atomic | both | engRead | engWrite | fetch
  deriving DecidableEq, Repr

namespace Access

/-- Kind codes (13 Table 13-3, 19 R341). -/
def code : Access → Nat
  | .load => 0 | .store => 1 | .atomic => 2 | .both => 3 | .engRead => 4 | .engWrite => 5 | .fetch => 6
/-- The permissions the kind needs. -/
def permits (k : Access) (x : Xlat) : Bool :=
  match k with
  | .load | .engRead => x.pr
  | .store | .engWrite => x.pw
  | .atomic => x.pat
  | .both => x.pr && x.pw
  | .fetch => x.px

end Access

/-- CAUSE values (19 R340). -/
def causeOf (cls detail : Nat) : BitVec 10 := BitVec.ofNat 10 (64 * cls + detail)
/-- INSTR details (09 Table 9-3). -/
def cInstr (n : Nat) : BitVec 10 := causeOf 0 n
/-- OPERAND details (19 Table 19-8). -/
def cOperand (n : Nat) : BitVec 10 := causeOf 1 n
/-- SCRATCH details. -/
def cScratch (n : Nat) : BitVec 10 := causeOf 2 n
/-- TRANSLATE: space and kind codes (19 R341). -/
def cTranslate (space kind : Nat) : BitVec 10 := causeOf 3 (8 * space + kind)
/-- PROTECT details. -/
def cProtect (n : Nat) : BitVec 10 := causeOf 4 n
/-- ALIGN details. -/
def cAlign (n : Nat) : BitVec 10 := causeOf 5 n
/-- ATOMIC details. -/
def cAtomic (n : Nat) : BitVec 10 := causeOf 6 n
/-- MATRIX details. -/
def cMatrix (n : Nat) : BitVec 10 := causeOf 7 n
/-- STREAM details. -/
def cStream (n : Nat) : BitVec 10 := causeOf 8 n
/-- SYNC details. -/
def cSync (n : Nat) : BitVec 10 := causeOf 9 n
/-- QUEUE details. -/
def cQueue (n : Nat) : BitVec 10 := causeOf 10 n
/-- CAIRN details (07 Table 7-8). -/
def cCairn (n : Nat) : BitVec 10 := causeOf 11 n
/-- ASSAY details. -/
def cAssay (n : Nat) : BitVec 10 := causeOf 12 n
/-- MEMERR: structure and event (19 R342). -/
def cMemerr (structure_ event : Nat) : BitVec 10 := causeOf 13 (8 * structure_ + event)
/-- DEBUG details. -/
def cDebug (n : Nat) : BitVec 10 := causeOf 14 n
/-- SOFTWARE: the immediate (14 R288). -/
def cSoftware (n : Nat) : BitVec 10 := causeOf 15 n

/-- Space codes (03 Table 3-1). -/
def Space.code : Space → Nat
  | .scratch => 0 | .stash => 1 | .convoy => 2 | .device => 3 | .peer => 4 | .host => 5

/-- 21 R361: whether a page class suits the space. -/
def Space.accepts (sp : Space) (cls : Nat) : Bool :=
  match sp with
  | .device => cls == 0
  | .peer => cls == 1
  | .host => cls == 2 || cls == 3
  | .scratch | .stash | .convoy => false

/-- Translation for an access (03 R48, 21 R360): the class is checked before the permission. `code` is the space code of
the TRANSLATE detail. -/
def State.xlate (s : State) (vf d va : Nat) (sp : Space) (code : Nat) (k : Access) : Except (BitVec 10) Xlat :=
  match s.lookup vf d va with
  | none => .error (cTranslate code k.code)
  | some x =>
    if !sp.accepts x.cls then .error (cProtect 3)
    else if !k.permits x then .error (cTranslate code k.code)
    else .ok x

/-- The device physical address of a virtual address through a DEVICE leaf (`walk` checked its granule). -/
def State.devAddr (s : State) (vf : Nat) (x : Xlat) (va : Nat) : Nat := ((s.fn vf).granule (x.addr va)).getD 0

/-! ### The L2 slices' records (03 R59, 07 R135, R136) -/

/-- Who writes (19 R339: the TRIG codes of a WATCH record). A wave brings its core, whose TICK its writes raise. -/
inductive Writer where
  | wave (core : Nat)
  | matrix | copy | cairn | stash | die | peer | host | gravel
  deriving DecidableEq, Repr

/-- TRIG of a WATCH record (19 R339). -/
def Writer.code : Writer → Nat
  | .wave _ => 0 | .matrix => 1 | .copy => 2 | .cairn => 3 | .stash => 4 | .die => 5 | .peer => 6 | .host => 7 | .gravel => 8

/-- A rebase of a die (03 R60). -/
def State.rebase (s : State) (d : Nat) : State :=
  { s with
    cores := s.cores.map fun (n, c) => (n, if dieOfCore n = d then { c with tick := 0, l1 := [] } else c),
    dir := s.dir.map fun (l, x) => (l, if homeDie l = d then { x with wts := 0, rts := 0 } else x) }

/-- A rebase where a timestamp of the die would reach the bound (03 R60). -/
def State.rebaseAt (s : State) (d t : Nat) : State := if 0xF0000 ≤ t then s.rebase d else s

/-- SliceWrite (03 R59). -/
def State.sliceWrite (s : State) (line : Nat) (w : Writer) : State :=
  let s := s.rebaseAt (homeDie line) ((s.lineDir line).rts.toNat + 1)
  let l := s.lineDir line
  let t := l.rts + 1
  let s := s.setLineDir line { l with wts := t, rts := t }
  match w with
  | .wave c => let x := s.core c
               s.setCore c { x with tick := if x.tick.toNat < t.toNat then t else x.tick }
  | _ => s

/-- The slot of a function on a slice (07 R128, R136). -/
def Slice.slotOf (x : Slice) (vf : Nat) : Option Nat :=
  (x.slots.findIdx? fun t => t.en && t.vf == vf && !t.dead)

/-- Whether triggers of the set can be served at the slice (07 R136: set 0 invokes nothing; the function needs an enabled
slot). -/
def State.served (s : State) (slice vf set : Nat) : Bool := set != 0 && ((s.slice slice).slotOf vf).isSome

/-- A line is taken out of L2, a dirty one written back first (07 Table 7-4, EVICT's default); its priority returns
to 0 (07 R131). -/
def State.evictNow (s : State) (line : Nat) : State :=
  let s := if (s.lineDir line).dirty then s.writeBack line else s.l2Gone line false
  s.setLineDir line { s.lineDir line with present := false, unannounced := false, pf := none, prio := 0, evicting := false }

/-- A trigger joins the slice's queue of 64; a full queue drops it (07 R138). The answer says whether it was queued. -/
def State.enqueue (s : State) (slice : Nat) (t : Trigger) : State × Bool :=
  let x := s.slice slice
  if x.queue.length < 64 then (s.setSlice slice { x with queue := x.queue ++ [t] }, true)
  else if t.kind = .msg then (s, false)
  else (s.setSlice slice { x with dropped := x.dropped + 1 }, false)

/-- FILL (07 R135): raised for an installed or announced line. -/
def State.raiseFill (s : State) (line : Nat) (hops src : Nat) : State :=
  let l := s.lineDir line
  let n := s.homeSlice line
  if s.served n l.vf l.set then
    (s.enqueue n { kind := .fill, line := line, va := l.va, vf := l.vf, set := l.set, hops := hops, src := src, msg := [],
                   token := none }).1
  else s

/-- A victim line is chosen (07 R135): an unannounced line raises no EVICT, a line raises at most one until it is installed again, a
pinned line is never chosen. No agent requested the victim: SRC and HOPS of its EVICT are 0 (DESIGN CHOICE, log 86). -/
def State.evict (s : State) (line : Nat) : State :=
  let l := s.lineDir line
  if !l.present || l.pinned || l.evicting then s
  else
    let n := s.homeSlice line
    if !l.unannounced && s.served n l.vf l.set then
      let (s', q) := s.enqueue n { kind := .evict, line := line, va := l.va, vf := l.vf, set := l.set, hops := 0, src := 0,
                                   msg := [], token := none }
      if q then s'.setLineDir line { s'.lineDir line with evicting := true } else s'.evictNow line
    else s.evictNow line

/-- The lines that a slice of 2 MiB holds (00 R3). -/
def sliceLines : Nat := 32768

/-- Lines that a slice holds and has not chosen as victims. -/
def State.held' (s : State) (n : Nat) : NMap LineDir :=
  s.dir.filter fun p => p.2.present && !p.2.evicting && s.homeSlice p.1 == n

/-- The line that a slice replaces next: the lowest priority first, then the least recently used; never a pinned one (07 R131,
R135). -/
def State.victimAt (s : State) (n : Nat) : Option Nat :=
  ((s.held' n).foldl (fun (b : Option (Nat × LineDir)) p =>
    if p.2.pinned then b
    else match b with
      | none => some p
      | some q => if p.2.prio < q.2.prio ∨ p.2.prio = q.2.prio ∧ p.2.recent < q.2.recent then some p else b) none).map Prod.fst

/-- A full slice chooses a victim before it takes another line. -/
def State.makeRoom (s : State) (line : Nat) : State :=
  if s.dir.length < sliceLines || (s.held' (s.homeSlice line)).length < sliceLines then s
  else match s.victimAt (s.homeSlice line) with
    | some v => s.evict v
    | none => s

/-- The FILL of an unannounced line is raised and the mark cleared (07 R135). -/
def State.announce (s : State) (line va vf set hops src : Nat) : State :=
  (s.setLineDir line { s.lineDir line with unannounced := false, set := set, vf := vf, va := lineOf va }).raiseFill line hops src

/-- A line is installed at its home slice; the slice records the set and function of the request (07 R136). `announce`
raises FILL, and its absence marks the line unannounced (07 R135). A line that is present already is not installed again: it is
announced if it still has to be. -/
def State.install (s : State) (line va vf set hops src : Nat) (announce : Bool) : State :=
  let l := s.lineDir line
  if l.present then
    let s := s.setLineDir line { l with requested := false }
    if announce && l.unannounced then s.announce line va vf set hops src else s
  else
    let s := (s.makeRoom line).exitRefresh line
    let s := s.setLineDir line { s.lineDir line with present := true, requested := false, unannounced := !announce, set := set, vf := vf,
                                                     va := lineOf va, evicting := false, recent := s.freeCtr }
    if announce then s.raiseFill line hops src else s

/-- PFUSE counts, once per line, a line a speculative request brought in that a checked access hits before it is evicted, PFLATE those of
them whose request is still in its miss slot (25 R417). -/
def State.prefetchUsed (s : State) (line : Nat) : State :=
  match (s.lineDir line).pf with
  | none => s
  | some n =>
    let k := s.core n
    let late := k.miss.any fun m => m.line == line && (m.kind == .pref || m.kind == .slice)
    (s.setLineDir line { s.lineDir line with pf := none }).setCore n
      { k with pfUse := upTo k.pfUse 1, pfLate := if late then upTo k.pfLate 1 else k.pfLate }

/-- A checked access of a line (07 R135): a miss raises MISS, whose default action installs the line; an access of an
unannounced line announces it. SRC is 07 Table 7-6's. -/
def State.checkedLine (s : State) (line va vf set src : Nat) : State :=
  let s := s.prefetchUsed line
  let l := s.lineDir line
  if l.present then
    let s := s.setLineDir line { l with recent := s.freeCtr }
    if l.unannounced then s.announce line va vf set 0 src else s
  else if l.requested then s
  else
    let n := s.homeSlice line
    if s.served n vf set then
      let (s', q) := s.enqueue n { kind := .miss, line := line, va := lineOf va, vf := vf, set := set, hops := 0, src := src,
                                   msg := [], token := none }
      if q then s'.setLineDir line { s'.lineDir line with requested := true } else s'.install line va vf set 0 src true
    else s.install line va vf set 0 src true

/-! ### Records to append (19 R339, 07 R141, 25 R418) -/

/-- A tenant event record is posted to the ring at TERB. -/
def State.postEvent (s : State) (vf : Nat) (r : List Byte) : State := { s with posts := s.posts ++ [.tenant vf r] }

/-- An error record is posted to the physical function's ring at ERRB. -/
def State.postError (s : State) (r : List Byte) : State := { s with posts := s.posts ++ [.error r] }

/-- The line watches that stand on a line: function and virtual line address, one for each watch (19 R339). -/
def State.watchers (s : State) (line : Nat) : List (Nat × Nat) :=
  s.fns.flatMap fun (vf, f) => (f.lwLine.filter fun p => p.2 = line && (lookD f.lwatch p.1 0).getLsbD 63).map fun p =>
    (vf, (lookD f.lwatch p.1 0 &&& 0x1FFFFFFFFFFFFC0#64).toNat)

/-- The 64-bit mask of the bytes a line write covers (19 R339). -/
def byteMask (w : LineWrite) : Nat := w.bytes.foldl (fun m p => m ||| 2 ^ p.1) 0

/-- A tenant event record's bytes (07 Table 7-7). -/
def eventRecord (kind cause slice trig set va code used data : Nat) : List Byte :=
  leBytes 2 kind ++ leBytes 2 cause ++ leBytes 2 slice ++ leBytes 1 trig ++ leBytes 1 set ++ leBytes 8 va ++
    leBytes 4 code ++ leBytes 4 used ++ leBytes 8 data

/-- The WATCH records of a write that takes its place in the die order: one for each watch on its line. -/
def State.watchWrite (s : State) (w : LineWrite) (who : Writer) : State :=
  (s.watchers w.line).foldl (fun s p => s.postEvent p.1 (eventRecord 2 0 0 who.code 0 p.2 0 0 (byteMask w))) s

/-! ### Writes in the die order -/

/-- A die-order write invalidates the assay copies of its die, and marks fills in flight (04 R84 to R86). -/
def invalidateAssay (s : State) (d line : Nat) : State :=
  { s with cores := s.cores.map fun (n, c) =>
      if dieOfCore n = d then
        (n, { c with assay := c.assay.filter (· != line),
                     fills := c.fills.map fun (l, bad) => if l = line then (l, true) else (l, bad) })
      else (n, c) }

/-- Whether a wait record names the line (18 Table 18-7). -/
def WaitRec.names (r : WaitRec) (line : Nat) : Bool :=
  match r with
  | .line pa => lineOf pa == line
  | .spin ls => ls.contains line
  | _ => false

/-- The name of a scratchpad line in a wait record. -/
def scratchName (crewKey off : Nat) : Nat := 2 ^ 60 + 2 ^ 20 * crewKey + lineOf off
/-- The name of a convoy-memory line in a wait record. -/
def cmemName (conv off : Nat) : Nat := 2 ^ 61 + 2 ^ 24 * conv + lineOf off

/-- The waves of a die that wait on the line are woken (13 R254); a saved convoy's line is looked up in the wake table
(18 R325). -/
def wakeLine (s : State) (d line : Nat) : State :=
  let s := { s with waves := s.waves.map fun (k, w) =>
      match w.wait with
      | some r => if dieOfCore w.core = d ∧ r.names line then (k, { w with woken := true }) else (k, w)
      | none => (k, w) }
  match look s.wakeTable (2 ^ 40 * d + line) with
  | none => s
  | some cs =>
    { s with convoys := s.convoys.map fun (k, c) =>
        if cs.contains k ∧ c.st = .saved then (k, { c with runnable := true }) else (k, c) }

/-- The old values of the code words that a write changes are kept for the grids that live (08 R158). -/
def keepCode (s : State) (d : Nat) (w : LineWrite) : State :=
  let words := (w.bytes.map fun p => (w.line + p.1) / 8 * 8).dedup
  { s with codeHist := s.grids.foldl (fun h g => words.foldl (fun h a =>
      let v : DWord := BitVec.ofNat 64 (leVal ((List.range 8).map fun i => s.viewByte d (a + i)))
      let k := 2 ^ 48 * g.1 + a
      let l := lookD h k []
      if l.contains v then h else ins h k (l ++ [v])) h) s.codeHist }

/-- A write takes its place in a die's order: the die's view changes, copies are invalidated and waiters woken; at the
line's home die the slice's record follows (03 R59), line watches post their records (19 R339), and a full-line write clears poison
(25 R415). -/
def State.applyAt (s : State) (d : Nat) (w : LineWrite) (who : Writer) : State :=
  let s := if d = homeDie w.line then keepCode s d w else s
  let s := s.setDie d ((s.die d).apply s.hbm w)
  let s := wakeLine (invalidateAssay s d w.line) d w.line
  let s := { s with hostLines := s.hostLines.filter (· != w.line) }
  if d = homeDie w.line then
    let l := s.lineDir w.line
    let s := s.setLineDir w.line { l with dirty := true }
    let s := (s.sliceWrite w.line who).watchWrite w who
    if w.bytes.length = 64 then { s with poison := s.poison.filter (· != w.line), memErr := del s.memErr w.line } else s
  else s

/-- a counts as no later than b (04 R69: modulo 2^32). -/
def vcLe (a b : Word) : Bool := (b - a).toNat < 2 ^ 31

/-- Whether every write that a clock counts has been applied at a die (04 R69). -/
def State.applied (s : State) (d : Nat) (vc : List Word) : Bool :=
  (vc.zip (s.die d).vc).all fun (a, b) => vcLe a b

/-- An older write to the line has not been applied at the die (04 R68, R69). -/
def State.lineBehind (s : State) (d line : Nat) : Bool :=
  s.pkg.any fun p => p.todo.contains d && p.write.line == line

/-- The 7-bit number whose bit 0 is a line's stack in its die and whose bits 6:1 are its pseudo-channel (25 R414). -/
def hbmHash (pa : Nat) : Nat := (pa / 2 ^ 6 % 128) ^^^ (pa / 2 ^ 13 % 128) ^^^ (pa / 2 ^ 20 % 128)

/-- A line's stack in the package (25 R414). -/
def hbmStackOf (pa : Nat) : Nat := 2 * homeDie pa + hbmHash pa % 2

/-- A line's pseudo-channel (25 R414). -/
def pchOf (pa : Nat) : Nat := hbmHash pa / 2

/-- Accesses of an address are held: until its die's memory is ready (23 R390), or while the line's read waits for a lane swap (25
R415). -/
def State.memHeld (s : State) (pa : Nat) : Bool :=
  (!(s.die (homeDie pa)).memReady && !(s.die (homeDie pa)).memFail) ||
    (!s.hbmStacks.isEmpty && (s.stack (hbmStackOf pa)).busySwap.any fun x => x.2.2 == lineOf pa)

/-- The memory of an address's die has failed training (23 R390). -/
def State.memLost (s : State) (pa : Nat) : Bool := (s.die (homeDie pa)).memFail

/-- The MEMERR cause that a read of a line's array meets (25 R415, 23 R390): failed memory, a failed transfer, poison. -/
def State.lineErr (s : State) (line : Nat) : Option (BitVec 10) :=
  if s.memLost line then some (cMemerr 0 2)
  else match look s.memErr line with
    | some x => some x
    | none => if s.poison.contains line then some (cMemerr 0 1) else none

/-- A failed transfer has been reported to its reader: an uncorrectable line is poisoned from then on (25 R415), in its slice too while that
holds it (19 R342: 0x348, then 0x349). -/
def State.told (s : State) (line : Nat) : State :=
  match look s.memErr line with
  | none => s
  | some x =>
    if x = cMemerr 1 0 then { s with memErr := ins s.memErr line (cMemerr 1 1) }
    else if x = cMemerr 1 1 then s
    else { s with memErr := del s.memErr line, poison := if x = cMemerr 0 0 then s.poison ++ [line] else s.poison }

/-- The write leaves for the other dies with its vector clock (04 R69). -/
def State.sendPkg (s : State) (d : Nat) (w : LineWrite) (pkgAtomic : Bool) : State :=
  let x := s.die d
  let p : PkgWrite := { src := d, todo := (List.range 4).filter (· != d), vc := x.vc, write := w, pkgAtomic := pkgAtomic }
  let s := { s with pkg := s.pkg ++ [p] }
  s.setDie d { x with vc := setAt x.vc d ((x.vc[d]?.getD 0) + 1) }

/-- A write is applied at a die to which it was sent (04 R69). -/
def State.remoteApply (s : State) (idx d : Nat) : State :=
  match s.pkg[idx]? with
  | none => s
  | some p =>
    let s := s.applyAt d p.write .die
    let x := s.die d
    let s := s.setDie d { x with vc := setAt x.vc p.src ((x.vc[p.src]?.getD 0) + 1) }
    let p' := { p with todo := p.todo.filter (· != d) }
    { s with pkg := if p'.todo = [] then dropAt s.pkg idx else setAt s.pkg idx p' }

/-- Whether a remote write can be applied at a die now (04 R69): every write its clock counts has been applied there, and
every earlier write of its line; at its home die a pinned line's requests wait (07 R135). -/
def State.canApply (s : State) (idx d : Nat) : Bool :=
  match s.pkg[idx]? with
  | none => false
  | some p => p.todo.contains d && s.applied d p.vc && !(d == homeDie p.write.line && (s.lineDir p.write.line).pinned) &&
      !((s.pkg.take idx).any fun q => q.todo.contains d && q.write.line == p.write.line)

/-- A write that has just been performed at its die is applied at another die at once. -/
def State.applyNow (s : State) (w : LineWrite) (e : Nat) : State :=
  match (s.pkg.zipIdx.filter fun p => p.1.write == w && p.1.todo.contains e).getLast? with
  | some p => s.remoteApply p.2 e
  | none => s

/-- Whether a write of a line performed at a die now could be applied at another at once (04 R69): it has applied every write of the
die's order, and every older write of the line. -/
def State.abreast (s : State) (d line e : Nat) : Bool := s.applied e (s.die d).vc && !s.lineBehind e line

/-- Whether a write of a line performed at a die now could be applied at every die at once. -/
def State.level (s : State) (d line : Nat) : Bool := (List.range 4).all (s.abreast d line)

/-! ### Owned stash lines (03 R53, R54) -/

/-- Whether a binding has written the line. -/
def Bind.dirtyAt (b : Bind) (line : Nat) : Bool := (bindOff b line).elim false b.dirty.contains

/-- The die of the stash that holds a dirty copy of a line. -/
def State.stashDirty (s : State) (line : Nat) : Option Nat :=
  match s.stashOf line with
  | some (_, c, _) => if c.binds.any fun p => p.2.dirtyAt line then some (dieOfCore c.core) else none
  | none => none

/-- Whether a stash can give up a line now: its write-back, a write of its die, can be applied at every die at once, so that every
agent goes on seeing the stash's stores (03 R54). -/
def State.canRecall (s : State) (line : Nat) : Bool := (s.stashDirty line).elim true fun e => s.level e line

/-- The stash's copy of a line is dropped and ownership ends. A bad word of a dirty copy is the next thing the device deals
with (25 R412). -/
def State.dropStash (s : State) (line : Nat) : State :=
  let free (s : State) : State := s.setLineDir line { s.lineDir line with owner := none }
  match s.stashOf line with
  | none => free s
  | some (k, c, o) =>
    let drop (b : Bind) : Bind :=
      match bindOff b line with
      | some i => { b with present := b.present.filter (· != i), dirty := b.dirty.filter (· != i) }
      | none => b
    let bad := if c.binds.any fun p => p.2.dirtyAt line then c.bad.filter fun x => o ≤ x && x < o + 64 else []
    let s := s.setCrew k { c with binds := c.binds.map fun (n, b) => (n, drop b) }
    free { s with agenda := s.agenda ++ bad.map fun x => .ev (.scratchScrub (.scratch (k / 8) (k % 8) x)) }

/-- What a stash writes back for a line. -/
def Crew.stashWrite (c : Crew) (line o : Nat) : LineWrite :=
  { line := line, bytes := (List.range 64).map fun i => (i, c.scratch.byte (o + i)), tag := some (c.scratch.tag o) }

/-- A write performed at a die and applied at all the others at once. -/
def State.writeEverywhere (s : State) (d : Nat) (w : LineWrite) (who : Writer) : State :=
  ((List.range 4).filter (· != d)).foldl (fun s e => s.applyNow w e) ((s.applyAt d w who).sendPkg d w false)

/-- The slice's checked request of a line that a stash owns, for the owner's page (07 R135: stash fills and recalls; SRC 4). -/
def State.stashRequest (s : State) (line k : Nat) (c : Crew) : State :=
  let vf := ((s.convoy? (k / 8)).map Convoy.vf).getD 0
  let va := (c.binds.findSome? fun p => (bindOff p.2 line).map (p.2.g + ·)).getD 0
  s.checkedLine line va vf ((s.walk vf (homeDie line) va).elim 0 Xlat.set) 4

/-- A stash line given up (03 R53, R54): a dirty copy is written back as a write of the stash's die, which every die sees at
once. -/
def State.giveBack (s : State) (line : Nat) : State :=
  match s.stashOf line with
  | none => s.dropStash line
  | some (k, c, o) =>
    let t := (s.stashRequest line k c).dropStash line
    match s.stashDirty line with
    | some e => t.writeEverywhere e (c.stashWrite line o) .stash
    | none => t

/-! ### Reads and writes of agents -/

/-- Whether a line's value stands at a die: its memory is not awaited (23 R390), and where a stash of another die owns it, that die's
earlier writes have been applied here (04 R70). -/
def State.canSee (s : State) (d pa : Nat) : Bool :=
  !s.memHeld pa &&
    match s.stashOf (lineOf pa) with
    | some (_, c, _) => dieOfCore c.core == d || s.applied d (s.die (dieOfCore c.core)).vc
    | none => true

/-- Whether a read of a line can be made at a die now: no invocation pins it (07 R135). -/
def State.canRead (s : State) (d pa : Nat) : Bool := s.canSee d pa && !(s.lineDir (lineOf pa)).pinned

/-- Whether a write of a line can be performed at a die now: no older write of the line is still to come (04 R68), the
line is not pinned (07 R135), fewer than 2^30 of the die's writes are outstanding (04 R69), its memory is not awaited, and an owning
stash can give the line up first (03 R53). -/
def State.canWrite (s : State) (d line : Nat) : Bool :=
  !s.lineBehind d line && !(s.lineDir line).pinned && !s.memHeld line &&
    (s.pkg.filter fun p => p.src == d).length < 2 ^ 30 && s.canRecall line

/-- A write performed at a die by an agent: an owning stash gives the line up first (03 R53), then the write takes its place and
leaves for the other dies. -/
def State.devWrite (s : State) (d : Nat) (w : LineWrite) (who : Writer) : State :=
  let s := if (s.lineDir w.line).owner.isSome then s.giveBack w.line else s
  (s.applyAt d w who).sendPkg d w false

/-- The same, applied at all the other dies at once. -/
def State.devWriteAll (s : State) (d : Nat) (w : LineWrite) (who : Writer) : State :=
  ((List.range 4).filter (· != d)).foldl (fun s e => s.applyNow w e) (s.devWrite d w who)

/-- Whether `devWriteAll` can be made now. -/
def State.canWriteAll (s : State) (d line : Nat) : Bool := s.canWrite d line && s.level d line

/-- Waves that wait at commit look again. -/
def State.unstall (s : State) : State :=
  if s.waves.any (fun p => p.2.stall) then
    { s with waves := s.waves.map fun (k, w) => (k, if w.stall then { w with stall := false } else w) }
  else s

/-! ### Event rings (13 Table 13-7, 07 R141) -/

/-- The ring header at a DEVICE line: HEAD, TAIL, BASE and SIZE, if it passes the checks of 13 R260. -/
structure RingHdr where
  head : Nat
  tail : Nat
  base : Nat
  size : Nat
  deriving DecidableEq, Repr

/-- The header's fields; none for a faulty header (13 R260). -/
def State.ringHdr (s : State) (d pa : Nat) : Option RingHdr :=
  let h : RingHdr := { head := s.devVal d pa 8, tail := s.devVal d (pa + 8) 8, base := s.devVal d (pa + 16) 8,
                       size := s.devVal d (pa + 24) 4 }
  let n := (h.tail + 2 ^ 64 - h.head) % 2 ^ 64
  if h.size = 0 ∨ 2 ^ 20 < h.size ∨ 2 ^ Nat.log2 h.size ≠ h.size ∨ s.devVal d (pa + 28) 36 ≠ 0 ∨ h.size < n then none
  else some h

/-- Records in the ring. -/
def RingHdr.count (h : RingHdr) : Nat := (h.tail + 2 ^ 64 - h.head) % 2 ^ 64

/-- Bytes of one line as a write. -/
def lineWrite (pa : Nat) (b : List Byte) (tag : Option Tag) : LineWrite :=
  { line := lineOf pa, bytes := b.mapIdx fun i x => (pa % 64 + i, x), tag := tag }

/-- MSI-X (22 R373): a masked vector becomes pending. -/
def State.msix (s : State) (vf vec : Nat) : State :=
  let f := s.fn vf
  s.setFn vf (if f.msixMask.contains vec then { f with msixPend := f.msixPend.filter (· != vec) ++ [vec] }
    else { f with msixSent := ins f.msixSent vec (lookD f.msixSent vec 0 + 1) })

/-- The ring at a function's virtual address: header line and record address by the function's translations at handler
level (18 R318). -/
def State.ringAt (s : State) (vf hdr : Nat) : Option (Nat × RingHdr) :=
  match s.lookup vf 0 hdr with
  | none => none
  | some x =>
    if x.cls ≠ 0 ∨ hdr % 64 ≠ 0 then none
    else
      let pa := s.devAddr vf x hdr
      (s.ringHdr (homeDie pa) pa).map fun h => (pa, h)

/-- The physical address of record number `n` of a ring. -/
def State.ringSlot (s : State) (vf : Nat) (h : RingHdr) (n : Nat) : Option Nat :=
  let va := h.base + 32 * (n % h.size)
  match s.lookup vf 0 va with
  | none => none
  | some x => if x.cls ≠ 0 then none else some (s.devAddr vf x va)

/-- The ring that an append finds: header line, header, address of the next record; none where it has no DEVICE translation or a
faulty header (18 R318, 13 R260). -/
def State.ringFor (s : State) (vf hdr : Nat) : Option (Nat × RingHdr × Nat) :=
  match s.ringAt vf hdr with
  | none => none
  | some (pa, h) => (s.ringSlot vf h h.tail).map fun slot => (pa, h, slot)

/-- Whether an append must wait for its place in the die order: there is room, and a line it writes cannot be written everywhere
yet. -/
def State.appendWaits (s : State) (vf hdr : Nat) : Bool :=
  match s.ringFor vf hdr with
  | none => false
  | some (pa, h, slot) => h.count < h.size && !(s.canWriteAll (homeDie pa) (lineOf slot) && s.canWriteAll (homeDie pa) (lineOf pa))

/-- A record appended to the ring at a virtual address of a function; none where it cannot be (07 R141, 18 R315, 25
R418): the tail's new value is written after the record (14 R285). Both writes are seen by every die before the interrupt that
follows (22 R373). -/
def State.append (s : State) (vf hdr : Nat) (r : List Byte) : Option State :=
  match s.ringFor vf hdr with
  | none => none
  | some (pa, h, slot) =>
    if h.size ≤ h.count then none
    else
      let s := s.devWriteAll (homeDie pa) (lineWrite slot r none) .host
      some (s.devWriteAll (homeDie pa) (lineWrite (pa + 8) (leBytes 8 (h.tail + 1)) none) .host)

/-- What is posted is written: a record is appended and its vector sent; one that finds no ring or no room is dropped and counted (07
R141, 18 R307, 25 R418, 22 R373). EN of a descriptor is cleared (18 R309). -/
def State.appendPost (s : State) (p : Post) : State :=
  match p with
  | .tenant vf r =>
    let hdr := (s.fn vf).terb.toNat
    (match if hdr = 0 then none else s.append vf hdr r with
     | some s => s.msix vf 64
     | none => s.setFn vf { s.fn vf with overflow := (s.fn vf).overflow + 1 })
  | .error r =>
    let hdr := s.errb.toNat
    (match if hdr = 0 then none else s.append 0 hdr r with
     | some s => s.msix 0 65
     | none => { s with errovf := s.errovf + 1 })
  | .clearEn pa =>
    let flags := s.devVal (homeDie pa) (pa + 0x1D) 1
    s.devWrite (homeDie pa) (lineWrite (pa + 0x1D) (leBytes 1 (flags - flags % 2)) none) .host

/-- Whether what is posted can be written now. -/
def State.postReady (s : State) (p : Post) : Bool :=
  match p with
  | .tenant vf _ => (s.fn vf).terb = 0 || !s.appendWaits vf (s.fn vf).terb.toNat
  | .error _ => s.errb = 0 || !s.appendWaits 0 s.errb.toNat
  | .clearEn pa => s.canWrite (homeDie pa) (lineOf pa)

/-- The oldest post that can be written is; records of one ring keep their order. -/
def State.postStep (s : State) : Option State :=
  match s.posts.findIdx? s.postReady with
  | none => none
  | some i =>
    match s.posts[i]? with
    | none => none
    | some p => some (({ s with posts := dropAt s.posts i }).appendPost p).unstall

/-- An error record's bytes (25 Table 25-5). -/
def State.errorRecord (s : State) (kind : Nat) (cause : BitVec 10) (die unit pch lane addr data : Nat) : List Byte :=
  leBytes 2 kind ++ leBytes 2 cause.toNat ++ leBytes 1 die ++ leBytes 1 unit ++ leBytes 1 pch ++ leBytes 1 lane ++
    leBytes 8 addr ++ leBytes 8 data ++ leBytes 8 s.clock.toNat

/-- The bits that an access needs set in its leaf: ACC, and DTY for a write (21 R362). -/
def needBits (wr : Bool) : DWord := if wr then 0x60#64 else 0x20#64

/-- ACC, and DTY for a write, are set by an atomic OR on the leaf at its home slice (21 R362); a translation that has them set needs
none. -/
def State.touch (s : State) (x : Xlat) (wr : Bool) : State :=
  let d := homeDie x.entry
  let cur : DWord := BitVec.ofNat 64 (s.devVal d x.entry 8)
  if x.leaf &&& needBits wr = needBits wr || cur &&& needBits wr = needBits wr then s
  else s.devWrite d (lineWrite x.entry (leBytes 8 (cur ||| needBits wr).toNat) none) .host

/-- 21 R362: the atomic finds the entry that the walk used; otherwise the access walks again. -/
def State.touchable (s : State) (x : Xlat) (wr : Bool) : Bool :=
  let cur : DWord := BitVec.ofNat 64 (s.devVal (homeDie x.entry) x.entry 8)
  !s.memHeld x.entry && (x.leaf &&& needBits wr = needBits wr ||
    cur.getLsbD 0 && leafBody cur = leafBody x.leaf && s.canWrite (homeDie x.entry) (lineOf x.entry))

/-- Whether the leaf still has to take a bit. -/
def State.untouched (s : State) (x : Xlat) (wr : Bool) : Bool :=
  x.leaf &&& needBits wr ≠ needBits wr &&
    BitVec.ofNat 64 (s.devVal (homeDie x.entry) x.entry 8) &&& needBits wr ≠ needBits wr

/-- The translation is cached (21 R363, R365), with the bits that its accesses have set. -/
def State.cache (s : State) (vf va : Nat) (x : Xlat) : State :=
  let f := s.fn vf
  let t : TlbEntry := { va := va / 2 ^ x.psz * 2 ^ x.psz, psz := x.psz, leaf := x.leaf ||| 0x20, entry := x.entry }
  if f.tlb.contains t then s
  else s.setFn vf { f with tlb := f.tlb.filter (fun u => !(u.va == t.va && u.psz == t.psz)) ++ [t] }

end Sys2Proof.Machine
end

