-- ==== Sys2Proof/Machine/Causeway.lean ====
section
/-!
DEFINITION. Sys2Proof/Machine/Causeway.lean: flits and their CRC (22 R374), the Causeway ports (22 R375, R376), the routes of this device's
messages (22 R377), and the order in which HOST writes leave a die (22 R372).
-/
namespace Sys2Proof

open Sys2Proof.Machine

/-! ### Flits (22 R374, Table 22-2) -/

/-- The flit sequence number. -/
def Flit.seq (f : Flit) : BitVec 12 := f.head.extractLsb' 52 12
/-- The next SEQ that the sender expects to receive. -/
def Flit.ack (f : Flit) : BitVec 12 := f.head.extractLsb' 40 12
/-- STOP, a bit for each virtual channel. -/
def Flit.stop (f : Flit) : BitVec 5 := f.head.extractLsb' 35 5
/-- TYPE: 0 payload, 1 idle, 2 NAK, 3 training. -/
def Flit.ftype (f : Flit) : BitVec 3 := f.head.extractLsb' 32 3

/-- One bit of the CRC: the ECMA-182 polynomial. -/
def crcBit (c : BitVec 64) : BitVec 64 := if c.getLsbD 63 then (c <<< 1) ^^^ 0x42F0E1EBA9EA3693#64 else c <<< 1

/-- One byte of the CRC, its highest bit first. -/
def crcByte (c : BitVec 64) (b : Byte) : BitVec 64 :=
  (List.range 8).foldl (fun c _ => crcBit c) (c ^^^ (b.zeroExtend 64 <<< 56))

/-- CRC-64 of bytes, from a register of zeros (DESIGN CHOICE, log 98). -/
def crc64 (l : List Byte) : BitVec 64 := l.foldl crcByte 0

/-- Bytes 0 to 247. -/
def Flit.body (f : Flit) : List Byte := leBytes 8 f.head.toNat ++ f.slots.flatMap fun x => leBytes 16 x.toNat

/-- The 256 bytes. -/
def Flit.bytes (f : Flit) : List Byte := f.body ++ leBytes 8 f.crc.toNat

/-- Whether bytes 248 to 255 hold the CRC of the others. -/
def Flit.crcGood (f : Flit) : Bool := f.crc == crc64 f.body

/-- The channels of a flit's messages, each a header slot with no or four data slots after it; a slot of zeros is none. -/
def slotChannels : Nat → List (BitVec 128) → List Nat
  | 0, _ => []
  | _, [] => []
  | n + 1, x :: r =>
    if x = 0 then slotChannels n r
    else Config.slotChannel x % 5 :: slotChannels n (if Config.slotData x then r.drop 4 else r)

end Sys2Proof

namespace Sys2Proof.Machine

open Sys2Proof

/-! ### A port's side of its link (22 R375, R376) -/

/-- The virtual channel of a message (22 R376). -/
def CwMsg.channel : CwMsg → Nat
  | .request _ _ => 0
  | .write _ _ | .copy _ _ => 1
  | .reply _ _ => 2
  | .coll _ _ _ => 3
  | .heartbeat | .declare _ => 4

/-- Whether a message awaits an answer of its own. -/
def CwMsg.awaits : CwMsg → Bool
  | .request _ _ | .write _ _ | .coll _ _ _ => true
  | .copy _ _ | .reply _ _ | .heartbeat | .declare _ => false

/-- The slots of one message: its header slot, and the data in four slots, if any; the rest is zero. -/
def msgSlots (ch seq ctr : Nat) (data : List Byte) : List (BitVec 128) :=
  let d := if data.isEmpty then [] else (List.range 4).map fun i => BitVec.ofNat 128 (leVal ((data.drop (16 * i)).take 16))
  Config.headerSlot ch seq ctr :: d ++ List.replicate (14 - d.length) 0

/-- STOP as the port sends it: a channel whose receive buffer holds room for fewer than 256 flits. -/
def Port.stops (p : Port) : BitVec 5 :=
  BitVec.ofNat 5 ((List.range 5).foldl (fun m c => if Config.portRoom c < 256 + p.held[c]?.getD 0 then m ||| 2 ^ c else m) 0)

/-- A flit of the port: TYPE, SEQ and slots (22 Table 22-2). -/
def Port.flit (p : Port) (kind : Nat) (seq : BitVec 12) (slots : List (BitVec 128)) : Flit :=
  let head := BitVec.ofNat 64 (2 ^ 52 * seq.toNat + 2 ^ 40 * p.expect.toNat + 2 ^ 35 * p.stops.toNat + 2 ^ 32 * kind)
  let f : Flit := { head := head, slots := slots, crc := 0 }
  { f with crc := crc64 f.body }

/-- The port can start a message on a channel: it is up, nothing is to be sent again before, the channel is not stopped, and the replay
buffer has room. -/
def Port.opens (p : Port) (ch : Nat) : Bool :=
  p.up && p.resend.isEmpty && !p.stopped.getLsbD ch && p.unacked.length < 2048

/-- A message leaves in a flit of its own. -/
def Port.start (p : Port) (m : CwMsg) (slots : List (BitVec 128)) : Port :=
  { p with next := p.next + 1, unacked := p.unacked ++ [{ seq := p.next, slots := slots, replays := 0 }],
           msgs := if m.awaits then p.msgs ++ [m] else p.msgs, link := some (p.flit 0 p.next slots) }

/-- Flits that an ACK acknowledges leave the replay buffer: those before the named number. -/
def Port.acked (p : Port) (ack : BitVec 12) : Port :=
  { p with unacked := p.unacked.filter (fun q => (q.seq - ack).toNat < 2048), resend := p.resend.filter fun q => (q - ack).toNat < 2048 }

/-- A NAK brings the replay of every flit from the one it names, in order; a flit that has been replayed 16 times makes the port retrain. -/
def Port.replay (p : Port) : Port :=
  if p.unacked.any fun q => 16 ≤ q.replays then { p with training := true, up := false, resend := [] }
  else { p with unacked := p.unacked.map (fun q => { q with replays := q.replays + 1 }), resend := p.unacked.map Sent.seq }

/-- A flit that is not the one expected brings a NAK. -/
def Port.refuses (p : Port) : Port := { p with nak := some p.expect, nakDue := true }

/-- A payload flit accepted: the next number is expected, and its messages fill their channels' buffers. -/
def Port.accepts (p : Port) (f : Flit) : Port :=
  { p with expect := p.expect + 1, nak := none, nakDue := false,
           held := (slotChannels 15 f.slots).foldl (fun h c => setAt h c (h[c]?.getD 0 + 1)) p.held }

/-- A received flit. What does not follow in sequence after a NAK is discarded, until the flit that the NAK names arrives; one whose CRC is
bad brings a NAK each time (DEDUCED, log 62). -/
def Port.receive (p : Port) (f : Flit) : Port :=
  if !f.crcGood || 4 ≤ f.ftype.toNat then p.refuses
  else
    let q := { p.acked f.ack with stopped := f.stop }
    if f.ftype = 2 then q.replay
    else if f.ftype = 3 then q
    else if f.seq ≠ p.expect then if p.nak.isSome then q else q.refuses
    else if f.ftype = 0 then q.accepts f
    else q

/-- The port's next flit of its own accord: an outstanding NAK, a flit to be sent again, a declaration. -/
def Port.own (p : Port) (ctr : Nat) : Option Port :=
  if !p.up then none
  else if p.nakDue then some { p with nakDue := false, link := some (p.flit 2 p.next (List.replicate 15 0)) }
  else match p.resend with
    | x :: r => some { p with resend := r, link := (p.unacked.find? fun q => q.seq == x).map fun q => p.flit 0 q.seq q.slots }
    | [] => match p.flood with
      | d :: r => if p.opens 4 then some ({ p with flood := r }.start (.declare d) (msgSlots 4 p.next.toNat ctr [])) else none
      | [] => none

/-- The device takes one flit out of a channel's receive buffer. -/
def Port.take (p : Port) : Option Port :=
  ((List.range 5).find? fun c => p.held[c]?.getD 0 ≠ 0).map fun c => { p with held := setAt p.held c (p.held[c]?.getD 0 - 1) }

/-! ### Routes (22 R377) -/

/-- The port by which a request for a device's page leaves a die: one of the usable ports, by the hash (DESIGN CHOICE, log 7); none where no
port is usable. -/
def State.routeOf (s : State) (dev page d : Nat) : Option Nat :=
  let l := (List.range 24).filter fun i => (lookD s.routes dev 0).getLsbD i
  l[Config.portHash (2 ^ 46 * dev + 4 * page + d) % l.length]?

/-- A message enters a port, if that can start it. -/
def State.tell (s : State) (n : Nat) (m : CwMsg) (data : List Byte) : Option State :=
  let p := s.port n
  if p.opens m.channel then some (s.setPort n (p.start m (msgSlots m.channel p.next.toNat s.freeCtr data))) else none

/-- A message to a device, by the route of a page; none while it cannot start. -/
def State.tellDev (s : State) (d dev page : Nat) (m : CwMsg) (data : List Byte) : Option State :=
  (s.routeOf dev page d).bind fun n => s.tell n m data

/-- How many messages await their answers that are equal to one. -/
def State.flying (s : State) (m : CwMsg) : Nat := (s.ports.map fun p => p.2.msgs.count m).sum

/-- A message's answer has come. -/
def State.landed (s : State) (m : CwMsg) : State :=
  match s.ports.find? fun p => p.2.msgs.contains m with
  | some (n, p) => s.setPort n { p with msgs := p.msgs.erase m }
  | none => s

/-- Messages that nothing awaits any longer are forgotten. -/
def State.forget (s : State) (gone : CwMsg → Bool) : State :=
  if s.ports.any fun p => p.2.msgs.any gone then
    { s with ports := s.ports.map fun (n, p) => (n, { p with msgs := p.msgs.filter fun m => !gone m }) }
  else s

/-- Whether a message is a write of the page of an address. -/
def CwMsg.onPage (adr : Nat) : CwMsg → Bool
  | .write _ l => l / 4096 == adr / 4096
  | _ => false

/-- A write is the first of its page among those that its port has sent and that are not answered: each channel is first in, first out along
a route. -/
def State.pageFirst (s : State) (key line : Nat) : Bool :=
  s.ports.any fun p => p.2.msgs.find? (CwMsg.onPage line) == some (.write key line)

/-- A line of a copy crosses to its device and back in the step that moves it: behind the page's writes that its port has sent. -/
def State.copyMsg (s : State) (d key adr : Nat) (data : List Byte) : Option State :=
  (s.routeOf (adr / 2 ^ 44 % 256) (adr / 4096) d).bind fun n =>
    if (s.port n).msgs.any (CwMsg.onPage adr) then none else s.tell n (.copy key (lineOf adr)) data

/-- A port's step of its own accord; or a flit taken out of its receive buffers. -/
def State.portStep (s : State) (n : Nat) : Option State :=
  (((s.port n).own s.freeCtr).orElse fun _ => (s.port n).take).map (s.setPort n)

/-! ### What waits to enter a port -/

/-- The bytes of a line write, as four data slots carry them. -/
def LineWrite.bytes64 (w : LineWrite) : List Byte := (List.range 64).map fun i => lookD w.bytes i 0

/-- The messages of a wave's loads, atomics and stores that no port has started, with the lines' addresses and data: the requests, then the
store lines in order. -/
def State.unsent (s : State) (key : Nat) (w : Wave) : List (CwMsg × Nat × List Byte) :=
  let asks := match w.far with
    | some f => if f.space = .peer then
        (f.lines.map fun l => (CwMsg.request key l.1, l.1, [])).filter fun m => s.flying m.1 = 0
      else []
    | none => []
  let lines := w.doms.flatMap fun o => match o with
    | .store e => if e.space = .peer then e.lines else []
    | _ => []
  let puts := (lines.zipIdx.filter fun l => s.flying (.write key l.1.line) ≤ ((lines.take l.2).filter fun x => x.line == l.1.line).length).map
    fun l => (CwMsg.write key l.1.line, l.1.line, l.1.bytes64)
  asks ++ puts

/-- A wave's messages enter their ports, those that can. -/
def State.sendMsgs (s : State) (id : WaveId) : State :=
  match s.wave? id with
  | none => s
  | some w => (s.unsent (waveKey id) w).foldl (fun s m =>
      (s.tellDev (dieOfCore w.core) (m.2.1 / 2 ^ 44 % 256) (m.2.1 / 4096) m.1 m.2.2).getD s) s

/-- The same as a step, if some message can enter. -/
def State.sendStep (s : State) (id : WaveId) : Option State :=
  match s.wave? id with
  | none => none
  | some w =>
    if (s.unsent (waveKey id) w).any fun m =>
        (s.tellDev (dieOfCore w.core) (m.2.1 / 2 ^ 44 % 256) (m.2.1 / 4096) m.1 m.2.2).isSome then some (s.sendMsgs id)
    else none

/-! ### Answers to other devices (22 R379) -/

/-- The first answer that is due and can enter a port: a write's once all four dies have applied it. -/
def State.replyStep (s : State) : Option State :=
  s.owed.zipIdx.findSome? fun (o, i) =>
    if o.line.elim false fun l => s.pkg.any fun p => p.src == o.die && p.write.line == l then none
    else (s.tellDev o.die o.dev o.page (.reply o.dev o.status) o.data).map fun s => { s with owed := dropAt s.owed i }

/-! ### Steps of the outside world that wait -/

/-- Whether a held step waits for device memory. -/
def waitsForMemory (t : Turn) : Bool :=
  match t with
  | .ev (.frailWrite _ _) => false
  | _ => true

/-- A step of the outside world that has to wait is made again later. -/
def State.later (s : State) (i : Instr) : State := { s with held := s.held ++ [.ev i] }

/-- The oldest step of the outside world that waits is tried again. -/
def State.retryHeld (s : State) : Option State :=
  (s.held.find? waitsForMemory).map fun t => { s with held := s.held.erase t, agenda := s.agenda ++ [t] }

/-! ### HOST writes of a die (22 R372) -/

/-- A HOST store or atomic of a wave leaves its die. -/
def State.leaveHost (s : State) (d key : Nat) : State := s.setDie d { s.die d with hostOut := (s.die d).hostOut ++ [key] }

/-- A HOST write of a die is over, the one at a place: requests that left after it have one less to stay behind. -/
def State.hostOver (s : State) (d i : Nat) : State :=
  let s := s.setDie d { s.die d with hostOut := dropAt (s.die d).hostOut i }
  { s with waves := s.waves.map fun (k, w) => (k, match w.far with
      | some f => if f.space = .host ∧ dieOfCore w.core = d ∧ i < f.behind then { w with far := some { f with behind := f.behind - 1 } } else w
      | none => w) }

/-- The place of a wave's `n`th HOST write among those of its die. -/
def hostPlace (key : Nat) : Nat → List Nat → Nat
  | _, [] => 0
  | n, x :: l => if x = key then (match n with
      | 0 => 0
      | n + 1 => 1 + hostPlace key n l) else 1 + hostPlace key n l

end Sys2Proof.Machine
end

