-- ==== Sys2Proof/Machine/Ops.lean ====
section
/-!
DEFINITION. Sys2Proof/Machine/Ops.lean: the wave's registers, what an instruction's meaning answers (`Verdict`), the one way
it commits (milestones, pc, debug traps: 01 R18 to R21, 19 R338), taking a trap (19 R330) and the return from it (R335),
tearing a convoy down (R334), barriers (13 R253) and the counters of asynchronous operations (04 R83).
-/
namespace Sys2Proof.Machine

open Sys2Proof

/-! ### Registers of a wave (02 Table 2-1) -/

namespace Wave

/-- Threads of the wave: 32·D (01 R14). -/
def threads (w : Wave) : Nat := 32 * w.depth
/-- v register `n` of thread `t`. -/
def getV (w : Wave) (t n : Nat) : Word := lookD w.v (256 * t + n) 0
/-- v register `n` of thread `t` written. -/
def setV (w : Wave) (t n : Nat) (x : Word) : Wave := { w with v := put 0 w.v (256 * t + n) x }
/-- The pair v(n):v(n+1) of thread `t`, v(n) holding bits 31:0. -/
def getV2 (w : Wave) (t n : Nat) : DWord := (w.getV t (n + 1)) ++ (w.getV t n)
/-- The pair written. -/
def setV2 (w : Wave) (t n : Nat) (x : DWord) : Wave := (w.setV t n (x.extractLsb' 0 32)).setV t (n + 1) (x.extractLsb' 32 32)
/-- k register `n`. -/
def getK (w : Wave) (n : Nat) : DWord := lookD w.k n 0
/-- k register `n` written. -/
def setK (w : Wave) (n : Nat) (x : DWord) : Wave := { w with k := put 0 w.k n x }
/-- Predicate `n` in every thread; p7 reads true (02 R35). -/
def getP (w : Wave) (n : Nat) : Lanes := if n = 7 then BitVec.allOnes 128 else lookD w.p n 0
/-- Predicate `n` written; a write to p7 is discarded (02 R35). -/
def setP (w : Wave) (n : Nat) (x : Lanes) : Wave := if n = 7 then w else { w with p := put 0 w.p n x }
/-- Index register `n` of thread `t`. -/
def getI (w : Wave) (t n : Nat) : Byte := lookD w.i (128 * n + t) 0
/-- Index register `n` of thread `t` written. -/
def setI (w : Wave) (t n : Nat) (x : Byte) : Wave := { w with i := put 0 w.i (128 * n + t) x }

/-- The set of threads that exist. -/
def span (w : Wave) : Lanes := lanesFrom (List.range w.threads)

end Wave

/-- h register `n` (02 Table 2-1). -/
def Crew.getH (c : Crew) (n : Nat) : Word := lookD c.h n 0
/-- h register `n` written. -/
def Crew.setH (c : Crew) (n : Nat) (x : Word) : Crew := { c with h := put 0 c.h n x }
/-- h register `n` written by a wave slot in an assay cycle: of several writes in one cycle the highest slot's stands (02 R36). -/
def Crew.writeH (c : Crew) (cycle slot n : Nat) (x : Word) : Crew :=
  match look c.hAt n with
  | some (t, k) => if t = cycle ∧ slot < k then c else { c.setH n x with hAt := ins c.hAt n (cycle, slot) }
  | none => { c.setH n x with hAt := ins c.hAt n (cycle, slot) }

/-- Threads in which a guard holds (01 R15): PG = 7 always holds, whatever PN (02 R35). -/
def Wave.guard (w : Wave) (c : Ctl) : Lanes :=
  if c.pg = 7 then BitVec.allOnes 128
  else if c.pn then ~~~ w.getP c.pg.toNat else w.getP c.pg.toNat

/-! ### The setting of an instruction -/

/-- The wave that executes an instruction, with its crew, convoy and grid, and %mile as the instruction reads it (02 R40). -/
structure Ctx where
  s : State
  id : WaveId
  w : Wave
  cw : Crew
  cv : Convoy
  g : Grid
  mile : Word

/-- The setting of a wave, if it is resident and has not retired. -/
def State.ctx (s : State) (id : WaveId) : Option Ctx :=
  match s.wave? id with
  | none => none
  | some w =>
    match s.crew? (crewKeyOf id) with
    | none => none
    | some cw =>
      match s.convoy? id.conv with
      | none => none
      | some cv =>
        match s.grid? cv.grid with
        | none => none
        | some g => if w.ended || cv.st == .saving || cv.st == .flushing || cv.st == .saved then none else
            some { s := s, id := id, w := w, cw := cw, cv := cv, g := g, mile := w.mile }

/-- The setting of the focus wave. -/
def Ctx.of (s : State) : Option Ctx :=
  match s.focus with
  | .wave id => s.ctx id
  | .none => none
  | .cairn _ => none

namespace Ctx

/-- The wave is in its trap handler. -/
def hnd (c : Ctx) : Bool := c.w.level == .handler
/-- The function. -/
def vf (c : Ctx) : Nat := c.g.vf
/-- The wave's die. -/
def die (c : Ctx) : Nat := dieOfCore c.w.core
/-- The wave's cluster. -/
def clusterNo (c : Ctx) : Nat := clusterOfCore c.w.core
/-- The cluster's state. -/
def cl (c : Ctx) : Cluster := c.s.cluster c.clusterNo
/-- The wave's key. -/
def key (c : Ctx) : Nat := waveKey c.id
/-- The crew's key. -/
def crewKey (c : Ctx) : Nat := crewKeyOf c.id
/-- CTXID (20 R344). -/
def ctxid (c : Ctx) : BitVec 16 := BitVec.ofNat 16 (64 * c.cv.vf + c.cv.q + 1)

/-- The instruction is the first of its clause. -/
def first (c : Ctx) : Bool :=
  match c.w.clause with
  | some cl => c.w.pc == cl.addr + 8
  | none => false
/-- The instruction is the last of its clause. -/
def last (c : Ctx) : Bool :=
  match c.w.clause with
  | some cl => c.w.pc == cl.addr + 8 * (BitVec.ofNat 64 cl.cnt.toNat + 1)
  | none => true
/-- The header that follows the clause (11 R200: HeaderAddress + 8·(CNT + 2)). -/
def nextHeader (c : Ctx) : DWord :=
  match c.w.clause with
  | some cl => cl.addr + 8 * (BitVec.ofNat 64 cl.cnt.toNat + 2)
  | none => c.w.pc + 8
/-- The instruction's commit makes the explicit milestone advance (01 R19); a handler's makes none. -/
def explicitMile (c : Ctx) : Bool :=
  !c.hnd && c.first && (match c.w.clause with
    | some cl => cl.m
    | none => false)

/-- The wave replaced. -/
def put (c : Ctx) (w : Wave) : State := c.s.setWave c.id w

end Ctx

/-- Threads on which an instruction acts (01 R15, R16; a handler acts as thread 0 alone, 19 R332). -/
def Ctx.acting (c : Ctx) (k : Ctl) : Lanes :=
  if c.hnd then 1#128
  else
    let a := c.w.active &&& c.w.guard k
    if k.onc then
      match lowest a with
      | some t => oneLane t
      | none => 0
    else a

/-! ### Outstanding asynchronous operations (01 R21) -/

/-- Operations of the wave on the matrix engines of its cluster. -/
def State.matrixOps (s : State) (cluster key : Nat) : List MOp :=
  (s.cluster cluster).engines.flatMap fun e => e.ops.filter fun o => o.wave == key

/-- No asynchronous operation of the wave is outstanding. -/
def Ctx.quiet (c : Ctx) : Bool :=
  c.w.cCpy == 0 && c.w.cGrv == 0 && c.w.cMsg == 0 && c.w.cDom == 0 && (c.s.matrixOps c.clusterNo c.key).isEmpty

/-! ### Grids that fail, convoys torn down -/

/-- The grid's first failure stands (19 R329, R334). -/
def State.failGrid (s : State) (grid : Nat) (f : LateF) (index : Nat) : State :=
  match s.grid? grid with
  | none => s
  | some g => if g.failed.isSome then s else s.setGrid grid { g with failed := some (f, index) }

/-- Whether an operation is an MMA. -/
def MOpKind.isMma : MOpKind → Bool
  | .mma _ => true
  | _ => false

/-- The waves of a convoy. -/
def State.wavesOf (s : State) (conv : Nat) : List (Nat × Wave) := s.waves.filter fun p => (waveOfKey p.1).conv == conv

/-- The lowest-slot wave of a crew, or of a convoy. -/
def State.firstWave (s : State) (k : Nat) (crew : Option Nat) : Option Nat :=
  let l := (s.wavesOf k).filter fun p => !p.2.drained && crew.elim true fun c => (waveOfKey p.1).crew == c
  let live := l.filter fun p => !p.2.ended
  let pick := if live.isEmpty then l else live
  (pick.foldl (fun (r : Option (Nat × Wave)) p => match r with
    | none => some p
    | some q => if p.2.slot < q.2.slot then some p else some q) none).map Prod.fst

/-- A convoy is torn down (19 R334): every wave stops; its outstanding operations drain and its resources are released by
the retirement steps; the grid fails. -/
def State.teardown (s : State) (conv : Nat) (f : LateF) : State :=
  match s.convoy? conv with
  | none => s
  | some cv =>
    if cv.teardown.isSome then s
    else
      let s := s.failGrid cv.grid f cv.index
      let s := s.setConvoy conv { cv with teardown := some f }
      { s with waves := s.waves.map fun (k, w) =>
          if (waveOfKey k).conv = conv then
            (k, { w with ended := true, wait := none, woken := false, far := none, late := none, stall := false })
          else (k, w) }

/-! ### Barriers (13 R253) -/

/-- A barrier word that no wave has reached. -/
def Bar.empty : Bar := { arrived := [], gen := false }

/-- The participants of a barrier that have not committed TAIL (01 R27, R30), by 16·crew + wave. -/
def State.participants (s : State) (conv : Nat) (crew : Option Nat) : List Nat :=
  (s.waves.filter fun p => !p.2.ended && (waveOfKey p.1).conv == conv &&
    (match crew with
     | some c => (waveOfKey p.1).crew == c
     | none => true)).map fun p => p.1 % 128

/-- A barrier word. -/
def State.bar (s : State) (conv : Nat) (crew : Option Nat) (id : Nat) : Bar :=
  match crew with
  | some c => ((s.crew? (8 * conv + c)).map fun x => lookD x.bars id Bar.empty).getD Bar.empty
  | none => ((s.convoy? conv).map fun x => lookD x.bars id Bar.empty).getD Bar.empty

/-- A barrier word replaced. -/
def State.setBar (s : State) (conv : Nat) (crew : Option Nat) (id : Nat) (b : Bar) : State :=
  match crew with
  | some c =>
    match s.crew? (8 * conv + c) with
    | some x => s.setCrew (8 * conv + c) { x with bars := ins x.bars id b }
    | none => s
  | none =>
    match s.convoy? conv with
    | some x => s.setConvoy conv { x with bars := ins x.bars id b }
    | none => s

/-- A barrier completes when every participant has arrived (01 R30): the generation turns, its waiters wake, and PROG of
the waves it releases is 0 (18 R322). -/
def State.barCheck (s : State) (conv : Nat) (crew : Option Nat) (id : Nat) : State :=
  let b := s.bar conv crew id
  if b.arrived.isEmpty || !(s.participants conv crew).all (fun x => b.arrived.contains x) then s
  else
    let s := s.setBar conv crew id { arrived := [], gen := !b.gen }
    { s with waves := s.waves.map fun (k, w) =>
        if (waveOfKey k).conv = conv && (crew.elim true fun c => (waveOfKey k).crew == c) then
          let w := { w with prog := 0 }
          match w.wait with
          | some (.bar cs i _) => (k, if cs == crew.isNone && i == id then { w with woken := true } else w)
          | _ => (k, w)
        else (k, w) }

/-- Every barrier that a retired or stopped wave leaves waiting only for others is checked (01 R27). -/
def State.barsAfterTail (s : State) (id : WaveId) : State :=
  let s := (List.range 16).foldl (fun s i => s.barCheck id.conv (some id.crew) i) s
  (List.range 8).foldl (fun s i => s.barCheck id.conv none i) s

/-! ### Trap frames (19 Table 19-2, 20 R356) -/

/-- The base of a convoy's save slot (20 Table 20-4). -/
def State.slotBase (s : State) (cv : Convoy) : Nat :=
  (lookD (s.fn cv.vf).csa cv.q 0).toNat + 0x801000 + 0x1800000 * cv.slot

/-- The address of a crew's block in the slot (20 Table 20-5). -/
def State.crewBlock (s : State) (cv : Convoy) (crew : Nat) : Nat := s.slotBase cv + 0xD91000 + 0xE0000 * crew

/-- The address of a wave's record (20 R356). -/
def State.waveRecord (s : State) (cv : Convoy) (id : WaveId) : Nat := s.crewBlock cv id.crew + 0xC0000 + 0x2000 * id.wave

/-- The bytes of a trap frame. -/
def frameBytes (w : Wave) (flags : Nat) (hdr epc : DWord) (dbg : Nat) : List Byte :=
  ((List.range 16).flatMap fun n => leBytes 8 (w.getK n).toNat) ++ leBytes 8 flags ++ leBytes 8 hdr.toNat ++
    leBytes 8 epc.toNat ++ leBytes 8 dbg ++ List.replicate 96 0

/-- The bytes of whole lines from a line address on, as line writes. -/
def linesOf (pa : Nat) (tag : Option Tag) : Nat → List Byte → List LineWrite
  | 0, _ => []
  | n + 1, b => lineWrite pa (b.take 64) tag :: linesOf (pa + 64) tag n (b.drop 64)

/-- A device access to a function's save area at handler level (20 R420): where the page of an address lies, or the cause
of the failed access. -/
def State.saveAddr (s : State) (vf d va : Nat) (wr : Bool) : Except (BitVec 10) (Xlat × Nat) :=
  match s.xlate vf d va .device 3 (if wr then .store else .load) with
  | .error c => .error c
  | .ok x => .ok (x, s.devAddr vf x va)

/-! ### Trap entry (19 R330) -/

/-- What a trap brings: kind (Table 19-1: 0 precise, 1 late, 2 after), cause, FADDR, FLANE, the PART bit, the DEBUG
details that matched, EPC and its header. -/
structure Trap where
  kind : Nat
  cause : BitVec 10
  faddr : BitVec 57
  flane : Lanes
  part : Bool
  dbg : Nat
  epc : DWord
  hdr : DWord
  deriving DecidableEq, Repr

/-- The wave as it enters the handler: the handler runs from TRAPB with k0 holding the frame's address and k1 to k15 zero
(19 R330). -/
def Wave.enter (w : Wave) (t : Trap) (trapb : DWord) (frame : Nat) : Wave :=
  { w with
    epc := t.epc.extractLsb' 0 57, cause := t.cause, faddr := t.faddr, flane := t.flane,
    trapKind := t.kind + (if t.part then 4 else 0), frame := frame, inner := w.clause, level := .handler, clause := none, pc := trapb,
    k := put 0 (w.k.filter fun p => 16 ≤ p.1) 0 (BitVec.ofNat 64 frame), wait := none, woken := false, stall := false,
    far := none, replay := none, skipBreak := none, spinTarget := 1, spinCount := 0 }

/-- A wave that traps out of a wait no longer counts as arrived. -/
def State.unpark (s : State) (id : WaveId) (w : Wave) : State :=
  match w.wait with
  | some (.bar conv i gen) =>
    let crew := if conv then none else some id.crew
    let b := s.bar id.conv crew i
    if b.gen = gen then
      s.setBar id.conv crew i { b with arrived := b.arrived.filter (· != 16 * id.crew + id.wave) }
    else s
  | _ => s

/-- Trap entry. `none`: the frame's lines cannot be written at this point of the die order, and the trap is taken later.
In handler mode, with TRAPB = 0, or where the frame cannot be written, the convoy is torn down (19 R334, 20 R420). -/
def State.trapEntry (s : State) (id : WaveId) (w : Wave) (cv : Convoy) (t : Trap) : Option State :=
  let trapb := (s.fn cv.vf).trapb
  if w.level = .handler || trapb = 0 then some (s.teardown id.conv { cause := t.cause, faddr := t.faddr })
  else
    let frame := s.waveRecord cv id + 0x300
    let d := dieOfCore w.core
    match s.saveAddr cv.vf d frame true with
    | .error c => some (s.teardown id.conv { cause := c, faddr := BitVec.ofNat 57 frame })
    | .ok (x, pa) =>
      let lines := linesOf pa (some 0) 4 (frameBytes w (t.kind + (if t.part then 4 else 0)) t.hdr t.epc t.dbg)
      if !(s.touchable x true && lines.all fun l => s.canWrite d l.line) then none
      else
        let s := (s.touch x true).cache cv.vf frame x
        let s := lines.foldl (fun s l => s.devWrite d l (.wave w.core)) s
        some ((s.unpark id w).setWave id (w.enter t trapb frame))

/-! ### What an instruction's meaning answers -/

/-- A precise fault: cause, FADDR, FLANE (19 R331). -/
structure Flt where
  cause : BitVec 10
  faddr : BitVec 57
  flane : Lanes
  deriving DecidableEq, Repr

/-- A fault with neither address nor threads. -/
def Flt.plain (cause : BitVec 10) : Flt := { cause := cause, faddr := 0, flane := 0 }

/-- The effect of a committing instruction: the state with its effects, the target it transfers to, the cause of a TRAP, and
the data watchpoints it matches (number, FADDR, FLANE). -/
structure Eff where
  s : State
  dest : Option DWord
  soft : Option (BitVec 10)
  hits : List (Nat × Nat × Lanes)

/-- An effect on the state alone. -/
def Eff.of (s : State) : Eff := { s := s, dest := none, soft := none, hits := [] }

/-- What a meaning answers: it commits; it faults and commits nothing (in a state that the device's own steps before the
trap have changed: 20 R351); a .PART load completes its good threads and traps;
it waits at commit, or leaves the active set with a wait record, with the state as it then stands; or the wave's own state is
settled already (TAIL, RTE, a header). -/
inductive Verdict where
  | ok (e : Eff)
  | fail (f : Flt)
  | failAt (s : State) (f : Flt)
  | part (e : Eff) (f : Flt)
  | stall (s : State)
  | park (s : State) (r : WaitRec)
  | over (s : State)

/-- A wave waits at commit. -/
def State.stalled (s : State) (id : WaveId) : State :=
  match s.wave? id with
  | some w => s.setWave id { w with stall := true }
  | none => s

/-- The fault is taken as a precise trap at the wave's pc (19 Table 19-1). -/
def Ctx.precise (c : Ctx) (s : State) (w : Wave) (f : Flt) (part : Bool) (dbg : Nat := 0) : State :=
  let hdr := match w.clause with
    | some cl => cl.addr
    | none => w.pc
  match s.trapEntry c.id w c.cv { kind := 0, cause := f.cause, faddr := f.faddr, flane := f.flane, part := part, dbg := dbg,
                                  epc := w.pc, hdr := hdr } with
  | some s => s
  | none => c.s.stalled c.id

/-- The milestone advances of a commit (01 R19): explicit first, then implicit; the checkpoint of 11 R203 is the stack and
the active set that the wave has as the region begins. -/
def Ctx.advance (c : Ctx) (closer : Bool) (w : Wave) : Wave :=
  let w := if c.explicitMile then
      { w with mile := w.mile + 1, milepc := (c.w.clause.map Clause.addr).getD 0,
               ckpt := { stack := c.w.stack, active := c.w.active } }
    else w
  if closer && !c.hnd then
    { w with mile := w.mile + 1, milepc := c.nextHeader, ckpt := { stack := w.stack, active := w.active } }
  else w

/-- %mile as the instruction reads it (02 R40). -/
def Ctx.mileNow (c : Ctx) (closer : Bool) : Word :=
  c.w.mile + (if c.explicitMile then 1 else 0) + (if closer && !c.hnd then 1 else 0)

/-- The setting while the instruction commits. -/
def Ctx.during (c : Ctx) (closer : Bool) : Ctx := { c with mile := c.mileNow closer }

/-- A wave that has left the loop that the spin detector follows is in none (18 R326). -/
def Wave.inLoop (w : Wave) : Wave :=
  if w.spinTarget = 1 || (w.spinTarget.toNat ≤ w.pc.toNat && w.pc.toNat ≤ w.spinEnd.toNat) then w
  else { w with spinTarget := 1, spinCount := 0, spinCur := [], spinPrev := [] }

/-- The wave moves past the instruction, to the target of its transfer or to the next word (08 R145, R156). -/
def Ctx.move (c : Ctx) (dest : Option DWord) (w : Wave) : Wave :=
  let w := { w with replay := none, skipBreak := none, wait := none, woken := false, stall := false, far := none,
                    accepted := if c.hnd then w.accepted else 0, prog := w.prog + 1 }
  match dest with
  | some t => ({ w with pc := t, clause := none } : Wave).inLoop
  | none => ({ w with pc := c.w.pc + 8, clause := if c.last then none else c.w.clause } : Wave).inLoop

/-- DCTL.STEP (19 R338). -/
def Wave.stepping (w : Wave) : Bool := (w.dbg[12]?.getD 0).getLsbD 0

/-- The classes of 15 R294. -/
inductive Mismatch where
  | load | source | result
  deriving DecidableEq, Repr

/-- A mismatch counted with the main cycles that its recovery took (15 R294, 25 R406, R407). -/
def Core.mismatch (x : Core) (m : Mismatch) (cycles : Nat) : Core :=
  let y := { x with rcy := upTo x.rcy cycles, aRcy := upTo x.aRcy ((x.rcy.toNat + cycles) / 2 ^ 16 - x.rcy.toNat / 2 ^ 16) }
  match m with
  | .load => { y with lvm := upTo y.lvm 1, aLvm := upTo y.aLvm 1 }
  | .source => { y with srm := upTo y.srm 1, aSrm := upTo y.aSrm 1 }
  | .result => { y with rsm := upTo y.rsm 1, aRsm := upTo y.aRsm 1 }

/-- What the assay finds beside an instruction's own effect, as the free value says (DESIGN CHOICE, log 72): the instruction is then
issued again, and commits the effect that the assay computes (00 R1, 15 R294); a lane whose check failed twice, another lane agreeing
with the claim, is to receive its known-answer operations (25 R410). -/
def Core.claimed (x : Core) (m : Nat) : Core :=
  match m % 8 with
  | 2 => x.mismatch .source (m / 8)
  | 3 => x.mismatch .result (m / 8)
  | 4 => if x.fenced.getLsbD (m / 8 % 128) || x.due.contains (m / 8 % 128) then x else { x with due := x.due ++ [m / 8 % 128] }
  | _ => x

/-- CHK of a core counts an instruction that its assay has checked (25 R407). -/
def State.checked (s : State) (core : Nat) : State :=
  s.setCore core ({ s.core core with chk := upTo (s.core core).chk 1 }.claimed (Config.mismatch s.freeCtr))

/-- Commit (01 R18): effects, milestone, pc, and the after-trap that falls due: TRAP, data watchpoints, single step (19
R338: one trap; CAUSE of a TRAP first, else the lowest detail; DBG holds every detail). -/
def Ctx.finish (c : Ctx) (closer : Bool) (e : Eff) : State :=
  match e.s.wave? c.id with
  | none => e.s
  | some w =>
    let w := c.move e.dest (c.advance closer w)
    let s := (e.s.setWave c.id w).checked c.w.core
    let hits := if c.hnd then [] else e.hits
    let step := !c.hnd && c.w.stepping
    let dbg := hits.foldl (fun m h => m ||| 2 ^ h.1) (if step then 256 else 0)
    let cause : Option (BitVec 10) :=
      match e.soft with
      | some x => some x
      | none => if dbg = 0 then none else some (cDebug (((List.range 9).find? fun i => dbg / 2 ^ i % 2 = 1).getD 8))
    match cause with
    | none => s
    | some x =>
      let hit := if e.soft.isSome then none else hits.find? fun h => cDebug h.1 == x
      match s.trapEntry c.id w c.cv
          { kind := 2, cause := x, faddr := BitVec.ofNat 57 (hit.elim 0 fun h => h.2.1), flane := hit.elim 0 fun h => h.2.2,
            part := false, dbg := dbg, epc := w.pc, hdr := (w.clause.map Clause.addr).getD w.pc } with
      | some s => s
      | none => c.s.stalled c.id

/-- A precise fault whose line's transfer failed has told its reader (25 R415). -/
def Ctx.told (c : Ctx) (f : Flt) : State :=
  if f.cause = cMemerr 0 0 ∨ f.cause = cMemerr 0 2 ∨ f.cause = cMemerr 1 0 then
    match c.s.walk c.vf c.die f.faddr.toNat with
    | some x => c.s.told (lineOf (c.s.devAddr c.vf x f.faddr.toNat))
    | none => c.s
  else c.s

/-- A verdict carried out. An instruction that advances the milestone waits, with no effect made, until every asynchronous
operation of the wave has completed (01 R21). -/
def Ctx.settle (c : Ctx) (closer : Bool) (v : Verdict) : State :=
  let waits := !c.hnd && (closer || c.explicitMile) && !c.quiet
  match v with
  | .fail f => c.precise (c.told f) c.w f false
  | .failAt s f => c.precise s ((s.wave? c.id).getD c.w) f false
  | .part e f =>
    match e.s.wave? c.id with
    | some w => c.precise e.s w f true (if c.hnd then 0 else e.hits.foldl (fun m h => m ||| 2 ^ h.1) 0)
    | none => e.s
  | .stall s => s.stalled c.id
  | .ok e => if waits then c.s.stalled c.id else c.finish closer e
  | .park s r =>
    if waits then c.s.stalled c.id
    else
      match s.wave? c.id with
      | some w => s.setWave c.id { w with wait := some r, woken := false, stall := false }
      | none => s
  | .over s => if waits then c.s.stalled c.id else s

/-! ### Decode checks of an instruction (08 Table 8-3, steps 5 to 8) -/

/-- A descriptor field: the descriptor, whether it is a destination, the registers its operand spans, and whether it is the
va or vd that a handler may name (19 R332). -/
structure Field where
  d : Desc
  dst : Bool
  regs : Nat
  free : Bool
  deriving DecidableEq, Repr

/-- Step 6 for one field. -/
def Field.check (f : Field) (hnd : Bool) (vregs kregs : Nat) : Option (BitVec 10) :=
  let vec := match f.d with
    | .v _ => true
    | .idx _ _ => true
    | .special n => n.toNat < 3
    | _ => false
  if hnd && vec && !f.free then some (cProtect 6)
  else
    match f.d with
    | .special n =>
      if 14 ≤ n.toNat then some (cOperand 4) else if f.dst then some (cOperand 3) else none
    | .inline _ => if f.dst then some (cOperand 3) else none
    | .v n => if vregs ≤ n.toNat then some (cOperand 0) else if n.toNat % f.regs ≠ 0 then some (cOperand 1) else none
    | .k n => if (if hnd then max kregs 16 else kregs) ≤ n.toNat then some (cOperand 0) else none
    | .h _ => none
    | .idx _ _ => none

/-- What an instruction brings to the common checks. `noHnd`: it reads or writes predicates, index registers or the stack
(19 R332); `always`: it needs no acting thread. -/
structure Meta where
  ctl : Ctl
  fields : List Field
  last : Bool
  closer : Bool
  xlane : Bool
  noHnd : Bool
  always : Bool
  deriving DecidableEq, Repr

/-- The fields of an instruction that has only guard and operands. -/
def Meta.plain (k : Ctl) (fields : List Field) : Meta :=
  { ctl := k, fields := fields, last := false, closer := false, xlane := false, noHnd := false, always := false }

/-- The control fields of an instruction without a guard. -/
def ctlOf (c : Ctl0) : Ctl := { sw := c.sw, onc := c.onc, pg := 7, pn := false }

/-- A source field. -/
def src (d : Desc) (regs : Nat := 1) : Field := { d := d, dst := false, regs := regs, free := false }
/-- A destination field. -/
def dst (d : Desc) (regs : Nat := 1) : Field := { d := d, dst := true, regs := regs, free := false }
/-- The second source: no field in the literal form. -/
def srcB (b : SrcB) (regs : Nat := 1) : List Field :=
  match b with
  | .desc d => [src d regs]
  | .lit _ => []

/-- The first field that fails step 6, field by field. -/
def firstBad (hnd : Bool) (v k : Nat) : List Field → Option (BitVec 10)
  | [] => none
  | f :: r =>
    match f.check hnd v k with
    | some x => some x
    | none => firstBad hnd v k r

/-- Steps 5 and 6 of Table 8-3. -/
def Meta.check (m : Meta) (c : Ctx) : Option (BitVec 10) :=
  if m.last && !c.last then some (cInstr 4)
  else if m.xlane && m.ctl.onc then some (cInstr 8)
  else if c.hnd && (m.ctl.pg != 7 || m.ctl.pn || m.noHnd) then some (cProtect 6)
  else firstBad c.hnd c.w.vregs c.w.kregs m.fields

/-- Step 8 for an indexed field in one thread (02 R37): the cause and the index value. -/
def Field.index (f : Field) (w : Wave) (t : Nat) : Option (BitVec 10 × Nat) :=
  match f.d with
  | .idx n off =>
    let x := (w.getI t n.toNat).toNat + off.toNat
    if w.iwl.toNat ≤ x then some (cOperand 2, x)
    else if (w.iwb.toNat + x) % f.regs ≠ 0 then some (cOperand 1, x)
    else none
  | _ => none

/-- Step 8 in every acting thread: the indexed operands, then the instruction's own check of the thread (cause and FADDR).
The lowest failing thread reports its first failing check; FLANE holds every failing thread (13 R241). -/
def threadFault (w : Wave) (fields : List Field) (act : Lanes) (each : Nat → Option (BitVec 10 × Nat)) : Option Flt :=
  let bad := (lanesOf act).filterMap fun t =>
    (match fields.findSome? (fun (f : Field) => f.index w t) with
     | some x => some x
     | none => each t).map fun x => (t, x)
  match bad with
  | [] => none
  | (_, cause, x) :: _ =>
    some { cause := cause, faddr := BitVec.ofNat 57 x, flane := lanesFrom (bad.map Prod.fst) }

/-- An instruction: the common checks, its own decode checks (step 7), the checks of each acting thread (step 8), then its
body. -/
def Ctx.run (c : Ctx) (m : Meta) (own : Ctx → Option (BitVec 10)) (each : Ctx → Lanes → Nat → Option (BitVec 10 × Nat))
    (body : Ctx → Lanes → Verdict) : State :=
  match m.check c with
  | some x => c.settle m.closer (.fail (.plain x))
  | none =>
    match own c with
    | some x => c.settle m.closer (.fail (.plain x))
    | none =>
      let act := c.acting m.ctl
      match threadFault c.w m.fields act (each c act) with
      | some f => c.settle m.closer (.fail f)
      | none =>
        if act = 0 && !m.always then c.settle m.closer (.ok (.of c.s))
        else c.settle m.closer (body c act)

/-- An instruction of the focus wave whose acting threads are checked one by one. -/
def instrEach (s : State) (m : Meta) (own : Ctx → Option (BitVec 10))
    (each : Ctx → Lanes → Nat → Option (BitVec 10 × Nat)) (body : Ctx → Lanes → Verdict) :
    Host.Outcome State Fault Refusal :=
  match Ctx.of s with
  | none => .fault .noWave
  | some c => .next ((c.during m.closer).run m own each body)

/-- An instruction of the focus wave. -/
def instr (s : State) (m : Meta) (own : Ctx → Option (BitVec 10)) (body : Ctx → Lanes → Verdict) :
    Host.Outcome State Fault Refusal :=
  instrEach s m own (fun _ _ _ => none) body

/-- No own decode check. -/
def noOwn (_ : Ctx) : Option (BitVec 10) := none

/-! ### Late faults (01 R22, 19 R329, R334) -/

/-- A late fault is reported for a wave. During a retirement drain the grid fails with it; a fault of the handler's own
operation tears the convoy down; a wave holds at most one. -/
def State.reportLate (s : State) (key : Nat) (hnd : Bool) (f : LateF) : State :=
  let id := waveOfKey key
  match s.wave? id with
  | none => s
  | some w =>
    match s.convoy? id.conv with
    | none => s
    | some cv =>
      if w.ended then s.failGrid cv.grid f cv.index
      else if hnd then s.teardown id.conv f
      else if w.late.isSome then s
      else s.setWave id { w with late := some f, stall := false }

/-- The pending late fault of a wave in its kernel is taken (19 Table 19-1): EPC is MILEPC, which is a header. -/
def State.takeLate (s : State) (id : WaveId) (w : Wave) (cv : Convoy) (f : LateF) : State :=
  match s.trapEntry id { w with late := none } cv
      { kind := 1, cause := f.cause, faddr := f.faddr, flane := 0, part := false, dbg := 0, epc := w.milepc,
        hdr := w.milepc } with
  | some s => s
  | none => s.stalled id

/-! ### Return from a trap (19 R335, 14 R288) -/

/-- The debug block of a context, as loaded at placement and at each RTE (19 R338): 16 doublewords, all 0 (every watch
disabled) where a reserved bit is set, a SIZE is reserved or the block cannot be read. -/
def State.debugBlock (s : State) (cv : Convoy) (d : Nat) : List DWord :=
  let off : List DWord := List.replicate 16 0
  match s.saveAddr cv.vf d (lookD (s.fn cv.vf).csa cv.q 0).toNat false with
  | .error _ => off
  | .ok (_, pa) =>
    let b : List DWord := (List.range 16).map fun i => BitVec.ofNat 64 (s.devVal d (pa + 8 * i) 8)
    let bad (i : Nat) (m : DWord) : Bool := (b[i]?.getD 0) &&& m != 0
    let ctl (n : Nat) : Bool :=
      bad (2 * n + 1) 0xFFFFFFFFFFFFF800 || 56 < ((b[2 * n + 1]?.getD 0).extractLsb' 2 6).toNat
    if (List.range 4).any ctl || (List.range 4).any (fun n => bad (8 + n) 0xFE00000000000006) ||
        bad 12 (~~~ 1#64) || bad 13 (BitVec.allOnes 64) || bad 14 (BitVec.allOnes 64) || bad 15 (BitVec.allOnes 64) then off
    else b

/-- A context's debug block, just loaded, stands in every wave of the context (19 R338). -/
def State.setDebug (s : State) (ctx : BitVec 16) (dbg : List DWord) : State :=
  let mine (k : Nat) : Bool := (s.convoy? (waveOfKey k).conv).elim false fun cv => BitVec.ofNat 16 (64 * cv.vf + cv.q + 1) == ctx
  { s with waves := s.waves.map fun p => (p.1, if mine p.1 then { p.2 with dbg := dbg } else p.2) }

/-- The wave after RTE: k0 to k15 from the frame, kernel level, at EPC; inside the interrupted clause where EPC is unchanged
and the frame's HDR differs from it; after a late fault with the checkpoint restored (11 R203); a trapped .PART load acts on
FLANE only, where the handler leaves EPC as it was (19 R337); the RTE itself counts in PROG (18 R322). -/
def Wave.leave (w : Wave) (ks : List DWord) (same : Bool) (inside : Option Clause) : Wave :=
  let w := { w with
    k := (List.range 16).foldl (fun m n => put 0 m n (ks[n]?.getD 0)) w.k,
    level := .kernel, pc := w.epc.setWidth 64, clause := inside, skipBreak := some (w.epc.setWidth 64),
    replay := if 4 ≤ w.trapKind && same then some w.flane else none, wait := none, woken := false, stall := false, far := none,
    spinTarget := 1, spinCount := 0, prog := w.prog + 1 }
  if w.trapKind % 4 = 1 then { w with stack := w.ckpt.stack, active := w.ckpt.active } else w

/-! ### The counters (04 R83) -/

/-- One of the wave's four counters. -/
def Wave.ctr (w : Wave) : Ctr → Nat
  | .cpy => w.cCpy
  | .grv => w.cGrv
  | .msg => w.cMsg
  | .dom => w.cDom

/-- A counter raised. -/
def Wave.raise (w : Wave) : Ctr → Wave
  | .cpy => { w with cCpy := w.cCpy + 1 }
  | .grv => { w with cGrv := w.cGrv + 1 }
  | .msg => { w with cMsg := w.cMsg + 1 }
  | .dom => { w with cDom := w.cDom + 1 }

/-- A counter lowered by a completion. -/
def Wave.lower (w : Wave) : Ctr → Wave
  | .cpy => { w with cCpy := w.cCpy - 1 }
  | .grv => { w with cGrv := w.cGrv - 1 }
  | .msg => { w with cMsg := w.cMsg - 1 }
  | .dom => { w with cDom := w.cDom - 1 }

/-- A wave's counter is lowered. -/
def State.complete (s : State) (key : Nat) (c : Ctr) : State :=
  match s.wave? (waveOfKey key) with
  | some w => (s.setWave (waveOfKey key) (w.lower c)).unstall
  | none => s

end Sys2Proof.Machine
end

