-- ==== Sys2Proof/Machine/CairnOps.lean ====
section
/-!
DEFINITION. Sys2Proof/Machine/CairnOps.lean: what the Cairn instructions and steps share (07): handler-set descriptors,
completion records, the start, the end and the abort of an invocation, the data window and the trigger line.
-/
namespace Sys2Proof.Machine

open Sys2Proof

/-- KIND of a trigger (07 Table 7-6). -/
def TrigKind.code : TrigKind → Nat
  | .miss => 0 | .fill => 1 | .evict => 2 | .msg => 3

/-- A record arrives for a crew's event queue of 64; one that finds it full, or its crew away, is held at its source (13
R260, 20 R348). -/
def State.deliver (s : State) (crewKey : Nat) (r : List Byte) : State :=
  match s.crew? crewKey with
  | none => s
  | some c =>
    let away := match s.convoy? (crewKey / 8) with
      | some cv => cv.st == .saved
      | none => true
    if away || 64 ≤ c.evq.length then s.setCrew crewKey { c with held := c.held ++ [r] }
    else
      let s := s.setCrew crewKey { c with evq := c.evq ++ [r] }
      { s with waves := s.waves.map fun (k, w) =>
          if k / 16 = crewKey ∧ w.wait = some .evq then (k, { w with woken := true }) else (k, w) }

/-- A CMSG's completion record (07 R133). -/
def completionRecord (status slice : Nat) (data : List Byte) : List Byte :=
  leBytes 4 status ++ leBytes 4 slice ++ (if status = 0 then data else List.replicate 24 0)

/-- The completion record of a message that carries a reply token. -/
def State.replyTo (s : State) (token : Option Nat) (status slice : Nat) (data : List Byte) : State :=
  match token with
  | some k => s.deliver k (completionRecord status slice data)
  | none => s

/-- The default action of a trigger (07 Table 7-4). -/
def State.defaultAction (s : State) (t : Trigger) : State :=
  match t.kind with
  | .miss => s.install t.line t.va t.vf t.set t.hops t.src true
  | .fill => s
  | .evict => s.evictNow t.line
  | .msg => s

/-- A field of the handler-set descriptor of a function (07 Table 7-5), read at handler level through the table that Quarry
registered; none where it cannot be read. -/
def State.setDesc (s : State) (slice vf set : Nat) : Option (List Byte) :=
  match (s.fn vf).htable with
  | none => none
  | some base =>
    match s.saveAddr vf (slice / 48) (base + 64 * set) false with
    | .error _ => none
    | .ok (_, pa) => if s.memHeld pa then none else some (s.devRead (slice / 48) pa 64)

/-- A field of bytes, little-endian. -/
def fieldOf (b : List Byte) (off n : Nat) : Nat := leVal ((b.drop off).take n)

/-- BUDGET of a descriptor (07 Table 7-5). -/
def budgetOf (raw : Nat) : Nat := if raw = 0 then 256 else if 16 ≤ raw ∧ raw ≤ 2048 then raw else 2048

/-- The fabric cycles that a slot may use in one window (07 R140). -/
def Slot.cap (t : Slot) : Nat :=
  let p := t.share.toNat
  65536 * (if p = 0 then 1 else min p 100) / 100

/-- An ABORT record (07 Table 7-7). -/
def abortRecord (slice : Nat) (t : Trigger) (cause used pc : Nat) : List Byte :=
  eventRecord 1 cause slice t.kind.code t.set t.va 0 used pc

/-- The line of a trigger is pinned or let go. -/
def State.pin (s : State) (line : Nat) (b : Bool) : State := s.setLineDir line { s.lineDir line with pinned := b }

/-- Fabric cycles since an invocation's first fetch (07 R129, R139). -/
def State.cyclesOf (s : State) (v : Invoc) : Nat := s.fab - v.start

/-- Those of them that fall in the present share window (07 R140: windows of 65,536 fabric cycles, aligned to reset). -/
def State.windowOf (s : State) (v : Invoc) : Nat := s.fab - max v.start (65536 * s.windows)

/-- The fabric cycles that a slot has used in the present window (07 R140). -/
def State.slotUsed (s : State) (n i : Nat) : Nat :=
  let x := s.slice n
  ((x.slots[i]?.getD Slot.reset).used) + (match x.inv with
    | some v => if v.slot = i then s.windowOf v else 0
    | none => 0)

/-- The invocation ends: its line is no longer pinned, its cycles are its slot's, and the core is free; waiting requests go on. -/
def State.release (s : State) (n : Nat) (v : Invoc) : State :=
  let s := if v.trig.kind = .miss || (v.trig.kind = .msg && !v.fetched) then s else s.pin v.trig.line false
  let x := s.slice n
  let t := x.slots[v.slot]?.getD Slot.reset
  (s.setSlice n { x with inv := none, slots := setAt x.slots v.slot { t with used := s.slotUsed n v.slot } }).unstall

/-- An invocation is aborted (07 R139): staged changes are discarded, the default action is taken, a MSG receives status 1,
one ABORT record is posted. -/
def State.abort (s : State) (n : Nat) (v : Invoc) (cause : Nat) : State :=
  let s := s.release n v
  let s := s.defaultAction v.trig
  let s := if v.trig.kind = .msg && !v.replied && !v.forwarded then s.replyTo v.trig.token 1 n [] else s
  s.postEvent v.trig.vf (abortRecord n v.trig (704 + cause) (s.cyclesOf v) v.pc.toNat)

/-- Lines of a function above priority 0 at a slice (07 R131). -/
def State.keptLines (s : State) (n vf line : Nat) : Nat :=
  s.dir.countP fun p => p.2.present && p.2.prio != 0 && p.2.vf == vf && p.1 != line && s.homeSlice p.1 == n

/-- cln.done 0 (07 R131, R135): the staged cln.keep and cln.drop are applied, then the rest of the trigger's action. -/
def State.finishInv (s : State) (n : Nat) (v : Invoc) (apply : Bool) : State :=
  let s := s.release n v
  let t := v.trig
  let keep := if apply then v.keep else none
  let prio (s : State) : State :=
    match keep with
    | some p => if (s.lineDir t.line).present then s.setLineDir t.line { s.lineDir t.line with prio := p } else s
    | none => s
  let s := match t.kind with
    | .miss =>
      if apply && v.drop then s.setLineDir t.line { s.lineDir t.line with requested := false }
      else prio (s.defaultAction t)
    | .fill => if apply && v.drop then s.evictNow t.line else prio s
    | .evict => s.defaultAction t
    | .msg => s
  if t.kind = .msg && !v.replied && !v.forwarded then s.replyTo t.token 4 n [] else s

/-- A message's trigger for the home slice of a line. -/
def msgTrigger (line va vf set : Nat) (src : Nat) (words : List DWord) (token : Option Nat) : Trigger :=
  { kind := .msg, line := line, va := va, vf := vf, set := set, hops := 0, src := src, msg := words, token := token }

/-- The slot that an invocation runs in. -/
def State.invSlot (s : State) (n : Nat) (v : Invoc) : Slot := (s.slice n).slots[v.slot]?.getD Slot.reset

/-- The data-window byte address in the slice's data memory of an offset. -/
def Slot.data (t : Slot) (off : Nat) : Nat := 256 * t.dbase.toNat + off

/-- The check of a data-window access (07 R128): bounds, then alignment. -/
def Slot.dataFault (t : Slot) (off bytes : Nat) : Option Nat :=
  if 256 * t.dlen.toNat < off + bytes then some 4 else if off % bytes ≠ 0 then some 5 else none

/-- Bytes of the data window. -/
def State.window (s : State) (n : Nat) (t : Slot) (off bytes : Nat) : List Byte :=
  (List.range bytes).map fun i => lookD (s.slice n).data (t.data (off + i)) 0

/-- Bytes of the data window written. -/
def State.setWindow (s : State) (n : Nat) (t : Slot) (off : Nat) (b : List Byte) : State :=
  let x := s.slice n
  s.setSlice n { x with data := (b.zipIdx).foldl (fun m p => Machine.put 0 m (t.data (off + p.2)) p.1) x.data }

/-- x register `n` of the handler; x0 is 0. -/
def Invoc.get (v : Invoc) (n : BitVec 5) : DWord := if n = 0 then 0 else lookD v.x n.toNat 0

/-- x register `n` written; x0 discards writes. -/
def Invoc.set (v : Invoc) (n : BitVec 5) (d : DWord) : Invoc := if n = 0 then v else { v with x := Machine.put 0 v.x n.toNat d }

/-- What a Cairn instruction answers: the invocation goes on at the next instruction or at a target; it waits (cycles pass);
it is aborted with a CAIRN cause; or it is over. -/
inductive CairnRes where
  | go (s : State) (v : Invoc)
  | jump (s : State) (v : Invoc) (pc : DWord)
  | wait
  | abort (cause : Nat)
  | over (s : State)

/-- A Cairn instruction of `len` bytes of the focus core: it takes fabric cycles (DESIGN CHOICE, log 8) and retires. -/
def cairn (s : State) (len : Nat) (body : State → Nat → Invoc → CairnRes) : Host.Outcome State Fault Refusal :=
  match s.focus with
  | .none => .fault .noInvocation
  | .wave _ => .fault .noInvocation
  | .cairn n =>
    match (s.slice n).inv with
    | none => .fault .noInvocation
    | some v =>
      let cost := 1 + Config.cairnCycles s.freeCtr
      match body s n v with
      | .go s v =>
        .next ((s.setSlice n { s.slice n with
          inv := some { v with pc := v.pc + BitVec.ofNat 64 len, instret := v.instret + 1 } }).draw.elapse cost)
      | .jump s v pc =>
        .next ((s.setSlice n { s.slice n with inv := some { v with pc := pc, instret := v.instret + 1 } }).draw.elapse cost)
      | .wait => .next (s.draw.elapse cost)
      | .abort c => .next (s.abort n v c)
      | .over s => .next s

end Sys2Proof.Machine
end

