-- ==== Sys2Proof/Machine/Cairn.lean ====
section
/-!
DEFINITION. Sys2Proof/Machine/Cairn.lean: the meanings of the Cairn cores' instructions: Xcairn (07 R130 to R134) and the RV64
base (07 R127 to R129).
-/
namespace Sys2Proof.Machine

open Sys2Proof

/-! ### Line instructions (07 R131) -/

/-- The CAIRN cause that a line instruction meets: NO-LINE under MISS, then LINE-OFFSET. -/
def lineFault (v : Invoc) (o : DWord) : Option Nat :=
  if v.trig.kind = .miss then some 6 else if 56 < o.toNat ∨ o.toNat % 8 ≠ 0 then some 7 else none

/-- Under MSG, the first line instruction fetches the target line into the slice and pins it; a line that another invocation
has pinned is waited for. -/
def State.fetchTarget (s : State) (v : Invoc) : Option (State × Invoc) :=
  if v.trig.kind ≠ .msg ∨ v.fetched then some (s, v)
  else if (s.lineDir v.trig.line).pinned then none
  else
    let s := if (s.lineDir v.trig.line).present then s
      else s.install v.trig.line v.trig.va v.trig.vf v.trig.set 0 3 true
    some (s.pin v.trig.line true, { v with fetched := true })

/-- The die of a slice. -/
def dieOfSlice (n : Nat) : Nat := n / 48

/-- The leaf through which a handler reaches its trigger line. -/
def State.handlerLeaf (s : State) (n : Nat) (t : Trigger) : Option Xlat :=
  (s.walk t.vf (dieOfSlice n) t.va).filter fun x => x.cls == 0 && lineOf (s.devAddr t.vf x t.va) == t.line

/-- Whether a handler's write of its own pinned line can take its place in the die order now (04 R68, R69), an owning stash giving it
up first (03 R53) and its leaf taking DTY (21 R362). -/
def State.handlerCanWrite (s : State) (n : Nat) (t : Trigger) : Bool :=
  !s.lineBehind (dieOfSlice n) t.line && (s.pkg.filter fun p => p.src == dieOfSlice n).length < 2 ^ 30 && !s.memHeld t.line &&
    s.canRecall t.line && (s.handlerLeaf n t).elim true fun x => s.touchable x true

/-- DTY set in the leaf of the trigger line's page before a handler's write (21 R362). -/
def State.handlerTouch (s : State) (n : Nat) (t : Trigger) : State := (s.handlerLeaf n t).elim s fun x => s.touch x true

/-- A line instruction: its checks, its fetch, then its access of the word at o. -/
def lineInstr (s : State) (o : Invoc → DWord) (act : State → Nat → Invoc → Nat → CairnRes) :
    Host.Outcome State Fault Refusal :=
  cairn s 4 fun s n v =>
    match lineFault v (o v) with
    | some c => .abort c
    | none =>
      match s.fetchTarget v with
      | none => .wait
      | some (s, v) => act s n v (v.trig.line + (o v).toNat)

/-- cln.rd. -/
def execClnRd (rd rs1 : BitVec 5) (imm : BitVec 12) (s : State) : Host.Outcome State Fault Refusal :=
  lineInstr s (fun v => v.get rs1 + imm.signExtend 64) fun s n v pa =>
    if !s.canSee (dieOfSlice n) pa then .wait else .go s (v.set rd (BitVec.ofNat 64 (s.devVal (dieOfSlice n) pa 8)))

/-- A handler's write of one word of its line. -/
def State.handlerWrite (s : State) (n : Nat) (v : Invoc) (pa : Nat) (x : DWord) : State :=
  (s.handlerTouch n v.trig).devWrite (dieOfSlice n) (lineWrite pa (leBytes 8 x.toNat) none) .cairn

/-- cln.wr. -/
def execClnWr (rs1 rs2 : BitVec 5) (imm : BitVec 12) (s : State) : Host.Outcome State Fault Refusal :=
  lineInstr s (fun v => v.get rs1 + imm.signExtend 64) fun s n v pa =>
    if !s.handlerCanWrite n v.trig then .wait else .go (s.handlerWrite n v pa (v.get rs2)) v

/-- The new word of cln.atom. -/
def clnNew (op : ClnAtom) (old b : DWord) : DWord :=
  match op with
  | .add => old + b
  | .and => old &&& b
  | .or => old ||| b
  | .xor => old ^^^ b
  | .smin => if b.toInt < old.toInt then b else old
  | .smax => if old.toInt < b.toInt then b else old
  | .umin => if b.toNat < old.toNat then b else old
  | .umax => if old.toNat < b.toNat then b else old
  | .swap => b

/-- cln.atom: an R-type word has no immediate, so that o is x[rs1]. -/
def execClnAtom (op : ClnAtom) (rd rs1 rs2 : BitVec 5) (s : State) : Host.Outcome State Fault Refusal :=
  lineInstr s (fun v => v.get rs1) fun s n v pa =>
    if !s.handlerCanWrite n v.trig then .wait
    else
      let old : DWord := BitVec.ofNat 64 (s.devVal (dieOfSlice n) pa 8)
      .go (s.handlerWrite n v pa (clnNew op old (v.get rs2))) (v.set rd old)

/-! ### The trigger record, the end of the invocation -/

/-- A field of the trigger record (07 Table 7-6). -/
def State.trigField (s : State) (n : Nat) (v : Invoc) (i : Nat) : DWord :=
  let t := v.trig
  let lineless := t.kind == .miss || (t.kind == .msg && !v.fetched)
  match i with
  | 0 => BitVec.ofNat 64 t.kind.code
  | 1 => BitVec.ofNat 64 t.va
  | 2 => if lineless then 0 else (s.devTag (dieOfSlice n) t.line).setWidth 64
  | 3 => if (s.lineDir t.line).dirty then 1 else 0
  | 4 => BitVec.ofNat 64 t.set
  | 5 => BitVec.ofNat 64 t.hops
  | 6 => BitVec.ofNat 64 t.src
  | 7 => v.arg
  | 12 => BitVec.ofNat 64 v.budget
  | 13 => BitVec.ofNat 64 n
  | 14 => BitVec.ofNat 64 t.vf
  | 15 => 0
  | i => (t.msg[i - 8]?).getD 0

/-- cln.get. -/
def execClnGet (rd : BitVec 5) (imm : BitVec 12) (s : State) : Host.Outcome State Fault Refusal :=
  cairn s 4 fun s n v => if 16 ≤ imm.toNat then .abort 11 else .go s (v.set rd (s.trigField n v imm.toNat))

/-- cln.bud. -/
def execClnBud (rd : BitVec 5) (s : State) : Host.Outcome State Fault Refusal :=
  cairn s 4 fun s _ v => .go s (v.set rd (BitVec.ofNat 64 (v.budget - s.cyclesOf v)))

/-- cln.done. -/
def execClnDone (act : BitVec 12) (s : State) : Host.Outcome State Fault Refusal :=
  cairn s 4 fun s n v =>
    match act.toNat with
    | 0 => .over (s.finishInv n v true)
    | 1 => .over (s.finishInv n v false)
    | _ => .abort 10

/-- The lines above priority 0 that one function may keep on a slice: a quarter of its lines (DEDUCED, log 28). -/
def keepCap : Nat := 8192

/-- cln.keep. -/
def execClnKeep (rd : BitVec 5) (prio : BitVec 12) (s : State) : Host.Outcome State Fault Refusal :=
  cairn s 4 fun s n v =>
    if 3 < prio.toNat then .abort 12
    else if v.trig.kind = .msg then .go s (v.set rd 0)
    else if prio ≠ 0 ∧ keepCap ≤ s.keptLines n v.trig.vf v.trig.line then .go s (v.set rd 1)
    else .go s { v.set rd 0 with keep := some (prio.extractLsb' 0 2) }

/-- cln.drop. -/
def execClnDrop (s : State) : Host.Outcome State Fault Refusal :=
  cairn s 4 fun s _ v => .go s (if v.trig.kind = .msg then v else { v with drop := true })

/-! ### Requests, messages and records (07 R132, R133, R141) -/

/-- A handler's translation of a virtual address to a DEVICE line. -/
def State.handlerXlate (s : State) (n vf va : Nat) : Option Xlat :=
  (s.lookup vf (dieOfSlice n) va).filter fun x => x.cls == 0

/-- cln.req. -/
def execClnReq (rd rs1 rs2 : BitVec 5) (s : State) : Host.Outcome State Fault Refusal :=
  cairn s 4 fun s n v =>
    if v.get rs2 &&& (~~~ 1#64) ≠ 0 then .abort 2
    else
      let va := (v.get rs1).toNat
      match s.handlerXlate n v.trig.vf va with
      | none => .go s (v.set rd 2)
      | some x =>
        let line := lineOf (s.devAddr v.trig.vf x va)
        if (s.lineDir line).present || (s.lineDir line).requested then .go s (v.set rd 1)
        else if 16 ≤ (s.slice n).reqs.length then .go s (v.set rd 3)
        else if !s.touchable x false then .wait
        else
          let s := (s.touch x false).cache v.trig.vf va x
          let r : CairnReq := { line := line, va := lineOf va, vf := v.trig.vf, set := x.set, chain := (v.get rs2).getLsbD 0,
                                hops := v.trig.hops }
          let s := s.setLineDir line { s.lineDir line with requested := true }
          let s := s.setSlice n { s.slice n with reqs := (s.slice n).reqs ++ [r] }
          .go s (v.set rd 0)

/-- cln.fwd. -/
def execClnFwd (rd rs1 rs2 : BitVec 5) (s : State) : Host.Outcome State Fault Refusal :=
  cairn s 4 fun s n v =>
    let t := s.invSlot n v
    let off := (v.get rs2).toNat
    if 256 * t.dlen.toNat < off + 32 then .abort 4
    else if off % 8 ≠ 0 then .abort 5
    else
      let va := (v.get rs1).toNat
      match s.handlerXlate n v.trig.vf va with
      | none => .go s (v.set rd 1)
      | some x =>
        if !s.touchable x false then .wait
        else
          let line := lineOf (s.devAddr v.trig.vf x va)
          let b := s.window n t off 32
          let words : List DWord := (List.range 4).map fun j => BitVec.ofNat 64 (fieldOf b (8 * j) 8)
          let token := if v.trig.kind = .msg ∧ !v.replied ∧ !v.forwarded then v.trig.token else none
          let (s', ok) := ((s.touch x false).cache v.trig.vf va x).enqueue (s.homeSlice line)
            (msgTrigger line (lineOf va) v.trig.vf x.set 3 words token)
          if ok then .go s' { v.set rd 0 with forwarded := v.forwarded || v.trig.kind == .msg } else .wait

/-- cln.rply. -/
def execClnRply (rs1 : BitVec 5) (s : State) : Host.Outcome State Fault Refusal :=
  cairn s 4 fun s n v =>
    let t := s.invSlot n v
    let off := (v.get rs1).toNat
    if v.trig.kind ≠ .msg ∨ v.replied ∨ v.forwarded then .abort 8
    else if 256 * t.dlen.toNat < off + 24 then .abort 4
    else if off % 8 ≠ 0 then .abort 5
    else .go (s.replyTo v.trig.token 0 n (s.window n t off 24)) { v with replied := true }

/-- Whether a post is a record for a function's ring. -/
def Post.isFor (vf : Nat) : Post → Bool
  | .tenant v _ => v == vf
  | .error _ => false
  | .clearEn _ => false

/-- cln.evq. -/
def execClnEvq (rd rs1 rs2 : BitVec 5) (s : State) : Host.Outcome State Fault Refusal :=
  cairn s 4 fun s n v =>
    let v' := { v with evqs := v.evqs + 1 }
    if 4 ≤ v.evqs then .go s (v'.set rd 1)
    else
      let f := s.fn v.trig.vf
      let r := eventRecord 0 0 n v.trig.kind.code v.trig.set v.trig.va (v.get rs1).toNat (s.cyclesOf v) (v.get rs2).toNat
      if s.posts.any (Post.isFor v.trig.vf) || s.appendWaits v.trig.vf f.terb.toNat then .wait
      else match if f.terb = 0 then none else s.append v.trig.vf f.terb.toNat r with
      | some s => .go (s.msix v.trig.vf 64) (v'.set rd 0)
      | none => .go (s.setFn v.trig.vf { f with overflow := f.overflow + 1 }) (v'.set rd 1)

/-! ### The RV64 base (the RISC-V unprivileged specification, 07 R127) -/

/-- A 32-bit result as an RV64 register holds it. -/
def sext32 (x : DWord) : DWord := (x.extractLsb' 0 32).signExtend 64

/-- Signed quotient: -1 for a zero divisor; the overflow wraps. -/
def rvDiv {w : Nat} (a b : BitVec w) : BitVec w := if b = 0 then BitVec.allOnes w else a.sdiv b
/-- Unsigned quotient: all ones for a zero divisor. -/
def rvDivu {w : Nat} (a b : BitVec w) : BitVec w := if b = 0 then BitVec.allOnes w else a.udiv b
/-- Signed remainder: the dividend for a zero divisor, 0 on overflow. -/
def rvRem {w : Nat} (a b : BitVec w) : BitVec w := if b = 0 then a else a.srem b
/-- Unsigned remainder: the dividend for a zero divisor. -/
def rvRemu {w : Nat} (a b : BitVec w) : BitVec w := if b = 0 then a else a.umod b

/-- OP and OP-32. -/
def rvOp (op : RvOp) (a b : DWord) : DWord :=
  let sh := b.toNat % 64
  let a32 : Word := a.extractLsb' 0 32
  let b32 : Word := b.extractLsb' 0 32
  let sh32 := b.toNat % 32
  match op with
  | .add => a + b
  | .sub => a - b
  | .sll => a <<< sh
  | .slt => if a.toInt < b.toInt then 1 else 0
  | .sltu => if a.toNat < b.toNat then 1 else 0
  | .xor => a ^^^ b
  | .srl => a >>> sh
  | .sra => a.sshiftRight sh
  | .or => a ||| b
  | .and => a &&& b
  | .mul => a * b
  | .mulh => BitVec.ofInt 64 (a.toInt * b.toInt / 2 ^ 64)
  | .mulhsu => BitVec.ofInt 64 (a.toInt * b.toNat / 2 ^ 64)
  | .mulhu => BitVec.ofNat 64 (a.toNat * b.toNat / 2 ^ 64)
  | .div => rvDiv a b
  | .divu => rvDivu a b
  | .rem => rvRem a b
  | .remu => rvRemu a b
  | .addw => (a32 + b32).signExtend 64
  | .subw => (a32 - b32).signExtend 64
  | .sllw => (a32 <<< sh32).signExtend 64
  | .srlw => (a32 >>> sh32).signExtend 64
  | .sraw => (a32.sshiftRight sh32).signExtend 64
  | .mulw => (a32 * b32).signExtend 64
  | .divw => (rvDiv a32 b32).signExtend 64
  | .divuw => (rvDivu a32 b32).signExtend 64
  | .remw => (rvRem a32 b32).signExtend 64
  | .remuw => (rvRemu a32 b32).signExtend 64

/-- OP-IMM and OP-IMM-32. -/
def rvOpI (op : RvOpI) (a imm : DWord) : DWord :=
  match op with
  | .addi => a + imm
  | .slti => if a.toInt < imm.toInt then 1 else 0
  | .sltiu => if a.toNat < imm.toNat then 1 else 0
  | .xori => a ^^^ imm
  | .ori => a ||| imm
  | .andi => a &&& imm
  | .addiw => sext32 (a + imm)

/-- Shifts by an immediate. -/
def rvShI (op : RvShI) (a : DWord) (sh : Nat) : DWord :=
  let a32 : Word := a.extractLsb' 0 32
  match op with
  | .slli => a <<< sh
  | .srli => a >>> sh
  | .srai => a.sshiftRight sh
  | .slliw => (a32 <<< sh).signExtend 64
  | .srliw => (a32 >>> sh).signExtend 64
  | .sraiw => (a32.sshiftRight sh).signExtend 64

/-- Whether a branch is taken. -/
def rvTaken (op : RvBr) (a b : DWord) : Bool :=
  match op with
  | .beq => a == b
  | .bne => a != b
  | .blt => a.toInt < b.toInt
  | .bge => b.toInt ≤ a.toInt
  | .bltu => a.toNat < b.toNat
  | .bgeu => b.toNat ≤ a.toNat

/-- Bytes of a load. -/
def rvLdBytes : RvLd → Nat
  | .lb | .lbu => 1
  | .lh | .lhu => 2
  | .lw | .lwu => 4
  | .ld => 8

/-- The register value of a load. -/
def rvLdValue (op : RvLd) (n : Nat) : DWord :=
  match op with
  | .lb => (BitVec.ofNat 8 n).signExtend 64
  | .lh => (BitVec.ofNat 16 n).signExtend 64
  | .lw => (BitVec.ofNat 32 n).signExtend 64
  | .ld | .lbu | .lhu | .lwu => BitVec.ofNat 64 n

/-- Bytes of a store. -/
def rvStBytes : RvSt → Nat
  | .sb => 1 | .sh => 2 | .sw => 4 | .sd => 8

/-- A counter (07 R129). -/
def State.rvCounter (s : State) (v : Invoc) : RvCsr → DWord
  | .cycle => BitVec.ofNat 64 (s.cyclesOf v)
  | .time => BitVec.ofNat 64 s.fab
  | .instret => BitVec.ofNat 64 v.instret

/-- One RV64 instruction; `len` is the length of its word. -/
def rvStep (i : RvInstr) (len : Nat) (s : State) (n : Nat) (v : Invoc) : CairnRes :=
  let t := s.invSlot n v
  match i with
  | .lui rd imm => .go s (v.set rd ((imm ++ (0 : BitVec 12) : BitVec 32).signExtend 64))
  | .auipc rd imm => .go s (v.set rd (v.pc + (imm ++ (0 : BitVec 12) : BitVec 32).signExtend 64))
  | .jal rd off => .jump s (v.set rd (v.pc + BitVec.ofNat 64 len)) (v.pc + off.signExtend 64)
  | .jalr rd rs1 imm =>
    .jump s (v.set rd (v.pc + BitVec.ofNat 64 len)) ((v.get rs1 + imm.signExtend 64) &&& (~~~ 1#64))
  | .branch op rs1 rs2 off =>
    if rvTaken op (v.get rs1) (v.get rs2) then .jump s v (v.pc + off.signExtend 64) else .go s v
  | .load op rd rs1 imm =>
    let off := (v.get rs1 + imm.signExtend 64).toNat
    match t.dataFault off (rvLdBytes op) with
    | some c => .abort c
    | none => .go s (v.set rd (rvLdValue op (leVal (s.window n t off (rvLdBytes op)))))
  | .store op rs1 rs2 imm =>
    let off := (v.get rs1 + imm.signExtend 64).toNat
    match t.dataFault off (rvStBytes op) with
    | some c => .abort c
    | none => .go (s.setWindow n t off (leBytes (rvStBytes op) (v.get rs2).toNat)) v
  | .opImm op rd rs1 imm => .go s (v.set rd (rvOpI op (v.get rs1) (imm.signExtend 64)))
  | .shImm op rd rs1 sh => .go s (v.set rd (rvShI op (v.get rs1) sh.toNat))
  | .opReg op rd rs1 rs2 => .go s (v.set rd (rvOp op (v.get rs1) (v.get rs2)))
  | .fence _ _ _ => .go s v
  | .fenceI _ _ _ => .go s v
  | .csrRead csr _ rd => .go s (v.set rd (s.rvCounter v csr))

/-- An RV64 instruction, from a word or a compressed parcel. -/
def execCairnBase (i : RvInstr) (short : Bool) (s : State) : Host.Outcome State Fault Refusal :=
  cairn s (if short then 2 else 4) (rvStep i (if short then 2 else 4))

end Sys2Proof.Machine
end

