-- ==== Sys2Proof/WellFormed.lean ====
section
/-!
DEFINITION. Sys2Proof/WellFormed.lean: which terms of `Instr` an instruction word can hold (08 R152, R153; 09 R168 to
R174; the MOD columns of the instruction tables), and which data an event's occurrence can carry.
-/
namespace Sys2Proof

/-- 08 R153: the literal form has no PN, and its MOD is 0 (`plain` says that the modifiers are those of MOD 0). -/
def SrcB.fits (b : SrcB) (c : Ctl) (plain : Bool) : Bool :=
  match b with
  | .desc _ => true
  | .lit _ => !c.pn && plain

/-- A K instruction in literal form computes at .S64 with SAT 0 (08 R153). -/
def SrcB.fitsK (b : SrcB) (c : Ctl) (ty : ITy) (plain : Bool) : Bool := b.fits c (plain && ty == .s64)

/-- A vector integer instruction in literal form is .S32 (08 R153). -/
def SrcB.fitsV (b : SrcB) (c : Ctl) (ty : ITy) (plain : Bool) : Bool := b.fits c (plain && ty == .s32)

/-- A floating-point instruction in literal form is .F, rounding to nearest even (08 R153). -/
def SrcB.fitsF (b : SrcB) (c : Ctl) (ty : FTy) (rm : RM) (plain : Bool) : Bool :=
  b.fits c (plain && ty == .f && rm == .rn)

/-- The descriptor field that an instruction does not use holds 0 (08 R152). -/
def Desc.unused (d : Desc) : Bool := d == .v 0

/-- 13 R242: .TAG takes TY 1 only; 09 R172: .PART only where `part` allows it; the literal form is .S32 with no hint. -/
def LdMods.fits (m : LdMods) (c : Ctl) (off : SrcB) (part : Bool) : Bool :=
  (!m.tag || m.ty == .n32) && (!m.part || part) && off.fits c (m == { ty := .s32, ch := 0, tag := false, part := false })

/-- SC of a store holds the tag operand, or 0 without .TAG (13 Table 13-2). -/
def StMods.fits (m : StMods) (c : Ctl) (off : SrcB) (tag : Desc) : Bool :=
  (m.tag || tag.unused) && off.fits c (m == { ty := .s32, ch := 0, tag := false })

/-- 09 R173, R174: .PKG on AMDV only; .INCW under .N32 and .N64; SC is CAS's compare value, else 0; the literal form is
.ADD.S32 with scope 0. -/
def AmMods.fits (m : AmMods) (c : Ctl) (b : SrcB) (cmp : Desc) (pkg : Bool) : Bool :=
  (!m.pkg || pkg) && (m.op != .incw || m.ty.getLsbD 0) && (m.op == .cas || cmp.unused) &&
    b.fits c (m == { op := .add, ty := 0, ch := 0, pkg := false })

/-- Whether the code is one of the narrow formats (12 R228). -/
def FCode.narrow : FCode → Bool
  | .e4m3 | .e5m2 | .e2m1 => true
  | .fp32 | .fp64 | .fp16 | .bf16 => false

/-- Destination formats and positions of FPACK (12 R230). -/
def FCode.packAt (d : FCode) (pos : BitVec 2) : Bool :=
  match d with
  | .fp16 | .bf16 => pos == 0
  | .e4m3 | .e5m2 => pos.toNat < 2
  | .e2m1 => true
  | .fp32 | .fp64 => false

/-- Destination formats of FSRN (12 R236). -/
def FCode.srnDest (d : FCode) (ty : FTy) : Bool :=
  match d with
  | .fp16 | .bf16 | .e4m3 | .e5m2 | .e2m1 => true
  | .fp32 => ty == .d
  | .fp64 => false

/-- Whether a QBLK format is of the S4 family (12 R232). -/
def QFmt.isS4 : QFmt → Bool
  | .s4 | .s4h16 | .s4h32 => true
  | .int8 | .e4m3 | .e5m2 | .e4m3h16 | .e4m3h32 => false

/-- Registers that a three-bit field of a compressed parcel can name. -/
def rvcReg (r : BitVec 5) : Bool := 8 ≤ r.toNat && r.toNat < 16

/-- Whether the base instruction has a compressed encoding that RV64C does not reserve (07 R127), with its operand
ranges. -/
def RvInstr.hasShort : RvInstr → Bool
  | .lui rd imm => rd != 2 && (imm.toInt ≠ 0 && -32 ≤ imm.toInt && imm.toInt < 32)
  | .jal rd off => rd == 0 && !off.getLsbD 0 && -2048 ≤ off.toInt && off.toInt < 2048
  | .jalr rd rs1 imm => (rd == 0 || rd == 1) && rs1 != 0 && imm == 0
  | .branch op rs1 rs2 off =>
    (op == .beq || op == .bne) && rs2 == 0 && rvcReg rs1 && !off.getLsbD 0 && -256 ≤ off.toInt && off.toInt < 256
  | .load op rd rs1 imm =>
    match op with
    | .lw => (rs1 == 2 && rd != 0 && imm.toNat < 256 && imm.toNat % 4 == 0) ||
        (rvcReg rs1 && rvcReg rd && imm.toNat < 128 && imm.toNat % 4 == 0)
    | .ld => (rs1 == 2 && rd != 0 && imm.toNat < 512 && imm.toNat % 8 == 0) ||
        (rvcReg rs1 && rvcReg rd && imm.toNat < 256 && imm.toNat % 8 == 0)
    | .lb | .lh | .lbu | .lhu | .lwu => false
  | .store op rs1 rs2 imm =>
    match op with
    | .sw => (rs1 == 2 && imm.toNat < 256 && imm.toNat % 4 == 0) ||
        (rvcReg rs1 && rvcReg rs2 && imm.toNat < 128 && imm.toNat % 4 == 0)
    | .sd => (rs1 == 2 && imm.toNat < 512 && imm.toNat % 8 == 0) ||
        (rvcReg rs1 && rvcReg rs2 && imm.toNat < 256 && imm.toNat % 8 == 0)
    | .sb | .sh => false
  | .opImm op rd rs1 imm =>
    match op with
    | .addi => ((rs1 == rd || rs1 == 0) && -32 ≤ imm.toInt && imm.toInt < 32) ||
        (rd == 2 && rs1 == 2 && imm ≠ 0 && imm.toInt % 16 == 0 && -512 ≤ imm.toInt && imm.toInt < 512) ||
        (rs1 == 2 && rvcReg rd && imm ≠ 0 && imm.toNat < 1024 && imm.toNat % 4 == 0)
    | .addiw => rd != 0 && rs1 == rd && -32 ≤ imm.toInt && imm.toInt < 32
    | .andi => rs1 == rd && rvcReg rd && -32 ≤ imm.toInt && imm.toInt < 32
    | .slti | .sltiu | .xori | .ori => false
  | .shImm op rd rs1 _ =>
    match op with
    | .slli => rs1 == rd
    | .srli | .srai => rs1 == rd && rvcReg rd
    | .slliw | .srliw | .sraiw => false
  | .opReg op rd rs1 rs2 =>
    match op with
    | .add => rs2 != 0 && (rs1 == rd || rs1 == 0)
    | .sub | .xor | .or | .and | .subw | .addw => rs1 == rd && rvcReg rd && rvcReg rs2
    | _ => false
  | .auipc _ _ | .fence _ _ _ | .fenceI _ _ _ | .csrRead _ _ _ => false

/-- Whether a full-length base instruction is encodable: branch and jump offsets are even; a word shift has a 5-bit
amount. -/
def RvInstr.fits : RvInstr → Bool
  | .jal _ off => !off.getLsbD 0
  | .branch _ _ _ off => !off.getLsbD 0
  | .shImm op _ _ sh =>
    match op with
    | .slliw | .srliw | .sraiw => !sh.getLsbD 5
    | .slli | .srli | .srai => true
  | .lui _ _ | .auipc _ _ | .jalr _ _ _ | .load _ _ _ _ | .store _ _ _ _ | .opImm _ _ _ _ | .opReg _ _ _ _
  | .fence _ _ _ | .fenceI _ _ _ | .csrRead _ _ _ => true

/-- Ranges of what a scrub names: 8 cores to each of 32 clusters, words of 4 bytes, lines of 64. -/
def ScrubFind.fits : ScrubFind → Bool
  | .clean => true
  | .corrected cluster core _ => cluster < 32 && core < 8
  | .outside die _ unit => die < 4 && unit < 64
  | .scratch _ crew off => crew < 8 && off % 4 == 0
  | .cmem _ off => off % 4 == 0
  | .correctedIn die st => die < 4 && (st == 1 || 4 ≤ st && st < 7)
  | .slate cl e line => cl < 32 && e < 4 && line % 64 == 0 && line < 2 ^ 21
  | .window cl e w off => cl < 32 && e < 4 && w < 512 && off % 4 == 0 && off < 4096
  | .shadow cl e n off => cl < 32 && e < 4 && n < 32 && off % 4 == 0 && off < 4096
  | .gravel cl n => cl < 32 && n < 96
  | .l2 line => line % 64 == 0

/-- Lanes 0 to 31 carry data, 32 to 39 metadata (25 Table 25-3). -/
def HbmTry.fits : HbmTry → Bool
  | .parity lane => lane < 40
  | .good | .corrected | .uncorrectable => true

/-- Ranges of what Keystone writes. -/
def KsWrite.fits : KsWrite → Bool
  | .slot n i _ => n < 192 && i < 8
  | .granule vf g _ => vf < 65 && g < 512
  | .config vf _ => vf < 65
  | .bind vf dev fn => vf < 65 && dev < 256 && fn.all (· < 65)
  | .accept vf pairs => vf < 65 && pairs.length ≤ 64 && pairs.all fun p => p.1 < 256 && p.2 < 65
  | .deviceId _ => true

/-- Whether an instruction term is one that an encoding holds. An event's occurrence carries no encoding; the few
ranges that its fields have in the spec's registers are checked. -/
def Instr.wf : Instr → Bool
  | .nop _ => true
  | .bra c t => t.fits c true
  | .brc c cond _ t => t.fits c (cond == .nz)
  | .brd c t => t.fits c true
  | .join c t => t.fits { sw := c.sw, onc := c.onc, pg := 7, pn := false } true
  | .call c _ t => t.fits c true
  | .ret _ _ => true
  | .loop c _ t => t.fits c true
  | .kmov c _ b ty => b.fitsK c ty true
  | .kadd c _ _ b ty sat => b.fitsK c ty (!sat)
  | .ksub c _ _ b ty sat => b.fitsK c ty (!sat)
  | .kmul c _ _ b ty sat => b.fitsK c ty (!sat)
  | .kand c _ _ b ty => b.fitsK c ty true
  | .kor c _ _ b ty => b.fitsK c ty true
  | .kxor c _ _ b ty => b.fitsK c ty true
  | .ksh c _ _ b ty kind sat => (!sat || kind == .shl) && b.fitsK c ty (kind == .shl && !sat)
  | .kcmp c _ _ b ty cond => b.fitsK c ty (cond == .eq)
  | .ksel _ _ _ _ _ _ => true
  | .kmad _ _ _ _ _ _ _ => true
  | .vote _ _ op hi _ _ => !hi || op == .ballot
  | .rdlane c _ _ t w64 => t.fits c (!w64)
  | .wrlane c _ _ t w64 => t.fits c (!w64)
  | .tail _ => true
  | .setiw c _ b => b.fits c true
  | .vmov c op ty =>
    match op with
    | .reg _ b => b.fitsV c ty true
    | .toIdx _ _ _ => true
    | .fromIdx _ _ => true
  | .vadd c _ _ b ty sat => b.fitsV c ty (!sat)
  | .vsub c _ _ b ty sat => b.fitsV c ty (!sat)
  | .vmul c _ _ b ty hi sat => (!hi || !sat) && b.fitsV c ty (!hi && !sat)
  | .vmad _ _ _ _ _ _ _ => true
  | .vquo c _ _ b ty rem sat => (!rem || !sat) && b.fitsV c ty (!rem && !sat)
  | .vand c _ _ b ty => b.fitsV c ty true
  | .vor c _ _ b ty => b.fitsV c ty true
  | .vxor c _ _ b ty => b.fitsV c ty true
  | .vbic c _ _ b ty => b.fitsV c ty true
  | .vshl c _ _ b ty sat => b.fitsV c ty (!sat)
  | .vshr c _ _ b ty => b.fitsV c ty true
  | .vfun _ _ _ _ _ _ _ => true
  | .vbfx c _ _ b ty => b.fitsV c ty true
  | .vbfi _ _ _ _ _ _ => true
  | .vcnt _ _ _ _ _ => true
  | .vmin c _ _ b ty => b.fitsV c ty true
  | .vmax c _ _ b ty => b.fitsV c ty true
  | .vabsd c _ _ b ty sat => b.fitsV c ty (!sat)
  | .vcmp c _ _ b ty cond comb => b.fitsV c ty (cond == .eq && comb == .set)
  | .vsel c _ _ b ty n neg => b.fitsV c ty (n == 0 && !neg)
  | .vshfl c _ _ b ty mode all => b.fitsV c ty (mode == .idx && !all)
  | .vmatch _ _ _ _ => true
  | .vscan _ _ _ _ _ op _ _ sat => !sat || op == .add
  | .vaddr c _ _ b uns sh => sh.toNat ≤ 4 && b.fits c (!uns && sh == 0)
  | .vprm _ _ _ _ _ _ => true
  | .fadd c _ _ b ty rm sat => b.fitsF c ty rm (!sat)
  | .fsub c _ _ b ty rm sat => b.fitsF c ty rm (!sat)
  | .fmul c _ _ b ty rm sat => b.fitsF c ty rm (!sat)
  | .fma _ _ _ _ _ _ _ _ => true
  | .fmin c _ _ b ty => b.fitsF c ty .rn true
  | .fmax c _ _ b ty => b.fitsF c ty .rn true
  | .fsgn c _ _ b ty op => b.fitsF c ty .rn (op == .copy)
  | .fcmp c _ _ b ty cond comb => b.fitsF c ty .rn (cond == .eq && comb == .set)
  | .fclass _ _ _ _ => true
  | .frcp _ _ _ _ _ _ => true
  | .frsq _ _ _ _ _ _ => true
  | .fsqrt _ _ _ _ _ => true
  | .fdiv c _ _ b ty rm sat => b.fitsF c ty rm (!sat)
  | .fexp2 _ _ _ ty _ _ => ty != .d
  | .flog2 _ _ _ ty _ => ty != .d
  | .ftrig _ _ _ ty _ _ => ty != .d
  | .frnd _ _ _ _ _ => true
  | .cvtf _ _ _ dir _ _ _ =>
    match dir with
    | .toCode _ => true
    | .fromCode f => f.narrow
  | .cvti _ _ _ toFloat _ _ _ sat => toFloat || !sat
  | .qblk _ _ _ _ e fmt ty _ => if fmt.isS4 then ty == .f else ty != .d && e.unused
  | .dqblk _ _ _ _ ty _ _ => ty != .d
  | .hadm _ _ _ _ _ _ _ => true
  | .fdot _ _ _ _ _ ty _ _ => ty == .h || ty == .b
  | .fred _ _ _ _ op _ rm sat => op == .add || (rm == .rn && !sat)
  | .fsrn _ _ _ _ dst ty _ => (ty == .f || ty == .d) && dst.srnDest ty
  | .fpack _ _ _ _ dst pos _ _ _ => dst.packAt pos
  | .ldsc c _ _ off m => m.fits c off false
  | .stsc c _ _ off tag m => m.fits c off tag
  | .stscPush _ _ _ tag _ _ tagged => tagged || tag.unused
  | .amsc c _ _ b cmp m => m.fits c b cmp false
  | .ldsh c _ _ off m => m.fits c off false
  | .stsh c _ _ off tag m => m.fits c off tag
  | .amsh c _ _ b cmp m => m.fits c b cmp false
  | .ldcv c _ _ off m => m.fits c off false
  | .stcv c _ _ off tag m => m.fits c off tag
  | .amcv c _ _ b cmp m => m.fits c b cmp false
  | .lddv c _ _ off m => m.fits c off true
  | .stdv c _ _ off tag m => m.fits c off tag
  | .amdv c _ _ b cmp m => m.fits c b cmp true
  | .ldpr c _ _ off m => m.fits c off true
  | .stpr c _ _ off tag m => m.fits c off tag
  | .ampr c _ _ b cmp m => m.fits c b cmp false
  | .ldhs c _ _ off m => m.fits c off true
  | .sths c _ _ off tag m => m.fits c off tag
  | .amhs c _ _ b cmp m => m.fits c b cmp false
  | .fence _ _ => true
  | .waitc _ _ _ => true
  | .barw _ conv id => !conv || id.toNat < 8
  | .waitv c _ _ b sp cond w64 sg => b.fits c (sp == .sc && cond == .eq && !w64 && !sg)
  | .pref c _ off l1 => off.fits c (!l1)
  | .disc c _ off => off.fits c true
  | .smap _ _ _ _ _ => true
  | .smapUnb _ _ => true
  | .swb c _ n => n.fits c true
  | .cctl c _ n op => n.fits c (op == .wb)
  | .evpop _ _ hdr ring _ => ring || hdr.unused
  | .mres _ _ _ _ => true
  | .mresGrv _ _ => true
  | .mrel _ _ => true
  | .mrelGrv _ => true
  | .mldb _ _ _ _ _ => true
  | .mring _ _ _ _ _ => true
  | .mma _ _ cls _ _ _ _ boff => boff.isNone || cls == .n8
  | .mcmt _ _ _ _ => true
  | .mzero c e _ n d64 => n.fits c (e == 0 && !d64)
  | .mstc _ _ _ _ _ _ => true
  | .mldc _ _ _ _ _ _ _ => true
  | .mfnc _ _ => true
  | .mwait c b => b.fits c true
  | .taskq _ _ => true
  | .tsten _ _ _ _ => true
  | .aownRd _ _ _ _ => true
  | .aownWr _ _ _ _ => true
  | .ggen _ _ _ _ _ _ => true
  | .gcnt _ _ _ _ => true
  | .gand _ _ _ _ _ => true
  | .gxnr _ _ _ _ _ => true
  | .gmux _ _ _ _ _ _ => true
  | .gacc _ _ _ _ => true
  | .greg _ _ _ _ => true
  | .gshf c _ _ r => r.fits c true
  | .gcmp _ _ _ _ _ => true
  | .glen c l => l.fits c true
  | .gseed c cls value => value.fits c (cls == 0)
  | .gmov _ _ _ => true
  | .gmovLd _ _ _ => true
  | .gmovSt _ _ _ => true
  | .copy c _ _ n mask dsp ssp cv mc =>
    (mc || mask.unused) && n.fits c (dsp == .sc && ssp == .sc && cv == .none && !mc)
  | .cpy2 _ _ _ _ _ _ => true
  | .task _ _ _ _ => true
  | .sgnl _ _ _ _ _ => true
  | .grid c _ q => q.fits c true
  | .cmsg _ _ _ => true
  | .cbuf _ _ _ _ _ => true
  | .coll _ _ _ _ _ op ty root => (root == 0 || op == .bcast) && (op != .mean || ty == .f || ty == .b)
  | .trap _ _ => true
  | .rte _ => true
  | .sysr _ _ _ => true
  | .sysw _ _ _ => true
  | .probe _ _ _ _ _ => true
  | .achk _ => true
  | .clnRd _ _ _ => true
  | .clnGet _ _ => true
  | .clnBud _ => true
  | .clnDone _ => true
  | .clnKeep _ _ => true
  | .clnDrop => true
  | .clnWr _ _ _ => true
  | .clnReq _ _ _ => true
  | .clnFwd _ _ _ => true
  | .clnRply _ => true
  | .clnAtom _ _ _ _ => true
  | .clnEvq _ _ _ => true
  | .cairnBase i short => if short then i.hasShort else i.fits
  | .clauseHeaderDecode _ => true
  | .lateFault _ _ _ => true
  | .storeDrain _ => true
  | .stashFillArrival _ _ _ => true
  | .assayFillArrival core _ _ => core < 256
  | .leaseFill core _ => core < 256
  | .leaseStep => true
  | .tickRebase die => die < 4
  | .remoteWriteApply die _ => die < 4
  | .peerRequestArrival r => r.dev < 256 && r.fpa < 2 ^ 44
  | .peerResponse _ _ => true
  | .hostCompletion _ _ => true
  | .hostCompletionTimeout _ => true
  | .hostWriteRefused _ => true
  | .copyComplete _ _ _ => true
  | .gravelOpComplete cl _ => cl < 32
  | .matrixKblock cl e _ => cl < 32 && e < 4
  | .matrixOpComplete cl e => cl < 32 && e < 4
  | .tileTaskRelease cl => cl < 32
  | .tileTaskRetire cl r => cl < 32 && r.engine < 4
  | .tileTaskFault cl e _ _ => cl < 32 && e < 4
  | .collComplete _ _ _ => true
  | .messageAccepted _ => true
  | .handlerInvocation n => n < 192
  | .cairnBudgetExpiry n => n < 192
  | .cairnShareExhausted n slot => n < 192 && slot < 8
  | .cairnShareWindow => true
  | .cairnRequestFill n _ => n < 192
  | .wakeReevaluate _ => true
  | .spinDetect _ => true
  | .spinTimeout _ => true
  | .taskWaveDispatch _ cl => cl < 32
  | .taskGatherTimeout _ cl => cl < 32
  | .taskAging _ cl => cl < 32
  | .retirementDrainDone _ => true
  | .doorbell vf _ => vf < 65
  | .qerrClear vf _ => vf < 65
  | .queueEnable vf q => vf < 65 && q < 64
  | .launchRecordAccept vf q => vf < 65 && q < 64
  | .dependenceRelease vf q => vf < 65 && q < 64
  | .convoyPlacement => true
  | .placementBlockingTimeout vf q => vf < 65 && q < 64
  | .starvationPreempt vf q => vf < 65 && q < 64
  | .timeSliceExpiry cl vf => cl < 32 && vf < 65
  | .residentWaitSwitch _ => true
  | .wakeTableSweep die => die < 4
  | .gridCompletion _ => true
  | .preemptRequest _ _ => true
  | .drainTimeout _ => true
  | .convoySave _ => true
  | .convoyFlush _ => true
  | .freqWrite cl _ => cl < 32
  | .transitionTimeout cl => cl < 32
  | .servoStep cl _ _ => cl < 32
  | .frailWrite die _ => die < 4
  | .gateDie die => die < 4
  | .wakeDie die => die < 4
  | .selfRefreshEntry stack => stack < 8
  | .savereq _ => true
  | .thermalMigrationStep temps => temps.length == 32 && temps.all (· < 256)
  | .rationStep _ temps => temps.length == 32 && temps.all (· < 256)
  | .invctlGo vf => vf < 65
  | .invalidationDone vf => vf < 65
  | .ptbrWrite vf _ => vf < 65
  | .lwatchEnable vf n _ => vf < 65 && n < 16
  | .bar2Write vf _ data => vf < 65 && (data.op.isNone || data.bytes.length == 4 || data.bytes.length == 8)
  | .bar2Read vf _ _ => vf < 65
  | .cxlMemWrite vf _ _ => vf < 65
  | .cxlMemRead vf _ _ => vf < 65
  | .flitReceive port f => port < 24 && f.slots.length == 15
  | .trainingDone port => port < 24
  | .trainingTimeout port => port < 24
  | .heartbeatSend => true
  | .failureDetect dev => dev < 256
  | .declarationApply dev => dev < 256
  | .groupEnable vf j _ => vf < 65 && j < 16
  | .deviceReset => true
  | .fwUpdate => true
  | .fwAttest vf => vf < 65
  | .fwReservedOp vf _ => vf < 65
  | .quarryTimeout => true
  | .memoryTrainingDone die => die < 4
  | .memoryTrainingFail die => die < 4
  | .katInjection core lane _ retests => core < 256 && lane < 128 && retests.length == 3
  | .scratchScrub find => find.fits
  | .hbmTransferReceive line tries _ => line % 64 == 0 && line < 2 ^ 39 && 0 < tries.length && tries.length ≤ 5 && tries.all HbmTry.fits
  | .laneSwapDone stack pch last _ => stack < 8 && pch < 64 && last.fits
  | .counterClear off => off % 8 == 0
  | .registerWrite vf off _ => vf < 65 && off % 8 == 0
  | .unassignedOpcode _ => true
  | .wakeWithoutEvent _ => true
  | .keystoneConfiguration w => w.fits
  | .handlerCodeLoad n slot _ => n < 192 && slot < 8
  | .msiXUnmask vf vec => vf < 65 && vec < 66
  | .powerLoss _ => true

end Sys2Proof
end

