-- ==== Sys2Proof/Decode.lean ====
section
/-!
DEFINITION. Sys2Proof/Decode.lean: the words of the instructions. A Kalgil word (08 Table 8-2) is cut into `Fields`, and
the fields are read as an instruction by the tables of 09 and 11 to 14; a Cairn word or parcel (07) likewise. After each
decoder stands the encoder, written from the same tables.
-/
namespace Sys2Proof

/-! ### The 64-bit word (08 Table 8-2) -/

/-- The lower half of an instruction word: LIT (L = 1), or SB, SC, PN and MOD (L = 0). -/
inductive Low where
  | lit (w : Word)
  | reg (sb sc : BitVec 9) (pn : Bool) (mod : BitVec 13)
  deriving DecidableEq, Repr

/-- The fields of an instruction word (08 Table 8-2). -/
structure Fields where
  op : BitVec 8
  sw : Bool
  onc : Bool
  pg : BitVec 3
  dst : BitVec 9
  sa : BitVec 9
  low : Low
  deriving DecidableEq, Repr

/-- The 32 bits of the lower half. -/
def Low.bits : Low → BitVec 32
  | .lit w => w
  | .reg sb sc pn mod => sb ++ sc ++ BitVec.ofBool pn ++ mod

/-- L (08 Table 8-2). -/
def Low.isLit : Low → Bool
  | .lit _ => true
  | .reg _ _ _ _ => false

/-- The word that holds the fields. -/
def Fields.pack (f : Fields) : DWord :=
  f.op ++ BitVec.ofBool f.sw ++ BitVec.ofBool f.onc ++ BitVec.ofBool f.low.isLit ++ f.pg ++ f.dst ++ f.sa ++ f.low.bits

/-- The fields of a word. -/
def Fields.unpack (w : DWord) : Fields :=
  { op := w.extractLsb' 56 8, sw := w.getLsbD 55, onc := w.getLsbD 54, pg := w.extractLsb' 50 3,
    dst := w.extractLsb' 41 9, sa := w.extractLsb' 32 9,
    low := if w.getLsbD 53 then .lit (w.extractLsb' 0 32)
      else .reg (w.extractLsb' 23 9) (w.extractLsb' 14 9) (w.getLsbD 13) (w.extractLsb' 0 13) }

/-! ### Operand descriptors (02 R33, R37, R39) -/

/-- The descriptor field of an operand. -/
def Desc.code : Desc → BitVec 9
  | .v n => 0#1 ++ n
  | .k n => 0b100#3 ++ n
  | .h n => 0b10100#5 ++ n
  | .special n => 0b10101#5 ++ n
  | .inline n => 0b1011#4 ++ n
  | .idx i off => 0b11#2 ++ i ++ off

/-- The operand that a descriptor field names. -/
def Desc.ofCode (c : BitVec 9) : Desc :=
  if c.getLsbD 8 then
    if c.getLsbD 7 then .idx (c.extractLsb' 5 2) (c.extractLsb' 0 5)
    else if c.getLsbD 6 then
      if c.getLsbD 5 then .inline (c.extractLsb' 0 5)
      else if c.getLsbD 4 then .special (c.extractLsb' 0 4)
      else .h (c.extractLsb' 0 4)
    else .k (c.extractLsb' 0 6)
  else .v (c.extractLsb' 0 8)

/-! ### MOD sub-fields (09 Tables 9-5 to 9-9 and the instruction tables) -/

/-- Form A: XF, SAT, RM, TY (09 Table 9-5). -/
def formA (xf : BitVec 5) (sat : Bool) (rm : BitVec 3) (ty : BitVec 4) : BitVec 13 :=
  xf ++ BitVec.ofBool sat ++ rm ++ ty

/-- TY, integer column (09 Table 9-6). -/
def ITy.code : ITy → BitVec 4
  | .s32 => 0 | .n32 => 1 | .s64 => 2 | .n64 => 3

/-- The type of a TY code. -/
def ITy.ofCode (c : BitVec 4) : Option ITy :=
  match c.toNat with
  | 0 => some .s32 | 1 => some .n32 | 2 => some .s64 | 3 => some .n64 | _ => none

/-- TY, float column (09 Table 9-6). -/
def FTy.code : FTy → BitVec 4
  | .f => 0 | .d => 1 | .h => 2 | .b => 3

/-- The type of a TY code. -/
def FTy.ofCode (c : BitVec 4) : Option FTy :=
  match c.toNat with
  | 0 => some .f | 1 => some .d | 2 => some .h | 3 => some .b | _ => none

/-- TY, memory column (09 Table 9-6). -/
def MTy.code : MTy → BitVec 4
  | .s32 => 0 | .n32 => 1 | .s64 => 2 | .n64 => 3 | .s8 => 4 | .n8 => 5 | .s16 => 6 | .n16 => 7 | .q => 8

/-- The type of a TY code. -/
def MTy.ofCode (c : BitVec 4) : Option MTy :=
  match c.toNat with
  | 0 => some .s32 | 1 => some .n32 | 2 => some .s64 | 3 => some .n64 | 4 => some .s8 | 5 => some .n8
  | 6 => some .s16 | 7 => some .n16 | 8 => some .q | _ => none

/-- RM (09 Table 9-7). -/
def RM.code : RM → BitVec 3
  | .rn => 0 | .rz => 1 | .rd => 2 | .ru => 3 | .ra => 4

/-- The rounding of an RM code. -/
def RM.ofCode (c : BitVec 3) : Option RM :=
  match c.toNat with
  | 0 => some .rn | 1 => some .rz | 2 => some .rd | 3 => some .ru | 4 => some .ra | _ => none

/-- Conditions (11 Table 11-6). -/
def Cond.code : Cond → BitVec 3
  | .eq => 0 | .ne => 1 | .lt => 2 | .le => 3 | .gt => 4 | .ge => 5

/-- The condition of a code. -/
def Cond.ofCode (c : BitVec 3) : Option Cond :=
  match c.toNat with
  | 0 => some .eq | 1 => some .ne | 2 => some .lt | 3 => some .le | 4 => some .gt | 5 => some .ge | _ => none

/-- FCMP conditions (12 Table 12-3). -/
def FCond.code : FCond → BitVec 3
  | .eq => 0 | .ne => 1 | .lt => 2 | .le => 3 | .gt => 4 | .ge => 5 | .un => 6 | .ord => 7

/-- The condition of a code. -/
def FCond.ofCode (c : BitVec 3) : FCond :=
  match c.toNat with
  | 0 => .eq | 1 => .ne | 2 => .lt | 3 => .le | 4 => .gt | 5 => .ge | 6 => .un | _ => .ord

/-- Combine field (11 R213). -/
def Combine.code : Combine → BitVec 2
  | .set => 0 | .and => 1 | .or => 2

/-- The combination of a code. -/
def Combine.ofCode (c : BitVec 2) : Option Combine :=
  match c.toNat with
  | 0 => some .set | 1 => some .and | 2 => some .or | _ => none

/-- BRC's COND (11 Table 11-2). -/
def BrCond.code : BrCond → BitVec 2
  | .nz => 0 | .z => 1 | .lt => 2 | .ge => 3

/-- The condition of a code. -/
def BrCond.ofCode (c : BitVec 2) : BrCond :=
  match c.toNat with
  | 0 => .nz | 1 => .z | 2 => .lt | _ => .ge

/-- VOTE's OP (11 Table 11-2). -/
def VoteOp.code : VoteOp → BitVec 2
  | .ballot => 0 | .any => 1 | .all => 2 | .count => 3

/-- The operation of a code. -/
def VoteOp.ofCode (c : BitVec 2) : VoteOp :=
  match c.toNat with
  | 0 => .ballot | 1 => .any | 2 => .all | _ => .count

/-- KSH's kind (11 Table 11-5). -/
def ShKind.code : ShKind → BitVec 5
  | .shl => 0 | .shr => 1 | .rol => 2 | .ror => 3

/-- The kind of a code. -/
def ShKind.ofCode (c : BitVec 5) : Option ShKind :=
  match c.toNat with
  | 0 => some .shl | 1 => some .shr | 2 => some .rol | 3 => some .ror | _ => none

/-- VCNT's op (11 Table 11-7). -/
def CntOp.code : CntOp → BitVec 5
  | .pop => 0 | .clz => 1 | .ctz => 2 | .brev => 3

/-- The operation of a code. -/
def CntOp.ofCode (c : BitVec 5) : Option CntOp :=
  match c.toNat with
  | 0 => some .pop | 1 => some .clz | 2 => some .ctz | 3 => some .brev | _ => none

/-- VSHFL's mode (11 R215). -/
def ShflMode.code : ShflMode → BitVec 2
  | .idx => 0 | .up => 1 | .down => 2 | .xor => 3

/-- The mode of a code. -/
def ShflMode.ofCode (c : BitVec 2) : ShflMode :=
  match c.toNat with
  | 0 => .idx | 1 => .up | 2 => .down | _ => .xor

/-- VSCAN's op (11 R217). -/
def ScanOp.code : ScanOp → BitVec 2
  | .add => 0 | .min => 1 | .max => 2

/-- The operation of a code. -/
def ScanOp.ofCode (c : BitVec 2) : Option ScanOp :=
  match c.toNat with
  | 0 => some .add | 1 => some .min | 2 => some .max | _ => none

/-- FRED's op (12 R235). -/
def RedOp.code : RedOp → BitVec 2
  | .add => 0 | .min => 1 | .max => 2

/-- The operation of a code. -/
def RedOp.ofCode (c : BitVec 2) : Option RedOp :=
  match c.toNat with
  | 0 => some .add | 1 => some .min | 2 => some .max | _ => none

/-- FSGN's op (12 Table 12-1). -/
def SgnOp.code : SgnOp → BitVec 5
  | .copy => 0 | .neg => 1 | .xor => 2

/-- The operation of a code. -/
def SgnOp.ofCode (c : BitVec 5) : Option SgnOp :=
  match c.toNat with
  | 0 => some .copy | 1 => some .neg | 2 => some .xor | _ => none

/-- Format codes of the conversions (12 R228). -/
def FCode.code : FCode → BitVec 4
  | .fp32 => 0 | .fp64 => 1 | .fp16 => 2 | .bf16 => 3 | .e4m3 => 4 | .e5m2 => 5 | .e2m1 => 6

/-- The format of a code. -/
def FCode.ofCode (c : BitVec 4) : Option FCode :=
  match c.toNat with
  | 0 => some .fp32 | 1 => some .fp64 | 2 => some .fp16 | 3 => some .bf16 | 4 => some .e4m3 | 5 => some .e5m2
  | 6 => some .e2m1 | _ => none

/-- CVTF's XF: DIR and the format code (12 R228). -/
def CvtDir.code : CvtDir → BitVec 5
  | .toCode c => 0#1 ++ c.code
  | .fromCode c => 1#1 ++ c.code

/-- The direction and format of an XF (12 R228: under DIR 1 the code lies in 4 to 6). -/
def CvtDir.ofCode (x : BitVec 5) : Option CvtDir :=
  match FCode.ofCode (x.extractLsb' 0 4) with
  | none => none
  | some c => if x.getLsbD 4 then (if c.narrow then some (.fromCode c) else none) else some (.toCode c)

/-- Line format codes that QBLK accepts (12 R232). -/
def QFmt.code : QFmt → BitVec 5
  | .int8 => 1 | .e4m3 => 2 | .e5m2 => 3 | .s4 => 7 | .s4h16 => 8 | .s4h32 => 9 | .e4m3h16 => 10 | .e4m3h32 => 11

/-- The format of a code. -/
def QFmt.ofCode (c : BitVec 5) : Option QFmt :=
  match c.toNat with
  | 1 => some .int8 | 2 => some .e4m3 | 3 => some .e5m2 | 7 => some .s4 | 8 => some .s4h16 | 9 => some .s4h32
  | 10 => some .e4m3h16 | 11 => some .e4m3h32 | _ => none

/-- AOP (09 Table 9-9). -/
def AOp.code : AOp → BitVec 4
  | .add => 0 | .fadd => 1 | .min => 2 | .max => 3 | .and => 4 | .or => 5 | .xor => 6 | .swap => 7 | .cas => 8 | .incw => 9

/-- The operation of an AOP code. -/
def AOp.ofCode (c : BitVec 4) : Option AOp :=
  match c.toNat with
  | 0 => some .add | 1 => some .fadd | 2 => some .min | 3 => some .max | 4 => some .and | 5 => some .or
  | 6 => some .xor | 7 => some .swap | 8 => some .cas | 9 => some .incw | _ => none

/-- SCOPE of FENCE (09 Table 9-8). -/
def Scope.code : Scope → BitVec 3
  | .crew => 1 | .conv => 2 | .die => 3 | .pkg => 4 | .dom => 5 | .sys => 6

/-- The scope of a code. -/
def Scope.ofCode (c : BitVec 3) : Option Scope :=
  match c.toNat with
  | 1 => some .crew | 2 => some .conv | 3 => some .die | 4 => some .pkg | 5 => some .dom | 6 => some .sys | _ => none

/-- SGNL's scope (14 Table 14-6). -/
def SgScope.code : SgScope → BitVec 3
  | .die => 3 | .pkg => 4 | .sys => 6

/-- The scope of a code. -/
def SgScope.ofCode (c : BitVec 3) : Option SgScope :=
  match c.toNat with
  | 3 => some .die | 4 => some .pkg | 6 => some .sys | _ => none

/-- WAITC's CTR (13 Table 13-6). -/
def Ctr.code : Ctr → BitVec 3
  | .cpy => 0 | .grv => 1 | .msg => 2 | .dom => 3

/-- The counter of a code. -/
def Ctr.ofCode (c : BitVec 3) : Option Ctr :=
  match c.toNat with
  | 0 => some .cpy | 1 => some .grv | 2 => some .msg | 3 => some .dom | _ => none

/-- WAITV's space (13 Table 13-6). -/
def WvSpace.code : WvSpace → BitVec 3
  | .sc => 0 | .sh => 1 | .cv => 2 | .dv => 3

/-- The space of a code. -/
def WvSpace.ofCode (c : BitVec 3) : Option WvSpace :=
  match c.toNat with
  | 0 => some .sc | 1 => some .sh | 2 => some .cv | 3 => some .dv | _ => none

/-- CCTL's op (13 Table 13-6). -/
def CcOp.code : CcOp → BitVec 2
  | .wb => 0 | .wbi => 1 | .l1inv => 2

/-- The operation of a code. -/
def CcOp.ofCode (c : BitVec 2) : Option CcOp :=
  match c.toNat with
  | 0 => some .wb | 1 => some .wbi | 2 => some .l1inv | _ => none

/-- MMA's class (14 Table 14-2). -/
def MCls.code : MCls → BitVec 2
  | .n8 => 0 | .b16 => 1 | .d64 => 2

/-- The class of a code. -/
def MCls.ofCode (c : BitVec 2) : Option MCls :=
  match c.toNat with
  | 0 => some .n8 | 1 => some .b16 | 2 => some .d64 | _ => none

/-- GCNT's kind (14 Table 14-5). -/
def GCntKind.code : GCntKind → BitVec 2
  | .n32 => 0 | .u => 1 | .b => 2

/-- The kind of a code. -/
def GCntKind.ofCode (c : BitVec 2) : Option GCntKind :=
  match c.toNat with
  | 0 => some .n32 | 1 => some .u | 2 => some .b | _ => none

/-- Copy spaces (14 R277). -/
def CpSpace.code : CpSpace → BitVec 3
  | .sc => 0 | .cv => 2 | .dv => 3 | .pr => 4 | .hs => 5

/-- The space of a code. -/
def CpSpace.ofCode (c : BitVec 3) : Option CpSpace :=
  match c.toNat with
  | 0 => some .sc | 2 => some .cv | 3 => some .dv | 4 => some .pr | 5 => some .hs | _ => none

/-- COPY's CV (14 Table 14-6). -/
def CpConv.code : CpConv → BitVec 4
  | .none => 0 | .int8 => 1 | .e4m3 => 2 | .e5m2 => 3 | .bf16 => 4 | .e4m3h16 => 10 | .e4m3h32 => 11

/-- The conversion of a code. -/
def CpConv.ofCode (c : BitVec 4) : Option CpConv :=
  match c.toNat with
  | 0 => some .none | 1 => some .int8 | 2 => some .e4m3 | 3 => some .e5m2 | 4 => some .bf16 | 10 => some .e4m3h16
  | 11 => some .e4m3h32 | _ => Option.none

/-- COLL's op (14 Table 14-6). -/
def CollOp.code : CollOp → BitVec 3
  | .sum => 0 | .max => 1 | .min => 2 | .mean => 3 | .bcast => 4 | .gath => 5 | .rsum => 6

/-- The operation of a code. -/
def CollOp.ofCode (c : BitVec 3) : Option CollOp :=
  match c.toNat with
  | 0 => some .sum | 1 => some .max | 2 => some .min | 3 => some .mean | 4 => some .bcast | 5 => some .gath
  | 6 => some .rsum | _ => none

/-- COLL's element type (14 Table 14-6). -/
def CollTy.code : CollTy → BitVec 2
  | .f => 0 | .b => 1 | .s32 => 2 | .n32 => 3

/-- The type of a code. -/
def CollTy.ofCode (c : BitVec 2) : CollTy :=
  match c.toNat with
  | 0 => .f | 1 => .b | 2 => .s32 | _ => .n32

/-- PROBE's space (14 Table 14-7). -/
def PrSpace.code : PrSpace → BitVec 3
  | .dv => 3 | .pr => 4 | .hs => 5

/-- The space of a code. -/
def PrSpace.ofCode (c : BitVec 3) : Option PrSpace :=
  match c.toNat with
  | 3 => some .dv | 4 => some .pr | 5 => some .hs | _ => none

/-- PROBE's access kind (14 Table 14-7). -/
def PrKind.code : PrKind → BitVec 2
  | .ld => 0 | .st => 1 | .am => 2

/-- The kind of a code. -/
def PrKind.ofCode (c : BitVec 2) : Option PrKind :=
  match c.toNat with
  | 0 => some .ld | 1 => some .st | 2 => some .am | _ => none

/-- MRES's SEL for a matrix engine (14 Table 14-2). -/
def MSel.code : MSel → BitVec 3
  | .eng e => 0#1 ++ e
  | .any => 4

/-! ### Reading the fields -/

/-- Why a word is no instruction: 08 Table 8-3, steps 3 and 4. -/
inductive DErr where
  | fieldReserved
  | litForm
  deriving DecidableEq, Repr

/-- What the decoder reads: the fields with the literal form's defaults, SB and SC absent, PN and MOD 0 (08 R153). -/
structure View where
  c : Ctl
  dst : BitVec 9
  sa : BitVec 9
  sb : BitVec 9
  sc : BitVec 9
  m : BitVec 13
  lit : Option Word
  deriving DecidableEq, Repr

/-- The view of the fields. -/
def Fields.view (f : Fields) : View :=
  match f.low with
  | .lit w => { c := { sw := f.sw, onc := f.onc, pg := f.pg, pn := false }, dst := f.dst, sa := f.sa, sb := 0, sc := 0,
                m := 0, lit := some w }
  | .reg sb sc pn mod => { c := { sw := f.sw, onc := f.onc, pg := f.pg, pn := pn }, dst := f.dst, sa := f.sa, sb := sb,
                           sc := sc, m := mod, lit := none }

/-- What a decoder answers. -/
abbrev Dec := Except DErr Instr

/-- 08 R152, 09 R168: what must hold of unused and reserved fields. -/
def req (b : Bool) (k : Dec) : Dec := if b then k else .error .fieldReserved

/-- A sub-field with reserved codes (09 R168). -/
def sub {α : Type} (o : Option α) (k : α → Dec) : Dec :=
  match o with
  | none => .error .fieldReserved
  | some a => k a

namespace View

/-- An instruction without literal form (08 R153). In a word that asks for one MOD is 0, and a field check that this 0 fails, being of an
earlier step of 08 Table 8-3, is reported instead (09 R168). -/
def noLit (v : View) (k : Dec) : Dec :=
  if v.lit.isSome then
    match k with
    | .error .fieldReserved => .error .fieldReserved
    | .error .litForm => .error .litForm
    | .ok _ => .error .litForm
  else k

/-- DST as a descriptor. -/
def d (v : View) : Desc := Desc.ofCode v.dst
/-- SA as a descriptor. -/
def a (v : View) : Desc := Desc.ofCode v.sa
/-- SB as a descriptor. -/
def bd (v : View) : Desc := Desc.ofCode v.sb
/-- SC as a descriptor. -/
def e (v : View) : Desc := Desc.ofCode v.sc
/-- SB or the literal. -/
def b (v : View) : SrcB :=
  match v.lit with
  | some w => .lit w
  | none => .desc v.bd
/-- The control fields of an instruction without guard. -/
def c0 (v : View) : Ctl0 := { sw := v.c.sw, onc := v.c.onc }
/-- 08 R152: the guard is unused. -/
def noGuard (v : View) : Bool := v.c.pg == 7 && !v.c.pn
/-- XF. -/
def xf (v : View) : BitVec 5 := v.m.extractLsb' 8 5
/-- SAT. -/
def sat (v : View) : Bool := v.m.getLsbD 7
/-- RM's code. -/
def rmc (v : View) : BitVec 3 := v.m.extractLsb' 4 3
/-- RM. -/
def rm (v : View) : Option RM := RM.ofCode v.rmc
/-- TY's code. -/
def tyc (v : View) : BitVec 4 := v.m.extractLsb' 0 4
/-- TY, integer column. -/
def ity (v : View) : Option ITy := ITy.ofCode v.tyc
/-- TY of a K instruction: .S64 in literal form (08 R153). -/
def kty (v : View) : Option ITy := if v.lit.isSome then some .s64 else v.ity
/-- TY, float column. -/
def fty (v : View) : Option FTy := FTy.ofCode v.tyc
/-- E, bits 12:11 (14 R263). -/
def eng (v : View) : BitVec 2 := v.m.extractLsb' 11 2
/-- CH, bits 5:4. -/
def ch (v : View) : BitVec 2 := v.m.extractLsb' 4 2
/-- A g register in a field (14 R263): bits 4:0, with bits 8:5 zero. -/
def greg (x : BitVec 9) (k : BitVec 5 → Dec) : Dec := req (x.extractLsb' 5 4 == 0) (k (x.extractLsb' 0 5))
/-- A Slate page in a field (14 R263). -/
def page (x : BitVec 9) (k : BitVec 6 → Dec) : Dec := req (x.extractLsb' 6 3 == 0) (k (x.extractLsb' 0 6))
/-- A predicate in a field (14 R263, 11 R213). -/
def pred (x : BitVec 9) (k : BitVec 3 → Dec) : Dec := req (x.extractLsb' 3 6 == 0) (k (x.extractLsb' 0 3))

/-! ### UNI (11 Tables 11-2 and 11-5) -/

/-- KMOV to KMAD without SAT: XF and RM zero. -/
def kArith (v : View) (mk : Ctl → Desc → Desc → SrcB → ITy → Instr) : Dec :=
  req (v.sc == 0 && v.xf == 0 && v.rmc == 0 && !v.sat) (sub v.kty fun ty => .ok (mk v.c v.d v.a v.b ty))

/-- KADD, KSUB, KMUL. -/
def kArithS (v : View) (mk : Ctl → Desc → Desc → SrcB → ITy → Bool → Instr) : Dec :=
  req (v.sc == 0 && v.xf == 0 && v.rmc == 0) (sub v.kty fun ty => .ok (mk v.c v.d v.a v.b ty v.sat))

/-- Opcodes 0x00 to 0x17. -/
def uni (v : View) (op : Nat) : Dec :=
  match op with
  | 0x00 => req (v.dst == 0 && v.sa == 0 && v.sb == 0 && v.sc == 0 && v.noGuard && v.m == 0) (v.noLit (.ok (.nop v.c0)))
  | 0x01 => req (v.dst == 0 && v.sa == 0 && v.sc == 0 && v.m == 0) (.ok (.bra v.c v.b))
  | 0x02 => req (v.dst == 0 && v.sc == 0 && v.m.extractLsb' 2 11 == 0)
      (.ok (.brc v.c (BrCond.ofCode (v.m.extractLsb' 0 2)) v.a v.b))
  | 0x03 => req (v.dst == 0 && v.sa == 0 && v.sc == 0 && v.m == 0) (.ok (.brd v.c v.b))
  | 0x04 => req (v.dst == 0 && v.sa == 0 && v.sc == 0 && v.noGuard && v.m == 0) (.ok (.join v.c0 v.b))
  | 0x05 => req (v.sa == 0 && v.sc == 0 && v.m == 0) (.ok (.call v.c v.d v.b))
  | 0x06 => req (v.dst == 0 && v.sa == 0 && v.sc == 0 && v.m == 0) (v.noLit (.ok (.ret v.c v.bd)))
  | 0x07 => req (v.sa == 0 && v.sc == 0 && v.m == 0) (.ok (.loop v.c v.d v.b))
  | 0x08 => req (v.sa == 0) (v.kArith fun c d _ b ty => .kmov c d b ty)
  | 0x09 => v.kArithS .kadd
  | 0x0A => v.kArithS .ksub
  | 0x0B => v.kArithS .kmul
  | 0x0C => v.kArith .kand
  | 0x0D => v.kArith .kor
  | 0x0E => v.kArith .kxor
  | 0x0F => req (v.sc == 0 && v.rmc == 0) (sub v.kty fun ty => sub (ShKind.ofCode v.xf) fun kind =>
      req (!v.sat || kind == .shl) (.ok (.ksh v.c v.d v.a v.b ty kind v.sat)))
  | 0x10 => req (v.sc == 0 && v.rmc == 0 && !v.sat && v.xf.extractLsb' 3 2 == 0) (sub v.kty fun ty =>
      sub (Cond.ofCode (v.xf.extractLsb' 0 3)) fun cond => .ok (.kcmp v.c v.d v.a v.b ty cond))
  | 0x11 => v.noLit (req (v.xf == 0 && v.rmc == 0 && !v.sat) (sub v.ity fun ty => .ok (.ksel v.c v.d v.a v.bd v.e ty)))
  | 0x12 => v.noLit (req (v.xf == 0 && v.rmc == 0) (sub v.ity fun ty => .ok (.kmad v.c v.d v.a v.bd v.e ty v.sat)))
  | 0x13 => pred v.sa fun n => req (v.sb == 0 && v.sc == 0 && v.m.extractLsb' 4 9 == 0) (v.noLit (
      let o := VoteOp.ofCode (v.m.extractLsb' 0 2)
      req (!v.m.getLsbD 2 || o == .ballot) (.ok (.vote v.c v.d o (v.m.getLsbD 2) (v.m.getLsbD 3) n))))
  | 0x14 => req (v.sc == 0 && v.m.extractLsb' 1 12 == 0) (.ok (.rdlane v.c v.d v.a v.b (v.m.getLsbD 0)))
  | 0x15 => req (v.sc == 0 && v.m.extractLsb' 1 12 == 0) (.ok (.wrlane v.c v.d v.a v.b (v.m.getLsbD 0)))
  | 0x16 => req (v.dst == 0 && v.sa == 0 && v.sb == 0 && v.sc == 0 && v.noGuard && v.m == 0) (v.noLit (.ok (.tail v.c0)))
  | _ => req (v.dst == 0 && v.sc == 0 && v.m == 0) (.ok (.setiw v.c v.a v.b))

/-! ### VEC integer (11 Table 11-7) -/

/-- Two sources, XF 0, no SAT. -/
def vArith (v : View) (mk : Ctl → Desc → Desc → SrcB → ITy → Instr) : Dec :=
  req (v.sc == 0 && v.xf == 0 && v.rmc == 0 && !v.sat) (sub v.ity fun ty => .ok (mk v.c v.d v.a v.b ty))

/-- Two sources, XF 0, with SAT. -/
def vArithS (v : View) (mk : Ctl → Desc → Desc → SrcB → ITy → Bool → Instr) : Dec :=
  req (v.sc == 0 && v.xf == 0 && v.rmc == 0) (sub v.ity fun ty => .ok (mk v.c v.d v.a v.b ty v.sat))

/-- Two sources, a flag in XF bit 0 that excludes SAT. -/
def vArithX (v : View) (mk : Ctl → Desc → Desc → SrcB → ITy → Bool → Bool → Instr) : Dec :=
  req (v.sc == 0 && v.xf.extractLsb' 1 4 == 0 && v.rmc == 0 && (!v.xf.getLsbD 0 || !v.sat))
    (sub v.ity fun ty => .ok (mk v.c v.d v.a v.b ty (v.xf.getLsbD 0) v.sat))

/-- VMOV's three kinds (11 R210). -/
def vmov (v : View) : Dec :=
  req (v.sa == 0 && v.sc == 0 && v.rmc == 0) (sub v.ity fun ty =>
    match v.xf.toNat with
    | 0 => req (!v.sat) (.ok (.vmov v.c (.reg v.d v.b) ty))
    | 1 => req (v.dst.extractLsb' 2 7 == 0) (.ok (.vmov v.c (.toIdx (v.dst.extractLsb' 0 2) v.bd v.sat) ty))
    | 2 => req (!v.sat && v.sb.extractLsb' 2 7 == 0) (.ok (.vmov v.c (.fromIdx v.d (v.sb.extractLsb' 0 2)) ty))
    | _ => .error .fieldReserved)

/-- Opcodes 0x20 to 0x39. -/
def vecInt (v : View) (op : Nat) : Dec :=
  match op with
  | 0x20 => v.vmov
  | 0x21 => v.vArithS .vadd
  | 0x22 => v.vArithS .vsub
  | 0x23 => v.vArithX .vmul
  | 0x24 => v.noLit (req (v.xf == 0 && v.rmc == 0) (sub v.ity fun ty => .ok (.vmad v.c v.d v.a v.bd v.e ty v.sat)))
  | 0x25 => v.vArithX .vquo
  | 0x26 => v.vArith .vand
  | 0x27 => v.vArith .vor
  | 0x28 => v.vArith .vxor
  | 0x29 => v.vArith .vbic
  | 0x2A => v.vArithS .vshl
  | 0x2B => v.vArith .vshr
  | 0x2C => v.noLit (req (v.xf.extractLsb' 1 4 == 0 && v.rmc == 0 && !v.sat) (sub v.ity fun ty =>
      .ok (.vfun v.c v.d v.a v.bd v.e ty (v.xf.getLsbD 0))))
  | 0x2D => v.vArith .vbfx
  | 0x2E => v.noLit (req (v.xf == 0 && v.rmc == 0 && !v.sat) (sub v.ity fun ty => .ok (.vbfi v.c v.d v.a v.bd v.e ty)))
  | 0x2F => req (v.sb == 0 && v.sc == 0) (v.noLit (req (v.rmc == 0 && !v.sat) (sub v.ity fun ty =>
      sub (CntOp.ofCode v.xf) fun o => .ok (.vcnt v.c v.d v.a o ty))))
  | 0x30 => v.vArith .vmin
  | 0x31 => v.vArith .vmax
  | 0x32 => v.vArithS .vabsd
  | 0x33 => pred v.dst fun p => req (v.sc == 0 && v.rmc == 0 && !v.sat) (sub v.ity fun ty =>
      sub (Cond.ofCode (v.xf.extractLsb' 0 3)) fun cond => sub (Combine.ofCode (v.xf.extractLsb' 3 2)) fun comb =>
        .ok (.vcmp v.c p v.a v.b ty cond comb))
  | 0x34 => req (v.sc == 0 && v.rmc == 0 && !v.sat && !v.xf.getLsbD 4) (sub v.ity fun ty =>
      .ok (.vsel v.c v.d v.a v.b ty (v.xf.extractLsb' 0 3) (v.xf.getLsbD 3)))
  | 0x35 => req (v.sc == 0 && v.rmc == 0 && !v.sat && v.xf.extractLsb' 2 2 == 0) (sub v.ity fun ty =>
      .ok (.vshfl v.c v.d v.a v.b ty (ShflMode.ofCode (v.xf.extractLsb' 0 2)) (v.xf.getLsbD 4)))
  | 0x36 => req (v.sb == 0 && v.sc == 0) (v.noLit (req (v.xf == 0 && v.rmc == 0 && !v.sat) (sub v.ity fun ty =>
      .ok (.vmatch v.c v.d v.a ty))))
  | 0x37 => req (v.sc == 0) (v.noLit (req (v.rmc == 0 && (v.xf.getLsbD 3 || v.sb == 0)) (sub v.ity fun ty =>
      sub (ScanOp.ofCode (v.xf.extractLsb' 0 2)) fun o => req (!v.sat || o == .add)
        (.ok (.vscan v.c v.d v.a (if v.xf.getLsbD 3 then some v.bd else none) ty o (v.xf.getLsbD 2) (v.xf.getLsbD 4)
          v.sat)))))
  | 0x38 => req (v.sc == 0 && v.rmc == 0 && !v.sat && v.xf.toNat ≤ 4 && v.tyc.extractLsb' 1 3 == 0)
      (.ok (.vaddr v.c v.d v.a v.b (v.tyc.getLsbD 0) (v.xf.extractLsb' 0 3)))
  | _ => v.noLit (req (v.xf == 0 && v.rmc == 0 && !v.sat && v.tyc.extractLsb' 1 3 == 0)
      (.ok (.vprm v.c v.d v.a v.bd v.e (v.tyc.getLsbD 0))))

/-! ### VEC float (12 Table 12-1) -/

/-- Two sources, RM and SAT. -/
def fArith (v : View) (mk : Ctl → Desc → Desc → SrcB → FTy → RM → Bool → Instr) : Dec :=
  req (v.sc == 0 && v.xf == 0) (sub v.fty fun ty => sub v.rm fun rm => .ok (mk v.c v.d v.a v.b ty rm v.sat))

/-- One source and no literal form. -/
def fOne (v : View) (k : FTy → RM → Dec) : Dec :=
  req (v.sb == 0 && v.sc == 0) (v.noLit (sub v.fty fun ty => sub v.rm fun rm => k ty rm))

/-- Opcodes 0x40 to 0x59. -/
def vecFloat (v : View) (op : Nat) : Dec :=
  match op with
  | 0x40 => v.fArith .fadd
  | 0x41 => v.fArith .fsub
  | 0x42 => v.fArith .fmul
  | 0x43 => v.noLit (req (v.xf == 0) (sub v.fty fun ty => sub v.rm fun rm => .ok (.fma v.c v.d v.a v.bd v.e ty rm v.sat)))
  | 0x44 => req (v.sc == 0 && v.xf == 0 && v.rmc == 0 && !v.sat) (sub v.fty fun ty => .ok (.fmin v.c v.d v.a v.b ty))
  | 0x45 => req (v.sc == 0 && v.xf == 0 && v.rmc == 0 && !v.sat) (sub v.fty fun ty => .ok (.fmax v.c v.d v.a v.b ty))
  | 0x46 => req (v.sc == 0 && v.rmc == 0 && !v.sat) (sub v.fty fun ty => sub (SgnOp.ofCode v.xf) fun o =>
      .ok (.fsgn v.c v.d v.a v.b ty o))
  | 0x47 => pred v.dst fun p => req (v.sc == 0 && v.rmc == 0 && !v.sat) (sub v.fty fun ty =>
      sub (Combine.ofCode (v.xf.extractLsb' 3 2)) fun comb =>
        .ok (.fcmp v.c p v.a v.b ty (FCond.ofCode (v.xf.extractLsb' 0 3)) comb))
  | 0x48 => v.fOne fun ty rm => req (v.xf == 0 && rm == .rn && !v.sat) (.ok (.fclass v.c v.d v.a ty))
  | 0x49 => v.fOne fun ty rm => req (v.xf == 0) (.ok (.frcp v.c v.d v.a ty rm v.sat))
  | 0x4A => v.fOne fun ty rm => req (v.xf == 0) (.ok (.frsq v.c v.d v.a ty rm v.sat))
  | 0x4B => v.fOne fun ty rm => req (v.xf == 0 && !v.sat) (.ok (.fsqrt v.c v.d v.a ty rm))
  | 0x4C => v.fArith .fdiv
  | 0x4D => v.fOne fun ty rm => req (v.xf == 0 && ty != .d) (.ok (.fexp2 v.c v.d v.a ty rm v.sat))
  | 0x4E => v.fOne fun ty rm => req (v.xf == 0 && ty != .d && !v.sat) (.ok (.flog2 v.c v.d v.a ty rm))
  | 0x4F => v.fOne fun ty rm => req (v.xf.extractLsb' 1 4 == 0 && ty != .d && !v.sat)
      (.ok (.ftrig v.c v.d v.a ty (v.xf.getLsbD 0) rm))
  | 0x50 => v.fOne fun ty rm => req (v.xf == 0 && !v.sat) (.ok (.frnd v.c v.d v.a ty rm))
  | 0x51 => v.fOne fun ty rm => sub (CvtDir.ofCode v.xf) fun dir => .ok (.cvtf v.c v.d v.a dir ty rm v.sat)
  | 0x52 => v.fOne fun ty rm => req (v.xf.extractLsb' 2 2 == 0 && (v.xf.getLsbD 4 || !v.sat))
      (sub (ITy.ofCode (0#2 ++ v.xf.extractLsb' 0 2)) fun ity => .ok (.cvti v.c v.d v.a (v.xf.getLsbD 4) ity ty rm v.sat))
  | 0x53 => v.noLit (sub v.fty fun ty => sub v.rm fun rm => sub (QFmt.ofCode v.xf) fun fmt =>
      req (!v.sat && (if fmt.isS4 then ty == .f else ty != .d && v.sc == 0))
        (.ok (.qblk v.c v.d v.a v.bd v.e fmt ty rm)))
  | 0x54 => req (v.sc == 0) (v.noLit (req (v.xf == 0) (sub v.fty fun ty => sub v.rm fun rm => req (ty != .d)
      (.ok (.dqblk v.c v.d v.a v.bd ty rm v.sat)))))
  | 0x55 => v.fOne fun ty rm => req (v.xf.extractLsb' 1 4 == 0) (.ok (.hadm v.c v.d v.a ty (v.xf.getLsbD 0) rm v.sat))
  | 0x56 => v.noLit (req (v.xf == 0) (sub v.fty fun ty => sub v.rm fun rm => req (ty == .h || ty == .b)
      (.ok (.fdot v.c v.d v.a v.bd v.e ty rm v.sat))))
  | 0x57 => v.fOne fun ty rm => req (v.xf.extractLsb' 2 2 == 0) (sub (RedOp.ofCode (v.xf.extractLsb' 0 2)) fun o =>
      req (o == .add || (rm == .rn && !v.sat)) (.ok (.fred v.c v.d v.a ty o (v.xf.getLsbD 4) rm v.sat)))
  | 0x58 => req (v.sc == 0) (v.noLit (req (v.rmc == 0 && v.xf.extractLsb' 3 2 == 0) (sub v.fty fun ty =>
      sub (FCode.ofCode (0#1 ++ v.xf.extractLsb' 0 3)) fun dst => req ((ty == .f || ty == .d) && dst.srnDest ty)
        (.ok (.fsrn v.c v.d v.a v.bd dst ty v.sat)))))
  | _ => req (v.sc == 0) (v.noLit (sub v.fty fun ty => sub v.rm fun rm =>
      sub (FCode.ofCode (0#1 ++ v.xf.extractLsb' 0 3)) fun dst => req (dst.packAt (v.xf.extractLsb' 3 2))
        (.ok (.fpack v.c v.d v.a v.bd dst (v.xf.extractLsb' 3 2) ty rm v.sat))))

/-! ### MEM (13 Tables 13-2 and 13-6) -/

/-- A load, form ML (09 Table 9-5). -/
def load (v : View) (part : Bool) (mk : Ctl → Desc → Desc → SrcB → LdMods → Instr) : Dec :=
  req (v.sc == 0 && v.m.extractLsb' 6 5 == 0 && (part || !v.m.getLsbD 12)) (sub (MTy.ofCode v.tyc) fun ty =>
    req (!v.m.getLsbD 11 || ty == .n32)
      (.ok (mk v.c v.d v.a v.b { ty := ty, ch := v.ch, tag := v.m.getLsbD 11, part := v.m.getLsbD 12 })))

/-- A store, form MS without PUSH. -/
def store (v : View) (mk : Ctl → Desc → Desc → SrcB → Desc → StMods → Instr) : Dec :=
  req (v.m.extractLsb' 6 5 == 0 && !v.m.getLsbD 12 && (v.m.getLsbD 11 || v.sc == 0)) (sub (MTy.ofCode v.tyc) fun ty =>
    .ok (mk v.c v.d v.a v.b v.e { ty := ty, ch := v.ch, tag := v.m.getLsbD 11 }))

/-- STSC.PUSH (13 R246). -/
def push (v : View) : Dec :=
  req (v.m.extractLsb' 6 5 == 0 && v.dst.extractLsb' 2 7 == 0 && v.sb == 0 && (v.m.getLsbD 11 || v.sc == 0) &&
      v.tyc.extractLsb' 1 3 == 0)
    (.ok (.stscPush v.c (v.dst.extractLsb' 0 2) v.a v.e (v.tyc.getLsbD 0) v.ch (v.m.getLsbD 11)))

/-- An atomic, form MA; `pkg` says that SCOPE 4 is accepted (09 R173). -/
def atomic (v : View) (pkg : Bool) (mk : Ctl → Desc → Desc → SrcB → Desc → AmMods → Instr) : Dec :=
  req (v.tyc.extractLsb' 2 2 == 0 && (v.m.extractLsb' 6 3 == 0 || (pkg && v.m.extractLsb' 6 3 == 4)))
    (sub (AOp.ofCode (v.m.extractLsb' 9 4)) fun o => req ((o != .incw || v.tyc.getLsbD 0) && (o == .cas || v.sc == 0))
      (.ok (mk v.c v.d v.a v.b v.e { op := o, ty := v.tyc.extractLsb' 0 2, ch := v.ch, pkg := v.m.getLsbD 8 })))

/-- Opcodes 0x60 to 0x7B. -/
def mem (v : View) (op : Nat) : Dec :=
  match op with
  | 0x60 => v.load false .ldsc
  | 0x61 => if v.m.getLsbD 12 then v.push else v.store .stsc
  | 0x62 => v.atomic false .amsc
  | 0x63 => v.load false .ldsh
  | 0x64 => v.store .stsh
  | 0x65 => v.atomic false .amsh
  | 0x66 => v.load false .ldcv
  | 0x67 => v.store .stcv
  | 0x68 => v.atomic false .amcv
  | 0x69 => v.load true .lddv
  | 0x6A => v.store .stdv
  | 0x6B => v.atomic true .amdv
  | 0x6C => v.load true .ldpr
  | 0x6D => v.store .stpr
  | 0x6E => v.atomic false .ampr
  | 0x6F => v.load true .ldhs
  | 0x70 => v.store .sths
  | 0x71 => v.atomic false .amhs
  | 0x72 => req (v.dst == 0 && v.sa == 0 && v.sb == 0 && v.sc == 0) (v.noLit (
      req (v.m.extractLsb' 0 6 == 0 && v.m.extractLsb' 9 4 == 0) (sub (Scope.ofCode (v.m.extractLsb' 6 3)) fun s =>
        .ok (.fence v.c s))))
  | 0x73 => req (v.dst == 0 && v.sa == 0 && v.sb == 0 && v.sc == 0) (v.noLit (
      req (v.m.extractLsb' 6 3 == 0 && !v.m.getLsbD 12) (sub (Ctr.ofCode (v.m.extractLsb' 9 3)) fun ctr =>
        .ok (.waitc v.c ctr (v.m.extractLsb' 0 6)))))
  | 0x74 => req (v.dst == 0 && v.sa == 0 && v.sb == 0 && v.sc == 0 && v.noGuard) (v.noLit (
      req (v.m.extractLsb' 4 2 == 0 && v.m.extractLsb' 9 4 == 0) (
        if v.m.extractLsb' 6 3 == 1 then .ok (.barw v.c0 false (v.m.extractLsb' 0 4))
        else req (v.m.extractLsb' 6 3 == 2 && !v.m.getLsbD 3) (.ok (.barw v.c0 true (v.m.extractLsb' 0 4))))))
  | 0x75 => req (v.sc == 0 && v.m.extractLsb' 6 3 == 0 && v.m.extractLsb' 11 2 == 0)
      (sub (WvSpace.ofCode (v.m.extractLsb' 0 3)) fun sp => sub (Cond.ofCode (v.m.extractLsb' 3 3)) fun cond =>
        .ok (.waitv v.c v.d v.a v.b sp cond (v.m.getLsbD 9) (v.m.getLsbD 10)))
  | 0x76 => req (v.dst == 0 && v.sc == 0 && v.m.extractLsb' 1 12 == 0) (.ok (.pref v.c v.a v.b (v.m.getLsbD 0)))
  | 0x77 => req (v.dst == 0 && v.sc == 0 && v.m == 0) (.ok (.disc v.c v.a v.b))
  | 0x78 => req (v.dst == 0) (v.noLit (req (v.m.extractLsb' 3 10 == 0) (
      if v.m.getLsbD 2 then req (v.sa == 0 && v.sb == 0 && v.sc == 0) (.ok (.smapUnb v.c (v.m.extractLsb' 0 2)))
      else .ok (.smap v.c (v.m.extractLsb' 0 2) v.a v.bd v.e))))
  | 0x79 => req (v.dst == 0 && v.sc == 0 && v.m == 0) (.ok (.swb v.c v.a v.b))
  | 0x7A => req (v.dst == 0 && v.sc == 0 && v.m.extractLsb' 2 11 == 0) (sub (CcOp.ofCode (v.m.extractLsb' 0 2)) fun o =>
      .ok (.cctl v.c v.a v.b o))
  | _ => req (v.sb == 0 && v.sc == 0 && (v.m.getLsbD 0 || v.sa == 0)) (v.noLit (req (v.m.extractLsb' 2 11 == 0)
      (.ok (.evpop v.c v.d v.a (v.m.getLsbD 0) (v.m.getLsbD 1)))))

/-! ### MTX (14 Table 14-2) -/

/-- Opcodes 0x80 to 0x8D. -/
def mtx (v : View) (op : Nat) : Dec :=
  match op with
  | 0x80 => pred v.dst fun pd => req (v.sa == 0 && v.sc == 0 && (v.m.getLsbD 3 || v.sb == 0)) (v.noLit (
      req (v.m.extractLsb' 4 9 == 0) (
        let kd := if v.m.getLsbD 3 then some v.bd else none
        if v.m.getLsbD 2 then
          if v.m.extractLsb' 0 2 == 0 then .ok (.mres v.c pd .any kd)
          else req (v.m.extractLsb' 0 2 == 1 && !v.m.getLsbD 3) (.ok (.mresGrv v.c pd))
        else .ok (.mres v.c pd (.eng (v.m.extractLsb' 0 2)) kd))))
  | 0x81 => req (v.dst == 0 && v.sa == 0 && v.sb == 0 && v.sc == 0) (v.noLit (req (v.m.extractLsb' 3 10 == 0) (
      if v.m.getLsbD 2 then req (v.m.extractLsb' 0 2 == 1) (.ok (.mrelGrv v.c))
      else .ok (.mrel v.c (v.m.extractLsb' 0 2)))))
  | 0x82 => page v.dst fun p => req (v.sc == 0 && (v.m.getLsbD 0 || v.sb == 0)) (v.noLit (req (v.m.extractLsb' 1 10 == 0)
      (.ok (.mldb v.c v.eng p v.a (if v.m.getLsbD 0 then some v.bd else none)))))
  | 0x83 => req (v.dst == 0) (v.noLit (req (v.m.extractLsb' 0 11 == 0) (.ok (.mring v.c v.eng v.a v.bd v.e))))
  | 0x84 => page v.sa fun p => v.noLit (req (v.m.extractLsb' 6 5 == 0 && (v.m.getLsbD 5 || v.sc == 0) &&
      (v.m.getLsbD 2 || v.m.extractLsb' 3 2 == 0)) (sub (MCls.ofCode (v.m.extractLsb' 0 2)) fun cls =>
        req (!v.m.getLsbD 5 || cls == .n8)
          (.ok (.mma v.c v.eng cls v.dst p v.bd (if v.m.getLsbD 2 then some (v.m.extractLsb' 3 2) else none)
            (if v.m.getLsbD 5 then some v.e else none)))))
  | 0x85 => req (v.dst == 0 && v.sb == 0 && v.sc == 0) (v.noLit (req (v.m.extractLsb' 2 9 == 0)
      (.ok (.mcmt v.c v.eng (v.m.extractLsb' 0 2) v.a))))
  | 0x86 => req (v.sa == 0 && v.sc == 0 && v.m.extractLsb' 1 10 == 0) (.ok (.mzero v.c v.eng v.dst v.b (v.m.getLsbD 0)))
  | 0x87 => v.noLit (req (v.m.extractLsb' 0 11 == 0) (.ok (.mstc v.c v.eng v.dst v.a v.bd v.e)))
  | 0x88 => v.noLit (req (v.m.extractLsb' 1 10 == 0) (.ok (.mldc v.c v.eng v.dst v.a v.bd v.e (v.m.getLsbD 0))))
  | 0x89 => req (v.sa == 0 && v.sb == 0 && v.sc == 0) (v.noLit (req (v.m == 0) (.ok (.mfnc v.c v.d))))
  | 0x8A => req (v.dst == 0 && v.sa == 0 && v.sc == 0 && v.m == 0) (.ok (.mwait v.c v.b))
  | 0x8B => req (v.dst == 0 && v.sb == 0 && v.sc == 0) (v.noLit (req (v.m == 0) (.ok (.taskq v.c v.a))))
  | 0x8C => req (v.dst == 0) (v.noLit (req (v.m == 0) (.ok (.tsten v.c v.a v.bd v.e))))
  | _ => req (v.sb == 0 && v.sc == 0) (v.noLit (req (v.m.extractLsb' 1 10 == 0) (
      if v.m.getLsbD 0 then .ok (.aownWr v.c v.eng v.dst v.a) else .ok (.aownRd v.c v.eng v.d v.sa))))

/-! ### GRV (14 Table 14-5) -/

/-- GAND, GXNR. -/
def gTwo (v : View) (mk : Ctl → BitVec 5 → BitVec 5 → BitVec 5 → Bool → Instr) : Dec :=
  greg v.dst fun gd => greg v.sa fun ga => greg v.sb fun gb => req (v.sc == 0) (v.noLit (req (v.m.extractLsb' 1 12 == 0)
    (.ok (mk v.c gd ga gb (v.m.getLsbD 0)))))

/-- Opcodes 0x90 to 0x9B. -/
def grv (v : View) (op : Nat) : Dec :=
  match op with
  | 0x90 => greg v.dst fun gd => req (v.sb == 0 && v.sc == 0) (v.noLit (req (v.m.extractLsb' 8 5 == 0)
      (.ok (.ggen v.c gd v.a (v.m.extractLsb' 0 6) (v.m.getLsbD 6) (v.m.getLsbD 7)))))
  | 0x91 => greg v.sa fun gs => req (v.sb == 0 && v.sc == 0) (v.noLit (req (v.m.extractLsb' 2 11 == 0)
      (sub (GCntKind.ofCode (v.m.extractLsb' 0 2)) fun k => .ok (.gcnt v.c v.d gs k))))
  | 0x92 => v.gTwo .gand
  | 0x93 => v.gTwo .gxnr
  | 0x94 => greg v.dst fun gd => greg v.sa fun ga => greg v.sb fun gb => greg v.sc fun gs =>
      v.noLit (req (v.m.extractLsb' 1 12 == 0) (.ok (.gmux v.c gd ga gb gs (v.m.getLsbD 0))))
  | 0x95 => greg v.sa fun ga => req (v.sb == 0 && v.sc == 0) (v.noLit (req (v.m.extractLsb' 5 8 == 0)
      (.ok (.gacc v.c v.d ga (v.m.extractLsb' 0 5)))))
  | 0x96 => greg v.dst fun gd => greg v.sa fun gs => req (v.sb == 0 && v.sc == 0) (v.noLit (req (v.m.extractLsb' 6 7 == 0)
      (.ok (.greg v.c gd gs (v.m.extractLsb' 0 6)))))
  | 0x97 => greg v.dst fun gd => greg v.sa fun gs => req (v.sc == 0 && v.m == 0) (.ok (.gshf v.c gd gs v.b))
  | 0x98 => greg v.sa fun gs => req (v.sc == 0) (v.noLit (req (v.m.extractLsb' 1 12 == 0)
      (.ok (.gcmp v.c v.d gs v.bd (v.m.getLsbD 0)))))
  | 0x99 => req (v.dst == 0 && v.sa == 0 && v.sc == 0 && v.m == 0) (.ok (.glen v.c v.b))
  | 0x9A => req (v.dst == 0 && v.sa == 0 && v.sc == 0 && v.m.extractLsb' 6 7 == 0)
      (.ok (.gseed v.c (v.m.extractLsb' 0 6) v.b))
  | _ => req (v.sb == 0 && v.sc == 0) (
      if v.m.extractLsb' 0 2 == 1 then greg v.dst fun gd => v.noLit (req (v.m.extractLsb' 2 11 == 0)
        (.ok (.gmovLd v.c gd v.a)))
      else if v.m.extractLsb' 0 2 == 2 then greg v.sa fun gs => v.noLit (req (v.m.extractLsb' 2 11 == 0)
        (.ok (.gmovSt v.c v.d gs)))
      else greg v.dst fun gd => greg v.sa fun gs => v.noLit (req (v.m == 0) (.ok (.gmov v.c gd gs))))

/-! ### CPY and SYS (14 Tables 14-6 and 14-7) -/

/-- Opcodes 0xA0 to 0xA7. -/
def cpy (v : View) (op : Nat) : Dec :=
  match op with
  | 0xA0 => req ((v.m.getLsbD 10 || v.sc == 0) && v.m.extractLsb' 11 2 == 0)
      (sub (CpSpace.ofCode (v.m.extractLsb' 0 3)) fun dsp => sub (CpSpace.ofCode (v.m.extractLsb' 3 3)) fun ssp =>
        sub (CpConv.ofCode (v.m.extractLsb' 6 4)) fun cv => .ok (.copy v.c v.d v.a v.b v.e dsp ssp cv (v.m.getLsbD 10)))
  | 0xA1 => req (v.sc == 0) (v.noLit (req (v.m.extractLsb' 6 7 == 0)
      (sub (CpSpace.ofCode (v.m.extractLsb' 0 3)) fun dsp => sub (CpSpace.ofCode (v.m.extractLsb' 3 3)) fun ssp =>
        .ok (.cpy2 v.c v.d v.a v.bd dsp ssp))))
  | 0xA2 => req (v.dst == 0) (v.noLit (req (v.m == 0) (.ok (.task v.c v.a v.bd v.e))))
  | 0xA3 => req (v.dst == 0 && v.sc == 0) (v.noLit (req (v.m.extractLsb' 1 5 == 0 && v.m.extractLsb' 9 4 == 0)
      (sub (SgScope.ofCode (v.m.extractLsb' 6 3)) fun s => .ok (.sgnl v.c v.a v.bd (v.m.getLsbD 0) s))))
  | 0xA4 => req (v.dst == 0 && v.sc == 0 && v.m == 0) (.ok (.grid v.c v.a v.b))
  | 0xA5 => req (v.dst == 0 && v.sc == 0) (v.noLit (req (v.m == 0) (.ok (.cmsg v.c v.a v.bd))))
  | 0xA6 => pred v.dst fun pd => req (v.sc == 0) (v.noLit (req (v.m.extractLsb' 1 12 == 0)
      (.ok (.cbuf v.c pd v.a v.bd (v.m.getLsbD 0)))))
  | _ => v.noLit (sub (CollOp.ofCode (v.m.extractLsb' 0 3)) fun o =>
      let ty := CollTy.ofCode (v.m.extractLsb' 3 2)
      let root := v.m.extractLsb' 5 8
      req ((root == 0 || o == .bcast) && (o != .mean || ty == .f || ty == .b))
        (.ok (.coll v.c v.d v.a v.bd v.e o ty root)))

/-- Opcodes 0xB0 to 0xB5. -/
def sys (v : View) (op : Nat) : Dec :=
  match op with
  | 0xB0 => req (v.dst == 0 && v.sa == 0 && v.sb == 0 && v.sc == 0) (v.noLit (req (v.m.extractLsb' 6 7 == 0)
      (.ok (.trap v.c (v.m.extractLsb' 0 6)))))
  | 0xB1 => req (v.dst == 0 && v.sa == 0 && v.sb == 0 && v.sc == 0 && v.noGuard) (v.noLit (req (v.m == 0)
      (.ok (.rte v.c0))))
  | 0xB2 => req (v.sa == 0 && v.sb == 0 && v.sc == 0) (v.noLit (req (v.m.extractLsb' 6 7 == 0)
      (.ok (.sysr v.c v.d (v.m.extractLsb' 0 6)))))
  | 0xB3 => req (v.dst == 0 && v.sb == 0 && v.sc == 0) (v.noLit (req (v.m.extractLsb' 6 7 == 0)
      (.ok (.sysw v.c (v.m.extractLsb' 0 6) v.a))))
  | 0xB4 => req (v.sb == 0 && v.sc == 0) (v.noLit (req (v.m.extractLsb' 5 8 == 0)
      (sub (PrSpace.ofCode (v.m.extractLsb' 0 3)) fun sp => sub (PrKind.ofCode (v.m.extractLsb' 3 2)) fun k =>
        .ok (.probe v.c v.d v.a sp k))))
  | _ => req (v.dst == 0 && v.sa == 0 && v.sb == 0 && v.sc == 0) (v.noLit (req (v.m == 0) (.ok (.achk v.c))))

end View

/-- Whether Table 9-1 assigns the opcode (09 R166, R167). -/
def opAssigned (op : Nat) : Bool :=
  op < 0x18 || (0x20 ≤ op && op < 0x3A) || (0x40 ≤ op && op < 0x5A) || (0x60 ≤ op && op < 0x7C) ||
    (0x80 ≤ op && op < 0x8E) || (0x90 ≤ op && op < 0x9C) || (0xA0 ≤ op && op < 0xA8) || (0xB0 ≤ op && op < 0xB6)

/-- The instruction of an assigned opcode's fields (08 Table 8-3, steps 3 and 4). -/
def decodeFields (f : Fields) : Dec :=
  let op := f.op.toNat
  if op < 0x20 then f.view.uni op
  else if op < 0x40 then f.view.vecInt op
  else if op < 0x60 then f.view.vecFloat op
  else if op < 0x80 then f.view.mem op
  else if op < 0x90 then f.view.mtx op
  else if op < 0xA0 then f.view.grv op
  else if op < 0xB0 then f.view.cpy op
  else f.view.sys op

/-- The instruction of a 64-bit word, total on any word: an unassigned opcode is the instruction `unassignedOpcode`
(09 R167); every other word is an instruction or is rejected by name. -/
def decode (w : DWord) : Dec :=
  let f := Fields.unpack w
  if opAssigned f.op.toNat then decodeFields f else .ok (.unassignedOpcode w)

/-! ### The encoder of 64-bit words -/

/-- Fields of the non-literal form. -/
def regF (op : BitVec 8) (c : Ctl) (dst sa sb sc : BitVec 9) (m : BitVec 13) : Fields :=
  { op := op, sw := c.sw, onc := c.onc, pg := c.pg, dst := dst, sa := sa, low := .reg sb sc c.pn m }

/-- Fields of an instruction whose second source may be a literal (08 R153: the literal takes the place of SB, and the
word has no SC, PN and MOD). -/
def srcF (op : BitVec 8) (c : Ctl) (dst sa : BitVec 9) (b : SrcB) (sc : BitVec 9) (m : BitVec 13) : Fields :=
  match b with
  | .desc d => regF op c dst sa d.code sc m
  | .lit w => { op := op, sw := c.sw, onc := c.onc, pg := c.pg, dst := dst, sa := sa, low := .lit w }

/-- The guard fields of an instruction that uses no guard: PG 7, PN 0 (08 R152). -/
def Ctl0.full (c : Ctl0) : Ctl := { sw := c.sw, onc := c.onc, pg := 7, pn := false }

/-- A bit as a BitVec 1. -/
abbrev bit1 (b : Bool) : BitVec 1 := BitVec.ofBool b

/-- MOD of form A for an integer instruction (RM 0). -/
def modI (xf : BitVec 5) (sat : Bool) (ty : ITy) : BitVec 13 := formA xf sat 0 ty.code

/-- MOD of form A for a floating instruction. -/
def modF (xf : BitVec 5) (sat : Bool) (rm : RM) (ty : FTy) : BitVec 13 := formA xf sat rm.code ty.code

/-- MOD of form ML. -/
def LdMods.code (m : LdMods) : BitVec 13 := bit1 m.part ++ bit1 m.tag ++ 0#5 ++ m.ch ++ m.ty.code

/-- MOD of form MS without PUSH. -/
def StMods.code (m : StMods) : BitVec 13 := 0#1 ++ bit1 m.tag ++ 0#5 ++ m.ch ++ m.ty.code

/-- MOD of form MA. -/
def AmMods.code (m : AmMods) : BitVec 13 := m.op.code ++ bit1 m.pkg ++ 0#2 ++ m.ch ++ 0#2 ++ m.ty

/-- A g register, page or predicate in a descriptor field (14 R263). -/
def gfld (g : BitVec 5) : BitVec 9 := 0#4 ++ g
/-- A Slate page in a field. -/
def pfld (p : BitVec 6) : BitVec 9 := 0#3 ++ p
/-- A predicate in a field. -/
def prfld (p : BitVec 3) : BitVec 9 := 0#6 ++ p

/-- The descriptor of an operand that is written or 0. -/
def optCode (d : Option Desc) : BitVec 9 :=
  match d with
  | some d => d.code
  | none => 0

/-- The opcodes of the space's load; the store and the atomic follow it (13 Table 13-1). -/
def ldF (op : BitVec 8) (c : Ctl) (d base : Desc) (off : SrcB) (m : LdMods) : Fields :=
  srcF op c d.code base.code off 0 m.code
/-- A store's fields: DST holds the base (13 R239). -/
def stF (op : BitVec 8) (c : Ctl) (base data : Desc) (off : SrcB) (tag : Desc) (m : StMods) : Fields :=
  srcF op c base.code data.code off tag.code m.code
/-- An atomic's fields. -/
def amF (op : BitVec 8) (c : Ctl) (d addr : Desc) (b : SrcB) (cmp : Desc) (m : AmMods) : Fields :=
  srcF op c d.code addr.code b cmp.code m.code

/-- The fields of a Kalgil instruction; none for the rows that are no 64-bit instruction. -/
def Instr.fields : Instr → Option Fields
  | .nop c => some (regF 0x00 c.full 0 0 0 0 0)
  | .bra c t => some (srcF 0x01 c 0 0 t 0 0)
  | .brc c cond a t => some (srcF 0x02 c 0 a.code t 0 (0#11 ++ cond.code))
  | .brd c t => some (srcF 0x03 c 0 0 t 0 0)
  | .join c t => some (srcF 0x04 c.full 0 0 t 0 0)
  | .call c d t => some (srcF 0x05 c d.code 0 t 0 0)
  | .ret c a => some (regF 0x06 c 0 0 a.code 0 0)
  | .loop c d t => some (srcF 0x07 c d.code 0 t 0 0)
  | .kmov c d b ty => some (srcF 0x08 c d.code 0 b 0 (modI 0 false ty))
  | .kadd c d a b ty sat => some (srcF 0x09 c d.code a.code b 0 (modI 0 sat ty))
  | .ksub c d a b ty sat => some (srcF 0x0A c d.code a.code b 0 (modI 0 sat ty))
  | .kmul c d a b ty sat => some (srcF 0x0B c d.code a.code b 0 (modI 0 sat ty))
  | .kand c d a b ty => some (srcF 0x0C c d.code a.code b 0 (modI 0 false ty))
  | .kor c d a b ty => some (srcF 0x0D c d.code a.code b 0 (modI 0 false ty))
  | .kxor c d a b ty => some (srcF 0x0E c d.code a.code b 0 (modI 0 false ty))
  | .ksh c d a b ty kind sat => some (srcF 0x0F c d.code a.code b 0 (modI kind.code sat ty))
  | .kcmp c d a b ty cond => some (srcF 0x10 c d.code a.code b 0 (modI (0#2 ++ cond.code) false ty))
  | .ksel c d a b e ty => some (regF 0x11 c d.code a.code b.code e.code (modI 0 false ty))
  | .kmad c d a b e ty sat => some (regF 0x12 c d.code a.code b.code e.code (modI 0 sat ty))
  | .vote c d op hi neg n => some (regF 0x13 c d.code (prfld n) 0 0 (0#9 ++ bit1 neg ++ bit1 hi ++ op.code))
  | .rdlane c d va t w64 => some (srcF 0x14 c d.code va.code t 0 (0#12 ++ bit1 w64))
  | .wrlane c vd a t w64 => some (srcF 0x15 c vd.code a.code t 0 (0#12 ++ bit1 w64))
  | .tail c => some (regF 0x16 c.full 0 0 0 0 0)
  | .setiw c a b => some (srcF 0x17 c 0 a.code b 0 0)
  | .vmov c op ty =>
    some (match op with
      | .reg d b => srcF 0x20 c d.code 0 b 0 (modI 0 false ty)
      | .toIdx i b sat => regF 0x20 c (0#7 ++ i) 0 b.code 0 (modI 1 sat ty)
      | .fromIdx d i => regF 0x20 c d.code 0 (0#7 ++ i) 0 (modI 2 false ty))
  | .vadd c d a b ty sat => some (srcF 0x21 c d.code a.code b 0 (modI 0 sat ty))
  | .vsub c d a b ty sat => some (srcF 0x22 c d.code a.code b 0 (modI 0 sat ty))
  | .vmul c d a b ty hi sat => some (srcF 0x23 c d.code a.code b 0 (modI (0#4 ++ bit1 hi) sat ty))
  | .vmad c d a b e ty sat => some (regF 0x24 c d.code a.code b.code e.code (modI 0 sat ty))
  | .vquo c d a b ty rem sat => some (srcF 0x25 c d.code a.code b 0 (modI (0#4 ++ bit1 rem) sat ty))
  | .vand c d a b ty => some (srcF 0x26 c d.code a.code b 0 (modI 0 false ty))
  | .vor c d a b ty => some (srcF 0x27 c d.code a.code b 0 (modI 0 false ty))
  | .vxor c d a b ty => some (srcF 0x28 c d.code a.code b 0 (modI 0 false ty))
  | .vbic c d a b ty => some (srcF 0x29 c d.code a.code b 0 (modI 0 false ty))
  | .vshl c d a b ty sat => some (srcF 0x2A c d.code a.code b 0 (modI 0 sat ty))
  | .vshr c d a b ty => some (srcF 0x2B c d.code a.code b 0 (modI 0 false ty))
  | .vfun c d a b e ty left => some (regF 0x2C c d.code a.code b.code e.code (modI (0#4 ++ bit1 left) false ty))
  | .vbfx c d a b ty => some (srcF 0x2D c d.code a.code b 0 (modI 0 false ty))
  | .vbfi c d a b e ty => some (regF 0x2E c d.code a.code b.code e.code (modI 0 false ty))
  | .vcnt c d a op ty => some (regF 0x2F c d.code a.code 0 0 (modI op.code false ty))
  | .vmin c d a b ty => some (srcF 0x30 c d.code a.code b 0 (modI 0 false ty))
  | .vmax c d a b ty => some (srcF 0x31 c d.code a.code b 0 (modI 0 false ty))
  | .vabsd c d a b ty sat => some (srcF 0x32 c d.code a.code b 0 (modI 0 sat ty))
  | .vcmp c p a b ty cond comb => some (srcF 0x33 c (prfld p) a.code b 0 (modI (comb.code ++ cond.code) false ty))
  | .vsel c d a b ty n neg => some (srcF 0x34 c d.code a.code b 0 (modI (0#1 ++ bit1 neg ++ n) false ty))
  | .vshfl c d a b ty mode all => some (srcF 0x35 c d.code a.code b 0 (modI (bit1 all ++ 0#2 ++ mode.code) false ty))
  | .vmatch c d a ty => some (regF 0x36 c d.code a.code 0 0 (modI 0 false ty))
  | .vscan c d a key ty op excl all sat =>
    some (regF 0x37 c d.code a.code (optCode key) 0 (modI (bit1 all ++ bit1 key.isSome ++ bit1 excl ++ op.code) sat ty))
  | .vaddr c d a b uns sh => some (srcF 0x38 c d.code a.code b 0 (formA (0#2 ++ sh) false 0 (0#3 ++ bit1 uns)))
  | .vprm c d a b e uns => some (regF 0x39 c d.code a.code b.code e.code (formA 0 false 0 (0#3 ++ bit1 uns)))
  | .fadd c d a b ty rm sat => some (srcF 0x40 c d.code a.code b 0 (modF 0 sat rm ty))
  | .fsub c d a b ty rm sat => some (srcF 0x41 c d.code a.code b 0 (modF 0 sat rm ty))
  | .fmul c d a b ty rm sat => some (srcF 0x42 c d.code a.code b 0 (modF 0 sat rm ty))
  | .fma c d a b e ty rm sat => some (regF 0x43 c d.code a.code b.code e.code (modF 0 sat rm ty))
  | .fmin c d a b ty => some (srcF 0x44 c d.code a.code b 0 (modF 0 false .rn ty))
  | .fmax c d a b ty => some (srcF 0x45 c d.code a.code b 0 (modF 0 false .rn ty))
  | .fsgn c d a b ty op => some (srcF 0x46 c d.code a.code b 0 (modF op.code false .rn ty))
  | .fcmp c p a b ty cond comb => some (srcF 0x47 c (prfld p) a.code b 0 (modF (comb.code ++ cond.code) false .rn ty))
  | .fclass c d a ty => some (regF 0x48 c d.code a.code 0 0 (modF 0 false .rn ty))
  | .frcp c d a ty rm sat => some (regF 0x49 c d.code a.code 0 0 (modF 0 sat rm ty))
  | .frsq c d a ty rm sat => some (regF 0x4A c d.code a.code 0 0 (modF 0 sat rm ty))
  | .fsqrt c d a ty rm => some (regF 0x4B c d.code a.code 0 0 (modF 0 false rm ty))
  | .fdiv c d a b ty rm sat => some (srcF 0x4C c d.code a.code b 0 (modF 0 sat rm ty))
  | .fexp2 c d a ty rm sat => some (regF 0x4D c d.code a.code 0 0 (modF 0 sat rm ty))
  | .flog2 c d a ty rm => some (regF 0x4E c d.code a.code 0 0 (modF 0 false rm ty))
  | .ftrig c d a ty cos rm => some (regF 0x4F c d.code a.code 0 0 (modF (0#4 ++ bit1 cos) false rm ty))
  | .frnd c d a ty rm => some (regF 0x50 c d.code a.code 0 0 (modF 0 false rm ty))
  | .cvtf c d a dir ty rm sat => some (regF 0x51 c d.code a.code 0 0 (modF dir.code sat rm ty))
  | .cvti c d a toFloat ity ty rm sat =>
    some (regF 0x52 c d.code a.code 0 0 (modF (bit1 toFloat ++ 0#2 ++ ity.code.extractLsb' 0 2) sat rm ty))
  | .qblk c d a b e fmt ty rm => some (regF 0x53 c d.code a.code b.code e.code (modF fmt.code false rm ty))
  | .dqblk c d a b ty rm sat => some (regF 0x54 c d.code a.code b.code 0 (modF 0 sat rm ty))
  | .hadm c d a ty h32 rm sat => some (regF 0x55 c d.code a.code 0 0 (modF (0#4 ++ bit1 h32) sat rm ty))
  | .fdot c d a b e ty rm sat => some (regF 0x56 c d.code a.code b.code e.code (modF 0 sat rm ty))
  | .fred c d a ty op all rm sat => some (regF 0x57 c d.code a.code 0 0 (modF (bit1 all ++ 0#2 ++ op.code) sat rm ty))
  | .fsrn c d a cls dst ty sat =>
    some (regF 0x58 c d.code a.code cls.code 0 (modF (0#2 ++ dst.code.extractLsb' 0 3) sat .rn ty))
  | .fpack c d a b dst pos ty rm sat =>
    some (regF 0x59 c d.code a.code b.code 0 (modF (pos ++ dst.code.extractLsb' 0 3) sat rm ty))
  | .ldsc c d base off m => some (ldF 0x60 c d base off m)
  | .stsc c base data off tag m => some (stF 0x61 c base data off tag m)
  | .stscPush c e data tag uns ch tagged =>
    some (regF 0x61 c (0#7 ++ e) data.code 0 tag.code (1#1 ++ bit1 tagged ++ 0#5 ++ ch ++ 0#3 ++ bit1 uns))
  | .amsc c d addr b cmp m => some (amF 0x62 c d addr b cmp m)
  | .ldsh c d base off m => some (ldF 0x63 c d base off m)
  | .stsh c base data off tag m => some (stF 0x64 c base data off tag m)
  | .amsh c d addr b cmp m => some (amF 0x65 c d addr b cmp m)
  | .ldcv c d base off m => some (ldF 0x66 c d base off m)
  | .stcv c base data off tag m => some (stF 0x67 c base data off tag m)
  | .amcv c d addr b cmp m => some (amF 0x68 c d addr b cmp m)
  | .lddv c d base off m => some (ldF 0x69 c d base off m)
  | .stdv c base data off tag m => some (stF 0x6A c base data off tag m)
  | .amdv c d addr b cmp m => some (amF 0x6B c d addr b cmp m)
  | .ldpr c d base off m => some (ldF 0x6C c d base off m)
  | .stpr c base data off tag m => some (stF 0x6D c base data off tag m)
  | .ampr c d addr b cmp m => some (amF 0x6E c d addr b cmp m)
  | .ldhs c d base off m => some (ldF 0x6F c d base off m)
  | .sths c base data off tag m => some (stF 0x70 c base data off tag m)
  | .amhs c d addr b cmp m => some (amF 0x71 c d addr b cmp m)
  | .fence c scope => some (regF 0x72 c 0 0 0 0 (0#4 ++ scope.code ++ 0#6))
  | .waitc c ctr n => some (regF 0x73 c 0 0 0 0 (0#1 ++ ctr.code ++ 0#3 ++ n))
  | .barw c conv id => some (regF 0x74 c.full 0 0 0 0 (0#5 ++ (if conv then 2#2 else 1#2) ++ 0#2 ++ id))
  | .waitv c d addr b sp cond w64 sg =>
    some (srcF 0x75 c d.code addr.code b 0 (0#2 ++ bit1 sg ++ bit1 w64 ++ 0#3 ++ cond.code ++ sp.code))
  | .pref c base off l1 => some (srcF 0x76 c 0 base.code off 0 (0#12 ++ bit1 l1))
  | .disc c base off => some (srcF 0x77 c 0 base.code off 0 0)
  | .smap c slot g o n => some (regF 0x78 c 0 g.code o.code n.code (0#11 ++ slot))
  | .smapUnb c slot => some (regF 0x78 c 0 0 0 0 (1#11 ++ slot))
  | .swb c a n => some (srcF 0x79 c 0 a.code n 0 0)
  | .cctl c a n op => some (srcF 0x7A c 0 a.code n 0 (0#11 ++ op.code))
  | .evpop c d hdr ring nb => some (regF 0x7B c d.code hdr.code 0 0 (0#11 ++ bit1 nb ++ bit1 ring))
  | .mres c pd sel kd => some (regF 0x80 c (prfld pd) 0 (optCode kd) 0 (0#9 ++ bit1 kd.isSome ++ sel.code))
  | .mresGrv c pd => some (regF 0x80 c (prfld pd) 0 0 0 5)
  | .mrel c e => some (regF 0x81 c 0 0 0 0 (0#11 ++ e))
  | .mrelGrv c => some (regF 0x81 c 0 0 0 0 5)
  | .mldb c e page addr saddr =>
    some (regF 0x82 c (pfld page) addr.code (optCode saddr) 0 (e ++ 0#10 ++ bit1 saddr.isSome))
  | .mring c e base cnt sbase => some (regF 0x83 c 0 base.code cnt.code sbase.code (e ++ 0#11))
  | .mma c e cls w0 page m sh boff =>
    some (regF 0x84 c w0 (pfld page) m.code (optCode boff)
      (e ++ 0#5 ++ bit1 boff.isSome ++ (sh.getD 0) ++ bit1 sh.isSome ++ cls.code))
  | .mcmt c e g cond => some (regF 0x85 c 0 cond.code 0 0 (e ++ 0#9 ++ g))
  | .mzero c e w0 n d64 => some (srcF 0x86 c w0 0 n 0 (e ++ 0#10 ++ bit1 d64))
  | .mstc c e w0 addr n stride => some (regF 0x87 c w0 addr.code n.code stride.code (e ++ 0#11))
  | .mldc c e w0 addr n stride d64 => some (regF 0x88 c w0 addr.code n.code stride.code (e ++ 0#10 ++ bit1 d64))
  | .mfnc c d => some (regF 0x89 c d.code 0 0 0 0)
  | .mwait c b => some (srcF 0x8A c 0 0 b 0 0)
  | .taskq c addr => some (regF 0x8B c 0 addr.code 0 0 0)
  | .tsten c w h mask => some (regF 0x8C c 0 w.code h.code mask.code 0)
  | .aownRd c e d w => some (regF 0x8D c d.code w 0 0 (e ++ 0#11))
  | .aownWr c e w a => some (regF 0x8D c w a.code 0 0 (e ++ 1#11))
  | .ggen c gd vn cls bip x => some (regF 0x90 c (gfld gd) vn.code 0 0 (0#5 ++ bit1 x ++ bit1 bip ++ cls))
  | .gcnt c vd gs kind => some (regF 0x91 c vd.code (gfld gs) 0 0 (0#11 ++ kind.code))
  | .gand c gd ga gb cor => some (regF 0x92 c (gfld gd) (gfld ga) (gfld gb) 0 (0#12 ++ bit1 cor))
  | .gxnr c gd ga gb cor => some (regF 0x93 c (gfld gd) (gfld ga) (gfld gb) 0 (0#12 ++ bit1 cor))
  | .gmux c gd ga gb gs cor => some (regF 0x94 c (gfld gd) (gfld ga) (gfld gb) (gfld gs) (0#12 ++ bit1 cor))
  | .gacc c vd ga n => some (regF 0x95 c vd.code (gfld ga) 0 0 (0#8 ++ n))
  | .greg c gd gs cls => some (regF 0x96 c (gfld gd) (gfld gs) 0 0 (0#7 ++ cls))
  | .gshf c gd gs r => some (srcF 0x97 c (gfld gd) (gfld gs) r 0 0)
  | .gcmp c d gs vn first => some (regF 0x98 c d.code (gfld gs) vn.code 0 (0#12 ++ bit1 first))
  | .glen c l => some (srcF 0x99 c 0 0 l 0 0)
  | .gseed c cls value => some (srcF 0x9A c 0 0 value 0 (0#7 ++ cls))
  | .gmov c gd gs => some (regF 0x9B c (gfld gd) (gfld gs) 0 0 0)
  | .gmovLd c gd ka => some (regF 0x9B c (gfld gd) ka.code 0 0 1)
  | .gmovSt c ka gs => some (regF 0x9B c ka.code (gfld gs) 0 0 2)
  | .copy c dst src n mask dsp ssp cv mc =>
    some (srcF 0xA0 c dst.code src.code n mask.code (0#2 ++ bit1 mc ++ cv.code ++ ssp.code ++ dsp.code))
  | .cpy2 c dst src kg dsp ssp => some (regF 0xA1 c dst.code src.code kg.code 0 (0#7 ++ ssp.code ++ dsp.code))
  | .task c entry arg kh => some (regF 0xA2 c 0 entry.code arg.code kh.code 0)
  | .sgnl c addr b set scope => some (regF 0xA3 c 0 addr.code b.code 0 (0#4 ++ scope.code ++ 0#5 ++ bit1 set))
  | .grid c rec q => some (srcF 0xA4 c 0 rec.code q 0 0)
  | .cmsg c addr kw => some (regF 0xA5 c 0 addr.code kw.code 0 0)
  | .cbuf c pd hdr kw nb => some (regF 0xA6 c (prfld pd) hdr.code kw.code 0 (0#12 ++ bit1 nb))
  | .coll c dst src n kg op ty root =>
    some (regF 0xA7 c dst.code src.code n.code kg.code (root ++ ty.code ++ op.code))
  | .trap c imm => some (regF 0xB0 c 0 0 0 0 (0#7 ++ imm))
  | .rte c => some (regF 0xB1 c.full 0 0 0 0 0)
  | .sysr c d idx => some (regF 0xB2 c d.code 0 0 0 (0#7 ++ idx))
  | .sysw c idx a => some (regF 0xB3 c 0 a.code 0 0 (0#7 ++ idx))
  | .probe c d addr sp kind => some (regF 0xB4 c d.code addr.code 0 0 (0#8 ++ kind.code ++ sp.code))
  | .achk c => some (regF 0xB5 c 0 0 0 0 0)
  | _ => none

/-! ### The Cairn words (07 R127 to R130, Table 7-2; RV64IMC, Zicsr, Zifencei) -/

/-- R-type. -/
def rvR (f7 : BitVec 7) (rs2 rs1 : BitVec 5) (f3 : BitVec 3) (rd : BitVec 5) (opc : BitVec 7) : Word :=
  f7 ++ rs2 ++ rs1 ++ f3 ++ rd ++ opc
/-- I-type. -/
def rvI (imm : BitVec 12) (rs1 : BitVec 5) (f3 : BitVec 3) (rd : BitVec 5) (opc : BitVec 7) : Word :=
  imm ++ rs1 ++ f3 ++ rd ++ opc
/-- S-type. -/
def rvS (imm : BitVec 12) (rs2 rs1 : BitVec 5) (f3 : BitVec 3) (opc : BitVec 7) : Word :=
  imm.extractLsb' 5 7 ++ rs2 ++ rs1 ++ f3 ++ imm.extractLsb' 0 5 ++ opc
/-- B-type. -/
def rvB (off : BitVec 13) (rs2 rs1 : BitVec 5) (f3 : BitVec 3) (opc : BitVec 7) : Word :=
  off.extractLsb' 12 1 ++ off.extractLsb' 5 6 ++ rs2 ++ rs1 ++ f3 ++ off.extractLsb' 1 4 ++ off.extractLsb' 11 1 ++ opc
/-- J-type. -/
def rvJ (off : BitVec 21) (rd : BitVec 5) (opc : BitVec 7) : Word :=
  off.extractLsb' 20 1 ++ off.extractLsb' 1 10 ++ off.extractLsb' 11 1 ++ off.extractLsb' 12 8 ++ rd ++ opc

/-- funct7, funct3 and whether it is a word operation. -/
def RvOp.code : RvOp → BitVec 7 × BitVec 3 × Bool
  | .add => (0, 0, false) | .sub => (32, 0, false) | .sll => (0, 1, false) | .slt => (0, 2, false)
  | .sltu => (0, 3, false) | .xor => (0, 4, false) | .srl => (0, 5, false) | .sra => (32, 5, false)
  | .or => (0, 6, false) | .and => (0, 7, false)
  | .mul => (1, 0, false) | .mulh => (1, 1, false) | .mulhsu => (1, 2, false) | .mulhu => (1, 3, false)
  | .div => (1, 4, false) | .divu => (1, 5, false) | .rem => (1, 6, false) | .remu => (1, 7, false)
  | .addw => (0, 0, true) | .subw => (32, 0, true) | .sllw => (0, 1, true) | .srlw => (0, 5, true)
  | .sraw => (32, 5, true) | .mulw => (1, 0, true) | .divw => (1, 4, true) | .divuw => (1, 5, true)
  | .remw => (1, 6, true) | .remuw => (1, 7, true)

/-- The operation of OP or OP-32 with these function codes. -/
def RvOp.ofCode (f7 : BitVec 7) (f3 : BitVec 3) (w : Bool) : Option RvOp :=
  match w, f7.toNat, f3.toNat with
  | false, 0, 0 => some .add | false, 32, 0 => some .sub | false, 0, 1 => some .sll | false, 0, 2 => some .slt
  | false, 0, 3 => some .sltu | false, 0, 4 => some .xor | false, 0, 5 => some .srl | false, 32, 5 => some .sra
  | false, 0, 6 => some .or | false, 0, 7 => some .and
  | false, 1, 0 => some .mul | false, 1, 1 => some .mulh | false, 1, 2 => some .mulhsu | false, 1, 3 => some .mulhu
  | false, 1, 4 => some .div | false, 1, 5 => some .divu | false, 1, 6 => some .rem | false, 1, 7 => some .remu
  | true, 0, 0 => some .addw | true, 32, 0 => some .subw | true, 0, 1 => some .sllw | true, 0, 5 => some .srlw
  | true, 32, 5 => some .sraw | true, 1, 0 => some .mulw | true, 1, 4 => some .divw | true, 1, 5 => some .divuw
  | true, 1, 6 => some .remw | true, 1, 7 => some .remuw
  | _, _, _ => none

/-- funct3 of the branches. -/
def RvBr.code : RvBr → BitVec 3
  | .beq => 0 | .bne => 1 | .blt => 4 | .bge => 5 | .bltu => 6 | .bgeu => 7
/-- The branch of a funct3. -/
def RvBr.ofCode (c : BitVec 3) : Option RvBr :=
  match c.toNat with
  | 0 => some .beq | 1 => some .bne | 4 => some .blt | 5 => some .bge | 6 => some .bltu | 7 => some .bgeu | _ => none
/-- funct3 of the loads. -/
def RvLd.code : RvLd → BitVec 3
  | .lb => 0 | .lh => 1 | .lw => 2 | .ld => 3 | .lbu => 4 | .lhu => 5 | .lwu => 6
/-- The load of a funct3. -/
def RvLd.ofCode (c : BitVec 3) : Option RvLd :=
  match c.toNat with
  | 0 => some .lb | 1 => some .lh | 2 => some .lw | 3 => some .ld | 4 => some .lbu | 5 => some .lhu | 6 => some .lwu
  | _ => none
/-- funct3 of the stores. -/
def RvSt.code : RvSt → BitVec 3
  | .sb => 0 | .sh => 1 | .sw => 2 | .sd => 3
/-- The store of a funct3. -/
def RvSt.ofCode (c : BitVec 3) : Option RvSt :=
  match c.toNat with
  | 0 => some .sb | 1 => some .sh | 2 => some .sw | 3 => some .sd | _ => none
/-- funct7 of cln.atom (07 Table 7-3). -/
def ClnAtom.code : ClnAtom → BitVec 7
  | .add => 0 | .and => 1 | .or => 2 | .xor => 3 | .smin => 4 | .smax => 5 | .umin => 6 | .umax => 7 | .swap => 8
/-- The operation of a funct7. -/
def ClnAtom.ofCode (c : BitVec 7) : Option ClnAtom :=
  match c.toNat with
  | 0 => some .add | 1 => some .and | 2 => some .or | 3 => some .xor | 4 => some .smin | 5 => some .smax
  | 6 => some .umin | 7 => some .umax | 8 => some .swap | _ => none
/-- Counter numbers (07 R129). -/
def RvCsr.code : RvCsr → BitVec 12
  | .cycle => 0xC00 | .time => 0xC01 | .instret => 0xC02
/-- The counter of a CSR number; every other CSR is illegal (07 R129). -/
def RvCsr.ofCode (c : BitVec 12) : Option RvCsr :=
  match c.toNat with
  | 0xC00 => some .cycle | 0xC01 => some .time | 0xC02 => some .instret | _ => none

/-- The 32-bit word of a base instruction. -/
def RvInstr.word : RvInstr → Word
  | .lui rd imm => imm ++ rd ++ 0b0110111#7
  | .auipc rd imm => imm ++ rd ++ 0b0010111#7
  | .jal rd off => rvJ off rd 0b1101111
  | .jalr rd rs1 imm => rvI imm rs1 0 rd 0b1100111
  | .branch op rs1 rs2 off => rvB off rs2 rs1 op.code 0b1100011
  | .load op rd rs1 imm => rvI imm rs1 op.code rd 0b0000011
  | .store op rs1 rs2 imm => rvS imm rs2 rs1 op.code 0b0100011
  | .opImm op rd rs1 imm =>
    match op with
    | .addi => rvI imm rs1 0 rd 0b0010011
    | .slti => rvI imm rs1 2 rd 0b0010011
    | .sltiu => rvI imm rs1 3 rd 0b0010011
    | .xori => rvI imm rs1 4 rd 0b0010011
    | .ori => rvI imm rs1 6 rd 0b0010011
    | .andi => rvI imm rs1 7 rd 0b0010011
    | .addiw => rvI imm rs1 0 rd 0b0011011
  | .shImm op rd rs1 sh =>
    match op with
    | .slli => rvI (0#6 ++ sh) rs1 1 rd 0b0010011
    | .srli => rvI (0#6 ++ sh) rs1 5 rd 0b0010011
    | .srai => rvI (0b010000#6 ++ sh) rs1 5 rd 0b0010011
    | .slliw => rvI (0#6 ++ sh) rs1 1 rd 0b0011011
    | .srliw => rvI (0#6 ++ sh) rs1 5 rd 0b0011011
    | .sraiw => rvI (0b010000#6 ++ sh) rs1 5 rd 0b0011011
  | .opReg op rd rs1 rs2 =>
    rvR op.code.1 rs2 rs1 op.code.2.1 rd (if op.code.2.2 then 0b0111011 else 0b0110011)
  | .fence rd rs1 imm => rvI imm rs1 0 rd 0b0001111
  | .fenceI rd rs1 imm => rvI imm rs1 1 rd 0b0001111
  | .csrRead csr clear rd => rvI csr.code 0 (if clear then 3 else 2) rd 0b1110011

/-- custom-0 and custom-1 (07 R130). -/
def custom0 : BitVec 7 := 0b0001011
/-- custom-1. -/
def custom1 : BitVec 7 := 0b0101011

/-- The word of a 32-bit Cairn instruction; none for every other row. -/
def Instr.cairnWord : Instr → Option Word
  | .clnRd rd rs1 imm => some (rvI imm rs1 0 rd custom0)
  | .clnGet rd imm => some (rvI imm 0 1 rd custom0)
  | .clnBud rd => some (rvI 0 0 2 rd custom0)
  | .clnDone act => some (rvI act 0 4 0 custom0)
  | .clnKeep rd prio => some (rvI prio 0 5 rd custom0)
  | .clnDrop => some (rvI 0 0 6 0 custom0)
  | .clnWr rs1 rs2 imm => some (rvS imm rs2 rs1 0 custom1)
  | .clnReq rd rs1 rs2 => some (rvR 0 rs2 rs1 1 rd custom1)
  | .clnFwd rd rs1 rs2 => some (rvR 0 rs2 rs1 2 rd custom1)
  | .clnRply rs1 => some (rvR 0 0 rs1 3 0 custom1)
  | .clnAtom op rd rs1 rs2 => some (rvR op.code rs2 rs1 4 rd custom1)
  | .clnEvq rd rs1 rs2 => some (rvR 0 rs2 rs1 5 rd custom1)
  | .cairnBase i false => some i.word
  | _ => none

/-- Decoding of custom-0. -/
def decodeCustom0 (w : Word) : Option Instr :=
  let rd := w.extractLsb' 7 5
  let rs1 := w.extractLsb' 15 5
  let imm := w.extractLsb' 20 12
  match (w.extractLsb' 12 3).toNat with
  | 0 => some (.clnRd rd rs1 imm)
  | 1 => if rs1 = 0 then some (.clnGet rd imm) else none
  | 2 => if rs1 = 0 ∧ imm = 0 then some (.clnBud rd) else none
  | 4 => if rd = 0 ∧ rs1 = 0 then some (.clnDone imm) else none
  | 5 => if rs1 = 0 then some (.clnKeep rd imm) else none
  | 6 => if rd = 0 ∧ rs1 = 0 ∧ imm = 0 then some .clnDrop else none
  | _ => none

/-- Decoding of custom-1. -/
def decodeCustom1 (w : Word) : Option Instr :=
  let rd := w.extractLsb' 7 5
  let rs1 := w.extractLsb' 15 5
  let rs2 := w.extractLsb' 20 5
  let f7 := w.extractLsb' 25 7
  match (w.extractLsb' 12 3).toNat with
  | 0 => some (.clnWr rs1 rs2 (f7 ++ rd))
  | 1 => if f7 = 0 then some (.clnReq rd rs1 rs2) else none
  | 2 => if f7 = 0 then some (.clnFwd rd rs1 rs2) else none
  | 3 => if f7 = 0 ∧ rd = 0 ∧ rs2 = 0 then some (.clnRply rs1) else none
  | 4 => (ClnAtom.ofCode f7).map fun op => .clnAtom op rd rs1 rs2
  | 5 => if f7 = 0 then some (.clnEvq rd rs1 rs2) else none
  | _ => none

/-- Decoding of the base opcodes: none is an illegal instruction (07 R127). -/
def decodeRv (w : Word) : Option RvInstr :=
  let rd := w.extractLsb' 7 5
  let f3 := w.extractLsb' 12 3
  let rs1 := w.extractLsb' 15 5
  let rs2 := w.extractLsb' 20 5
  let f7 := w.extractLsb' 25 7
  let imm := w.extractLsb' 20 12
  let sh := w.extractLsb' 20 6
  let f6 := w.extractLsb' 26 6
  match (w.extractLsb' 0 7).toNat with
  | 0b0110111 => some (.lui rd (w.extractLsb' 12 20))
  | 0b0010111 => some (.auipc rd (w.extractLsb' 12 20))
  | 0b1101111 => some (.jal rd (w.extractLsb' 31 1 ++ w.extractLsb' 12 8 ++ w.extractLsb' 20 1 ++ w.extractLsb' 21 10 ++ 0#1))
  | 0b1100111 => if f3 = 0 then some (.jalr rd rs1 imm) else none
  | 0b1100011 => (RvBr.ofCode f3).map fun op =>
      .branch op rs1 rs2 (w.extractLsb' 31 1 ++ w.extractLsb' 7 1 ++ w.extractLsb' 25 6 ++ w.extractLsb' 8 4 ++ 0#1)
  | 0b0000011 => (RvLd.ofCode f3).map fun op => .load op rd rs1 imm
  | 0b0100011 => (RvSt.ofCode f3).map fun op => .store op rs1 rs2 (f7 ++ rd)
  | 0b0010011 =>
    match f3.toNat with
    | 0 => some (.opImm .addi rd rs1 imm)
    | 1 => if f6 = 0 then some (.shImm .slli rd rs1 sh) else none
    | 2 => some (.opImm .slti rd rs1 imm)
    | 3 => some (.opImm .sltiu rd rs1 imm)
    | 4 => some (.opImm .xori rd rs1 imm)
    | 5 => if f6 = 0 then some (.shImm .srli rd rs1 sh) else if f6 = 16 then some (.shImm .srai rd rs1 sh) else none
    | 6 => some (.opImm .ori rd rs1 imm)
    | _ => some (.opImm .andi rd rs1 imm)
  | 0b0011011 =>
    match f3.toNat with
    | 0 => some (.opImm .addiw rd rs1 imm)
    | 1 => if f7 = 0 then some (.shImm .slliw rd rs1 sh) else none
    | 5 => if f7 = 0 then some (.shImm .srliw rd rs1 sh) else if f7 = 32 then some (.shImm .sraiw rd rs1 sh) else none
    | _ => none
  | 0b0110011 => (RvOp.ofCode f7 f3 false).map fun op => .opReg op rd rs1 rs2
  | 0b0111011 => (RvOp.ofCode f7 f3 true).map fun op => .opReg op rd rs1 rs2
  | 0b0001111 => if f3 = 0 then some (.fence rd rs1 imm) else if f3 = 1 then some (.fenceI rd rs1 imm) else none
  | 0b1110011 =>
    if (f3 = 2 ∨ f3 = 3) ∧ rs1 = 0 then (RvCsr.ofCode imm).map fun csr => .csrRead csr (f3 == 3) rd else none
  | _ => none

/-- Decoding of a 32-bit Cairn word (bits 1:0 are 11). -/
def decodeCairn (w : Word) : Option Instr :=
  if w.extractLsb' 0 7 = custom0 then decodeCustom0 w
  else if w.extractLsb' 0 7 = custom1 then decodeCustom1 w
  else (decodeRv w).map fun i => .cairnBase i false

/-! ### Compressed parcels (RV64C without the floating-point and hint-free reserved encodings) -/

/-- A register of the three-bit fields, x8 to x15. -/
def rvc3 (r : BitVec 3) : BitVec 5 := 0b01#2 ++ r

/-- The base instruction that a 16-bit parcel stands for; none for a reserved encoding or one outside the set
(07 R127). -/
def decodeParcel (p : BitVec 16) : Option RvInstr :=
  let b (i n : Nat) : BitVec n := p.extractLsb' i n
  let rd := b 7 5
  let rs2 := b 2 5
  let rdS := rvc3 (b 2 3)
  let rs1S := rvc3 (b 7 3)
  let imm6 : BitVec 6 := b 12 1 ++ b 2 5
  let imm12 := imm6.signExtend 12
  let lw : BitVec 12 := 0#5 ++ b 5 1 ++ b 10 3 ++ b 6 1 ++ 0#2
  let ld : BitVec 12 := 0#4 ++ b 5 2 ++ b 10 3 ++ 0#3
  match (b 0 2).toNat, (b 13 3).toNat with
  | 0, 0 =>
    let imm : BitVec 10 := b 7 4 ++ b 11 2 ++ b 5 1 ++ b 6 1 ++ 0#2
    if imm = 0 then none else some (.opImm .addi rdS 2 (imm.zeroExtend 12))
  | 0, 2 => some (.load .lw rdS rs1S lw)
  | 0, 3 => some (.load .ld rdS rs1S ld)
  | 0, 6 => some (.store .sw rs1S rdS lw)
  | 0, 7 => some (.store .sd rs1S rdS ld)
  | 1, 0 => some (.opImm .addi rd rd imm12)
  | 1, 1 => if rd = 0 then none else some (.opImm .addiw rd rd imm12)
  | 1, 2 => some (.opImm .addi rd 0 imm12)
  | 1, 3 =>
    if rd = 2 then
      let imm : BitVec 10 := b 12 1 ++ b 3 2 ++ b 5 1 ++ b 2 1 ++ b 6 1 ++ 0#4
      if imm = 0 then none else some (.opImm .addi 2 2 (imm.signExtend 12))
    else if imm6 = 0 then none else some (.lui rd (imm6.signExtend 20))
  | 1, 4 =>
    match (b 10 2).toNat with
    | 0 => some (.shImm .srli rs1S rs1S imm6)
    | 1 => some (.shImm .srai rs1S rs1S imm6)
    | 2 => some (.opImm .andi rs1S rs1S imm12)
    | _ =>
      match (b 12 1).toNat, (b 5 2).toNat with
      | 0, 0 => some (.opReg .sub rs1S rs1S rdS)
      | 0, 1 => some (.opReg .xor rs1S rs1S rdS)
      | 0, 2 => some (.opReg .or rs1S rs1S rdS)
      | 0, _ => some (.opReg .and rs1S rs1S rdS)
      | _, 0 => some (.opReg .subw rs1S rs1S rdS)
      | _, 1 => some (.opReg .addw rs1S rs1S rdS)
      | _, _ => none
  | 1, 5 =>
    let off : BitVec 12 := b 12 1 ++ b 8 1 ++ b 9 2 ++ b 6 1 ++ b 7 1 ++ b 2 1 ++ b 11 1 ++ b 3 3 ++ 0#1
    some (.jal 0 (off.signExtend 21))
  | 1, n + 6 =>
    let off : BitVec 9 := b 12 1 ++ b 5 2 ++ b 2 1 ++ b 10 2 ++ b 3 2 ++ 0#1
    some (.branch (if n = 0 then .beq else .bne) rs1S 0 (off.signExtend 13))
  | 2, 0 => some (.shImm .slli rd rd imm6)
  | 2, 2 => if rd = 0 then none else some (.load .lw rd 2 (0#4 ++ b 2 2 ++ b 12 1 ++ b 4 3 ++ 0#2))
  | 2, 3 => if rd = 0 then none else some (.load .ld rd 2 (0#3 ++ b 2 3 ++ b 12 1 ++ b 5 2 ++ 0#3))
  | 2, 4 =>
    if b 12 1 = 0 then
      if rs2 = 0 then (if rd = 0 then none else some (.jalr 0 rd 0)) else some (.opReg .add rd 0 rs2)
    else if rs2 = 0 then (if rd = 0 then none else some (.jalr 1 rd 0)) else some (.opReg .add rd rd rs2)
  | 2, 6 => some (.store .sw 2 rs2 (0#4 ++ b 7 2 ++ b 9 4 ++ 0#2))
  | 2, 7 => some (.store .sd 2 rs2 (0#3 ++ b 7 3 ++ b 10 3 ++ 0#3))
  | _, _ => none

/-- The parcel of a base instruction that has one (`RvInstr.hasShort`). Where two parcels stand for one instruction,
the general form is chosen. -/
def RvInstr.parcel : RvInstr → Option (BitVec 16)
  | .lui rd imm => some (0b011#3 ++ imm.extractLsb' 5 1 ++ rd ++ imm.extractLsb' 0 5 ++ 0b01#2)
  | .jal _ off =>
    let o (i n : Nat) : BitVec n := off.extractLsb' i n
    some (0b101#3 ++ o 11 1 ++ o 4 1 ++ o 8 2 ++ o 10 1 ++ o 6 1 ++ o 7 1 ++ o 1 3 ++ o 5 1 ++ 0b01#2)
  | .jalr rd rs1 _ => some (0b100#3 ++ (if rd = 0 then 0#1 else 1#1) ++ rs1 ++ 0#5 ++ 0b10#2)
  | .branch op rs1 _ off =>
    let o (i n : Nat) : BitVec n := off.extractLsb' i n
    some (0b11#2 ++ (if op = .beq then 0#1 else 1#1) ++ o 8 1 ++ o 3 2 ++ rs1.extractLsb' 0 3 ++ o 6 2 ++ o 1 2 ++ o 5 1 ++
      0b01#2)
  | .load op rd rs1 imm =>
    let o (i n : Nat) : BitVec n := imm.extractLsb' i n
    match op with
    | .lw =>
      if rs1 = 2 then some (0b010#3 ++ o 5 1 ++ rd ++ o 2 3 ++ o 6 2 ++ 0b10#2)
      else some (0b010#3 ++ o 3 3 ++ rs1.extractLsb' 0 3 ++ o 2 1 ++ o 6 1 ++ rd.extractLsb' 0 3 ++ 0b00#2)
    | .ld =>
      if rs1 = 2 then some (0b011#3 ++ o 5 1 ++ rd ++ o 3 2 ++ o 6 3 ++ 0b10#2)
      else some (0b011#3 ++ o 3 3 ++ rs1.extractLsb' 0 3 ++ o 6 2 ++ rd.extractLsb' 0 3 ++ 0b00#2)
    | .lb | .lh | .lbu | .lhu | .lwu => none
  | .store op rs1 rs2 imm =>
    let o (i n : Nat) : BitVec n := imm.extractLsb' i n
    match op with
    | .sw =>
      if rs1 = 2 then some (0b110#3 ++ o 2 4 ++ o 6 2 ++ rs2 ++ 0b10#2)
      else some (0b110#3 ++ o 3 3 ++ rs1.extractLsb' 0 3 ++ o 2 1 ++ o 6 1 ++ rs2.extractLsb' 0 3 ++ 0b00#2)
    | .sd =>
      if rs1 = 2 then some (0b111#3 ++ o 3 3 ++ o 6 3 ++ rs2 ++ 0b10#2)
      else some (0b111#3 ++ o 3 3 ++ rs1.extractLsb' 0 3 ++ o 6 2 ++ rs2.extractLsb' 0 3 ++ 0b00#2)
    | .sb | .sh => none
  | .opImm op rd rs1 imm =>
    let o (i n : Nat) : BitVec n := imm.extractLsb' i n
    match op with
    | .addi =>
      if (rs1 = rd ∨ rs1 = 0) ∧ (imm.extractLsb' 0 6).signExtend 12 = imm then
        some ((if rs1 = rd then 0b000#3 else 0b010#3) ++ o 5 1 ++ rd ++ o 0 5 ++ 0b01#2)
      else if rd = 2 ∧ rs1 = 2 ∧ o 0 4 = 0 ∧ (imm.extractLsb' 0 10).signExtend 12 = imm then
        some (0b011#3 ++ o 9 1 ++ 2#5 ++ o 4 1 ++ o 6 1 ++ o 7 2 ++ o 5 1 ++ 0b01#2)
      else some (0b000#3 ++ o 4 2 ++ o 6 4 ++ o 2 1 ++ o 3 1 ++ rd.extractLsb' 0 3 ++ 0b00#2)
    | .addiw => some (0b001#3 ++ o 5 1 ++ rd ++ o 0 5 ++ 0b01#2)
    | .andi => some (0b100#3 ++ o 5 1 ++ 0b10#2 ++ rd.extractLsb' 0 3 ++ o 0 5 ++ 0b01#2)
    | .slti | .sltiu | .xori | .ori => none
  | .shImm op rd _ sh =>
    let o (i n : Nat) : BitVec n := sh.extractLsb' i n
    match op with
    | .slli => some (0b000#3 ++ o 5 1 ++ rd ++ o 0 5 ++ 0b10#2)
    | .srli => some (0b100#3 ++ o 5 1 ++ 0b00#2 ++ rd.extractLsb' 0 3 ++ o 0 5 ++ 0b01#2)
    | .srai => some (0b100#3 ++ o 5 1 ++ 0b01#2 ++ rd.extractLsb' 0 3 ++ o 0 5 ++ 0b01#2)
    | .slliw | .srliw | .sraiw => none
  | .opReg op rd rs1 rs2 =>
    let s := rs2.extractLsb' 0 3
    let r := rd.extractLsb' 0 3
    match op with
    | .add => some (0b100#3 ++ (if rs1 = 0 then 0#1 else 1#1) ++ rd ++ rs2 ++ 0b10#2)
    | .sub => some (0b100011#6 ++ r ++ 0b00#2 ++ s ++ 0b01#2)
    | .xor => some (0b100011#6 ++ r ++ 0b01#2 ++ s ++ 0b01#2)
    | .or => some (0b100011#6 ++ r ++ 0b10#2 ++ s ++ 0b01#2)
    | .and => some (0b100011#6 ++ r ++ 0b11#2 ++ s ++ 0b01#2)
    | .subw => some (0b100111#6 ++ r ++ 0b00#2 ++ s ++ 0b01#2)
    | .addw => some (0b100111#6 ++ r ++ 0b01#2 ++ s ++ 0b01#2)
    | _ => none
  | .auipc _ _ | .fence _ _ _ | .fenceI _ _ _ | .csrRead _ _ _ => none

/-! ### All words -/

/-- The code that stands for an instruction in memory. -/
inductive Code where
  | kalgil (w : DWord)
  | cairn (w : Word)
  | parcel (p : BitVec 16)
  deriving DecidableEq, Repr

/-- The encoder: none for the device's own steps. -/
def encode (i : Instr) : Option Code :=
  match i with
  | .unassignedOpcode w => some (.kalgil w)
  | .cairnBase r true => r.parcel.map .parcel
  | _ =>
    match i.fields with
    | some f => some (.kalgil f.pack)
    | none => i.cairnWord.map .cairn

/-- The decoder of a code: what the fetch of each kind of core gives (step adds the names of the failures). -/
def decodeCode : Code → Option Instr
  | .kalgil w =>
    match decode w with
    | .ok i => some i
    | .error _ => none
  | .cairn w => decodeCairn w
  | .parcel p => (decodeParcel p).map fun i => .cairnBase i true

/-- The instruction that the decoder reads from a table row's bits: 64-bit words are Kalgil's, 32-bit words and 16-bit
parcels a Cairn core's. -/
def decodeTableWord (nbits w : Nat) : Option Instr :=
  if nbits = 64 then decodeCode (.kalgil (BitVec.ofNat 64 w))
  else if nbits = 32 then decodeCode (.cairn (BitVec.ofNat 32 w))
  else if nbits = 16 then decodeCode (.parcel (BitVec.ofNat 16 w))
  else none

end Sys2Proof
end

