-- ==== Sys2Proof/Machine/Num.lean ====
section
/-!
DEFINITION. Sys2Proof/Machine/Num.lean: the number formats and their exact arithmetic (10 R177 to R184): a bit pattern's
value, the exact sum and product, and the one rounding of a result.
-/
namespace Sys2Proof

open Sys2Proof.Machine

/-- How a format writes infinity and NaN (10 Table 10-1): as IEEE 754, as E4M3 (no infinity, one NaN magnitude), or not
at all (E2M1). -/
inductive Specials where
  | ieee | e4m3 | none
  deriving DecidableEq, Repr

/-- A floating format: exponent and fraction widths; the bias is 2^(eb−1) − 1 (10 Table 10-1). -/
structure Fmt where
  eb : Nat
  fb : Nat
  sp : Specials
  deriving DecidableEq, Repr

/-- The format of a code (12 R228, 10 Table 10-1). -/
def FCode.fmt : FCode → Fmt
  | .fp32 => ⟨8, 23, .ieee⟩ | .fp64 => ⟨11, 52, .ieee⟩ | .fp16 => ⟨5, 10, .ieee⟩ | .bf16 => ⟨8, 7, .ieee⟩
  | .e4m3 => ⟨4, 3, .e4m3⟩ | .e5m2 => ⟨5, 2, .ieee⟩ | .e2m1 => ⟨2, 1, .none⟩

/-- The format of a type (09 Table 9-6). -/
def FTy.fcode : FTy → FCode
  | .f => .fp32 | .d => .fp64 | .h => .fp16 | .b => .bf16

/-- The format of a type. -/
def FTy.fmt (t : FTy) : Fmt := FCode.fmt (FTy.fcode t)

/-- An exact value: NaN, an infinity, or (−1)^neg · m · 2^e. -/
inductive FVal where
  | nan
  | inf (neg : Bool)
  | fin (neg : Bool) (m : Nat) (e : Int)
  deriving DecidableEq, Repr

/-- The bias. -/
def Fmt.bias (f : Fmt) : Int := 2 ^ (f.eb - 1) - 1
/-- The position of the sign bit. -/
def Fmt.top (f : Fmt) : Nat := f.eb + f.fb
/-- The magnitude bits of the largest finite value (10 Table 10-1). -/
def Fmt.maxMag (f : Fmt) : Nat :=
  match f.sp with
  | .ieee => (2 ^ f.eb - 1) * 2 ^ f.fb - 1
  | .e4m3 => 2 ^ f.top - 2
  | .none => 2 ^ f.top - 1
/-- The magnitude bits of infinity, where the format has one. -/
def Fmt.infMag (f : Fmt) : Nat := (2 ^ f.eb - 1) * 2 ^ f.fb
/-- The canonical NaN (10 Table 10-1); a NaN converted to E2M1 is +0 (10 R183). -/
def Fmt.nanBits (f : Fmt) : Nat :=
  match f.sp with
  | .ieee => f.infMag + 2 ^ (f.fb - 1)
  | .e4m3 => 2 ^ f.top - 1
  | .none => 0
/-- Sign bit and magnitude bits joined. -/
def Fmt.join (f : Fmt) (neg : Bool) (mag : Nat) : Nat := (if neg then 2 ^ f.top else 0) + mag

/-- The sign of a pattern. -/
def Fmt.signOf (f : Fmt) (c : Nat) : Bool := c / 2 ^ f.top % 2 == 1
/-- The magnitude bits of a pattern. -/
def Fmt.magOf (f : Fmt) (c : Nat) : Nat := c % 2 ^ f.top
/-- Whether a pattern is a NaN (10 R177). -/
def Fmt.isNan (f : Fmt) (c : Nat) : Bool :=
  match f.sp with
  | .ieee => f.infMag < f.magOf c
  | .e4m3 => f.magOf c == f.nanBits
  | .none => false
/-- Whether a pattern is an infinity. -/
def Fmt.isInf (f : Fmt) (c : Nat) : Bool := f.sp == .ieee && f.magOf c == f.infMag

/-- The value of a pattern (10 R177): F · 2^E with the hidden bit where the exponent field is not 0. -/
def Fmt.value (f : Fmt) (c : Nat) : FVal :=
  if f.isNan c then .nan
  else if f.isInf c then .inf (f.signOf c)
  else
    let x := f.magOf c / 2 ^ f.fb
    let frac := f.magOf c % 2 ^ f.fb
    if x = 0 then .fin (f.signOf c) frac (1 - f.bias - f.fb)
    else .fin (f.signOf c) (2 ^ f.fb + frac) (x - f.bias - f.fb)

/-- Whether the significand goes up by one, given the dropped remainder `r` of `2^d` (10 Table 10-4). -/
def roundsUp (rm : RM) (neg odd : Bool) (r half : Nat) : Bool :=
  match rm with
  | .rn => half < r || (r == half && odd)
  | .rz => false
  | .rd => neg && r != 0
  | .ru => !neg && r != 0
  | .ra => half ≤ r

/-- The magnitude `m · 2^e` divided by `2^q`, rounded to an integer. -/
def roundShift (rm : RM) (neg : Bool) (m : Nat) (e q : Int) : Nat :=
  if q ≤ e then m * 2 ^ (e - q).toNat
  else
    let d := (q - e).toNat
    let k := m / 2 ^ d
    if roundsUp rm neg (k % 2 == 1) (m % 2 ^ d) (2 ^ (d - 1)) then k + 1 else k

/-- The rounded magnitude bits of `m · 2^e`, m > 0, the exponent range having no upper bound (10 R182). -/
def Fmt.roundMag (f : Fmt) (rm : RM) (neg : Bool) (m : Nat) (e : Int) : Nat :=
  let lead : Int := Nat.log2 m + e
  let q := max lead (1 - f.bias) - f.fb
  let k := roundShift rm neg m e q
  -- q + fb + bias is the exponent field of a normal significand; a carry into 2^(fb+1) adds one to it by itself
  if k < 2 ^ f.fb then k else (q + f.fb + f.bias - 1).toNat * 2 ^ f.fb + k

/-- 10 R183: whether an overflow of this sign goes to infinity. -/
def RM.overflowsToInf (rm : RM) (neg : Bool) : Bool :=
  match rm with
  | .rn | .ra => true
  | .rz => false
  | .rd => neg
  | .ru => !neg

/-- The overflow result (10 R183, with SAT of 09 R170). -/
def Fmt.overflow (f : Fmt) (rm : RM) (sat neg : Bool) : Nat :=
  match f.sp with
  | .ieee => f.join neg (if rm.overflowsToInf neg && !sat then f.infMag else f.maxMag)
  | .e4m3 => if rm.overflowsToInf neg && !sat then f.nanBits else f.join neg f.maxMag
  | .none => f.join neg f.maxMag

/-- Finish for a floating format (09 R170, 10 R182, R183): the bits of the rounded value. -/
def Fmt.finish (f : Fmt) (rm : RM) (sat : Bool) (x : FVal) : Nat :=
  match x with
  | .nan => f.nanBits
  | .inf neg =>
    match f.sp with
    | .ieee => f.join neg f.infMag
    | .e4m3 => f.nanBits
    | .none => f.join neg f.maxMag
  | .fin neg m e =>
    if m = 0 then f.join neg 0
    else
      let mag := f.roundMag rm neg m e
      if f.maxMag < mag then f.overflow rm sat neg else f.join neg mag

/-! ### Exact arithmetic -/

/-- The value with its sign as an integer. -/
def signed (neg : Bool) (m : Nat) : Int := if neg then -(m : Int) else m

/-- An integer times 2^e, with the sign `z` where it is zero. -/
def ofScaled (z : Bool) (n : Int) (e : Int) : FVal := if n = 0 then .fin z 0 0 else .fin (n < 0) n.natAbs e

/-- The least exponent of finite terms. -/
def minExp : List FVal → Int → Int
  | [], e => e
  | .fin _ m e' :: r, e => minExp r (if m = 0 then e else min e e')
  | _ :: r, e => minExp r e

/-- The exact sum of finite terms as an integer over 2^e. -/
def sumOver (e : Int) : List FVal → Int
  | [] => 0
  | .fin neg m e' :: r => (if m = 0 then 0 else signed neg m * 2 ^ (e' - e).toNat) + sumOver e r
  | _ :: r => sumOver e r

/-- Whether every finite term has the sign. -/
def allSign (neg : Bool) (l : List FVal) : Bool :=
  l.all fun x => match x with
    | .fin n _ _ => n == neg
    | _ => true

/-- The exact sum of terms (10 R182): infinities of opposite signs and NaN give NaN; an exact zero is −0 only where every
term is negative, or under .RD where the terms differ in sign. -/
def exactSum (rm : RM) (l : List FVal) : FVal :=
  if l.contains .nan || (l.contains (.inf false) && l.contains (.inf true)) then .nan
  else if l.contains (.inf false) then .inf false
  else if l.contains (.inf true) then .inf true
  else
    let e := minExp l 4096
    let z := if allSign true l then true else if allSign false l then false else rm == .rd
    ofScaled z (sumOver e l) e

namespace FVal

/-- Negation. -/
def neg : FVal → FVal
  | .nan => .nan
  | .inf n => .inf (!n)
  | .fin n m e => .fin (!n) m e

/-- The exact product (12 R222: 0 · infinity is NaN). -/
def mul : FVal → FVal → FVal
  | .nan, _ => .nan
  | _, .nan => .nan
  | .inf a, .inf b => .inf (a != b)
  | .inf a, .fin b m _ => if m = 0 then .nan else .inf (a != b)
  | .fin a m _, .inf b => if m = 0 then .nan else .inf (a != b)
  | .fin a m e, .fin b m' e' => .fin (a != b) (m * m') (e + e')

/-- The value times 2^k. -/
def scale (x : FVal) (k : Int) : FVal :=
  match x with
  | .fin n m e => .fin n m (e + k)
  | x => x

/-- Whether the value is finite. -/
def finite : FVal → Bool
  | .fin _ _ _ => true
  | _ => false

/-- Sign and comparison key of a non-NaN value: negative, zero or positive with both infinities (−0 equals +0). -/
def lt (x y : FVal) : Bool :=
  match x, y with
  | .nan, _ => false
  | _, .nan => false
  | .inf a, .inf b => a && !b
  | .inf a, .fin _ _ _ => a
  | .fin _ _ _, .inf b => !b
  | .fin a m e, .fin b m' e' =>
    let q := min e e'
    signed a m * 2 ^ (e - q).toNat < signed b m' * 2 ^ (e' - q).toNat

/-- Numeric equality (−0 = +0). -/
def eqv (x y : FVal) : Bool := x != .nan && y != .nan && !lt x y && !lt y x

/-- |x|. -/
def abs : FVal → FVal
  | .nan => .nan
  | .inf _ => .inf false
  | .fin _ m e => .fin false m e

/-- Whether the value is zero. -/
def isZero : FVal → Bool
  | .fin _ m _ => m == 0
  | _ => false

/-- The sign. -/
def sign : FVal → Bool
  | .nan => false
  | .inf n => n
  | .fin n _ _ => n

end FVal

/-- A quotient m / m' as a significand with a sticky last bit, precise to more bits than any format has, so that one
rounding of it is the rounding of the exact quotient. -/
def quotSticky (m m' : Nat) (e : Int) : Nat × Int :=
  let k := Nat.log2 m' + 130
  let n := m * 2 ^ k
  (2 * (n / m') + (if n % m' = 0 then 0 else 1), e - k - 1)

/-- a / b (12 R222). -/
def FVal.div (x y : FVal) : FVal :=
  match x, y with
  | .nan, _ => .nan
  | _, .nan => .nan
  | .inf _, .inf _ => .nan
  | .inf a, .fin b _ _ => .inf (a != b)
  | .fin a _ _, .inf b => .fin (a != b) 0 0
  | .fin a m e, .fin b m' e' =>
    if m' = 0 then (if m = 0 then .nan else .inf (a != b))
    else if m = 0 then .fin (a != b) 0 0
    else
      let (q, k) := quotSticky m m' (e - e')
      .fin (a != b) q k

/-- √a with a sticky last bit (12 R222: √−0 = −0, a negative operand gives NaN). -/
def FVal.sqrt (x : FVal) : FVal :=
  match x with
  | .nan => .nan
  | .inf neg => if neg then .nan else .inf false
  | .fin neg m e =>
    if m = 0 then .fin neg 0 0
    else if neg then .nan
    else
      let e2 := if e % 2 = 0 then e else e - 1
      let m2 := if e % 2 = 0 then m else 2 * m
      let n := m2 * 2 ^ 260
      let r := Nat.sqrt n
      .fin false (2 * r + (if r * r = n then 0 else 1)) (e2 / 2 - 131)

/-- 1/√a with a sticky last bit (12 Table 12-4). -/
def FVal.rsqrt (x : FVal) : FVal :=
  match x with
  | .nan => .nan
  | .inf neg => if neg then .nan else .fin false 0 0
  | .fin neg m e =>
    if m = 0 then .inf neg
    else if neg then .nan
    else
      let e2 := if e % 2 = 0 then e else e - 1
      let m2 := if e % 2 = 0 then m else 2 * m
      let k := 2 * (Nat.log2 m2 + 140)
      let r := Nat.sqrt (2 ^ k / m2)
      .fin false (2 * r + (if m2 * r * r = 2 ^ k then 0 else 1)) (-(e2 / 2) - k / 2 - 1)

/-- The integer nearest to a finite value under the rounding. -/
def roundInt (rm : RM) (neg : Bool) (m : Nat) (e : Int) : Int := signed neg (roundShift rm neg m e 0)

/-- Round to an integral value, kept as a value (12 R227: a zero result has the sign of the operand). -/
def FVal.integral (rm : RM) (x : FVal) : FVal :=
  match x with
  | .fin neg m e => if m = 0 then .fin neg 0 0 else .fin neg (roundShift rm neg m e 0) 0
  | x => x

/-- Clamp to an integer type's range (09 R170, 10 R178). -/
def clampInt (lo hi x : Int) : Int := if x < lo then lo else if hi < x then hi else x

/-- Whether a value is one of the format's (its rounding changes nothing). -/
def Fmt.holds (f : Fmt) (x : FVal) : Bool :=
  match x with
  | .fin _ m e => m == 0 || (f.roundMag .rd false m e == f.roundMag .ru false m e && f.roundMag .rz false m e ≤ f.maxMag)
  | _ => false

/-- A rounded value's value again: IEEE addition of two patterns in their format. -/
def Fmt.add (f : Fmt) (rm : RM) (sat : Bool) (a b : Nat) : Nat := f.finish rm sat (exactSum rm [f.value a, f.value b])

/-! ### The scale formats and E2M1 (10 R180, R181) -/

/-- E3M5: the integer I whose value is I/128 (10 Table 10-3). -/
def e3m5 (c : Nat) : Nat := if c / 32 = 0 then c % 32 else (32 + c % 32) * 2 ^ (c / 32 - 1)

/-- Twice the value of an E2M1 code (10 Table 10-2). -/
def e2m1Twice (c : Nat) : Int :=
  let mag : Nat :=
    match c % 8 with
    | 0 => 0 | 1 => 1 | 2 => 2 | 3 => 3 | 4 => 4 | 5 => 6 | 6 => 8 | _ => 12
  signed (c / 8 % 2 == 1) mag

/-! ### Hadamard (10 R191) -/

/-- The number of ones of the 32 low bits. -/
def popcount (n : Nat) : Nat := (List.range 32).countP fun i => n / 2 ^ i % 2 == 1

/-- Outputs of one block of n = 16 or 32 exact values (10 R191). -/
def hadamard (rm : RM) (x : List FVal) (n : Nat) : List FVal :=
  (List.range n).map fun a =>
    (exactSum rm ((List.range n).map fun b =>
      let v := x[b]?.getD (.fin false 0 0)
      if popcount (a &&& b) % 2 = 1 then v.neg else v)).scale (if n = 16 then -2 else -3)

/-- The values in aligned blocks of n, each transformed. -/
def hadamardBlocks (rm : RM) (n : Nat) : Nat → List FVal → List FVal
  | 0, _ => []
  | k + 1, l => hadamard rm (l.take n) n ++ hadamardBlocks rm n k (l.drop n)

end Sys2Proof
end

