-- ==== Sys2Proof/Machine/Flags.lean ====
section
/-!
DEFINITION. Sys2Proof/Machine/Flags.lean: the machine's flags are the predicates p0 to p7 (02 R35). Conditions and their
combination with an old predicate (11 Table 11-6, R213; 12 Table 12-3), and the one Finish of an integer result (09 R170).
-/
namespace Sys2Proof

open Sys2Proof.Machine

/-- 64-bit types. -/
def ITy.wide : ITy → Bool
  | .s32 | .n32 => false
  | .s64 | .n64 => true
/-- S types. -/
def ITy.signed : ITy → Bool
  | .s32 | .s64 => true
  | .n32 | .n64 => false
/-- W (11 R195). -/
def ITy.bits (t : ITy) : Nat := if t.wide then 64 else 32
/-- MinOf (10 R178). -/
def ITy.minOf (t : ITy) : Int := if t.signed then -(2 ^ (t.bits - 1)) else 0
/-- MaxOf. -/
def ITy.maxOf (t : ITy) : Int := if t.signed then 2 ^ (t.bits - 1) - 1 else 2 ^ t.bits - 1
/-- The value of a W-bit pattern held in a 64-bit word (11 R195). -/
def ITy.val (t : ITy) (x : DWord) : Int :=
  match t with
  | .s32 => (x.extractLsb' 0 32).toInt
  | .n32 => (x.extractLsb' 0 32).toNat
  | .s64 => x.toInt
  | .n64 => x.toNat
/-- The unsigned value of the W-bit pattern. -/
def ITy.unsignedVal (t : ITy) (x : DWord) : Nat := if t.wide then x.toNat else (x.extractLsb' 0 32).toNat
/-- A W-bit pattern as a k register receives it (01 R16): a 32-bit result is sign-extended under .S32, else zero-extended. -/
def ITy.extend (t : ITy) (x : DWord) : DWord :=
  match t with
  | .s32 => (x.extractLsb' 0 32).signExtend 64
  | .n32 => (x.extractLsb' 0 32).zeroExtend 64
  | .s64 | .n64 => x

/-- Finish for an integer type (09 R170): the exact result wraps, or is clamped under SAT; given as a k register receives
it. -/
def ITy.finish (t : ITy) (sat : Bool) (x : Int) : DWord :=
  t.extend (BitVec.ofInt 64 (if sat then clampInt t.minOf t.maxOf x else x))

/-- 11 Table 11-6. -/
def Cond.holds (c : Cond) (a b : Int) : Bool :=
  match c with
  | .eq => a == b
  | .ne => a != b
  | .lt => a < b
  | .le => a ≤ b
  | .gt => b < a
  | .ge => b ≤ a

/-- 11 R200: conditions of BRC on a 64-bit value. -/
def BrCond.holds (c : BrCond) (v : DWord) : Bool :=
  match c with
  | .nz => v != 0
  | .z => v == 0
  | .lt => v.toInt < 0
  | .ge => 0 ≤ v.toInt

/-- 12 Table 12-3: comparisons of values, false with a NaN except .NE and .UN. -/
def FCond.holds (c : FCond) (x y : FVal) : Bool :=
  let un := x == .nan || y == .nan
  match c with
  | .eq => !un && x.eqv y
  | .ne => un || !x.eqv y
  | .lt => !un && x.lt y
  | .le => !un && !y.lt x
  | .gt => !un && y.lt x
  | .ge => !un && !x.lt y
  | .un => un
  | .ord => !un

/-- 11 R213: p := cmp, p AND cmp, or p OR cmp. -/
def Combine.apply (c : Combine) (old cmp : Bool) : Bool :=
  match c with
  | .set => cmp
  | .and => old && cmp
  | .or => old || cmp

/-- A predicate written in the acting threads: those of `act` take their bit of `new`, the rest keep `old`. -/
def mergeLanes (act new old : Lanes) : Lanes := (new &&& act) ||| (old &&& ~~~ act)

/-- The set of threads of `act` in which a test holds. -/
def lanesWhere (act : Lanes) (f : Nat → Bool) : Lanes := lanesFrom ((lanesOf act).filter f)

end Sys2Proof
end

