-- ==== Sys2Proof/Machine/Operands.lean ====
section
/-!
DEFINITION. Sys2Proof/Machine/Operands.lean: every operand form: what a descriptor or literal supplies to a source in a
thread (02 R33 to R40, 08 R154, 11 R195), and how a destination is written (01 R16, 02 R36, R37).
-/
namespace Sys2Proof.Machine

open Sys2Proof

/-- The register that an indexed descriptor names in a thread (02 R37). -/
def Wave.indexed (w : Wave) (t : Nat) (i : BitVec 2) (off : BitVec 5) : Nat :=
  w.iwb.toNat + (w.getI t i.toNat).toNat + off.toNat

/-- The value of an inline integer (02 R39: the descriptor minus 0x170). -/
def inlineInt (n : BitVec 5) : Int := (n.toNat : Int) - 16

/-- A special register (02 Table 2-3), as a 64-bit value. -/
def Ctx.special (c : Ctx) (t : Nat) (n : BitVec 4) : DWord :=
  match n.toNat with
  | 0 => BitVec.ofNat 64 (t % 32)
  | 1 => BitVec.ofNat 64 (t / 32)
  | 2 => BitVec.ofNat 64 t
  | 3 => BitVec.ofNat 64 c.id.wave
  | 4 => BitVec.ofNat 64 c.id.crew
  | 5 => BitVec.ofNat 64 c.cv.index
  | 6 => BitVec.ofNat 64 (c.g.seq % 2 ^ 32)
  | 7 => BitVec.ofNat 64 (c.w.core % 8)
  | 8 => BitVec.ofNat 64 (c.w.core / 8 % 8)
  | 9 => BitVec.ofNat 64 (c.w.core / 64)
  | 10 => BitVec.ofNat 64 c.vf
  | 11 => c.mile.zeroExtend 64
  | 12 => (c.s.core c.w.core).tick.zeroExtend 64
  | 13 => c.s.clock
  | _ => 0

/-- A 32-bit source in a thread (11 R195). -/
def Ctx.read32 (c : Ctx) (t : Nat) (d : Desc) : Word :=
  match d with
  | .v n => c.w.getV t n.toNat
  | .k n => (c.w.getK n.toNat).extractLsb' 0 32
  | .h n => c.cw.getH n.toNat
  | .special n => (c.special t n).extractLsb' 0 32
  | .inline n => BitVec.ofInt 32 (inlineInt n)
  | .idx i off => c.w.getV t (c.w.indexed t i off)

/-- A 64-bit source in a thread: a pair, a k register, %clock, or a 32-bit source extended (11 R195, 08 R154; an inline
integer is always sign-extended). -/
def Ctx.read64 (c : Ctx) (t : Nat) (d : Desc) (sx : Bool) : DWord :=
  let ext (x : Word) : DWord := if sx then x.signExtend 64 else x.zeroExtend 64
  match d with
  | .v n => c.w.getV2 t n.toNat
  | .k n => c.w.getK n.toNat
  | .h n => ext (c.cw.getH n.toNat)
  | .special n => if n = 13 then c.special t n else ext ((c.special t n).extractLsb' 0 32)
  | .inline n => BitVec.ofInt 64 (inlineInt n)
  | .idx i off => c.w.getV2 t (c.w.indexed t i off)

/-- An integer source at a type, as a 64-bit word whose low W bits are the pattern (11 R195). -/
def Ctx.readI (c : Ctx) (t : Nat) (d : Desc) (ty : ITy) : DWord :=
  if ty.wide then c.read64 t d ty.signed else (c.read32 t d).zeroExtend 64

/-- The second source at a type: a descriptor, or the literal (08 R153). -/
def Ctx.readB (c : Ctx) (t : Nat) (b : SrcB) (ty : ITy) : DWord :=
  match b with
  | .desc d => c.readI t d ty
  | .lit w => if ty.wide then w.signExtend 64 else w.zeroExtend 64

/-- The second source read as 32 bits. -/
def Ctx.readB32 (c : Ctx) (t : Nat) (b : SrcB) : Word :=
  match b with
  | .desc d => c.read32 t d
  | .lit w => w

/-- The second source read as 64 bits without a type (08 R154). -/
def Ctx.readB64 (c : Ctx) (t : Nat) (b : SrcB) : DWord :=
  match b with
  | .desc d => c.read64 t d false
  | .lit w => w.signExtend 64

/-- The leader of the acting threads (01 R16). -/
def leader (act : Lanes) : Nat := (lowest act).getD 0

/-- One result written in a thread: a register, or a pair where the result is 64 bits wide. -/
def Wave.putV (w : Wave) (t n : Nat) (wide : Bool) (x : DWord) : Wave :=
  if wide then w.setV2 t n x else w.setV t n (x.extractLsb' 0 32)

/-- Results of acting threads, in ascending order, written to a destination: per thread to v registers; a k or h register
once, with the value of the highest-numbered thread (02 R36, 11 R195). Values are given as a k register receives them. -/
def Ctx.dest (c : Ctx) (d : Desc) (wide : Bool) (vals : List (Nat × DWord)) (s : State) : State :=
  let w := (s.wave? c.id).getD c.w
  match d with
  | .v n => s.setWave c.id (vals.foldl (fun w p => w.putV p.1 n.toNat wide p.2) w)
  | .idx i off => s.setWave c.id (vals.foldl (fun w p => w.putV p.1 (c.w.indexed p.1 i off) wide p.2) w)
  | .k n =>
    match vals.getLast? with
    | some p => s.setWave c.id (w.setK n.toNat p.2)
    | none => s
  | .h n =>
    match vals.getLast? with
    | some p =>
      let cw := (s.crew? c.crewKey).getD c.cw
      s.setCrew c.crewKey (cw.writeH s.assayCycle c.w.slot n.toNat (p.2.extractLsb' 0 32))
    | none => s
  | .special _ => s
  | .inline _ => s

/-- Registers that an operand of a width spans (02 R34). -/
def spanOf (wide : Bool) : Nat := if wide then 2 else 1

/-- Whether the descriptor is a k register. -/
def isK : Desc → Bool
  | .k _ => true
  | _ => false

/-- A per-thread result of an instruction at an integer type: computed in every acting thread from the old registers, then
written (01 R14). -/
def Ctx.eachI (c : Ctx) (act : Lanes) (d : Desc) (ty : ITy) (sat : Bool) (f : Nat → Int) : Verdict :=
  .ok (.of (c.dest d ty.wide ((lanesOf act).map fun t => (t, ty.finish sat (f t))) c.s))

/-- The virtual address source of a wave-wide instruction: 64 bits without a type (14 R263). -/
def Ctx.addr (c : Ctx) (act : Lanes) (d : Desc) : DWord := c.read64 (leader act) d false

end Sys2Proof.Machine
end

