-- ==== Sys2Proof/Machine/GrvOps.lean ====
section
/-!
DEFINITION. Sys2Proof/Machine/GrvOps.lean: the Gravel engine's generators (06 R115 to R117), counts and class tags (R121,
R122), which the GRV instructions, FSRN and the engine's own steps share.
-/
namespace Sys2Proof.Machine

open Sys2Proof

/-! ### Replays (05 R110, 06 R126, 19 R340) -/

/-- `fails` failed attempts of one K-block, operation or line bring at most four replays; the answer says whether the fifth failure
raises the ASSAY fault. -/
def persists (fails : Nat) : Bool := 5 ≤ fails

/-- The replays of so many failed attempts. -/
def replaysOf (fails : Nat) : Nat := min fails 4

/-- PRST counts an ASSAY-class fault (25 R407). -/
def Cluster.countFault (c : Cluster) (fails : Nat) : Cluster := if persists fails then { c with prst := upTo c.prst 1 } else c

/-- The feedback mask of an LFSR class (06 R115). -/
def lfsrMask (c : Nat) : Word := if c % 2 = 0 then 0x80200003 else 0xE0000200

/-- LfsrStep. -/
def lfsrStep (c : Nat) (s : Word) : Word := if s.getLsbD 0 then (s >>> 1) ^^^ lfsrMask c else s >>> 1

/-- The state after 32 steps. -/
def lfsrNext (c : Nat) (s : Word) : Word := (List.range 32).foldl (fun s _ => lfsrStep c s) s

/-- The word of a class from its stepped state. -/
def lfsrOut (c : Nat) (s : Word) : Word := (s ^^^ BitVec.ofNat 32 (0x9E3779B9 * c)) * BitVec.ofNat 32 (2 * c + 1)

/-- BitReverse32. -/
def bitRev (w : Word) : Word := BitVec.ofNat 32 ((List.range 32).foldl (fun m i => 2 * m + (if w.getLsbD i then 1 else 0)) 0)

/-- LdWord (06 R116). -/
def ldOut (n d : Word) : Word := bitRev n ^^^ d

/-- `n` words of an LFSR class, first drawn first, before those of `acc` (reversed), with the state after them. -/
def lfsrWords (c : Nat) : Nat → Word → List Word → List Word × Word
  | 0, s, acc => (acc.reverse, s)
  | n + 1, s, acc =>
    let s' := lfsrNext c s
    lfsrWords c n s' (lfsrOut c s' :: acc)

/-- `n` words of a class and the engine after drawing them (06 R115, R116). -/
def Gravel.words (g : Gravel) (cls n : Nat) : List Word × Gravel :=
  if cls < 32 then
    let (l, s) := lfsrWords cls n (g.lfsr[cls]?.getD 0) []
    (l, { g with lfsr := setAt g.lfsr cls s })
  else
    let j := cls - 32
    let i := g.index[j]?.getD 0
    let d := g.shift[j]?.getD 0
    ((List.range n).map fun x => ldOut (i + BitVec.ofNat 32 x) d,
     { g with index := setAt g.index j (i + BitVec.ofNat 32 n) })

/-- GSEED (06 R117). -/
def Gravel.seed (g : Gravel) (cls : Nat) (v : Word) : Gravel :=
  let g := { g with bad := g.bad.filter (· != 32 + cls) }
  if cls < 32 then { g with lfsr := setAt g.lfsr cls (if v = 0 then 1 else v) }
  else { g with shift := setAt g.shift (cls - 32) v, index := setAt g.index (cls - 32) 0 }

/-- The number of ones of a stream of `len` bits. -/
def onesOf (len x : Nat) : Nat := (List.range len).foldl (fun m i => if x.testBit i then m + 1 else m) 0

/-- k(e) of a register. -/
def Gravel.count (g : Gravel) (r e : Nat) : Nat :=
  match look g.g r with
  | some x => onesOf g.len (x.bits[e]?.getD 0)
  | none => 0

/-- Whether two tags are correlated (06 R121). -/
def correlated (a b : GReg) : Bool := (a.m &&& b.m) != 0 && (a.s == b.s || a.x || b.x)

/-- The combined tag of several operands (06 R122): mask, shift, mixed bit. -/
def combineTags (l : List GReg) : DWord × BitVec 12 × Bool :=
  let m := l.foldl (fun m x => m ||| x.m) 0
  let s0 := (l.head?.map GReg.s).getD 0
  if l.all fun x => !x.x && x.s == s0 then (m, s0, false) else (m, 0, true)

/-- The cluster's Gravel engine. -/
def Ctx.gravel (c : Ctx) : Gravel := c.cl.gravel

/-- STREAM/NOT-RESERVED (06 R124, 14 R276). -/
def Ctx.needGravel (c : Ctx) : Option (BitVec 10) := if c.gravel.holder == some c.id.conv then none else some (cStream 0)

/-- The cluster's Gravel engine replaced. -/
def State.setGravel (s : State) (cl : Nat) (g : Gravel) : State := s.setCluster cl { s.cluster cl with gravel := g }

/-- The replays of a Gravel operation after `fails` failed attempts, and the fault after the fifth, are counted (06 R126, 25 R407). -/
def State.countGravel (s : State) (cl fails : Nat) : State :=
  let c := s.cluster cl
  s.setCluster cl { c.countFault fails with grpl := upTo c.grpl (replaysOf fails) }

/-- The state as a synchronous operation of the engine comes to its end: its failed attempts are counted, and none stands against the next
operation (06 R126). -/
def Ctx.attempted (c : Ctx) : State :=
  let s := c.s.countGravel c.clusterNo c.gravel.fails
  s.setGravel c.clusterNo { (s.cluster c.clusterNo).gravel with fails := 0 }

/-- A synchronous operation (06 R119, R126): it waits until every earlier operation of the engine has completed, and after a failed
attempt is replayed. `uses` lists the registers and generator states (32 + class) that it reads. After the fifth failed attempt, or
where one of those is uncorrectable, it ends with a late fault, and each element of its destination keeps its old value where
`keep` says so, as a free value decides. -/
def Ctx.syncGrv (c : Ctx) (uses : List Nat) (body : State → (Nat → Bool) → Verdict) : Verdict :=
  let g := c.gravel
  if !g.ops.isEmpty then .stall c.s
  else
    let s := c.attempted
    let lost := uses.any g.bad.contains
    if lost || persists g.fails then
      match body s.draw fun e => c.s.free.testBit e with
      | .ok e => .ok { e with s := e.s.reportLate c.key c.hnd { cause := if lost then cMemerr 6 0 else cAssay 1, faddr := 0 } }
      | v => v
    else body s fun _ => false

end Sys2Proof.Machine
end

