-- ==== Sys2Proof/Machine/Trans.lean ====
section
/-!
DEFINITION. Sys2Proof/Machine/Trans.lean: the correctly rounded transcendentals (12 R226, Table 12-4). An irrational value
is enclosed between two integers over 2^p, at rising p, until both ends round alike: that is then the rounding of the
value itself.
-/
namespace Sys2Proof

open Sys2Proof.Machine

/-- An enclosure: lo ≤ x · 2^p ≤ hi. -/
structure Encl where
  lo : Nat
  hi : Nat
  deriving DecidableEq, Repr

namespace Encl

/-- The quotient, rounded up. -/
def up (a b : Nat) : Nat := (a + b - 1) / b

/-- Product of enclosures over 2^p. -/
def mul (p : Nat) (x y : Encl) : Encl := ⟨x.lo * y.lo / 2 ^ p, up (x.hi * y.hi) (2 ^ p)⟩

/-- Sum of the terms t, t·z/(k+1), … of a power series with `n` terms left, of which every later ratio is at most 1/2:
`step k t` is the next term. The last term bounds the rest. -/
def series (p : Nat) (step : Nat → Encl → Encl) : Nat → Nat → Encl → Encl → Encl
  | 0, _, t, acc => ⟨acc.lo, acc.hi + 2 * t.hi + 2⟩
  | n + 1, k, t, acc => series p step n (k + 1) (step k t) ⟨acc.lo + t.lo, acc.hi + t.hi⟩

/-- exp of z in [0, 1): terms z^k / k!. -/
def exp (p : Nat) (z : Encl) : Encl :=
  series p (fun k t => let m := mul p t z; ⟨m.lo / (k + 1), up m.hi (k + 1)⟩) (p / 2 + 8) 0 ⟨2 ^ p, 2 ^ p⟩ ⟨0, 0⟩

/-- 2 · atanh z for z in [0, 1/3]: terms 2 z^(2k+1) / (2k+1). -/
def atanh2 (p : Nat) (z : Encl) : Encl :=
  let zz := mul p z z
  -- carried term: 2 z^(2k+1); added: the term over 2k+1
  let rec go : Nat → Nat → Encl → Encl → Encl
    | 0, _, t, acc => ⟨acc.lo, acc.hi + 2 * t.hi + 2⟩
    | n + 1, k, t, acc => go n (k + 1) (mul p t zz) ⟨acc.lo + t.lo / (2 * k + 1), acc.hi + up t.hi (2 * k + 1)⟩
  go (p / 2 + 8) 0 ⟨2 * z.lo, 2 * z.hi⟩ ⟨0, 0⟩

/-- ln 2 = 2 atanh(1/3). -/
def ln2 (p : Nat) : Encl := atanh2 p ⟨2 ^ p / 3, up (2 ^ p) 3⟩

/-- arctan(1/n) by its alternating series, `steps` pairs of terms. -/
def atanInv (p n : Nat) : Encl :=
  let rec go : Nat → Nat → Nat → Nat → Nat → Encl
    | 0, _, t, lo, hi => ⟨lo - t - 1, hi + t + 1⟩
    | s + 1, k, t, lo, hi =>
      -- t is n^-(2k+1) · 2^p rounded down; the error of each term is below 2
      let a := t / (2 * k + 1)
      let t' := t / (n * n)
      let b := t' / (2 * k + 3)
      go s (k + 2) (t' / (n * n)) (lo + a - (b + 2)) (hi + (a + 2) - b)
  go (p / 4 + 4) 0 (2 ^ p / n) 0 0

/-- π = 16 arctan(1/5) − 4 arctan(1/239). -/
def pi (p : Nat) : Encl :=
  let a := atanInv p 5
  let b := atanInv p 239
  ⟨16 * a.lo - 4 * b.hi, 16 * a.hi - 4 * b.lo⟩

/-- sin of z in [0, π/2]: positive and negative terms of the series summed apart. -/
def sin (p : Nat) (z : Encl) : Encl :=
  let zz := mul p z z
  let rec go : Nat → Nat → Encl → Encl → Encl → Encl
    | 0, _, t, pos, neg => ⟨pos.lo - (neg.hi + 2 * t.hi + 2), pos.hi + 2 * t.hi + 2 - neg.lo⟩
    | n + 1, k, t, pos, neg =>
      let m := mul p t zz
      let t' : Encl := ⟨m.lo / ((k + 1) * (k + 2)), up m.hi ((k + 1) * (k + 2))⟩
      go n (k + 2) t' ⟨neg.lo, neg.hi⟩ ⟨pos.lo + t.lo, pos.hi + t.hi⟩
  -- the two sums change places at each term; after an even number of terms they stand as they began
  go (2 * (p / 8 + 12)) 1 z ⟨0, 0⟩ ⟨0, 0⟩

end Encl

/-- The rounding of a value enclosed at each precision of the list, or the fallback. -/
def roundEncl (f : Fmt) (rm : RM) (sat neg : Bool) (at' : Nat → Encl × Int) (fallback : Nat) : List Nat → Nat
  | [] => fallback
  | p :: r =>
    let (x, e) := at' p
    let a := f.finish rm sat (.fin neg x.lo (e - p))
    if x.lo ≠ 0 ∧ a = f.finish rm sat (.fin neg x.hi (e - p)) then a else roundEncl f rm sat neg at' fallback r

/-- The precisions tried. -/
def precisions : List Nat := [96, 192, 384, 768, 2048]

/-- The integer part and the fraction over 2^k of |m · 2^e|: (whole, fraction numerator, k). -/
def splitFrac (m : Nat) (e : Int) : Nat × Nat × Nat :=
  if 0 ≤ e then (m * 2 ^ e.toNat, 0, 0)
  else
    let k := (-e).toNat
    (m / 2 ^ k, m % 2 ^ k, k)

/-- A fraction n / 2^k enclosed over 2^p. -/
def enclFrac (p n k : Nat) : Encl := ⟨n * 2 ^ p / 2 ^ k, Encl.up (n * 2 ^ p) (2 ^ k)⟩

/-- FEXP2: 2^a (12 R226). -/
def exp2Bits (f : Fmt) (rm : RM) (sat : Bool) (a : Nat) : Nat :=
  match f.value a with
  | .nan => f.nanBits
  | .inf true => 0
  | .inf false => f.finish rm false (.inf false)
  | .fin neg m e =>
    let (w, n, k) := splitFrac m e
    -- beyond every format's range the result overflows or underflows alike at 2^±4096
    if 4096 ≤ w then f.finish rm sat (.fin false 1 (if neg then -4096 else 4096))
    else if n = 0 then f.finish rm sat (.fin false 1 (if neg then -(w : Int) else w))
    else
      -- 2^(w + n/2^k), or 2^(-w-1 + (2^k - n)/2^k)
      let i : Int := if neg then -(w : Int) - 1 else w
      let n' := if neg then 2 ^ k - n else n
      roundEncl f rm sat false (fun p => (Encl.exp p (Encl.mul p (enclFrac p n' k) (Encl.ln2 p)), i))
        (Config.transcendental 0 f.top (rm.ctorIdx) a) precisions

/-- FLOG2: log₂ a (12 R226). -/
def log2Bits (f : Fmt) (rm : RM) (a : Nat) : Nat :=
  match f.value a with
  | .nan => f.nanBits
  | .inf true => f.nanBits
  | .inf false => f.join false f.infMag
  | .fin neg m e =>
    if m = 0 then f.join true f.infMag
    else if neg then f.nanBits
    else
      let l := Nat.log2 m
      let i : Int := l + e
      if m = 2 ^ l then f.finish rm false (.fin (i < 0) i.natAbs 0)
      else
        -- m / 2^l = 1 + u, u = (m - 2^l)/2^l; ln(1 + u) = 2 atanh(u/(2 + u)), and u/(2+u) = (m - 2^l)/(m + 2^l)
        let frac (p : Nat) : Encl :=
          let z : Encl := ⟨(m - 2 ^ l) * 2 ^ p / (m + 2 ^ l), Encl.up ((m - 2 ^ l) * 2 ^ p) (m + 2 ^ l)⟩
          let t := Encl.atanh2 p z
          let g := Encl.ln2 p
          ⟨t.lo * 2 ^ p / g.hi, Encl.up (t.hi * 2 ^ p) g.lo⟩
        roundEncl f rm false (i < 0)
          (fun p =>
            let x := frac p
            if 0 ≤ i then (⟨i.toNat * 2 ^ p + x.lo, i.toNat * 2 ^ p + x.hi⟩, 0)
            else (⟨i.natAbs * 2 ^ p - x.hi, i.natAbs * 2 ^ p - x.lo⟩, 0))
          (Config.transcendental 1 f.top (rm.ctorIdx) a) precisions

/-- sin(π·n/2^k) for 0 < n/2^k < 1/2, as an enclosure over 2^p. -/
def sinPiEncl (n k p : Nat) : Encl := Encl.sin p (Encl.mul p (enclFrac p n k) (Encl.pi p))

/-- FTRIG: sin(π·a) or cos(π·a) (12 R226). -/
def trigBits (f : Fmt) (cos : Bool) (rm : RM) (a : Nat) : Nat :=
  match f.value a with
  | .nan => f.nanBits
  | .inf _ => f.nanBits
  | .fin neg m e =>
    let (w, n, k) := splitFrac m e
    let one (s : Bool) := f.finish rm false (.fin s 1 0)
    let odd := w % 2 == 1
    if n = 0 then
      if cos then one odd else f.join neg 0
    else if 2 * n = 2 ^ k then
      if cos then f.join false 0 else one (odd != neg)
    else
      -- with x = w + n/2^k: |sin πx| is sin(π·n/2^k) and |cos πx| is sin(π·|1/2 − n/2^k|); both with the fraction folded
      -- into (0, 1/2)
      let sgn := if cos then odd != (2 ^ k < 2 * n) else odd != neg
      let fold := if 2 * n < 2 ^ k then n else 2 ^ k - n
      let arg := if cos then 2 ^ k - 2 * fold else 2 * fold
      roundEncl f rm false sgn (fun p => (sinPiEncl arg (k + 1) p, 0))
        (Config.transcendental (if cos then 3 else 2) f.top (rm.ctorIdx) a) precisions

end Sys2Proof
end

