-- ==== Sys2Proof/Machine/Uni.lean ====
section
/-!
DEFINITION. Sys2Proof/Machine/Uni.lean: the meanings of the UNI class (11 R198 to R208, 01 R27): control transfer,
divergence, arithmetic on k registers, votes, lane access, the index window and the end of a wave.
-/
namespace Sys2Proof.Machine

open Sys2Proof

/-! ### Shared by the UNI class -/

/-- A UNI instruction acts once, as the leader (11 R198), so its operands are the leader's alone. -/
def Meta.uni (k : Ctl) (fields : List Field) : Meta := Meta.plain { k with onc := true } fields

/-- A branch target (11 R199). -/
def Ctx.target (c : Ctx) (act : Lanes) (t : SrcB) : DWord :=
  match t with
  | .desc d => c.read64 (leader act) d false
  | .lit w => c.w.pc + 8 * w.signExtend 64

/-- The check of a target to which control transfers (11 R199). -/
def targetFault (t : DWord) : Option (BitVec 10) :=
  if t.extractLsb' 0 3 ≠ 0 then some (cAlign 1) else if t.extractLsb' 57 7 ≠ 0 then some (cProtect 0) else none

/-- A transfer to a checked target, the rest of the effect standing in `s`. -/
def Ctx.goto (s : State) (t : DWord) : Verdict :=
  match targetFault t with
  | some x => .fail (.plain x)
  | none => .ok { Eff.of s with dest := some t }

/-- The loop that the spin detector watches (18 R326): a taken branch to a target at or below its own address, taken to the
same target with the same loads as the iteration before. -/
def Wave.spin (w : Wave) (t : DWord) : Wave :=
  if w.pc.toNat < t.toNat then w
  else
    { w with spinTarget := t, spinEnd := w.pc, spinCount := if w.spinTarget = t ∧ w.spinCur = w.spinPrev then w.spinCount + 1 else 0,
             spinPrev := w.spinCur, spinCur := [] }

/-- One result of the leader, at an integer type. -/
def Ctx.uniI (c : Ctx) (act : Lanes) (d : Desc) (ty : ITy) (sat : Bool) (x : Int) : Verdict :=
  .ok (.of (c.dest d ty.wide [(leader act, ty.finish sat x)] c.s))

/-- A K instruction of two sources (11 R204). -/
def uniOp2 (s : State) (k : Ctl) (d a : Desc) (b : SrcB) (ty : ITy) (sat : Bool) (f : DWord → DWord → Int) :
    Host.Outcome State Fault Refusal :=
  instr s (.uni k (dst d (spanOf ty.wide) :: src a (spanOf ty.wide) :: srcB b (spanOf ty.wide))) noOwn fun c act =>
    c.uniI act d ty sat (f (c.readI (leader act) a ty) (c.readB (leader act) b ty))

/-- A K instruction of three sources. -/
def uniOp3 (s : State) (k : Ctl) (d a b e : Desc) (ty : ITy) (sat : Bool) (f : DWord → DWord → DWord → Int) :
    Host.Outcome State Fault Refusal :=
  instr s (.uni k [dst d (spanOf ty.wide), src a (spanOf ty.wide), src b (spanOf ty.wide), src e (spanOf ty.wide)]) noOwn
    fun c act =>
      c.uniI act d ty sat (f (c.readI (leader act) a ty) (c.readI (leader act) b ty) (c.readI (leader act) e ty))

/-- The low W bits of a pattern, rotated left by `n` (11 R207). -/
def rotl (w x n : Nat) : Nat :=
  let m := n % w
  let p := x % 2 ^ w
  (p * 2 ^ m) % 2 ^ w + p / 2 ^ (w - m)

/-- The shift of 11 R207, as an exact integer; an amount beyond 128 acts as 128, which no result tells from it. -/
def shiftVal (ty : ITy) (kind : ShKind) (a b : DWord) : Int :=
  let n := ty.unsignedVal b
  match kind with
  | .shl => ty.val a * 2 ^ min n 128
  | .shr => (ty.val a) / 2 ^ min n 128
  | .rol => rotl ty.bits (ty.unsignedVal a) (n % ty.bits)
  | .ror => rotl ty.bits (ty.unsignedVal a) (ty.bits - n % ty.bits)

/-! ### Control (11 R199 to R203) -/

/-- NOP (11 R200). -/
def execNop (c : Ctl0) (s : State) : Host.Outcome State Fault Refusal :=
  instr s { Meta.uni (ctlOf c) [] with always := true } noOwn fun c _ => .ok (.of c.s)

/-- BRA (11 R200). -/
def execBra (k : Ctl) (t : SrcB) (s : State) : Host.Outcome State Fault Refusal :=
  instr s (.uni k (srcB t 2)) noOwn fun c act =>
    let x := c.target act t
    Ctx.goto (c.put (c.w.spin x)) x

/-- BRC (11 R200). -/
def execBrc (k : Ctl) (cond : BrCond) (a : Desc) (t : SrcB) (s : State) : Host.Outcome State Fault Refusal :=
  instr s (.uni k (src a 2 :: srcB t 2)) noOwn fun c act =>
    if cond.holds (c.read64 (leader act) a false) then
      let x := c.target act t
      Ctx.goto (c.put (c.w.spin x)) x
    else .ok (.of c.s)

/-- The wave after BRD (11 R201): an entry is pushed; the taken path runs first. -/
def Wave.split (w : Wave) (next : DWord) (taken rest : Lanes) : Wave :=
  if taken ≠ 0 then { w with stack := { jpc := next, outer := w.active, pend := rest } :: w.stack, active := taken }
  else { w with stack := { jpc := next, outer := w.active, pend := 0 } :: w.stack, active := rest }

/-- BRD (11 R201). -/
def execBrd (k : Ctl) (t : SrcB) (s : State) : Host.Outcome State Fault Refusal :=
  instr s { Meta.uni k (srcB t 2) with last := true, noHnd := true, always := true } noOwn fun c act =>
    let taken := c.w.active &&& c.w.guard k
    if 32 ≤ c.w.stack.length then .fail (.plain (cSync 0))
    else
      let s := c.put (c.w.split c.nextHeader taken (c.w.active &&& ~~~ taken))
      if taken ≠ 0 then Ctx.goto s (c.target act t) else .ok (.of s)

/-- JOIN (11 R202). -/
def execJoin (k : Ctl0) (t : SrcB) (s : State) : Host.Outcome State Fault Refusal :=
  instr s { Meta.uni (ctlOf k) (srcB t 2) with noHnd := true, always := true } noOwn fun c act =>
    match c.w.stack with
    | [] => .fail (.plain (cSync 1))
    | e :: r =>
      if e.pend ≠ 0 then
        .ok { Eff.of (c.put { c.w with active := e.pend, stack := { e with pend := 0 } :: r }) with dest := some e.jpc }
      else Ctx.goto (c.put { c.w with active := e.outer, stack := r }) (c.target act t)

/-- CALL (11 R200). -/
def execCall (k : Ctl) (d : Desc) (t : SrcB) (s : State) : Host.Outcome State Fault Refusal :=
  instr s (.uni k (dst d 2 :: srcB t 2)) noOwn fun c act =>
    Ctx.goto (c.dest d true [(leader act, c.nextHeader)] c.s) (c.target act t)

/-- RET (11 R200). -/
def execRet (k : Ctl) (a : Desc) (s : State) : Host.Outcome State Fault Refusal :=
  instr s (.uni k [src a 2]) noOwn fun c act => Ctx.goto c.s (c.target act (.desc a))

/-- LOOP (11 R200): its counter is a k register. -/
def execLoop (k : Ctl) (d : Desc) (t : SrcB) (s : State) : Host.Outcome State Fault Refusal :=
  instr s (.uni k (dst d :: srcB t 2)) (fun _ => if isK d then none else some (cOperand 5)) fun c act =>
    let n := c.read64 (leader act) d false
    if n = 0 then .ok (.of c.s)
    else
      let s := c.dest d true [(leader act, n - 1)] c.s
      if n - 1 = 0 then .ok (.of s)
      else
        let x := c.target act t
        Ctx.goto (s.setWave c.id (((s.wave? c.id).getD c.w).spin x)) x

/-! ### Uniform arithmetic (11 R204, Table 11-5) -/

/-- KMOV. -/
def execKmov (k : Ctl) (d : Desc) (b : SrcB) (ty : ITy) (s : State) : Host.Outcome State Fault Refusal :=
  instr s (.uni k (dst d (spanOf ty.wide) :: srcB b (spanOf ty.wide))) noOwn fun c act =>
    c.uniI act d ty false (ty.val (c.readB (leader act) b ty))

/-- KADD. -/
def execKadd (k : Ctl) (d a : Desc) (b : SrcB) (ty : ITy) (sat : Bool) (s : State) : Host.Outcome State Fault Refusal :=
  uniOp2 s k d a b ty sat fun x y => ty.val x + ty.val y
/-- KSUB. -/
def execKsub (k : Ctl) (d a : Desc) (b : SrcB) (ty : ITy) (sat : Bool) (s : State) : Host.Outcome State Fault Refusal :=
  uniOp2 s k d a b ty sat fun x y => ty.val x - ty.val y
/-- KMUL. -/
def execKmul (k : Ctl) (d a : Desc) (b : SrcB) (ty : ITy) (sat : Bool) (s : State) : Host.Outcome State Fault Refusal :=
  uniOp2 s k d a b ty sat fun x y => ty.val x * ty.val y
/-- KAND. -/
def execKand (k : Ctl) (d a : Desc) (b : SrcB) (ty : ITy) (s : State) : Host.Outcome State Fault Refusal :=
  uniOp2 s k d a b ty false fun x y => ty.val (x &&& y)
/-- KOR. -/
def execKor (k : Ctl) (d a : Desc) (b : SrcB) (ty : ITy) (s : State) : Host.Outcome State Fault Refusal :=
  uniOp2 s k d a b ty false fun x y => ty.val (x ||| y)
/-- KXOR. -/
def execKxor (k : Ctl) (d a : Desc) (b : SrcB) (ty : ITy) (s : State) : Host.Outcome State Fault Refusal :=
  uniOp2 s k d a b ty false fun x y => ty.val (x ^^^ y)
/-- KSH (11 R207). -/
def execKsh (k : Ctl) (d a : Desc) (b : SrcB) (ty : ITy) (kind : ShKind) (sat : Bool) (s : State) :
    Host.Outcome State Fault Refusal :=
  uniOp2 s k d a b ty sat fun x y => shiftVal ty kind x y
/-- KCMP. -/
def execKcmp (k : Ctl) (d a : Desc) (b : SrcB) (ty : ITy) (cond : Cond) (s : State) : Host.Outcome State Fault Refusal :=
  uniOp2 s k d a b ty false fun x y => if cond.holds (ty.val x) (ty.val y) then 1 else 0
/-- KSEL: b if a ≠ 0 at width W, else c. -/
def execKsel (k : Ctl) (d a b e : Desc) (ty : ITy) (s : State) : Host.Outcome State Fault Refusal :=
  uniOp3 s k d a b e ty false fun x y z => if ty.unsignedVal x ≠ 0 then ty.val y else ty.val z
/-- KMAD. -/
def execKmad (k : Ctl) (d a b e : Desc) (ty : ITy) (sat : Bool) (s : State) : Host.Outcome State Fault Refusal :=
  uniOp3 s k d a b e ty sat fun x y z => ty.val x * ty.val y + ty.val z

/-! ### Wave-level instructions (11 R205 to R208) -/

/-- The 64-bit result of VOTE from the acting threads and the threads in which the predicate holds. -/
def voteResult (op : VoteOp) (hi : Bool) (act q : Lanes) : DWord :=
  match op with
  | .ballot => if hi then q.extractLsb' 64 64 else q.extractLsb' 0 64
  | .any => if q ≠ 0 then 1 else 0
  | .all => if q = act then 1 else 0
  | .count => BitVec.ofNat 64 (lanesOf q).length

/-- VOTE (11 R205). -/
def execVote (k : Ctl) (d : Desc) (op : VoteOp) (hi neg : Bool) (n : BitVec 3) (s : State) :
    Host.Outcome State Fault Refusal :=
  instr s { Meta.uni k [dst d 2] with noHnd := n != 7 } noOwn fun c act =>
    let all := c.acting { k with onc := false }
    let p := if neg then ~~~ c.w.getP n.toNat else c.w.getP n.toNat
    .ok (.of (c.dest d true [(leader act, voteResult op hi all (all &&& p))] c.s))

/-- Whether the descriptor is a v register. -/
def isV : Desc → Bool
  | .v _ => true
  | _ => false

/-- RDLANE (11 R206); its va is the one v operand that a handler may name (19 R332, R333). -/
def execRdlane (k : Ctl) (d va : Desc) (t : SrcB) (w64 : Bool) (s : State) : Host.Outcome State Fault Refusal :=
  instr s (.uni k (dst d (spanOf w64) :: { src va (spanOf w64) with free := true } :: srcB t 2))
    (fun _ => if isV va then none else some (cOperand 5)) fun c act =>
      let x := (c.readB64 (leader act) t).toNat
      if c.w.threads ≤ x then .fail (.plain (cOperand 6))
      else
        let r := if w64 then c.read64 x va false else (c.read32 x va).zeroExtend 64
        .ok (.of (c.dest d w64 [(leader act, r)] c.s))

/-- WRLANE (11 R206). -/
def execWrlane (k : Ctl) (vd a : Desc) (t : SrcB) (w64 : Bool) (s : State) : Host.Outcome State Fault Refusal :=
  instr s (.uni k ({ dst vd (spanOf w64) with free := true } :: src a (spanOf w64) :: srcB t 2))
    (fun _ => if isV vd then none else some (cOperand 5)) fun c act =>
      let x := (c.readB64 (leader act) t).toNat
      if c.w.threads ≤ x then .fail (.plain (cOperand 6))
      else
        let r := if w64 then c.read64 (leader act) a false else (c.read32 (leader act) a).zeroExtend 64
        .ok (.of (c.dest vd w64 [(x, r)] c.s))

/-- TAIL (01 R27, 19 R334): the wave ends; barriers that now wait for none complete; from a handler, the grid fails with the
trap's cause. -/
def execTail (k : Ctl0) (s : State) : Host.Outcome State Fault Refusal :=
  instr s { Meta.uni (ctlOf k) [] with last := true, always := true } noOwn fun c _ =>
    let s := if c.hnd then c.s.failGrid c.cv.grid { cause := c.w.cause, faddr := c.w.faddr } c.cv.index else c.s
    let w := { c.advance false c.w with ended := true, wait := none, woken := false, stall := false, far := none }
    .over (((s.setWave c.id w).barsAfterTail c.id).checked c.w.core)

/-- SETIW (11 R208, 02 R38). IWB holds 8 bits (DEDUCED, log 20). -/
def execSetiw (k : Ctl) (a : Desc) (b : SrcB) (s : State) : Host.Outcome State Fault Refusal :=
  instr s (.uni k (src a 2 :: srcB b 2)) noOwn fun c act =>
    let x := (c.read64 (leader act) a false).toNat
    let y := (c.readB64 (leader act) b).toNat
    if c.w.vregs < x + y then .fail (.plain (cOperand 2))
    else .ok (.of (c.put { c.w with iwb := BitVec.ofNat 8 x, iwl := BitVec.ofNat 9 y }))

end Sys2Proof.Machine
end

