-- ==== Sys2Proof/Machine/VecInt.lean ====
section
/-!
DEFINITION. Sys2Proof/Machine/VecInt.lean: the meanings of the VEC integer instructions (11 R209 to R217): per thread in
every depth pass, and the three that combine threads.
-/
namespace Sys2Proof.Machine

open Sys2Proof

/-! ### Shared -/

/-- An instruction of two sources, per thread. -/
def vecOp2 (s : State) (k : Ctl) (d a : Desc) (b : SrcB) (ty : ITy) (sat : Bool) (f : DWord → DWord → Int) :
    Host.Outcome State Fault Refusal :=
  instr s (.plain k (dst d (spanOf ty.wide) :: src a (spanOf ty.wide) :: srcB b (spanOf ty.wide))) noOwn fun c act =>
    c.eachI act d ty sat fun t => f (c.readI t a ty) (c.readB t b ty)

/-- An instruction of three sources, per thread. -/
def vecOp3 (s : State) (k : Ctl) (d a b e : Desc) (ty : ITy) (sat : Bool) (f : DWord → DWord → DWord → Int) :
    Host.Outcome State Fault Refusal :=
  instr s (.plain k [dst d (spanOf ty.wide), src a (spanOf ty.wide), src b (spanOf ty.wide), src e (spanOf ty.wide)]) noOwn
    fun c act => c.eachI act d ty sat fun t => f (c.readI t a ty) (c.readI t b ty) (c.readI t e ty)

/-- The quotient and the remainder of 11 R211. -/
def quoRem (ty : ITy) (a b : Int) : Int × Int :=
  if b = 0 then (if ty.signed then -1 else 2 ^ ty.bits - 1, a)
  else (Int.tdiv a b, a - Int.tdiv a b * b)

/-- Position and length of a bit field (11 R212). -/
def fieldPos (ty : ITy) (b : DWord) : Nat × Nat := ((b.extractLsb' 0 8).toNat, min (b.extractLsb' 8 8).toNat ty.bits)

/-- VBFX (11 R212). -/
def bfxVal (ty : ITy) (a b : DWord) : Int :=
  let (pos, len) := fieldPos ty b
  let f := ty.unsignedVal a / 2 ^ pos % 2 ^ len
  if ty.signed && len != 0 && f / 2 ^ (len - 1) % 2 == 1 then (f : Int) - 2 ^ len else f

/-- VBFI (11 R212). -/
def bfiVal (ty : ITy) (a b e : DWord) : Int :=
  let (pos, len) := fieldPos ty e
  let w := ty.bits
  let mask := (2 ^ len - 1) * 2 ^ pos % 2 ^ w
  let x := ty.unsignedVal a
  ((x &&& (2 ^ w - 1 - mask)) ||| ((ty.unsignedVal b * 2 ^ pos) &&& mask) : Nat)

/-- VFUN (11 R212). -/
def funVal (ty : ITy) (left : Bool) (a b e : DWord) : Int :=
  let w := ty.bits
  let cat := ty.unsignedVal a * 2 ^ w + ty.unsignedVal b
  let n := ty.unsignedVal e % w
  (if left then cat * 2 ^ n / 2 ^ w % 2 ^ w else cat / 2 ^ n % 2 ^ w : Nat)

/-- VCNT (11 R212). -/
def cntVal (ty : ITy) (op : CntOp) (a : DWord) : Int :=
  let w := ty.bits
  let x := ty.unsignedVal a
  match op with
  | .pop => ((List.range w).countP fun i => x / 2 ^ i % 2 = 1 : Nat)
  | .clz => (((List.range w).find? fun i => x / 2 ^ (w - 1 - i) % 2 = 1).getD w : Nat)
  | .ctz => (((List.range w).find? fun i => x / 2 ^ i % 2 = 1).getD w : Nat)
  | .brev => ((List.range w).foldl (fun m i => m + (x / 2 ^ i % 2) * 2 ^ (w - 1 - i)) 0 : Nat)

/-- VPRM (11 R212): byte j is 0, or one of the eight bytes of b‖a. -/
def prmVal (a b e : DWord) : Int :=
  let cat := (a.toNat % 2 ^ 32) + (b.toNat % 2 ^ 32) * 2 ^ 32
  ((List.range 4).foldl (fun m j =>
    let n := e.toNat / 2 ^ (4 * j) % 16
    m + (if 8 ≤ n then 0 else cat / 2 ^ (8 * n) % 256) * 2 ^ (8 * j)) 0 : Nat)

/-! ### Moves and arithmetic -/

/-- VMOV (11 R210): from a source, to an index register, from an index register. -/
def execVmov (k : Ctl) (op : VMovOp) (ty : ITy) (s : State) : Host.Outcome State Fault Refusal :=
  match op with
  | .reg d b =>
    instr s (.plain k (dst d (spanOf ty.wide) :: srcB b (spanOf ty.wide))) noOwn fun c act =>
      c.eachI act d ty false fun t => ty.val (c.readB t b ty)
  | .toIdx i b sat =>
    instr s { Meta.plain k [src b (spanOf ty.wide)] with noHnd := true } noOwn fun c act =>
      .ok (.of (c.put ((lanesOf act).foldl (fun w t =>
        let x := ty.val (c.readI t b ty)
        w.setI t i.toNat (BitVec.ofInt 8 (if sat then clampInt 0 255 x else x))) c.w)))
  | .fromIdx d i =>
    instr s { Meta.plain k [dst d (spanOf ty.wide)] with noHnd := true } noOwn fun c act =>
      c.eachI act d ty false fun t => ((c.w.getI t i.toNat).toNat : Int)

/-- VADD. -/
def execVadd (k : Ctl) (d a : Desc) (b : SrcB) (ty : ITy) (sat : Bool) (s : State) : Host.Outcome State Fault Refusal :=
  vecOp2 s k d a b ty sat fun x y => ty.val x + ty.val y
/-- VSUB. -/
def execVsub (k : Ctl) (d a : Desc) (b : SrcB) (ty : ITy) (sat : Bool) (s : State) : Host.Outcome State Fault Refusal :=
  vecOp2 s k d a b ty sat fun x y => ty.val x - ty.val y
/-- VMUL, and the high product under HI. -/
def execVmul (k : Ctl) (d a : Desc) (b : SrcB) (ty : ITy) (hi sat : Bool) (s : State) :
    Host.Outcome State Fault Refusal :=
  vecOp2 s k d a b ty sat fun x y => if hi then ty.val x * ty.val y / 2 ^ ty.bits else ty.val x * ty.val y
/-- VMAD. -/
def execVmad (k : Ctl) (d a b e : Desc) (ty : ITy) (sat : Bool) (s : State) : Host.Outcome State Fault Refusal :=
  vecOp3 s k d a b e ty sat fun x y z => ty.val x * ty.val y + ty.val z
/-- VQUO (11 R211). -/
def execVquo (k : Ctl) (d a : Desc) (b : SrcB) (ty : ITy) (rem sat : Bool) (s : State) :
    Host.Outcome State Fault Refusal :=
  vecOp2 s k d a b ty sat fun x y => if rem then (quoRem ty (ty.val x) (ty.val y)).2 else (quoRem ty (ty.val x) (ty.val y)).1
/-- VAND. -/
def execVand (k : Ctl) (d a : Desc) (b : SrcB) (ty : ITy) (s : State) : Host.Outcome State Fault Refusal :=
  vecOp2 s k d a b ty false fun x y => ty.val (x &&& y)
/-- VOR. -/
def execVor (k : Ctl) (d a : Desc) (b : SrcB) (ty : ITy) (s : State) : Host.Outcome State Fault Refusal :=
  vecOp2 s k d a b ty false fun x y => ty.val (x ||| y)
/-- VXOR. -/
def execVxor (k : Ctl) (d a : Desc) (b : SrcB) (ty : ITy) (s : State) : Host.Outcome State Fault Refusal :=
  vecOp2 s k d a b ty false fun x y => ty.val (x ^^^ y)
/-- VBIC: a AND NOT b. -/
def execVbic (k : Ctl) (d a : Desc) (b : SrcB) (ty : ITy) (s : State) : Host.Outcome State Fault Refusal :=
  vecOp2 s k d a b ty false fun x y => ty.val (x &&& ~~~ y)
/-- VSHL (11 R207). -/
def execVshl (k : Ctl) (d a : Desc) (b : SrcB) (ty : ITy) (sat : Bool) (s : State) : Host.Outcome State Fault Refusal :=
  vecOp2 s k d a b ty sat fun x y => shiftVal ty .shl x y
/-- VSHR (11 R207). -/
def execVshr (k : Ctl) (d a : Desc) (b : SrcB) (ty : ITy) (s : State) : Host.Outcome State Fault Refusal :=
  vecOp2 s k d a b ty false fun x y => shiftVal ty .shr x y
/-- VFUN. -/
def execVfun (k : Ctl) (d a b e : Desc) (ty : ITy) (left : Bool) (s : State) : Host.Outcome State Fault Refusal :=
  vecOp3 s k d a b e ty false fun x y z => funVal ty left x y z
/-- VBFX. -/
def execVbfx (k : Ctl) (d a : Desc) (b : SrcB) (ty : ITy) (s : State) : Host.Outcome State Fault Refusal :=
  vecOp2 s k d a b ty false fun x y => bfxVal ty x y
/-- VBFI. -/
def execVbfi (k : Ctl) (d a b e : Desc) (ty : ITy) (s : State) : Host.Outcome State Fault Refusal :=
  vecOp3 s k d a b e ty false fun x y z => bfiVal ty x y z
/-- VCNT. -/
def execVcnt (k : Ctl) (d a : Desc) (op : CntOp) (ty : ITy) (s : State) : Host.Outcome State Fault Refusal :=
  instr s (.plain k [dst d (spanOf ty.wide), src a (spanOf ty.wide)]) noOwn fun c act =>
    c.eachI act d ty false fun t => cntVal ty op (c.readI t a ty)
/-- VMIN. -/
def execVmin (k : Ctl) (d a : Desc) (b : SrcB) (ty : ITy) (s : State) : Host.Outcome State Fault Refusal :=
  vecOp2 s k d a b ty false fun x y => min (ty.val x) (ty.val y)
/-- VMAX. -/
def execVmax (k : Ctl) (d a : Desc) (b : SrcB) (ty : ITy) (s : State) : Host.Outcome State Fault Refusal :=
  vecOp2 s k d a b ty false fun x y => max (ty.val x) (ty.val y)
/-- VABSD: |a − b|. -/
def execVabsd (k : Ctl) (d a : Desc) (b : SrcB) (ty : ITy) (sat : Bool) (s : State) : Host.Outcome State Fault Refusal :=
  vecOp2 s k d a b ty sat fun x y => ((ty.val x - ty.val y).natAbs : Int)

/-! ### Predicates (11 R213) -/

/-- A predicate written by a comparison in the acting threads. -/
def Ctx.setPred (c : Ctx) (act : Lanes) (p : BitVec 3) (comb : Combine) (f : Nat → Bool) : Verdict :=
  let old := c.w.getP p.toNat
  .ok (.of (c.put (c.w.setP p.toNat (mergeLanes act (lanesWhere act fun t => comb.apply (old.getLsbD t) (f t)) old))))

/-- VCMP. -/
def execVcmp (k : Ctl) (p : BitVec 3) (a : Desc) (b : SrcB) (ty : ITy) (cond : Cond) (comb : Combine) (s : State) :
    Host.Outcome State Fault Refusal :=
  instr s { Meta.plain k (src a (spanOf ty.wide) :: srcB b (spanOf ty.wide)) with noHnd := p != 7 } noOwn
    fun c act => c.setPred act p comb fun t => cond.holds (ty.val (c.readI t a ty)) (ty.val (c.readB t b ty))

/-- VSEL. -/
def execVsel (k : Ctl) (d a : Desc) (b : SrcB) (ty : ITy) (n : BitVec 3) (neg : Bool) (s : State) :
    Host.Outcome State Fault Refusal :=
  instr s { Meta.plain k (dst d (spanOf ty.wide) :: src a (spanOf ty.wide) :: srcB b (spanOf ty.wide)) with noHnd := n != 7 }
    noOwn fun c act => c.eachI act d ty false fun t =>
      if (c.w.getP n.toNat).getLsbD t != neg then ty.val (c.readI t a ty) else ty.val (c.readB t b ty)

/-! ### Addresses and byte permutes (11 R212, R214) -/

/-- VADDR: a 64-bit base and a scaled 32-bit offset; the result is 64 bits. -/
def execVaddr (k : Ctl) (d a : Desc) (b : SrcB) (uns : Bool) (sh : BitVec 3) (s : State) :
    Host.Outcome State Fault Refusal :=
  instr s (.plain k (dst d 2 :: src a 2 :: srcB b)) noOwn fun c act =>
    .ok (.of (c.dest d true ((lanesOf act).map fun t =>
      let x := c.readB32 t b
      let off : DWord := if uns then x.zeroExtend 64 else x.signExtend 64
      (t, c.read64 t a false + off <<< sh.toNat)) c.s))

/-- VPRM. -/
def execVprm (k : Ctl) (d a b e : Desc) (uns : Bool) (s : State) : Host.Outcome State Fault Refusal :=
  vecOp3 s k d a b e (if uns then .n32 else .s32) false fun x y z => prmVal x y z

/-! ### Cross-lane instructions (11 R215 to R217) -/

/-- The span of a thread: its first thread and its size. -/
def Wave.spanFrom (w : Wave) (all : Bool) (t : Nat) : Nat × Nat := if all then (0, w.threads) else (t / 32 * 32, 32)

/-- The source thread of VSHFL; none outside the span. -/
def shflFrom (mode : ShflMode) (size rel n : Nat) : Option Nat :=
  let x : Option Nat := match mode with
    | .idx => some n
    | .up => if n ≤ rel then some (rel - n) else none
    | .down => some (rel + n)
    | .xor => some (rel ^^^ n)
  x.filter fun y => y < size

/-- The register of `a` read in another thread: an indexed descriptor names the register that the reader's own index
register selects (11 R215). -/
def Ctx.readFrom (c : Ctx) (t src : Nat) (a : Desc) (ty : ITy) : DWord :=
  match a with
  | .idx i off =>
    let n := c.w.indexed t i off
    if ty.wide then c.w.getV2 src n else (c.w.getV src n).zeroExtend 64
  | _ => c.readI src a ty

/-- VSHFL. -/
def execVshfl (k : Ctl) (d a : Desc) (b : SrcB) (ty : ITy) (mode : ShflMode) (all : Bool) (s : State) :
    Host.Outcome State Fault Refusal :=
  instr s { Meta.plain k (dst d (spanOf ty.wide) :: src a (spanOf ty.wide) :: srcB b (spanOf ty.wide)) with xlane := true }
    noOwn fun c act => c.eachI act d ty false fun t =>
      let (lo, size) := c.w.spanFrom all t
      let n := ty.unsignedVal (c.readB t b ty)
      ty.val (c.readFrom t (((shflFrom mode size (t - lo) n).map fun x => lo + x).getD t) a ty)

/-- VMATCH: a 32-bit mask in one register, whatever the type; under .S32 a uniform destination extends its sign (01 R16). -/
def execVmatch (k : Ctl) (d a : Desc) (ty : ITy) (s : State) : Host.Outcome State Fault Refusal :=
  instr s { Meta.plain k [dst d, src a (spanOf ty.wide)] with xlane := true } noOwn fun c act =>
    .ok (.of (c.dest d false ((lanesOf act).map fun t =>
      let mine := ty.unsignedVal (c.readI t a ty)
      let bits := (List.range 32).foldl (fun m l =>
        let u := t / 32 * 32 + l
        if act.getLsbD u && ty.unsignedVal (c.readI u a ty) == mine then m ||| 2 ^ l else m) 0
      (t, if ty = .s32 then (BitVec.ofNat 32 bits).signExtend 64 else BitVec.ofNat 64 bits)) c.s))

/-- One step of VSCAN. -/
def scanStep (ty : ITy) (op : ScanOp) (sat : Bool) (acc x : Int) : Int :=
  match op with
  | .add => ty.val (ty.finish sat (acc + x))
  | .min => min acc x
  | .max => max acc x

/-- The identity of a VSCAN operation. -/
def scanId (ty : ITy) (op : ScanOp) : Int :=
  match op with
  | .add => 0
  | .min => ty.maxOf
  | .max => ty.minOf

/-- The prefix that a thread receives: over the acting threads of its segment before it, and itself unless `excl`. -/
def scanVal (ty : ITy) (op : ScanOp) (sat excl : Bool) (before : List Int) (own : Int) : Int :=
  let acc := before.foldl (scanStep ty op sat) (scanId ty op)
  if excl then acc else scanStep ty op sat acc own

/-- VSCAN. -/
def execVscan (k : Ctl) (d a : Desc) (key : Option Desc) (ty : ITy) (op : ScanOp) (excl all sat : Bool) (s : State) :
    Host.Outcome State Fault Refusal :=
  let keyField := match key with
    | some x => [src x (spanOf ty.wide)]
    | none => []
  instr s { Meta.plain k (dst d (spanOf ty.wide) :: src a (spanOf ty.wide) :: keyField) with xlane := true } noOwn
    fun c act => c.eachI act d ty false fun t =>
      let (lo, _) := c.w.spanFrom all t
      let same (u : Nat) : Bool := match key with
        | some x => ty.unsignedVal (c.readI u x ty) == ty.unsignedVal (c.readI t x ty)
        | none => true
      let before := (lanesOf act).filter fun u => lo ≤ u && u < t && same u
      scanVal ty op sat excl (before.map fun u => ty.val (c.readI u a ty)) (ty.val (c.readI t a ty))

end Sys2Proof.Machine
end

