-- ==== Sys2Proof/Machine/VecFloat.lean ====
section
/-!
DEFINITION. Sys2Proof/Machine/VecFloat.lean: the meanings of the VEC floating-point and conversion instructions (12 R219 to
R236). Results are computed exactly and rounded once by `Fmt.finish`.
-/
namespace Sys2Proof.Machine

open Sys2Proof

/-! ### Operands (12 R219) -/

/-- 64-bit formats. -/
def wideF (f : FCode) : Bool := f == .fp64
/-- Registers that an operand of the type spans. -/
def spanF (t : FTy) : Nat := spanOf (wideF t.fcode)

/-- The exact value of an inline integer (08 R154). -/
def inlineVal (n : BitVec 5) : FVal := .fin (inlineInt n < 0) (inlineInt n).natAbs 0

/-- The bits of a source at a format: its low bits, or an inline integer's value in the format. -/
def Ctx.readFBits (c : Ctx) (t : Nat) (d : Desc) (f : FCode) : Nat :=
  match d with
  | .inline n => f.fmt.finish .rn false (inlineVal n)
  | _ => (if wideF f then (c.read64 t d false).toNat else (c.read32 t d).toNat) % 2 ^ (f.fmt.top + 1)

/-- The exact value of a source at a format. -/
def Ctx.readF (c : Ctx) (t : Nat) (d : Desc) (f : FCode) : FVal :=
  match d with
  | .inline n => inlineVal n
  | _ => f.fmt.value (c.readFBits t d f)

/-- The bits of the second source; a literal is an FP32 pattern. -/
def Ctx.readBBits (c : Ctx) (t : Nat) (b : SrcB) (f : FCode) : Nat :=
  match b with
  | .desc d => c.readFBits t d f
  | .lit w => w.toNat

/-- The exact value of the second source. -/
def Ctx.readBF (c : Ctx) (t : Nat) (b : SrcB) (f : FCode) : FVal :=
  match b with
  | .desc d => c.readF t d f
  | .lit w => FCode.fp32.fmt.value w.toNat

/-- Results of a format in the acting threads; the remaining bits of the register are zero (12 R219). -/
def Ctx.eachF (c : Ctx) (act : Lanes) (d : Desc) (f : FCode) (g : Nat → Nat) : Verdict :=
  .ok (.of (c.dest d (wideF f) ((lanesOf act).map fun t => (t, BitVec.ofNat 64 (g t))) c.s))

/-- An instruction of one source: bits to bits. -/
def floatOp1 (s : State) (k : Ctl) (d a : Desc) (ty : FTy) (f : Nat → Nat) : Host.Outcome State Fault Refusal :=
  instr s (.plain k [dst d (spanF ty), src a (spanF ty)]) noOwn fun c act =>
    c.eachF act d ty.fcode fun t => f (c.readFBits t a ty.fcode)

/-- An instruction of two sources: bits to bits. -/
def floatOp2 (s : State) (k : Ctl) (d a : Desc) (b : SrcB) (ty : FTy) (f : Nat → Nat → Nat) :
    Host.Outcome State Fault Refusal :=
  instr s (.plain k (dst d (spanF ty) :: src a (spanF ty) :: srcB b (spanF ty))) noOwn fun c act =>
    c.eachF act d ty.fcode fun t => f (c.readFBits t a ty.fcode) (c.readBBits t b ty.fcode)

/-- An instruction of two sources: exact values to an exact value, finished once. -/
def floatExact2 (s : State) (k : Ctl) (d a : Desc) (b : SrcB) (ty : FTy) (rm : RM) (sat : Bool) (f : FVal → FVal → FVal) :
    Host.Outcome State Fault Refusal :=
  floatOp2 s k d a b ty fun x y => ty.fmt.finish rm sat (f (ty.fmt.value x) (ty.fmt.value y))

/-! ### Arithmetic (12 R222) -/

/-- FADD. -/
def execFadd (k : Ctl) (d a : Desc) (b : SrcB) (ty : FTy) (rm : RM) (sat : Bool) (s : State) :
    Host.Outcome State Fault Refusal := floatExact2 s k d a b ty rm sat fun x y => exactSum rm [x, y]
/-- FSUB. -/
def execFsub (k : Ctl) (d a : Desc) (b : SrcB) (ty : FTy) (rm : RM) (sat : Bool) (s : State) :
    Host.Outcome State Fault Refusal := floatExact2 s k d a b ty rm sat fun x y => exactSum rm [x, y.neg]
/-- FMUL. -/
def execFmul (k : Ctl) (d a : Desc) (b : SrcB) (ty : FTy) (rm : RM) (sat : Bool) (s : State) :
    Host.Outcome State Fault Refusal := floatExact2 s k d a b ty rm sat FVal.mul
/-- FDIV. -/
def execFdiv (k : Ctl) (d a : Desc) (b : SrcB) (ty : FTy) (rm : RM) (sat : Bool) (s : State) :
    Host.Outcome State Fault Refusal := floatExact2 s k d a b ty rm sat FVal.div

/-- FMA: one rounding. -/
def execFma (k : Ctl) (d a b e : Desc) (ty : FTy) (rm : RM) (sat : Bool) (s : State) : Host.Outcome State Fault Refusal :=
  instr s (.plain k [dst d (spanF ty), src a (spanF ty), src b (spanF ty), src e (spanF ty)]) noOwn fun c act =>
    c.eachF act d ty.fcode fun t =>
      ty.fmt.finish rm sat (exactSum rm [(c.readF t a ty.fcode).mul (c.readF t b ty.fcode), c.readF t e ty.fcode])

/-- FSQRT. -/
def execFsqrt (k : Ctl) (d a : Desc) (ty : FTy) (rm : RM) (s : State) : Host.Outcome State Fault Refusal :=
  floatOp1 s k d a ty fun x => ty.fmt.finish rm false (ty.fmt.value x).sqrt

/-! ### Bits passed through (12 R223) -/

/-- The lesser or the greater of two patterns, −0 below +0; a lone NaN gives way. -/
def minMaxBits (f : Fmt) (max : Bool) (a b : Nat) : Nat :=
  if f.isNan a && f.isNan b then f.nanBits
  else if f.isNan a then b
  else if f.isNan b then a
  else
    let x := f.value a
    let y := f.value b
    let below := x.lt y || (!y.lt x && f.signOf a)
    if below != max then a else b

/-- FMIN. -/
def execFmin (k : Ctl) (d a : Desc) (b : SrcB) (ty : FTy) (s : State) : Host.Outcome State Fault Refusal :=
  floatOp2 s k d a b ty (minMaxBits ty.fmt false)
/-- FMAX. -/
def execFmax (k : Ctl) (d a : Desc) (b : SrcB) (ty : FTy) (s : State) : Host.Outcome State Fault Refusal :=
  floatOp2 s k d a b ty (minMaxBits ty.fmt true)

/-- The sign that FSGN writes. -/
def sgnSign (op : SgnOp) (a b : Bool) : Bool :=
  match op with
  | .copy => b
  | .neg => !b
  | .xor => a != b

/-- FSGN. -/
def execFsgn (k : Ctl) (d a : Desc) (b : SrcB) (ty : FTy) (op : SgnOp) (s : State) : Host.Outcome State Fault Refusal :=
  floatOp2 s k d a b ty fun x y => ty.fmt.join (sgnSign op (ty.fmt.signOf x) (ty.fmt.signOf y)) (ty.fmt.magOf x)

/-! ### Comparison and class (12 R224, R225) -/

/-- FCMP. -/
def execFcmp (k : Ctl) (p : BitVec 3) (a : Desc) (b : SrcB) (ty : FTy) (cond : FCond) (comb : Combine) (s : State) :
    Host.Outcome State Fault Refusal :=
  instr s { Meta.plain k (src a (spanF ty) :: srcB b (spanF ty)) with noHnd := p != 7 } noOwn
    fun c act => c.setPred act p comb fun t => cond.holds (c.readF t a ty.fcode) (c.readBF t b ty.fcode)

/-- The class bit of a pattern. -/
def classBit (f : Fmt) (x : Nat) : Nat :=
  let neg := f.signOf x
  let mag := f.magOf x
  if f.isNan x then (if mag / 2 ^ (f.fb - 1) % 2 = 1 then 9 else 8)
  else if f.isInf x then (if neg then 0 else 7)
  else if mag = 0 then (if neg then 3 else 4)
  else if mag < 2 ^ f.fb then (if neg then 2 else 5)
  else if neg then 1 else 6

/-- FCLASS: a 32-bit integer with one bit set. -/
def execFclass (k : Ctl) (d a : Desc) (ty : FTy) (s : State) : Host.Outcome State Fault Refusal :=
  instr s (.plain k [dst d, src a (spanF ty)]) noOwn fun c act =>
    c.eachF act d .fp32 fun t => 2 ^ classBit ty.fmt (c.readFBits t a ty.fcode)

/-! ### Transcendentals and rounding (12 R226, R227) -/

/-- FRCP. -/
def execFrcp (k : Ctl) (d a : Desc) (ty : FTy) (rm : RM) (sat : Bool) (s : State) : Host.Outcome State Fault Refusal :=
  floatOp1 s k d a ty fun x => ty.fmt.finish rm sat (FVal.div (.fin false 1 0) (ty.fmt.value x))
/-- FRSQ. -/
def execFrsq (k : Ctl) (d a : Desc) (ty : FTy) (rm : RM) (sat : Bool) (s : State) : Host.Outcome State Fault Refusal :=
  floatOp1 s k d a ty fun x => ty.fmt.finish rm sat (ty.fmt.value x).rsqrt
/-- FEXP2. -/
def execFexp2 (k : Ctl) (d a : Desc) (ty : FTy) (rm : RM) (sat : Bool) (s : State) : Host.Outcome State Fault Refusal :=
  floatOp1 s k d a ty (exp2Bits ty.fmt rm sat)
/-- FLOG2. -/
def execFlog2 (k : Ctl) (d a : Desc) (ty : FTy) (rm : RM) (s : State) : Host.Outcome State Fault Refusal :=
  floatOp1 s k d a ty (log2Bits ty.fmt rm)
/-- FTRIG. -/
def execFtrig (k : Ctl) (d a : Desc) (ty : FTy) (cos : Bool) (rm : RM) (s : State) : Host.Outcome State Fault Refusal :=
  floatOp1 s k d a ty (trigBits ty.fmt cos rm)
/-- FRND. -/
def execFrnd (k : Ctl) (d a : Desc) (ty : FTy) (rm : RM) (s : State) : Host.Outcome State Fault Refusal :=
  floatOp1 s k d a ty fun x => ty.fmt.finish rm false ((ty.fmt.value x).integral rm)

/-! ### Conversions (12 R228 to R230) -/

/-- CVTF. -/
def execCvtf (k : Ctl) (d a : Desc) (dir : CvtDir) (ty : FTy) (rm : RM) (sat : Bool) (s : State) :
    Host.Outcome State Fault Refusal :=
  let (from', into) := match dir with
    | .toCode f => (ty.fcode, f)
    | .fromCode f => (f, ty.fcode)
  instr s (.plain k [dst d (spanOf (wideF into)), src a (spanOf (wideF from'))]) noOwn fun c act =>
    c.eachF act d into fun t => into.fmt.finish rm sat (c.readF t a from')

/-- A float rounded and clamped to an integer type (12 R229). -/
def floatToInt (ity : ITy) (rm : RM) (x : FVal) : Int :=
  match x with
  | .nan => 0
  | .inf neg => if neg then ity.minOf else ity.maxOf
  | .fin neg m e => clampInt ity.minOf ity.maxOf (roundInt rm neg m e)

/-- CVTI. -/
def execCvti (k : Ctl) (d a : Desc) (toFloat : Bool) (ity : ITy) (ty : FTy) (rm : RM) (sat : Bool) (s : State) :
    Host.Outcome State Fault Refusal :=
  if toFloat then
    instr s (.plain k [dst d (spanF ty), src a (spanOf ity.wide)]) noOwn fun c act =>
      c.eachF act d ty.fcode fun t =>
        let x := ity.val (c.readI t a ity)
        ty.fmt.finish rm sat (.fin (x < 0) x.natAbs 0)
  else
    instr s (.plain k [dst d (spanOf ity.wide), src a (spanF ty)]) noOwn fun c act =>
      c.eachI act d ity false fun t => floatToInt ity rm (c.readF t a ty.fcode)

/-- A field of `w` bits at position `j` of a word replaced. -/
def setField (x w j v : Nat) : Nat := x - x / 2 ^ (w * j) % 2 ^ w * 2 ^ (w * j) + v * 2 ^ (w * j)

/-- FPACK: two fields of d are written, every other bit is kept. -/
def execFpack (k : Ctl) (d a b : Desc) (into : FCode) (pos : BitVec 2) (ty : FTy) (rm : RM) (sat : Bool) (s : State) :
    Host.Outcome State Fault Refusal :=
  instr s (.plain k [dst d, src a (spanF ty), src b (spanF ty)]) noOwn fun c act =>
    c.eachF act d .fp32 fun t =>
      let w := into.fmt.top + 1
      let x := into.fmt.finish rm sat (c.readF t a ty.fcode)
      let y := into.fmt.finish rm sat (c.readF t b ty.fcode)
      setField (setField (c.read32 t d).toNat w (2 * pos.toNat) x) w (2 * pos.toNat + 1) y

/-! ### Block quantisation (12 R231 to R233) -/

/-- The greatest finite magnitude of a list; zero of none. -/
def maxAbs (l : List FVal) : FVal :=
  l.foldl (fun m x => if x.finite && m.lt x.abs then x.abs else m) (.fin false 0 0)

/-- The size of the Hadamard block of a format; 0 without. -/
def qHad : QFmt → Nat
  | .s4h16 | .e4m3h16 => 16
  | .s4h32 | .e4m3h32 => 32
  | .int8 | .e4m3 | .e5m2 | .s4 => 0

/-- The elements as the format transforms them (10 R191). -/
def qRotate (q : QFmt) (rm : RM) (l : List FVal) : List FVal :=
  if qHad q = 0 then l else hadamardBlocks rm (qHad q) (l.length / qHad q) l

/-- The element format of an 8-bit line format: none for INT8. -/
def qElem : QFmt → Option Fmt
  | .int8 => none
  | .e5m2 => some FCode.e5m2.fmt
  | .e4m3 | .e4m3h16 | .e4m3h32 | .s4 | .s4h16 | .s4h32 => some FCode.e4m3.fmt

/-- The largest finite value of an 8-bit format. -/
def qFmax (q : QFmt) : FVal :=
  match qElem q with
  | none => .fin false 127 0
  | some f => f.value f.maxMag

/-- The code of a scaled element (QBLK8). -/
def qEncode (q : QFmt) (rm : RM) (x : FVal) : Nat :=
  match qElem q with
  | none =>
    let n : Int := match x with
      | .nan => 0
      | .inf neg => if neg then -127 else 127
      | .fin neg m e => clampInt (-127) 127 (roundInt rm neg m e)
    (BitVec.ofInt 8 n).toNat
  | some f =>
    match x with
    | .nan => f.nanBits
    | .inf neg => f.join neg (if f.sp = .ieee then f.infMag else f.maxMag)
    | .fin _ _ _ => f.finish rm true x

/-- QBLK8: the 32 image words of one pass from its 64 elements. -/
def qblk8 (q : QFmt) (rm : RM) (l : List FVal) : List Nat :=
  let x := qRotate q rm l
  let m := maxAbs x
  let sc : Nat := if m.isZero then 127
    else ((List.range 255).find? fun (i : Nat) => !((qFmax q).scale ((i : Int) - 127)).lt m).getD 254
  let code (e : Nat) : Nat := qEncode q rm ((x[e]?.getD (.fin false 0 0)).scale (127 - (sc : Int)))
  (List.range 32).map fun i => q.code.toNat * 2 ^ 24 + sc * 2 ^ 16 + code (2 * i + 1) * 256 + code (2 * i)

/-- The micro-scale code of a block: the least I with 6·I/128 · β ≥ m (QBLKS4, both sides times β). -/
def microScale (beta m : FVal) : Nat :=
  ((List.range 256).find? fun i => !((beta.mul (.fin false (6 * e3m5 i) 0)).lt (m.scale 7))).getD 255

/-- QBLKS4: the 32 image words of one pass from its 128 elements. Elements are transformed before the division by β, which
the transform commutes with, so that one rounding sees the exact value. -/
def qblkS4 (q : QFmt) (rm : RM) (beta : FVal) (l : List FVal) : List Nat :=
  if !beta.finite || beta.sign || beta.isZero then List.replicate 32 (q.code.toNat * 2 ^ 24)
  else
    let x := qRotate q rm l
    let ms : List Nat := (List.range 16).map fun j => microScale beta (maxAbs ((x.drop (8 * j)).take 8))
    let code (e : Nat) : Nat :=
      let i := e3m5 (ms[e / 8]?.getD 0)
      let v := x[e]?.getD .nan
      if i = 0 || v == .nan then 0
      else FCode.e2m1.fmt.finish rm false ((v.scale 7).div (beta.mul (.fin false i 0)))
    (List.range 32).map fun t =>
      q.code.toNat * 2 ^ 24 + (ms[t / 2]?.getD 0) * 2 ^ 16 +
        (List.range 4).foldl (fun m j => m + code (4 * t + j) * 16 ^ j) 0

/-- The depth passes in which some thread acts. -/
def Ctx.passes (c : Ctx) (act : Lanes) : List Nat :=
  (List.range c.w.depth).filter fun p => (act.extractLsb' (32 * p) 32 : BitVec 32) != 0

/-- The register of a v descriptor. -/
def regOf : Desc → Nat
  | .v n => n.toNat
  | _ => 0

/-- QBLK. -/
def execQblk (k : Ctl) (d a b e : Desc) (q : QFmt) (ty : FTy) (rm : RM) (s : State) : Host.Outcome State Fault Refusal :=
  let n := if q.isS4 then 2 else 1
  instr s { Meta.plain k ([dst d, src a n, src b n] ++ (if q.isS4 then [src e] else [])) with xlane := true }
    (fun _ => if q.isS4 && !(isV a && isV b) then some (cOperand 5) else none) fun c act =>
      let elems (t : Nat) : List FVal :=
        let zero : FVal := .fin false 0 0
        if q.isS4 then
          if act.getLsbD t then
            [regOf a, regOf a + 1, regOf b, regOf b + 1].map fun r => FCode.fp32.fmt.value (c.w.getV t r).toNat
          else List.replicate 4 zero
        else if act.getLsbD t then [c.readF t a ty.fcode, c.readF t b ty.fcode] else List.replicate 2 zero
      let image (p : Nat) : List Nat :=
        let l := (List.range 32).flatMap fun i => elems (32 * p + i)
        if q.isS4 then
          qblkS4 q rm (c.readF (((lanesOf act).find? fun t => t / 32 = p).getD 0) e .fp32) l
        else qblk8 q rm l
      let images := (c.passes act).map fun p => (p, image p)
      c.eachF act d .fp32 fun t => ((lookD images (t / 32) [])[t % 32]?).getD 0

/-- The S4 family among line formats that DQBLK reads; none outside the set (12 R233). -/
def imageS4 (fmt : Nat) : Option Bool := (QFmt.ofCode (BitVec.ofNat 5 fmt)).bind fun q =>
  if fmt < 32 then some q.isS4 else none

/-- The checks of DQBLK in a thread. -/
def dqblkFault (w : Wave) (d : Desc) (x : Nat) : Option (BitVec 10) :=
  match imageS4 (x / 2 ^ 24) with
  | none => some (cOperand 7)
  | some true =>
    if regOf d % 4 ≠ 0 then some (cOperand 1) else if w.vregs ≤ regOf d + 3 then some (cOperand 0) else none
  | some false => none

/-- The values of an image word, without β. -/
def imageValues (x : Nat) : List FVal :=
  let fmt := x / 2 ^ 24
  let sc := x / 2 ^ 16 % 256
  match imageS4 fmt with
  | some true =>
    (List.range 4).map fun j =>
      (FCode.e2m1.fmt.value (x / 16 ^ j % 16)).mul (.fin false (e3m5 sc) (-7))
  | _ =>
    (List.range 2).map fun j =>
      let c := x / 256 ^ j % 256
      if sc = 255 then .nan
      else
        let v : FVal := if fmt = 1 then
            let n := (BitVec.ofNat 8 c).toInt
            .fin (n < 0) n.natAbs 0
          else (if fmt = 3 then FCode.e5m2.fmt else FCode.e4m3.fmt).value c
        v.scale ((sc : Int) - 127)

/-- DQBLK. -/
def execDqblk (k : Ctl) (d a b : Desc) (ty : FTy) (rm : RM) (sat : Bool) (s : State) : Host.Outcome State Fault Refusal :=
  instrEach s (.plain k [dst d 2, src a, src b (spanF ty)]) (fun _ => if isV d then none else some (cOperand 5))
    (fun c _ t => (dqblkFault c.w d (c.read32 t a).toNat).map fun x => (x, 0)) fun c act =>
      .ok (.of (c.put ((lanesOf act).foldl (fun w t =>
        (imageValues (c.read32 t a).toNat).zipIdx.foldl (fun w p =>
          w.setV t (regOf d + p.2)
            (BitVec.ofNat 32 (ty.fmt.finish rm sat (p.1.mul (c.readF t b ty.fcode))))) w) c.w)))

/-! ### Hadamard, dot, reduction (12 R234, R235) -/

/-- HADM. -/
def execHadm (k : Ctl) (d a : Desc) (ty : FTy) (h32 : Bool) (rm : RM) (sat : Bool) (s : State) :
    Host.Outcome State Fault Refusal :=
  instr s { Meta.plain k [dst d (spanF ty), src a (spanF ty)] with xlane := true } noOwn fun c act =>
    let n := if h32 then 32 else 16
    let out (p : Nat) : List FVal :=
      hadamardBlocks rm n (32 / n) ((List.range 32).map fun i =>
        if act.getLsbD (32 * p + i) then c.readF (32 * p + i) a ty.fcode else .fin false 0 0)
    let outs := (c.passes act).map fun p => (p, out p)
    c.eachF act d ty.fcode fun t => ty.fmt.finish rm sat (((lookD outs (t / 32) [])[t % 32]?).getD (.fin false 0 0))

/-- The two 16-bit elements of an operand (08 R154). -/
def Ctx.readPair (c : Ctx) (t : Nat) (d : Desc) (ty : FTy) : FVal × FVal :=
  match d with
  | .inline n => (inlineVal n, inlineVal n)
  | _ =>
    let x := (c.read32 t d).toNat
    (ty.fmt.value (x % 2 ^ 16), ty.fmt.value (x / 2 ^ 16))

/-- FDOT. -/
def execFdot (k : Ctl) (d a b e : Desc) (ty : FTy) (rm : RM) (sat : Bool) (s : State) : Host.Outcome State Fault Refusal :=
  instr s (.plain k [dst d, src a, src b, src e]) noOwn fun c act =>
    c.eachF act d .fp32 fun t =>
      let (a0, a1) := c.readPair t a ty
      let (b0, b1) := c.readPair t b ty
      FCode.fp32.fmt.finish rm sat (exactSum rm [c.readF t e .fp32, a0.mul b0, a1.mul b1])

/-- One node of FRED's tree (10 R192). -/
def redNode (f : Fmt) (op : RedOp) (rm : RM) (sat : Bool) (x y : Nat) : Nat :=
  match op with
  | .add => f.add rm sat x y
  | .min => minMaxBits f false x y
  | .max => minMaxBits f true x y

/-- One level of the tree. -/
def redLevel (f : Nat → Nat → Nat) : List Nat → List Nat
  | x :: y :: r => f x y :: redLevel f r
  | l => l

/-- The root: the level of n values is halved until one is left. -/
def redRoot (f : Nat → Nat → Nat) : Nat → List Nat → Nat
  | 0, l => l.head?.getD 0
  | n + 1, l => redRoot f n (redLevel f l)

/-- The identity of a FRED operation. -/
def redUnit (op : RedOp) (f : Fmt) : Nat :=
  match op with
  | .add => f.join true 0
  | .min | .max => f.nanBits

/-- FRED: every acting thread of a span receives the span's root. -/
def execFred (k : Ctl) (d a : Desc) (ty : FTy) (op : RedOp) (all : Bool) (rm : RM) (sat : Bool) (s : State) :
    Host.Outcome State Fault Refusal :=
  instr s { Meta.plain k [dst d (spanF ty), src a (spanF ty)] with xlane := true } noOwn fun c act =>
    let leaf (t : Nat) : Nat := if act.getLsbD t then c.readFBits t a ty.fcode else redUnit op ty.fmt
    let root (first size : Nat) : Nat :=
      redRoot (redNode ty.fmt op rm sat) (Nat.log2 size) ((List.range size).map fun i => leaf (first + i))
    let roots := if all then (List.range c.w.depth).map fun p => (p, root 0 c.w.threads)
      else (c.passes act).map fun p => (p, root (32 * p) 32)
    c.eachF act d ty.fcode fun t => lookD roots (t / 32) 0

/-! ### Stochastic rounding (12 R236) -/

/-- A finite value that the format does not hold, rounded by the word w: to hi where w < ⌊p · 2^32⌋, p = (v − lo) / (hi − lo),
the exponent range unbounded; an overflow follows .RN, then SAT. -/
def stochRound (f : Fmt) (sat neg : Bool) (m : Nat) (e : Int) (w : Nat) : Nat :=
  let lead : Int := Nat.log2 m + e
  let q := max lead (1 - f.bias) - f.fb
  if q ≤ e then f.finish .rn sat (.fin neg m e)
  else
    let d := (q - e).toNat
    let k := m / 2 ^ d
    let r := m % 2 ^ d
    -- p counts from lo, which is the greater magnitude of a negative value
    let p := (if neg then 2 ^ d - r else r) * 2 ^ 32 / 2 ^ d
    let away := if neg then !(w < p) else w < p
    f.finish .rn sat (.fin neg (if r = 0 then k else if away then k + 1 else k) q)

/-- FSRN's result for one thread. -/
def fsrnBits (into : Fmt) (sat : Bool) (v : FVal) (w : Nat) : Nat :=
  match v with
  | .fin neg m e => if into.holds v then into.finish .rn sat v else stochRound into sat neg m e w
  | _ => into.finish .rn sat v

/-- FSRN: 32·D words are drawn in the engine's arrival order, as a synchronous operation (06 R119). -/
def execFsrn (k : Ctl) (d a cls : Desc) (into : FCode) (ty : FTy) (sat : Bool) (s : State) :
    Host.Outcome State Fault Refusal :=
  instr s { Meta.plain k [dst d, src a (spanF ty), src cls] with last := true, closer := true }
    (fun c => c.needGravel) fun c act =>
      let n := (c.read32 (leader act) cls).toNat
      if 63 < n then .fail (.plain (cOperand 10))
      else
        c.syncGrv [32 + n] fun s keep =>
          let (words, g) := (s.cluster c.clusterNo).gravel.words n c.w.threads
          let act' := lanesFrom ((lanesOf act).filter fun t => !keep t)
          ({ c with s := s.setGravel c.clusterNo g } : Ctx).eachF act' d into fun t =>
            fsrnBits into.fmt sat (c.readF t a ty.fcode) ((words[t]?.getD 0).toNat)

end Sys2Proof.Machine
end

