-- ==== Sys2Proof/Machine/MemOps.lean ====
section
/-!
DEFINITION. Sys2Proof/Machine/MemOps.lean: what the data-moving instructions share (13 R238 to R249): the address of a thread
and its checks, the place it names, what a load finds there, how a store is queued and performed, and atomic combining.
-/
namespace Sys2Proof.Machine

open Sys2Proof

/-! ### Widths -/

/-- Bytes of an access (09 Table 9-6). -/
def bytesOf : MTy → Nat
  | .s8 | .n8 => 1
  | .s16 | .n16 => 2
  | .s32 | .n32 => 4
  | .s64 | .n64 => 8
  | .q => 16

/-- Registers that its data operand spans. -/
def spanM (t : MTy) : Nat := bytesOf t / 4 + (if bytesOf t < 4 then 1 else 0)

/-- Whether the space is reached by virtual addresses. -/
def isVirtual : Space → Bool
  | .scratch | .convoy => false
  | .stash | .device | .peer | .host => true

/-- The base operand's registers. -/
def spanBase (sp : Space) : Nat := if isVirtual sp then 2 else 1

/-! ### Places -/

/-- What an address names: a scratchpad offset; a stash line's byte (binding slot, offset in its range, physical address,
scratchpad offset); a convoy-memory offset; a device physical address; a peer or host address (the page's 52-bit address). -/
inductive Place where
  | scratch (off : Nat)
  | stash (slot o pa off : Nat)
  | convoy (off : Nat)
  | device (pa : Nat) (x : Xlat)
  | far (adr : Nat) (x : Xlat)
  deriving DecidableEq, Repr

/-- The translation that a place was found by. -/
def Place.xlat : Place → Option Xlat
  | .device _ x => some x
  | .far _ x => some x
  | _ => none

/-- The address of a thread (13 R240 Addr). -/
def Ctx.memAddr (c : Ctx) (sp : Space) (t : Nat) (base : Desc) (off : Option SrcB) : Int :=
  let o : Int := match off with
    | some b => (c.readB32 t b).toInt
    | none => 0
  if isVirtual sp then ((c.read64 t base false + BitVec.ofInt 64 o).toNat : Int) else (c.read32 t base).toNat + o

/-- The binding of the crew that covers a virtual address (03 R51). -/
def Crew.bindAt (c : Crew) (va : Nat) : Option (Nat × Bind) := c.binds.find? fun p => p.2.g ≤ va && va < p.2.g + p.2.n

/-- The physical address of a virtual address in a binding. -/
def Bind.phys (b : Bind) (va : Nat) : Nat := lookD b.pages (va / 4096) 0 + va % 4096

/-- Whether an offset lies in an A-ring of the crew, or in a scale ring (which stores may write: 05 R97, R98). -/
def Ctx.inRing (c : Ctx) (off : Nat) (store : Bool) : Bool :=
  c.cl.engines.any fun e =>
    e.holder == some c.id.conv && (match e.ring with
    | some r => r.crew == c.id.crew && ((r.base ≤ off && off < r.base + 128 * r.entries) ||
        (!store && r.sbase ≤ off && off < r.sbase + 32 * r.entries))
    | none => false)

/-- The checks of 13 R240 on an address, in order, and the place it names. -/
def Ctx.locate (c : Ctx) (sp : Space) (k : Access) (bytes : Nat) (x : Int) : Except (BitVec 10) Place :=
  if x % bytes ≠ 0 then .error (cAlign 0)
  else if isVirtual sp && 2 ^ 57 ≤ x then .error (cProtect 0)
  else if isVirtual sp && 2 ^ 56 ≤ x && !c.hnd then .error (cProtect 1)
  else
    let n := x.toNat
    match sp with
    | .scratch =>
      if x < 0 || c.cw.scratchBytes ≤ n then .error (cScratch 0)
      else if c.cw.binds.any fun p => p.2.s ≤ n && n < p.2.s + p.2.n then .error (cScratch 2)
      else if c.inRing n (k == .store) then .error (cScratch 3)
      else .ok (.scratch n)
    | .convoy => if x < 0 || c.cv.cmemBytes ≤ n then .error (cProtect 2) else .ok (.convoy n)
    | .stash =>
      match c.cw.bindAt n with
      | some (slot, b) => .ok (.stash slot (n - b.g) (b.phys n) (b.s + (n - b.g)))
      | none => .error (cScratch 1)
    | .device =>
      match c.s.xlate c.vf c.die n .device 3 k with
      | .ok xl => .ok (.device (c.s.devAddr c.vf xl n) xl)
      | .error e => .error e
    | .peer | .host =>
      match c.s.xlate c.vf c.die n sp sp.code k with
      | .ok xl => if k == .atomic && xl.cls == 3 then .error (cAtomic 1) else .ok (.far (xl.addr n) xl)
      | .error e => .error e

/-! ### Own stores still queued (04 R64) -/

/-- Whether a queue entry's lines are named as the place's is. -/
def Place.matches (p : Place) (e : SqEntry) : Bool :=
  match p with
  | .scratch _ => e.space == .scratch
  | .convoy _ => e.space == .convoy
  | .stash _ _ _ _ | .device _ _ => e.space == .device || e.space == .stash
  | .far _ x => e.space == (if x.cls = 1 then .peer else .host)

/-- The address by which a queue entry names the place. -/
def Place.adr : Place → Nat
  | .scratch off => off
  | .stash _ _ pa _ => pa
  | .convoy off => off
  | .device pa _ => pa
  | .far a _ => a

/-- The byte of the youngest queued store that covers an address. -/
def Wave.queuedByte (w : Wave) (p : Place) (i : Nat) : Option Byte :=
  let a := p.adr + i
  w.sq.foldl (fun r e =>
    if p.matches e then
      e.lines.foldl (fun r l => if l.line = lineOf a then (match look l.bytes (a % 64) with
        | some b => some b
        | none => r) else r) r
    else r) none

/-- The tag of the youngest queued store to the place's line. -/
def Wave.queuedTag (w : Wave) (p : Place) : Option Tag :=
  w.sq.foldl (fun r e =>
    if p.matches e then
      e.lines.foldl (fun r l => if l.line = lineOf p.adr then (match l.tag with
        | some t => some t
        | none => r) else r) r
    else r) none

/-- A queued DISC of the place's line. -/
def Wave.queuedDisc (w : Wave) (p : Place) : Bool :=
  w.sq.any fun e => p.matches e && e.kind == .disc && e.lines.any fun l => l.line == lineOf p.adr

/-- Whether a load must wait for queued stores: its bytes are covered in part, or its line is being discarded. -/
def Wave.mustDrain (w : Wave) (p : Place) (bytes : Nat) : Bool :=
  let n := ((List.range bytes).filter fun i => (w.queuedByte p i).isSome).length
  (n != 0 && n != bytes) || w.queuedDisc p

/-- Whether every byte comes from queued stores. -/
def Wave.covered (w : Wave) (p : Place) (bytes : Nat) : Bool := (List.range bytes).all fun i => (w.queuedByte p i).isSome

/-! ### What stands at a place -/

/-- A byte in the die order, at a place that is not far. -/
def Ctx.byteAt (c : Ctx) (s : State) (p : Place) (i : Nat) : Byte :=
  match p with
  | .scratch off => ((s.crew? c.crewKey).getD c.cw).scratch.byte (off + i)
  | .stash _ _ _ off => ((s.crew? c.crewKey).getD c.cw).scratch.byte (off + i)
  | .convoy off => ((s.convoy? c.id.conv).getD c.cv).cmem.byte (off + i)
  | .device pa _ => s.devByte c.die (pa + i)
  | .far _ _ => 0

/-- The tag of the place's line in the die order. -/
def Ctx.tagAt (c : Ctx) (s : State) (p : Place) : Tag :=
  match p with
  | .scratch off => ((s.crew? c.crewKey).getD c.cw).scratch.tag off
  | .stash _ _ _ off => ((s.crew? c.crewKey).getD c.cw).scratch.tag off
  | .convoy off => ((s.convoy? c.id.conv).getD c.cv).cmem.tag off
  | .device pa _ => s.devTag c.die pa
  | .far _ _ => 0

/-- Whether the stash line of a place is present. -/
def Ctx.stashHere (c : Ctx) (p : Place) : Bool :=
  match p with
  | .stash slot o _ _ => ((look c.cw.binds slot).map fun b => b.present.contains (lineOf o)).getD false
  | _ => true

/-- Whether a place can be read now, a DEVICE line as its slice and its stash allow. -/
def Ctx.readable (c : Ctx) (p : Place) : Bool :=
  match p with
  | .device pa _ => c.s.canRead c.die pa
  | _ => true

/-- Bytes from the words marked bad (25 R411), 4-byte words by their offset. -/
def badWord (bad : List Nat) (off bytes : Nat) : Bool := bad.any fun w => w < off + bytes && off < w + 4

/-- The memory error that a checked read of the place meets (25 R411, R415, 23 R390): a bad word; memory that failed training;
a line whose transfer failed or that is poisoned in the array, and that is not in the core's assay cache. -/
def Ctx.badAt (c : Ctx) (p : Place) (bytes : Nat) : Option (BitVec 10) :=
  match p with
  | .scratch off => if badWord c.cw.bad off bytes then some (cMemerr 2 0) else none
  | .stash _ _ _ off => if badWord c.cw.bad off bytes then some (cMemerr 2 0) else none
  | .convoy off => if badWord c.cv.bad off bytes then some (cMemerr 3 0) else none
  | .device pa _ =>
    match c.s.stashOf pa with
    | some (_, cw, o) => if badWord cw.bad o bytes then some (cMemerr 2 0) else none
    | none => if !c.s.memLost pa && (c.s.core c.w.core).assay.contains (lineOf pa) then none else c.s.lineErr (lineOf pa)
  | .far _ _ => none

/-! ### Translations used -/

/-- Whether the leaves that places were found by can take ACC (and DTY) now (21 R362). -/
def Ctx.touchables (c : Ctx) (l : List (Nat × Place)) (wr : Bool) : Bool :=
  l.all fun p => match p.2.xlat with
    | some x => c.s.touchable x wr
    | none => true

/-- Whether the leaf that a place was found by still has to take ACC and DTY. -/
def State.untouched' (s : State) (p : Place) : Bool := p.xlat.elim false fun x => s.untouched x true

/-- ACC (and DTY) set in the leaves, and the translations cached (21 R362, R363). `l` pairs virtual addresses and places. -/
def State.touches (s : State) (vf : Nat) (l : List (Nat × Place)) (wr : Bool) : State :=
  l.foldl (fun s p => match p.2.xlat with
    | some x => (s.touch x wr).cache vf p.1 x
    | none => s) s

/-! ### Debug watchpoints (19 R338) -/

/-- The data watchpoints that accesses match: number, FADDR, FLANE. Accesses are (thread, address). -/
def Ctx.watchHits (c : Ctx) (sp : Space) (rd wr : Bool) (bytes : Nat) (l : List (Nat × Nat)) : List (Nat × Nat × Lanes) :=
  if c.hnd then []
  else (List.range 4).filterMap fun n =>
    let adr := c.w.dbg[2 * n]?.getD 0
    let ctl := c.w.dbg[2 * n + 1]?.getD 0
    let size := 2 ^ (ctl.extractLsb' 2 6).toNat
    let lo := adr.toNat / size * size
    if (ctl.extractLsb' 8 3).toNat = sp.code ∧ ((ctl.getLsbD 0 && rd) || (ctl.getLsbD 1 && wr)) then
      match l.filter fun p => p.2 < lo + size && lo < p.2 + bytes with
      | [] => none
      | p :: r => some (n, p.2, lanesFrom ((p :: r).map Prod.fst))
    else none

/-- Watchpoint matches of two accesses of one instruction: a watchpoint that both match reports the first. -/
def moreHits (a b : List (Nat × Nat × Lanes)) : List (Nat × Nat × Lanes) := a ++ b.filter fun h => !a.any fun g => g.1 == h.1

/-! ### The spin detector's signature (18 R326) -/

/-- The name of a place's line as wait records name it. -/
def Ctx.placeName (c : Ctx) (p : Place) : Nat :=
  match p with
  | .scratch off => scratchName c.crewKey off
  | .stash _ _ pa _ => lineOf pa
  | .convoy off => cmemName c.id.conv off
  | .device pa _ => lineOf pa
  | .far a _ => 2 ^ 62 + lineOf a

/-- Loaded values recorded while a loop is watched: the line's name and the value with its place in the line. -/
def Wave.noteLoads (w : Wave) (l : List (Nat × Nat)) : Wave :=
  if w.spinTarget = 1 then w else { w with spinCur := w.spinCur ++ l }

/-- A store, atomic, DISC or engine issue resets the count. -/
def Wave.noSpin (w : Wave) : Wave := { w with spinTarget := 1, spinCount := 0, spinCur := [], spinPrev := [] }

/-! ### Miss slots (03 R61 to R63) -/

/-- Miss slots that are reserved for no wave. -/
def sharedSlots : Nat := 208
/-- Miss slots that a core may hold against one slice. -/
def sliceSlots : Nat := 128
/-- Assay-reload slots. -/
def reloadSlots : Nat := 32

/-- Miss slots that a core holds against a slice. -/
def Core.against (k : Core) (slice : Nat) : Nat := k.miss.countP fun m => m.slice == slice

/-- Shared slots in use. -/
def Core.sharedUsed (k : Core) : Nat := k.miss.countP fun m => m.wave.isNone

/-- The slot that a request takes: a shared one if one is free, else its wave's reserved one, if it has a wave and that is free; none
beyond 128 against the slice (03 R61 to R63). -/
def Core.slotFor (k : Core) (slice : Nat) (wave : Option Nat) : Option (Option Nat) :=
  if sliceSlots ≤ k.against slice then none
  else if k.sharedUsed < sharedSlots then some none
  else match wave with
    | none => none
    | some n => if k.miss.any fun m => m.wave == some n then none else some (some n)

/-- A request of a line enters a slot; one that is on its way serves it too. None where no slot may be taken. -/
def State.takeSlot (s : State) (core line : Nat) (wave : Option Nat) (kind : MissKind) : Option State :=
  let k := s.core core
  if k.miss.any fun m => m.line == line then some s
  else (k.slotFor (s.homeSlice line) wave).map fun w =>
    s.setCore core { k with miss := k.miss ++ [{ kind := kind, line := line, slice := s.homeSlice line, wave := w }] }

/-- A line has come: its slot is free, and the waves that may now take one look again (03 R62). -/
def State.freeMiss (s : State) (core line : Nat) : State :=
  let k := { s.core core with miss := (s.core core).miss.filter fun m => m.line != line }
  let s := s.setCore core k
  { s with waves := s.waves.map fun (i, w) => match w.wait with
      | some (.slice n) => (i, if w.core = core ∧ (k.slotFor n (some w.slot)).isSome then { w with woken := true } else w)
      | _ => (i, w) }

/-- Whether the main L1 holds a line under a live lease (03 R59). -/
def Core.l1Hit (k : Core) (line : Nat) : Option L1Copy := k.l1.find? fun y => y.line == line && k.tick.toNat ≤ y.rts.toNat

/-! ### Requests to the slices and the assay cache (03 R58, 04 R85, 07 R135) -/

/-- The main core's requests of a load's lines: those that its L1 does not supply, and every line of a .TAG load; the answer may name a
slice against which no slot is to be had (03 R61, R62). -/
def Ctx.mainRequests (c : Ctx) (tag : Bool) (s : State) (l : List (Nat × Place)) : State × Option Nat :=
  l.foldl (fun r p => match p.2 with
    | .device pa _ =>
      let line := lineOf pa
      if !tag && ((r.1.core c.w.core).l1Hit line).isSome then r
      else match r.1.takeSlot c.w.core line (some c.w.slot) .load with
        | some s => (s, r.2)
        | none => (r.1, some (r.2.getD (r.1.homeSlice line)))
    | _ => r) (s, none)

/-- A checked load's lines reach the assay cache: a line that it does not hold, and no valid fill brings, is requested from
its slice through one of the reload slots, in check order; the answer says whether all are there or on their way (03 R63). -/
def Ctx.assayRead (c : Ctx) (s : State) (l : List (Nat × Place)) : State × Bool :=
  l.foldl (fun r p => match p.2 with
    | .device pa x =>
      let line := lineOf pa
      let k := r.1.core c.w.core
      if k.assay.contains line || k.fills.contains (line, false) then r
      else if reloadSlots ≤ k.fills.length then (r.1, false)
      else ((r.1.setCore c.w.core { k with fills := k.fills ++ [(line, false)] }).checkedLine line p.1 c.vf x.set 0, r.2)
    | _ => r) (s, true)

/-- What the assay finds of a load's claims: a value that the main L1 supplied and the assay contradicts, or a prediction gone wrong (as
the free value says), counts, and the L1 drops the line (03 R58, 15 R294). `l` pairs places with the bytes that the assay
reads there, where they come from the line. -/
def Ctx.claims (c : Ctx) (s : State) (l : List (Nat × Option (List Byte))) : State :=
  let k := s.core c.w.core
  let stale := (l.filter fun p => match p.2, k.l1Hit (lineOf p.1) with
    | some b, some y => (y.bytes.drop (p.1 % 64)).take b.length != b
    | _, _ => false).map fun p => lineOf p.1
  let m := Config.mismatch s.freeCtr
  s.setCore c.w.core (if stale.isEmpty && m % 8 ≠ 1 then k
    else { k with l1 := k.l1.filter fun y => !stale.contains y.line }.mismatch .load (m / 8))

/-! ### Stash fills (03 R52) -/

/-- What an access that finds stash lines absent comes to: nothing is missing; it waits for their arrival; or no miss slot may be taken
against a slice. -/
inductive FillRes where
  | none
  | wait (s : State)
  | park (s : State) (slice : Nat)

/-- A line of a binding is asked for: it takes a miss slot until it arrives (03 R61). None where no slot may be taken. -/
def State.askStash (s : State) (core crewKey : Nat) (wave : Option Nat) (slot o line : Nat) : Option State :=
  match s.crew? crewKey with
  | none => some s
  | some cw =>
    match look cw.binds slot with
    | none => some s
    | some b =>
      if b.filling.contains o then some s
      else (s.takeSlot core line wave .stash).map fun s =>
        s.setCrew crewKey { cw with binds := ins cw.binds slot { b with filling := b.filling ++ [o] } }

/-- The stash lines that accesses find absent are requested; the wave waits for their arrival. -/
def Ctx.stashFill (c : Ctx) (l : List Place) : FillRes :=
  let missing := l.filterMap fun p => match p with
    | .stash slot o pa _ => if c.stashHere p then none else some (slot, lineOf o, lineOf pa)
    | _ => none
  if missing.isEmpty then .none
  else
    let (s, n) := missing.foldl (fun (r : State × Option Nat) q =>
      match r.1.askStash c.w.core c.crewKey (some c.w.slot) q.1 q.2.1 q.2.2 with
      | some s => (s, r.2)
      | none => (r.1, some (r.2.getD (r.1.homeSlice q.2.2)))) (c.s, none)
    match n with
    | none => .wait s
    | some n => .park s n

/-! ### Far accesses (04 R72 to R76, 22 R372, R378) -/

/-- The key of a line's copy in a die's L2. -/
def copyKey (vf adr : Nat) : Nat := 2 ^ 52 * vf + lineOf adr

/-- The function of a target device that a function is bound to (22 R378). -/
def State.boundFn (s : State) (vf dev : Nat) : Option Nat := look (s.fn vf).bind dev

/-- The memory of another device. -/
def State.peerMem (s : State) (dev : Nat) : Img := (lookD s.peers dev { live := false, mem := Img.empty }).mem

/-- The address in a device's memory of a PEER page's address. -/
def peerAdr (fn adr : Nat) : Nat := 2 ^ 44 * fn + adr % 2 ^ 44

/-- A far line's bytes and tag at its home. What an MMIO register of the host answers is a free value. -/
def State.farLine (s : State) (vf cls : Nat) (line : Nat) : List Byte × Tag :=
  if cls = 1 then
    let dev := line / 2 ^ 44 % 256
    let m := s.peerMem dev
    let a := peerAdr ((s.boundFn vf dev).getD 0) line
    (m.read a 64, m.tag a)
  else if cls = 3 then ((List.range 64).map fun i => BitVec.ofNat 8 (s.free / 256 ^ i), 0)
  else ((List.range 64).map fun i => s.hostMem.read (line + i), 0)

/-- The copy of a far line that a die holds. -/
def State.farCopy (s : State) (d vf : Nat) (x : Xlat) (line : Nat) : Option (List Byte × Tag) :=
  if x.cls = 1 then look (s.die d).peerCopies (copyKey vf line)
  else if x.cls = 2 then (look (s.die d).hostCopies (copyKey vf line)).map fun b => (b, 0)
  else none

/-- A far line that a load has fetched is kept as a copy of its die; an MMIO page is never cached (21 R361). -/
def State.keepCopy (s : State) (d vf cls line : Nat) (l : List Byte × Tag) : State :=
  let k := s.die d
  if cls = 1 then s.setDie d { k with peerCopies := ins k.peerCopies (copyKey vf line) l }
  else if cls = 2 then s.setDie d { k with hostCopies := ins k.hostCopies (copyKey vf line) l.1 }
  else s

/-- The cause of the failure of a far load or atomic at a place (22 R372, R377, R378): none where it succeeds. A PEER request that is
not bound is refused whatever its answer says; one that the target does not accept is answered so. -/
def Ctx.farCause (c : Ctx) (st : FarStatus) (atomic : Bool) (a : Nat) (x : Xlat) : Option (BitVec 10) :=
  let peer := x.cls == 1
  let kind := if atomic then 2 else 0
  match st with
  | .linkDown => some (cMemerr 7 2)
  | .ok => if peer && (c.s.boundFn c.vf (a / 2 ^ 44 % 256)).isNone then some (cTranslate 4 kind) else none
  | .unsupported => if peer then some (cTranslate 4 kind) else some (if atomic then cTranslate 5 2 else cMemerr 7 1)
  | .poisoned => if atomic && !peer then some (cTranslate 5 2) else some (cMemerr 7 1)
  | .uncorrectable => some (cMemerr 7 0)

/-- The answer received for the line of an address. -/
def FarReq.answerAt (f : FarReq) (a : Nat) : Option FarAnswer := f.got.find? fun x => x.line == lineOf a

/-- The cause at a place once every line is answered. -/
def Ctx.farFault (c : Ctx) (f : FarReq) (p : Place) : Option (BitVec 10) :=
  match p with
  | .far a x => (f.answerAt a).bind fun r => c.farCause r.status f.atomic a x
  | _ => none

/-- The lines of far accesses with their pages' classes. -/
def farLines (l : List Place) : List (Nat × Nat) :=
  (l.filterMap fun p => match p with
    | .far adr x => some (lineOf adr, x.cls)
    | _ => none).eraseDups

/-- Far requests are issued, one for each line; the wave waits for their answers. Those of its requests that nothing awaits any longer are
forgotten. -/
def Ctx.askFar (c : Ctx) (sp : Space) (atomic : Bool) (l : List Place) : State :=
  let s := c.s.forget fun m => match m with
    | .request k _ => k == waveKey c.id
    | _ => false
  let behind := if sp = .host then (c.s.die c.die).hostOut.length else 0
  ((s.setWave c.id { c.w with far := some { space := sp, atomic := atomic, lines := farLines l, got := [], behind := behind },
                              stall := false }).sendMsgs c.id)

/-- Whether a far load overlaps a store of its own wave that is not complete: every PEER or HOST store of
the line; for an MMIO page every MMIO store (04 R74, 21 R361). -/
def Wave.farBlocked (w : Wave) (p : Place) : Bool :=
  let hit (e : SqEntry) : Bool := p.matches e &&
    ((p.xlat.elim false fun x => x.cls == 3 && e.mmio) || e.lines.any fun l => l.line == lineOf p.adr)
  w.sq.any hit || w.doms.any fun o => match o with
    | .store e => hit e
    | _ => false

/-! ### Stores (13 R244, R245, 03 R56) -/

/-- A thread's bytes merged into the lines of its instruction: lines in the order of the lowest thread that writes each; a
later thread's bytes and tag prevail (01 R17). -/
def addWrite (l : List (LineWrite × Nat × Nat)) (adr : Nat) (b : List Byte) (tag : Option Tag) (va set : Nat) :
    List (LineWrite × Nat × Nat) :=
  match l with
  | [] => [({ line := lineOf adr, bytes := b.zipIdx.foldl (fun m p => ins m (adr % 64 + p.2) p.1) [], tag := tag }, va, set)]
  | (w, i) :: r =>
    if w.line = lineOf adr then
      ({ w with bytes := b.zipIdx.foldl (fun m p => ins m (adr % 64 + p.2) p.1) w.bytes, tag := tag }, i) :: r
    else (w, i) :: addWrite r adr b tag va set

/-- The handler set of a place's page. -/
def Place.set : Place → Nat
  | .device _ x => x.set
  | _ => 0

/-- The words of a scratchpad or convoy memory that a line write covers whole are no longer bad (25 R411). -/
def clearBad (bad : List Nat) (w : LineWrite) : List Nat :=
  bad.filter fun o => !(lineOf o = w.line && (List.range 4).all fun i => (look w.bytes (o % 64 + i)).isSome)

/-- The waves that wait on a scratchpad or convoy-memory line are woken. -/
def State.wakeNamed (s : State) (name : Nat) : State :=
  { s with waves := s.waves.map fun (k, w) => match w.wait with
      | some r => if r.names name then (k, { w with woken := true }) else (k, w)
      | none => (k, w) }

/-- A write to a crew's scratchpad, outside its bindings. -/
def State.writeScratch (s : State) (crewKey : Nat) (w : LineWrite) : State :=
  match s.crew? crewKey with
  | none => s
  | some c => (s.setCrew crewKey { c with scratch := c.scratch.apply w, bad := clearBad c.bad w }).wakeNamed
      (scratchName crewKey w.line)

/-- A write to a convoy's memory. -/
def State.writeCmem (s : State) (conv : Nat) (w : LineWrite) : State :=
  match s.convoy? conv with
  | none => s
  | some c => (s.setConvoy conv { c with cmem := c.cmem.apply w, bad := clearBad c.bad w }).wakeNamed (cmemName conv w.line)

/-- A write into a present stash line, by the crew that owns it (03 R52, R54): every agent sees it from then on, and copies that the
host holds are back-invalidated (22 R371). -/
def State.writeStash (s : State) (crewKey : Nat) (w : LineWrite) : State :=
  match s.crew? crewKey with
  | none => s
  | some c =>
    match c.stashAt w.line with
    | none => s
    | some o =>
      let w' : LineWrite := { w with line := o }
      let mark (b : Bind) : Bind := match bindOff b w.line with
        | some i => if b.dirty.contains i then b else { b with dirty := b.dirty ++ [i] }
        | none => b
      let s := s.setCrew crewKey { c with scratch := c.scratch.apply w', bad := clearBad c.bad w',
                                          binds := c.binds.map fun (n, b) => (n, mark b) }
      let s := (List.range 4).foldl (fun s d => wakeLine (invalidateAssay s d w.line) d w.line) s
      ({ s with hostLines := s.hostLines.filter (· != w.line) } : State).watchWrite w (.wave c.core)

/-- A commit's store queue entry; a far store counts in DOM (04 R72, R76). -/
def Ctx.queueStore (c : Ctx) (s : State) (sp : Space) (l : List (LineWrite × Nat × Nat)) (mmio : Bool) : State :=
  let far := sp == .peer || sp == .host
  let w := ((s.wave? c.id).getD c.w).noSpin
  let e : SqEntry := { kind := .store, space := sp, lines := l.map Prod.fst, info := l.map Prod.snd, fn := c.vf, mmio := mmio,
                       hnd := c.hnd }
  let w := { w with sq := w.sq ++ [e] }
  s.setWave c.id (if far then w.raise .dom else w)

/-- The copies of lines that a die holds are dropped (04 R74). -/
def State.dropPeerCopies (s : State) (d vf : Nat) (lines : List Nat) : State :=
  let k := s.die d
  s.setDie d { k with peerCopies := k.peerCopies.filter fun p => !lines.any fun l => copyKey vf l == p.1 }

/-! ### Atomics (13 R247, 04 R79 to R81) -/

/-- The integer type of a TY code. -/
def atomInt (ty : BitVec 2) : ITy :=
  match ty.toNat with
  | 0 => .s32 | 1 => .n32 | 2 => .s64 | _ => .n64

/-- The float type of a TY code. -/
def atomFloat (ty : BitVec 2) : FTy :=
  match ty.toNat with
  | 0 => .f | 1 => .d | 2 => .h | _ => .b

/-- Bytes of an atomic's location. -/
def atomBytes (op : AOp) (ty : BitVec 2) : Nat :=
  match op with
  | .fadd => match atomFloat ty with
    | .f => 4 | .d => 8 | .h => 2 | .b => 2
  | _ => if (atomInt ty).wide then 8 else 4

/-- 13 Table 13-4: the new value of a location. -/
def atomNew (op : AOp) (ty : BitVec 2) (old b cmp : Nat) : Nat :=
  let it := atomInt ty
  let w := 2 ^ it.bits
  let v (x : Nat) : Int := it.val (BitVec.ofNat 64 x)
  match op with
  | .add => (old + b) % w
  | .fadd => (atomFloat ty).fmt.add .rn false old b
  | .min => if v b < v old then b else old
  | .max => if v old < v b then b else old
  | .and => old &&& b
  | .or => old ||| b
  | .xor => old ^^^ b
  | .swap => b
  | .cas => if old = cmp then b else old
  | .incw => if b ≤ old then 0 else old + 1

/-- The old value as a k register receives it. -/
def atomOld (op : AOp) (ty : BitVec 2) (old : Nat) : DWord :=
  match op with
  | .fadd => BitVec.ofNat 64 old
  | _ => (atomInt ty).extend (BitVec.ofNat 64 old)

/-- One thread's operation: its thread, location, virtual address and operands. -/
structure AtomOp where
  t : Nat
  adr : Nat
  place : Place
  va : Nat
  b : Nat
  cmp : Nat

/-- The operations of one instruction in a serial order: the old value of each thread and the last value of each location,
from the values `read` gives at first. -/
def combine (op : AOp) (ty : BitVec 2) (read : AtomOp → Nat) : List AtomOp → NMap Nat → List (Nat × Nat) →
    List (Nat × Nat) × NMap Nat
  | [], vals, olds => (olds, vals)
  | o :: r, vals, olds =>
    let old := lookD vals o.adr (read o)
    combine op ty read r (ins vals o.adr (atomNew op ty old o.b o.cmp)) (olds ++ [(o.t, old)])

/-- Whether a DEVICE atomic of a wave of die d can be performed now (04 R71, R65, R70): its home has applied the writes that
precede it in the issuing die's order, and the issuing die (under .PKG every die) can apply its write at once. -/
def State.atomReady (s : State) (d line : Nat) (pkg : Bool) : Bool :=
  let h := homeDie line
  let ok (e : Nat) : Bool := s.abreast h line e && s.applied e (s.die d).vc
  s.canWrite h line && ok h && ok d && (!pkg || (List.range 4).all ok)

/-- A DEVICE atomic's write: performed at the home die, applied at the issuing die, under .PKG at all dies (04 R71). -/
def State.atomWrite (s : State) (d core : Nat) (pa bytes v : Nat) (pkg : Bool) : State :=
  let h := homeDie pa
  let w := lineWrite pa (leBytes bytes v) none
  let s := s.devWrite h w (.wave core)
  ((List.range 4).filter fun e => e != h && (pkg || e == d)).foldl (fun s e => s.applyNow w e) s

end Sys2Proof.Machine
end

