-- ==== Sys2Proof/Machine/MemData.lean ====
section
/-!
DEFINITION. Sys2Proof/Machine/MemData.lean: the meanings of the loads, stores and atomics of the six address spaces and of
STSC.PUSH (13 R238 to R249, 19 R336, R337).
-/
namespace Sys2Proof.Machine

open Sys2Proof

/-- FADDR of an address (19 R331). -/
def faddrOf (x : Int) : Nat := (x % 2 ^ 57).toNat

/-! ### Loads (13 R242, R243) -/

/-- The value of a load as a k register receives it (09 R169, 01 R16). -/
def ldValue (ty : MTy) (n : Nat) : DWord :=
  match ty with
  | .s8 => (BitVec.ofNat 8 n).signExtend 64
  | .s16 => (BitVec.ofNat 16 n).signExtend 64
  | .s32 => (BitVec.ofNat 32 n).signExtend 64
  | .n8 | .n16 | .n32 | .s64 | .n64 | .q => BitVec.ofNat 64 n

/-- 64-bit types. -/
def wideM : MTy → Bool
  | .s64 | .n64 => true
  | _ => false

/-- Bytes that a load is checked for: a .TAG load's are 4. -/
def ldBytes (m : LdMods) : Nat := if m.tag then 4 else bytesOf m.ty

/-- One thread's access: thread, address, and the place or the fault it comes to. -/
structure LdAcc where
  t : Nat
  x : Int
  r : Except (BitVec 10) Place

/-- The checks of 13 R240 for a load, the memory error that the read meets among them. -/
def Ctx.loadPlace (c : Ctx) (sp : Space) (m : LdMods) (x : Int) : Except (BitVec 10) Place :=
  match c.locate sp .load (ldBytes m) x with
  | .error e => .error e
  | .ok p =>
    let reads := if m.tag then (match p with
      | .device _ _ => true
      | _ => false) else !c.w.covered p (ldBytes m)
    match if reads then c.badAt p (ldBytes m) else none with
    | some e => .error e
    | none => .ok p

/-- Whether a .PART load completes partially on the cause: TRANSLATE or MEMERR (19 R337). -/
def partCause (cause : BitVec 10) : Bool := cause.toNat / 64 == 3 || cause.toNat / 64 == 13

/-- The load's results written: registers of the threads, the spin detector's record, the watchpoints matched. `vals` pairs a
thread with its bytes or tag as a number. -/
def Ctx.loadDone (c : Ctx) (sp : Space) (d : Desc) (m : LdMods) (s : State) (accs : List (Nat × Int × Place))
    (vals : List (Nat × Nat)) : Eff :=
  let s :=
    if m.ty = .q then
      let w := (s.wave? c.id).getD c.w
      s.setWave c.id (vals.foldl (fun w p => (List.range 4).foldl (fun w j =>
        w.setV p.1 (regOf d + j) (BitVec.ofNat 32 (p.2 / 2 ^ (32 * j)))) w) w)
    else c.dest d (wideM m.ty && !m.tag) (vals.map fun p => (p.1, if m.tag then BitVec.ofNat 64 p.2 else ldValue m.ty p.2)) s
  let w := (s.wave? c.id).getD c.w
  let notes := (accs.zip vals).map fun (a, v) => (c.placeName a.2.2, v.2 + 2 ^ 128 * (a.2.2.adr % 64))
  { s := s.setWave c.id (w.noteLoads notes), dest := none, soft := none,
    hits := c.watchHits sp true false (ldBytes m) (accs.map fun a => (a.1, faddrOf a.2.1)) }

/-- A place's value in the die order, own queued stores first (04 R64). -/
def Ctx.loadVal (c : Ctx) (s : State) (m : LdMods) (p : Place) : Nat :=
  if m.tag then ((c.w.queuedTag p).getD (c.tagAt s p)).toNat
  else leVal ((List.range (ldBytes m)).map fun i => (c.w.queuedByte p i).getD (c.byteAt s p i))

/-- What a load's read comes to: it waits; it is parked for want of a miss slot against a slice (03 R62); or it can be made, in the
state after its requests. -/
inductive NearRes where
  | wait (s : State)
  | park (s : State) (slice : Nat)
  | ready (s : State)

/-- The requests of a read of places that are not far, after which the assay checks it (03 R52, R58, R61 to R63; 04 R64). -/
def Ctx.nearRead (c : Ctx) (tag : Bool) (bytes : Nat) (places : List (Nat × Place)) : NearRes :=
  if places.any fun p => if tag then c.w.queuedDisc p.2 else c.w.mustDrain p.2 bytes then .wait c.s
  else
    match c.stashFill (places.map Prod.snd) with
    | .wait s => .wait s
    | .park s n => .park s n
    | .none =>
      if !(places.all fun p => c.readable p.2) || !c.touchables places false then .wait c.s
      else
        match c.mainRequests tag c.s places with
        | (s, some n) => .park s n
        | (s, none) =>
          match c.assayRead s places with
          | (s, false) => .wait s
          | (s, true) => .ready s

/-- A DEVICE place with the bytes that the assay reads there; none where they come from the store queue, or for a tag. -/
def Ctx.lineBytes (c : Ctx) (s : State) (m : LdMods) (p : Place) : Option (Nat × Option (List Byte)) :=
  match p with
  | .device pa _ => some (pa, if m.tag || c.w.covered p (ldBytes m) then none else some ((List.range (ldBytes m)).map fun i => c.byteAt s p i))
  | _ => none

/-- A load of a space that is not far, from threads that passed their checks. Its bytes are read at one point of the die order (13
R242). -/
def Ctx.loadNear (c : Ctx) (sp : Space) (d : Desc) (m : LdMods) (accs : List (Nat × Int × Place)) : NearRes ⊕ Eff :=
  let places := accs.map fun a => (a.2.1.toNat, a.2.2)
  match c.nearRead m.tag (ldBytes m) places with
  | .ready s =>
    let s := s.touches c.vf places false
    let vals := accs.map fun a => (a.1, c.loadVal s m a.2.2)
    let s := c.claims s (accs.filterMap fun a => c.lineBytes s m a.2.2)
    .inr (c.loadDone sp d m s accs vals)
  | r => .inl r

/-- A far value from a line's bytes and tag. -/
def farVal (m : LdMods) (adr : Nat) (l : List Byte × Tag) : Nat :=
  if m.tag then l.2.toNat else leVal ((l.1.drop (adr % 64)).take (ldBytes m))

/-- A far load's results from lines found by `get`. -/
def Ctx.loadFarDone (c : Ctx) (sp : Space) (d : Desc) (m : LdMods) (s : State) (accs : List (Nat × Int × Place))
    (get : Xlat → Nat → List Byte × Tag) : Eff :=
  c.loadDone sp d m s accs (accs.map fun a => (a.1, match a.2.2 with
    | .far adr x => farVal m adr (get x (lineOf adr))
    | _ => 0))

/-- What a far load comes to: its effect, a wait (with the state), or its answers (04 R74, R76). -/
inductive FarRes where
  | done (e : Eff)
  | wait (s : State)
  | ask (s : State)
  | answered (f : FarReq)

/-- A PEER or HOST load from threads that passed their checks. Copies that the die holds of all its lines may serve it, as a free value
decides; where some line has none, every line is fetched anew (DESIGN CHOICE, log 87). LDHS.TAG reads nothing and returns 0 (03 R57). -/
def Ctx.loadFar (c : Ctx) (sp : Space) (d : Desc) (m : LdMods) (accs : List (Nat × Int × Place)) : FarRes :=
  let places := accs.map fun a => (a.2.1.toNat, a.2.2)
  if !c.touchables places false then .wait c.s
  else if m.tag && sp == .host then .done (c.loadDone sp d m (c.s.touches c.vf places false) accs (accs.map fun a => (a.1, 0)))
  else if places.any fun p => c.w.farBlocked p.2 then .wait c.s
  else
    let copied := accs.all fun a => match a.2.2 with
      | .far adr x => (c.s.farCopy c.die c.vf x (lineOf adr)).isSome
      | _ => true
    if copied && c.w.far.isNone && c.s.free % 2 = 0 then
      .done (c.loadFarDone sp d m (c.s.touches c.vf places false) accs fun x l =>
        (c.s.farCopy c.die c.vf x l).getD ([], 0))
    else
      match c.w.far with
      | none => .ask (c.askFar sp false (places.map Prod.snd))
      | some f => if f.lines.isEmpty then .answered f else .ask c.s

/-- Whether the space is far. -/
def isFar (sp : Space) : Bool := sp == .peer || sp == .host

/-- The fault of threads that failed (thread, address, cause): the lowest thread's cause and address, every thread in FLANE (13 R241,
19 R337). -/
def fltOf (bad : List (Nat × Int × BitVec 10)) : Flt :=
  let first := (bad.find? fun a => bad.all fun b => a.1 ≤ b.1).getD (0, 0, 0)
  { cause := first.2.2, faddr := BitVec.ofNat 57 (faddrOf first.2.1), flane := lanesFrom (bad.map Prod.fst) }

/-- A load of the threads that passed their checks, the others being `bad` (a .PART load's, in ascending order). A far load's
failing answers are its threads' own faults (19 R337, 13 R241). -/
def Ctx.loadBody (c : Ctx) (sp : Space) (d : Desc) (m : LdMods) (good : List (Nat × Int × Place))
    (bad : List (Nat × Int × BitVec 10)) : Verdict :=
  let finish (bad : List (Nat × Int × BitVec 10)) (e : Eff) : Verdict := if bad.isEmpty then .ok e else .part e (fltOf bad)
  if good.isEmpty then finish bad (.of c.s)
  else if !isFar sp then
    match c.loadNear sp d m good with
    | .inl (.park s n) => .park s (.slice n)
    | .inl (.wait s) => .stall s
    | .inl (.ready s) => .stall s
    | .inr e => finish bad e
  else
    match c.loadFar sp d m good with
    | .done e => finish bad e
    | .wait s => .stall s
    | .ask s => .over s
    | .answered f =>
      let failed := good.filterMap fun a => (c.farFault f a.2.2).map fun x => (a.1, a.2.1, x)
      let came := good.filter fun a => (c.farFault f a.2.2).isNone
      if failed.isEmpty || m.part then
        let s := c.s.touches c.vf (came.map fun a => (a.2.1.toNat, a.2.2)) false
        finish (bad ++ failed) (c.loadFarDone sp d m s came fun _ l =>
          ((f.answerAt l).map fun r => (r.bytes, r.tag)).getD ([], 0))
      else .fail (fltOf failed)

/-- Registers that an operand spans, as a list of v registers; any other descriptor has none. -/
def vSpan (d : Desc) (n : Nat) : List Nat :=
  match d with
  | .v r => (List.range n).map fun i => r.toNat + i
  | _ => []

/-- Whether the descriptor is an indexed one. -/
def isIdx : Desc → Bool
  | .idx _ _ => true
  | _ => false

/-- The second source's descriptor, if it is one. -/
def descOf : SrcB → List Desc
  | .desc d => [d]
  | .lit _ => []

/-- The own decode checks of a load: .Q's data, then .PART's (13 R239, R243, 19 R336). -/
def Ctx.loadOwn (c : Ctx) (sp : Space) (d base : Desc) (off : SrcB) (m : LdMods) : Option (BitVec 10) :=
  if m.ty == .q && !isV d then some (cOperand 5)
  else if m.part then
    if !c.g.partcap then some (cProtect 5)
    else if (d :: base :: descOf off).any isIdx then some (cOperand 15)
    else if !isV d then some (cOperand 5)
    else
      let mine := vSpan d (if m.tag then 1 else spanM m.ty)
      let srcs := vSpan base (spanBase sp) ++ (descOf off).flatMap fun o => vSpan o 1
      if mine.any fun r => srcs.contains r then some (cOperand 15) else none
  else none

/-- A load instruction (13 R242). -/
def loadInstr (s : State) (k : Ctl) (sp : Space) (d base : Desc) (off : SrcB) (m : LdMods) :
    Host.Outcome State Fault Refusal :=
  instrEach s (.plain k (dst d (if m.tag then 1 else spanM m.ty) :: src base (spanBase sp) :: srcB off))
    (fun c => c.loadOwn sp d base off m)
    (fun c _ t =>
      if m.part then none
      else
        let x := c.memAddr sp t base (some off)
        match c.loadPlace sp m x with
        | .error e => some (e, faddrOf x)
        | .ok _ => none)
    fun c act =>
      let act := match m.part, c.w.replay with
        | true, some l => act &&& l
        | _, _ => act
      let accs : List LdAcc := (lanesOf act).map fun t =>
        let x := c.memAddr sp t base (some off)
        { t := t, x := x, r := c.loadPlace sp m x }
      let good := accs.filterMap fun a => match a.r with
        | .ok p => some (a.t, a.x, p)
        | .error _ => none
      let bad := accs.filterMap fun a => match a.r with
        | .ok _ => none
        | .error e => some (a.t, a.x, e)
      if bad.all fun b => partCause b.2.2 then c.loadBody sp d m good bad
      else
        match bad with
        | [] => .ok (.of c.s)
        | b :: _ => .fail { cause := b.2.2, faddr := BitVec.ofNat 57 (faddrOf b.2.1), flane := lanesFrom (bad.map Prod.fst) }

/-- LDSC. -/
def execLdsc (k : Ctl) (d base : Desc) (off : SrcB) (m : LdMods) (s : State) : Host.Outcome State Fault Refusal :=
  loadInstr s k .scratch d base off m
/-- LDSH. -/
def execLdsh (k : Ctl) (d base : Desc) (off : SrcB) (m : LdMods) (s : State) : Host.Outcome State Fault Refusal :=
  loadInstr s k .stash d base off m
/-- LDCV. -/
def execLdcv (k : Ctl) (d base : Desc) (off : SrcB) (m : LdMods) (s : State) : Host.Outcome State Fault Refusal :=
  loadInstr s k .convoy d base off m
/-- LDDV. -/
def execLddv (k : Ctl) (d base : Desc) (off : SrcB) (m : LdMods) (s : State) : Host.Outcome State Fault Refusal :=
  loadInstr s k .device d base off m
/-- LDPR. -/
def execLdpr (k : Ctl) (d base : Desc) (off : SrcB) (m : LdMods) (s : State) : Host.Outcome State Fault Refusal :=
  loadInstr s k .peer d base off m
/-- LDHS. -/
def execLdhs (k : Ctl) (d base : Desc) (off : SrcB) (m : LdMods) (s : State) : Host.Outcome State Fault Refusal :=
  loadInstr s k .host d base off m

/-! ### Stores (13 R244, R245) -/

/-- The tag operand of a store (03 R57): reserved formats, and an S4 format with a scale. -/
def tagBad (t : Tag) : Bool :=
  let fmt := (t.extractLsb' 8 8).toNat
  !(fmt ≤ 11 || fmt = 16) || (7 ≤ fmt && fmt ≤ 9 && t.extractLsb' 0 8 != 0)

/-- The tag operand in a thread: bits 31:16 of SC. -/
def Ctx.tagOf (c : Ctx) (t : Nat) (d : Desc) : Tag := (c.read32 t d).extractLsb' 16 16

/-- The checks of a thread's store: the address, the tag operand, a bad word that it would write in part (25 R411). -/
def Ctx.storePlace (c : Ctx) (sp : Space) (m : StMods) (t : Nat) (tag : Desc) (x : Int) : Except (BitVec 10) Place :=
  match c.locate sp .store (bytesOf m.ty) x with
  | .error e => .error e
  | .ok p =>
    if m.tag && (tagBad (c.tagOf t tag) || (sp == .host && c.tagOf t tag != 0)) then .error (cOperand 7)
    else
      match if sp != .device && bytesOf m.ty < 4 then c.badAt p (bytesOf m.ty) else none with
      | some e => .error e
      | none => .ok p

/-- The bytes of a thread's data operand. -/
def Ctx.storeData (c : Ctx) (t : Nat) (data : Desc) (ty : MTy) : List Byte :=
  match ty with
  | .q => (List.range 4).flatMap fun j => leBytes 4 (c.w.getV t (regOf data + j)).toNat
  | .s64 => leBytes 8 (c.read64 t data true).toNat
  | .n64 => leBytes 8 (c.read64 t data false).toNat
  | _ => leBytes (bytesOf ty) (c.read32 t data).toNat

/-- A store instruction: it enters the store queue at its commit. -/
def storeInstr (s : State) (k : Ctl) (sp : Space) (base data : Desc) (off : SrcB) (tag : Desc) (m : StMods) :
    Host.Outcome State Fault Refusal :=
  instrEach s (.plain k (src base (spanBase sp) :: src data (spanM m.ty) :: (srcB off ++ if m.tag then [src tag] else [])))
    (fun _ => if m.ty == .q && !isV data then some (cOperand 5) else none)
    (fun c _ t =>
      let x := c.memAddr sp t base (some off)
      match c.storePlace sp m t tag x with
      | .error e => some (e, faddrOf x)
      | .ok _ => none)
    fun c act =>
      let accs : List (Nat × Int × Place) := (lanesOf act).filterMap fun t =>
        let x := c.memAddr sp t base (some off)
        match c.storePlace sp m t tag x with
        | .ok p => some (t, x, p)
        | .error _ => none
      let places := accs.map fun a => (a.2.1.toNat, a.2.2)
      if !c.touchables places true || (isFar sp && c.w.cDom = 63) then .stall c.s
      else
        let lines := accs.foldl (fun l a =>
          addWrite l a.2.2.adr (c.storeData a.1 data m.ty)
            (if sp = .host then none else some (if m.tag then c.tagOf a.1 tag else 0)) (lineOf a.2.1.toNat) a.2.2.set) []
        let s := c.s.touches c.vf places true
        let s := if sp = .peer then s.dropPeerCopies c.die c.vf (lines.map fun l => l.1.line) else s
        let mmio := places.any fun p => p.2.xlat.elim false fun x => x.cls == 3
        .ok { Eff.of (c.queueStore s sp lines mmio) with
              hits := c.watchHits sp false true (bytesOf m.ty) (accs.map fun a => (a.1, faddrOf a.2.1)) }

/-- STSC. -/
def execStsc (k : Ctl) (base data : Desc) (off : SrcB) (tag : Desc) (m : StMods) (s : State) :
    Host.Outcome State Fault Refusal := storeInstr s k .scratch base data off tag m
/-- STSH. -/
def execStsh (k : Ctl) (base data : Desc) (off : SrcB) (tag : Desc) (m : StMods) (s : State) :
    Host.Outcome State Fault Refusal := storeInstr s k .stash base data off tag m
/-- STCV. -/
def execStcv (k : Ctl) (base data : Desc) (off : SrcB) (tag : Desc) (m : StMods) (s : State) :
    Host.Outcome State Fault Refusal := storeInstr s k .convoy base data off tag m
/-- STDV. -/
def execStdv (k : Ctl) (base data : Desc) (off : SrcB) (tag : Desc) (m : StMods) (s : State) :
    Host.Outcome State Fault Refusal := storeInstr s k .device base data off tag m
/-- STPR. -/
def execStpr (k : Ctl) (base data : Desc) (off : SrcB) (tag : Desc) (m : StMods) (s : State) :
    Host.Outcome State Fault Refusal := storeInstr s k .peer base data off tag m
/-- STHS. -/
def execSths (k : Ctl) (base data : Desc) (off : SrcB) (tag : Desc) (m : StMods) (s : State) :
    Host.Outcome State Fault Refusal := storeInstr s k .host base data off tag m

/-! ### STSC.PUSH (05 R98, 13 R246) -/

/-- An engine of the wave's cluster. -/
def Ctx.engine (c : Ctx) (e : Nat) : Engine := c.cl.engines[e]?.getD Engine.reset

/-- An engine replaced. -/
def State.setEngine (s : State) (cl e : Nat) (x : Engine) : State :=
  let k := s.cluster cl
  s.setCluster cl { k with engines := setAt k.engines e x }

/-- MATRIX/NOT-RESERVED (05 R93). -/
def Ctx.needEngine (c : Ctx) (e : Nat) : Option (BitVec 10) :=
  if (c.engine e).holder == some c.id.conv then none else some (cMatrix 0)

/-- The A-ring that the crew has set on an engine. -/
def Ctx.ownRing (c : Ctx) (e : Nat) : Option Ring := (c.engine e).ring.filter fun r => r.crew == c.id.crew

/-- The two lines of one entry: the values of a depth pass's 32 threads, 0 for those that do not act. -/
def pushLines (off : Nat) (words : List Word) (tag : Tag) : List LineWrite :=
  linesOf off (some tag) 2 (words.flatMap fun x => leBytes 4 x.toNat)

/-- STSC.PUSH. -/
def execStscPush (k : Ctl) (e : BitVec 2) (data tag : Desc) (_uns : Bool) (_ch : BitVec 2) (tagged : Bool) (s : State) :
    Host.Outcome State Fault Refusal :=
  instrEach s (.plain k (src data :: if tagged then [src tag] else []))
    (fun c => match c.needEngine e.toNat with
      | some x => some x
      | none => if (c.ownRing e.toNat).isNone then some (cMatrix 4) else none)
    (fun c _ t => if tagged && tagBad (c.tagOf t tag) then some (cOperand 7, 0) else none)
    fun c act =>
      match c.ownRing e.toNat with
      | none => .ok (.of c.s)
      | some r =>
        if r.free < c.w.depth then .park c.s (.aring e.toNat)
        else
          let tg : Tag := if tagged then c.tagOf ((highest act).getD 0) tag else 0
          let lines := (List.range c.w.depth).flatMap fun d =>
            pushLines (r.base + 128 * ((r.tail + d) % r.entries))
              ((List.range 32).map fun l => if act.getLsbD (32 * d + l) then c.read32 (32 * d + l) data else 0) tg
          let ent : SqEntry := { kind := .push e.toNat r.no r.tail c.w.depth, space := .scratch, lines := lines, info := [],
                                 fn := c.vf, mmio := false, hnd := c.hnd }
          let w := c.w.noSpin
          let s := c.put { w with sq := w.sq ++ [ent] }
          .ok (.of (s.setEngine c.clusterNo e.toNat
            { c.engine e.toNat with ring := some { r with tail := r.tail + c.w.depth, free := r.free - c.w.depth } }))

/-! ### Atomics (13 R247 to R249) -/

/-- The operand b (or the compare value) of a thread, as a W-bit number. -/
def Ctx.atomArg (c : Ctx) (t : Nat) (b : SrcB) (m : AmMods) : Nat :=
  match m.op with
  | .fadd => c.readBBits t b (atomFloat m.ty).fcode
  | _ => (atomInt m.ty).unsignedVal (c.readB t b (atomInt m.ty))

/-- Whether the operands are pairs. -/
def atomWide (m : AmMods) : Bool := atomBytes m.op m.ty == 8

/-- The checks of a thread's atomic. -/
def Ctx.atomPlace (c : Ctx) (sp : Space) (bytes : Nat) (x : Int) : Except (BitVec 10) Place :=
  match c.locate sp .atomic bytes x with
  | .error e => .error e
  | .ok p =>
    match c.badAt p bytes with
    | some e => .error e
    | none => .ok p

/-- The state after the new values of an atomic's locations are written, near spaces. -/
def Ctx.atomStore (c : Ctx) (s : State) (ops : List AtomOp) (vals : NMap Nat) (bytes : Nat) (pkg : Bool) : State :=
  vals.foldl (fun s v =>
    match (ops.find? fun o => o.adr = v.1).map AtomOp.place with
    | some (.scratch off) => s.writeScratch c.crewKey (lineWrite off (leBytes bytes v.2) none)
    | some (.stash _ _ pa _) => s.writeStash c.crewKey (lineWrite pa (leBytes bytes v.2) none)
    | some (.convoy off) => s.writeCmem c.id.conv (lineWrite off (leBytes bytes v.2) none)
    | some (.device pa x) =>
      (s.checkedLine (lineOf pa) (((ops.find? fun o => o.adr = v.1).map AtomOp.va).getD 0) c.vf x.set 0).atomWrite c.die c.w.core pa bytes v.2 pkg
    | some (.far adr x) =>
      if x.cls = 1 then
        let dev := adr / 2 ^ 44 % 256
        let p := lookD s.peers dev { live := false, mem := Img.empty }
        let a := peerAdr ((s.boundFn c.vf dev).getD 0) adr
        { s with peers := ins s.peers dev { p with mem := p.mem.setBytes a (leBytes bytes v.2) } }
      else { s with hostMem := s.hostMem.writes adr (leBytes bytes v.2) }
    | none => s) s

/-- The value of an atomic's location: at its home for a DEVICE line. -/
def Ctx.atomRead (c : Ctx) (s : State) (bytes : Nat) (o : AtomOp) : Nat :=
  match o.place with
  | .device pa _ => s.devVal (homeDie pa) pa bytes
  | .far adr x => leVal (((s.farLine c.vf x.cls (lineOf adr)).1.drop (adr % 64)).take bytes)
  | p => leVal ((List.range bytes).map fun i => c.byteAt s p i)

/-- An atomic performed: old values returned, new values written (04 R80), all its locations in one step, with no other agent's access
between them (DESIGN CHOICE, log 88). A far atomic counts in DOM from its commit (13 R248). -/
def Ctx.atomDone (c : Ctx) (sp : Space) (d : Desc) (m : AmMods) (accs : List (Nat × Int × Place)) (args : Nat → Nat × Nat) :
    Verdict :=
  let bytes := atomBytes m.op m.ty
  let places := accs.map fun a => (a.2.1.toNat, a.2.2)
  let ops : List AtomOp := accs.map fun a => { t := a.1, adr := a.2.2.adr, place := a.2.2,
                                               va := a.2.1.toNat, b := (args a.1).1,
                                               cmp := (args a.1).2 }
  let s := c.s.touches c.vf places true
  let (olds, vals) := combine m.op m.ty (c.atomRead s bytes) (shuffle ops.length c.s.free ops) [] []
  let s := c.atomStore s ops vals bytes m.pkg
  let s := c.dest d (atomWide m) ((lanesOf (lanesFrom (olds.map Prod.fst))).map fun t =>
    (t, atomOld m.op m.ty (lookD olds t 0))) s
  let w := ((s.wave? c.id).getD c.w).noSpin
  let s := s.setWave c.id (if isFar sp then { w.raise .dom with doms := w.doms ++ [.atomic sp] } else w)
  let s := if sp = .host then s.leaveHost c.die (waveKey c.id) else s
  .ok { Eff.of s with hits := c.watchHits sp true true bytes (accs.map fun a => (a.1, faddrOf a.2.1)) }

/-- The physical lines of DEVICE places. -/
def devLines (l : List (Nat × Int × Place)) : List Nat :=
  (l.filterMap fun a => match a.2.2 with
    | .device pa _ => some (lineOf pa)
    | _ => none).eraseDups

/-- An atomic's performance, or what it waits for (04 R71, R79; 03 R52, R53). ACC and DTY are set before it is performed, so that its
write follows them in its home's order (21 R362). -/
def Ctx.atomBody (c : Ctx) (sp : Space) (d : Desc) (m : AmMods) (accs : List (Nat × Int × Place)) (args : Nat → Nat × Nat) :
    Verdict :=
  let places := accs.map fun a => (a.2.1.toNat, a.2.2)
  if !c.w.sq.isEmpty || !c.touchables places true then .stall c.s
  else if places.any fun p => c.s.untouched' p.2 then .over (c.s.touches c.vf places true)
  else
    match c.stashFill (places.map Prod.snd) with
    | .wait s => .stall s
    | .park s n => .park s (.slice n)
    | .none =>
      match (devLines accs).find? fun l => (c.s.lineDir l).owner.isSome with
      | some l => if c.s.canRecall l then .over (c.s.giveBack l) else .stall c.s
      | none =>
        if !(devLines accs).all fun l => c.s.atomReady c.die l m.pkg then .stall c.s
        else if !isFar sp then c.atomDone sp d m accs args
        else if c.w.cDom = 63 then .stall c.s
        else
          match c.w.far with
          | none => .over (c.askFar sp true (places.map Prod.snd))
          | some f =>
            if !f.lines.isEmpty then .over c.s
            else
              match accs.filterMap fun a => (c.farFault f a.2.2).map fun x => (a.1, a.2.1, x) with
              | [] => c.atomDone sp d m accs args
              | bad => .fail (fltOf bad)

/-- The operations that the host interface carries (13 R249). -/
def hostOp : AOp → Bool
  | .add | .swap | .cas => true
  | _ => false

/-- An atomic instruction: it closes its region. -/
def atomInstr (s : State) (k : Ctl) (sp : Space) (d addr : Desc) (b : SrcB) (cmp : Desc) (m : AmMods) :
    Host.Outcome State Fault Refusal :=
  let n := spanOf (atomWide m)
  let args (c : Ctx) (t : Nat) : Nat × Nat :=
    (c.atomArg t b m, if m.op = .cas then c.atomArg t (.desc cmp) m else 0)
  instrEach s { Meta.plain k (dst d n :: src addr (spanBase sp) :: (srcB b n ++ if m.op = .cas then [src cmp n] else [])) with
                last := true, closer := true }
    (fun _ => if sp == .host && !hostOp m.op then some (cAtomic 0) else none)
    (fun c _ t =>
      let x := c.memAddr sp t addr none
      match c.atomPlace sp (atomBytes m.op m.ty) x with
      | .error e => some (e, faddrOf x)
      | .ok _ => none)
    fun c act =>
      let accs : List (Nat × Int × Place) := (lanesOf act).filterMap fun t =>
        let x := c.memAddr sp t addr none
        match c.atomPlace sp (atomBytes m.op m.ty) x with
        | .ok p => some (t, x, p)
        | .error _ => none
      c.atomBody sp d m accs (args c)

/-- AMSC. -/
def execAmsc (k : Ctl) (d addr : Desc) (b : SrcB) (cmp : Desc) (m : AmMods) (s : State) : Host.Outcome State Fault Refusal :=
  atomInstr s k .scratch d addr b cmp m
/-- AMSH. -/
def execAmsh (k : Ctl) (d addr : Desc) (b : SrcB) (cmp : Desc) (m : AmMods) (s : State) : Host.Outcome State Fault Refusal :=
  atomInstr s k .stash d addr b cmp m
/-- AMCV. -/
def execAmcv (k : Ctl) (d addr : Desc) (b : SrcB) (cmp : Desc) (m : AmMods) (s : State) : Host.Outcome State Fault Refusal :=
  atomInstr s k .convoy d addr b cmp m
/-- AMDV. -/
def execAmdv (k : Ctl) (d addr : Desc) (b : SrcB) (cmp : Desc) (m : AmMods) (s : State) : Host.Outcome State Fault Refusal :=
  atomInstr s k .device d addr b cmp m
/-- AMPR. -/
def execAmpr (k : Ctl) (d addr : Desc) (b : SrcB) (cmp : Desc) (m : AmMods) (s : State) : Host.Outcome State Fault Refusal :=
  atomInstr s k .peer d addr b cmp m
/-- AMHS. -/
def execAmhs (k : Ctl) (d addr : Desc) (b : SrcB) (cmp : Desc) (m : AmMods) (s : State) : Host.Outcome State Fault Refusal :=
  atomInstr s k .host d addr b cmp m

end Sys2Proof.Machine
end

