-- ==== Sys2Proof/Machine/MemSync.lean ====
section
/-!
DEFINITION. Sys2Proof/Machine/MemSync.lean: the meanings of the ordering, waiting and maintenance instructions (13 R251 to
R260): fences, counters, barriers, WAITV, prefetch, discard, stash bindings, write-back, event queues and rings.
-/
namespace Sys2Proof.Machine

open Sys2Proof

/-- Whether a cause names an address or a bound (19 Table 19-3, first row). -/
def namesAddress (cause : BitVec 10) : Bool :=
  let cls := cause.toNat / 64
  cls == 3 || cls == 5 || ((cls == 2 || cls == 4) && cause.toNat % 64 ≤ 3)

/-- A fault of the leader's own check (19 R331). -/
def Flt.lead (act : Lanes) (cause : BitVec 10) (x : Int) : Flt :=
  if namesAddress cause then { cause := cause, faddr := BitVec.ofNat 57 (faddrOf x), flane := oneLane (leader act) }
  else .plain cause

/-! ### FENCE and WAITC (04 R77, 13 R252) -/

/-- Whether a queued entry must be performed before a fence of the scope commits (04 Table 4-2). -/
def Scope.covers (sc : Scope) (e : SqEntry) : Bool :=
  match sc with
  | .crew => e.space == .scratch || e.space == .stash
  | .conv => e.space == .scratch || e.space == .stash || e.space == .convoy
  | .die | .pkg | .dom | .sys => true

/-- Every write that stands in a die's order has been applied at all four dies. -/
def State.pkgQuiet (s : State) (d : Nat) : Bool := (List.range 4).all fun e => s.applied e (s.die d).vc

/-- Whether the scope is at least PKG, DOM or SYS. -/
def Scope.atLeast (sc : Scope) : Nat :=
  match sc with
  | .crew => 1 | .conv => 2 | .die => 3 | .pkg => 4 | .dom => 5 | .sys => 6

/-- The conditions of a fence (04 Table 4-2). -/
def Ctx.fenceReady (c : Ctx) (sc : Scope) : Bool :=
  !(c.w.sq.any (Scope.covers sc)) && (Scope.atLeast sc < 4 || c.s.pkgQuiet c.die) && (Scope.atLeast sc < 5 || c.w.cDom == 0)

/-- A DOM fence drops the die's peer copies; a SYS fence also writes the wave's lines back and drops the die's host copies. -/
def Ctx.fenceDone (c : Ctx) (sc : Scope) : State :=
  let s := c.s
  let s := if 5 ≤ Scope.atLeast sc then s.setDie c.die { s.die c.die with peerCopies := [] } else s
  if sc = .sys then
    let s := c.w.wrote.foldl (fun s l => if (s.lineDir l).dirty then s.writeBack l else s) s
    let s := s.setDie c.die { s.die c.die with hostCopies := [] }
    s.setWave c.id { (s.wave? c.id).getD c.w with wrote := [] }
  else s

/-- FENCE. -/
def execFence (k : Ctl) (sc : Scope) (s : State) : Host.Outcome State Fault Refusal :=
  instr s (.uni k []) noOwn fun c _ => if c.fenceReady sc then .ok (.of (c.fenceDone sc)) else .stall c.s

/-- WAITC. -/
def execWaitc (k : Ctl) (ctr : Ctr) (n : BitVec 6) (s : State) : Host.Outcome State Fault Refusal :=
  instr s (.uni k []) noOwn fun c _ => if c.w.ctr ctr ≤ n.toNat then .ok (.of c.s) else .stall c.s

/-! ### BARW (13 R253, 01 R30) -/

/-- BARW: the wave arrives once its stores are performed, and commits at the barrier's completion. -/
def execBarw (k : Ctl0) (conv : Bool) (n : BitVec 4) (s : State) : Host.Outcome State Fault Refusal :=
  instr s { Meta.uni (ctlOf k) [] with last := true, closer := true, always := true } noOwn fun c _ =>
    let conv := conv && 1 < c.cv.crews
    let crew := if conv then none else some c.id.crew
    let b := c.s.bar c.id.conv crew n.toNat
    match c.w.wait with
    | some (.bar cs i gen) =>
      if b.gen ≠ gen then .ok (.of c.s) else .park c.s (.bar cs i gen)
    | _ =>
      if !c.w.sq.isEmpty then .stall c.s
      else
        let s := c.s.setBar c.id.conv crew n.toNat { b with arrived := b.arrived ++ [16 * c.id.crew + c.id.wave] }
        let s := s.barCheck c.id.conv crew n.toNat
        if (s.bar c.id.conv crew n.toNat).gen ≠ b.gen then .ok (.of s) else .park s (.bar conv n.toNat b.gen)

/-! ### WAITV (13 R254) -/

/-- The space of a WAITV. -/
def WvSpace.space : WvSpace → Space
  | .sc => .scratch | .sh => .stash | .cv => .convoy | .dv => .device

/-- The type that a WAITV compares at. -/
def waitTy (w64 sg : Bool) : ITy := if w64 then (if sg then .s64 else .n64) else if sg then .s32 else .n32

/-- WAITV: the word is read as a load reads it; the wave waits on its line until the condition holds. -/
def execWaitv (k : Ctl) (d addr : Desc) (b : SrcB) (sp : WvSpace) (cond : Cond) (w64 sg : Bool) (s : State) :
    Host.Outcome State Fault Refusal :=
  let space := WvSpace.space sp
  let ty := waitTy w64 sg
  let m : LdMods := { ty := if w64 then .n64 else .n32, ch := 0, tag := false, part := false }
  instrEach s (.uni k (dst d (spanOf w64) :: src addr (spanBase space) :: srcB b (spanOf w64)))
    (fun _ => if isK d then none else some (cOperand 5))
    (fun c _ t =>
      let x := c.memAddr space t addr none
      match c.loadPlace space m x with
      | .error e => some (e, faddrOf x)
      | .ok _ => none)
    fun c act =>
      let t := leader act
      let x := c.memAddr space t addr none
      match c.loadPlace space m x with
      | .error e => .fail (.lead act e x)
      | .ok p =>
        let places := [(x.toNat, p)]
        match c.nearRead false (ldBytes m) places with
        | .wait s => .stall s
        | .park s n => .park s (.slice n)
        | .ready s =>
          let v : DWord := BitVec.ofNat 64 (c.loadVal c.s m p)
          let s := c.claims s (c.lineBytes c.s m p).toList
          if cond.holds (ty.val v) (ty.val (c.readB t b ty)) then
            let s := c.dest d true [(t, ty.extend v)] (s.touches c.vf places false)
            let w := ((s.wave? c.id).getD c.w).noteLoads [(c.placeName p, v.toNat + 2 ^ 128 * (p.adr % 64))]
            .ok { Eff.of (s.setWave c.id w) with hits := c.watchHits space true false (ldBytes m) [(t, x.toNat)] }
          else .park s (.line (c.placeName p))

/-! ### PREF and DISC (13 R257, R258) -/

/-- The lines that the main L1 holds (00 R3: 128 KiB). -/
def l1Lines : Nat := 2048

/-- A fill of a line into the main L1 of a core (03 R59); a full L1 lets its oldest copy go. -/
def State.leaseFill (s : State) (core line : Nat) : State :=
  let due := max (s.lineDir line).wts.toNat (s.core core).tick.toNat + (s.core core).lease.toNat
  let s := (s.rebaseAt (homeDie line) due).rebaseAt (dieOfCore core) due
  let x := s.lineDir line
  let c := s.core core
  let base := if x.wts.toNat < c.tick.toNat then c.tick else x.wts
  let rts := base + c.lease.zeroExtend 20
  let x := { x with rts := if x.rts.toNat < rts.toNat then rts else x.rts }
  let s := s.setLineDir line x
  s.setCore core { c with
    tick := if c.tick.toNat < x.wts.toNat then x.wts else c.tick,
    l1 := if c.lease = 0 then c.l1
      else
        let rest := c.l1.filter fun y => y.line != line
        (if l1Lines ≤ rest.length then rest.drop 1 else rest) ++ [{ line := line, rts := x.rts, bytes := s.devRead (dieOfCore core) line 64 }] }

/-- The translation of a speculative request (21 R366): cached, or walked to a DEVICE leaf with ACC set; R permitted. -/
def Ctx.specPlace (c : Ctx) (x : Int) : Option (Nat × Xlat) :=
  if x < 0 || 2 ^ 57 ≤ x || (2 ^ 56 ≤ x && !c.hnd) then none
  else
    let found := match (c.s.fn c.vf).usable x.toNat with
      | some xl => some xl
      | none => (c.s.walk c.vf c.die x.toNat).filter fun xl => xl.leaf.getLsbD 5
    match found with
    | some xl => if xl.cls = 0 && xl.pr then some (lineOf (c.s.devAddr c.vf xl x.toNat), xl) else none
    | none => none

/-- A speculative request that has taken a slot counts, and brings its line into its slice unannounced (07 R135, 25 R417). -/
def State.specLine (s : State) (core line va vf set : Nat) : State :=
  let s := s.setCore core { s.core core with pfIss := upTo (s.core core).pfIss 1 }
  let d := s.lineDir line
  if d.present || d.requested then s
  else
    let s := s.install line va vf set 0 0 false
    s.setLineDir line { s.lineDir line with pf := some core }

/-- PREF of one address: it takes a shared miss slot or is dropped (03 R63); the line is brought into its slice, under .L1 also into the
main L1. The core's counters follow (25 R417). -/
def Ctx.prefetch (c : Ctx) (l1 : Bool) (s : State) (x : Int) : State :=
  let n := c.w.core
  let k := s.core n
  match c.specPlace x with
  | none => s.setCore n { k with pfDrop := upTo k.pfDrop 1, stDrop := upTo k.stDrop 1 }
  | some (line, xl) =>
    let s := s.setCore n { k with stUse := upTo k.stUse 1 }
    match s.takeSlot n line none (if l1 then .pref else .slice) with
    | none => s.setCore n { s.core n with pfDrop := upTo (s.core n).pfDrop 1 }
    | some s => s.specLine n line x.toNat c.vf xl.set

/-- PREF. -/
def execPref (k : Ctl) (base : Desc) (off : SrcB) (l1 : Bool) (s : State) : Host.Outcome State Fault Refusal :=
  instr s (.plain k (src base 2 :: srcB off)) noOwn fun c act =>
    let xs := ((lanesOf act).map fun t => c.memAddr .device t base (some off)).map fun x => x / 64 * 64
    .ok (.of (xs.eraseDups.foldl (c.prefetch l1) c.s))

/-- DISC: the lines enter the store queue. -/
def execDisc (k : Ctl) (base : Desc) (off : SrcB) (s : State) : Host.Outcome State Fault Refusal :=
  instrEach s (.plain k (src base 2 :: srcB off)) noOwn
    (fun c _ t =>
      let x := c.memAddr .device t base (some off)
      match c.locate .device .store 1 x with
      | .error e => some (e, faddrOf x)
      | .ok _ => none)
    fun c act =>
      let accs : List (Nat × Int × Place) := (lanesOf act).filterMap fun t =>
        let x := c.memAddr .device t base (some off)
        match c.locate .device .store 1 x with
        | .ok p => some (t, x, p)
        | .error _ => none
      let places := accs.map fun a => (a.2.1.toNat, a.2.2)
      if !c.touchables places true then .stall c.s
      else
        let lines := accs.foldl (fun l a => addWrite l a.2.2.adr [] none (lineOf a.2.1.toNat) a.2.2.set) []
        let s := c.s.touches c.vf places true
        let w := ((s.wave? c.id).getD c.w).noSpin
        let e : SqEntry := { kind := .disc, space := .device, lines := lines.map Prod.fst, info := lines.map Prod.snd,
                             fn := c.vf, mmio := false, hnd := c.hnd }
        .ok { Eff.of (s.setWave c.id { w with sq := w.sq ++ [e] }) with
              hits := c.watchHits .device false true 1 (accs.map fun a => (a.1, faddrOf a.2.1)) }

/-! ### Stash bindings (13 R255) -/

/-- The pages that a range touches, by number. -/
def pagesOf (g n : Nat) : List Nat := (List.range ((g + n - 1) / 4096 + 1 - g / 4096)).map fun i => g / 4096 + i

/-- The first check of an SMAP that fails: cause and value. -/
def Ctx.smapFault (c : Ctx) (slot : Nat) (g o n : Nat) : Option (BitVec 10 × Nat) :=
  let meets (a b x y : Nat) : Bool := a < x + y && x < a + b
  if g % 64 ≠ 0 then some (cAlign 0, g)
  else if o % 64 ≠ 0 then some (cAlign 0, o)
  else if n % 64 ≠ 0 ∨ n < 64 ∨ 65536 < n then some (cOperand 8, 0)
  else if c.cw.scratchBytes < o + n then some (cScratch 0, o)
  else if (look c.cw.binds slot).isSome then some (cScratch 4, 0)
  else if c.cw.binds.any fun p => meets g n p.2.g p.2.n || meets o n p.2.s p.2.n then some (cScratch 5, 0)
  else (pagesOf g n).findSome? fun p =>
    let x := max g (4096 * p)
    match c.locate .device .both 1 x with
    | .error e => some (e, x)
    | .ok _ => none

/-- Queued SCRATCH stores of a crew to a range reach nothing any more: the bytes that a new binding's range held are no longer reachable
(13 R255). -/
def State.voidScratch (s : State) (crewKey o n : Nat) : State :=
  let void (e : SqEntry) : SqEntry :=
    if e.kind == .store && e.space == .scratch then { e with lines := e.lines.filter fun l => l.line < o || o + n ≤ l.line } else e
  { s with waves := s.waves.map fun (k, w) => (k, if k / 16 = crewKey then { w with sq := w.sq.map void } else w) }

/-- SMAP: the crew's binding is made (03 R51, R52). -/
def execSmap (k : Ctl) (slot : BitVec 2) (g o n : Desc) (s : State) : Host.Outcome State Fault Refusal :=
  instr s (.uni k [src g 2, src o, src n]) noOwn fun c act =>
    let t := leader act
    let g := (c.read64 t g false).toNat
    let o := (c.read32 t o).toNat
    let n := (c.read32 t n).toNat
    match c.smapFault slot.toNat g o n with
    | some (e, x) => .fail (.lead act e x)
    | none =>
      let places := (pagesOf g n).filterMap fun p =>
        let x := max g (4096 * p)
        match c.locate .device .both 1 x with
        | .ok q => some (x, q)
        | .error _ => none
      if !c.touchables places true then .stall c.s
      else
        let pages : NMap Nat := places.map fun p => (p.1 / 4096, p.2.adr / 4096 * 4096)
        let b : Bind := { g := g, s := o, n := n, pages := pages, present := [], dirty := [], filling := [] }
        let s := (c.s.touches c.vf places true).voidScratch c.crewKey o n
        .ok (.of (s.setCrew c.crewKey { (s.crew? c.crewKey).getD c.cw with binds := ins c.cw.binds slot.toNat b }))

/-- The physical line of an offset in a binding's range. -/
def Bind.line (b : Bind) (o : Nat) : Nat := lineOf (b.phys (b.g + o))

/-- Whether a wave of the crew still has a queued store to a line of a binding. -/
def State.stashQueued (s : State) (crewKey : Nat) (b : Bind) : Bool :=
  s.waves.any fun p => p.1 / 16 == crewKey && p.2.sq.any fun e => e.space == .stash &&
    e.lines.any fun l => (bindOff b l.line).isSome

/-- A write-back that the home of its line has not yet applied. -/
def State.awayFromHome (s : State) (lines : List Nat) : Bool :=
  s.pkg.any fun p => lines.contains p.write.line && p.todo.contains (homeDie p.write.line)

/-- SMAP.UNB: dirty lines go back to their homes, then the slot is free and its scratchpad range reads as zero. -/
def execSmapUnb (k : Ctl) (slot : BitVec 2) (s : State) : Host.Outcome State Fault Refusal :=
  instr s (.uni k []) noOwn fun c _ =>
    match look c.cw.binds slot.toNat with
    | none => .fail (.plain (cScratch 4))
    | some b =>
      let lines := (List.range (b.n / 64)).map fun i => b.line (64 * i)
      if !b.filling.isEmpty || c.s.stashQueued c.crewKey b then .stall c.s
      else if !b.present.isEmpty then
        if b.dirty.all fun o => c.s.canWrite c.die (b.line o) then
          .over ((b.present.map b.line).foldl (fun s l => s.giveBack l) c.s)
        else .stall c.s
      else if c.s.awayFromHome lines then .stall c.s
      else
        .ok (.of (c.s.setCrew c.crewKey { c.cw with
          scratch := c.cw.scratch.clear b.s b.n, bad := c.cw.bad.filter (fun o => o < b.s || b.s + b.n ≤ o),
          binds := del c.cw.binds slot.toNat }))

/-! ### SWB and CCTL (13 R256, R259) -/

/-- The check of a range: its address and its length. -/
def rangeFault (a n : Nat) : Option (BitVec 10 × Nat) :=
  if a % 64 ≠ 0 then some (cAlign 0, a) else if n % 64 ≠ 0 ∨ 2 ^ 20 < n then some (cOperand 8, 0) else none

/-- An entry of the store queue that is no store. -/
def Ctx.queueOther (c : Ctx) (s : State) (kind : SqKind) (sp : Space) (info : List (Nat × Nat)) : State :=
  let w := (s.wave? c.id).getD c.w
  let e : SqEntry := { kind := kind, space := sp, lines := [], info := info, fn := c.vf, mmio := false, hnd := c.hnd }
  s.setWave c.id { w with sq := w.sq ++ [e] }

/-- SWB. -/
def execSwb (k : Ctl) (a : Desc) (n : SrcB) (s : State) : Host.Outcome State Fault Refusal :=
  instr s (.uni k (src a 2 :: srcB n)) noOwn fun c act =>
    let x := (c.read64 (leader act) a false).toNat
    let y := (c.readB32 (leader act) n).toNat
    match rangeFault x y with
    | some (e, v) => .fail (.lead act e v)
    | none => .ok (.of (c.queueOther c.s (.swb x y) .stash []))

/-- CCTL: the pages that kind 3 may reach are translated at commit (ACC only: 21 R362), the lines are served in the order of
the store queue. -/
def execCctl (k : Ctl) (a : Desc) (n : SrcB) (op : CcOp) (s : State) : Host.Outcome State Fault Refusal :=
  instr s (.uni k (src a 2 :: srcB n)) noOwn fun c act =>
    let x := (c.read64 (leader act) a false).toNat
    let y := (c.readB32 (leader act) n).toNat
    match rangeFault x y with
    | some (e, v) => .fail (.lead act e v)
    | none =>
      let pages := if y = 0 then [] else (pagesOf x y).filterMap fun p =>
        let v := max x (4096 * p)
        match c.locate .device .both 1 v with
        | .ok q => some (v, q)
        | .error _ => none
      if !c.touchables pages false then .stall c.s
      else
        .ok (.of (c.queueOther (c.s.touches c.vf pages false) (.cctl op x y) .device (pages.map fun p => (p.1, p.2.adr))))

/-! ### EVPOP (13 R260) -/

/-- The four registers of a record written. -/
def Ctx.putRecord (c : Ctx) (s : State) (d : Desc) (r : List Byte) : State :=
  match d with
  | .k n => s.setWave c.id ((List.range 4).foldl (fun w j =>
      w.setK (n.toNat + j) (BitVec.ofNat 64 (leVal ((r.drop (8 * j)).take 8)))) ((s.wave? c.id).getD c.w))
  | _ => s

/-- What EVPOP finds nothing to pop does. -/
def Ctx.popNothing (c : Ctx) (d : Desc) (nb : Bool) (r : WaitRec) : Verdict :=
  if nb then .ok (.of (c.putRecord c.s d (List.replicate 32 0xFF))) else .park c.s r

/-- EVPOP from the crew's event queue. -/
def Ctx.popQueue (c : Ctx) (d : Desc) (nb : Bool) : Verdict :=
  match c.cw.evq with
  | [] => c.popNothing d nb .evq
  | r :: rest =>
    let cw := { c.cw with evq := rest ++ c.cw.held.take 1, held := c.cw.held.drop 1 }
    .ok (.of (c.putRecord (c.s.setCrew c.crewKey cw) d r))

/-- An atomic on a DEVICE place comes to its performance: its leaf takes ACC and DTY first (21 R362), a stash that owns the line gives
it up (03 R53), and the line's place in the die order is reached (04 R71). -/
def Ctx.atLine (c : Ctx) (va : Nat) (p : Place) (pkg : Bool) (go : Unit → Verdict) : Verdict :=
  let line := lineOf p.adr
  if !c.touchables [(va, p)] true then .stall c.s
  else if c.s.untouched' p then .over (c.s.touches c.vf [(va, p)] true)
  else if (c.s.lineDir line).owner.isSome then (if c.s.canRecall line then .over (c.s.giveBack line) else .stall c.s)
  else if !c.s.atomReady c.die line pkg then .stall c.s
  else go ()

/-- EVPOP from a ring: one atomic in the die order of the header's home. -/
def Ctx.popRing (c : Ctx) (act : Lanes) (d : Desc) (nb : Bool) (hdr : Nat) : Verdict :=
  match c.locate .device .atomic 64 hdr with
  | .error e => .fail (.lead act e hdr)
  | .ok p =>
    let line := p.adr
    if !c.w.sq.isEmpty then .stall c.s
    else c.atLine hdr p false fun _ =>
      match c.badAt p 64, c.s.ringHdr (homeDie line) line with
      | some e, _ => .fail (.lead act e hdr)
      | none, none => .fail (.plain (cQueue 3))
      | none, some h =>
        let hits := c.watchHits .device true false 64 [(leader act, hdr)]
        if h.count = 0 then
          match c.popNothing d nb (.line line) with
          | .ok e => .ok { e with hits := hits }
          | v => v
        else
          let va := h.base + 32 * (h.head % h.size)
          match c.locate .device .atomic 32 va with
          | .error e => .fail (.lead act e va)
          | .ok q =>
            if !c.touchables [(va, q)] false || !c.s.canRead (homeDie line) q.adr then .stall c.s
            else if q.xlat.elim false fun x => c.s.untouched x false then .over (c.s.touches c.vf [(va, q)] false)
            else
              match c.badAt q 32 with
              | some e => .fail (.lead act e va)
              | none =>
                let s := (c.s.touches c.vf [(hdr, p)] true).touches c.vf [(va, q)] false
                let r := s.devRead (homeDie line) q.adr 32
                let s := s.atomWrite c.die c.w.core line 8 (h.head + 1) false
                let hits := moreHits hits (c.watchHits .device true false 32 [(leader act, va)])
                .ok { Eff.of (c.putRecord s d r) with hits := hits }

/-- EVPOP. -/
def execEvpop (k : Ctl) (d hdr : Desc) (ring nb : Bool) (s : State) : Host.Outcome State Fault Refusal :=
  instr s { Meta.uni k (dst d :: if ring then [src hdr 2] else []) with last := true, closer := true }
    (fun c => match d with
      | .k n => if n.toNat % 4 ≠ 0 then some (cOperand 5)
          else if (if c.hnd then max c.w.kregs 16 else c.w.kregs) ≤ n.toNat + 3 then some (cOperand 0) else none
      | _ => some (cOperand 5))
    fun c act =>
      let w := c.w.noSpin
      let c := { c with s := c.put w, w := w }
      if ring then c.popRing act d nb (c.read64 (leader act) hdr false).toNat else c.popQueue d nb

end Sys2Proof.Machine
end

