-- ==== Sys2Proof/Machine/SaveOps.lean ====
section
/-!
DEFINITION. Sys2Proof/Machine/SaveOps.lean: the device's own reads and writes of context save areas (20 R356, R420): lines
written and bytes read through the translations of the function that owns the area, at handler level.
-/
namespace Sys2Proof.Machine

open Sys2Proof

/-- What a device access to a save area comes to: done, not possible at this point of the die order, or a failed access with
its cause and address. -/
inductive SaveRes where
  | done (s : State)
  | wait
  | bad (cause : BitVec 10) (va : Nat)

/-- A piece of an image: virtual address, bytes within one line, and the line's tag. -/
structure Piece where
  va : Nat
  bytes : List Byte
  tag : Option Tag

/-- Bytes from an address on, cut into whole lines tagged RAW. -/
def piecesOf (va : Nat) : Nat → List Byte → List Piece
  | 0, _ => []
  | n + 1, b => { va := va, bytes := b.take 64, tag := some 0 } :: piecesOf (va + 64) n (b.drop 64)

/-- Bytes from a line's address on, as RAW lines. -/
def pieces (va : Nat) (b : List Byte) : List Piece := piecesOf va ((b.length + 63) / 64) b

/-- The first failed access among addresses. -/
def State.saveBad (s : State) (vf d : Nat) (wr : Bool) : List Nat → Option (BitVec 10 × Nat)
  | [] => none
  | va :: r =>
    match s.saveAddr vf d va wr with
    | .error e => some (e, va)
    | .ok _ => s.saveBad vf d wr r

/-- The lines of an image written by the device (20 R420). -/
def State.saveLines (s : State) (vf d : Nat) (l : List Piece) : SaveRes :=
  match s.saveBad vf d true (l.map Piece.va) with
  | some (e, va) => .bad e va
  | none =>
    let at_ (p : Piece) : Option (Xlat × Nat) := (s.saveAddr vf d p.va true).toOption
    if !(l.all fun p => (at_ p).elim false fun x => s.touchable x.1 true && s.canWrite d (lineOf x.2)) then .wait
    else
      .done (l.foldl (fun s p => match at_ p with
        | some x => ((s.touch x.1 true).cache vf p.va x.1).devWrite d (lineWrite x.2 p.bytes p.tag) .host
        | none => s) s)

/-- Bytes of a save area as the device reads them, the first failed access, or a page at a time what stands there. -/
def State.saveRead (s : State) (vf d va n : Nat) : Except (BitVec 10 × Nat) (List Byte) :=
  match s.saveBad vf d false ((List.range ((va % 64 + n + 63) / 64)).map fun i => lineOf va + 64 * i) with
  | some e => .error e
  | none =>
    .ok ((List.range n).map fun i => match s.saveAddr vf d (va + i) false with
      | .ok x => s.devByte d x.2
      | .error _ => 0)

/-- Whether the bytes can be read at this point of the die order. -/
def State.canSave (s : State) (vf d va n : Nat) : Bool :=
  (List.range ((va % 64 + n + 63) / 64)).all fun i => match s.saveAddr vf d (lineOf va + 64 * i) false with
    | .ok x => s.canSee d x.2
    | .error _ => true

/-- The tag of a save-area line. -/
def State.saveTag (s : State) (vf d va : Nat) : Tag :=
  match s.saveAddr vf d va false with
  | .ok x => s.devTag d x.2
  | .error _ => 0

/-- A value of a save area, 0 where it cannot be read. -/
def State.saveVal (s : State) (vf d va n : Nat) : Nat :=
  match s.saveRead vf d va n with
  | .ok b => leVal b
  | .error _ => 0

/-- The base of a context's save area (20 Table 20-1), from its CTXID (20 R344). -/
def State.csaOf (s : State) (ctxid : BitVec 16) : Nat :=
  let n := ctxid.toNat - 1
  (lookD (s.fn (n / 64)).csa (n % 64) 0).toNat

/-- The function of a context. -/
def vfOf (ctxid : BitVec 16) : Nat := (ctxid.toNat - 1) / 64

/-- A convoy's context (20 R344). -/
def Convoy.ctxid (c : Convoy) : BitVec 16 := BitVec.ofNat 16 (64 * c.vf + c.q + 1)

end Sys2Proof.Machine
end

