-- ==== Sys2Proof/Machine/MtxOps.lean ====
section
/-!
DEFINITION. Sys2Proof/Machine/MtxOps.lean: what the matrix instructions and the engines' own steps share (05, 10 R185 to
R190): the exact K-block dot product, the accumulate, windows and shadows, the ring, window ownership and spills, and records
read as loads.
-/
namespace Sys2Proof.Machine

open Sys2Proof

/-! ### Operand classes (05 Table 5-2) -/

/-- Passes per page. -/
def passesOf : MCls → Nat
  | .n8 => 1 | .b16 => 2 | .d64 => 4
/-- Lines of a column in a page: q. -/
def linesPerCol : MCls → Nat
  | .n8 => 2 | .b16 => 4 | .d64 => 8
/-- Windows per band of 32 rows: G. -/
def windowsPerBand : MCls → Nat
  | .n8 => 8 | .b16 => 4 | .d64 => 4
/-- Columns: N. -/
def columnsOf : MCls → Nat
  | .n8 => 256 | .b16 => 128 | .d64 => 64
/-- Columns of a window. -/
def winColumns : MCls → Nat
  | .n8 | .b16 => 32
  | .d64 => 16
/-- Bytes of an accumulator element. -/
def elemBytes : MCls → Nat
  | .n8 | .b16 => 4
  | .d64 => 8
/-- The accumulator's format. -/
def accFmt : MCls → Fmt
  | .n8 | .b16 => FCode.fmt .fp32
  | .d64 => FCode.fmt .fp64
/-- K-blocks in one ring entry. -/
def kblocksOf : MCls → Nat
  | .n8 | .b16 => 2
  | .d64 => 1

/-- FMT of a tag. -/
def fmtOf (t : Tag) : Nat := (t.extractLsb' 8 8).toNat
/-- SCL of a tag. -/
def sclOf (t : Tag) : Nat := (t.extractLsb' 0 8).toNat
/-- The S4 family. -/
def isS4 (fmt : Nat) : Bool := 7 ≤ fmt && fmt ≤ 9

/-- The class of a format in an MMA of a class; none for a format with no class (05 R100). -/
def classOfFmt (cls : MCls) (fmt : Nat) : Option MCls :=
  if fmt = 4 then some .b16
  else if fmt = 6 then (if cls = .d64 then some .d64 else none)
  else if (1 ≤ fmt && fmt ≤ 3) || (7 ≤ fmt && fmt ≤ 11) then some .n8
  else none

/-- The late fault that the tags of a K-block bring (05 R96, R100), if any. -/
def kblockFault (cls : MCls) (s4 : Bool) (tags : List Tag) : Option (BitVec 10) :=
  let fmts := tags.map fmtOf
  if fmts.any fun f => (classOfFmt cls f).isNone then some (cMatrix 12)
  else if fmts.any fun f => classOfFmt cls f != some cls then some (cMatrix 10)
  else if fmts.any fun f => some f != fmts.head? then some (cMatrix 11)
  else if !s4 && fmts.any isS4 then some (cMatrix 3)
  else none

/-! ### The K-block dot product (10 R185 to R190) -/

/-- One operand of a K-block: the format, SCL, the bytes of its one or two lines, the S4 micro-scales. -/
structure KOp where
  fmt : Nat
  scl : Nat
  bytes : List Byte
  micro : List Nat

/-- Little-endian units of n bytes. -/
def unitsOf (n : Nat) (b : List Byte) : List Nat := (List.range (b.length / n)).map fun i => leVal ((b.drop (n * i)).take n)

/-- The elements' exact values (10 R177 to R179). -/
def KOp.elems (o : KOp) : List FVal :=
  if o.fmt = 1 then o.bytes.map fun b => .fin (b.toInt < 0) b.toInt.natAbs 0
  else if o.fmt = 3 then o.bytes.map fun b => (FCode.fmt .e5m2).value b.toNat
  else if o.fmt = 4 then (unitsOf 2 o.bytes).map (FCode.fmt .bf16).value
  else if o.fmt = 6 then (unitsOf 8 o.bytes).map (FCode.fmt .fp64).value
  else o.bytes.map fun b => (FCode.fmt .e4m3).value b.toNat

/-- w and b of Table 10-5. -/
def alignWidth (fmt : Nat) : Int × Int :=
  if fmt = 3 then (8, 3) else if fmt = 4 then (16, 8) else if fmt = 6 then (56, 53) else (8, 4)

/-- The greatest exponent of the finite nonzero elements. -/
def maxExp (l : List FVal) : Option Int :=
  l.foldl (fun r x => match x with
    | .fin _ m e => if m = 0 then r else some (match r with
        | some y => max y e
        | none => e)
    | _ => r) none

/-- AlignLine (10 R185): the signed integers and their exponent. -/
def KOp.align (o : KOp) : List Int × Int :=
  let l := o.elems
  let scl : Int := if o.fmt = 6 then 127 else o.scl
  if o.fmt = 1 then
    (l.map fun x => match x with
      | .fin n m _ => signed n m
      | _ => 0, scl - 127)
  else
    match maxExp l with
    | none => (l.map fun _ => 0, 0)
    | some top =>
      let (w, b) := alignWidth o.fmt
      (l.map fun x => match x with
        | .fin n m e =>
          let k := e - top + w - b
          signed n (if 0 ≤ k then m * 2 ^ k.toNat else m / 2 ^ (-k).toNat)
        | _ => 0, top - (w - b) + scl - 127)

/-- An aligned integer as KBlockDot takes it: itself, or its seven signed 8-bit slices, lowest first, of FP64 (10 R187). -/
def digitsOf (fmt : Nat) (x : Int) : List Int :=
  if fmt = 6 then (List.range 7).map fun j => signed (x < 0) (x.natAbs / 2 ^ (8 * j) % 256) else [x]

/-- The product of two such values: the slice products with j + l < 6 are dropped (10 R186, R187). -/
def digitPair (fmt : Nat) (a b : List Int) : Int :=
  if fmt = 6 then
    (a.zipIdx).foldl (fun s p => (b.zipIdx).foldl (fun s q =>
      if 6 ≤ p.2 + q.2 then s + p.1 * q.1 * 2 ^ (8 * (p.2 + q.2)) else s) s) 0
  else a.headD 0 * b.headD 0

/-- KBlockDot: the exact sum of products of 10 R186 and R187. -/
def kdot (fmt : Nat) (a b : List (List Int)) : Int := (a.zip b).foldl (fun s p => s + digitPair fmt p.1 p.2) 0

/-- The doubled integers of an S4 line times its micro-scales (10 R188). -/
def KOp.scaled4 (o : KOp) : List Int :=
  (o.bytes.flatMap fun b => [b.toNat % 16, b.toNat / 16]).zipIdx.map fun p =>
    (e3m5 ((o.micro[p.2 / 8]?).getD 0) : Int) * e2m1Twice p.1

/-- The integers of a line that enter KBlockDot, as values of `digitsOf`, and their exponent. -/
def KOp.digits (o : KOp) : List (List Int) × Int :=
  let (l, e) := if isS4 o.fmt then (o.scaled4, -8) else o.align
  (l.map (digitsOf o.fmt), e)

/-- The term of a K-block (10 R188 to R190) whose emitted product is wrong by `err`: specials are resolved before any alignment. -/
def kterm (a b : KOp) (beta : FVal) (err : Int) : FVal :=
  let (ma, sa) := a.digits
  let (mb, sb) := b.digits
  let p := kdot a.fmt ma mb + err
  if isS4 a.fmt then (ofScaled false p (sa + sb)).mul beta
  else
    let nanSet (o : KOp) : Bool := o.fmt != 6 && o.scl == 255
    let x := a.elems
    let y := b.elems
    let pairs := (x.zip y).map fun p => p.1.mul p.2
    if nanSet a || nanSet b || pairs.contains .nan then .nan
    else if pairs.contains (.inf false) && pairs.contains (.inf true) then .nan
    else if pairs.contains (.inf false) then .inf false
    else if pairs.contains (.inf true) then .inf true
    else ofScaled false p (sa + sb)

/-! ### The checks of the assay row (05 R109) -/

/-- The error of a try in the product of a row and a column. -/
def KTry.errAt (t : KTry) (i n : Nat) : Int := (t.errs.filter fun x => x.1 == i && x.2.1 == n).foldl (fun s x => s + x.2.2) 0

/-- The sum of lines, each weighted by its row's number: u with weight 1, u′ with weight i + 1 (05 R109). -/
def lineSum (w : Nat → Int) (rows : List KOp) : List (List Int) :=
  match rows.zipIdx.map fun p => p.1.digits.1.map fun x => x.map (w p.2 * ·) with
  | [] => []
  | x :: r => r.foldl (List.zipWith (List.zipWith (· + ·))) x

/-- S1 and S2 of a column: the emitted products' sum, weighted alike (05 R109). -/
def emittedSum (w : Nat → Int) (rows : List KOp) (b : KOp) (t : KTry) (n : Nat) : Int :=
  rows.zipIdx.foldl (fun s p => s + w p.2 * (kdot b.fmt p.1.digits.1 b.digits.1 + KTry.errAt t p.2 n)) 0

/-- T1 and T2 of a column: the product of the lines' sum, by the KBlockDot rule (05 R109); of FP64 the sum is taken slice by slice
(DEDUCED, log 91). -/
def checkSum (w : Nat → Int) (rows : List KOp) (b : KOp) : Int := kdot b.fmt (lineSum w rows) b.digits.1

/-- A K-block of these rows and columns passes: S1 = T1 and S2 = T2 for every column, and the two copies of the scale stage agree (05
R109). -/
def kblockPasses (rows cols : List KOp) (t : KTry) : Bool :=
  t.agree && cols.zipIdx.all fun p =>
    emittedSum (fun _ => 1) rows p.1 t p.2 == checkSum (fun _ => 1) rows p.1 &&
      emittedSum (fun i => i + 1) rows p.1 t p.2 == checkSum (fun i => i + 1) rows p.1

/-- An attempt without error; it passes. -/
def KTry.clean : KTry := { errs := [], agree := true }

/-- How many attempts fail before the first that passes, and that one; the attempt after the listed ones is clean. -/
def attempts (pass : KTry → Bool) : List KTry → Nat × KTry
  | [] => (0, KTry.clean)
  | t :: r =>
    if pass t then (0, t)
    else
      let (n, x) := attempts pass r
      (n + 1, x)

/-- Accumulate (10 R190). -/
def accumulate (f : Fmt) (c : Nat) (term : FVal) : Nat :=
  if term.isZero && !f.isNan c then c else f.finish .rn false (exactSum .rn [f.value c, term])

/-! ### Windows and shadows (05 R100, R104) -/

/-- An engine of a cluster. -/
def State.engine (s : State) (cl e : Nat) : Engine := (s.cluster cl).engines[e]?.getD Engine.reset

/-- The owner of a window; 0 is none (20 R344). -/
def Engine.ownerOf (e : Engine) (w : Nat) : BitVec 16 := lookD e.owner w 0

/-- The shadow of a window in a group, of the MMA.SHs that no MCMT of the group comes before. -/
def Engine.shadowOf (e : Engine) (g w : Nat) : Option Shadow := e.shadows.find? fun x => x.win == w && x.group == g && x.gen == 0

/-- The words, by offset, that lie in a range of bytes. -/
def wordsIn (off n : Nat) (l : List Nat) : List Nat := l.filter fun b => off < b + 4 && b < off + n

/-- Whether a range of a window, or of its shadow in a group, has an uncorrectable word (05 R111). A shadow that its MMA.SH has yet to
make is its window's copy. -/
def Engine.winBadAt (e : Engine) (sh : Option Nat) (w off n : Nat) : Bool :=
  match sh.bind fun g => (e.shadowOf g w).filter Shadow.live with
  | some x => !(wordsIn off n x.bad).isEmpty
  | none => !(wordsIn (4096 * w + off) n e.winBad).isEmpty

/-- A byte of a window, or of its shadow in a group. -/
def Engine.winByte (e : Engine) (sh : Option Nat) (w off : Nat) : Byte :=
  match sh.bind fun g => e.shadowOf g w with
  | some x => lookD x.bytes off 0
  | none => lookD e.win (4096 * w + off) 0

/-- Bytes of a window. -/
def Engine.winRead (e : Engine) (sh : Option Nat) (w off n : Nat) : List Byte :=
  (List.range n).map fun i => e.winByte sh w (off + i)

/-- Bytes set in a map of bytes. -/
def putBytes (m : NMap Byte) (at_ : Nat) (b : List Byte) : NMap Byte := b.zipIdx.foldl (fun m p => put 0 m (at_ + p.2) p.1) m

/-- Bytes of a window, or of its shadow in a group, written; words written whole have fresh check bits. -/
def Engine.winWrite (e : Engine) (sh : Option Nat) (w off : Nat) (b : List Byte) : Engine :=
  let whole (from_ : Nat) (l : List Nat) : List Nat := l.filter fun x => !(from_ ≤ x && x + 4 ≤ from_ + b.length)
  match sh with
  | some g => { e with shadows := e.shadows.map fun x =>
      if x.win = w ∧ x.group = g ∧ x.gen = 0 then { x with bytes := putBytes x.bytes off b, bad := whole off x.bad } else x }
  | none => { e with win := putBytes e.win (4096 * w + off) b, winBad := whole (4096 * w + off) e.winBad }

/-- Windows taken back to +0.0. -/
def Engine.winZero (e : Engine) (w0 n : Nat) : Engine :=
  { e with win := e.win.filter fun p => p.1 < 4096 * w0 || 4096 * (w0 + n) ≤ p.1,
           winBad := e.winBad.filter fun b => b < 4096 * w0 || 4096 * (w0 + n) ≤ b }

/-- The shadows of these windows in the group that have not taken their windows' values do so, with their bad words. -/
def Engine.openShadows (e : Engine) (g : Nat) (wins : List Nat) : Engine :=
  { e with shadows := e.shadows.map fun x =>
      if x.group = g ∧ x.gen = 0 ∧ !x.live ∧ wins.contains x.win then
        { x with live := true, bytes := putBytes [] 0 (e.winRead none x.win 0 4096),
                 bad := (wordsIn (4096 * x.win) 4096 e.winBad).map (· - 4096 * x.win) }
      else x }

/-- The windows that an MMA covers (14 R269). -/
def coveredWins (cls : MCls) (w0 m : Nat) : List Nat :=
  (List.range ((m + 31) / 32 * windowsPerBand cls)).map fun i => w0 + i

/-- The windows that a queued operation writes or reads. -/
def MOpKind.wins : MOpKind → List Nat
  | .mma o => coveredWins o.cls o.w0 o.m
  | .mzero w0 n => (List.range n).map fun i => w0 + i
  | .mstc w0 modes _ _ => (List.range modes.length).map fun i => w0 + i
  | .mldc w0 lines _ => (List.range (lines.length / 64)).map fun i => w0 + i
  | .mldb _ _ _ | .mring | .mcmt _ _ => []

/-- Whether an operation has begun. -/
def MOpKind.begun : MOpKind → Bool
  | .mma o => o.pass != 0 || o.row != 0 || o.kb != 0
  | .mstc _ _ l left => left.length != l.length
  | .mldc _ l left => left.length != l.length
  | _ => false

/-- The pages that an engine holds in a data state. -/
def Engine.page (e : Engine) (p : Nat) : PageSt := lookD e.pageSt p .empty

/-! ### One K-block (05 R99, R100, R109) -/

/-- A Slate line: bytes and tag. -/
def Engine.slateLine (e : Engine) (page j : Nat) : List Byte × Tag :=
  (e.slate.read (32768 * page + 64 * j) 64, e.slate.tag (32768 * page + 64 * j))

/-- The micro-scales of a Slate line (05 R95). -/
def Engine.slateScales (e : Engine) (page j : Nat) : List Nat :=
  (e.slate.read (32768 * (page + 1) + 16 * j) 16).map BitVec.toNat

/-- The B operand of column n in K-block `kb` of a pass. -/
def Engine.bOperand (e : Engine) (cls : MCls) (page pass kb n : Nat) : KOp × List Tag :=
  let j := n * linesPerCol cls + 2 * pass + kb
  let l := e.slateLine page j
  if cls = .d64 then
    let l2 := e.slateLine page (j + 1)
    ({ fmt := fmtOf l.2, scl := sclOf l.2, bytes := l.1 ++ l2.1, micro := [] }, [l.2, l2.2])
  else ({ fmt := fmtOf l.2, scl := sclOf l.2, bytes := l.1, micro := e.slateScales page j }, [l.2])

/-- The A operand of a K-block of an entry given as its two lines and its 32 scale bytes. -/
def aOperand (cls : MCls) (kb : Nat) (l0 l1 : List Byte × Tag) (scales : List Byte) : KOp × List Tag :=
  if cls = .d64 then ({ fmt := fmtOf l0.2, scl := sclOf l0.2, bytes := l0.1 ++ l1.1, micro := [] }, [l0.2, l1.2])
  else
    let l := if kb = 0 then l0 else l1
    ({ fmt := fmtOf l.2, scl := sclOf l.2, bytes := l.1, micro := ((scales.drop (16 * kb)).take 16).map BitVec.toNat }, [l.2])

/-- Element (i, n) of the product: its window and its byte offset there. -/
def elemAt (cls : MCls) (w0 i n : Nat) : Nat × Nat :=
  let c := winColumns cls
  (w0 + i / 32 * windowsPerBand cls + n / c, elemBytes cls * (c * (i % 32) + n % c))

/-- The band scale of a row (14 R269). -/
def betaOf (betas : Option (List Nat)) (i : Nat) : FVal :=
  match betas with
  | none => .fin false 1 0
  | some l => (FCode.fmt .bf16).value ((l[i / 64]?).getD 0)

/-- The B operands of the columns of an MMA's K-block, with their tags. -/
def Engine.bOperands (e : Engine) (q : Mma) : List (KOp × List Tag) :=
  (List.range (columnsOf q.cls)).map fun n => e.bOperand q.cls q.page q.pass q.kb n

/-- The Slate lines that a K-block of an MMA reads: its columns' lines and, under S4, their micro-scales' (05 R94, R95). -/
def Mma.slateLines (q : Mma) : List Nat :=
  ((List.range (columnsOf q.cls)).flatMap fun n =>
    let j := n * linesPerCol q.cls + 2 * q.pass + q.kb
    (if q.cls = .d64 then [j, j + 1] else [j]).map fun j => 32768 * q.page + 64 * j) ++
  if q.s4 then (List.range (columnsOf q.cls)).map fun n =>
    lineOf (32768 * (q.page + 1) + 16 * (n * linesPerCol q.cls + 2 * q.pass + q.kb)) else []

/-- The late fault that a row of an MMA's K-block meets, if any (05 R96, R100, R111): an uncorrectable Slate line, the tags, an
uncorrectable word of a window. -/
def Engine.krowFault (e : Engine) (q : Mma) (cols : List (KOp × List Tag)) (i : Nat) (a : KOp × List Tag) : Option (BitVec 10) :=
  if e.slateBad.any q.slateLines.contains then some (cMemerr 4 0)
  else
    match kblockFault q.cls q.s4 (a.2 ++ cols.flatMap Prod.snd) with
    | some x => some x
    | none =>
      if (e.winBad.isEmpty && e.shadows.all fun x => x.bad.isEmpty) then none
      else if (List.range cols.length).any fun n =>
          let (w, off) := elemAt q.cls q.w0 i n
          e.winBadAt q.sh w off (elemBytes q.cls) then some (cMemerr 5 0)
      else none

/-- One K-block of row `i` accumulated into the engine's windows (or shadows), the products emitted with the errors of `t` in place
`p` of the K-block's rows. -/
def Engine.krow (e : Engine) (q : Mma) (cols : List (KOp × List Tag)) (t : KTry) (p i : Nat) (a : KOp) : Engine :=
  cols.zipIdx.foldl (fun e c =>
    let (w, off) := elemAt q.cls q.w0 i c.2
    let old := leVal (e.winRead q.sh w off (elemBytes q.cls))
    let term := kterm a c.1.1 (betaOf q.betas i) (KTry.errAt t p c.2)
    e.winWrite q.sh w off (leBytes (elemBytes q.cls) (accumulate (accFmt q.cls) old term))) e

/-- One K-block of successive rows accumulated. -/
def Engine.krows (e : Engine) (q : Mma) (cols : List (KOp × List Tag)) (t : KTry) (rows : List KOp) : Engine :=
  rows.zipIdx.foldl (fun e a => e.krow q cols t a.2 (q.row + a.2) a.1) e

/-- What one K-block of successive rows comes to (05 R100, R109, R110): the failed attempts, and the engine with the rows before the
first that faults accumulated, and its fault; no row is accumulated where the K-block persists in failing. -/
def Engine.kblock (e : Engine) (q : Mma) (rows : List (KOp × List Tag)) (tries : List KTry) : Nat × Engine × Option (BitVec 10) :=
  let cols := e.bOperands q
  let good := (rows.zipIdx.takeWhile fun a => (e.krowFault q cols (q.row + a.2) a.1).isNone).map fun a => a.1.1
  let stop := (rows[good.length]?).bind (e.krowFault q cols (q.row + good.length))
  let (n, t) := if good.isEmpty then (0, KTry.clean) else attempts (kblockPasses good (cols.map Prod.fst)) tries
  if persists n then (n, e, some (cAssay 0)) else (n, e.krows q cols t good, stop)

/-! ### Queues of operations (05 R102, R103) -/

/-- The operations of a convoy on an engine. -/
def Engine.opsOf (e : Engine) (conv : Nat) : List MOp := e.ops.filter fun o => (waveOfKey o.wave).conv == conv

/-- Operations of a wave have left an engine's queue: waiters on its batches and on the engine look again (18 Table 18-7). -/
def State.wakeMatrix (s : State) (e wave : Nat) : State :=
  ({ s with waves := s.waves.map fun (k, w) => match w.wait with
      | some (.batch _) | some .mfnc => if k = wave then (k, { w with woken := true }) else (k, w)
      | some (.batchEng x) => if (waveOfKey k).conv = (waveOfKey wave).conv ∧ x = e then (k, { w with woken := true })
          else (k, w)
      | _ => (k, w) } : State).unstall

/-- An operation leaves the queue. -/
def State.matrixDone (s : State) (cl e : Nat) (o : MOp) (ops : List MOp) : State :=
  (s.setEngine cl e { s.engine cl e with ops := ops }).wakeMatrix e o.wave

/-- Waves that wait for ring entries look again. -/
def State.wakeRing (s : State) (conv e : Nat) : State :=
  { s with waves := s.waves.map fun (k, w) =>
      if (waveOfKey k).conv = conv ∧ w.wait = some (.aring e) then (k, { w with woken := true }) else (k, w) }

/-- Where an MMA stands after a K-block of `n` rows, and whether their ring entries are over. -/
def Mma.next (q : Mma) (n : Nat) : Mma × Bool :=
  if q.kb + 1 < kblocksOf q.cls then ({ q with kb := q.kb + 1, grp := n }, false)
  else if q.row + n < q.m then ({ q with row := q.row + n, kb := 0, grp := 0 }, true)
  else ({ q with pass := q.pass + 1, row := 0, kb := 0, grp := 0 }, true)

/-- The A-ring is settled after an MMA's late fault (05 R110): the MMA and every later MMA of its wave are abandoned, every
entry pushed is freed. -/
def State.settleRing (s : State) (cl e wave : Nat) : State :=
  let x := s.engine cl e
  let ring := x.ring.map fun r => { r with head := r.tail, free := r.entries, ready := [] }
  let s := s.setEngine cl e { x with ring := ring, ops := x.ops.filter fun o => !(o.op.isMma && o.wave == wave) }
  (s.wakeRing (waveOfKey wave).conv e).wakeMatrix e wave

/-- Closed batches of the wave that are not complete (05 R102). -/
def Ctx.pendingBatches (c : Ctx) : List (BitVec 16) :=
  (((c.s.matrixOps c.clusterNo c.key).map MOp.batch).filter fun b => b != c.w.batchOpen).eraseDups

/-- The operations that access memory: MLDB, MLDC and MSTC. -/
def MOpKind.moves : MOpKind → Bool
  | .mldb _ _ _ | .mstc _ _ _ _ | .mldc _ _ _ => true
  | .mring | .mma _ | .mcmt _ _ | .mzero _ _ => false

/-- A matrix operation is issued into the open batch, or waits while the convoy has 64 on the engine (05 R103). One that accesses memory
is issued once the wave's earlier stores are performed (04 R82). -/
def Ctx.issueMtx (c : Ctx) (s : State) (e : Nat) (f : Engine → Engine) (op : MOpKind) : Verdict :=
  if 64 ≤ ((c.engine e).opsOf c.id.conv).length then .park c.s (.batchEng e)
  else if op.moves && !c.w.sq.isEmpty then .stall c.s
  else
    let w := ((s.wave? c.id).getD c.w).noSpin
    let x := f (s.engine c.clusterNo e)
    let o : MOp := { wave := c.key, batch := w.batchOpen, op := op, hnd := c.hnd }
    .ok (.of ((s.setWave c.id w).setEngine c.clusterNo e { x with ops := x.ops ++ [o] }))

/-! ### Window ownership (05 R106, 20 R351) -/

/-- A SPILL-LOST record (07 Table 7-7). -/
def spillLost (cause : BitVec 10) (va : Nat) (owner : BitVec 16) (e w : Nat) : List Byte :=
  eventRecord 4 cause.toNat 0 0 0 va owner.toNat 0 (512 * e + w)

/-- A window's value is discarded: +0.0 in FP32 mode, owner 0, with a SPILL-LOST record (20 R420). -/
def State.windowLost (s : State) (cl e w : Nat) (cause : BitVec 10) (va : Nat) : State :=
  let x := s.engine cl e
  let o := x.ownerOf w
  let lost : Engine := { x.winZero w 1 with owner := del x.owner w, mode64 := x.mode64 &&& ~~~ (1#512 <<< w) }
  (s.setEngine cl e lost).postEvent (vfOf o) (spillLost cause va o e w)

/-- Where a context's save area keeps a window, and its two bits of WMAP (20 Tables 20-4, 20-6). -/
def slotOfWindow (base e w : Nat) : Nat := base + 0x1000 + 0x200000 * e + 0x1000 * w

/-- The byte of WMAP that a window's bits are in. -/
def wmapOf (base e w : Nat) : Nat := base + 0x100 + (512 * e + w) / 4

/-- A window is written to its owner's spill slot and owned by none from then on; one that cannot be written, or whose WMAP cannot be
read, is lost (20 R351, R420), as is one with an uncorrectable word (DESIGN CHOICE, log 92). The answer is none while it has to wait. -/
def State.spillWindow (s : State) (cl e w : Nat) : Option State :=
  let x := s.engine cl e
  let o := x.ownerOf w
  let d := cl / 8
  if x.ops.any fun p => p.op.begun && p.op.wins.contains w then none
  else if x.winBadAt none w 0 4096 then some (s.windowLost cl e w (cMemerr 5 0) 0)
  else
    let base := s.csaOf o
    let k := 4 ^ (w % 4)
    let v := if x.mode64.getLsbD w then 3 else 1
    match s.saveRead (vfOf o) d (wmapOf base e w) 1 with
    | .error (cause, va) => some (s.windowLost cl e w cause va)
    | .ok old =>
      let new := leVal old - leVal old / k % 4 * k + v * k
      if !s.canSave (vfOf o) d (wmapOf base e w) 1 then none
      else
        match s.saveLines (vfOf o) d (pieces (slotOfWindow base e w) (x.winRead none w 0 4096) ++
            [{ va := wmapOf base e w, bytes := leBytes 1 new, tag := some 0 }]) with
        | .wait => none
        | .done s => some (s.setEngine cl e { s.engine cl e with owner := del x.owner w })
        | .bad cause va => some (s.windowLost cl e w cause va)

/-- The device's steps before a MATRIX/WIN-OWNER trap (20 R351): another function's copy is spilled, and the context's own
copies on other clusters. -/
def Ctx.spills (c : Ctx) (e w : Nat) : Option State :=
  let o := (c.engine e).ownerOf w
  let s := if o ≠ 0 ∧ vfOf o ≠ c.vf then c.s.spillWindow c.clusterNo e w else some c.s
  (c.s.clusters.map Prod.fst).foldl (fun s cl => s.bind fun s =>
    if cl ≠ c.clusterNo ∧ (s.engine cl e).ownerOf w = c.ctxid then s.spillWindow cl e w else some s) s

/-- The lowest of the windows that another context owns. -/
def Ctx.notOwned (c : Ctx) (e : Nat) (wins : List Nat) : Option Nat :=
  wins.find? fun w => (c.engine e).ownerOf w != c.ctxid

/-- The trap MATRIX/WIN-OWNER. -/
def Ctx.ownerTrap (c : Ctx) (e w : Nat) : Verdict :=
  match c.spills e w with
  | none => .stall c.s
  | some s => .failAt s { cause := cMatrix 7, faddr := BitVec.ofNat 57 (512 * e + w), flane := 0 }

/-- Whether a window has a pending shadow in a group other than the given one. -/
def Engine.shadowed (e : Engine) (w : Nat) (g : Option Nat) : Bool := e.shadows.any fun x => x.win == w && some x.group != g

/-- The checks of 14 R270 on a list of windows of MZERO, MSTC and MLDC: range, then ownership and shadows window by window. -/
def Ctx.winCheck (c : Ctx) (e w0 n : Nat) : Option Verdict :=
  if 512 < w0 + n then some (.fail (.plain (cMatrix 5)))
  else
    ((List.range n).map fun i => w0 + i).findSome? fun w =>
      if (c.engine e).ownerOf w ≠ c.ctxid then some (c.ownerTrap e w)
      else if (c.engine e).shadowed w none then some (.fail (.plain (cMatrix 9)))
      else none

/-- The slate pages of an engine that a saved convoy still holds are written to its image before they are emptied (20 R352).
A write that fails is recorded against the holder (R420); of an uncorrectable line the image holds zeros, and the holder's lowest-slot wave
receives the late fault (05 R111, 25 R412; DESIGN CHOICE, log 92). None while the write has to wait. -/
def State.slateWrite (s : State) (cl e : Nat) : Option State :=
  let x := s.engine cl e
  match x.slateOf with
  | none => some s
  | some k =>
    match s.convoy? k with
    | none => some (s.setEngine cl e { x with slateOf := none, pageSt := [], slateBad := [] })
    | some cv =>
      let ps := (List.range 64).filter fun p => x.page p != .empty
      let img := ps.flatMap fun p => (List.range 512).map fun j =>
        let l := if x.slateBad.contains (32768 * p + 64 * j) then (List.replicate 64 0, 0) else x.slateLine p j
        ({ va := s.slotBase cv + 0x591000 + 0x200000 * e + 0x8000 * p + 64 * j, bytes := l.1, tag := some l.2 } : Piece)
      match s.saveLines cv.vf (cl / 8) img with
      | .wait => none
      | .done s =>
        let s := s.setEngine cl e { s.engine cl e with slateOf := none, pageSt := [], slateBad := [] }
        some (match if x.slateBad.isEmpty then none else s.firstWave k none with
          | some w => s.reportLate w false { cause := cMemerr 4 0, faddr := 0 }
          | none => s)
      | .bad cause at_ =>
        let s := s.setEngine cl e { x with slateOf := none, pageSt := [], slateBad := [] }
        some (s.setConvoy k { cv with lost := cv.lost ++ [(e, { cause := cause, faddr := BitVec.ofNat 57 at_ })] })

/-! ### Records read as loads (14 R273, R281, R283) -/

/-- What the records of an instruction come to: how it waits or faults; or the state after their load, their bytes, and the watchpoints
that the load matches. -/
abbrev Chunks : Type := Except Verdict (State × List (List Byte) × List (Nat × Nat × Lanes))

/-- Chunks of memory, none crossing a page, read in one load of program order, each checked as a naturally aligned access of
its length. -/
def Ctx.loadChunks (c : Ctx) (lanes : List Nat) (l : List (Nat × Nat)) : Chunks :=
  let accs := l.map fun p => (p, match c.locate .device .load p.2 p.1 with
    | .error e => Except.error e
    | .ok x => match if c.w.covered x p.2 then none else c.badAt x p.2 with
      | some e => .error e
      | none => .ok x)
  match (accs.zip lanes).filterMap fun a => match a.1.2 with
    | .error e => some (e, a.1.1.1, a.2)
    | .ok _ => none with
  | f :: r =>
    .error (.fail { cause := f.1, faddr := BitVec.ofNat 57 (faddrOf f.2.1),
                    flane := lanesFrom (f.2.2 :: r.map fun x => x.2.2) })
  | [] =>
    let places := accs.filterMap fun a => match a.2 with
      | .ok x => some (a.1, x)
      | .error _ => none
    match c.nearRead false ((l.headD (0, 0)).2) (places.map fun p => (p.1.1, p.2)) with
    | .park s n => .error (.park s (.slice n))
    | .wait s => .error (.stall s)
    | .ready s =>
      let s := s.touches c.vf (places.map fun p => (p.1.1, p.2)) false
      let bytes := places.map fun p => (List.range p.1.2).map fun i => (c.w.queuedByte p.2 i).getD (c.byteAt s p.2 i)
      let s := c.claims s ((places.zip bytes).filterMap fun p => match p.1.2 with
        | .device pa _ => some (pa, if c.w.covered p.1.2 p.1.1.2 then none else some p.2)
        | _ => none)
      .ok (s, bytes, c.watchHits .device true false ((l.headD (0, 0)).2) (lanes.zip (l.map fun p => faddrOf p.1)))

/-- A convoy has committed an instruction that bars its flush (20 R346). -/
def State.markSubmitted (s : State) (conv : Nat) : State :=
  match s.convoy? conv with
  | some cv => s.setConvoy conv { cv with submitted := true }
  | none => s

/-! ### Tile tasks (05 R107, R108) -/

/-- The board of a context that has set none: the widest extent, no stencil (DESIGN CHOICE, log 12). -/
def Board.fresh : Board := { w := 1024, h := 1024, mask := 0, posted := [], retired := [] }

/-- The offset of a stencil bit (05 R108). -/
def stencilAt (bit : Nat) : Int × Int :=
  let idx := if bit < 12 then bit else bit + 1
  ((idx % 5 : Int) - 2, (idx / 5 : Int) - 2)

/-- The offsets of a mask. -/
def offsetsOf (mask : BitVec 24) : List (Int × Int) := ((List.range 24).filter fun i => mask.getLsbD i).map stencilAt

/-- Whether some pair (a, b) has a·dx + b·dy < 0 for every offset; with offsets of at most 2, a pair of at most 3 does if any
does. -/
def stencilGood (mask : BitVec 24) : Bool :=
  let r : List Int := [-3, -2, -1, 0, 1, 2, 3]
  r.any fun a => r.any fun b => (offsetsOf mask).all fun o => a * o.1 + b * o.2 < 0

/-- Whether the tasks that a tile waits for have retired. -/
def Board.released (b : Board) (x y : Nat) : Bool :=
  (offsetsOf b.mask).all fun o =>
    let u := (x : Int) + o.1
    let v := (y : Int) + o.2
    u < 0 || v < 0 || (b.w : Int) ≤ u || (b.h : Int) ≤ v || b.retired.contains (u.toNat, v.toNat)

/-- Tasks whose dependences have retired move to the released ones, oldest posting first. -/
def Cluster.promote (c : Cluster) : Cluster :=
  let ok (t : TileTask) : Bool := (lookD c.boards t.ctx.toNat Board.fresh).released t.x t.y
  { c with tileQueue := c.tileQueue.filter fun t => !ok t, tileReady := c.tileReady ++ c.tileQueue.filter ok }

/-- A tile-task record's fields (05 Table 5-3); none for a reserved value or a field out of range. -/
def tileRecord (ctx : BitVec 16) (grid conv : Nat) (b : List Byte) : Option TileTask :=
  let f (o n : Nat) : Nat := fieldOf b o n
  let flags := f 0x28 4
  let t : TileTask := { ctx := ctx, grid := grid, conv := conv, abase := f 0 8, astride := f 8 4, m := f 0xC 2, npg := f 0xE 2,
                        bbase := f 0x10 8, cbase := f 0x18 8, cstride := f 0x20 4, x := f 0x24 2, y := f 0x26 2,
                        cls := if flags % 4 = 0 then .n8 else if flags % 4 = 1 then .b16 else .d64, acc := flags / 4 % 2 == 1,
                        done := f 0x30 8, stored := false }
  if t.abase % 128 ≠ 0 ∨ t.astride % 128 ≠ 0 ∨ t.m = 0 ∨ 256 < t.m ∨ t.npg = 0 ∨ 64 < t.npg ∨ t.bbase % 64 ≠ 0 ∨ t.cbase % 64 ≠ 0 ∨
      t.cstride % 64 ≠ 0 ∨ 1023 < t.x ∨ 1023 < t.y ∨ flags % 4 = 3 ∨ 8 ≤ flags ∨ f 0x2C 4 ≠ 0 ∨ t.done % 4 ≠ 0 ∨ f 0x38 8 ≠ 0
  then none
  else some t

end Sys2Proof.Machine
end

