-- ==== Sys2Proof/Machine/Mtx.lean ====
section
/-!
DEFINITION. Sys2Proof/Machine/Mtx.lean: the meanings of the MTX instructions (14 R265 to R274, 05).
-/
namespace Sys2Proof.Machine

open Sys2Proof

/-- A wave-wide instruction: it acts once, with the leader's operands (14 R263). -/
def Meta.wide (k : Ctl) (fields : List Field) : Meta := Meta.uni k fields

/-- A k destination (OPERAND/DESC-KIND otherwise). -/
def needK (d : Desc) : Option (BitVec 10) := if isK d then none else some (cOperand 5)

/-- The first of two checks that fails. -/
def firstOf (a b : Option (BitVec 10)) : Option (BitVec 10) :=
  match a with
  | some x => some x
  | none => b

/-- A predicate written in every acting thread (05 R92, 14 R285): ONC has no effect on a wave-wide instruction (R263). -/
def Ctx.writePred (c : Ctx) (s : State) (k : Ctl) (pd : BitVec 3) (v : Bool) : State :=
  let w := (s.wave? c.id).getD c.w
  let act := c.acting { k with onc := false }
  s.setWave c.id (w.setP pd.toNat (mergeLanes act (if v then act else 0) (w.getP pd.toNat)))

/-- Whether an instruction with a predicate destination may stand in a handler (19 R332). -/
def predMeta (m : Meta) (pd : BitVec 3) : Meta := { m with noHnd := pd != 7 }

/-! ### Reservation (05 R92, R93; 14 R266) -/

/-- The engine that an MRES would take: none where it fails. -/
def Ctx.reservable (c : Ctx) (sel : MSel) : Option Nat :=
  match sel with
  | .eng e => if (c.engine e.toNat).holder = none ∨ (c.engine e.toNat).holder = some c.id.conv then some e.toNat else none
  | .any => (List.range 4).find? fun e => (c.engine e).holder == none

/-- An engine as its new holder first sees it: windows, modes and owners stay. -/
def Engine.take (e : Engine) (conv : Option Nat) : Engine :=
  { e with holder := conv, pageSt := [], slate := Img.empty, slateBad := [], ring := none, shadows := [],
           shFault := [] }

/-- MRES of a matrix engine. -/
def execMres (k : Ctl) (pd : BitVec 3) (sel : MSel) (kd : Option Desc) (s : State) : Host.Outcome State Fault Refusal :=
  instr s { predMeta (.wide k (kd.elim [] fun d => [dst d])) pd with last := true, closer := true }
    (fun _ => kd.bind needK) fun c act =>
      let put (s : State) (v : DWord) : State := match kd with
        | some d => c.dest d true [(leader act, v)] s
        | none => s
      match c.reservable sel with
      | none => .ok (.of (put (c.writePred c.s k pd false) (BitVec.allOnes 64)))
      | some e =>
        let done (s : State) : Verdict := .ok (.of (put (c.writePred s k pd true) (BitVec.ofNat 64 e)))
        if (c.engine e).holder = some c.id.conv then done c.s
        else
          match c.s.slateWrite c.clusterNo e with
          | none => .stall c.s
          | some s => done (s.setEngine c.clusterNo e ((s.engine c.clusterNo e).take (some c.id.conv)))

/-- MREL of a matrix engine: it waits until the convoy's operations there have completed. -/
def execMrel (k : Ctl) (e : BitVec 2) (s : State) : Host.Outcome State Fault Refusal :=
  instr s { Meta.wide k [] with last := true, closer := true } (fun c => c.needEngine e.toNat) fun c _ =>
    let x := c.engine e.toNat
    if (x.opsOf c.id.conv).isEmpty then .ok (.of (c.s.setEngine c.clusterNo e.toNat { x.take none with freedBy := some c.id.conv }).unstall)
    else .stall c.s

/-! ### Slate and ring (05 R94, R95, R97; 14 R267, R268) -/

/-- The page states after an MLDB commits. -/
def Engine.loadPage (e : Engine) (p : Nat) (s4 : Bool) : Engine :=
  if s4 then { e with pageSt := ins (ins e.pageSt p .dataS4) (p + 1) .scaleHolder }
  else
    let st := if e.page p = .scaleHolder ∧ e.page (p - 1) = .dataS4 then ins e.pageSt (p - 1) .data else e.pageSt
    { e with pageSt := ins st p .data }

/-- Lines of a range of virtual addresses: physical and virtual address, with their places; or the first fault. -/
def Ctx.rangeLines (c : Ctx) (k : Access) : List Nat → Except (BitVec 10 × Nat) (List (Nat × Place))
  | [] => .ok []
  | va :: r =>
    match c.locate .device k 64 va with
    | .error e => .error (e, va)
    | .ok p =>
      match c.rangeLines k r with
      | .error e => .error e
      | .ok l => .ok ((va, p) :: l)

/-- Line addresses from a base on. -/
def lineVas (base n : Nat) : List Nat := (List.range n).map fun i => base + 64 * i

/-- The pairs of physical and virtual address of lines. -/
def linePairs (l : List (Nat × Place)) : List (Nat × Nat) := l.map fun p => (p.2.adr, p.1)

/-- MLDB. -/
def execMldb (k : Ctl) (e : BitVec 2) (page : BitVec 6) (addr : Desc) (saddr : Option Desc) (s : State) :
    Host.Outcome State Fault Refusal :=
  instr s (.wide k (src addr 2 :: saddr.elim [] fun d => [src d 2]))
    (fun c => firstOf (c.needEngine e.toNat) (if saddr.isSome && page.toNat % 2 = 1 then some (cMatrix 1) else none))
    fun c act =>
      let a := (c.addr act addr).toNat
      let b := saddr.map fun d => (c.addr act d).toNat
      if a % 64 ≠ 0 then .fail (.lead act (cAlign 0) a)
      else if b.getD 0 % 64 ≠ 0 then .fail (.lead act (cAlign 0) (b.getD 0))
      else
        match c.rangeLines .load (lineVas a 512 ++ b.elim [] fun x => lineVas x 128) with
        | .error f => .fail (.lead act f.1 f.2)
        | .ok l =>
          if !c.touchables l false then .stall c.s
          else c.issueMtx (c.s.touches c.vf l false) e.toNat (fun x => x.loadPage page.toNat saddr.isSome)
            (.mldb page.toNat (linePairs l) (List.range l.length))

/-- The checks of MRING's operands after the reservation (14 R268). -/
def Ctx.ringFault (c : Ctx) (base n sbase : Nat) : Option (BitVec 10 × Nat) :=
  let meets (a b x y : Nat) : Bool := a < x + y && x < a + b
  if base % 128 ≠ 0 then some (cAlign 0, base)
  else if sbase % 32 ≠ 0 then some (cAlign 0, sbase)
  else if n < 16 ∨ 2048 < n ∨ 2 ^ Nat.log2 n ≠ n then some (cOperand 8, 0)
  else if c.cw.scratchBytes < base + 128 * n then some (cScratch 0, base)
  else if c.cw.scratchBytes < sbase + 32 * n then some (cScratch 0, sbase)
  else if meets base (128 * n) sbase (32 * n) then some (cScratch 3, sbase)
  else if c.cw.binds.any fun p => meets base (128 * n) p.2.s p.2.n then some (cScratch 2, base)
  else if c.cw.binds.any fun p => meets sbase (32 * n) p.2.s p.2.n then some (cScratch 2, sbase)
  else none

/-- MRING: it waits until the ring before it is empty and no MMA of the engine is pending (05 R97). -/
def execMring (k : Ctl) (e : BitVec 2) (base cnt sbase : Desc) (s : State) : Host.Outcome State Fault Refusal :=
  instr s (.wide k [src base, src cnt, src sbase]) (fun c => c.needEngine e.toNat) fun c act =>
    let t := leader act
    let b := (c.read32 t base).toNat
    let n := (c.read32 t cnt).toNat
    let sb := (c.read32 t sbase).toNat
    match c.ringFault b n sb with
    | some f => .fail (.lead act f.1 f.2)
    | none =>
      let x := c.engine e.toNat
      let pushing := c.s.waves.any fun p => p.1 / 16 == c.crewKey && p.2.sq.any fun q => match q.kind with
        | .push f _ _ _ => f == e.toNat
        | _ => false
      if (x.ring.elim false fun r => r.head != r.tail) || (x.ops.any fun o => o.op.isMma) || pushing then .stall c.s
      else
        let r : Ring := { no := x.ringNo, crew := c.id.crew, base := b, entries := n, sbase := sb, head := 0, tail := 0, free := n,
                          ready := [] }
        c.issueMtx c.s e.toNat (fun x => { x with ring := some r, ringNo := x.ringNo + 1 }) .mring

/-! ### MMA, MCMT, MZERO, MSTC, MLDC (05 R100 to R105; 14 R269 to R271) -/

/-- The MCMTs of a group that are pending. -/
def Engine.mcmts (e : Engine) (g : Nat) : Nat := e.ops.countP fun o => match o.op with
  | .mcmt h _ => h == g
  | _ => false

/-- The shadows that an MMA.SH of the group takes from the store for these windows (05 R104): those that no MMA.SH after the group's
last MCMT has taken. -/
def Engine.newShadows (e : Engine) (g : Nat) (wins : List Nat) : List Shadow :=
  (wins.filter fun w => !e.shadows.any fun x => x.win == w && x.group == g && x.gen == e.mcmts g).map fun w =>
    { win := w, group := g, gen := e.mcmts g, live := false, bytes := [], bad := [] }

/-- The window checks of an MMA (14 R269, checks 5 to 8). -/
def Ctx.mmaCheck (c : Ctx) (e : Nat) (cls : MCls) (wins : List Nat) (sh : Option Nat) : Option Verdict :=
  let x := c.engine e
  if wins.any fun w => 511 < w then some (.fail (.plain (cMatrix 5)))
  else
    match c.notOwned e wins with
    | some w => some (c.ownerTrap e w)
    | none =>
      if wins.any fun w => x.mode64.getLsbD w != (cls == .d64) then some (.fail (.plain (cMatrix 6)))
      else if wins.any fun w => x.shadowed w sh then some (.fail (.plain (cMatrix 9)))
      else
        match sh with
        | some g => if 32 < x.shadows.length + (x.newShadows g wins).length then some (.fail (.plain (cMatrix 8))) else none
        | none => none

/-- The band scales that an MMA reads at its commit: how it faults or waits, or the values. -/
def Ctx.bandScales (c : Ctx) (act : Lanes) (off m : Nat) : Except Verdict (List Nat) :=
  let n := (m + 63) / 64
  let md : LdMods := { ty := .n16, ch := 0, tag := false, part := false }
  if off % 2 ≠ 0 then .error (.fail (.lead act (cAlign 0) off))
  else if c.cw.scratchBytes < off + 2 * n then .error (.fail (.lead act (cScratch 0) off))
  else if (List.range n).any fun j => (c.badAt (.scratch (off + 2 * j)) 2).isSome then .error (.fail (.lead act (cMemerr 2 0) off))
  else if (List.range n).any fun j => c.w.mustDrain (.scratch (off + 2 * j)) 2 then .error (.stall c.s)
  else .ok ((List.range n).map fun j => c.loadVal c.s md (.scratch (off + 2 * j)))

/-- MMA. -/
def execMma (k : Ctl) (e : BitVec 2) (cls : MCls) (w0 : BitVec 9) (page : BitVec 6) (m : Desc) (sh : Option (BitVec 2))
    (boff : Option Desc) (s : State) : Host.Outcome State Fault Refusal :=
  instr s (.wide k (src m :: boff.elim [] fun d => [src d]))
    (fun c =>
      let x := c.engine e.toNat
      firstOf (c.needEngine e.toNat) (if x.ring.isNone && c.acting k != 0 then some (cMatrix 4)
        else if x.page page.toNat = .empty ∨ x.page page.toNat = .scaleHolder then some (cMatrix 2) else none))
    fun c act =>
      let t := leader act
      let n := (c.read32 t m).toNat
      let x := c.engine e.toNat
      let g := sh.map BitVec.toNat
      if n = 0 ∨ 256 < n then .fail (.plain (cOperand 8))
      else
        let wins := coveredWins cls w0.toNat n
        match c.mmaCheck e.toNat cls wins g with
        | some v => v
        | none =>
          match (match boff with
            | none => Except.ok none
            | some d => (c.bandScales act (c.read32 t d).toNat n).map some) with
          | .error v => v
          | .ok betas =>
            c.issueMtx c.s e.toNat
              (fun y => match g with
                | some g => { y with shadows := y.shadows ++ y.newShadows g wins }
                | none => y)
              (.mma { cls := cls, page := page.toNat, s4 := x.page page.toNat == .dataS4, w0 := w0.toNat, m := n, sh := g,
                      betas := betas, pass := 0, row := 0, kb := 0, grp := 0 })

/-- MCMT. -/
def execMcmt (k : Ctl) (e : BitVec 2) (g : BitVec 2) (cond : Desc) (s : State) : Host.Outcome State Fault Refusal :=
  instr s (.wide k [src cond 2]) (fun c => c.needEngine e.toNat) fun c act =>
    c.issueMtx c.s e.toNat id (.mcmt g.toNat (c.addr act cond != 0))

/-- The modes of windows set. -/
def Engine.setModes (e : Engine) (w0 n : Nat) (d64 : Bool) : Engine :=
  { e with mode64 := (List.range n).foldl (fun m i =>
      if d64 then m ||| (1#512 <<< (w0 + i)) else m &&& ~~~ (1#512 <<< (w0 + i))) e.mode64 }

/-- Whether the second source is the literal of the instruction word. -/
def isLit : SrcB → Bool
  | .lit _ => true
  | .desc _ => false

/-- MZERO: a literal count is checked without a leader too (14 R263). -/
def execMzero (k : Ctl) (e : BitVec 2) (w0 : BitVec 9) (n : SrcB) (d64 : Bool) (s : State) :
    Host.Outcome State Fault Refusal :=
  instr s { Meta.wide k (srcB n) with always := true } (fun c => c.needEngine e.toNat) fun c act =>
    let x := (c.readB32 (leader act) n).toNat
    let check : Option Verdict := if act = 0 ∧ !isLit n then none
      else if x = 0 then some (.fail (.plain (cOperand 8))) else c.winCheck e.toNat w0.toNat x
    match check with
    | some v => v
    | none =>
      if act = 0 then .ok (.of c.s)
      else c.issueMtx c.s e.toNat (fun y => y.setModes w0.toNat x d64) (.mzero w0.toNat x)

/-- The addresses of the lines of n windows, row by row (14 R271). -/
def windowVas (a n stride : Nat) : List Nat := (List.range (64 * n)).map fun i => a + i / (2 * n) * stride + 64 * (i % (2 * n))

/-- The checks of MSTC and MLDC after the reservation, up to the windows'. -/
def moveFault (a n stride : Nat) : Option (BitVec 10 × Nat) :=
  if n = 0 ∨ 64 < n then some (cOperand 8, 0)
  else if stride % 64 ≠ 0 ∨ stride < 128 * n ∨ 2 ^ 24 ≤ stride then some (cOperand 8, 0)
  else if a % 64 ≠ 0 then some (cAlign 0, a)
  else none

/-- MSTC and MLDC: windows move between the engine and memory. -/
def moveInstr (s : State) (k : Ctl) (e : BitVec 2) (w0 : BitVec 9) (addr n stride : Desc) (acc : Access)
    (f : Nat → Engine → Engine) (op : Engine → Nat → List (Nat × Nat) → MOpKind) : Host.Outcome State Fault Refusal :=
  instr s (.wide k [src addr 2, src n, src stride]) (fun c => c.needEngine e.toNat) fun c act =>
    let t := leader act
    let a := (c.addr act addr).toNat
    let m := (c.read32 t n).toNat
    let st := (c.read32 t stride).toNat
    let wr := acc == .store
    match moveFault a m st with
    | some x => .fail (.lead act x.1 x.2)
    | none =>
      match c.winCheck e.toNat w0.toNat m with
      | some v => v
      | none =>
        match c.rangeLines acc (windowVas a m st) with
        | .error x => .fail (.lead act x.1 x.2)
        | .ok l =>
          if !c.touchables l wr then .stall c.s
          else c.issueMtx (c.s.touches c.vf l wr) e.toNat (f m) (op (c.engine e.toNat) m (linePairs l))

/-- MSTC. -/
def execMstc (k : Ctl) (e : BitVec 2) (w0 : BitVec 9) (addr n stride : Desc) (s : State) : Host.Outcome State Fault Refusal :=
  moveInstr s k e w0 addr n stride .store (fun _ x => x) fun x m l =>
    .mstc w0.toNat ((List.range m).map fun j => x.mode64.getLsbD (w0.toNat + j)) l (List.range l.length)

/-- MLDC. -/
def execMldc (k : Ctl) (e : BitVec 2) (w0 : BitVec 9) (addr n stride : Desc) (d64 : Bool) (s : State) :
    Host.Outcome State Fault Refusal :=
  moveInstr s k e w0 addr n stride .load (fun m x => x.setModes w0.toNat m d64) fun _ _ l =>
    .mldc w0.toNat l (List.range l.length)

/-! ### Batches (05 R102, 04 R84; 14 R272) -/

/-- MFNC. -/
def execMfnc (k : Ctl) (d : Desc) (s : State) : Host.Outcome State Fault Refusal :=
  instr s (.wide k [dst d]) (fun _ => needK d) fun c act =>
    if 64 ≤ c.pendingBatches.length then .park c.s .mfnc
    else
      let s := c.dest d true [(leader act, c.w.batchOpen.zeroExtend 64)] c.s
      let w := (s.wave? c.id).getD c.w
      .ok (.of (s.setWave c.id { w with batchClosed := c.w.batchOpen, batchOpen := c.w.batchOpen + 1 }))

/-- Whether batch b is no later than batch n (04 R84). -/
def notLater (b n : BitVec 16) : Bool := (n - b).toNat < 2 ^ 15

/-- MWAIT. -/
def execMwait (k : Ctl) (b : SrcB) (s : State) : Host.Outcome State Fault Refusal :=
  instr s { Meta.wide k (srcB b) with always := true } noOwn fun c act =>
    let n : BitVec 16 := (c.readB32 (leader act) b).extractLsb' 0 16
    if act = 0 ∧ !isLit b then .ok (.of c.s)
    else if n != c.w.batchClosed && (n - c.w.batchClosed).toNat < 2 ^ 15 then .fail (.plain (cQueue 0))
    else if act = 0 then .ok (.of c.s)
    else if (c.s.matrixOps c.clusterNo c.key).any fun o => notLater o.batch n && o.batch != c.w.batchOpen then
      .park c.s (.batch n)
    else .ok (.of c.s)

/-! ### Tile tasks (05 R107, R108; 14 R273) -/

/-- The wake of waves that wait for room in the cluster's task queue. -/
def State.wakeTiles (s : State) (cl : Nat) : State :=
  { s with waves := s.waves.map fun (k, w) =>
      if clusterOfCore w.core = cl ∧ w.wait = some .tileQueue then (k, { w with woken := true }) else (k, w) }

/-- The tile tasks of a cluster that wait in its queue. -/
def Cluster.queued (c : Cluster) : List TileTask := c.tileQueue ++ c.tileReady

/-- TASKQ. -/
def execTaskq (k : Ctl) (addr : Desc) (s : State) : Host.Outcome State Fault Refusal :=
  instr s { Meta.wide k [src addr 2] with last := true, closer := true } noOwn fun c act =>
    let a := (c.addr act addr).toNat
    match c.loadChunks [leader act] [(a, 64)] with
    | .error v => v
    | .ok (s, bytes, hits) =>
      match tileRecord c.ctxid c.cv.grid c.cv.index (bytes.headD []) with
      | none => .fail (.plain (cOperand 12))
      | some t =>
        let b := lookD c.cl.boards c.ctxid.toNat Board.fresh
        if b.w ≤ t.x ∨ b.h ≤ t.y then .fail (.plain (cQueue 1))
        else if b.posted.contains (t.x, t.y) then .fail (.plain (cQueue 2))
        else if 256 ≤ c.cl.queued.length ∨ 128 ≤ (c.cl.queued.filter fun q => vfOf q.ctx == c.vf).length then
          .park c.s .tileQueue
        else
          let cl := s.cluster c.clusterNo
          let cl := { cl with boards := ins cl.boards c.ctxid.toNat { b with posted := b.posted ++ [(t.x, t.y)] },
                              tileQueue := cl.tileQueue ++ [t] }
          let s := (s.setCluster c.clusterNo cl.promote).markSubmitted c.id.conv
          .ok { Eff.of (s.setWave c.id ((s.wave? c.id).getD c.w).noSpin) with hits := hits }

/-- TSTEN: it waits until no task of the context is queued or running on the cluster. -/
def execTsten (k : Ctl) (w h mask : Desc) (s : State) : Host.Outcome State Fault Refusal :=
  instr s (.wide k [src w, src h, src mask]) noOwn fun c act =>
    let t := leader act
    let x := (c.read32 t w).toNat
    let y := (c.read32 t h).toNat
    let m := c.read32 t mask
    if x = 0 ∨ 1024 < x ∨ y = 0 ∨ 1024 < y then .fail (.plain (cOperand 8))
    else if 2 ^ 24 ≤ m.toNat ∨ !stencilGood (m.extractLsb' 0 24) then .fail (.plain (cOperand 11))
    else if (c.cl.queued ++ c.cl.engines.filterMap Engine.tile).any fun q => q.ctx == c.ctxid then .stall c.s
    else
      let cl := c.cl
      let b : Board := { w := x, h := y, mask := m.extractLsb' 0 24, posted := [], retired := [] }
      .ok (.of (c.s.setCluster c.clusterNo { cl with boards := ins cl.boards c.ctxid.toNat b }))

/-! ### AOWN (14 R274) -/

/-- The checks of AOWN: privilege before reservation. -/
def Ctx.aownOwn (c : Ctx) (e : BitVec 2) : Option (BitVec 10) := if !c.hnd then some (cProtect 4) else c.needEngine e.toNat

/-- AOWN.RD. -/
def execAownRd (k : Ctl) (e : BitVec 2) (d : Desc) (w : BitVec 9) (s : State) : Host.Outcome State Fault Refusal :=
  instr s (.wide k [dst d]) (fun c => firstOf (needK d) (c.aownOwn e)) fun c act =>
    .ok (.of (c.dest d true [(leader act, ((c.engine e.toNat).ownerOf w.toNat).zeroExtend 64)] c.s))

/-- AOWN.WR. -/
def execAownWr (k : Ctl) (e : BitVec 2) (w : BitVec 9) (a : Desc) (s : State) : Host.Outcome State Fault Refusal :=
  instr s (.wide k [src a]) (fun c => c.aownOwn e) fun c act =>
    let x := c.engine e.toNat
    let o : BitVec 16 := (c.read32 (leader act) a).extractLsb' 0 16
    .ok (.of (c.s.setEngine c.clusterNo e.toNat { x with owner := put 0 x.owner w.toNat o }))

end Sys2Proof.Machine
end

