-- ==== Sys2Proof/Machine/Cpy.lean ====
section
/-!
DEFINITION. Sys2Proof/Machine/Cpy.lean: the meanings of the CPY instructions: copies, tasks, signals, launches, messages, rings
and collectives (14 R277 to R286).
-/
namespace Sys2Proof.Machine

open Sys2Proof

/-! ### COPY and CPY2 (14 R278 to R280) -/

/-- Source bytes of n destination bytes (14 R279). -/
def srcLen (cv : CpConv) (n : Nat) : Nat :=
  match cv with
  | .none => n
  | .bf16 => 2 * n
  | .int8 | .e4m3 | .e5m2 | .e4m3h16 | .e4m3h32 => 4 * n

/-- The check of one side of a copy in a crew: bounds, then STASH aliasing, of `rows` rows of `n` bytes (03 R47). -/
def copyBound (cw : Crew) (cv : Convoy) (sp : CpSpace) (base n rows stride : Nat) : Option (BitVec 10 × Nat) :=
  let top := base + (rows - 1) * stride + n
  match sp with
  | .sc =>
    if cw.scratchBytes < top then some (cScratch 0, base)
    else if (List.range rows).any fun r =>
        cw.binds.any fun p => base + r * stride < p.2.s + p.2.n && p.2.s < base + r * stride + n then some (cScratch 2, base)
    else none
  | .cv => if cv.cmemBytes < top then some (cProtect 2, base) else none
  | .dv | .pr | .hs => none

/-- A crew of the convoy. -/
def Ctx.crewAt (c : Ctx) (i : Nat) : Crew := (c.s.crew? (8 * c.id.conv + i)).getD c.cw

/-- A copy enters the copy engine: issue follows the performance of every earlier store (04 R82). -/
def Ctx.issueCopy (c : Ctx) (op : CopyOp) : Verdict :=
  if c.w.cCpy = 63 || !c.w.sq.isEmpty then .stall c.s
  else
    let w := (c.w.raise .cpy).noSpin
    .ok (.of (c.put { w with copies := w.copies ++ [op] }))

/-- The first check of a COPY that fails (14 R278, R280). -/
def Ctx.copyFault (c : Ctx) (dst src n : Nat) (mask : Option Nat) (dsp ssp : CpSpace) (cv : CpConv) :
    Option (BitVec 10 × Nat) :=
  if n % 64 ≠ 0 ∨ n < 64 ∨ 2 ^ 20 < n then some (cOperand 8, 0)
  else if dst % 64 ≠ 0 then some (cAlign 0, dst)
  else if src % 64 ≠ 0 then some (cAlign 0, src)
  else if mask.elim false fun m => dsp != .sc || m = 0 || 2 ^ c.cv.crews ≤ m then some (cOperand 13, 0)
  else
    let crews := match mask with
      | some m => (List.range 8).filter fun i => m.testBit i
      | none => [c.id.crew]
    match crews.findSome? fun i => copyBound (c.crewAt i) c.cv dsp dst n 1 0 with
    | some x => some x
    | none => copyBound c.cw c.cv ssp src (srcLen cv n) 1 0

/-- COPY: a literal length, and the space of a multicast, are checked without a leader too (14 R263). -/
def execCopy (k : Ctl) (dst_ src_ : Desc) (n : SrcB) (mask : Desc) (dsp ssp : CpSpace) (cv : CpConv) (mc : Bool) (s : State) :
    Host.Outcome State Fault Refusal :=
  instr s { Meta.wide k ([src dst_ 2, src src_ 2] ++ srcB n ++ if mc then [src mask] else []) with always := true } noOwn
    fun c act =>
      let x := (c.readB32 (leader act) n).toNat
      if act = 0 then
        if isLit n && (x % 64 != 0 || x < 64 || 2 ^ 20 < x) then .fail (.plain (cOperand 8))
        else if mc && dsp != .sc then .fail (.plain (cOperand 13))
        else .ok (.of c.s)
      else
        let d := (c.addr act dst_).toNat
        let b := (c.addr act src_).toNat
        let m := if mc then some (c.read32 (leader act) mask).toNat else none
        match c.copyFault d b x m dsp ssp cv with
        | some f => .fail (.lead act f.1 f.2)
        | none =>
          let crews := match m with
            | some m => (List.range 8).filter fun i => m.testBit i
            | none => [c.id.crew]
          c.issueCopy { dsp := dsp, ssp := ssp, dst := d, src := b, rowBytes := x, dstStride := 0, srcStride := 0, cv := cv,
                        multicast := mc, hnd := c.hnd,
                        left := crews.flatMap fun i => (List.range (x / 64)).map fun j => (0, j, i) }

/-- An even k register of a pair (14 R277). -/
def Ctx.needPair (c : Ctx) (d : Desc) : Option (BitVec 10) :=
  match d with
  | .k n => if n.toNat % 2 ≠ 0 then some (cOperand 1)
      else if (if c.hnd then max c.w.kregs 16 else c.w.kregs) ≤ n.toNat + 1 then some (cOperand 0) else none
  | _ => some (cOperand 5)

/-- A k register that is a multiple of 4, with the three after it (14 R277). -/
def Ctx.needQuad (c : Ctx) (d : Desc) : Option (BitVec 10) :=
  match d with
  | .k n => if n.toNat % 4 ≠ 0 then some (cOperand 5)
      else if (if c.hnd then max c.w.kregs 16 else c.w.kregs) ≤ n.toNat + 3 then some (cOperand 0) else none
  | _ => some (cOperand 5)

/-- Registers of a k group. -/
def Ctx.kGroup (c : Ctx) (d : Desc) (n : Nat) : List DWord :=
  match d with
  | .k r => (List.range n).map fun j => c.w.getK (r.toNat + j)
  | _ => []

/-- CPY2: rows of rowBytes, with a stride on each side. -/
def execCpy2 (k : Ctl) (dst_ src_ kg : Desc) (dsp ssp : CpSpace) (s : State) : Host.Outcome State Fault Refusal :=
  instr s (.wide k [src dst_ 2, src src_ 2, src kg]) (fun c => c.needPair kg) fun c act =>
    let d := (c.addr act dst_).toNat
    let b := (c.addr act src_).toNat
    let g := c.kGroup kg 2
    let lo (i : Nat) : Nat := ((g[i]?.getD 0).extractLsb' 0 32).toNat
    let hi (i : Nat) : Nat := ((g[i]?.getD 0).extractLsb' 32 32).toNat
    let row := lo 0
    let rows := hi 0
    let ds := lo 1
    let ss := hi 1
    if row % 64 ≠ 0 ∨ ds % 64 ≠ 0 ∨ ss % 64 ≠ 0 ∨ row < 64 ∨ rows = 0 ∨ 65536 < rows ∨ 2 ^ 20 < row * rows ∨ ds < row then
      .fail (.plain (cOperand 8))
    else if d % 64 ≠ 0 then .fail (.lead act (cAlign 0) d)
    else if b % 64 ≠ 0 then .fail (.lead act (cAlign 0) b)
    else
      match (match copyBound c.cw c.cv dsp d row rows ds with
        | some f => some f
        | none => copyBound c.cw c.cv ssp b row rows ss) with
      | some f => .fail (.lead act f.1 f.2)
      | none =>
        c.issueCopy { dsp := dsp, ssp := ssp, dst := d, src := b, rowBytes := row, dstStride := ds, srcStride := ss, cv := .none,
                      multicast := false, hnd := c.hnd,
                      left := (List.range rows).flatMap fun r => (List.range (row / 64)).map fun j => (r, j, c.id.crew) }

/-! ### TASK (14 R281, 18 R316) -/

/-- The live task grid of a function whose descriptor lies at an address. -/
def State.taskGrid (s : State) (vf tdesc : Nat) : Option Nat :=
  (s.grids.find? fun p => p.2.taskgrid && p.2.vf == vf && p.2.tdesc == tdesc && p.2.outst != 0).map Prod.fst

/-- A write performed at one die and applied at another at once. -/
def State.writeFrom (s : State) (h d : Nat) (w : LineWrite) (who : Writer) : State :=
  let s := s.devWrite h w who
  if d = h then s else s.applyNow w d

/-- One task accepted by its grid: its slot is written, OUTST rises (18 R316). None while a write has to wait. A slot that the
function's translations no longer reach is not written (DEDUCED, log 35). -/
def State.acceptTask (s : State) (core gid : Nat) (entry : DWord) (arg : List Byte) : Option State :=
  match s.grid? gid with
  | none => some s
  | some g =>
    let d := dieOfCore core
    let slot := (s.saveAddr g.vf d (g.qbase + 64 * (g.sent % g.qsize)) true).toOption
    let ready (pa : Nat) : Bool := s.canWrite (homeDie pa) (lineOf pa)
    if !(slot.elim true fun x => s.touchable x.1 true && ready x.2) || !ready g.tpa then none
    else
      let image := leBytes 8 entry.toNat ++ List.replicate 24 0 ++ arg
      let s := match slot with
        | some x => ((s.touch x.1 true).cache g.vf (g.qbase + 64 * (g.sent % g.qsize)) x.1).devWrite (homeDie x.2)
            (lineWrite x.2 image none) (.wave core)
        | none => s
      let s := s.devWrite (homeDie g.tpa) (lineWrite (g.tpa + 16) (leBytes 8 (g.outst + 1)) none) (.wave core)
      some (s.setGrid gid { g with tasks := g.tasks ++ [{ entry := entry, arg := arg, aged := false }], outst := g.outst + 1,
                                   sent := g.sent + 1 })

/-- The tasks of a TASK accepted one at a time: the state, how many were accepted, and whether the queue lacks room. -/
def State.acceptTasks (core gid : Nat) : State → List (DWord × List Byte) → State × Nat × Bool
  | s, [] => (s, 0, false)
  | s, (entry, arg) :: r =>
    if (s.grid? gid).elim false fun g => g.qsize ≤ g.tasks.length then (s, 0, true)
    else
      match s.acceptTask core gid entry arg with
      | none => (s, 0, false)
      | some s =>
        let (s, n, full) := State.acceptTasks core gid s r
        (s, n + 1, full)

/-- Tasks of the instruction already accepted; a handler's TASK has one at most. -/
def Ctx.taken (c : Ctx) : Nat := if c.hnd then 0 else c.w.accepted

/-- TASK: each acting thread submits one task, in ascending order. -/
def execTask (k : Ctl) (entry arg kh : Desc) (s : State) : Host.Outcome State Fault Refusal :=
  instrEach s { Meta.plain k [src entry 2, src arg 2, src kh] with last := true, closer := true }
    (fun c => match needK kh with
      | some x => some x
      | none =>
        if c.acting k ≠ 0 ∧ (c.s.taskGrid c.vf ((c.kGroup kh 1).headD 0).toNat).isNone then some (cQueue 4) else none)
    (fun c act t =>
      if ((lanesOf act).take c.taken).contains t then none
      else
        let e := (c.read64 t entry false).toNat
        let a := (c.read64 t arg false).toNat
        if e % 8 ≠ 0 then some (cAlign 1, e)
        else
          match c.locate .device .load 32 a with
          | .error x => some (x, faddrOf a)
          | .ok p => match if c.w.covered p 32 then none else c.badAt p 32 with
            | some x => some (x, faddrOf a)
            | none => none)
    fun c act =>
      match c.s.taskGrid c.vf ((c.kGroup kh 1).headD 0).toNat with
      | none => .ok (.of c.s)
      | some gid =>
        let ts := (lanesOf act).drop c.taken
        if !c.hnd && !c.quiet then .stall c.s
        else
          match c.loadChunks ts (ts.map fun t => ((c.read64 t arg false).toNat, 32)) with
          | .error v => v
          | .ok (s, args, hits) =>
            let tasks := (ts.map fun t => c.read64 t entry false).zip args
            let (s, n, full) := State.acceptTasks c.w.core gid s tasks
            let w := ((s.wave? c.id).getD c.w).noSpin
            let s := s.setWave c.id { w with accepted := c.taken + n }
            let s := if n = 0 then s else s.markSubmitted c.id.conv
            if n = tasks.length then .ok { Eff.of (s.markSubmitted c.id.conv) with hits := hits }
            else if full then .park s (.taskQueue ((c.kGroup kh 1).headD 0).toNat)
            else .stall s

/-! ### SGNL (14 R282) -/

/-- The fence scope of a SGNL. -/
def SgScope.fence : SgScope → Scope
  | .die => .die | .pkg => .pkg | .sys => .sys

/-- SGNL. -/
def execSgnl (k : Ctl) (addr b : Desc) (set : Bool) (scope : SgScope) (s : State) : Host.Outcome State Fault Refusal :=
  instr s { Meta.wide k [src addr 2, src b 2] with last := true, closer := true } noOwn fun c act =>
    let a := (c.addr act addr).toNat
    match c.locate .device .atomic 8 a with
    | .error e => .fail (.lead act e a)
    | .ok p =>
      let line := lineOf p.adr
      let pkg := scope != .die
      if !c.w.sq.isEmpty || !c.quiet || !c.fenceReady (SgScope.fence scope) then .stall c.s
      else c.atLine a p pkg fun _ => match c.badAt p 8 with
      | some x => .fail (.lead act x a)
      | none =>
        let s := ((c.fenceDone (SgScope.fence scope)).touches c.vf [(a, p)] true).checkedLine line a c.vf p.set 0
        let old := s.devVal (homeDie p.adr) p.adr 8
        let x := c.addr act b
        let s := s.atomWrite c.die c.w.core p.adr 8 (if set then x.toNat else (old + x.toNat) % 2 ^ 64) pkg
        let s := if scope = .sys then s.writeBack line else s
        let s := (s.setWave c.id ((s.wave? c.id).getD c.w).noSpin).markSubmitted c.id.conv
        .ok { Eff.of s with hits := c.watchHits .device true true 8 [(leader act, a)] }

/-! ### GRID (14 R283, 18 R308, R309) -/

/-- A queue is disabled by an error (18 R309): EN is cleared, in the descriptor too as soon as it can be written (a descriptor that no
translation reaches keeps it: DEDUCED, log 34), and the completion records of its accepted grids are dropped. -/
def State.disableQueue (s : State) (vf q : Nat) : State :=
  let s := match s.saveAddr vf 0 ((s.fn vf).qtb.toNat + 64 * q) true with
    | .ok (_, pa) => { s with posts := s.posts ++ [Post.clearEn pa] }
    | .error _ => s
  let f := s.fn vf
  let x := lookD f.queues q Queue.reset
  let s := s.setFn vf { f with queues := ins f.queues q { x with en := false }, qerr := f.qerr ||| (1#64 <<< q) }
  { s with grids := s.grids.map fun p => if p.2.vf = vf ∧ p.2.q = q then (p.1, { p.2 with noRecord := true }) else p }

/-- A queue descriptor's place, at handler level; none where it cannot be read (18 R309). -/
def State.queueDesc (s : State) (vf d q : Nat) : Option Nat :=
  ((s.saveAddr vf d ((s.fn vf).qtb.toNat + 64 * q) false).toOption).map Prod.snd

/-- GRID appends its record to the queue, as one atomic on the descriptor; in recovery mode it is ignored (23 R387). The answer waits, is
turned away, with the queue disabled where the device cannot read it (18 R309), parks while the queue is full, or has the record in its
place. EN is the descriptor's own (18 R308). -/
def Ctx.gridAppend (c : Ctx) (s : State) (q : Nat) (rec_ : List Byte) : Verdict :=
  let x := lookD (s.fn c.vf).queues q Queue.reset
  let bad : Flt := .plain (cQueue 5)
  if s.fw.rcv then .ok (.of s)
  else if 64 ≤ q ∨ !x.en ∨ !x.dev then .fail bad
  else
    match s.queueDesc c.vf c.die q with
    | none => .failAt (s.disableQueue c.vf q) bad
    | some pa =>
      let h := homeDie pa
      let hd := s.devVal h pa 8
      let tl := s.devVal h (pa + 8) 8
      if (s.lineDir (lineOf pa)).owner.isSome then
        (if s.canRecall (lineOf pa) then .over (c.s.giveBack (lineOf pa)) else .stall c.s)
      else if !s.atomReady c.die (lineOf pa) false then .stall c.s
      else if (s.lineErr (lineOf pa)).isSome then .failAt (s.disableQueue c.vf q) bad
      else if s.devVal h (pa + 0x1D) 1 % 2 = 0 then .fail bad
      else if x.size ≤ (tl + 2 ^ 64 - hd) % 2 ^ 64 then .park c.s (.launchQueue q)
      else
        let va := x.base + 128 * (tl % x.size)
        match s.saveAddr c.vf c.die va true with
        | .error _ => .failAt (s.disableQueue c.vf q) bad
        | .ok (xl, slot) =>
          if !s.touchable xl true then .stall s
          else if s.untouched xl true then .over ((c.s.touch xl true).cache c.vf va xl)
          else if !([slot, slot + 64].all fun l => s.canWrite h l && s.abreast h l c.die) then .stall s
          else
            let s := s.cache c.vf va xl
            let s := (linesOf slot none 2 rec_).foldl (fun s w => s.writeFrom h c.die w (.wave c.w.core)) s
            let s := s.atomWrite c.die c.w.core (pa + 8) 8 (tl + 1) false
            let f := s.fn c.vf
            let s := s.setFn c.vf { f with queues := ins f.queues q { x with hd := hd, tail := (tl + 1) % 2 ^ 64 } }
            let s := (s.setWave c.id ((s.wave? c.id).getD c.w).noSpin).markSubmitted c.id.conv
            .ok (.of s)

/-- GRID: a literal queue number is checked without a leader too (14 R263). Where its load sets ACC (21 R362), that write is a step that
comes before. -/
def execGrid (k : Ctl) (rec_ : Desc) (q : SrcB) (s : State) : Host.Outcome State Fault Refusal :=
  instr s { Meta.wide k (src rec_ 2 :: srcB q) with last := true, closer := true, always := true } noOwn fun c act =>
    let a := (c.addr act rec_).toNat
    let n := (c.readB32 (leader act) q).toNat
    if (act ≠ 0 ∨ isLit q) ∧ 64 ≤ n then .fail (.plain (cQueue 5))
    else if act = 0 then .ok (.of c.s)
    else match c.loadChunks [leader act, leader act] [(a, 64), (a + 64, 64)] with
    | .error v => v
    | .ok (s, b, hits) =>
      if !c.hnd && !c.quiet then .stall c.s
      else if s.pkg.length ≠ c.s.pkg.length then .over s
      else match c.gridAppend s n b.flatten with
        | .ok e => .ok { e with hits := hits }
        | v => v

/-! ### CMSG and CBUF (14 R284, R285) -/

/-- CMSG: its message is sent on when its home slice accepts it. -/
def execCmsg (k : Ctl) (addr kw : Desc) (s : State) : Host.Outcome State Fault Refusal :=
  instr s { Meta.wide k [src addr 2, src kw] with last := true, closer := true } (fun c => c.needQuad kw) fun c act =>
    let a := (c.addr act addr).toNat
    match c.locate .device .store 1 a with
    | .error e => .fail (.lead act e a)
    | .ok p =>
      if c.w.cMsg = 63 || !c.w.sq.isEmpty || !c.touchables [(a, p)] false then .stall c.s
      else
        let s := c.s.touches c.vf [(a, p)] false
        let w := (((s.wave? c.id).getD c.w).raise .msg).noSpin
        let m : MsgOp := { pa := lineOf p.adr, va := lineOf a, set := p.set, words := c.kGroup kw 4, hnd := c.hnd, done := false }
        .ok (.of ((s.setWave c.id { w with msgs := w.msgs ++ [m] }).markSubmitted c.id.conv))

/-- CBUF's atomic on the ring: record and TAIL are written at the header's home die. -/
def Ctx.pushRing (c : Ctx) (k : Ctl) (act : Lanes) (pd : BitVec 3) (nb : Bool) (hdr : Nat) (p : Place) (r : List Byte) :
    Verdict :=
  let line := p.adr
  let h := homeDie line
  if !c.w.sq.isEmpty then .stall c.s
  else c.atLine hdr p false fun _ =>
    match c.badAt p 64, c.s.ringHdr h line with
    | some x, _ => .fail (.lead act x hdr)
    | none, none => .fail (.plain (cQueue 3))
    | none, some x =>
      if x.size ≤ x.count then
        if nb then .ok (.of ((c.writePred c.s k pd false).markSubmitted c.id.conv)) else .park c.s (.line line)
      else
        let va := x.base + 32 * (x.tail % x.size)
        match c.locate .device .atomic 32 va with
        | .error e => .fail (.lead act e va)
        | .ok q =>
          if !c.touchables [(va, q)] true then .stall c.s
          else if c.s.untouched' q then .over (c.s.touches c.vf [(va, q)] true)
          else if c.s.memLost q.adr then .fail (.lead act (cMemerr 0 2) va)
          else if !c.s.canWrite h (lineOf q.adr) || !c.s.abreast h (lineOf q.adr) c.die then .stall c.s
          else
            let s := (c.s.touches c.vf [(hdr, p)] true).touches c.vf [(va, q)] true
            let s := s.writeFrom h c.die (lineWrite q.adr r none) (.wave c.w.core)
            let s := s.atomWrite c.die c.w.core (line + 8) 8 (x.tail + 1) false
            let s := (s.setWave c.id ((s.wave? c.id).getD c.w).noSpin).markSubmitted c.id.conv
            let hits := c.watchHits .device false true 8 [(leader act, hdr + 8)] ++
              c.watchHits .device false true 32 [(leader act, va)]
            .ok { Eff.of (c.writePred s k pd true) with hits := hits }

/-- CBUF. -/
def execCbuf (k : Ctl) (pd : BitVec 3) (hdr kw : Desc) (nb : Bool) (s : State) : Host.Outcome State Fault Refusal :=
  instr s (predMeta (.wide k [src hdr 2, src kw]) pd) (fun c => c.needQuad kw) fun c act =>
    let a := (c.addr act hdr).toNat
    let r := (c.kGroup kw 4).flatMap fun x => leBytes 8 x.toNat
    if a % 64 ≠ 0 then .fail (.lead act (cAlign 0) a)
    else if r.take 4 = List.replicate 4 0xFF then .fail (.plain (cOperand 14))
    else
      match c.locate .device .atomic 64 a with
      | .error e => .fail (.lead act e a)
      | .ok p => c.pushRing k act pd nb a p r

/-! ### COLL (14 R286, 22 R380, R381) -/

/-- Whether a set group register of a function names a table. -/
def Fn.groupAt (f : Fn) (table : Nat) : Bool :=
  f.group.any fun p => p.2.getLsbD 0 && (p.2 &&& 0x1FFFFFFFFFFFFC0#64).toNat == table

/-- A field of a group table, read at handler level. -/
def State.tableVal (s : State) (vf d table off n : Nat) : Option Nat :=
  match s.saveRead vf d (table + off) n with
  | .ok b => some (leVal b)
  | .error _ => none

/-- Whether rank r of a table is a live member (22 Table 22-4). -/
def State.rankLive (s : State) (vf d table r : Nat) : Bool :=
  match s.tableVal vf d table 4 2, s.tableVal vf d table (64 + 8 * r) 8 with
  | some n, some m => r < n && m.testBit 15
  | _, _ => false

/-- COLL: SEQ is taken and advanced at commit; issue follows the performance of every earlier store (04 R82). -/
def execColl (k : Ctl) (dst_ src_ n kg : Desc) (op : CollOp) (ty : CollTy) (root : BitVec 8) (s : State) :
    Host.Outcome State Fault Refusal :=
  instr s { Meta.wide k [src dst_ 2, src src_ 2, src n, src kg] with last := true, closer := true } (fun _ => needK kg)
    fun c act =>
      let d := (c.addr act dst_).toNat
      let b := (c.addr act src_).toNat
      let m := (c.read32 (leader act) n).toNat
      let table := ((c.kGroup kg 1).headD 0).toNat
      let f := c.s.fn c.vf
      let bad : Verdict := .fail (.plain (cQueue 6))
      if m % 64 ≠ 0 ∨ m < 64 ∨ 2 ^ 30 < m then .fail (.plain (cOperand 8))
      else if d % 64 ≠ 0 then .fail (.lead act (cAlign 0) d)
      else if b % 64 ≠ 0 then .fail (.lead act (cAlign 0) b)
      else if !f.groupAt table then bad
      else if op = .bcast ∧ !c.s.rankLive c.vf c.die table root.toNat then bad
      else
        match c.s.saveAddr c.vf c.die table true, c.s.tableVal c.vf c.die table 0 4, c.s.tableVal c.vf c.die table 8 8 with
        | .ok (x, pa), some gid, some seq =>
          if c.w.cDom = 63 || !c.w.sq.isEmpty then .stall c.s
          else c.atLine table (.device pa x) false fun _ => match c.s.lineErr pa with
          | some e => .fail (.lead act e table)
          | none =>
            let s := (c.s.touch x true).cache c.vf table x
            let s := s.atomWrite c.die c.w.core (pa + 8) 8 (seq + 1) false
            let w := (((s.wave? c.id).getD c.w).raise .dom).noSpin
            let o : CollOp' := { table := table, gid := gid, seq := seq, dst := d, src := b, n := m, op := op, ty := ty,
                                 root := root.toNat }
            .ok (.of ((s.setWave c.id { w with doms := w.doms ++ [.coll o c.hnd] }).markSubmitted c.id.conv))
        | _, _, _ => bad

end Sys2Proof.Machine
end

