-- ==== Sys2Proof/Machine/Drain.lean ====
section
/-!
DEFINITION. Sys2Proof/Machine/Drain.lean: the device's steps on the store queue, the fills of stashes, assay caches and main L1s,
and the accesses to other devices and the host (03 R52 to R60, 04 R64 to R76, 13 R256 to R259, 22 R372, R378, R379). A step that
cannot happen in a state leaves the state as it is (DESIGN CHOICE, log 1).
-/
namespace Sys2Proof.Machine

open Sys2Proof

/-- What an event answers: its new state, or the old one where it cannot happen. -/
def happens (s : State) (r : Option State) : Host.Outcome State Fault Refusal := .next (r.getD s)

/-! ### Outstanding work of a convoy (20 R348) -/

/-- Gravel operations of a wave. -/
def State.gravelOps (s : State) (cl key : Nat) : List GOp := (s.cluster cl).gravel.ops.filter fun o => o.wave == key

/-- A wave's copies, stores, messages, Gravel operations and PEER and HOST operations have completed (20 R348, steps 2 to 4); a
COLL may run on. -/
def State.waveQuiet (s : State) (key : Nat) (w : Wave) : Bool :=
  w.copies.isEmpty && w.sq.isEmpty && w.msgs.isEmpty && (s.gravelOps (clusterOfCore w.core) key).isEmpty &&
    w.doms.all fun o => match o with
      | .coll _ _ => true
      | .done => true
      | .store _ => false
      | .atomic _ => false

/-- The same of every wave of a convoy. -/
def State.convoyQuiet (s : State) (k : Nat) : Bool := (s.wavesOf k).all fun p => s.waveQuiet p.1 p.2

/-- The step of 20 R348 that a convoy which has stopped for a save or a flush is at: 2 copies, 3 stores and stash lines, 4 other
operations, 5 engines and the rest. -/
def State.savePhase (s : State) (k : Nat) : Nat :=
  let l := s.wavesOf k
  if l.any fun p => !p.2.copies.isEmpty then 2
  else if (l.any fun p => !p.2.sq.isEmpty) || s.crews.any fun p => p.1 / 8 == k && p.2.binds.any fun b => !b.2.present.isEmpty then 3
  else if !s.convoyQuiet k then 4
  else 5

/-- Whether a convoy's stopping holds work of a step of 20 R348 back: no step begins until the one before has finished. -/
def State.holdsBack (s : State) (k step : Nat) : Bool :=
  (s.convoy? k).elim false fun cv => (cv.st == .saving || cv.st == .flushing) && cv.teardown.isNone && s.savePhase k < step

/-! ### The store queue (04 R64, 13 R245) -/

/-- The head entry of a wave's store queue is taken off. -/
def State.popStore (s : State) (id : WaveId) : State :=
  match s.wave? id with
  | some w => (s.setWave id { w with sq := w.sq.drop 1 }).unstall
  | none => s

/-- The lines of an entry, each with its virtual address and handler set. -/
def SqEntry.pairs (e : SqEntry) : List (LineWrite × Nat × Nat) := e.lines.zip e.info

/-- A DEVICE store is performed in its die's order: its lines take consecutive places. Memory that failed training faults late
(23 R390). -/
def State.drainDevice (s : State) (id : WaveId) (w : Wave) (e : SqEntry) : Option State :=
  let d := dieOfCore w.core
  if !e.lines.all fun l => s.canWrite d l.line then none
  else
    let s := e.pairs.foldl (fun s p =>
      if s.memLost p.1.line then
        s.reportLate (waveKey id) e.hnd { cause := cMemerr 0 2, faddr := BitVec.ofNat 57 p.2.1 }
      else (s.checkedLine p.1.line p.2.1 e.fn p.2.2 0).devWrite d p.1 (.wave w.core)) s
    match s.wave? id with
    | some w =>
      let new := (e.lines.map LineWrite.line).filter fun l => !w.wrote.contains l
      some ((s.setWave id { w with wrote := w.wrote ++ new }).popStore id)
    | none => some s

/-- A STASH store: absent lines are filled first (03 R52). -/
def State.drainStash (s : State) (id : WaveId) (w : Wave) (e : SqEntry) : Option State :=
  let key := crewKeyOf id
  match s.crew? key with
  | none => none
  | some c =>
    let missing := (e.lines.map LineWrite.line).filter fun l => (c.stashAt l).isNone
    if missing.isEmpty then some ((e.lines.foldl (fun s l => s.writeStash key l) s).popStore id)
    else if missing.all fun l => c.binds.any fun (_, b) => (bindOff b l).elim false fun o => b.filling.contains o then none
    else
      let ask (s : State) (l : Nat) : Option State :=
        c.binds.findSome? fun (n, b) => (bindOff b l).bind fun o =>
          if b.filling.contains o then none else s.askStash w.core key (some w.slot) n (lineOf o) l
      match missing.foldl (fun (r : State × Bool) l => match ask r.1 l with
        | some s => (s, true)
        | none => r) (s, false) with
      | (s, true) => some s
      | (_, false) => none

/-- A push's data are performed: the entries that the ring still holds become ready (05 R98, R99). A push whose ring is no longer the
engine's writes nothing (DESIGN CHOICE, log 90). -/
def State.drainPush (s : State) (id : WaveId) (w : Wave) (e : SqEntry) (eng ring first count : Nat) : State :=
  let cl := clusterOfCore w.core
  let x := s.engine cl eng
  match x.ring.filter fun r => r.no == ring with
  | none => s.popStore id
  | some r =>
    let live := (List.range count).filter fun i => r.head ≤ first + i
    let s := (live.flatMap fun i => (e.lines.drop (2 * i)).take 2).foldl (fun s l => s.writeScratch (crewKeyOf id) l) s
    (s.setEngine cl eng { s.engine cl eng with ring := some { r with ready := r.ready ++ live.map (first + ·) } }).popStore id

/-- One line of a DISC (04 R87): the line's dirty value stays or device memory's comes back, as a free value decides. -/
def State.discLine (s : State) (d core : Nat) (line : Nat) : State :=
  let now : List Byte × Tag := (s.devRead d line 64, s.devTag d line)
  let old : List Byte × Tag := (s.hbm.read line 64, s.hbm.tag line)
  let back := s.free % 2 = 1
  let v := if back then old else now
  let s := (s.dropStash line).draw
  let s := s.devWrite d (lineWrite line v.1 (some v.2)) (.wave core)
  if back then s.setLineDir line { s.lineDir line with dirty := false } else s

/-- A DISC. -/
def State.drainDisc (s : State) (id : WaveId) (w : Wave) (e : SqEntry) : Option State :=
  let d := dieOfCore w.core
  if !e.lines.all fun l => s.canWrite d l.line then none
  else
    some ((e.pairs.foldl (fun s p =>
      (s.checkedLine p.1.line p.2.1 e.fn p.2.2 0).discLine d w.core p.1.line) s).popStore id)

/-- The physical lines of a crew's bindings in a range of virtual addresses. -/
def Crew.boundLines (c : Crew) (a n : Nat) : List Nat :=
  c.binds.flatMap fun (_, b) =>
    ((List.range (b.n / 64)).filter fun i => a ≤ b.g + 64 * i && b.g + 64 * i < a + n).map fun i => b.line (64 * i)

/-- An SWB: lines go back, and it is performed when their homes have applied them (13 R256). -/
def State.drainSwb (s : State) (id : WaveId) (w : Wave) (a n : Nat) : Option State :=
  match s.crew? (crewKeyOf id) with
  | none => none
  | some c =>
    let lines := c.boundLines a n
    let here := lines.filter fun l => (c.stashAt l).isSome
    if !here.all fun l => s.canWrite (dieOfCore w.core) l then none
    else if here.isEmpty && s.awayFromHome lines then none
    else
      let s := here.foldl (fun s l => s.giveBack l) s
      let s := match s.wave? id with
        | some w => s.setWave id { w with wrote := w.wrote ++ (here.filter fun l => !w.wrote.contains l) }
        | none => s
      some (if s.awayFromHome lines then s else s.popStore id)

/-- The physical lines of a CCTL's range, page by page. -/
def cctlLines (a n : Nat) (pages : List (Nat × Nat)) : List Nat :=
  pages.flatMap fun (v, pa) =>
    let stop := min (a + n) (v / 4096 * 4096 + 4096)
    (List.range ((stop - v) / 64)).map fun i => lineOf pa + 64 * i

/-- A CCTL (13 R259). -/
def State.drainCctl (s : State) (id : WaveId) (w : Wave) (op : CcOp) (a n : Nat) (pages : List (Nat × Nat)) : Option State :=
  let lines := cctlLines a n pages
  if op != .l1inv && s.awayFromHome lines then none
  else
    let s := match op with
      | .wb => lines.foldl (fun (s : State) l => if (s.lineDir l).dirty then s.writeBack l else s) s
      | .wbi => lines.foldl (fun (s : State) l => if (s.lineDir l).present || (s.lineDir l).dirty then s.evictNow l else s) s
      | .l1inv => s.setCore w.core { s.core w.core with l1 := (s.core w.core).l1.filter fun y => !lines.contains y.line }
    some (s.popStore id)

/-- STORE_DRAIN: the oldest entry of a wave's store queue is performed; a PEER or HOST store leaves for its target. -/
def State.drain (s : State) (id : WaveId) : Option State :=
  match s.wave? id with
  | none => none
  | some w =>
    match if s.holdsBack id.conv 3 then [] else w.sq with
    | [] => none
    | e :: r =>
      match e.kind with
      | .push eng ring first count => some (s.drainPush id w e eng ring first count)
      | .disc => s.drainDisc id w e
      | .swb a n => s.drainSwb id w a n
      | .cctl op a n => s.drainCctl id w op a n e.info
      | .store =>
        match e.space with
        | .scratch => some ((e.lines.foldl (fun s l => s.writeScratch (crewKeyOf id) l) s).popStore id)
        | .convoy => some ((e.lines.foldl (fun s l => s.writeCmem id.conv l) s).popStore id)
        | .stash => s.drainStash id w e
        | .device => s.drainDevice id w e
        | .peer => some ((s.setWave id { w with sq := r, doms := w.doms ++ [.store e] }).unstall.sendMsgs id)
        | .host => some ((s.setWave id { w with sq := r, doms := w.doms ++ [.store e] }).unstall.leaveHost (dieOfCore w.core) (waveKey id))

/-- STORE_DRAIN. -/
def execStoreDrain (wv : WaveId) (s : State) : Host.Outcome State Fault Refusal := happens s (s.drain wv)

/-! ### Fills (03 R52, R58, R59, R60; 04 R85, R86) -/

/-- The binding of a crew and the offset in its range at which a physical line is being filled. -/
def Crew.fillingAt (c : Crew) (line : Nat) : Option (Nat × Bind × Nat) :=
  c.binds.findSome? fun (n, b) =>
    match bindOff b line with
    | some o => if b.filling.contains o then some (n, b, o) else none
    | none => none

/-- STASH_FILL_ARRIVAL: the line's data and tag at its home slice reach the scratchpad, and the crew owns the line. A line that
another crew owns is given up first. -/
def State.stashFillHere (s : State) (key line : Nat) : Option State :=
  match s.crew? key with
  | none => none
  | some c =>
    match c.fillingAt line with
    | none => none
    | some (n, b, o) =>
      let l := s.lineDir line
      if l.pinned || s.memHeld line || s.pkg.any fun p => p.write.line == line then none
      else if l.owner.isSome then (if s.canRecall line then some (s.giveBack line) else none)
      else
        let va := b.g + o
        let set := (s.walk (key / 8 |> fun k => ((s.convoy? k).map Convoy.vf).getD 0) (homeDie line) va).elim 0 Xlat.set
        let vf := ((s.convoy? (key / 8)).map Convoy.vf).getD 0
        let s := s.checkedLine line va vf set 4
        let w : LineWrite := { line := b.s + o, bytes := (s.devRead (homeDie line) line 64).mapIdx fun i x => (i, x),
                               tag := some (s.devTag (homeDie line) line) }
        let bind : Bind := { b with present := b.present ++ [o], filling := b.filling.filter (· != o) }
        let bad := clearBad c.bad w ++
          if (s.lineErr line).isSome then (List.range 16).map fun i => b.s + o + 4 * i else []
        let s := (s.told line).setCrew key { c with scratch := c.scratch.apply w, bad := bad, binds := ins c.binds n bind }
        some ((s.setLineDir line { s.lineDir line with owner := some key }).freeMiss c.core line).unstall

/-- STASH_FILL_ARRIVAL. -/
def execStashFillArrival (conv crew line : Nat) (s : State) : Host.Outcome State Fault Refusal :=
  happens s (s.stashFillHere (8 * conv + crew) (lineOf line))

/-- The lines that an assay cache holds (00 R3: 64 KiB). -/
def assayLines : Nat := 1024

/-- ASSAY_FILL_ARRIVAL: the copy is installed unless a write came between (04 R85). A full assay cache lets a line go silently: the one
named, if it holds it, else its oldest (04 R86). A line named for the slice is its victim, if the slice replaces it next (07 R131, R135). -/
def State.assayFillHere (s : State) (core line : Nat) (victim : Option Victim) : Option State :=
  let k := s.core core
  match k.fills.find? fun f => f.1 = line with
  | none => none
  | some (_, bad) =>
    let kept := match victim with
      | some (.assay v) => k.assay.filter (· != lineOf v)
      | _ => k.assay
    let kept := if assayLines ≤ kept.length then kept.drop 1 else kept
    let s := s.setCore core { k with fills := k.fills.filter fun f => f.1 != line,
                                     assay := if bad || kept.contains line then kept else kept ++ [line] }
    let s := match victim with
      | some (.slice v) => if lineOf v != line && s.victimAt (s.homeSlice line) = some (lineOf v) then s.evict (lineOf v) else s
      | _ => s
    some s.unstall

/-- ASSAY_FILL_ARRIVAL. -/
def execAssayFillArrival (core line : Nat) (victim : Option Victim) (s : State) : Host.Outcome State Fault Refusal :=
  happens s (s.assayFillHere core (lineOf line) victim)

/-- LEASE_FILL: the answer to a request of the main core; a pinned line's waits (07 R135). A request that only brought its line into the slice fills nothing; one that no
slot holds is speculative: it takes a shared slot, or is dropped (03 R59, R63; 15 R296). -/
def State.leaseAnswer (s : State) (core line : Nat) : State :=
  if (s.lineDir line).pinned || s.memHeld line then s
  else match (s.core core).miss.find? fun m => m.line == line with
  | some m =>
    if m.kind = .stash then s
    else
      let s := if m.kind = .slice then s else s.leaseFill core line
      s.freeMiss core line
  | none =>
    match s.takeSlot core line none .load with
    | none => s.setCore core { s.core core with pfDrop := upTo (s.core core).pfDrop 1 }
    | some s => ((s.specLine core line 0 0 0).leaseFill core line).freeMiss core line

/-- LEASE_FILL. -/
def execLeaseFill (core line : Nat) (s : State) : Host.Outcome State Fault Refusal :=
  .next (s.leaseAnswer core (lineOf line))

/-- The cores of the package, by number. -/
def allCores : List Nat := List.range 256

/-- A lease step is due: one in every 256 fabric cycles (00 R4, 03 R59). -/
def State.leaseDue (s : State) : Bool := 256 * (s.leases + 1) ≤ s.fab

/-- Every core's TICK rises by one. -/
def State.leaseStep (s : State) : State :=
  let s := allCores.foldl (fun s c => s.rebaseAt (dieOfCore c) ((s.core c).tick.toNat + 1)) { s with leases := s.leases + 1 }
  allCores.foldl (fun s c => s.setCore c { s.core c with tick := (s.core c).tick + 1 }) s

/-- LEASE_STEP. -/
def execLeaseStep (s : State) : Host.Outcome State Fault Refusal := happens s (if s.leaseDue then some s.leaseStep else none)

/-- TICK_REBASE. -/
def execTickRebase (die : Nat) (s : State) : Host.Outcome State Fault Refusal := .next (s.rebase die)

/-- REMOTE_WRITE_APPLY. -/
def execRemoteWriteApply (die idx : Nat) (s : State) : Host.Outcome State Fault Refusal :=
  happens s (if s.canApply idx die then some (s.remoteApply idx die).unstall else none)

/-! ### Answers of other devices and of the host (04 R72 to R76, 22 R372, R377 to R379) -/

/-- Completions at the head of a wave's DOM operations are reported, in issue order (04 R83). -/
def Wave.reportDoms (w : Wave) : Wave :=
  let n := (w.doms.takeWhile (· == .done)).length
  { w with doms := w.doms.drop n, cDom := w.cDom - n }

/-- The DOM operations of a wave replaced, completions reported. -/
def State.setDoms (s : State) (id : WaveId) (l : List DomOp) : State :=
  match s.wave? id with
  | some w => (s.setWave id ({ w with doms := l } : Wave).reportDoms).unstall
  | none => s

/-- A far access that waits receives the answer for one line, which its die keeps as a copy (04 R74, R76): of a request that a port has sent;
of the host once the writes that left the die before it are over. -/
def State.answer (s : State) (id : WaveId) (sp : Space) (st : FarStatus) : Option State :=
  match s.wave? id with
  | none => none
  | some w =>
    match w.far with
    | none => none
    | some f =>
      match f.lines with
      | [] => none
      | (line, cls) :: r =>
        if f.space ≠ sp || 0 < f.behind || sp = .peer && s.flying (.request (waveKey id) line) = 0 then none
        else
          let s := s.landed (.request (waveKey id) line)
          let vf := ((s.convoy? id.conv).map Convoy.vf).getD 0
          let l := s.farLine vf cls line
          let s := if st = .ok && !f.atomic then s.keepCopy (dieOfCore w.core) vf cls line l else s
          let far : FarReq := { f with lines := r, got := f.got ++ [{ line := line, status := st, bytes := l.1, tag := l.2 }] }
          some (s.draw.setWave id { w with far := some far, stall := false })

/-- Bytes and tag of a line set in another device's memory. -/
def State.writePeer (s : State) (vf : Nat) (w : LineWrite) : State :=
  let dev := w.line / 2 ^ 44 % 256
  let p := lookD s.peers dev { live := false, mem := Img.empty }
  let a := peerAdr ((s.boundFn vf dev).getD 0) w.line
  { s with peers := ins s.peers dev { p with mem := p.mem.apply { w with line := a } } }

/-- The PEER lines that may be applied next, as places in DOM operation and line: the first outstanding line of each page
(04 R73). -/
def peerNext (l : List DomOp) : List (Nat × Nat) :=
  let all := l.zipIdx.flatMap fun (o, i) => match o with
    | .store e => if e.space = .peer then e.lines.zipIdx.map fun (x, j) => (x.line / 4096, i, j) else []
    | _ => []
  (all.foldl (fun (acc : List (Nat × Nat × Nat)) p => if acc.any fun q => q.1 == p.1 then acc else acc ++ [p]) []).map Prod.snd

/-- A line of an outstanding store is over; its operation is complete when no line is left. -/
def dropLine (l : List DomOp) (i j : Nat) : List DomOp :=
  match l[i]? with
  | some (.store e) =>
    let e' := { e with lines := dropAt e.lines j, info := dropAt e.info j }
    setAt l i (if e'.lines.isEmpty then .done else .store e')
  | some _ => setAt l i .done
  | none => l

/-- The line at a place of the DOM operations. -/
def lineAt (l : List DomOp) (i j : Nat) : Nat :=
  match l[i]? with
  | some (.store e) => (e.lines[j]?.map LineWrite.line).getD 0
  | _ => 0

/-- The far atomics outstanding in a space, by place. -/
def atomNext (l : List DomOp) (sp : Space) : List (Nat × Nat) :=
  l.zipIdx.filterMap fun (o, i) => if o = .atomic sp then some (i, 0) else none

/-- PEER_RESPONSE for an operation in flight: one line of one store, the first of its page that its port has sent, or one atomic; a free value
picks it. -/
def State.peerAck (s : State) (id : WaveId) (st : FarStatus) : Option State :=
  match s.wave? id with
  | none => none
  | some w =>
    let key := waveKey id
    let l := if s.holdsBack id.conv 4 then []
      else ((peerNext w.doms).filter fun p => s.pageFirst key (lineAt w.doms p.1 p.2)) ++ atomNext w.doms .peer
    match l[s.free % l.length]? with
    | none => none
    | some (i, j) =>
      let s := s.draw
      match w.doms[i]? with
      | some (.store e) =>
        match e.lines[j]? with
        | none => none
        | some x =>
          let s := s.landed (.write key x.line)
          let late (cause : BitVec 10) : State :=
            (s.setDoms id (dropLine w.doms i j)).reportLate (waveKey id) e.hnd
              { cause := cause, faddr := BitVec.ofNat 57 ((e.info[j]?.getD (0, 0)).1) }
          match st with
          | .linkDown => some (late (cMemerr 7 2))
          | .poisoned | .uncorrectable => none
          | .unsupported => some (late (cTranslate 4 7))
          | .ok =>
            if (s.boundFn e.fn (x.line / 2 ^ 44 % 256)).isNone then some (late (cTranslate 4 7))
            else some ((s.writePeer e.fn x).setDoms id (dropLine w.doms i j))
      | some _ => some (s.setDoms id (dropLine w.doms i 0))
      | none => none

/-- PEER_RESPONSE. -/
def execPeerResponse (wv : WaveId) (st : FarStatus) (s : State) : Host.Outcome State Fault Refusal :=
  happens s ((s.answer wv .peer st).orElse fun _ => s.peerAck wv st)

/-- The first outstanding HOST store or atomic of a wave: stores leave and complete in order (22 R372). -/
def hostNext (l : List DomOp) : Option (Nat × DomOp) :=
  (l.zipIdx.find? fun p => match p.1 with
    | .store e => e.space == .host
    | .atomic sp => sp == .host
    | _ => false).map fun p => (p.2, p.1)

/-- A HOST operation in flight ends: visible at the host, or with a late fault. It is the first of its die: the host interface issues them
in the order in which they left it. -/
def State.hostAck (s : State) (id : WaveId) (fault : Option (BitVec 10)) : Option State :=
  match s.wave? id with
  | none => none
  | some w =>
    let d := dieOfCore w.core
    match if s.holdsBack id.conv 4 || (s.die d).hostOut.head? != some (waveKey id) then none else hostNext w.doms with
    | none => none
    | some (i, .store e) =>
      let doms := setAt w.doms i .done
      let s := s.hostOver d 0
      match fault with
      | none =>
        let mem := e.lines.foldl (fun m l => l.bytes.foldl (fun m p => m.write (l.line + p.1) p.2) m) s.hostMem
        some (({ s with hostMem := mem } : State).setDoms id doms)
      | some c =>
        some ((s.setDoms id doms).reportLate (waveKey id) e.hnd
          { cause := c, faddr := BitVec.ofNat 57 ((e.info.headD (0, 0)).1) })
    | some (i, _) => if fault.isNone then some ((s.hostOver d 0).setDoms id (setAt w.doms i .done)) else none

/-- HOST_COMPLETION. -/
def execHostCompletion (wv : WaveId) (st : FarStatus) (s : State) : Host.Outcome State Fault Refusal :=
  happens s ((s.answer wv .host st).orElse fun _ => if st = .ok then s.hostAck wv none else none)

/-- HOST_COMPLETION_TIMEOUT: MEMERR 0x37A, precise for a load or an atomic, late for a store. -/
def execHostCompletionTimeout (wv : WaveId) (s : State) : Host.Outcome State Fault Refusal :=
  happens s ((s.answer wv .host .linkDown).orElse fun _ => s.hostAck wv (some (cMemerr 7 2)))

/-- HOST_WRITE_REFUSED: TRANSLATE 0x0EF, late. -/
def execHostWriteRefused (wv : WaveId) (s : State) : Host.Outcome State Fault Refusal :=
  happens s (s.hostAck wv (some (cTranslate 5 7)))

end Sys2Proof.Machine
end

