-- ==== Sys2Proof/Machine/CairnEv.lean ====
section
/-!
DEFINITION. Sys2Proof/Machine/CairnEv.lean: the steps of the L2 slices that serve triggers (07 R132, R136 to R140).
-/
namespace Sys2Proof.Machine

open Sys2Proof

/-- A trigger's handler is absent: its default action is taken, a message receives status 2 (07 R136). -/
def State.trigAbsent (s : State) (n : Nat) (t : Trigger) : State :=
  let s := s.defaultAction t
  if t.kind = .msg then s.replyTo t.token 2 n [] else s

/-- A trigger whose slot has used its share (07 R140): the window's one SHARE record is posted with the first. -/
def State.trigUnshared (s : State) (n i : Nat) (t : Trigger) : State :=
  let s := s.defaultAction t
  let s := if t.kind = .msg then s.replyTo t.token 3 n [] else s
  let x := s.slice n
  match x.slots[i]? with
  | none => s
  | some k =>
    if k.spent then s
    else (s.setSlice n { x with slots := setAt x.slots i { k with spent := true } }).postEvent t.vf (abortRecord n t 705 0 0)

/-- The entry offset of a trigger in its descriptor; none where it is absent (07 R136). -/
def entryOf (desc : List Byte) (k : TrigKind) : Option Nat :=
  let e := fieldOf desc (4 * TrigKind.code k) 4
  if e = 2 ^ 32 - 1 ∨ e % 4 ≠ 0 then none else some e

/-- A forwarded message whose target page has lost its translation is lost (07 R133, status 5). -/
def State.trigLost (s : State) (n : Nat) (t : Trigger) : Bool :=
  t.kind == .msg && t.src == 3 && (s.handlerXlate n t.vf t.va).isNone

/-- HANDLER_INVOCATION: the oldest trigger of a free slice is served. A slot's share is looked at before its descriptor and entry (DESIGN
CHOICE, log 89). -/
def State.invoke (s : State) (n : Nat) : Option State :=
  let x := s.slice n
  match x.inv, x.queue with
  | none, t :: r =>
    let s := (s.setSlice n { x with queue := r }).unstall
    if s.trigLost n t then some (s.replyTo t.token 5 n [])
    else match if t.set = 0 then none else x.slotOf t.vf with
    | none => some (s.trigAbsent n t)
    | some i =>
      match x.slots[i]? with
      | none => some (s.trigAbsent n t)
      | some k =>
        if Slot.cap k ≤ s.slotUsed n i then some (s.trigUnshared n i t)
        else
          match s.setDesc n t.vf t.set with
          | none => some (s.trigAbsent n t)
          | some desc =>
            match entryOf desc t.kind with
            | none => some (s.trigAbsent n t)
            | some e =>
              let v : Invoc := { slot := i, trig := t, arg := BitVec.ofNat 64 (fieldOf desc 0x18 8),
                                 budget := budgetOf (fieldOf desc 0x10 2), start := s.fab, instret := 0, pc := BitVec.ofNat 64 e,
                                 x := [], keep := none, drop := false, evqs := 0, replied := false, forwarded := false,
                                 fetched := false }
              let s := s.setSlice n { s.slice n with inv := some v }
              some (if t.kind = .fill ∨ t.kind = .evict then s.pin t.line true else s)
  | _, _ => none

/-- HANDLER_INVOCATION. -/
def execHandlerInvocation (slice : Nat) (s : State) : Host.Outcome State Fault Refusal := happens s (s.invoke slice)

/-- CAIRN_BUDGET_EXPIRY: the running invocation has reached its budget and is aborted with CAIRN/BUDGET (07 R139). -/
def execCairnBudgetExpiry (slice : Nat) (s : State) : Host.Outcome State Fault Refusal :=
  happens s (match (s.slice slice).inv with
    | some v => if v.budget ≤ s.cyclesOf v then some (s.abort slice v 0) else none
    | none => none)

/-- The running invocation's slot has reached its share: it is aborted with CAIRN/SHARE, the window's one record (07 R140). -/
def State.shareOut (s : State) (n i : Nat) : Option State :=
  let x := s.slice n
  match x.inv, x.slots[i]? with
  | some v, some k =>
    if v.slot = i ∧ Slot.cap k ≤ s.slotUsed n i then
      some ((s.setSlice n { x with slots := setAt x.slots i { k with spent := true } }).abort n v 1)
    else none
  | _, _ => none

/-- CAIRN_SHARE_EXHAUSTED. -/
def execCairnShareExhausted (slice slot : Nat) (s : State) : Host.Outcome State Fault Refusal := happens s (s.shareOut slice slot)

/-- A share window is due: one in every 65,536 fabric cycles, aligned to reset (07 R140). -/
def State.windowDue (s : State) : Bool := 65536 * (s.windows + 1) ≤ s.fab

/-- A window begins at every slice. -/
def State.shareWindow (s : State) : State :=
  let fresh (k : Slot) : Slot := { k with used := 0, spent := false }
  { s with windows := s.windows + 1, slices := s.slices.map fun p => (p.1, { p.2 with slots := p.2.slots.map fresh }) }

/-- CAIRN_SHARE_WINDOW. -/
def execCairnShareWindow (s : State) : Host.Outcome State Fault Refusal :=
  happens s (if s.windowDue then some s.shareWindow else none)

/-- CAIRN_REQUEST_FILL: a line asked for by cln.req is installed; with CHAIN and HOPS below 15 it raises FILL, one hop on, otherwise
it is unannounced (07 R132). -/
def State.requestFill (s : State) (n idx : Nat) : Option State :=
  let x := s.slice n
  match x.reqs[idx]? with
  | none => none
  | some r =>
    if s.memHeld r.line then none
    else
      let s := s.setSlice n { x with reqs := dropAt x.reqs idx }
      if (s.lineDir r.line).present then some s
      else some (s.install r.line r.va r.vf r.set (r.hops + 1) 3 (r.chain && r.hops < 15))

/-- CAIRN_REQUEST_FILL. -/
def execCairnRequestFill (slice idx : Nat) (s : State) : Host.Outcome State Fault Refusal := happens s (s.requestFill slice idx)

end Sys2Proof.Machine
end

