-- ==== Sys2Proof/Machine/Grv.lean ====
section
/-!
DEFINITION. Sys2Proof/Machine/Grv.lean: the meanings of the GRV instructions (14 R275, R276; 06) and of MRES.GRV and MREL.GRV.
A register's tag is set at the commit of the operation that writes it, its bits when the engine performs the operation.
-/
namespace Sys2Proof.Machine

open Sys2Proof

/-! ### Reservation (06 R124) -/

/-- MRES.GRV. -/
def execMresGrv (k : Ctl) (pd : BitVec 3) (s : State) : Host.Outcome State Fault Refusal :=
  instr s { predMeta (.wide k []) pd with last := true, closer := true } noOwn fun c _ =>
    let g := c.gravel
    if g.holder = some c.id.conv then .ok (.of (c.writePred c.s k pd true))
    else if g.holder.isSome then .ok (.of (c.writePred c.s k pd false))
    else .ok (.of (c.writePred (c.s.setGravel c.clusterNo { Gravel.reset with holder := some c.id.conv }) k pd true))

/-- MREL.GRV. -/
def execMrelGrv (k : Ctl) (s : State) : Host.Outcome State Fault Refusal :=
  instr s { Meta.wide k [] with last := true, closer := true } (fun c => c.needGravel) fun c _ =>
    if c.gravel.ops.isEmpty then .ok (.of (c.s.setGravel c.clusterNo { Gravel.reset with freedBy := some c.id.conv }).unstall) else .stall c.s

/-! ### Checks (06 R114, R118, R121) -/

/-- A stream register's v operand: a direct v descriptor (its range and evenness are field checks). -/
def needV (d : Desc) : Option (BitVec 10) := if isV d then none else some (cOperand 5)

/-- Whether a GMOV.LD of a register is pending, so that its tag is not yet known. -/
def Gravel.loading (g : Gravel) (r : Nat) : Bool :=
  g.ops.any fun o => match o.op with
    | .ld gd _ => gd == r
    | _ => false

/-- STREAM/UNSET on a register that is read. -/
def Gravel.unset (g : Gravel) (l : List Nat) : Option (BitVec 10) :=
  if l.any fun r => (look g.g r).isNone && !g.loading r then some (cStream 1) else none

/-- A register that is set. -/
def Gravel.reg (g : Gravel) (r : Nat) : GReg := (look g.g r).getD { bits := [], m := 0, s := 0, x := false }

/-- The 64 streams of a set of words compared with thresholds: words in element order, then bit order. -/
def comparedBits (len : Nat) (words : List Word) (thr : List Nat) : List Nat :=
  let rec go : List Nat → List Word → List Nat
    | [], _ => []
    | t :: r, l => ((l.take len).zipIdx.foldl (fun m p => if p.1.toNat < t then m ||| 2 ^ p.2 else m) 0) :: go r (l.drop len)
  go thr words

/-- The common checks of a Gravel instruction that reads registers. -/
def Ctx.grvOwn (c : Ctx) (reads : List Nat) : Option (BitVec 10) := firstOf c.needGravel (c.gravel.unset reads)

/-- STREAM/CORRELATED between pairs of registers whose tags are known. -/
def Gravel.clash (g : Gravel) (cor : Bool) (l : List (Nat × Nat)) : Option (BitVec 10) :=
  if !cor && l.any fun p => !g.loading p.1 && !g.loading p.2 && correlated (g.reg p.1) (g.reg p.2) then some (cStream 2)
  else none

/-- An asynchronous operation is issued: GRV rises, its destination takes its tag. -/
def Ctx.issueGrv (c : Ctx) (s : State) (reads : List Nat) (dest : Option (Nat × DWord × BitVec 12 × Bool)) (op : GOpKind) :
    Verdict :=
  if c.w.cGrv = 63 || ((reads ++ dest.toList.map Prod.fst).any fun r => c.gravel.loading r) then .stall c.s
  else
    let g := (s.cluster c.clusterNo).gravel
    let regs := match dest with
      | some (gd, m, sh, x) => ins g.g gd { (g.reg gd) with m := m, s := sh, x := x }
      | none => g.g
    let w := ((s.wave? c.id).getD c.w).noSpin
    .ok (.of ((s.setWave c.id (w.raise .grv)).setGravel c.clusterNo
      { g with g := regs, ops := g.ops ++ [{ wave := c.key, op := op, hnd := c.hnd }] }))

/-- The value of an element's lane and register (06 R114). -/
def Ctx.element (c : Ctx) (d : Desc) (e : Nat) : Word := c.w.getV (e % 32) (regOf d + e / 32)

/-- Values of the 64 elements written. -/
def Ctx.putElements (c : Ctx) (s : State) (d : Desc) (f : Nat → Word) : State :=
  s.setWave c.id ((List.range 64).foldl (fun w e => w.setV (e % 32) (regOf d + e / 32) (f e)) ((s.wave? c.id).getD c.w))

/-- A one-class tag (06 Table 6-2). -/
def oneClass (gd cls : Nat) : Option (Nat × DWord × BitVec 12 × Bool) := some (gd, 1#64 <<< cls, 0, false)

/-- The threshold of GGEN.F: RoundDown(p·2^32) (06 R118). -/
def thresholdOf (bip : Bool) (v : FVal) : Nat :=
  let lo : Int := if bip then -(2 ^ 31) else 0
  let sc : Int := if bip then 31 else 32
  let x : Int := match v with
    | .nan => 0
    | .inf n => if n then -(2 ^ 33) else 2 ^ 33
    | .fin n m e =>
      let y : Int := signed n m
      if 0 ≤ e + sc then y * 2 ^ (e + sc).toNat else Int.fdiv y (2 ^ (-(e + sc)).toNat)
  ((clampInt lo (if bip then 2 ^ 31 else 2 ^ 32) x) - lo).toNat

/-! ### Generation and gates (06 R118) -/

/-- GGEN and GREG draw their words at their commit, after every earlier operation of the engine (01 R21, 06 R115), and issue the bits
that the words give (DESIGN CHOICE, log 93). -/
def Ctx.generate (c : Ctx) (gd cls : Nat) (reads : List Nat) (thr : List Nat) : Verdict :=
  if !c.gravel.ops.isEmpty then .stall c.s
  else
    let (words, g) := c.gravel.words cls (64 * c.gravel.len)
    c.issueGrv (c.s.setGravel c.clusterNo g) reads (oneClass gd cls)
      (.put gd ((32 + cls) :: reads) (comparedBits c.gravel.len words thr))

/-- GGEN. -/
def execGgen (k : Ctl) (gd : BitVec 5) (vn : Desc) (cls : BitVec 6) (bip x : Bool) (s : State) :
    Host.Outcome State Fault Refusal :=
  instr s { Meta.wide k [src vn 2] with last := true, closer := true } (fun c => firstOf (needV vn) c.needGravel) fun c _ =>
    let thr := (List.range 64).map fun e =>
      if x then (c.element vn e).toNat else thresholdOf bip ((FCode.fmt .fp32).value (c.element vn e).toNat)
    c.generate gd.toNat cls.toNat [] thr

/-- GREG. -/
def execGreg (k : Ctl) (gd gs : BitVec 5) (cls : BitVec 6) (s : State) : Host.Outcome State Fault Refusal :=
  instr s { Meta.wide k [] with last := true, closer := true } (fun c => c.grvOwn [gs.toNat]) fun c _ =>
    c.generate gd.toNat cls.toNat [gs.toNat] ((List.range 64).map fun e => c.gravel.count gs.toNat e * 2 ^ 32 / c.gravel.len)

/-- The combined tag of the registers read, for a destination. -/
def Gravel.tagOf (g : Gravel) (gd : Nat) (l : List Nat) : Option (Nat × DWord × BitVec 12 × Bool) :=
  let t := combineTags (l.map g.reg)
  some (gd, t.1, t.2.1, t.2.2)

/-- A gate of two or three registers: `pairs` are checked for correlation, when every tag is known, without an acting thread too (14
R263). The trap waits until the wave's earlier operations have completed (17 R305, Table 17-5). -/
def gateInstr (s : State) (k : Ctl) (gd : BitVec 5) (reads : List Nat) (pairs : List (Nat × Nat)) (cor : Bool)
    (op : GOpKind) : Host.Outcome State Fault Refusal :=
  instr s { Meta.wide k [] with always := true } (fun c => c.grvOwn reads) fun c act =>
    match c.gravel.clash cor pairs with
    | some x => if c.w.cGrv = 0 then .fail (.plain x) else .stall c.s
    | none => if act = 0 then .ok (.of c.s) else c.issueGrv c.s reads (c.gravel.tagOf gd.toNat reads) op

/-- GAND. -/
def execGand (k : Ctl) (gd ga gb : BitVec 5) (cor : Bool) (s : State) : Host.Outcome State Fault Refusal :=
  gateInstr s k gd [ga.toNat, gb.toNat] [(ga.toNat, gb.toNat)] cor (.and gd.toNat ga.toNat gb.toNat)

/-- GXNR. -/
def execGxnr (k : Ctl) (gd ga gb : BitVec 5) (cor : Bool) (s : State) : Host.Outcome State Fault Refusal :=
  gateInstr s k gd [ga.toNat, gb.toNat] [(ga.toNat, gb.toNat)] cor (.xnr gd.toNat ga.toNat gb.toNat cor)

/-- GMUX. -/
def execGmux (k : Ctl) (gd ga gb gs : BitVec 5) (cor : Bool) (s : State) : Host.Outcome State Fault Refusal :=
  gateInstr s k gd [ga.toNat, gb.toNat, gs.toNat] [(gs.toNat, ga.toNat), (gs.toNat, gb.toNat)] cor
    (.mux gd.toNat ga.toNat gb.toNat gs.toNat)

/-- GSHF: a literal r is checked without a leader too. -/
def execGshf (k : Ctl) (gd gs : BitVec 5) (r : SrcB) (s : State) : Host.Outcome State Fault Refusal :=
  instr s { Meta.wide k (srcB r) with always := true } (fun c => c.grvOwn [gs.toNat]) fun c act =>
    let x := (c.readB32 (leader act) r).toNat
    if (act ≠ 0 ∨ isLit r) ∧ (x = 0 ∨ c.gravel.len ≤ x) then .fail (.plain (cOperand 10))
    else if act = 0 then .ok (.of c.s)
    else
      let g := c.gravel.reg gs.toNat
      c.issueGrv c.s [gs.toNat]
        (some (gd.toNat, g.m, BitVec.ofNat 12 ((g.s.toNat + x) % c.gravel.len), g.x)) (.shf gd.toNat gs.toNat x)

/-- GSEED. -/
def execGseed (k : Ctl) (cls : BitVec 6) (value : SrcB) (s : State) : Host.Outcome State Fault Refusal :=
  instr s (.wide k (srcB value)) (fun c => c.needGravel) fun c act =>
    c.issueGrv c.s [] none (.seed cls.toNat (c.readB32 (leader act) value))

/-- GMOV. -/
def execGmov (k : Ctl) (gd gs : BitVec 5) (s : State) : Host.Outcome State Fault Refusal :=
  instr s (.wide k []) (fun c => c.grvOwn [gs.toNat]) fun c _ =>
    let g := c.gravel.reg gs.toNat
    c.issueGrv c.s [gs.toNat] (some (gd.toNat, g.m, g.s, g.x)) (.mov gd.toNat gs.toNat)

/-- GMOV.LD and GMOV.ST: the image's lines are translated at commit, after the wave's earlier stores (06 R120, 04 R82). -/
def imageInstr (s : State) (k : Ctl) (ka : Desc) (own : Ctx → Option (BitVec 10)) (acc : Access) (reads : List Nat)
    (op : Ctx → List (Nat × Nat) → GOpKind) : Host.Outcome State Fault Refusal :=
  instr s (.wide k [src ka 2]) own fun c act =>
    let a := (c.addr act ka).toNat
    if a % 64 ≠ 0 then .fail (.lead act (cAlign 0) a)
    else
      match c.rangeLines acc (lineVas a (c.gravel.len / 8 + 1)) with
      | .error f => .fail (.lead act f.1 f.2)
      | .ok l =>
        if !c.w.sq.isEmpty || !c.touchables l (acc == .store) then .stall c.s
        else c.issueGrv (c.s.touches c.vf l (acc == .store)) reads none (op c (linePairs l))

/-- GMOV.LD. -/
def execGmovLd (k : Ctl) (gd : BitVec 5) (ka : Desc) (s : State) : Host.Outcome State Fault Refusal :=
  imageInstr s k ka (fun c => c.needGravel) .load [] fun _ l => .ld gd.toNat l

/-- GMOV.ST. -/
def execGmovSt (k : Ctl) (ka : Desc) (gs : BitVec 5) (s : State) : Host.Outcome State Fault Refusal :=
  imageInstr s k ka (fun c => c.grvOwn [gs.toNat]) .store [gs.toNat] fun c l =>
    let g := c.gravel.reg gs.toNat
    .st gs.toNat g.m g.s g.x l

/-! ### Synchronous instructions (06 R119) -/

/-- Values of the 64 elements written where they do not keep their old ones. -/
def Ctx.putSome (c : Ctx) (s : State) (d : Desc) (keep : Nat → Bool) (f : Nat → Word) : State :=
  c.putElements s d fun e => if keep e then c.element d e else f e

/-- The result of GCNT for a count k in a stream of length len (06 Table 6-2). -/
def countBits (kind : GCntKind) (k len : Nat) : Word :=
  let f (n : Int) : Word := BitVec.ofNat 32 ((FCode.fmt .fp32).finish .rn false (ofScaled false n (-(Nat.log2 len : Int))))
  match kind with
  | .n32 => BitVec.ofNat 32 k
  | .u => f k
  | .b => f (2 * (k : Int) - len)

/-- GCNT. -/
def execGcnt (k : Ctl) (vd : Desc) (gs : BitVec 5) (kind : GCntKind) (s : State) : Host.Outcome State Fault Refusal :=
  instr s (.wide k [dst vd 2]) (fun c => firstOf (needV vd) (c.grvOwn [gs.toNat])) fun c _ =>
    c.syncGrv [gs.toNat] fun s keep =>
      .ok (.of (c.putSome s vd keep fun e => countBits kind (c.gravel.count gs.toNat e) c.gravel.len))

/-- GACC. `n` is the field n − 1 of the word. -/
def execGacc (k : Ctl) (vd : Desc) (ga : BitVec 5) (n : BitVec 5) (s : State) : Host.Outcome State Fault Refusal :=
  let regs := (List.range (n.toNat + 1)).map fun i => ga.toNat + i
  instr s (.wide k [dst vd 2])
    (fun c => firstOf (needV vd) (firstOf (c.grvOwn (regs.filter fun r => r < 32))
      (if regs.any fun r => 31 < r then some (cOperand 9) else none)))
    fun c _ =>
      c.syncGrv regs fun s keep => .ok (.of (c.putSome s vd keep fun e =>
        BitVec.ofNat 32 (regs.foldl (fun t r => t + c.gravel.count r e) 0)))

/-- The value of a k register that an instruction is to write. -/
def Ctx.kOld (c : Ctx) (d : Desc) : Option DWord :=
  match d with
  | .k n => some (c.w.getK n.toNat)
  | _ => none

/-- The mask of the elements that a choice names. -/
def lanes64 (f : Nat → Bool) : DWord := (List.range 64).foldl (fun m e => if f e then m ||| (1#64 <<< e) else m) 0

/-- GCMP. -/
def execGcmp (k : Ctl) (d : Desc) (gs : BitVec 5) (vn : Desc) (first : Bool) (s : State) : Host.Outcome State Fault Refusal :=
  instr s (.wide k [dst d, src vn 2]) (fun c => firstOf (needK d) (firstOf (needV vn) (c.grvOwn [gs.toNat]))) fun c act =>
    let hit (e : Nat) : Bool := (c.element vn e).toNat ≤ c.gravel.count gs.toNat e
    let r : DWord :=
      if first then BitVec.ofNat 64 (((List.range 64).find? hit).getD 64)
      else lanes64 hit
    let old : DWord := (c.kOld d).getD 0
    c.syncGrv [gs.toNat] fun s keep =>
      let kept := lanes64 keep
      let r := if first then (if keep 0 then old else r) else (r &&& ~~~ kept) ||| (old &&& kept)
      .ok (.of (c.dest d true [(leader act, r)] s))

/-- GLEN: every register becomes unset. A literal length is checked without a leader too. -/
def execGlen (k : Ctl) (l : SrcB) (s : State) : Host.Outcome State Fault Refusal :=
  instr s { Meta.wide k (srcB l) with always := true } (fun c => c.needGravel) fun c act =>
    let x := (c.readB32 (leader act) l).toNat
    if (act ≠ 0 ∨ isLit l) ∧ !(x = 256 ∨ x = 1024 ∨ x = 4096) then .fail (.plain (cOperand 10))
    else if act = 0 then .ok (.of c.s)
    else c.syncGrv [] fun s keep =>
      let g := (s.cluster c.clusterNo).gravel
      .ok (.of (if keep 0 then s else s.setGravel c.clusterNo { g with len := x, g := [], bad := g.bad.filter (32 ≤ ·) }))

end Sys2Proof.Machine
end

