-- ==== Sys2Proof/Machine/ConvOps.lean ====
section
/-!
DEFINITION. Sys2Proof/Machine/ConvOps.lean: what the device's steps on a whole convoy share: its outstanding work, its stash
lines, its reservations, its end (01 R27, 19 R334, 20 R348, R354), uncorrectable words (25 R411, R412), and the lines that
engines and copies read.
-/
namespace Sys2Proof.Machine

open Sys2Proof

/-- A counter that saturates (25 R407). -/
def bump (x : DWord) (n : Nat) : DWord := upTo x n

/-- The waves of a convoy that have not committed TAIL. -/
def State.liveWaves (s : State) (k : Nat) : List (Nat × Wave) := (s.wavesOf k).filter fun p => !p.2.ended

/-- The crews of a convoy. -/
def State.crewsOf (s : State) (k : Nat) : List (Nat × Crew) := s.crews.filter fun p => p.1 / 8 == k

/-! ### Outstanding work -/

/-- An engine's next operation is an MMA whose ring entry has not been pushed. -/
def Engine.starved (x : Engine) : Bool :=
  match x.ops with
  | [] => false
  | o :: _ => match o.op with
    | .mma q => q.pass < passesOf q.cls && x.ring.elim true fun r => !r.ready.contains r.head
    | _ => false

/-- The matrix engines that a convoy holds. -/
def State.heldBy (s : State) (cl k : Nat) : List Nat := (List.range 4).filter fun e => (s.engine cl e).holder == some k

/-- Every engine that the convoy holds has completed its operations up to the first MMA that waits on the ring. -/
def State.enginesRest (s : State) (cl k : Nat) : Bool :=
  (s.heldBy cl k).all fun e => (s.engine cl e).ops.isEmpty || (s.engine cl e).starved

/-! ### Stash lines (03 R54) -/

/-- The physical lines of a crew's bindings that are present. -/
def Crew.presentLines (c : Crew) : List Nat := c.binds.flatMap fun (_, b) => b.present.map fun o => b.line o

/-- A crew's stash lines given up: dirty ones written back. None while a write has to wait. -/
def State.emptyStash (s : State) (key : Nat) : Option State :=
  match s.crew? key with
  | none => some s
  | some c =>
    let lines := c.presentLines
    if !lines.all fun l => s.canWrite (dieOfCore c.core) l then none
    else
      let s := lines.foldl (fun s l => s.giveBack l) s
      match s.crew? key with
      | none => some s
      | some c => some (s.setCrew key { c with binds := c.binds.map fun (n, b) => (n, { b with filling := [] }) })

/-- The stash lines of every crew of a convoy given up. -/
def State.emptyStashes (s : State) (k : Nat) : Option State :=
  (s.crewsOf k).foldl (fun (s : Option State) p => s.bind fun s => s.emptyStash p.1) (some s)

/-! ### Release -/

/-- The reservations of a convoy end (01 R27). `saved`: its Slate pages stay with the engine, held for it (20 R352). -/
def State.releaseEngines (s : State) (k : Nat) (cv : Convoy) (saved : Bool) : State :=
  let c := s.cluster cv.cluster
  let free (x : Engine) : Engine :=
    if x.holder = some k then
      if saved then { x with freedBy := some k, holder := none, ring := none, shadows := [], shFault := [], ops := [], slateOf := some k }
      else { x.take none with ops := [], freedBy := some k }
    else x
  let gravel := if c.gravel.holder = some k then { Gravel.reset with freedBy := some k } else c.gravel
  s.setCluster cv.cluster { c with engines := c.engines.map free, gravel := gravel }

/-- A convoy's lines leave the wake tables. -/
def State.unwatch (s : State) (k : Nat) : State :=
  let drop (p : Nat × List Nat) : Nat × List Nat := (p.1, p.2.filter (· != k))
  { s with wakeTable := (s.wakeTable.map drop).filter fun p => !p.2.isEmpty }

/-- The waves, crews and memory of a convoy are gone. -/
def State.removeConvoy (s : State) (k : Nat) : State :=
  let s := s.unwatch k
  { s with waves := s.waves.filter fun p => (waveOfKey p.1).conv != k, crews := s.crews.filter fun p => p.1 / 8 != k,
           convoys := del s.convoys k }

/-- STATE, CTXID and CONV of a convoy's slot written (20 Table 20-6, R420). -/
def State.slotState (s : State) (cv : Convoy) (st : Nat) : SaveRes :=
  let image := leBytes 2 cv.ctxid.toNat ++ leBytes 2 0 ++ leBytes 4 cv.index ++ leBytes 1 st
  s.saveLines cv.vf (cv.cluster / 8) [{ va := s.slotBase cv, bytes := image, tag := none }]

/-- A convoy's slot becomes free: none while the write has to wait; a slot that its translation no longer reaches is left as it is, the
convoy being over (DEDUCED, log 36). -/
def State.slotFree (s : State) (cv : Convoy) : Option State :=
  match s.slotState cv 0 with
  | .done s => some s
  | .wait => none
  | .bad _ _ => some s

/-- A convoy leaves its cluster: the fabric cycles of its stay are counted for it and for its function (20 R346, 21 R368). -/
def State.leaveCluster (s : State) (k : Nat) (cv : Convoy) : State :=
  let f := s.fn cv.vf
  let s := s.setFn cv.vf { f with usage := f.usage ++ [(cv.cluster, cv.since, s.fab)] }
  s.setConvoy k { cv with life := cv.life + (s.fab - cv.since) }

/-- A convoy has retired: what it held is released and its grid counts it (01 R27, 18 R314). None while its slot cannot be written. -/
def State.retireConvoy (s : State) (k : Nat) : Option State :=
  match s.convoy? k with
  | none => some s
  | some cv =>
    let life := cv.life + (s.fab - cv.since)
    ((s.releaseEngines k cv false).slotFree cv).map fun s =>
      let s := (s.leaveCluster k cv).removeConvoy k
      match s.grid? cv.grid with
      | some g => (s.setGrid cv.grid { g with retired := g.retired + 1, life := g.life + life }).unstall
      | none => s.unstall

/-! ### Uncorrectable words (25 R411, R412) -/

/-- A flush is eligible (20 R346). -/
def State.flushable (s : State) (cv : Convoy) : Bool := ((s.grid? cv.grid).elim false Grid.idem) && !cv.submitted

/-- A convoy stops for a flush. -/
def Convoy.toFlush (cv : Convoy) : Convoy := { cv with st := .flushing }

/-- The line of a bad word zeroed and tagged RAW. -/
def Crew.zeroLine (c : Crew) (off : Nat) : Crew :=
  { c with scratch := c.scratch.clear (lineOf off) 64, bad := c.bad.filter fun b => lineOf b != lineOf off }

/-- The same in convoy memory. -/
def Convoy.zeroLine (c : Convoy) (off : Nat) : Convoy :=
  { c with cmem := c.cmem.clear (lineOf off) 64, bad := c.bad.filter fun b => lineOf b != lineOf off }

/-- A bad word of a crew's scratchpad, or of convoy memory, found outside a checked load (25 R412): the convoy is relaunched, or
the lowest-slot wave receives a late fault. -/
def State.badWordFound (s : State) (k : Nat) (crew : Option Nat) (off : Nat) : State :=
  match s.convoy? k with
  | none => s
  | some cv =>
    let cw := crew.bind fun c => s.crew? (8 * k + c)
    let bad := match crew with
      | some _ => cw.elim false fun c => c.bad.contains off
      | none => cv.bad.contains off
    let cause := if crew.isSome then cMemerr 2 0 else cMemerr 3 0
    if !bad then s
    else if (cv.st == .resident || cv.st == .draining || cv.st == .saving) && s.flushable cv && cv.relaunches < 2 && cv.teardown.isNone then
      let core := (cw.map Crew.core).getD (8 * cv.cluster)
      let s := s.setConvoy k { (if crew.isSome then cv else cv.zeroLine off).toFlush with relaunches := cv.relaunches + 1 }
      let s := match crew, cw with
        | some c, some x => s.setCrew (8 * k + c) (x.zeroLine off)
        | _, _ => s
      s.postError (s.errorRecord 6 cause (dieOfCore core) (core % 64) 0 0 0 (cv.ctxid.toNat + 2 ^ 24 * cv.index))
    else
      match s.firstWave k crew with
      | some w => s.reportLate w false { cause := cause, faddr := BitVec.ofNat 57 off }
      | none => s

/-! ### Lines that engines and copies read (05 R111, 25 R412, R415) -/

/-- What a read of a line comes to: its bytes and tag; it cannot be made at this point of the die order; a bad word was found and dealt
with, and the read is made again; or the read fails, with the cause that its reader reports. -/
inductive LineRead where
  | line (s : State) (b : List Byte) (t : Tag)
  | wait
  | again (s : State)
  | bad (s : State) (cause : BitVec 10)

/-- A bad word that a read of `n` bytes finds in a crew's scratchpad or in convoy memory. -/
def State.badIn (s : State) (k : Nat) (crew : Option Nat) (bad : List Nat) (off n : Nat) : Option LineRead :=
  (bad.find? fun b => off ≤ b && b < off + n).map fun b =>
    let s' := s.badWordFound k crew b
    let still := match crew with
      | some c => (s'.crew? (8 * k + c)).elim false fun x => x.bad.contains b
      | none => (s'.convoy? k).elim false fun x => x.bad.contains b
    if still then .bad s' (if crew.isSome then cMemerr 2 0 else cMemerr 3 0) else .again s'

/-- A DEVICE line read by a unit of a die. -/
def State.readDevice (s : State) (d line : Nat) : LineRead :=
  let here : LineRead := .line s (s.devRead d line 64) (s.devTag d line)
  if !s.canRead d line then .wait
  else match s.stashOf line with
  | some (key, c, o) => (s.badIn (key / 8) (some (key % 8)) c.bad o 64).getD here
  | none => match s.lineErr line with
    | some x => .bad (s.told line) x
    | none => here

/-- `n` bytes of a crew's scratchpad, within a line, read by a unit, with the line's tag. -/
def State.readScratch (s : State) (k crew off : Nat) (n : Nat := 64) : LineRead :=
  match s.crew? (8 * k + crew) with
  | none => .line s (List.replicate n 0) 0
  | some c => (s.badIn k (some crew) c.bad off n).getD (.line s (c.scratch.read off n) (c.scratch.tag off))

/-- A line of convoy memory read by a unit. -/
def State.readCmem (s : State) (k off : Nat) : LineRead :=
  match s.convoy? k with
  | none => .line s (List.replicate 64 0) 0
  | some c => (s.badIn k none c.bad off 64).getD (.line s (c.cmem.read off 64) (c.cmem.tag off))

end Sys2Proof.Machine
end

