-- ==== Sys2Proof/Machine/LaunchOps.lean ====
section
/-!
DEFINITION. Sys2Proof/Machine/LaunchOps.lean: what the launch steps share (18): completion records and their rings, the room of
cores and clusters, the order of placement, and a convoy's start.
-/
namespace Sys2Proof.Machine

open Sys2Proof

/-! ### The launch unit's reads (18 R309, R311) -/

/-- Bytes of a function's memory as the launch unit reads them: each at its home die; none where the translation or the R permission
is missing or the page is not DEVICE. -/
def State.homeBytes (s : State) (vf va n : Nat) : Option (List Byte) :=
  let lines := (List.range ((va % 64 + n + 63) / 64)).map fun i => lineOf va + 64 * i
  match s.saveBad vf 0 false lines with
  | some _ => none
  | none =>
    let bytes := lines.flatMap fun l => match s.saveAddr vf 0 l false with
      | .ok x => s.devRead (homeDie x.2) x.2 64
      | .error _ => List.replicate 64 0
    some ((bytes.drop (va % 64)).take n)

/-- A value of a function's memory, 0 where it cannot be read. -/
def State.homeVal (s : State) (vf va n : Nat) : Nat := (s.homeBytes vf va n).elim 0 leVal

/-! ### Completion records (18 R314, R315, R318) -/

/-- A completion record (18 Table 18-6). -/
def gridRecord (kind : Nat) (cause : BitVec 10) (seq : Nat) (utag : DWord) (info where_ : Nat) : List Byte :=
  leBytes 2 kind ++ leBytes 2 cause.toNat ++ leBytes 4 seq ++ leBytes 8 utag.toNat ++ leBytes 8 info ++ leBytes 4 where_ ++
    leBytes 4 0

/-- A queue's copy of its descriptor. -/
def State.queue (s : State) (vf q : Nat) : Queue := lookD (s.fn vf).queues q Queue.reset

/-- A queue replaced. -/
def State.setQueue (s : State) (vf q : Nat) (x : Queue) : State :=
  s.setFn vf { s.fn vf with queues := ins (s.fn vf).queues q x }

/-- A record appended to the CRING of a queue, with vector q after it (22 R373): none while the ring is full or cannot be written yet, so that the step that
posts it waits (DEDUCED, log 37). A ring that is lost disables the queue and the record is dropped. -/
def State.postCring (s : State) (vf q : Nat) (r : List Byte) : Option State :=
  let x := s.queue vf q
  match s.ringAt vf x.cring with
  | none => some (s.disableQueue vf q)
  | some (_, h) =>
    if h.size ≤ h.count then none
    else
      if s.appendWaits vf x.cring then none
      else match s.append vf x.cring r with
      | some s => some (s.msix vf q)
      | none => some (s.disableQueue vf q)

/-! ### Room (18 R320, 01 R13) -/

/-- The cores of a cluster. -/
def coresOf (cl : Nat) : List Nat := (List.range 8).map fun i => 8 * cl + i

/-- The clusters of the package. -/
def allClusters : List Nat := List.range 32

/-- A convoy that holds cores: it is not saved. -/
def Convoy.placed (cv : Convoy) : Bool := cv.st != .saved

/-- Waves of a core that hold their slots and registers: TAIL releases them at once (01 R27), but nothing new takes what a draining
convoy frees (20 R347). -/
def State.holders (s : State) (core : Nat) : List (Nat × Wave) :=
  s.waves.filter fun p => p.2.core == core && (s.convoy? (waveOfKey p.1).conv).elim false fun cv =>
    cv.placed && (!p.2.ended || cv.st == .draining)

/-- Register bytes of a wave: 128 for each depth pass of each v register (01 R13). -/
def waveBytes (d v : Nat) : Nat := 128 * d * v

/-- Free register bytes of a core (512 KiB in all). -/
def State.freeRegs (s : State) (core : Nat) : Nat :=
  524288 - ((s.holders core).map fun p => waveBytes p.2.depth p.2.vregs).sum

/-- Free wave slots of a core (48 in all). -/
def State.freeSlots (s : State) (core : Nat) : Nat := 48 - (s.holders core).length

/-- Free scratchpad of a core (256 KiB): a crew keeps its allocation until its last wave has retired. -/
def State.freeScratch (s : State) (core : Nat) : Nat :=
  262144 - ((s.crews.filter fun p => p.2.core == core && (s.convoy? (p.1 / 8)).elim false Convoy.placed &&
    ((s.convoy? (p.1 / 8)).elim false (fun cv => cv.st == .draining) || s.waves.any fun q => q.1 / 16 == p.1 && !q.2.drained)).map fun p => p.2.scratchBytes).sum

/-- Free convoy memory of a cluster (4 MiB). -/
def State.freeCmem (s : State) (cl : Nat) : Nat :=
  4194304 - ((s.convoys.filter fun p => p.2.cluster == cl && p.2.placed).map fun p => p.2.cmemBytes).sum

/-- The crews of a convoy given cores one by one: the core with the most free register bytes, ties to the lowest; `used` counts
what the crews before have taken (crews, by core). None where some crew fits nowhere. -/
def State.giveCores (s : State) (g : Grid) (cl : Nat) : Nat → List Nat → Option (List Nat)
  | 0, used => some used
  | n + 1, used =>
    let took (c : Nat) : Nat := used.count c
    let regs (c : Nat) : Nat := s.freeRegs c - took c * g.w * waveBytes g.d g.v
    let ok (c : Nat) : Bool := !(s.core c).gone && g.w * (took c + 1) ≤ s.freeSlots c &&
      (took c + 1) * g.w * waveBytes g.d g.v ≤ s.freeRegs c && (took c + 1) * g.scratch ≤ s.freeScratch c
    match ((coresOf cl).filter ok).foldl (fun (r : Option Nat) c => match r with
        | none => some c
        | some b => if regs b < regs c then some c else some b) none with
    | none => none
    | some c => s.giveCores g cl n (used ++ [c])

/-- Whether a cluster may take convoys of a function at all (18 R320, 20 R355, 21 R367, 23 R389, 24 R399). -/
def State.clusterOpen (s : State) (vf : Nat) (mask : BitVec 4) (cl : Nat) : Bool :=
  let d := cl / 8
  let x := s.die d
  let c := s.cluster cl
  let f := s.fn vf
  f.en && f.dies.getLsbD d && (mask == 0 || mask.getLsbD d) && x.cmp && x.memReady && x.state == 0 && !c.busy

/-- Free wave slots of a cluster. -/
def State.clusterSlots (s : State) (cl : Nat) : Nat := ((coresOf cl).map fun c => s.freeSlots c).sum

/-- Whether a new convoy of a grid fits a cluster, with the cores of its crews. -/
def State.fits (s : State) (g : Grid) (cl : Nat) : Option (List Nat) :=
  if s.clusterOpen g.vf g.diemask cl && g.cmem ≤ s.freeCmem cl then s.giveCores g cl g.crews [] else none

/-- Whether what a convoy released last may go to others: not while that convoy drains (20 R347). -/
def State.givenUp (s : State) (by_ : Option Nat) : Bool :=
  by_.elim true fun k => (s.convoy? k).elim true fun cv => cv.st != .draining

/-- Whether an engine is free for a restored convoy or a tile task. -/
def State.engineFree (s : State) (cl e : Nat) : Bool := (s.engine cl e).holder.isNone && s.givenUp (s.engine cl e).freedBy

/-- Whether a saved convoy fits a cluster: the engines that it held are unreserved there (20 R350). -/
def State.fitsSaved (s : State) (g : Grid) (cv : Convoy) (cl : Nat) : Option (List Nat) :=
  let gr := (s.cluster cl).gravel
  if cv.kept.all fun (e, _) => if e = 4 then gr.holder.isNone && s.givenUp gr.freedBy else s.engineFree cl e then s.fits g cl
  else none

/-- The cluster that a convoy goes to among those that fit: one that holds a convoy of the same grid (unless `free`), the most free
wave slots, the lowest number. -/
def State.bestCluster (s : State) (grid : Nat) (free : Bool) (l : List Nat) : Option Nat :=
  let same (c : Nat) : Nat := if !free && s.convoys.any fun p => p.2.grid == grid && p.2.cluster == c && p.2.placed then 1 else 0
  l.foldl (fun (r : Option Nat) c => match r with
    | none => some c
    | some b =>
      if same b < same c || (same b == same c && s.clusterSlots b < s.clusterSlots c) then some c else some b) none

/-! ### Save slots (20 R345) -/

/-- A free convoy slot of a queue's context save area; none where CSA is 0 or every slot is taken. -/
def State.freeSlot (s : State) (vf q : Nat) : Option Nat :=
  let base := (lookD (s.fn vf).csa q 0).toNat
  if base = 0 then none
  else
    let n := s.homeVal vf (base + 0x80) 4
    let taken := (s.convoys.filterMap fun p => if p.2.vf = vf ∧ p.2.q = q then some p.2.slot else none) ++
      s.grids.flatMap fun p => if p.2.vf = vf ∧ p.2.q = q then p.2.again.map Again.slot else []
    (List.range (min n 4096)).find? fun i => !taken.contains i

/-! ### Starting a convoy (01 R12, 02 Table 2-1, 18 R312) -/

/-- The lowest free wave slots of a core. -/
def State.slotsOn (s : State) (core n : Nat) : List Nat :=
  let used := (s.holders core).map fun p => p.2.slot
  ((List.range 48).filter fun i => !used.contains i).take n

/-- The threads of a wave of depth d. -/
def allLanes (d : Nat) : Lanes := lanesFrom (List.range (32 * d))

/-- A wave at its start. -/
def Wave.start (core slot : Nat) (entry : DWord) (depth v k : Nat) (ks : List DWord) (lanes : Lanes) (dbg : List DWord)
    (tasks : List TaskRec) : Wave :=
  { core := core, slot := slot, depth := depth, vregs := v, kregs := k, launched := lanes, tasks := tasks, pc := entry,
    clause := none, level := .kernel, v := [], k := ks.zipIdx.foldl (fun m p => put 0 m p.2 p.1) [], p := [], i := [],
    active := lanes, stack := [], mile := 0, milepc := entry, ckpt := { stack := [], active := lanes }, iwb := 0, iwl := 0,
    cCpy := 0, cGrv := 0, cMsg := 0, cDom := 0, batchOpen := 1, batchClosed := 0, sq := [], wrote := [], copies := [],
    msgs := [], doms := [], far := none, epc := 0, cause := 0, faddr := 0, flane := 0, trapKind := 3, frame := 0, inner := none, late := none,
    wait := none, woken := false, accepted := 0, prog := 0, dbg := dbg, skipBreak := none, replay := none, spinTarget := 1, spinEnd := 0,
    spinCount := 0, spinCur := [], spinPrev := [], stall := false, ended := false, drained := false }

/-- A crew at its start (02 Table 2-1, 03 R49). -/
def Crew.start (core waves scratch : Nat) : Crew :=
  { core := core, waves := waves, h := [], hAt := [], scratchBytes := scratch, scratch := Img.empty, bars := [], binds := [], evq := [],
    held := [], bad := [] }

/-- A convoy at its start on a cluster. -/
def Convoy.start (vf q grid index cluster crews slot cmem : Nat) : Convoy :=
  { vf := vf, q := q, grid := grid, index := index, cluster := cluster, crews := crews, slot := slot, st := .resident,
    why := .driver, runnable := false, cmemBytes := cmem, cmem := Img.empty, bars := [], susp := [], kept := [], lost := [],
    submitted := false, relaunches := 0, order := 0, since := 0, life := 0,
    moves := [], freeChoice := false, target := none, teardown := none, bad := [] }

/-- The argument records of a task wave's lanes in v0 to v7 (01 R25). -/
def Wave.args (w : Wave) (tasks : List TaskRec) : Wave :=
  tasks.zipIdx.foldl (fun w p => (List.range 8).foldl (fun (w : Wave) r =>
    w.setV p.2 r (BitVec.ofNat 32 (leVal ((p.1.arg.drop (4 * r)).take 4)))) w) w

/-- One wave of a new convoy takes the lowest free slot of its core. -/
def State.startWave (s : State) (key : Nat) (g : Grid) (entry : DWord) (lanes : Lanes) (tasks : List TaskRec) (dbg : List DWord)
    (crew core wave : Nat) : State :=
  match s.slotsOn core 1 with
  | slot :: _ => s.setWave { conv := key, crew := crew, wave := wave }
      ((Wave.start core slot entry g.d g.v g.kk g.params lanes dbg tasks).args tasks)
  | [] => s

/-- One crew of a new convoy on its core. -/
def State.startCrew (s : State) (key : Nat) (g : Grid) (entry : DWord) (lanes : Lanes) (tasks : List TaskRec) (dbg : List DWord)
    (crew core : Nat) : State :=
  let s := s.setCrew (8 * key + crew) (Crew.start core g.w g.scratch)
  (List.range g.w).foldl (fun s w => s.startWave key g entry lanes tasks dbg crew core w) s

/-- OUTST falls by the tasks that a convoy carried (18 R316); none while the write has to wait. -/
def State.tasksRetired (s : State) (gid n : Nat) : Option State :=
  match s.grid? gid with
  | none => some s
  | some g =>
    if !g.taskgrid || n = 0 then some s
    else if !s.canWrite (homeDie g.tpa) (lineOf g.tpa) then none
    else
      let s := s.devWrite (homeDie g.tpa) (lineWrite (g.tpa + 16) (leBytes 8 (g.outst - n)) none) .host
      some (s.setGrid gid { g with outst := g.outst - n })

/-- A convoy that is not on a cluster and cannot be brought there is over: its grid fails, and no part of it runs (20 R420). -/
def State.neverRuns (s : State) (gid index tasks life : Nat) (f : LateF) : Option State :=
  ((s.failGrid gid f index).tasksRetired gid tasks).map fun s =>
    match s.grid? gid with
    | some g => (s.setGrid gid { g with retired := g.retired + 1, life := g.life + life }).unstall
    | none => s.unstall

/-- A convoy of a grid starts on a cluster, its crews on the given cores, all at once (01 R11): every wave stands at the entry. None
while its slot cannot be written; a slot that no translation reaches fails the grid, as at a restore (DEDUCED, log 36). -/
def State.startConvoy (s : State) (gid : Nat) (g : Grid) (index cl slot relaunches : Nat) (cores : List Nat) (entry : DWord)
    (lanes : Lanes) (tasks : List TaskRec) : Option State :=
  let key := s.nextConvoy
  let cv := { Convoy.start g.vf g.q gid index cl g.crews slot g.cmem with
    relaunches := relaunches, order := s.freeCtr, since := s.fab }
  match s.slotState cv 1 with
  | .wait => none
  | .bad e va => s.neverRuns gid index tasks.length 0 { cause := e, faddr := BitVec.ofNat 57 va }
  | .done s =>
    let s := { s.setConvoy key cv with nextConvoy := key + 1 }
    let dbg := s.debugBlock cv (cl / 8)
    let s := s.setDebug cv.ctxid dbg
    some (cores.zipIdx.foldl (fun (s : State) p => s.startCrew key g entry lanes tasks dbg p.2 p.1) s)

end Sys2Proof.Machine
end

