-- ==== Sys2Proof/Machine/Engines.lean ====
section
/-!
DEFINITION. Sys2Proof/Machine/Engines.lean: the steps of the copy engines, the Gravel engines, the matrix engines, the tile-task
scheduler and the collectives, and the late faults they report (05, 06 R119 to R126, 14 R278 to R286, 19 R328, 22 R381).
-/
namespace Sys2Proof.Machine

open Sys2Proof

/-! ### Requests of other devices (22 R378, R379) -/

/-- The home address of an accepted PEER request, in this device's memory. -/
def State.peerTarget (s : State) (r : PeerReq) : Option Nat :=
  if ((s.fn r.vf).accept).contains (r.dev, r.fn) then (s.fn r.vf).granule r.fpa else none

/-- An answer falls due. -/
def State.owe (s : State) (r : PeerReq) (d : Nat) (line : Option Nat) (st : FarStatus) (data : List Byte) : State :=
  { s with owed := s.owed ++ [{ dev := r.dev, page := r.fpa / 4096, die := d, line := line, status := st, data := data }] }

/-- How a line that is read meets an error of its array, as the answer says it (19 R342). -/
def errStatus (e : Option (BitVec 10)) : FarStatus :=
  match e with
  | none => .ok
  | some c => if c.toNat % 8 = 1 then .poisoned else .uncorrectable

/-- PEER_REQUEST_ARRIVAL: a load reads at the home slice, in its die's order; a write and an atomic take their place in that order; a request
that is not accepted touches nothing. Each is answered (22 R378, R379). -/
def State.peerArrives (s : State) (r : PeerReq) : State :=
  match s.peerTarget r with
  | none => s.owe r 0 none .unsupported []
  | some pa =>
    let d := homeDie pa
    let later := s.later (.peerRequestArrival r)
    if s.memLost pa then s.owe r d none .uncorrectable []
    else match r.op with
    | .read n =>
      match s.readDevice d (lineOf pa) with
      | .line s b _ => s.owe r d none .ok ((b.drop (pa % 64)).take n)
      | .bad s c => s.owe r d none (errStatus (some c)) []
      | .again s => s.later (.peerRequestArrival r)
      | .wait => later
    | .write data tag =>
      if data.isEmpty || 64 < pa % 64 + data.length then s.owe r d none .unsupported []
      else if !s.canWrite d (lineOf pa) then later
      else (s.devWrite d (lineWrite pa data (some tag)) .peer).owe r d (some (lineOf pa)) .ok []
    | .atomic op ty b c =>
      let n := atomBytes op ty
      if pa % n ≠ 0 then s.owe r d none .unsupported []
      else if !s.canWrite d (lineOf pa) then later
      else
        let old := s.devVal d pa n
        (s.devWrite d (lineWrite pa (leBytes n (atomNew op ty old b.toNat c.toNat)) none) .peer).owe r d (some (lineOf pa)) .ok
          (leBytes n old)

/-- PEER_REQUEST_ARRIVAL. -/
def execPeerRequestArrival (r : PeerReq) (s : State) : Host.Outcome State Fault Refusal := .next (s.peerArrives r)

/-! ### Copies (14 R278 to R280, 04 R82, R83) -/

/-- An address of a copy's far or device side: the checks of 13 R240 in execution, with the translation (14 R278). -/
def State.copyXlate (s : State) (vf d : Nat) (hnd : Bool) (sp : Space) (k : Access) (va : Nat) : Except (BitVec 10) Xlat :=
  if 2 ^ 57 ≤ va then .error (cProtect 0)
  else if 2 ^ 56 ≤ va && !hnd then .error (cProtect 1)
  else
    match s.xlate vf d va sp sp.code k with
    | .error c => .error c
    | .ok x => if x.cls = 3 then .error (cProtect 3) else .ok x

/-- The space that a side of a copy names, if translated. -/
def CpSpace.space : CpSpace → Space
  | .sc => .scratch | .cv => .convoy | .dv => .device | .pr => .peer | .hs => .host

/-- How a far end fails a line of a copy or a collective, if it does (19 R341, R342, 22 R372, R377, R378): a refused read, a refused
write, a route that has failed or an answer that does not come, a line delivered poisoned or uncorrectable. -/
def farLate (sp : Space) (wr : Bool) (st : FarStatus) : Option (BitVec 10) :=
  match st with
  | .ok => none
  | .linkDown => some (cMemerr 7 2)
  | .unsupported => if wr then some (cTranslate sp.code 7) else if sp = .peer then some (cTranslate 4 4) else some (cMemerr 7 1)
  | .poisoned => if wr then none else some (cMemerr 7 1)
  | .uncorrectable => if wr then none else some (cMemerr 7 0)

/-- A far line of a copy leaves its die: behind the HOST writes that have left it, or by a port (22 R372, R377). -/
def State.copyFar (s : State) (id : WaveId) (d : Nat) (sp : CpSpace) (adr : Nat) (data : List Byte) : Option State :=
  if sp = .pr then s.copyMsg d (waveKey id) adr data else if (s.die d).hostOut.isEmpty then some s else none

/-- One source line of a copy, with its tag; a HOST line is tagged 0x0000 (03 R57). `rd` is how the far end answers. ACC is set once
nothing stands in the way of the read (21 R362). -/
def State.copyRead (s : State) (id : WaveId) (w : Wave) (vf : Nat) (op : CopyOp) (rd : FarStatus) (va : Nat) : LineRead :=
  let d := dieOfCore w.core
  match op.ssp with
  | .sc => s.readScratch id.conv id.crew va
  | .cv => s.readCmem id.conv va
  | sp =>
    match s.copyXlate vf d op.hnd (CpSpace.space sp) .engRead va with
    | .error c => .bad s c
    | .ok x =>
      let used (s : State) : State := (s.touch x false).cache vf va x
      if !s.touchable x false then .wait
      else
        match sp with
        | .dv =>
          let pa := s.devAddr vf x va
          match s.readDevice d pa with
          | .line s b t => .line ((used s).checkedLine pa va vf x.set 2) b t
          | r => r
        | _ =>
          if x.cls = 1 && (s.boundFn vf (x.addr va / 2 ^ 44 % 256)).isNone then .bad s (cTranslate 4 4)
          else match farLate (CpSpace.space sp) false rd with
          | some c => .bad s c
          | none =>
            match s.copyFar id d sp (x.addr va) [] with
            | none => .wait
            | some s => let l := s.farLine vf x.cls (x.addr va); .line (used s) l.1 l.2

/-- The FP32 values of bytes. -/
def fp32s (b : List Byte) : List FVal := (unitsOf 4 b).map (FCode.fmt .fp32).value

/-- The line format of an 8-bit conversion. -/
def CpConv.qfmt : CpConv → QFmt
  | .int8 => .int8 | .e4m3 => .e4m3 | .e5m2 => .e5m2 | .e4m3h16 => .e4m3h16 | .e4m3h32 => .e4m3h32
  | .none | .bf16 => .int8

/-- A destination line from its source lines (14 R279). -/
def convertLine (cv : CpConv) (src_ : List (List Byte × Tag)) : List Byte × Tag :=
  let b := (src_.map Prod.fst).flatten
  match cv with
  | .none => src_.headD ([], 0)
  | .bf16 => ((fp32s b).flatMap fun v => leBytes 2 ((FCode.fmt .bf16).finish .rn false v), 0x047F)
  | c =>
    let l := qblk8 (CpConv.qfmt c) .rn (fp32s b)
    (l.flatMap fun x => leBytes 2 x, BitVec.ofNat 16 (l.headD 0 / 65536))

/-- Source lines read one after the other; the first that cannot be read answers, with its address. -/
def State.copyReads (id : WaveId) (w : Wave) (vf : Nat) (op : CopyOp) (rd : FarStatus) :
    State → List Nat → Except (LineRead × Nat) (State × List (List Byte × Tag))
  | s, [] => .ok (s, [])
  | s, va :: r =>
    match s.copyRead id w vf op rd va with
    | .line s b t =>
      match State.copyReads id w vf op rd s r with
      | .ok (s, l) => .ok (s, (b, t) :: l)
      | .error e => .error e
    | e => .error (e, va)

/-- What writing one destination line comes to. -/
inductive LineWrote where
  | done (s : State)
  | wait
  | bad (s : State) (cause : BitVec 10)

/-- One destination line of a copy written whole with its tag; `wr` is how the far end answers. -/
def State.copyWrite (s : State) (id : WaveId) (w : Wave) (vf : Nat) (op : CopyOp) (wr : FarStatus) (crew va : Nat) (b : List Byte)
    (t : Tag) : LineWrote :=
  let d := dieOfCore w.core
  match op.dsp with
  | .sc => .done (s.writeScratch (8 * id.conv + crew) (lineWrite va b (some t)))
  | .cv => .done (s.writeCmem id.conv (lineWrite va b (some t)))
  | sp =>
    match s.copyXlate vf d op.hnd (CpSpace.space sp) .engWrite va with
    | .error c => .bad s c
    | .ok x =>
      if !s.touchable x true then .wait
      else
        match sp with
        | .dv =>
          let pa := s.devAddr vf x va
          if s.memLost pa then .bad s (cMemerr 0 2)
          else if !s.canWrite d pa then .wait
          else .done ((((s.touch x true).cache vf va x).checkedLine pa va vf x.set 2).devWrite d (lineWrite pa b (some t)) .copy)
        | .pr =>
          if (s.boundFn vf (x.addr va / 2 ^ 44 % 256)).isNone then .bad s (cTranslate 4 7)
          else match farLate .peer true wr with
          | some c => .bad s c
          | none => match s.copyFar id d .pr (x.addr va) b with
            | none => .wait
            | some s => .done (((s.touch x true).cache vf va x).writePeer vf
              { line := x.addr va, bytes := b.mapIdx fun i y => (i, y), tag := some t })
        | _ =>
          match farLate .host true wr with
          | some c => .bad s c
          | none => match s.copyFar id d .hs (x.addr va) b with
            | none => .wait
            | some s =>
              let s := (s.touch x true).cache vf va x
              .done { s with hostMem := s.hostMem.writes (x.addr va) b }

/-- Completions at the head of a wave's copies are reported, in issue order (04 R83). -/
def Wave.reportCopies (w : Wave) : Wave :=
  let n := (w.copies.takeWhile fun o => o.left.isEmpty).length
  { w with copies := w.copies.drop n, cCpy := w.cCpy - n }

/-- A wave's copies replaced, completions reported. -/
def State.setCopies (s : State) (id : WaveId) (l : List CopyOp) : State :=
  match s.wave? id with
  | some w => (s.setWave id ({ w with copies := l } : Wave).reportCopies).unstall
  | none => s

/-- A copy ends with a late fault: it counts as complete, and writes no further line. -/
def State.copyFails (s : State) (id : WaveId) (i : Nat) (f : LateF) : State :=
  match s.wave? id with
  | none => s
  | some w =>
    match w.copies[i]? with
    | none => s
    | some op => (s.setCopies id (setAt w.copies i { op with left := [] })).reportLate (waveKey id) op.hnd f

/-- The replays of a copy's line, and its fault, are counted (19 R340, 25 R407). -/
def State.countCopy (s : State) (cl fails : Nat) : State :=
  let c := s.cluster cl
  s.setCluster cl { c.countFault fails with crpl := bump c.crpl (replaysOf fails) }

/-- The bytes of source that one destination line takes. -/
def srcSpan (cv : CpConv) : Nat := srcLen cv 64

/-- COPY_COMPLETE: one destination line of one outstanding copy, the `pick`th, after `fails` failed attempts, the far ends answering the
reads of its source with `rd` and its write with `wr`. Its source lines are read, and combined, in the step that writes it (DESIGN
CHOICE, log 94). -/
def State.copyStep (s : State) (id : WaveId) (pick fails : Nat) (rd wr : FarStatus) : Option State :=
  match s.wave? id, s.convoy? id.conv with
  | some w, some conv =>
    let all := w.copies.zipIdx.flatMap fun (o, i) => (List.range o.left.length).map fun j => (i, j)
    match all[pick % all.length]? with
    | none => none
    | some (i, j) =>
      match w.copies[i]? with
      | none => none
      | some op =>
        match op.left[j]? with
        | none => none
        | some (r, l, crew) =>
          let cl := clusterOfCore w.core
          let s := s.countCopy cl fails
          let at_ := op.dst + r * op.dstStride + 64 * l
          if persists fails then some (s.copyFails id i { cause := cAssay 2, faddr := BitVec.ofNat 57 at_ })
          else
            let from_ := op.src + r * op.srcStride + srcSpan op.cv * l
            match State.copyReads id w conv.vf op rd s ((List.range (srcSpan op.cv / 64)).map fun n => from_ + 64 * n) with
            | .error (.bad s cause, va) => some (s.copyFails id i { cause := cause, faddr := BitVec.ofNat 57 va })
            | .error (.again s, _) => some s
            | .error (_, _) => none
            | .ok (s, src_) =>
              let v := convertLine op.cv src_
              match s.copyWrite id w conv.vf op wr crew at_ v.1 v.2 with
              | .wait => none
              | .bad s cause => some (s.copyFails id i { cause := cause, faddr := BitVec.ofNat 57 at_ })
              | .done s =>
                match s.wave? id with
                | none => some s
                | some w => some (s.setCopies id (setAt w.copies i { op with left := dropAt op.left j }))
  | _, _ => none

/-- COPY_COMPLETE. -/
def execCopyComplete (wv : WaveId) (pick : Nat) (r : CopyTry) (s : State) : Host.Outcome State Fault Refusal :=
  happens s (s.copyStep wv pick r.fails r.rd r.wr)

/-! ### Gravel operations (06 R118 to R120, R126) -/

/-- The bits of a stream built bit by bit. -/
def bitsOf (n : Nat) (f : Nat → Bool) : Nat := (List.range n).foldl (fun m b => if f b then m ||| 2 ^ b else m) 0

/-- The bits of a register; an unset register's are zero. -/
def Gravel.bitsOf (g : Gravel) (r : Nat) : List Nat := (List.range 64).map fun e => ((look g.g r).elim [] GReg.bits)[e]?.getD 0

/-- The register's bits replaced, with fresh check bits. -/
def Gravel.setBits (g : Gravel) (r : Nat) (l : List Nat) : Gravel :=
  { g with g := ins g.g r { (g.reg r) with bits := l }, bad := g.bad.filter (· != r) }

/-- The registers and generator states (32 + class) that an operation reads. -/
def GOpKind.reads : GOpKind → List Nat
  | .put _ l _ => l
  | .and _ a b => [a, b]
  | .xnr _ a b _ => [a, b]
  | .mux _ a b c => [a, b, c]
  | .shf _ a _ => [a]
  | .mov _ a => [a]
  | .ld _ _ => []
  | .st a _ _ _ _ => [a]
  | .seed _ _ => []

/-- The new streams of an operation. None for what moves an image or seeds a generator. -/
def Gravel.result (g : Gravel) (op : GOpKind) : Option (Nat × List Nat) :=
  let all := 2 ^ g.len - 1
  let two (a b : Nat) (f : Nat → Nat → Nat) : List Nat := ((g.bitsOf a).zip (g.bitsOf b)).map fun p => f p.1 p.2
  match op with
  | .put gd _ bits => some (gd, bits)
  | .and gd a b => some (gd, two a b (· &&& ·))
  | .xnr gd a b cor => some (gd, two a b fun x y => if cor then x ^^^ y else all ^^^ (x ^^^ y))
  | .mux gd a b sel =>
    some (gd, ((two a b fun x y => x + 2 ^ g.len * y).zip (g.bitsOf sel)).map fun p =>
      let x := p.1 % 2 ^ g.len
      let y := p.1 / 2 ^ g.len
      (y &&& p.2) ||| (x &&& (all ^^^ p.2)))
  | .shf gd gs r => some (gd, (g.bitsOf gs).map fun x => (x * 2 ^ r + x / 2 ^ (g.len - r)) % 2 ^ g.len)
  | .mov gd gs => some (gd, g.bitsOf gs)
  | .ld _ _ => none
  | .st _ _ _ _ _ => none
  | .seed _ _ => none

/-- The tag record of an image (06 R120). -/
def tagRecord (m : DWord) (sh : BitVec 12) (x uns : Bool) (len : Nat) : List Byte :=
  leBytes 8 m.toNat ++ leBytes 2 sh.toNat ++ leBytes 1 (if x then 1 else 0) ++ leBytes 1 (if uns then 1 else 0) ++
    leBytes 2 len ++ List.replicate 50 0

/-- The bytes of the streams of an image: element e, bit b is bit b mod 8 of byte e·L/8 + b div 8. -/
def streamBytes (len : Nat) (l : List Nat) : List Byte := l.flatMap fun x => leBytes (len / 8) x

/-- A register from the bytes of its image; none for a record with a wrong L or a reserved bit, and an unset register where UNS
is 1. -/
def imageReg (len : Nat) (b : List Byte) : Option (Option GReg) :=
  let rec_ := b.drop (8 * len)
  let f (o n : Nat) : Nat := fieldOf rec_ o n
  if f 12 2 ≠ len ∨ 2 ^ 12 ≤ f 8 2 ∨ 2 ≤ f 10 1 ∨ 2 ≤ f 11 1 ∨ (rec_.drop 14).any (· != 0) then none
  else if f 11 1 = 1 then some none
  else
    some (some { bits := (List.range 64).map fun e => leVal ((b.drop (e * (len / 8))).take (len / 8)),
                 m := BitVec.ofNat 64 (f 0 8), s := BitVec.ofNat 12 (f 8 2), x := f 10 1 == 1 })

/-- Lines read one after the other by a unit of a die. -/
def State.readLines (d : Nat) : State → List Nat → Except (LineRead × Nat) (State × List (List Byte × Tag))
  | s, [] => .ok (s, [])
  | s, pa :: r =>
    match s.readDevice d pa with
    | .line s b t =>
      match State.readLines d s r with
      | .ok (s, l) => .ok (s, (b, t) :: l)
      | .error e => .error e
    | e => .error (e, pa)

/-- The head operation of a Gravel engine is over. -/
def State.gravelPop (s : State) (cl : Nat) (o : GOp) (f : Gravel → Gravel) : State :=
  let g := f (s.cluster cl).gravel
  (s.setGravel cl { g with ops := g.ops.drop 1 }).complete o.wave .grv

/-- Elements of a destination that hold their old or their new bits, as a free value says (06 R126). -/
def mixBits (free : Nat) (old new : List Nat) : List Nat :=
  (old.zip new).zipIdx.map fun p => if free.testBit p.2 then p.1.1 else p.1.2

/-- A GMOV.LD performed: the register as its image says it, or STREAM/LINE-FMT (06 R120). Where it persists in failing, each element
holds its old or its new bits and the tag is the image's; an image of an unset register leaves it set or unset, as bit 64 of the
free value says (DESIGN CHOICE, log 75). -/
def State.gravelLoad (s : State) (cl fails : Nat) (o : GOp) (gd : Nat) (l : List (List Byte × Tag)) : State :=
  let g := (s.cluster cl).gravel
  let late (s : State) (cause : BitVec 10) : State := s.reportLate o.wave o.hnd { cause := cause, faddr := 0 }
  let bad := g.bad.filter (· != gd)
  match if l.any fun p => fmtOf p.2 != 0x10 then none else imageReg g.len (l.map Prod.fst).flatten with
  | none => late (s.gravelPop cl o id) (cStream 3)
  | some r =>
    if !persists fails then
      s.gravelPop cl o fun g => { g with g := r.elim (del g.g gd) (ins g.g gd), bad := bad }
    else
      let s' := s.draw.gravelPop cl o fun g => match r with
        | some x => { g with g := ins g.g gd { x with bits := mixBits s.free (g.bitsOf gd) x.bits }, bad := bad }
        | none => if s.free.testBit 64 then g else { g with g := del g.g gd, bad := bad }
      late s' (cAssay 1)

/-- A GMOV.ST performed: the lines of the image, or where it persists in failing, of each element the old or the new bytes (06 R120,
R126). Its lines are written in one step, in ascending order (DESIGN CHOICE, log 95). None while they have to wait. -/
def State.gravelStore (s : State) (cl fails : Nat) (o : GOp) (gs : Nat) (m : DWord) (sh : BitVec 12) (x : Bool)
    (lines : List (Nat × Nat)) : Option State :=
  let g := (s.cluster cl).gravel
  let d := cl / 8
  match lines.find? fun p => s.memLost p.1 with
  | some p => some ((s.gravelPop cl o id).reportLate o.wave o.hnd { cause := cMemerr 0 2, faddr := BitVec.ofNat 57 p.2 })
  | none =>
    if !lines.all fun p => s.canWrite d p.1 then none
    else
      let old := (lines.take (g.len / 8)).flatMap fun p => s.devRead d p.1 64
      let new := streamBytes g.len (g.bitsOf gs)
      let n := g.len / 8
      let mixed := (List.range 64).flatMap fun e => ((if s.free.testBit e then old else new).drop (e * n)).take n
      let b := (if persists fails then mixed else new) ++ tagRecord m sh x false g.len
      let s := (lines.zipIdx).foldl (fun (s : State) p =>
        s.devWrite d (lineWrite p.1.1 ((b.drop (64 * p.2)).take 64) (some 0x1000)) .gravel) s
      let s := s.gravelPop cl o id
      some (if persists fails then s.draw.reportLate o.wave o.hnd { cause := cAssay 1, faddr := 0 } else s)

/-- GRAVEL_OP_COMPLETE: the oldest operation of the engine, after `fails` failed attempts (06 R126). After the fifth, each element of
the destination holds its old or its new bits, as a free value says. An operation that reads an uncorrectable register or generator
state ends with a late fault. With no operation pending, the failed attempts are those of the next synchronous instruction. -/
def State.gravelStep (s : State) (cl fails : Nat) : Option State :=
  let g := (s.cluster cl).gravel
  match g.ops with
  | [] => if g.holder.isSome then some (s.setGravel cl { g with fails := fails }) else none
  | o :: _ =>
    let late (s : State) (cause : BitVec 10) (faddr : Nat) : State :=
      s.reportLate o.wave o.hnd { cause := cause, faddr := BitVec.ofNat 57 faddr }
    if s.holdsBack (waveOfKey o.wave).conv 4 then none
    else if o.op.reads.any g.bad.contains then some (late (s.gravelPop cl o id) (cMemerr 6 0) 0)
    else
      let s := s.countGravel cl fails
      match o.op with
      | .seed cls v =>
        let s' := s.gravelPop cl o fun g => if persists fails && s.free.testBit 0 then g else g.seed cls v
        some (if persists fails then late s'.draw (cAssay 1) 0 else s')
      | .ld gd lines =>
        match State.readLines (cl / 8) s (lines.map Prod.fst) with
        | .error (.bad s cause, pa) =>
          some (late (s.gravelPop cl o id) cause ((lines.find? fun p => p.1 = pa).elim 0 Prod.snd))
        | .error (.again s, _) => some s
        | .error (_, _) => none
        | .ok (s, l) => some (s.gravelLoad cl fails o gd l)
      | .st gs m sh x lines => s.gravelStore cl fails o gs m sh x lines
      | op =>
        match g.result op with
        | none => none
        | some (gd, l) =>
          let s' := s.gravelPop cl o fun g => g.setBits gd (if persists fails then mixBits s.free (g.bitsOf gd) l else l)
          some (if persists fails then late s'.draw (cAssay 1) 0 else s')

/-- GRAVEL_OP_COMPLETE. -/
def execGravelOpComplete (cluster fails : Nat) (s : State) : Host.Outcome State Fault Refusal :=
  happens s (s.gravelStep cluster fails)

/-! ### K-blocks (05 R98 to R100, R109, R110) -/

/-- The ring after its first entries are freed. -/
def Ring.pops (r : Ring) (n : Nat) : Ring :=
  { r with head := r.head + n, free := r.free + n, ready := r.ready.filter (r.head + n ≤ ·) }

/-- An MMA meets a late fault: the ring is settled (05 R110), and the fault is reported, of a shadow group at its MCMT (R105). -/
def State.mmaFails (s : State) (cl e : Nat) (o : MOp) (sh : Option Nat) (f : LateF) : State :=
  let s := s.settleRing cl e o.wave
  match sh with
  | some g =>
    let x := s.engine cl e
    s.setEngine cl e { x with shFault := if (look x.shFault g).isSome then x.shFault else ins x.shFault g f }
  | none => s.reportLate o.wave o.hnd f

/-- An entry of the ring, counted from its head, as the A operand of an MMA's K-block; its scale bytes are read where that is of the S4
family. -/
def State.ringEntry (s : State) (k : Nat) (r : Ring) (q : Mma) (i : Nat) : Except LineRead (KOp × List Tag) :=
  let slot := (r.head + i) % r.entries
  match s.readScratch k r.crew (r.base + 128 * slot), s.readScratch k r.crew (r.base + 128 * slot + 64) with
  | .line _ b0 t0, .line _ b1 t1 =>
    if isS4 (fmtOf (if q.kb = 0 then t0 else t1)) then
      match s.readScratch k r.crew (r.sbase + 32 * slot) 32 with
      | .line _ sc _ => .ok (aOperand q.cls q.kb (b0, t0) (b1, t1) sc)
      | x => .error x
    else .ok (aOperand q.cls q.kb (b0, t0) (b1, t1) [])
  | .line _ _ _, x => .error x
  | x, _ => .error x

/-- The device takes a window for a context (05 R106, 20 R351): another owner's copy is spilled, and the context's own on other
clusters (20 R351); then the context's value is restored where it has spilled one, else it is +0.0 in FP32 mode. The answer is none
while that has to wait, else the state and the access that failed, if one did. -/
def State.takeWindow (s : State) (cl e : Nat) (ctx : BitVec 16) (w : Nat) : Option (State × Option LateF) :=
  if (s.engine cl e).ownerOf w = ctx then some (s, none)
  else
    let away := if (s.engine cl e).ownerOf w = 0 then some s else s.spillWindow cl e w
    let away := (s.clusters.map Prod.fst).foldl (fun s c => s.bind fun s =>
      if c ≠ cl ∧ (s.engine c e).ownerOf w = ctx then s.spillWindow c e w else some s) away
    away.bind fun s =>
      let x := s.engine cl e
      let fresh : Engine := { x.winZero w 1 with owner := ins x.owner w ctx, mode64 := x.mode64 &&& ~~~ (1#512 <<< w) }
      let base := s.csaOf ctx
      let put_ (y : Engine) (f : Option (BitVec 10 × Nat)) : Option (State × Option LateF) :=
        some (s.setEngine cl e y, f.map fun f => { cause := f.1, faddr := BitVec.ofNat 57 f.2 })
      if base = 0 then put_ fresh none
      else
        match s.saveRead (vfOf ctx) (cl / 8) (wmapOf base e w) 1, s.saveRead (vfOf ctx) (cl / 8) (slotOfWindow base e w) 4096 with
        | .error f, _ => put_ fresh (some f)
        | .ok m, r =>
          if !s.canSave (vfOf ctx) (cl / 8) (wmapOf base e w) 1 then none
          else if leVal m / 4 ^ (w % 4) % 2 = 0 then put_ fresh none
          else
            match r with
            | .error f => put_ fresh (some f)
            | .ok b =>
              if !s.canSave (vfOf ctx) (cl / 8) (slotOfWindow base e w) 4096 then none
              else put_ ((fresh.winWrite none w 0 b).setModes w 1 (leVal m / 4 ^ (w % 4) % 4 = 3)) none

/-- Windows taken one after the other, up to the first access that fails. -/
def State.takeWindows (s : State) (cl e : Nat) (ctx : BitVec 16) (l : List Nat) : Option (State × Option LateF) :=
  l.foldl (fun r w => r.bind fun p => if p.2.isSome then some p else p.1.takeWindow cl e ctx w) (some (s, none))

/-- The windows that an operation reads or writes, those of the shadows that an MCMT commits among them. -/
def Engine.winsOf (x : Engine) : MOpKind → List Nat
  | .mcmt g true => (x.shadows.filter fun y => y.group == g && y.gen == 0 && y.live).map Shadow.win
  | op => op.wins

/-- An operation finds its windows gone: its convoy has come to another cluster since its commit, or they were spilled for another owner.
The device takes them first, so that a context's window is one location wherever its convoys run (20 R351). The answer is none where the
windows are there; else the step that takes them, none while it has to wait. -/
def State.windowStep (s : State) (cl e : Nat) (o : MOp) (fails : State → LateF → State) : Option (Option State) :=
  let x := s.engine cl e
  match x.holder.bind s.convoy? with
  | none => none
  | some cv =>
    let l := x.winsOf o.op
    if l.all fun w => x.ownerOf w == cv.ctxid then none
    else some ((s.takeWindows cl e cv.ctxid l).map fun p => (p.2.elim p.1 (fails p.1)).unstall)

/-- The entries of a K-block's rows, up to the first that cannot be read. -/
def State.ringRows (s : State) (k : Nat) (r : Ring) (q : Mma) : List Nat → List (KOp × List Tag) × Option LineRead
  | [] => ([], none)
  | i :: l =>
    match s.ringEntry k r q i with
    | .error x => ([], some x)
    | .ok a =>
      let (t, x) := s.ringRows k r q l
      (a :: t, x)

/-- The rows that an MMA's next K-block takes: those of its entries' first K-block; else up to `rows` whose entries are ready. -/
def Mma.rowsNext (q : Mma) (r : Ring) (rows : Nat) : Nat :=
  if q.kb ≠ 0 then q.grp
  else ((List.range (min (max rows 1) (q.m - q.row))).takeWhile fun i => r.ready.contains (r.head + i)).length

/-- The replays of a K-block, and its fault, are counted (05 R110, 25 R407). -/
def State.countMatrix (s : State) (cl fails : Nat) : State :=
  let c := s.cluster cl
  s.setCluster cl { c.countFault fails with mrpl := bump c.mrpl (replaysOf fails) }

/-- MATRIX_KBLOCK: the next K-block of the MMA at the head of an engine, for up to `rows` rows; `tries` lists what the array does in its
attempts. Rows before one that faults are accumulated, and the MMA stops there (DESIGN CHOICE, log 96). -/
def State.kblockStep (s : State) (cl e rows : Nat) (tries : List KTry) : Option State :=
  let x := s.engine cl e
  match x.ops, x.ring, x.holder with
  | o :: rest, some r, some k =>
    match o.op with
    | .mma q =>
      let n := q.rowsNext r rows
      if x.tile.isSome || passesOf q.cls ≤ q.pass || n = 0 || s.holdsBack k 5 then none
      else if let some r := s.windowStep cl e o fun s f => s.mmaFails cl e o q.sh f then r
      else
        match s.ringRows k r q (List.range n) with
        | (_, some (.again s)) => some s
        | (_, some .wait) => none
        | (l, stop) =>
          let x := q.sh.elim x fun g => x.openShadows g (coveredWins q.cls q.w0 q.m)
          let (fails, y, fault) := x.kblock q l tries
          match fault, stop with
          | some c, _ => some (((s.countMatrix cl fails).setEngine cl e y).mmaFails cl e o q.sh { cause := c, faddr := 0 })
          | none, some (.bad s _) =>
            some (((s.countMatrix cl fails).setEngine cl e y).mmaFails cl e o q.sh { cause := cMemerr 5 0, faddr := 0 })
          | none, _ =>
            let (t, done) := q.next n
            let y : Engine := { y with ops := { o with op := .mma t } :: rest, ring := some (if done then r.pops n else r) }
            let s := (s.countMatrix cl fails).setEngine cl e y
            some (if done then (s.wakeRing k e).unstall else s)
    | _ => none
  | _, _, _ => none

/-- MATRIX_KBLOCK. -/
def execMatrixKblock (cluster e : Nat) (r : RowTry) (s : State) : Host.Outcome State Fault Refusal :=
  happens s (s.kblockStep cluster e r.rows r.tries)

/-! ### Matrix operations (05 R94, R101, R102, R105) -/

/-- The Slate line that line i of an MLDB goes to: 512 data lines, then the 128 lines of the scale plane. -/
def slateAt (page i : Nat) : Nat := if i < 512 then 32768 * page + 64 * i else 32768 * (page + 1) + 64 * (i - 512)

/-- The window and byte offset of line i of an MSTC or MLDC of n windows: 64 bytes of one window row. -/
def windowLine (w0 n i : Nat) : Nat × Nat :=
  (w0 + i % (2 * n) / 2, 128 * (i / (2 * n)) + 64 * (i % 2))

/-- The shadows of a group that its next MCMT commits. -/
def Engine.pending (x : Engine) (g : Nat) : List Shadow := x.shadows.filter fun y => y.group == g && y.gen == 0 && y.live

/-- The group's shadows take the place of their windows, bad words with them. -/
def Engine.commitGroup (x : Engine) (g : Nat) : Engine :=
  (x.pending g).foldl (fun x y =>
    { x with win := (List.range 4096).foldl (fun m i => put 0 m (4096 * y.win + i) (lookD y.bytes i 0)) x.win,
             winBad := (x.winBad.filter fun b => b / 4096 != y.win) ++ y.bad.map (4096 * y.win + ·) }) x

/-- The group is empty, but for the shadows of MMA.SHs behind a later MCMT of it. -/
def Engine.freeGroup (x : Engine) (g : Nat) : Engine :=
  { x with shadows := (x.shadows.filter fun y => y.group != g || y.gen != 0).map fun y =>
             if y.group = g then { y with gen := y.gen - 1 } else y,
           shFault := del x.shFault g }

/-- The late fault of a group's commit: the first of its operations', else an uncorrectable word of its shadows (05 R105, R111). -/
def Engine.groupFault (x : Engine) (g : Nat) : Option LateF :=
  (look x.shFault g).orElse fun _ =>
    if (x.pending g).any fun y => !y.bad.isEmpty then some { cause := cMemerr 5 0, faddr := 0 } else none

/-- One line of an MLDB, MSTC or MLDC that a free value picks: its number and the line. -/
def State.pickLine (s : State) (lines : List (Nat × Nat)) (left : List Nat) : Option (Nat × Nat × Nat × List Nat) :=
  let j := s.free % left.length
  match left[j]? with
  | none => none
  | some i => (lines[i]?).map fun p => (i, p.1, p.2, dropAt left j)

/-- A line that an MLDB or MLDC reads; a late fault abandons the operation. None while the read has to wait. -/
def State.engineRead (s : State) (cl e : Nat) (o : MOp) (pa va : Nat) (rest : List MOp)
    (take : State → List Byte → Tag → State) : Option State :=
  let d := cl / 8
  let key := waveOfKey o.wave
  let vf := ((s.convoy? key.conv).map Convoy.vf).getD 0
  let set := (s.walk vf d va).elim 0 Xlat.set
  match s.readDevice d pa with
  | .line s b t => some (take (s.checkedLine pa va vf set 1) b t)
  | .wait => none
  | .again s => some s
  | .bad s cause => some ((s.matrixDone cl e o rest).reportLate o.wave o.hnd { cause := cause, faddr := BitVec.ofNat 57 va })

/-- The matrix operation at the head of an engine meets a late fault and is abandoned (05 R105, R110). -/
def State.mtxFails (s : State) (cl e : Nat) (o : MOp) (f : LateF) : State :=
  match o.op with
  | .mma q => s.mmaFails cl e o q.sh f
  | _ => (s.matrixDone cl e o ((s.engine cl e).ops.drop 1)).reportLate o.wave o.hnd f

/-- MATRIX_OP_COMPLETE: the operation at the head of an engine goes on by one line, or completes. -/
def State.matrixStep (s : State) (cl e : Nat) : Option State :=
  let x := s.engine cl e
  let d := cl / 8
  if x.tile.isSome then none
  else
    match x.ops with
    | [] => none
    | o :: rest =>
      let fin (s : State) : State := s.matrixDone cl e o rest
      let goOn (s : State) (y : Engine) (op : MOpKind) (left : List Nat) : State :=
        if left.isEmpty then (s.setEngine cl e y).matrixDone cl e o rest
        else s.setEngine cl e { y with ops := { o with op := op } :: rest }
      if s.holdsBack (waveOfKey o.wave).conv 5 then none
      else if let some r := s.windowStep cl e o fun s f => s.mtxFails cl e o f then r
      else match o.op with
      | .mring => some (fin s)
      | .mzero w0 n => some (fin (s.setEngine cl e (x.winZero w0 n)))
      | .mma q => if passesOf q.cls ≤ q.pass then some (fin s) else none
      | .mcmt g commit =>
        let s := fin (s.setEngine cl e ((if commit then x.commitGroup g else x).freeGroup g))
        some (if commit then (x.groupFault g).elim s fun f => s.reportLate o.wave o.hnd f else s)
      | .mldb page lines left =>
        match s.pickLine lines left with
        | none => some (fin s)
        | some (i, pa, va, left') =>
          s.draw.engineRead cl e o pa va rest fun s b t =>
            let y := s.engine cl e
            let at_ := slateAt page i
            goOn s { y with slate := (y.slate.setBytes at_ b).setTag at_ t, slateBad := y.slateBad.filter (· != at_) }
              (.mldb page lines left') left'
      | .mldc w0 lines left =>
        match s.pickLine lines left with
        | none => some (fin s)
        | some (i, pa, va, left') =>
          s.draw.engineRead cl e o pa va rest fun s b _ =>
            let (w, off) := windowLine w0 (lines.length / 64) i
            goOn s ((s.engine cl e).winWrite none w off b) (.mldc w0 lines left') left'
      | .mstc w0 modes lines left =>
        match s.pickLine lines left with
        | none => some (fin s)
        | some (i, pa, va, left') =>
          let (w, off) := windowLine w0 modes.length i
          let late (cause : BitVec 10) : Option State :=
            some ((fin s.draw).reportLate o.wave o.hnd { cause := cause, faddr := BitVec.ofNat 57 va })
          if x.winBadAt none w off 64 then late (cMemerr 5 0)
          else if s.memLost pa then late (cMemerr 0 2)
          else if !s.canWrite d pa then none
          else
            let tag : Tag := if modes[w - w0]?.getD false then 0x0600 else 0x0500
            let s := s.draw.devWrite d (lineWrite pa (x.winRead none w off 64) (some tag)) .matrix
            some (goOn s (s.engine cl e) (.mstc w0 modes lines left') left')

/-- MATRIX_OP_COMPLETE. -/
def execMatrixOpComplete (cluster e : Nat) (s : State) : Host.Outcome State Fault Refusal := happens s (s.matrixStep cluster e)

/-! ### Tile tasks (05 R107, R108, 18 R317) -/

/-- The task of an engine ends without retiring: its record is posted and its grid fails. None while the record has to wait. -/
def State.tileFault (s : State) (cl e : Nat) (t : TileTask) (f : LateF) : Option State :=
  let n := t.ctx.toNat - 1
  let vf := n / 64
  let q := n % 64
  let g := s.grid? t.grid
  let s := (s.setEngine cl e { s.engine cl e with tile := none }).unstall
  let s := s.failGrid t.grid f t.conv
  let r := gridRecord 3 f.cause (g.elim 0 Grid.seq) (g.elim 0 Grid.utag) f.faddr.toNat (t.x + 65536 * t.y)
  if g.elim true Grid.noRecord then some s else s.postCring vf q r

/-- The Slate of an engine has a free page for a task: a saved convoy's pages go to its image if they fill it (20 R352). -/
def State.slateRoom (s : State) (cl e : Nat) : Option State :=
  let x := s.engine cl e
  if (List.range 64).any fun p => x.page p = .empty then some s else s.slateWrite cl e

/-- TILE_TASK_RELEASE: the oldest released task goes to the lowest engine that is free and not reserved, which takes its windows, from
a0 on, for the task's context (DESIGN CHOICE, log 97). -/
def State.tileRelease (s : State) (cl : Nat) : Option State :=
  let c := s.cluster cl
  match c.tileReady, (List.range 4).find? fun e => s.engineFree cl e && (s.engine cl e).tile.isNone with
  | t :: r, some e =>
    ((s.slateRoom cl e).bind fun s => s.takeWindows cl e t.ctx (coveredWins t.cls 0 t.m)).bind fun p =>
      let s := p.1.setCluster cl { p.1.cluster cl with tileReady := r }
      let s := ((s.setEngine cl e { s.engine cl e with tile := some t }).wakeTiles cl).unstall
      match p.2 with
      | none => some s
      | some f => s.tileFault cl e t f
  | _, _ => none

/-- TILE_TASK_RELEASE. -/
def execTileTaskRelease (cluster : Nat) (s : State) : Host.Outcome State Fault Refusal := happens s (s.tileRelease cluster)

/-- Where an access of a tile task goes: translation and physical address, or its cause (03 R46, R50; 19 R341: space code 6). -/
def State.tileAdr (s : State) (cl : Nat) (t : TileTask) (k : Access) (va : Nat) : Except (BitVec 10) (Xlat × Nat) :=
  if 2 ^ 57 ≤ va then .error (cProtect 0)
  else if 2 ^ 56 ≤ va then .error (cProtect 1)
  else
    match s.xlate (vfOf t.ctx) (cl / 8) va .device 6 k with
    | .error c => .error c
    | .ok x => .ok (x, s.devAddr (vfOf t.ctx) x va)

/-- A read of a tile task, translated in execution. -/
def State.tileRead (s : State) (cl : Nat) (t : TileTask) (va : Nat) : LineRead :=
  match s.tileAdr cl t .engRead va with
  | .error c => .bad s c
  | .ok (x, pa) =>
    if !s.touchable x false then .wait
    else
      match s.readDevice (cl / 8) pa with
      | .line s b g => .line ((((s.touch x false).cache (vfOf t.ctx) va x).checkedLine pa va (vfOf t.ctx) x.set 1)) b g
      | r => r

/-- Reads of lines, with the first that does not answer its line. -/
def State.tileReads (cl : Nat) (t : TileTask) : State → List Nat → Except (LineRead × Nat) (State × List (List Byte × Tag))
  | s, [] => .ok (s, [])
  | s, va :: r =>
    match s.tileRead cl t va with
    | .line s b g =>
      match State.tileReads cl t s r with
      | .ok (s, l) => .ok (s, (b, g) :: l)
      | .error f => .error f
    | x => .error (x, va)

/-- The bytes of one row of C. -/
def tileRow (cls : MCls) : Nat := columnsOf cls * elemBytes cls

/-- The accumulators of a task set from, or read as, the rows of C. -/
def tileWindow (cls : MCls) (i j : Nat) : Nat × Nat :=
  let per := 64 / elemBytes cls
  elemAt cls 0 i (j * per)

/-- The K-blocks of a task, page after page and in ascending K, each for all its rows (05 R107, R109): the failed attempts of each, the
engine, and the fault that ends it. Lines of the S4 family raise FMT-UNSUP whatever stands beside them. -/
def tileCompute (cls : MCls) (m : Nat) (a : Nat → Nat → Nat → (List Byte × Tag) × (List Byte × Tag)) (page : Nat → Img) (npg : Nat)
    (tries : Nat → List KTry) (x : Engine) : List Nat × Engine × Option (BitVec 10) :=
  let kbs := (List.range npg).flatMap fun g => (List.range (passesOf cls)).flatMap fun q =>
    (List.range (kblocksOf cls)).map fun kb => (g, q, kb)
  kbs.zipIdx.foldl (fun (r : List Nat × Engine × Option (BitVec 10)) p =>
    if r.2.2.isSome then r
    else
      let ((g, q, kb), n) := p
      let o : Mma := { cls := cls, page := 0, s4 := false, w0 := 0, m := m, sh := none, betas := none, pass := q, row := 0, kb := kb,
                       grp := m }
      let rows := (List.range m).map fun i => aOperand cls kb (a g q i).1 (a g q i).2 []
      let y : Engine := { r.2.1 with slate := page g, slateBad := [] }
      let tags := rows.flatMap Prod.snd ++ (y.bOperands o).flatMap Prod.snd
      if tags.any fun t => isS4 (fmtOf t) then (r.1, r.2.1, some (cMatrix 12))
      else
        let z := y.kblock o rows (tries n)
        (r.1 ++ [z.1], z.2)) ([], x, none)

/-- What a tile task's reads and K-blocks come to: a read does not answer; or the failed attempts, the engine with the results, the
fault, and the writes of C with their virtual addresses. -/
structure TileOut where
  s : State
  fails : List Nat
  x : Engine
  fault : Option (BitVec 10)
  out : List (Nat × List Byte)

/-- The work of a tile task (05 R107): its results are accumulated in the windows that it has taken. -/
def State.tileResult (s : State) (cl e : Nat) (t : TileTask) (tries : Nat → List KTry) : Except (LineRead × Nat) TileOut :=
  let p := passesOf t.cls
  let rowLines := tileRow t.cls / 64
  let cVas := (List.range t.m).flatMap fun i => (List.range rowLines).map fun j => t.cbase + i * t.cstride + 64 * j
  let aVas := (List.range t.m).flatMap fun i => (List.range (2 * t.npg * p)).map fun j => t.abase + i * t.astride + 64 * j
  let bVas := (List.range (512 * t.npg)).map fun j => t.bbase + 64 * j
  match State.tileReads cl t s aVas with
  | .error f => .error f
  | .ok (s, al) =>
    match State.tileReads cl t s bVas with
    | .error f => .error f
    | .ok (s, bl) =>
      match if t.acc then State.tileReads cl t s cVas else .ok (s, []) with
      | .error f => .error f
      | .ok (s, old) =>
        let none_ : List Byte × Tag := ([], 0)
        let a (g q i : Nat) := let n := i * (2 * t.npg * p) + 2 * (g * p + q); (al[n]?.getD none_, al[n + 1]?.getD none_)
        let page (g : Nat) : Img := (((bl.drop (512 * g)).take 512).zipIdx).foldl (fun (m : Img) q =>
          (m.setBytes (64 * q.2) q.1.1).setTag (64 * q.2) q.1.2) Img.empty
        let place (n : Nat) : Nat × Nat := tileWindow t.cls (n / rowLines) (n % rowLines)
        let n := (coveredWins t.cls 0 t.m).length
        let x := s.engine cl e
        let y := (old.zipIdx).foldl (fun (y : Engine) q => let w := place q.2; y.winWrite none w.1 w.2 q.1.1)
          ((x.winZero 0 n).setModes 0 n (t.cls = .d64))
        let (fails, z, fault) := tileCompute t.cls t.m a page t.npg tries y
        .ok { s := s, fails := fails, x := { z with slate := x.slate, slateBad := x.slateBad }, fault := fault,
              out := (cVas.zipIdx).map fun q => let w := place q.2; (q.1, z.winRead none w.1 w.2 64) }

/-- The first write of C that cannot be made, with its cause. -/
def State.tileBad (s : State) (cl : Nat) (t : TileTask) (l : List Nat) : Option LateF :=
  l.findSome? fun va => match s.tileAdr cl t .engWrite va with
    | .error c => some { cause := c, faddr := BitVec.ofNat 57 va }
    | .ok x => if s.memLost x.2 then some { cause := cMemerr 0 2, faddr := BitVec.ofNat 57 va } else none

/-- Whether a write of C may be performed now. -/
def State.tileMay (s : State) (cl : Nat) (t : TileTask) (va : Nat) : Bool :=
  match s.tileAdr cl t .engWrite va with
  | .ok (x, pa) => s.touchable x true && s.canWrite (cl / 8) pa
  | .error _ => false

/-- The lines of C written, each with the tag of its class, in one step and in ascending order (DESIGN CHOICE, log 95); translations are
those of the state `q`. -/
def State.tilePut (q : State) (cl : Nat) (t : TileTask) (s : State) (l : List (Nat × List Byte)) : State :=
  l.foldl (fun (s : State) p => match q.tileAdr cl t .engWrite p.1 with
    | .ok (x, pa) => (((s.touch x true).cache (vfOf t.ctx) p.1 x).checkedLine pa p.1 (vfOf t.ctx) x.set 1).devWrite (cl / 8)
        (lineWrite pa p.2 (some (if t.cls = .d64 then 0x0600 else 0x0500))) .matrix
    | .error _ => s) s

/-- A task leaves its engine as retired: its tile stands on its context's board, and tasks that waited for it are released. -/
def State.tileLeave (s : State) (cl e : Nat) (t : TileTask) : State :=
  let s := s.setEngine cl e { s.engine cl e with tile := none }
  let c := s.cluster cl
  let b := lookD c.boards t.ctx.toNat Board.fresh
  let c := { c with boards := ins c.boards t.ctx.toNat { b with retired := b.retired ++ [(t.x, t.y)] } }
  (s.setCluster cl c.promote).unstall

/-- The word at DONE rises by one, as an atomic at DIE scope, and the task retires (05 R107). None while that has to wait. -/
def State.tileDone (s : State) (cl e : Nat) (t : TileTask) : Option State :=
  match s.tileBad cl t [t.done], s.tileAdr cl t .engWrite t.done with
  | some f, _ => s.tileFault cl e t f
  | none, .error _ => none
  | none, .ok (x, pa) =>
    let d := cl / 8
    let used (s : State) : State := (s.touch x true).cache (vfOf t.ctx) t.done x
    if !s.touchable x true then none
    else if s.untouched x true then some (used s)
    else if !s.atomReady d (lineOf pa) false then none
    else
      let s := used s
      let v := s.devVal (homeDie pa) pa 4 + 1
      some ((s.writeFrom (homeDie pa) d (lineWrite pa (leBytes 4 v) none) .matrix).tileLeave cl e t)

/-- TILE_TASK_RETIRE: the task's results are written to C, and the word at DONE rises; tasks that waited for it are released. A fault
ends the task instead. `tries` gives by number what the array does in the attempts of its K-blocks. -/
def State.tileRetire (s : State) (cl e : Nat) (tries : List (Nat × List KTry)) : Option State :=
  match (s.engine cl e).tile with
  | none => none
  | some t =>
    if t.stored then s.tileDone cl e t
    else
      match s.tileResult cl e t fun n => ((tries.find? fun p => p.1 == n).map Prod.snd).getD [] with
      | .error (.bad s c, va) => s.tileFault cl e t { cause := c, faddr := BitVec.ofNat 57 va }
      | .error (.again s, _) => some s
      | .error (_, _) => none
      | .ok r =>
        let s := (r.fails.foldl (fun s n => s.countMatrix cl n) r.s).setEngine cl e r.x
        match r.fault with
        | some c => s.tileFault cl e t { cause := c, faddr := 0 }
        | none =>
          match s.tileBad cl t (r.out.map Prod.fst) with
          | some f => s.tileFault cl e t f
          | none =>
            if !(r.out.map Prod.fst).all fun va => s.tileMay cl t va then none
            else
              let s := State.tilePut s cl t s r.out
              some (if t.done = 0 then s.tileLeave cl e t
                else s.setEngine cl e { s.engine cl e with tile := some { t with stored := true } })

/-- TILE_TASK_RETIRE. -/
def execTileTaskRetire (cluster : Nat) (r : TileTry) (s : State) : Host.Outcome State Fault Refusal :=
  happens s (s.tileRetire cluster r.engine r.tries)

/-- The MEMERR causes that are raised, by structure and event (19 R342). -/
def memerrOf (structures : List Nat) (cause : BitVec 10) : Bool :=
  let st := cause.toNat / 8 % 8
  let ev := cause.toNat % 8
  cause.toNat / 64 == 13 && structures.contains st &&
    (ev == 0 || ev == 1 && [0, 1, 7].contains st || ev == 2 && [0, 7].contains st)

/-- TILE_TASK_FAULT: a running task meets an ASSAY or memory error. -/
def execTileTaskFault (cluster e : Nat) (cause : BitVec 10) (faddr : BitVec 57) (s : State) :
    Host.Outcome State Fault Refusal :=
  happens s (match (s.engine cluster e).tile with
    | some t => if cause = cAssay 0 || memerrOf [0, 1, 4, 5] cause then s.tileFault cluster e t { cause := cause, faddr := faddr }
      else none
    | none => none)

/-! ### Collectives (14 R286, 22 R381) -/

/-- Bytes of an element. -/
def CollTy.bytes : CollTy → Nat
  | .b => 2
  | .f | .s32 | .n32 => 4

/-- The tag of a result line. -/
def CollTy.tag : CollTy → Tag
  | .f => 0x0500 | .b => 0x047F | .s32 | .n32 => 0

/-- The format of a floating type. -/
def CollTy.fmt? : CollTy → Option Fmt
  | .f => some (FCode.fmt .fp32)
  | .b => some (FCode.fmt .bf16)
  | .s32 | .n32 => none

/-- Two elements combined by .SUM, .MAX or .MIN: floating sums round RN; .S32 and .N32 wrap. The maximum and minimum of floating
values are those of FMAX and FMIN. -/
def collPair (op : CollOp) (ty : CollTy) (a b : Nat) : Nat :=
  match CollTy.fmt? ty with
  | some f =>
    match op with
    | .max => minMaxBits f true a b
    | .min => minMaxBits f false a b
    | _ => f.add .rn false a b
  | none =>
    let less : Bool := if ty = .s32 then (BitVec.ofNat 32 a).toInt < (BitVec.ofNat 32 b).toInt else a < b
    match op with
    | .max => if less then b else a
    | .min => if less then a else b
    | _ => (a + b) % 2 ^ 32

/-- Values combined in a tree whose order a number chooses: neighbours are combined one pair at a time (10 R192, 04 R89). -/
def collTree (f : Nat → Nat → Nat) : Nat → Nat → List Nat → Nat
  | 0, _, l => l.headD 0
  | _ + 1, _, [] => 0
  | _ + 1, _, [x] => x
  | n + 1, c, x :: y :: r =>
    let l := x :: y :: r
    let i := c % (l.length - 1)
    collTree f n (c / (l.length - 1)) (l.take i ++ [f (l[i]?.getD 0) (l[i + 1]?.getD 0)] ++ l.drop (i + 2))

/-- The combined element of all members: the order of the tree, and of its leaves, is free. -/
def collElem (op : CollOp) (ty : CollTy) (c : Nat) (l : List Nat) : Nat :=
  let n := l.length
  let t := collTree (collPair op ty) n (c / 2 ^ 64) (shuffle n (c % 2 ^ 64) l)
  match op, CollTy.fmt? ty with
  | .mean, some f => f.finish .rn false ((f.value t).div (ofScaled false n 0))
  | _, _ => t

/-- The bytes of a combined range, element by element; the k-th element takes the free value of k. -/
def collBytes (o : CollOp') (free : Nat → Nat) (l : List (List Byte)) (from_ n : Nat) : List Byte :=
  let b := CollTy.bytes o.ty
  (List.range (n / b)).flatMap fun k =>
    leBytes b (collElem o.op o.ty (free k) (l.map fun x => leVal ((x.drop (from_ + b * k)).take b)))

/-- A live member of a table: rank, device and function. -/
def State.members (s : State) (vf d table : Nat) : List (Nat × Nat × Nat) :=
  let n := (s.tableVal vf d table 4 2).getD 0
  (List.range n).filterMap fun r => match s.tableVal vf d table (64 + 8 * r) 8 with
    | some m => if m.testBit 15 then some (r, m % 256, m / 256 % 128) else none
    | none => none

/-- The lines of a range as a collective reaches them: virtual address, translation and physical address of each; or the first fault. -/
def State.collLines (s : State) (vf d : Nat) (hnd : Bool) (k : Access) (a n : Nat) : Except LateF (List (Nat × Xlat × Nat)) :=
  ((List.range (n / 64)).map fun j => a + 64 * j).mapM fun va =>
    match s.copyXlate vf d hnd .device k va with
    | .error e => .error { cause := e, faddr := BitVec.ofNat 57 va }
    | .ok x => .ok (va, x, s.devAddr vf x va)

/-- What a collective gives this member: `of` is each member's source, `pos` this one's place among the live members (14 R286, 22
R381). -/
def collResult (o : CollOp') (r : List (Nat × Nat × Nat)) (of : Nat × Nat × Nat → List Byte) (pos : Nat) (free : Nat → Nat) :
    List Byte :=
  match o.op with
  | .bcast => (r.find? fun m => m.1 == o.root).elim [] of
  | .gath => r.flatMap fun m => (of m).take o.n
  | .rsum => collBytes o free (r.map of) (pos * o.n) o.n
  | .sum | .max | .min | .mean => collBytes o free (r.map of) 0 o.n

/-- The result of a collective written, with ACC and DTY of its pages set; in one step, and in ascending order (DESIGN CHOICE, log 95). -/
def State.collWrite (s : State) (vf d : Nat) (tag : Tag) (src_ dst_ : List (Nat × Xlat × Nat)) (out : List Byte) : State :=
  let s := src_.foldl (fun (s : State) p => (s.touch p.2.1 false).cache vf p.1 p.2.1) s
  dst_.zipIdx.foldl (fun (s : State) p => ((s.touch p.1.2.1 true).cache vf p.1.1 p.1.2.1).devWrite d
    (lineWrite p.1.2.2 ((out.drop (64 * p.2)).take 64) (some tag)) .copy) s

/-- A COLL's number: (GID, SEQ), by which members match operations (22 R381). -/
def CollOp'.no (o : CollOp') : Nat := 2 ^ 64 * o.gid + o.seq

/-- The messages of a COLL, one to each other live member, with the device. -/
def State.collMsgs (s : State) (key vf d : Nat) (o : CollOp') : List (CwMsg × Nat) :=
  let self := (s.tableVal vf d o.table 6 2).getD 0
  ((s.members vf d o.table).filter fun m => m.1 != self).map fun m => (.coll key o.no m.2.1, m.2.1)

/-- Those that no port has started, of a wave's COLLs. -/
def State.collUnsent (s : State) (id : WaveId) (w : Wave) (vf : Nat) : List (CwMsg × Nat) :=
  (w.doms.flatMap fun x => match x with
    | .coll o _ => s.collMsgs (waveKey id) vf (dieOfCore w.core) o
    | _ => []).filter fun m => s.flying m.1 = 0

/-- Messages of a wave's COLLs enter their ports, if some can. -/
def State.collSend (s : State) (id : WaveId) : Option State :=
  match s.wave? id, s.convoy? id.conv with
  | some w, some cv =>
    let l := s.collUnsent id w cv.vf
    let tell (s : State) (m : CwMsg × Nat) : Option State := s.tellDev (dieOfCore w.core) m.2 0 m.1 []
    if l.any fun m => (tell s m).isSome then some (l.foldl (fun s m => (tell s m).getD s) s) else none
  | _, _ => none

/-- A COLL is over: its messages await nothing. -/
def State.collOver (s : State) (key : Nat) (o : CollOp') : State :=
  s.forget fun m => match m with
    | .coll k q _ => k == key && q == o.no
    | _ => false

/-- COLL_COMPLETE: every live member's source has come (`data`, by rank; this device's own is read here); `agree` says whether the
members' operands do; every message to another member has entered its port. Where they do not, or the root of a .BCAST is gone, or a line cannot be reached, it ends with a late
fault. -/
def State.collStep (s : State) (id : WaveId) (data : List (List Byte)) (agree : Bool) : Option State :=
  match s.wave? id, s.convoy? id.conv with
  | some w, some conv =>
    match w.doms.zipIdx.findSome? fun p => match p.1 with
        | .coll o h => some (p.2, o, h)
        | _ => none with
    | none => none
    | some (i, o, hnd) =>
      let vf := conv.vf
      let d := dieOfCore w.core
      let fin (s : State) : State :=
        let s := s.collOver (waveKey id) o
        match s.wave? id with
        | some w => s.setDoms id (setAt w.doms i .done)
        | none => s
      let late (s : State) (f : LateF) : Option State := some ((fin s).reportLate (waveKey id) hnd f)
      let r := s.members vf d o.table
      let self := (s.tableVal vf d o.table 6 2).getD 0
      let srcBytes := if o.op = .rsum then r.length * o.n else o.n
      let dstBytes := if o.op = .gath then r.length * o.n else o.n
      if (s.collMsgs (waveKey id) vf d o).any fun m => s.flying m.1 = 0 then none
      else if !agree then late s { cause := cQueue 7, faddr := 0 }
      else if o.op = .bcast && !(r.any fun m => m.1 == o.root) then late s { cause := cQueue 6, faddr := 0 }
      else
        match s.collLines vf d hnd .engRead o.src srcBytes, s.collLines vf d hnd .engWrite o.dst dstBytes with
        | .error f, _ => late s f
        | .ok src_, dst_ =>
          match State.readLines d s (src_.map fun p => p.2.2) with
          | .error (.bad s cause, pa) =>
            late s { cause := cause, faddr := BitVec.ofNat 57 ((src_.find? fun p => p.2.2 == pa).elim 0 Prod.fst) }
          | .error (.again s, _) => some s
          | .error (_, _) => none
          | .ok (s, own) =>
            match dst_ with
            | .error f => late s f
            | .ok dst_ =>
              match dst_.find? fun p => s.memLost p.2.2 with
              | some p => late s { cause := cMemerr 0 2, faddr := BitVec.ofNat 57 p.1 }
              | none =>
                if !(dst_.all fun p => s.touchable p.2.1 true && s.canWrite d p.2.2) || !(src_.all fun p => s.touchable p.2.1 false) then
                  none
                else
                  let of (m : Nat × Nat × Nat) : List Byte := if m.1 = self then own.flatMap Prod.fst else data[m.1]?.getD []
                  let pos := (r.findIdx? fun m => m.1 == self).getD 0
                  let out := collResult o r of pos fun k => Config.free (s.freeCtr + k)
                  some (fin (({ s with freeCtr := s.freeCtr + o.n } : State).collWrite vf d (CollTy.tag o.ty) src_ dst_ out))
  | _, _ => none

/-- COLL_COMPLETE. -/
def execCollComplete (wv : WaveId) (data : List (List Byte)) (agree : Bool) (s : State) :
    Host.Outcome State Fault Refusal :=
  happens s (s.collStep wv data agree)

/-! ### Messages (14 R284, 04 R83) -/

/-- Completions at the head of a wave's messages are reported, in issue order. -/
def Wave.reportMsgs (w : Wave) : Wave :=
  let n := (w.msgs.takeWhile MsgOp.done).length
  { w with msgs := w.msgs.drop n, cMsg := w.cMsg - n }

/-- MESSAGE_ACCEPTED: one message of the wave joins its target slice's queue, when that has room. -/
def State.messageStep (s : State) (id : WaveId) : Option State :=
  match s.wave? id, s.convoy? id.conv with
  | some w, some conv =>
    let l := w.msgs.zipIdx.filter fun p => !p.1.done && !s.holdsBack id.conv 4 && (s.slice (s.homeSlice p.1.pa)).queue.length < 64
    match l[s.free % l.length]? with
    | none => none
    | some (m, i) =>
      let t := msgTrigger m.pa m.va conv.vf m.set 0 m.words (some (crewKeyOf id))
      let (s, _) := s.draw.enqueue (s.homeSlice m.pa) t
      match s.wave? id with
      | none => some s
      | some w => some (s.setWave id ({ w with msgs := setAt w.msgs i { m with done := true } } : Wave).reportMsgs).unstall
  | _, _ => none

/-- MESSAGE_ACCEPTED. -/
def execMessageAccepted (wv : WaveId) (s : State) : Host.Outcome State Fault Refusal := happens s (s.messageStep wv)

/-! ### Late faults (01 R22, 19 R328, R329) -/

/-- The late faults that an ASSAY failure or a memory error brings an operation in execution (05 R110, R111, 06 R126, 19 R340, R342): by
what it reads and writes. -/
def copyLate (cause : BitVec 10) : Bool := cause = cAssay 2 || memerrOf [0, 1, 2, 3, 7] cause
/-- Of a COLL. -/
def collLate (cause : BitVec 10) : Bool := cause = cAssay 2 || memerrOf [0, 1, 7] cause
/-- Of a PEER or HOST store. -/
def domLate (cause : BitVec 10) : Bool := memerrOf [7] cause
/-- Of a Gravel operation. -/
def gravelLate (cause : BitVec 10) : Bool := cause = cAssay 1 || memerrOf [0, 1, 6] cause
/-- Of a matrix operation. -/
def MOpKind.late (cause : BitVec 10) : MOpKind → Bool
  | .mma _ => cause = cAssay 0 || memerrOf [4, 5] cause
  | .mldb _ _ _ | .mldc _ _ _ => memerrOf [0, 1] cause
  | .mstc _ _ _ _ => memerrOf [0, 1, 5] cause
  | .mring | .mcmt _ _ | .mzero _ _ => false

/-- An outstanding DOM operation that can meet the cause; and whether the trap handler issued it. -/
def DomOp.late (cause : BitVec 10) : DomOp → Option Bool
  | .store e => if domLate cause then some e.hnd else none
  | .coll _ h => if collLate cause then some h else none
  | .atomic _ | .done => none

/-- What a DOM operation that is abandoned has on its way is forgotten. -/
def State.unqueue (s : State) (id : WaveId) (w : Wave) (i : Nat) : State :=
  match w.doms[i]? with
  | some (.store e) =>
    if e.space = .host then
      let n := ((w.doms.take i).filter fun o => match o with
        | .store x => x.space == .host
        | .atomic sp => sp == .host
        | _ => false).length
      let d := dieOfCore w.core
      s.hostOver d (hostPlace (waveKey id) n (s.die d).hostOut)
    else e.lines.foldl (fun (s : State) x => s.landed (.write (waveKey id) x.line)) s
  | some (.coll o _) => s.collOver (waveKey id) o
  | _ => s

/-- The first operation of a wave that can meet the late fault is abandoned with it: a copy, a PEER or HOST store, a COLL, the oldest
Gravel operation, the operation at the head of an engine. -/
def State.abandonOne (s : State) (id : WaveId) (w : Wave) (f : LateF) : Option State :=
  let key := waveKey id
  let cl := clusterOfCore w.core
  match w.copies.zipIdx.find? fun p => !p.1.left.isEmpty && copyLate f.cause with
  | some (_, i) => some (s.copyFails id i f)
  | none =>
    match w.doms.zipIdx.findSome? fun p => (p.1.late f.cause).map fun h => (p.2, h) with
    | some (i, h) => some (((s.unqueue id w i).setDoms id (setAt w.doms i .done)).reportLate key h f)
    | none =>
      match (s.cluster cl).gravel.ops.head?.filter fun o => o.wave == key && gravelLate f.cause with
      | some o => some ((s.gravelPop cl o fun g => g).reportLate key o.hnd f)
      | none =>
        (List.range 4).findSome? fun e =>
          ((s.engine cl e).ops.head?.filter fun o => o.wave == key && o.op.late f.cause).map fun o => s.mtxFails cl e o f

/-- LATE_FAULT: the ASSAY or memory errors that an operation of the wave meets after its commit; a wave that holds a late fault takes
it. -/
def State.lateStep (s : State) (id : WaveId) (cause : BitVec 10) (faddr : BitVec 57) : Option State :=
  let take (s : State) : Option State :=
    match s.wave? id, s.convoy? id.conv with
    | some w, some cv => match w.late, w.level with
      | some f, .kernel => if (s.ctx id).isSome then some (s.takeLate id w cv f) else none
      | _, _ => none
    | _, _ => none
  match take s with
  | some s => some s
  | none => ((s.wave? id).bind fun w => s.abandonOne id w { cause := cause, faddr := faddr }).map fun s => (take s).getD s

/-- LATE_FAULT. -/
def execLateFault (wv : WaveId) (cause : BitVec 10) (faddr : BitVec 57) (s : State) : Host.Outcome State Fault Refusal :=
  happens s (s.lateStep wv cause faddr)

end Sys2Proof.Machine
end

