-- ==== Sys2Proof/Machine/Waves.lean ====
section
/-!
DEFINITION. Sys2Proof/Machine/Waves.lean: the steps of single waves: waking, the spin detector (01 R28 to R31, 18 R324, R326), the
waves of task grids (01 R25, R26, 18 R316) and retirement (01 R27).
-/
namespace Sys2Proof.Machine

open Sys2Proof

/-! ### Waking -/

/-- A woken wave's parking instruction evaluates its condition again in the next turn. -/
def State.reevaluate (s : State) (id : WaveId) : Option State :=
  match s.ctx id with
  | none => none
  | some c => if c.w.wait.isSome && c.w.woken then some { s with agenda := .wave id :: s.agenda } else none

/-- WAKE_REEVALUATE. -/
def execWakeReevaluate (wv : WaveId) (s : State) : Host.Outcome State Fault Refusal := happens s (s.reevaluate wv)

/-- A parked wave is woken. -/
def State.wakeUp (s : State) (id : WaveId) : Option State :=
  match s.ctx id with
  | none => none
  | some c => if c.w.wait.isSome then some (s.setWave id { c.w with woken := true }) else none

/-- WAKE_WITHOUT_EVENT (18 R324). -/
def execWakeWithoutEvent (wv : WaveId) (s : State) : Host.Outcome State Fault Refusal := happens s (s.wakeUp wv)

/-! ### The spin detector (18 R326) -/

/-- The last four distinct lines of a list of loads. -/
def lastLines (l : List (Nat × Nat)) : List Nat :=
  (l.foldr (fun p r => if r.contains (lineOf p.1) || 4 ≤ r.length then r else lineOf p.1 :: r) [])

/-- A wave whose loop has repeated 4,096 times with every load alike takes a SPIN record. -/
def State.spun (s : State) (id : WaveId) : Option State :=
  match s.ctx id with
  | none => none
  | some c =>
    if 4096 ≤ c.w.spinCount && c.w.wait.isNone then
      some (s.setWave id { c.w with wait := some (.spin (lastLines c.w.spinPrev)), woken := false, spinCount := 0 })
    else none

/-- SPIN_DETECT. -/
def execSpinDetect (wv : WaveId) (s : State) : Host.Outcome State Fault Refusal := happens s (s.spun wv)

/-- Whether a record is SPIN. -/
def WaitRec.isSpin : WaitRec → Bool
  | .spin _ => true
  | _ => false

/-- A SPIN record wakes after 4,096 main cycles. -/
def State.spinOver (s : State) (id : WaveId) : Option State :=
  match s.ctx id with
  | none => none
  | some c => if c.w.wait.elim false WaitRec.isSpin then some (s.setWave id { c.w with woken := true }) else none

/-- SPIN_TIMEOUT. -/
def execSpinTimeout (wv : WaveId) (s : State) : Host.Outcome State Fault Refusal := happens s (s.spinOver wv)

/-! ### Task grids (01 R25, R26) -/

/-- A grid's convoys may be placed: its dependence is met, the record before it has been reported where SERIAL asks it (18 R313), and
no record of its queue waits for room (18 R314). -/
def State.mayPlace (s : State) (g : Grid) : Bool :=
  g.depMet && (g.after.elim true fun a => (s.grid? a).isNone) &&
    !s.grids.any fun p => p.2.vf == g.vf && p.2.q == g.q && p.2.signalled

/-- Waves of a function that wait for room in a task queue look again. -/
def State.taskRoom (s : State) (vf tdesc : Nat) : State :=
  { s with waves := s.waves.map fun (k, w) =>
      match w.wait with
      | some (.taskQueue t) => (k, if t = tdesc ∧ ((s.convoy? (waveOfKey k).conv).elim false fun cv => cv.vf == vf) then
          { w with woken := true } else w)
      | _ => (k, w) }

/-- The oldest task that is not aged becomes so. -/
def ageFirst : List TaskRec → Option (List TaskRec)
  | [] => none
  | t :: r => if t.aged then (ageFirst r).map fun r => t :: r else some ({ t with aged := true } :: r)

/-- The oldest task has waited 65,536 fabric cycles. -/
def State.ageTask (s : State) (gid : Nat) : Option State :=
  match s.grid? gid with
  | none => none
  | some g => (ageFirst g.tasks).map fun l => s.setGrid gid { g with tasks := l }

/-- TASK_AGING: the task goes ahead of the affinity preferences from now on, whichever cluster dispatches it. -/
def execTaskAging (grid _cluster : Nat) (s : State) : Host.Outcome State Fault Refusal := happens s (s.ageTask grid)

/-! ### Retirement (01 R27) -/

/-- Nothing of a wave that has ended is outstanding. -/
def State.drainedOf (s : State) (id : WaveId) (w : Wave) : Bool :=
  s.waveQuiet (waveKey id) w && w.doms.isEmpty && (s.matrixOps (clusterOfCore w.core) (waveKey id)).isEmpty

/-- What a torn-down convoy leaves on its engines is abandoned once everything else of it is complete: MMAs whose ring entries were never
pushed, and what stands behind them (19 R334). -/
def State.abandonRing (s : State) (k : Nat) : Option State :=
  match s.convoy? k with
  | none => none
  | some cv =>
    let left := (s.heldBy cv.cluster k).any fun e => !(s.engine cv.cluster e).ops.isEmpty
    if cv.teardown.isNone || !left || !s.convoyQuiet k || !s.enginesRest cv.cluster k then none
    else
      let c := s.cluster cv.cluster
      some (s.setCluster cv.cluster { c with
        engines := c.engines.map fun x => if x.holder = some k then { x with ops := [] } else x }).unstall

/-- A wave's drain has finished; with its crew's last wave the stash lines are given up, with the convoy's last the convoy retires. -/
def State.retireWave (s : State) (id : WaveId) : Option State :=
  match s.wave? id, s.convoy? id.conv with
  | some w, some cv =>
    if !w.ended || w.drained || cv.st == .saved || (cv.st == .flushing && cv.teardown.isNone) then none
    else if !s.drainedOf id w then s.abandonRing id.conv
    else
      let others := (s.wavesOf id.conv).filter fun p => p.1 != waveKey id && !p.2.drained
      let crewLast := others.all fun p => (waveOfKey p.1).crew != id.crew
      (if crewLast then s.emptyStash (crewKeyOf id) else some s).bind fun s =>
        ((s.setWave id { w with drained := true }).tasksRetired cv.grid w.tasks.length).bind fun s =>
          if others.isEmpty then s.retireConvoy id.conv else some s.unstall
  | _, _ => none

/-- RETIREMENT_DRAIN_DONE. -/
def execRetirementDrainDone (wv : WaveId) (s : State) : Host.Outcome State Fault Refusal := happens s (s.retireWave wv)

end Sys2Proof.Machine
end

