-- ==== Sys2Proof/Machine/Images.lean ====
section
/-!
DEFINITION. Sys2Proof/Machine/Images.lean: the images of a saved convoy (20 Tables 20-4 to 20-7), written and read back.
-/
namespace Sys2Proof.Machine

open Sys2Proof

/-! ### Wave records (20 Table 20-7) -/

/-- A stack entry's image (02 Table 2-4). -/
def StackEntry.image (e : StackEntry) : List Byte :=
  leBytes 16 e.pend.toNat ++ leBytes 16 e.outer.toNat ++ List.replicate 8 0 ++ leBytes 8 e.jpc.toNat

/-- The stack entry of an image: JPC is bits 376:320, and the bits above are reserved. -/
def StackEntry.ofImage (b : List Byte) : StackEntry :=
  { jpc := BitVec.ofNat 64 (fieldOf b 40 8 % 2 ^ 57), outer := BitVec.ofNat 128 (fieldOf b 16 16), pend := BitVec.ofNat 128 (fieldOf b 0 16) }

/-- A stack's image: 32 entries, the top one first (DESIGN CHOICE, log 38). -/
def stackImage (l : List StackEntry) : List Byte :=
  (l.flatMap StackEntry.image) ++ List.replicate (48 * (32 - l.length)) 0

/-- A stack of the given depth from its image. -/
def stackOf (n : Nat) (b : List Byte) : List StackEntry := (List.range (min n 32)).map fun i => StackEntry.ofImage ((b.drop (48 * i)).take 48)

/-- A wait record's image: its kind, by the order of Table 18-7 from 1 on; which of the kind, or how many lines; the tasks accepted; and
what it names, 7 bytes for each line (DESIGN CHOICE, log 38). -/
def WaitRec.image (r : Option WaitRec) (accepted : Nat) : List Byte :=
  let rec_ (kind b : Nat) (l : List Nat) : List Byte :=
    leBytes 1 kind ++ leBytes 1 b ++ leBytes 2 accepted ++ leBytes 28 (leVal (l.flatMap (leBytes 7)))
  match r with
  | none => rec_ 0 0 []
  | some (.line pa) => rec_ 1 0 [pa / 64]
  | some (.bar conv id gen) => rec_ 2 ((if conv then 1 else 0) + (if gen then 2 else 0)) [id]
  | some .evq => rec_ 3 0 []
  | some (.batch n) => rec_ 4 0 [n.toNat]
  | some .mfnc => rec_ 4 1 []
  | some (.batchEng e) => rec_ 4 2 [e]
  | some (.slice n) => rec_ 5 0 [n]
  | some (.aring e) => rec_ 6 0 [e]
  | some .tileQueue => rec_ 7 0 []
  | some (.taskQueue t) => rec_ 7 1 [t / 64]
  | some (.launchQueue q) => rec_ 7 2 [q]
  | some (.spin l) => rec_ 8 l.length (l.map (· / 64))

/-- The wait record of an image. -/
def WaitRec.ofImage (b : List Byte) : Option WaitRec :=
  let kind := fieldOf b 0 1
  let sub := fieldOf b 1 1
  let at_ (i : Nat) : Nat := fieldOf b (4 + 7 * i) 7
  match kind with
  | 1 => some (.line (64 * at_ 0))
  | 2 => some (.bar (sub % 2 = 1) (at_ 0) (2 ≤ sub))
  | 3 => some .evq
  | 4 => some (if sub = 0 then .batch (BitVec.ofNat 16 (at_ 0)) else if sub = 1 then .mfnc else .batchEng (at_ 0))
  | 5 => some (.slice (at_ 0))
  | 6 => some (.aring (at_ 0))
  | 7 => some (if sub = 0 then .tileQueue else if sub = 1 then .taskQueue (64 * at_ 0) else .launchQueue (at_ 0))
  | 8 => some (.spin ((List.range (min sub 4)).map fun i => 64 * at_ i))
  | _ => none

/-- A handler wave as a save leaves it: k0 to k15 are the frame's, it resumes at MILEPC with the milestone's stack and active set,
and a held late fault is dropped (20 R349). -/
def Wave.toMilestone (w : Wave) (ks : List DWord) : Wave :=
  { w with
    k := (List.range 16).foldl (fun m n => put 0 m n (ks[n]?.getD 0)) w.k, level := .kernel, pc := w.milepc, clause := none,
    stack := w.ckpt.stack, active := w.ckpt.active, late := none, wait := none, woken := false, far := none, replay := none,
    skipBreak := none, accepted := 0, spinTarget := 1, spinCount := 0 }

/-- FLAGS of a wave record. -/
def Wave.saveFlags (w : Wave) (abandoned : Bool) : Nat :=
  (if w.clause.isSome then 1 else 0) + (if w.late.isSome then 2 else 0) + (if abandoned then 4 else 0)

/-- Bytes 0x000 to 0x2FF of a wave record. -/
def Wave.recordHead (w : Wave) (abandoned : Bool) : List Byte :=
  leBytes 8 w.pc.toNat ++ leBytes 8 ((w.clause.map Clause.addr).getD w.pc).toNat ++ leBytes 4 w.mile.toNat ++
    leBytes 1 w.stack.length ++ leBytes 1 (w.saveFlags abandoned) ++ leBytes 1 w.iwb.toNat ++ leBytes 1 w.ckpt.stack.length ++
    leBytes 8 w.milepc.toNat ++ leBytes 1 w.cCpy ++ leBytes 1 w.cGrv ++ leBytes 1 w.cMsg ++ leBytes 1 w.cDom ++
    leBytes 2 w.batchOpen.toNat ++ leBytes 2 w.batchClosed.toNat ++ leBytes 2 w.iwl.toNat ++ List.replicate 6 0 ++
    leBytes 16 w.active.toNat ++ leBytes 16 w.ckpt.active.toNat ++ WaitRec.image w.wait w.accepted ++
    leBytes 8 (w.late.elim 0 fun f => f.cause.toNat) ++ leBytes 8 (w.late.elim 0 fun f => f.faddr.toNat) ++
    ((List.range 7).flatMap fun n => leBytes 16 (w.getP n).toNat) ++ List.replicate 16 0 ++
    ((List.range 4).flatMap fun n => (List.range 128).map fun t => w.getI t n)

/-- Bytes 0x400 to 0x11FF of a wave record. -/
def Wave.recordTail (w : Wave) : List Byte :=
  ((List.range 64).flatMap fun n => leBytes 8 (w.getK n).toNat) ++ stackImage w.stack ++ stackImage w.ckpt.stack

/-- The image of a wave's v registers. -/
def Wave.vImage (w : Wave) : List Byte :=
  (List.range w.vregs).flatMap fun n => (List.range w.threads).flatMap fun t => leBytes 4 (w.getV t n).toNat

/-- A wave with the state of its record and its v image: everything the layout holds but DOM, which the completions of its COLLs go on
counting down (20 R348), and a late fault that has come since (log 92). A parked wave evaluates its condition again. -/
def Wave.ofRecord (w : Wave) (head tail v : List Byte) : Wave :=
  let f (o n : Nat) : Nat := fieldOf head o n
  let p : NMap Lanes := (List.range 7).foldl (fun m n => put 0 m n (BitVec.ofNat 128 (f (0x80 + 16 * n) 16))) []
  let i : NMap Byte := (List.range 512).foldl (fun m n => put 0 m n (BitVec.ofNat 8 (f (0x100 + n) 1))) []
  let k : NMap DWord := (List.range 64).foldl (fun m n => put 0 m n (BitVec.ofNat 64 (fieldOf tail (8 * n) 8))) []
  let regs : NMap Word := (List.range w.threads).foldl (fun m t => (List.range w.vregs).foldl (fun m n =>
    put 0 m (256 * t + n) (BitVec.ofNat 32 (fieldOf v (4 * (w.threads * n + t)) 4))) m) []
  let late : Option LateF := if (f 0x15 1).testBit 1 then
      some { cause := BitVec.ofNat 10 (f 0x70 8), faddr := BitVec.ofNat 57 (f 0x78 8) } else w.late
  { w with
    pc := BitVec.ofNat 64 (f 0 8), mile := BitVec.ofNat 32 (f 0x10 4), stack := stackOf (f 0x14 1) (tail.drop 0x200),
    iwb := BitVec.ofNat 8 (f 0x16 1), ckpt := { stack := stackOf (f 0x17 1) (tail.drop 0x800), active := BitVec.ofNat 128 (f 0x40 16) },
    milepc := BitVec.ofNat 64 (f 0x18 8), cCpy := f 0x20 1, cGrv := f 0x21 1, cMsg := f 0x22 1,
    batchOpen := BitVec.ofNat 16 (f 0x24 2), batchClosed := BitVec.ofNat 16 (f 0x26 2), iwl := BitVec.ofNat 9 (f 0x28 2),
    active := BitVec.ofNat 128 (f 0x30 16), late := late, p := p, i := i, k := k, v := regs,
    wait := WaitRec.ofImage ((head.drop 0x50).take 32), woken := fieldOf head 0x50 1 != 0, accepted := f 0x52 2, stall := false }

/-! ### Crews, memories, engines -/

/-- A barrier word's image. -/
def Bar.image (b : Bar) : List Byte := leBytes 8 (b.arrived.length + (if b.gen then 256 else 0))

/-- A binding's image. -/
def Bind.image (b : Bind) : List Byte := leBytes 8 b.g ++ leBytes 4 b.s ++ leBytes 4 b.n

/-- Bytes 0x000 to 0x13F of a crew header. -/
def Crew.headImage (c : Crew) : List Byte :=
  ((List.range 16).flatMap fun n => (lookD c.bars n Bar.empty).image) ++ ((List.range 16).flatMap fun n => leBytes 4 (c.getH n).toNat) ++
    ((List.range 4).flatMap fun n => (look c.binds n).elim (List.replicate 16 0) Bind.image) ++ leBytes 4 c.evq.length ++
    List.replicate 60 0

/-- The queued event records of a crew header. -/
def Crew.eventImage (c : Crew) : List Byte := c.evq.flatMap id

/-- Lines of a memory image with their tags, the bad words zero (25 R412). -/
def memPieces (va bytes : Nat) (m : Img) (bad : List Nat) : List Piece :=
  (List.range ((bytes + 63) / 64)).map fun j =>
    { va := va + 64 * j,
      bytes := (List.range 64).map fun i => if badWord bad (64 * j + i) 1 then 0 else m.byte (64 * j + i),
      tag := some (m.tag (64 * j)) }

/-- The slot header (20 Table 20-6): `st` is STATE, `res` RES. -/
def Convoy.headImage (cv : Convoy) (st res : Nat) : List Byte :=
  leBytes 2 cv.ctxid.toNat ++ leBytes 2 0 ++ leBytes 4 cv.index ++ leBytes 1 st ++ leBytes 1 res ++ List.replicate 6 0 ++
    ((List.range 8).flatMap fun n => (lookD cv.bars n Bar.empty).image) ++ List.replicate 48 0

/-- The code of a page state. -/
def PageSt.code : PageSt → Nat
  | .empty => 0 | .data => 1 | .dataS4 => 2 | .scaleHolder => 3

/-- The page state of a code. -/
def PageSt.ofCode (n : Nat) : PageSt := if n = 1 then .data else if n = 2 then .dataS4 else if n = 3 then .scaleHolder else .empty

/-- Bytes 0x000 to 0x0FF of an engine's header: page states, ring, count of suspended operations, shadow map (DESIGN CHOICE, log 38). -/
def Engine.headImage (x : Engine) : List Byte :=
  ((List.range 64).flatMap fun p => leBytes 1 (x.page p).code) ++
    (x.ring.elim (List.replicate 24 0) fun r => leBytes 4 r.base ++ leBytes 4 r.entries ++ leBytes 4 r.sbase ++
      leBytes 4 (r.head % 2 ^ 32) ++ leBytes 4 (r.tail % 2 ^ 32) ++ leBytes 4 r.free) ++
    leBytes 4 x.ops.length ++ List.replicate 36 0 ++
    ((List.range 32).flatMap fun i => match x.shadows[i]? with
      | some h => leBytes 2 h.win ++ leBytes 1 h.group ++ leBytes 1 (2 * h.gen + (if h.live then 129 else 1))
      | none => List.replicate 4 0)

/-- The code of an element class in an image. -/
def MCls.image : MCls → Nat
  | .n8 => 0 | .b16 => 1 | .d64 => 2

/-- The class of a code. -/
def MCls.ofImage (n : Nat) : MCls := if n = 1 then .b16 else if n = 2 then .d64 else .n8

/-- The committed operands of a suspended operation, and its kind: 26 bytes (DESIGN CHOICE, log 38). -/
def MOpKind.image : MOpKind → List Byte
  | .mldb page lines _ => leBytes 1 1 ++ leBytes 1 page ++ leBytes 8 ((lines.headD (0, 0)).2) ++ leBytes 8 ((lines[512]?.getD (0, 0)).2) ++
      leBytes 8 lines.length
  | .mring => leBytes 26 2
  | .mma o => leBytes 1 3 ++
      leBytes 1 (MCls.image o.cls + (if o.s4 then 4 else 0) + o.sh.elim 0 (fun g => 8 + 16 * g) + (if o.betas.isSome then 64 else 0)) ++
      leBytes 2 o.w0 ++ leBytes 1 o.page ++ leBytes 1 o.pass ++ leBytes 2 o.m ++ leBytes 2 o.row ++ leBytes 2 o.kb ++ leBytes 2 o.grp ++
      leBytes 4 (o.betas.elim 0 List.length) ++ leBytes 8 (leVal ((o.betas.getD []).flatMap (leBytes 2)))
  | .mcmt g commit => leBytes 1 4 ++ leBytes 1 g ++ leBytes 24 (if commit then 1 else 0)
  | .mzero w0 n => leBytes 1 5 ++ leBytes 1 0 ++ leBytes 2 w0 ++ leBytes 22 n
  | .mstc w0 modes lines _ => leBytes 1 6 ++ leBytes 1 modes.length ++ leBytes 2 w0 ++ leBytes 8 ((lines.headD (0, 0)).2) ++
      leBytes 4 ((lines[2 * modes.length]?.getD (0, 0)).2 - (lines.headD (0, 0)).2) ++
      leBytes 10 (modes.zipIdx.foldl (fun m p => if p.1 then m + 2 ^ p.2 else m) 0)
  | .mldc w0 lines _ => leBytes 1 7 ++ leBytes 1 (lines.length / 64) ++ leBytes 2 w0 ++ leBytes 8 ((lines.headD (0, 0)).2) ++
      leBytes 14 ((lines[lines.length / 32]?.getD (0, 0)).2 - (lines.headD (0, 0)).2)

/-- The image of a suspended operation: the issuing wave's crew and slot, who issued it, the batch, and the operands (DESIGN CHOICE, log
38). -/
def MOp.image (o : MOp) (slot : Nat) : List Byte :=
  leBytes 1 slot ++ leBytes 1 ((waveOfKey o.wave).crew + (if o.hnd then 8 else 0)) ++ leBytes 2 o.batch.toNat ++ o.op.image ++ leBytes 2 0

/-- The operation of an image. The physical lines of an operation that moves data are those found at its commit, for which the record has
no room (DESIGN CHOICE, log 38). -/
def MOpKind.ofImage (kept : MOpKind) (b : List Byte) : MOpKind :=
  let f (o n : Nat) : Nat := fieldOf b o n
  match kept with
  | .mldb _ lines left => .mldb (f 1 1) lines left
  | .mring => .mring
  | .mma _ =>
    .mma { cls := MCls.ofImage (f 1 1 % 4), s4 := (f 1 1).testBit 2, sh := if (f 1 1).testBit 3 then some (f 1 1 / 16 % 4) else none,
           w0 := f 2 2, page := f 4 1, pass := f 5 1, m := f 6 2, row := f 8 2, kb := f 10 2, grp := f 12 2,
           betas := if (f 1 1).testBit 6 then some ((List.range (min (f 14 4) 4)).map fun i => f (18 + 2 * i) 2) else none }
  | .mcmt _ _ => .mcmt (f 1 1) (f 2 1 = 1)
  | .mzero _ _ => .mzero (f 2 2) (f 4 4)
  | .mstc _ _ lines left => .mstc (f 2 2) ((List.range (f 1 1)).map fun i => (f 16 8).testBit i) lines left
  | .mldc _ lines left => .mldc (f 2 2) lines left

/-- The generator states of a Gravel image, 8 bytes each: an LFSR in the low 4; n and then D of a low-discrepancy class (DESIGN CHOICE, log
38). -/
def Gravel.genImage (g : Gravel) : List Byte :=
  ((List.range 32).flatMap fun n => leBytes 8 (g.lfsr[n]?.getD 0).toNat) ++
    ((List.range 32).flatMap fun n => leBytes 4 (g.index[n]?.getD 0).toNat ++ leBytes 4 (g.shift[n]?.getD 0).toNat)

/-- The image of one register (06 R120, 20 R353). -/
def Gravel.regImage (g : Gravel) (n : Nat) : List Byte :=
  match look g.g n with
  | some x => streamBytes g.len (g.bitsOf n) ++ tagRecord x.m x.s x.x false g.len
  | none => List.replicate (8 * g.len) 0 ++ tagRecord 0 0 false true g.len

/-- The lines of a Gravel image, with the GMOV image's tag. -/
def Gravel.pieces (va : Nat) (g : Gravel) : List Piece :=
  ((List.range 32).flatMap fun n => (Machine.pieces (va + (8 * g.len + 64) * n) (g.regImage n)).map fun p =>
    { p with tag := some 0x1000 }) ++ Machine.pieces (va + 0x100800) g.genImage

/-! ### A convoy's images -/

/-- The engines of a convoy as RES holds them. -/
def State.resOf (s : State) (k cl : Nat) : Nat :=
  (s.heldBy cl k).foldl (fun m e => m + 2 ^ e) (if (s.cluster cl).gravel.holder = some k then 16 else 0)

/-- The images of one crew, its waves included. -/
def State.crewPieces (s : State) (k : Nat) (cv : Convoy) (abandoned : List Nat) (key : Nat) (c : Crew) : List Piece :=
  let n := key % 8
  let hdr := s.slotBase cv + 0x1000 + 0x1000 * n
  let base := s.crewBlock cv n
  pieces hdr c.headImage ++ pieces (hdr + 0x800) c.eventImage ++ memPieces base c.scratchBytes c.scratch c.bad ++
    ((s.wavesOf k).filter fun p => (waveOfKey p.1).crew == n).flatMap fun (wk, w) =>
      let j := (waveOfKey wk).wave
      pieces (base + 0x40000 + 128 * w.depth * w.vregs * j) w.vImage ++
        pieces (base + 0xC0000 + 0x2000 * j) (w.recordHead (abandoned.contains wk)) ++
        pieces (base + 0xC0000 + 0x2000 * j + 0x400) w.recordTail

/-- The images of one matrix engine. -/
def State.enginePieces (s : State) (cv : Convoy) (e : Nat) : List Piece :=
  let x := s.engine cv.cluster e
  let base := s.slotBase cv
  pieces (base + 0x9000 + 0x1000 * e) x.headImage ++
    pieces (base + 0x9800 + 0x1000 * e) (x.ops.flatMap fun o => o.image ((s.wave? (waveOfKey o.wave)).elim 0 Wave.slot)) ++
    x.shadows.zipIdx.flatMap fun (h, i) =>
      pieces (base + 0x511000 + 0x20000 * e + 0x1000 * i) ((List.range 4096).map fun j => lookD h.bytes j 0)

/-- Every image of a convoy (20 R348, step 6). -/
def State.savePieces (s : State) (k : Nat) (cv : Convoy) (abandoned : List Nat) : List Piece :=
  let base := s.slotBase cv
  let g := (s.cluster cv.cluster).gravel
  pieces base (cv.headImage 2 (s.resOf k cv.cluster)) ++ (s.crewsOf k).flatMap (fun p => s.crewPieces k cv abandoned p.1 p.2) ++
    memPieces (base + 0x10000) cv.cmemBytes cv.cmem cv.bad ++ (s.heldBy cv.cluster k).flatMap (s.enginePieces cv) ++
    if g.holder = some k then pieces (base + 0xD000) (leBytes 2 g.len) ++ g.pieces (base + 0x410000) else []

/-- S of Table 20-2: the bytes that a save would write. -/
def State.saveBytes (s : State) (k : Nat) (cv : Convoy) : Nat := ((s.savePieces k cv []).map fun p => p.bytes.length).sum

/-! ### Reading back (20 R350) -/

/-- Ranges of a save area read by the device: every line's ACC is set; the answer is the state after it. -/
def State.saveTouch (s : State) (vf d : Nat) (spans : List (Nat × Nat)) : SaveRes :=
  let lines := spans.flatMap fun (va, n) => (List.range ((n + 63) / 64)).map fun i => va + 64 * i
  match s.saveBad vf d false lines with
  | some (e, va) => .bad e va
  | none =>
    let at_ (va : Nat) : Option (Xlat × Nat) := (s.saveAddr vf d va false).toOption
    if !(lines.all fun va => (at_ va).elim false fun x => s.touchable x.1 false && s.canSee d x.2) then .wait
    else
      .done (lines.foldl (fun s va => match at_ va with
        | some x => (s.touch x.1 false).cache vf va x.1
        | none => s) s)

/-- Bytes of a save area that `saveTouch` has found readable. -/
def State.saved (s : State) (vf d va n : Nat) : List Byte := ((s.saveRead vf d va n).toOption).getD []

/-- A memory from its image, with the lines' tags. -/
def State.memOf (s : State) (vf d va bytes : Nat) : Img :=
  (List.range ((bytes + 63) / 64)).foldl (fun m j =>
    (m.setBytes (64 * j) (s.saved vf d (va + 64 * j) 64)).setTag (64 * j) (s.saveTag vf d (va + 64 * j))) Img.empty

/-- The barrier words of an image: the generation, and as arrived the waves whose wait records name the barrier in that generation (13
R253), by 16·crew + wave. -/
def barsOf (waits : List (Nat × WaitRec)) (conv : Bool) (n : Nat) (b : List Byte) : NMap Bar :=
  (List.range n).filterMap fun i =>
    let gen := (fieldOf b (8 * i) 8).testBit 8
    let here := (waits.filter fun p => p.2 == .bar conv i gen).map Prod.fst
    if here.isEmpty && !gen then none else some (i, { arrived := here, gen := gen })

/-- A crew from its images; `waits` are its waves' wait records. A binding keeps the pages that its SMAP found (03 R51). -/
def State.crewOf (s : State) (vf d hdr base : Nat) (waits : List (Nat × WaitRec)) (c : Crew) : Crew :=
  let b := s.saved vf d hdr 0x140
  let bars := barsOf waits false 16 b
  let h : NMap Word := (List.range 16).foldl (fun m n => put 0 m n (BitVec.ofNat 32 (fieldOf b (0x80 + 4 * n) 4))) []
  let n := min (fieldOf b 0x100 4) 64
  let q := (List.range n).map fun i => s.saved vf d (hdr + 0x800 + 32 * i) 32
  let all := q ++ c.held
  let bind (n : Nat) : Option (Nat × Bind) :=
    let f (o k : Nat) : Nat := fieldOf b (0xC0 + 16 * n + o) k
    if f 12 4 = 0 then none
    else some (n, { g := f 0 8, s := f 8 4, n := f 12 4, pages := (look c.binds n).elim [] Bind.pages, present := [], dirty := [],
                    filling := [] })
  { c with bars := bars, h := h, binds := (List.range 4).filterMap bind, scratch := s.memOf vf d base c.scratchBytes, bad := [], evq := all.take 64, held := all.drop 64 }

/-- The ring of an engine header: none where its E is 0. Every entry between head and tail had been performed. -/
def ringOf (no crew : Nat) (b : List Byte) : Option Ring :=
  let f (i : Nat) : Nat := fieldOf b (0x40 + 4 * i) 4
  if f 1 = 0 then none
  else
    some { no := no, crew := crew, base := f 0, entries := f 1, sbase := f 2, head := f 3, tail := f 4, free := f 5,
           ready := (List.range ((f 4 + 2 ^ 32 - f 3) % 2 ^ 32 % (f 1 + 1))).map fun i => f 3 + i }

/-- The page states of an engine header. -/
def pageStates (b : List Byte) : NMap PageSt :=
  (List.range 64).foldl (fun m p => put .empty m p (PageSt.ofCode (fieldOf b p 1))) []

/-- The shadows of an engine header, with their contents at the given address. -/
def State.shadowsOf (s : State) (vf d va : Nat) (b : List Byte) : List Shadow :=
  (List.range 32).filterMap fun i =>
    let f (o n : Nat) : Nat := fieldOf b (0x80 + 4 * i + o) n
    if f 3 1 = 0 then none
    else some { win := f 0 2, group := f 2 1, gen := f 3 1 % 128 / 2, live := 128 ≤ f 3 1, bad := [], bytes := putBytes [] 0 (s.saved vf d (va + 0x1000 * i) 4096) }

/-- The Slate pages of an image. -/
def State.slateOf (s : State) (vf d va : Nat) (pages : NMap PageSt) : Img :=
  pages.foldl (fun m p => (List.range 512).foldl (fun (m : Img) j =>
    (m.setBytes (32768 * p.1 + 64 * j) (s.saved vf d (va + 32768 * p.1 + 64 * j) 64)).setTag (32768 * p.1 + 64 * j)
      (s.saveTag vf d (va + 32768 * p.1 + 64 * j))) m) Img.empty

/-- The Gravel engine of an image, held by a convoy. -/
def State.gravelOf (s : State) (vf d base k : Nat) : Gravel :=
  let len := s.saveVal vf d (base + 0xD000) 2
  let g (n : Nat) : Option GReg := (imageReg len (s.saved vf d (base + 0x410000 + (8 * len + 64) * n) (8 * len + 64))).join
  let gen := s.saved vf d (base + 0x510800) 512
  let word (o : Nat) : Word := BitVec.ofNat 32 (fieldOf gen o 4)
  { holder := some k, freedBy := none, bad := [], fails := 0, len := len, g := (List.range 32).filterMap fun n => (g n).map fun x => (n, x),
    lfsr := (List.range 32).map fun n => word (8 * n), index := (List.range 32).map fun n => word (256 + 8 * n),
    shift := (List.range 32).map fun n => word (260 + 8 * n), ops := [] }

end Sys2Proof.Machine
end

