-- ==== Sys2Proof/Machine/Sys.lean ====
section
/-!
DEFINITION. Sys2Proof/Machine/Sys.lean: the meanings of the SYS instructions (14 R287 to R291, 02 R43 and R44, 19 R335), of a
clause header (08 R145 to R149) and of an opcode that is not assigned (09 R167).
-/
namespace Sys2Proof.Machine

open Sys2Proof

/-! ### Clause headers (08 R146 to R149) -/

/-- The engine class of an ENG code; none where it is reserved. -/
def engOf (n : Nat) : Option Eng :=
  match n with
  | 0 => some .uni | 1 => some .vec | 2 => some .mem | 3 => some .mtx | 4 => some .grv | 5 => some .cpy | 6 => some .sys
  | _ => none

/-- The clause that a header word at an address opens; none for a reserved class. -/
def clauseOf (addr w : DWord) : Option Clause :=
  (engOf (w.extractLsb' 60 4).toNat).map fun e => { addr := addr, eng := e, cnt := w.extractLsb' 56 4, m := w.getLsbD 46 }

/-- The first fault of a header (08 R147). -/
def headerFault (w : DWord) : Option (BitVec 10) :=
  let wsel := (w.extractLsb' 53 3).toNat
  if (engOf (w.extractLsb' 60 4).toNat).isNone then some (cInstr 5)
  else if 5 < wsel || (wsel == 0 && w.extractLsb' 47 6 != 0) then some (cInstr 6)
  else if w.extractLsb' 0 45 != 0 then some (cInstr 7)
  else none

/-- Whether the wait of a header is over (08 R148). -/
def Ctx.headerReady (c : Ctx) (w : DWord) : Bool :=
  let th := (w.extractLsb' 47 6).toNat
  match (w.extractLsb' 53 3).toNat with
  | 1 => c.w.cCpy ≤ th
  | 2 => c.w.cGrv ≤ th
  | 3 => c.w.cMsg ≤ th
  | 4 => c.w.cDom ≤ th
  | 5 => c.pendingBatches.length ≤ th
  | _ => true

/-- A clause header: the wave enters its clause once its wait is over; a malformed header faults at the header. -/
def execClauseHeaderDecode (w : DWord) (s : State) : Host.Outcome State Fault Refusal :=
  match Ctx.of s with
  | none => .fault .noWave
  | some c =>
    match headerFault w with
    | some x => .next (c.settle false (.fail (.plain x)))
    | none =>
      if !c.headerReady w then .next (s.stalled c.id)
      else .next (c.put { c.w with pc := c.w.pc + 8, clause := clauseOf c.w.pc w, skipBreak := none, stall := false })

/-- An instruction word whose opcode is not assigned (08 Table 8-3, step 1). -/
def execUnassignedOpcode (_w : DWord) (s : State) : Host.Outcome State Fault Refusal :=
  match Ctx.of s with
  | none => .fault .noWave
  | some c => .next (c.settle false (.fail (.plain (cInstr 0))))

/-! ### TRAP and RTE -/

/-- TRAP. -/
def execTrap (k : Ctl) (imm : BitVec 6) (s : State) : Host.Outcome State Fault Refusal :=
  instr s (.wide k []) noOwn fun c _ => .ok { Eff.of c.s with soft := some (cSoftware imm.toNat) }

/-- The clause at HDR that holds the word at which a wave resumes (19 R335): the one that was interrupted, else the one that its header
gives when it is read again; none where no such header can be fetched. -/
def Ctx.clauseAgain (c : Ctx) (kept : Option Clause) (hdr : DWord) : Option Clause :=
  if let some cl := kept.filter fun cl => cl.addr == hdr then some cl
  else match c.s.xlate c.vf c.die hdr.toNat .device 7 .fetch with
  | .error _ => none
  | .ok x => clauseOf hdr (BitVec.ofNat 64 (c.s.devVal c.die (c.s.devAddr c.vf x hdr.toNat) 8))

/-- RTE: k0 to k15 and the place to resume come from the frame as it stands when the wave's stores have been performed. -/
def execRte (k : Ctl0) (s : State) : Host.Outcome State Fault Refusal :=
  instr s { Meta.wide (ctlOf k) [] with always := true }
    (fun c => if !c.hnd then some (cProtect 4) else if c.w.epc.extractLsb' 0 3 != 0 then some (cAlign 2) else none)
    fun c _ =>
      if !c.w.sq.isEmpty then .stall c.s
      else
        match c.s.saveRead c.vf c.die c.w.frame 0xA0 with
        | .error e => .over (c.s.teardown c.id.conv { cause := e.1, faddr := BitVec.ofNat 57 e.2 })
        | .ok b =>
          let ks : List DWord := (List.range 16).map fun n => BitVec.ofNat 64 (fieldOf b (8 * n) 8)
          let hdr : DWord := BitVec.ofNat 64 (fieldOf b 0x88 8)
          let epc : DWord := BitVec.ofNat 64 (fieldOf b 0x90 8)
          let same := c.w.epc.setWidth 64 == epc
          let w := c.w.leave ks same (if same && hdr != epc then c.clauseAgain c.w.inner hdr else none)
          .over (((c.put { w with accepted := if same then w.accepted else 0 }).checked c.w.core).setDebug c.ctxid (c.s.debugBlock c.cv c.die))

/-! ### System registers (02 Table 2-5) -/

/-- Whether the kernel may read a system register. -/
def kernelReads (n : Nat) : Bool := (6 ≤ n && n ≤ 10) || 12 ≤ n

/-- Whether the handler may write a system register. -/
def handlerWrites (n : Nat) : Bool := n == 1 || (4 ≤ n && n ≤ 9)

/-- ENGS (02 R44). -/
def Ctx.engs (c : Ctx) : DWord :=
  let bit (n : Nat) (h : Option Nat) : DWord := if h = some c.id.conv then 1#64 <<< n else 0
  (List.range 4).foldl (fun m e => m ||| bit e (c.engine e).holder) (bit 4 c.cl.gravel.holder)

/-- ASTAT (25 Table 25-1). -/
def Core.astat (x : Core) : DWord :=
  x.aLvm ++ x.aSrm ++ x.aRsm ++ BitVec.ofNat 8 (lanesOf x.fenced).length ++ x.aRcy

/-- A system register's value. -/
def Ctx.sysReg (c : Ctx) (n : Nat) : DWord :=
  let k := c.s.core c.w.core
  match n with
  | 0 => (c.s.fn c.vf).trapb
  | 1 => c.w.epc.setWidth 64
  | 2 => c.w.cause.setWidth 64
  | 3 => c.w.faddr.setWidth 64
  | 4 => c.w.flane.extractLsb' 0 64
  | 5 => c.w.flane.extractLsb' 64 64
  | 6 => c.mile.setWidth 64
  | 7 => c.w.milepc
  | 8 => c.w.iwb.setWidth 64
  | 9 => c.w.iwl.setWidth 64
  | 10 => k.tick.setWidth 64
  | 11 => k.lease.setWidth 64
  | 12 => c.ctxid.setWidth 64
  | 13 => k.pwrq.setWidth 64
  | 14 => k.astat
  | _ => c.engs

/-- MILEPC as the reading instruction's own milestone advance leaves it (02 R40's rule for %mile, 01 R19). -/
def Ctx.milepcNow (c : Ctx) : DWord :=
  if c.explicitMile then (c.w.clause.map Clause.addr).getD 0 else c.w.milepc

/-- SYSR. -/
def execSysr (k : Ctl) (d : Desc) (idx : BitVec 6) (s : State) : Host.Outcome State Fault Refusal :=
  instr s (.wide k [dst d])
    (fun c => firstOf (if 15 < idx.toNat then some (cInstr 9) else none)
      (firstOf (needK d) (if !c.hnd && !kernelReads idx.toNat then some (cProtect 4) else none)))
    fun c act =>
      let x := if idx = 7 then c.milepcNow else c.sysReg idx.toNat
      .ok (.of (c.dest d true [(leader act, x)] c.s))

/-- A wave's system register written (02 R44); none where the index window would pass V (02 R38). -/
def Wave.setSys (w : Wave) (n : Nat) (x : DWord) : Option Wave :=
  match n with
  | 1 => some { w with epc := x.extractLsb' 0 57 }
  | 4 => some { w with flane := (w.flane.extractLsb' 64 64 : DWord) ++ x }
  | 5 => some { w with flane := x ++ (w.flane.extractLsb' 0 64 : DWord) }
  | 6 => some { w with mile := x.extractLsb' 0 32 }
  | 7 => some { w with milepc := x &&& 0x1FFFFFFFFFFFFF8#64 }
  | 8 => if w.vregs < (x.extractLsb' 0 8).toNat + w.iwl.toNat then none else some { w with iwb := x.extractLsb' 0 8 }
  | 9 => if w.vregs < w.iwb.toNat + (x.extractLsb' 0 9).toNat then none else some { w with iwl := x.extractLsb' 0 9 }
  | _ => some w

/-- SYSW. -/
def execSysw (k : Ctl) (idx : BitVec 6) (a : Desc) (s : State) : Host.Outcome State Fault Refusal :=
  instr s (.wide k [src a 2])
    (fun c => firstOf (if 15 < idx.toNat then some (cInstr 9) else none)
      (if !(c.hnd && handlerWrites idx.toNat) then some (cProtect 4) else none))
    fun c act =>
      match c.w.setSys idx.toNat (c.addr act a) with
      | none => .fail (.plain (cOperand 2))
      | some w => .ok (.of (c.put w))

/-! ### PROBE and ACHK -/

/-- The space of a PROBE. -/
def PrSpace.space : PrSpace → Space
  | .dv => .device | .pr => .peer | .hs => .host

/-- The access of a PROBE. -/
def PrKind.access : PrKind → Access
  | .ld => .load | .st => .store | .am => .atomic

/-- The result of 14 Table 14-8. -/
def Ctx.probe (c : Ctx) (a : Nat) (sp : Space) (k : Access) : DWord :=
  if 2 ^ 57 ≤ a || (2 ^ 56 ≤ a && !c.hnd) then 0
  else
    match c.s.lookup c.vf c.die a with
    | none => 0
    | some x =>
      if !sp.accepts x.cls || !k.permits x then 0
      else
        let b (v : Bool) (n : Nat) : Nat := if v then 2 ^ n else 0
        BitVec.ofNat 64 (2 ^ 13 * x.psz + 2 ^ 7 * x.set + 2 ^ 4 * x.cls + b x.pat 3 + b x.pw 2 + b x.pr 1 + 1)

/-- PROBE. -/
def execProbe (k : Ctl) (d addr : Desc) (sp : PrSpace) (kind : PrKind) (s : State) : Host.Outcome State Fault Refusal :=
  instr s (.wide k [dst d, src addr 2]) (fun _ => needK d) fun c act =>
    .ok (.of (c.dest d true [(leader act, c.probe (c.addr act addr).toNat (PrSpace.space sp) (PrKind.access kind))] c.s))

/-- ACHK: no architectural effect. -/
def execAchk (k : Ctl) (s : State) : Host.Outcome State Fault Refusal := instr s (.wide k []) noOwn fun c _ => .ok (.of c.s)

end Sys2Proof.Machine
end

