-- ==== Sys2Proof/Machine/Preempt.lean ====
section
/-!
DEFINITION. Sys2Proof/Machine/Preempt.lean: pre-emption (20 R346, R347), the save of a convoy (R348, R349), its restore (R350, R352,
R353), flush and restart (R354), and the failures of save areas (R420).
-/
namespace Sys2Proof.Machine

open Sys2Proof

/-! ### Choosing the action (20 R346, R347) -/

/-- A > 0 and A − E ≤ 2^17, A being the mean placed lifetime of the grid's retired convoys (20 R346). -/
def Grid.nearlyOver (g : Grid) (e : Nat) : Bool := 0 < g.retired && 0 < g.life && g.life ≤ (e + 2 ^ 17) * g.retired

/-- A wave is parked: it has a wait record whose event has not come. -/
def Wave.parked (w : Wave) : Bool := w.wait.isSome && !w.woken

/-- What Table 20-2 chooses for a convoy. -/
def State.preAction (s : State) (k : Nat) (cv : Convoy) (why : PreReason) : ConvSt :=
  let e := s.fab - cv.since
  match why with
  | .frequency => .draining
  | .shrink | .migration | .driver => .saving
  | .priority | .waiting | .timeSlice =>
    if s.flushable cv && 64 * e < s.saveBytes k cv then .flushing
    else if ((s.grid? cv.grid).elim false fun g => g.nearlyOver e) && !(s.liveWaves k).any fun p => p.2.parked then .draining
    else .saving

/-- A request on a convoy: none where it is not on a cluster, is being torn down, or has stopped already. -/
def State.preempt (s : State) (k : Nat) (why : PreReason) : Option State :=
  match s.convoy? k with
  | none => none
  | some cv =>
    if cv.teardown.isSome || !(cv.st == .resident || cv.st == .draining) then none
    else
      let act := s.preAction k cv why
      some (s.setConvoy k { cv with st := act, why := why, relaunches := if act = .flushing then 0 else cv.relaunches })

/-- PREEMPT_REQUEST. -/
def execPreemptRequest (conv : Nat) (why : PreReason) (s : State) : Host.Outcome State Fault Refusal := happens s (s.preempt conv why)

/-- DRAIN_TIMEOUT: a drain that lasts 2^20 fabric cycles becomes a save. -/
def execDrainTimeout (conv : Nat) (s : State) : Host.Outcome State Fault Refusal :=
  happens s (match s.convoy? conv with
    | some cv => if cv.st == .draining && cv.teardown.isNone then some (s.setConvoy conv { cv with st := .saving }) else none
    | none => none)

/-! ### Save (20 R348, R349) -/

/-- The waves of a convoy that run their trap handler. -/
def State.handlers (s : State) (k : Nat) : List Nat := ((s.liveWaves k).filter fun p => p.2.level == .handler).map Prod.fst

/-- A bad word of a convoy that is being saved, with its crew (25 R412). -/
def State.firstBadWord (s : State) (k : Nat) (cv : Convoy) : Option (Option Nat × Nat) :=
  match (s.crewsOf k).findSome? fun p => p.2.bad.head?.map fun b => (some (p.1 % 8), b) with
  | some x => some x
  | none => cv.bad.head?.map fun b => (none, b)

/-- Every handler wave put back to its milestone, with the K of its frame. -/
def State.toMilestones (s : State) (k d : Nat) (cv : Convoy) : State :=
  (s.handlers k).foldl (fun s key => match s.wave? (waveOfKey key) with
    | some w =>
      let b := s.saved cv.vf d w.frame 128
      s.setWave (waveOfKey key) (w.toMilestone ((List.range 16).map fun n => BitVec.ofNat 64 (fieldOf b (8 * n) 8)))
    | none => s) s

/-- The lines that a saved convoy's waves wait on. -/
def lineWaits (l : List (Nat × Wave)) : List Nat :=
  l.filterMap fun p => match p.2.wait with
    | some (.line pa) => some pa
    | _ => none

/-- Whether a wave of a saved convoy makes it runnable at once (18 R325): it does not wait, or its event has come; it waits in a barrier,
for an event record, or for its own convoy's scratchpad or convoy memory, which can come from nothing else; or it waits in a way for which
the rule names no event (DEDUCED, log 39). A line of device memory and a batch are waited for. -/
def Wave.runsAtOnce (w : Wave) : Bool :=
  w.woken ||
    match w.wait with
    | none => true
    | some (.line pa) => 2 ^ 60 ≤ pa
    | some (.batch _) | some .mfnc | some (.batchEng _) => false
    | some _ => true

/-- A saved convoy is runnable at once if one of its waves is, or if none is left to run. -/
def runsAtOnce (l : List (Nat × Wave)) : Bool := l.isEmpty || l.any fun p => p.2.runsAtOnce

/-- A line enters a die's wake table of 4,096 entries for a convoy. -/
def State.tableLine (s : State) (d k line : Nat) : State :=
  let used := ((s.wakeTable.filter fun p => p.1 / 2 ^ 40 == d).map fun p => p.2.length).sum
  let key := 2 ^ 40 * d + lineOf line
  let l := lookD s.wakeTable key []
  if l.contains k || 4096 ≤ used then s else { s with wakeTable := ins s.wakeTable key (l ++ [k]) }

/-- The faults of an engine's shadow groups, those of uncorrectable shadows among them, which their images cannot show (05 R111). -/
def Engine.groupFaults (x : Engine) : NMap LateF :=
  (x.shadows.filter fun y => !y.bad.isEmpty).foldl (fun m y =>
    if (look m y.group).isSome then m else ins m y.group { cause := cMemerr 5 0, faddr := 0 }) x.shFault

/-- What the device keeps of the engines that a convoy holds. -/
def State.keptOf (s : State) (k cl : Nat) : List (Nat × Nat × NMap LateF) :=
  ((s.heldBy cl k).map fun e => (e, (s.engine cl e).ring.elim 0 Ring.crew, (s.engine cl e).groupFaults)) ++
    if (s.cluster cl).gravel.holder = some k then [(4, 0, [])] else []

/-- The suspended operations of a convoy's engines. -/
def State.suspOf (s : State) (k cl : Nat) : List (Nat × MOp) :=
  (s.heldBy cl k).flatMap fun e => (s.engine cl e).ops.map fun o => (e, o)

/-- The convoy has left its cluster and is saved. -/
def State.nowSaved (s : State) (k : Nat) (cv : Convoy) : State :=
  let d := cv.cluster / 8
  let kept := s.keptOf k cv.cluster
  let susp := s.suspOf k cv.cluster
  let s := s.releaseEngines k cv true
  let s := s.setConvoy k { cv with st := .saved, kept := kept, susp := susp, runnable := runsAtOnce (s.liveWaves k) }
  let s := match s.convoy? k with
    | some cv => s.leaveCluster k cv
    | none => s
  let s := { s with waves := s.waves.map fun (n, w) =>
    (n, if (waveOfKey n).conv = k then { w with stall := false, far := none } else w) }
  ((lineWaits (s.liveWaves k)).foldl (fun (s : State) l => if 2 ^ 60 ≤ l then s else s.tableLine d k l) s).unstall

/-- Steps 2 to 5 of 20 R348 for a convoy that has stopped, its stash lines being given up once its stores are performed: none while
something of them is to come; the state that this step leaves; or `none` inside, where they are all over. -/
def State.quiesce (s : State) (k : Nat) (cv : Convoy) : Option (Option State) :=
  if (s.wavesOf k).any fun p => !p.2.copies.isEmpty || !p.2.sq.isEmpty then none
  else if s.savePhase k = 3 then (s.emptyStashes k).map some
  else if !s.convoyQuiet k || !s.enginesRest cv.cluster k then none
  else some none

/-- CONVOY_SAVE: once the convoy's copies, stores and operations have come to rest, its images are written and what it held is
released. A bad word is dealt with first; an image that cannot be written tears the convoy down (20 R420). -/
def State.saveConvoy (s : State) (k : Nat) : Option State :=
  match s.convoy? k with
  | none => none
  | some cv =>
    if cv.st != .saving || cv.teardown.isSome then none
    else match s.quiesce k cv with
    | none => none
    | some (some s) => some s
    | some none =>
      let s := match s.firstBadWord k cv with
        | some (crew, off) => s.badWordFound k crew off
        | none => s
      match s.convoy? k with
      | none => some s
      | some cv =>
        if cv.st != .saving then some s
        else
          let d := cv.cluster / 8
          let abandoned := s.handlers k
          match s.saveTouch cv.vf d (abandoned.filterMap fun n => (s.wave? (waveOfKey n)).map fun w => (w.frame, 128)) with
          | .wait => none
          | .bad e va => some ((s.setConvoy k { cv with st := .resident }).teardown k { cause := e, faddr := BitVec.ofNat 57 va })
          | .done s =>
            let s := s.toMilestones k d cv
            match s.saveLines cv.vf d (s.savePieces k cv abandoned) with
            | .wait => none
            | .bad e va => some ((s.setConvoy k { cv with st := .resident }).teardown k { cause := e, faddr := BitVec.ofNat 57 va })
            | .done s =>
              match s.convoy? k with
              | none => some s
              | some cv => some (s.nowSaved k cv)

/-- CONVOY_SAVE. -/
def execConvoySave (conv : Nat) (s : State) : Host.Outcome State Fault Refusal := happens s (s.saveConvoy conv)

/-! ### Flush and restart (20 R354) -/

/-- The convoy is queued again in front of its grid's placement order, with its %convoy, its save slot and, of a task grid, its tasks. -/
def State.requeue (s : State) (k : Nat) (cv : Convoy) : State :=
  match s.grid? cv.grid with
  | none => s
  | some g =>
    let x : Again := { index := cv.index, slot := cv.slot, relaunches := cv.relaunches,
                       tasks := (s.wavesOf k).flatMap fun p => if p.2.drained then [] else p.2.tasks }
    s.setGrid cv.grid { g with again := x :: g.again }

/-- CONVOY_FLUSH: once what does not wait on the ring is complete, the convoy's uncommitted work is dropped and it is queued again. -/
def State.flushConvoy (s : State) (k : Nat) : Option State :=
  match s.convoy? k with
  | none => none
  | some cv =>
    if cv.st != .flushing || cv.teardown.isSome then none
    else match s.quiesce k cv with
    | none => none
    | some (some s) => some s
    | some none =>
      let s := s.requeue k cv
      some (((s.releaseEngines k cv false).leaveCluster k cv).removeConvoy k).unstall

/-- CONVOY_FLUSH. -/
def execConvoyFlush (conv : Nat) (s : State) : Host.Outcome State Fault Refusal := happens s (s.flushConvoy conv)

/-! ### Restore (20 R350, R352, R353, R420) -/

/-- A saved convoy that cannot be restored is gone (20 R420). None while a write has to wait. -/
def State.restoreFails (s : State) (k : Nat) (cv : Convoy) (e : BitVec 10) (va : Nat) : Option State :=
  let tasks := ((s.wavesOf k).flatMap fun p => if p.2.drained then [] else p.2.tasks).length
  (s.slotFree cv).bind fun s => (s.removeConvoy k).neverRuns cv.grid cv.index tasks cv.life { cause := e, faddr := BitVec.ofNat 57 va }

/-- The engines' Slate pages before a restore to a cluster: pages of the convoy that another engine still holds go to its image, and
so do the pages of others that the convoy's engines hold. None while a write has to wait. -/
def State.clearSlates (s : State) (k cl : Nat) (kept : List Nat) : Option State :=
  let away := (s.clusters.map Prod.fst).flatMap fun c => ((List.range 4).filter fun e =>
    (s.engine c e).slateOf == some k && !(c == cl && kept.contains e)).map fun e => (c, e)
  let others := (kept.filter fun e => (s.engine cl e).slateOf != some k).map fun e => (cl, e)
  (away ++ others).foldl (fun (s : Option State) p => s.bind fun s => s.slateWrite p.1 p.2) (some s)

/-- The ranges of the save area that a restore reads. -/
def State.restoreSpans (s : State) (k : Nat) (cv : Convoy) (d : Nat) (engines : List Nat) (load : List Nat) (gravel : Bool) : List (Nat × Nat) :=
  let base := s.slotBase cv
  let page (e p : Nat) : Bool := s.saveVal cv.vf d (base + 0x9000 + 0x1000 * e + p) 1 != 0
  let len := s.saveVal cv.vf d (base + 0xD000) 2
  [(base, 128), (base + 0x10000, cv.cmemBytes)] ++
    ((s.crewsOf k).flatMap fun (key, c) =>
      let hdr := base + 0x1000 + 0x1000 * (key % 8)
      let blk := s.crewBlock cv (key % 8)
      [(hdr, 320), (hdr + 0x800, 2048), (blk, c.scratchBytes)] ++
        ((s.wavesOf k).filter fun p => (waveOfKey p.1).crew == key % 8).flatMap fun (wk, w) =>
          let j := (waveOfKey wk).wave
          [(blk + 0x40000 + 128 * w.depth * w.vregs * j, 128 * w.depth * w.vregs), (blk + 0xC0000 + 0x2000 * j, 768),
           (blk + 0xC0000 + 0x2000 * j + 0x400, 3584)]) ++
    (engines.flatMap fun e => [(base + 0x9000 + 0x1000 * e, 256), (base + 0x9800 + 0x1000 * e, 2048), (base + 0x511000 + 0x20000 * e, 0x20000)]) ++
    (load.flatMap fun e => ((List.range 64).filter (page e)).map fun p => (base + 0x591000 + 0x200000 * e + 0x8000 * p, 0x8000)) ++
    if gravel then [(base + 0xD000, 64), (base + 0x410000, (8 * len + 64) * 32), (base + 0x510800, 512)] else []

/-- The wave of a convoy that a suspended operation's record names by its crew and the slot it had. -/
def State.waveAt (s : State) (k crew slot : Nat) : Option Nat :=
  ((s.wavesOf k).find? fun p => (waveOfKey p.1).crew == crew && p.2.slot == slot).map Prod.fst

/-- A suspended operation as its record has it; `kept` is what the device keeps of it. -/
def State.suspended (s : State) (k : Nat) (kept : MOp) (b : List Byte) : MOp :=
  { wave := (s.waveAt k (fieldOf b 1 1 % 8) (fieldOf b 0 1)).getD kept.wave, batch := BitVec.ofNat 16 (fieldOf b 2 2),
    op := kept.op.ofImage (b.drop 4), hnd := (fieldOf b 1 1).testBit 3 }

/-- One engine retaken by a restored convoy: its ring, shadows and operations, and its Slate pages where they were written out. -/
def State.retakeEngine (s : State) (k : Nat) (cv : Convoy) (cl d e crew : Nat) (faults : NMap LateF) : State :=
  let base := s.slotBase cv
  let b := s.saved cv.vf d (base + 0x9000 + 0x1000 * e) 256
  let x := s.engine cl e
  let pages := pageStates b
  let here := x.slateOf = some k
  let slate := if here then x.slate else s.slateOf cv.vf d (base + 0x591000 + 0x200000 * e) pages
  let susp := (cv.susp.filter fun p => p.1 == e).map Prod.snd
  s.setEngine cl e { x with
    holder := some k, freedBy := none, slateOf := none, pageSt := pages, slate := slate, slateBad := if here then x.slateBad else [],
    ring := ringOf x.ringNo crew b, ringNo := x.ringNo + 1,
    shadows := s.shadowsOf cv.vf d (base + 0x511000 + 0x20000 * e) b, shFault := faults,
    ops := susp.zipIdx.map fun p => s.suspended k p.1 (s.saved cv.vf d (base + 0x9800 + 0x1000 * e + 32 * p.2) 32) }

/-- The wait records of a saved convoy's waves, by 16·crew + wave, as their images have them. -/
def State.waitsOf (s : State) (k : Nat) (cv : Convoy) (d : Nat) : List (Nat × WaitRec) :=
  ((s.wavesOf k).filter fun p => !p.2.drained && !p.2.ended).filterMap fun p =>
    (WaitRec.ofImage (s.saved cv.vf d (s.waveRecord cv (waveOfKey p.1) + 0x50) 32)).map fun r => (p.1 % 128, r)

/-- A crew back on a core, with its waves in its free slots. -/
def State.restoreCrew (s : State) (k : Nat) (cv : Convoy) (d key core : Nat) (waits : List (Nat × WaitRec)) (dbg : List DWord) : State :=
  match s.crew? key with
  | none => s
  | some c =>
    let n := key % 8
    let hdr := s.slotBase cv + 0x1000 + 0x1000 * n
    let blk := s.crewBlock cv n
    let s := s.setCrew key { s.crewOf cv.vf d hdr blk (waits.filter fun p => p.1 / 16 == n) c with core := core }
    ((s.wavesOf k).filter fun p => (waveOfKey p.1).crew == n && !p.2.drained).foldl (fun (s : State) (p : Nat × Wave) =>
      let (wk, w) := p
      let j := (waveOfKey wk).wave
      let rec_ := blk + 0xC0000 + 0x2000 * j
      let head := s.saved cv.vf d rec_ 768
      let w := w.ofRecord head (s.saved cv.vf d (rec_ + 0x400) 3584)
        (s.saved cv.vf d (blk + 0x40000 + 128 * w.depth * w.vregs * j) (128 * w.depth * w.vregs))
      -- the slots of the core that no wave already brought back has taken
      let slot := ((s.slotsOn core 1).head?).getD w.slot
      let s := s.setWave (waveOfKey wk) { w with core := core, slot := slot, dbg := dbg, ended := w.ended, clause := none }
      match s.ctx (waveOfKey wk) with
      | some x =>
        let inside := if (fieldOf head 0x15 1).testBit 0 then x.clauseAgain w.clause (BitVec.ofNat 64 (fieldOf head 8 8)) else none
        s.setWave (waveOfKey wk) { x.w with clause := inside }
      | none => s) s

/-- The images of a saved convoy loaded on a cluster, its crews on the given cores (20 R350). -/
def State.loadConvoy (s : State) (k : Nat) (cv : Convoy) (cl : Nat) (cores : List Nat) : State :=
  let d := cl / 8
  let base := s.slotBase cv
  let s := cv.kept.foldl (fun (s : State) (x : Nat × Nat × NMap LateF) =>
    if x.1 < 4 then s.retakeEngine k cv cl d x.1 x.2.1 x.2.2
    else s.setCluster cl { s.cluster cl with gravel := s.gravelOf cv.vf d base k }) s
  let img := s.memOf cv.vf d (base + 0x10000) cv.cmemBytes
  let waits := s.waitsOf k cv d
  let bars := barsOf waits true 8 (s.saved cv.vf d (base + 0x10) 64)
  -- the waves hold no slot while they are brought back one by one
  let away (p : Nat × Wave) : Nat × Wave := if (waveOfKey p.1).conv = k then (p.1, { p.2 with core := 2 ^ 20 }) else p
  let s := { s with waves := s.waves.map away }
  let s := s.setConvoy k { cv with
    st := .resident, cluster := cl, runnable := false, susp := [], kept := [], cmem := img, bad := [], bars := bars,
    order := s.freeCtr, since := s.fab, freeChoice := false, target := none }
  let s := s.unwatch k
  let dbg := s.debugBlock cv d
  (((s.crewsOf k).zip cores).foldl (fun (s : State) (p : (Nat × Crew) × Nat) =>
    s.restoreCrew k cv d p.1.1 p.2 waits dbg) s).setDebug cv.ctxid dbg

/-- CONVOY_RESTORE (within CONVOY_PLACEMENT): a saved convoy is brought back on a cluster, its crews on the given cores. It waits until
the writes of the die that it left have been applied there (DEDUCED, log 41). None while something has to wait. -/
def State.restoreConvoy (s : State) (k cl : Nat) (cores : List Nat) : Option State :=
  match s.convoy? k with
  | none => none
  | some cv =>
    let d := cl / 8
    let engines := (cv.kept.map Prod.fst).filter (· < 4)
    let gravel := cv.kept.any fun x => x.1 == 4
    if s.pkg.any fun p => p.src == cv.cluster / 8 && p.todo.contains d then none
    else
      match s.clearSlates k cl engines with
      | none => none
      | some s =>
        match s.convoy? k with
        | none => some s
        | some cv =>
          match cv.lost with
          | (_, f) :: _ => s.restoreFails k cv f.cause f.faddr.toNat
          | [] =>
            let load := engines.filter fun e => (s.engine cl e).slateOf != some k
            let heads := (engines.map fun e => (s.slotBase cv + 0x9000 + 0x1000 * e, 256)) ++
              if gravel then [(s.slotBase cv + 0xD000, 64)] else []
            match s.saveTouch cv.vf d heads with
            | .wait => none
            | .bad e va => s.restoreFails k cv e va
            | .done s =>
              match s.saveTouch cv.vf d (s.restoreSpans k cv d engines load gravel) with
              | .wait => none
              | .bad e va => s.restoreFails k cv e va
              | .done s =>
                match s.slotState { cv with cluster := cl } 1 with
                | .wait => none
                | .bad e va => s.restoreFails k cv e va
                | .done s => some (s.loadConvoy k cv cl cores)

end Sys2Proof.Machine
end

