-- ==== Sys2Proof/Machine/Launch.lean ====
section
/-!
DEFINITION. Sys2Proof/Machine/Launch.lean: launch queues, acceptance, dependences, placement, the scheduler's own pre-emption and
completion (18 R307 to R325, 21 R368).
-/
namespace Sys2Proof.Machine

open Sys2Proof

/-! ### Queues (18 R307 to R309) -/

/-- HEAD and TAIL of a queue are read again, and whether EN is still 1; a queue whose descriptor cannot be read is disabled. -/
def State.rereadQueue (s : State) (vf q : Nat) : State :=
  match s.homeBytes vf ((s.fn vf).qtb.toNat + 64 * q) 64 with
  | none => s.disableQueue vf q
  | some b =>
    let x := s.queue vf q
    s.setQueue vf q { x with hd := fieldOf b 0 8, tail := fieldOf b 8 8, en := x.en && (fieldOf b 0x1D 1).testBit 0 }

/-- DOORBELL: bits 5:0 name the queue; in recovery mode it is ignored (23 R387). -/
def execDoorbell (vf : Nat) (val : DWord) (s : State) : Host.Outcome State Fault Refusal :=
  let q := val.toNat % 64
  happens s (if (s.fn vf).en && !s.fw.rcv then some (s.rereadQueue vf q) else none)

/-- QERR: a 1 written clears its bit. -/
def execQerrClear (vf : Nat) (val : DWord) (s : State) : Host.Outcome State Fault Refusal :=
  .next (s.setFn vf { s.fn vf with qerr := (s.fn vf).qerr &&& ~~~ val })

/-- Whether a descriptor holds a reserved value, a SIZE out of range or a misaligned BASE. -/
def descBad (b : List Byte) : Bool :=
  let f (o n : Nat) : Nat := fieldOf b o n
  let size := f 0x18 4
  f 0x10 8 % 128 != 0 || size == 0 || 65536 < size || 2 ^ Nat.log2 size != size || 8 ≤ f 0x1C 1 || 8 ≤ f 0x1D 1 || f 0x1E 2 != 0 ||
    (b.drop 0x28).any (· != 0)

/-- The queue that an enabled descriptor gives; PRIV counts in the physical function's descriptors alone. -/
def Queue.ofDesc (x : Queue) (vf : Nat) (b : List Byte) : Queue :=
  let f (o n : Nat) : Nat := fieldOf b o n
  { x with en := true, dev := (f 0x1D 1).testBit 1, priv := (f 0x1D 1).testBit 2 && vf == 0, base := f 0x10 8, size := f 0x18 4,
           prio := f 0x1C 1, cring := f 0x20 8, hd := f 0 8, tail := f 8 8 }

/-- EN of a descriptor has become 1: the descriptor is read, whether the queue was enabled before EN was 0 or not. A descriptor whose EN
the device has still to clear is not (18 R309). -/
def State.enableQueue (s : State) (vf q : Nat) : Option State :=
  if !(s.fn vf).en || 64 ≤ q || (s.queueDesc vf 0 q).any fun pa => s.posts.contains (.clearEn pa) then none
  else
    match s.homeBytes vf ((s.fn vf).qtb.toNat + 64 * q) 64 with
    | none => some (s.disableQueue vf q)
    | some b =>
      if !(fieldOf b 0x1D 1).testBit 0 then
        (if (s.queue vf q).en then some (s.setQueue vf q { s.queue vf q with en := false }) else none)
      else if descBad b then some (s.disableQueue vf q)
      else some (s.setQueue vf q ((s.queue vf q).ofDesc vf b))

/-- QUEUE_ENABLE. -/
def execQueueEnable (vf q : Nat) (s : State) : Host.Outcome State Fault Refusal := happens s (s.enableQueue vf q)

/-! ### Acceptance (18 R310 to R312, R316, R319) -/

/-- A launch record's fields (18 Table 18-3). -/
structure Record where
  kdesc : Nat
  code : Nat
  param : Nat
  plen : Nat
  flags : Nat
  nconv : Nat
  depa : Nat
  depv : Nat
  siga : Nat
  sigv : Nat
  tdesc : Nat
  diemask : Nat
  prio : Nat
  utag : Nat
  rest : Bool
  deriving DecidableEq, Repr

/-- The fields of a record's bytes; `rest`: a reserved byte is nonzero. -/
def Record.of (b : List Byte) : Record :=
  let f (o n : Nat) : Nat := fieldOf b o n
  { kdesc := f 0 8, code := f 8 8, param := f 0x10 8, plen := f 0x18 2, flags := f 0x1A 2, nconv := f 0x1C 4, depa := f 0x20 8,
    depv := f 0x28 8, siga := f 0x30 8, sigv := f 0x38 8, tdesc := f 0x40 8, diemask := f 0x48 4, prio := f 0x4C 1, utag := f 0x50 8,
    rest := f 0x4D 3 != 0 || (b.drop 0x58).any (· != 0) }

namespace Record

/-- TASKGRID. -/
def taskgrid (r : Record) : Bool := r.flags.testBit 0
/-- PARTCAP. -/
def partcap (r : Record) : Bool := r.flags.testBit 1
/-- SERIAL. -/
def serial (r : Record) : Bool := r.flags.testBit 2
/-- SIGSCOPE. -/
def scope (r : Record) : Nat := r.flags / 8 % 4

/-- Check 1. -/
def badField (r : Record) : Bool :=
  r.rest || r.plen % 8 != 0 || 4096 < r.plen || 32 ≤ r.flags || r.scope == 3 || 2 ^ 24 < r.nconv || 16 ≤ r.diemask || 8 ≤ r.prio ||
    (!r.taskgrid && r.tdesc != 0) || (r.plen == 0 && r.param != 0)

end Record

/-- A kernel descriptor's fields (08 Table 8-7). -/
structure KDesc where
  entry : Nat
  w : Nat
  d : Nat
  v : Nat
  kk : Nat
  scratch : Nat
  crews : Nat
  flags : Nat
  param : Nat
  cmem : Nat
  rest : Bool
  deriving DecidableEq, Repr

/-- The fields of a descriptor's bytes. -/
def KDesc.of (b : List Byte) : KDesc :=
  let f (o n : Nat) : Nat := fieldOf b o n
  { entry := f 0 8, w := f 8 1, d := f 9 1, v := f 0xA 1 + 1, kk := f 0xB 1, scratch := f 0xC 4, crews := f 0x10 1, flags := f 0x11 1,
    param := f 0x12 2, cmem := f 0x14 4, rest := (b.drop 0x18).any (· != 0) }

/-- Check 4. -/
def KDesc.bad (k : KDesc) (plen : Nat) : Bool :=
  k.rest || 2 ≤ k.flags || k.w == 0 || 16 < k.w || !(k.d == 1 || k.d == 2 || k.d == 4) || k.v % 8 != 0 || k.kk == 0 || 64 < k.kk ||
    8 < k.crews || plen < k.param

/-- Check 5 (01 R13). -/
def KDesc.tooBig (k : KDesc) : Bool := 524288 < k.w * 128 * k.d * k.v || 262144 < k.scratch || 4194304 < k.cmem

/-- Every page of a range is a DEVICE page whose leaf suits. -/
def State.pagesGood (s : State) (vf va n : Nat) (ok : Xlat → Bool) : Bool :=
  (List.range ((va % 4096 + n + 4095) / 4096)).all fun i =>
    match s.lookup vf 0 (va / 4096 * 4096 + 4096 * i) with
    | some x => x.cls == 0 && ok x
    | none => false

/-- Check 2. -/
def State.badPlace (s : State) (vf : Nat) (r : Record) : Bool :=
  let entry := (s.homeBytes vf r.kdesc 8).elim 0 leVal
  r.kdesc % 64 != 0 || r.code % 8 != 0 || r.param % 8 != 0 || r.depa % 8 != 0 || r.siga % 8 != 0 || r.tdesc % 64 != 0 ||
    !s.pagesGood vf r.kdesc 64 Xlat.pr || (r.taskgrid && !s.pagesGood vf r.tdesc 64 Xlat.pr) ||
    !s.pagesGood vf ((r.code + entry) % 2 ^ 64) 8 Xlat.px || !s.pagesGood vf r.param r.plen Xlat.pr ||
    (r.depa != 0 && !s.pagesGood vf r.depa 8 Xlat.pr) || (r.siga != 0 && !s.pagesGood vf r.siga 8 fun x => x.pw && x.pat)

/-- Check 7 (18 R319), with the task grid descriptor's bytes. -/
def State.badTasks (s : State) (vf tdesc : Nat) (b : List Byte) : Bool :=
  let f (o n : Nat) : Nat := fieldOf b o n
  let qsize := f 8 4
  let seeds := f 0x18 8
  let n := f 0x20 4
  f 0 8 % 64 != 0 || f 0xC 4 != 0 || (b.drop 0x24).any (· != 0) || qsize < 64 || 2 ^ 20 < qsize || 2 ^ Nat.log2 qsize != qsize ||
    n == 0 || qsize < n || seeds % 64 != 0 || !s.pagesGood vf (f 0 8) (64 * qsize) (fun _ => true) ||
    !s.pagesGood vf seeds (64 * n) (fun _ => true) ||
    (List.range n).any (fun i => s.homeVal vf (seeds + 64 * i) 8 % 8 != 0) ||
    s.grids.any fun p => p.2.taskgrid && p.2.vf == vf && p.2.tdesc == tdesc

/-- The reason for which a record is rejected, in the order of Table 18-4. -/
def State.rejects (s : State) (vf : Nat) (x : Queue) (r : Record) : Option Nat :=
  let k := KDesc.of ((s.homeBytes vf r.kdesc 64).getD [])
  if r.badField then some 1
  else if s.badPlace vf r then some 2
  else if r.partcap && !x.priv then some 3
  else if k.bad r.plen then some 4
  else if k.tooBig then some 5
  else if (r.taskgrid && (k.w != 1 || k.d != 1 || k.crews != 0 || r.nconv != 0)) || (!r.taskgrid && r.nconv == 0) then some 6
  else if r.taskgrid && s.badTasks vf r.tdesc ((s.homeBytes vf r.tdesc 64).getD []) then some 7
  else none

/-- The physical address of a DEVICE word of a function. -/
def State.wordAt (s : State) (vf va : Nat) : Nat :=
  match s.lookup vf 0 va with
  | some x => s.devAddr vf x va
  | none => 0

/-- The grid of an accepted record. Scratchpad and convoy memory are rounded up to 1 KiB and 4 KiB (03 Table 3-1); a
kernel without `.convoy` has no convoy memory (01 R12). -/
def State.gridOf (s : State) (vf q : Nat) (x : Queue) (r : Record) : Grid :=
  let k := KDesc.of ((s.homeBytes vf r.kdesc 64).getD [])
  let p := (s.homeBytes vf r.param (min r.plen 128)).getD []
  let t := if r.taskgrid then (s.homeBytes vf r.tdesc 64).getD [] else []
  let seeds := fieldOf t 0x18 8
  let n := fieldOf t 0x20 4
  let seed (i : Nat) : TaskRec :=
    let b := (s.homeBytes vf (seeds + 64 * i) 64).getD []
    { entry := BitVec.ofNat 64 (fieldOf b 0 8), arg := (b.drop 32).take 32, aged := false }
  { vf := vf, q := q, seq := x.hd % 2 ^ 32, entry := BitVec.ofNat 64 (r.code + k.entry), w := k.w, d := k.d, v := k.v, kk := k.kk,
    scratch := (k.scratch + 1023) / 1024 * 1024, crews := max k.crews 1,
    cmem := if k.crews = 0 then 0 else (k.cmem + 4095) / 4096 * 4096, idem := k.flags.testBit 0,
    params := (List.range (min 16 k.kk)).map fun j => BitVec.ofNat 64 (fieldOf p (8 * j) 8), nconv := r.nconv, placed := 0, again := [],
    retired := 0, due := none, depa := if r.depa = 0 then none else some (s.wordAt vf r.depa), depv := BitVec.ofNat 64 r.depv,
    depMet := r.depa == 0, siga := r.siga, sigv := BitVec.ofNat 64 r.sigv,
    scope := if r.scope = 0 then .die else if r.scope = 1 then .pkg else .sys, after := if r.serial then x.last else none,
    partcap := r.partcap, taskgrid := r.taskgrid, tdesc := r.tdesc, diemask := BitVec.ofNat 4 r.diemask, prio := min r.prio x.prio,
    utag := BitVec.ofNat 64 r.utag, code := r.code, qbase := fieldOf t 0 8, qsize := fieldOf t 8 4,
    tpa := if r.taskgrid then s.wordAt vf r.tdesc else 0, sent := n, tasks := (List.range n).map seed, outst := n, blocking := false,
    failed := none, life := 0, noRecord := false, signalled := false, lost := none }

/-- HEAD advances, in the descriptor too; waves that wait for room in the queue look again. None while the write has to wait. -/
def State.advanceHead (s : State) (vf q : Nat) (x : Queue) : Option State :=
  let hd := (x.hd + 1) % 2 ^ 64
  let s := s.setQueue vf q { x with hd := hd }
  let mine (p : Nat × Wave) : Bool := (s.convoy? (waveOfKey p.1).conv).elim false fun cv => cv.vf == vf
  let look (p : Nat × Wave) : Nat × Wave :=
    if p.2.wait = some (.launchQueue q) ∧ mine p then (p.1, { p.2 with woken := true }) else p
  let room : State := { s with waves := s.waves.map look }
  match s.queueDesc vf 0 q with
  | none => some room
  | some pa =>
    if s.canWrite (homeDie pa) (lineOf pa) then some (room.devWrite (homeDie pa) (lineWrite pa (leBytes 8 hd) none) .host) else none

/-- Whether the home dies of a range's lines have every write that is on its way to them (04 R69), so that what was written before TAIL
is read. -/
def State.homeAbreast (s : State) (vf va n : Nat) : Bool :=
  (List.range ((va % 64 + n + 63) / 64)).all fun i => match s.saveAddr vf 0 (lineOf va + 64 * i) false with
    | .ok x => s.canSee (homeDie x.2) x.2 && !s.lineBehind (homeDie x.2) (lineOf x.2)
    | .error _ => true

/-- The lines of a task grid's slot array that its seeds take, in slot order (18 R316). A slot that no translation reaches is not written
(DEDUCED, log 35). -/
def State.seedLines (s : State) (g : Grid) : List (Xlat × Nat × LineWrite) :=
  g.tasks.zipIdx.filterMap fun t => match s.saveAddr g.vf 0 (g.qbase + 64 * t.2) true with
    | .ok x => some (x.1, g.qbase + 64 * t.2, lineWrite x.2 (leBytes 8 t.1.entry.toNat ++ List.replicate 24 0 ++ t.1.arg) none)
    | .error _ => none

/-- The seeds' slots written, and OUTST set to their number. None while a write has to wait. -/
def State.seed (s : State) (g : Grid) : Option State :=
  let l := s.seedLines g
  if !(l.all fun p => s.touchable p.1 true && s.canWrite (homeDie p.2.2.line) p.2.2.line) ||
      !s.canWrite (homeDie g.tpa) (lineOf g.tpa) then none
  else
    let s := l.foldl (fun (s : State) p => ((s.touch p.1 true).cache g.vf p.2.1 p.1).devWrite (homeDie p.2.2.line) p.2.2 .host) s
    some (s.devWrite (homeDie g.tpa) (lineWrite (g.tpa + 16) (leBytes 8 g.outst) none) .host)

/-- The record at HEAD is read and checked: rejected with its completion record, or accepted as a grid. -/
def State.acceptRecord (s : State) (vf q : Nat) : Option State :=
  let x := s.queue vf q
  if !x.en || x.hd == x.tail || x.head.isSome then none
  else
    let at_ := x.base + 128 * (x.hd % x.size)
    if !s.homeAbreast vf at_ 128 then none
    else match s.homeBytes vf at_ 128 with
    | none => some (s.disableQueue vf q)
    | some b =>
      match s.saveTouch vf 0 [(at_, 128)] with
      | .wait => none
      | .bad _ _ => none
      | .done t =>
        let r := Record.of b
        match s.rejects vf x r with
        | some code =>
          if t.pkg.length ≠ s.pkg.length then some t
          else (t.postCring vf q (gridRecord 2 0 (x.hd % 2 ^ 32) (BitVec.ofNat 64 r.utag) code 0)).bind fun s =>
            s.advanceHead vf q { s.queue vf q with last := none }
        | none =>
          let s := t
          match s.saveTouch vf 0 [(r.kdesc, 64), (lineOf r.param, r.plen), (r.tdesc, if r.taskgrid then 64 else 0)] with
          | .wait => none
          | .bad _ _ => none
          | .done s =>
            let g := s.gridOf vf q x r
            let gid := s.nextGrid
            let placed := g.taskgrid && g.depMet
            (if g.taskgrid then s.seed g else some s).bind fun s =>
              let s := { s.setGrid gid g with nextGrid := gid + 1 }
              s.advanceHead vf q { s.queue vf q with head := if placed then none else some gid, last := some gid }

/-- LAUNCH_RECORD_ACCEPT. -/
def execLaunchRecordAccept (vf q : Nat) (s : State) : Host.Outcome State Fault Refusal := happens s (s.acceptRecord vf q)

/-! ### Dependences (18 R313) -/

/-- The dependence word of a queue's head record has reached DEPV. -/
def State.release? (s : State) (vf q : Nat) : Option State :=
  let x := s.queue vf q
  match x.head with
  | none => none
  | some gid =>
    match s.grid? gid with
    | none => none
    | some g =>
      match g.depa with
      | none => none
      | some pa =>
        if g.depMet || s.devVal (homeDie pa) pa 8 < g.depv.toNat then none
        else
          let s := s.setGrid gid { g with depMet := true }
          some (if g.taskgrid then s.setQueue vf q { x with head := none } else s)

/-- DEPENDENCE_RELEASE. -/
def execDependenceRelease (vf q : Nat) (s : State) : Host.Outcome State Fault Refusal := happens s (s.release? vf q)

/-! ### Placement (18 R320, R321, 20 R350, 21 R368) -/

/-- The entry addresses that wait in a queue. -/
def entriesOf (l : List TaskRec) : List DWord := (l.map TaskRec.entry).dedup

/-- Up to 32 tasks of one entry, in queue order, and the others. -/
def gatherTasks (e : DWord) : Nat → List TaskRec → List TaskRec × List TaskRec
  | 0, l => ([], l)
  | _, [] => ([], [])
  | n + 1, t :: r =>
    if t.entry = e then ((t :: (gatherTasks e n r).1), (gatherTasks e n r).2)
    else ((gatherTasks e (n + 1) r).1, t :: (gatherTasks e (n + 1) r).2)

/-- The entry whose tasks are dispatched (01 R26): the oldest aged task's; else an entry whose tasks fill a wave; among these one that
stands in the target core's instruction cache, as a free value says of each (DESIGN CHOICE, log 74); then the oldest task's. -/
def State.pickEntry (s : State) (l : List TaskRec) : Option DWord :=
  match l.find? TaskRec.aged with
  | some t => some t.entry
  | none =>
    let all := entriesOf l
    let full := all.filter fun e => 32 ≤ (l.filter fun t => t.entry == e).length
    let from_ := if full.isEmpty then all else full
    let hot := (from_.zipIdx.filter fun p => s.free.testBit p.2).map Prod.fst
    let l' := if hot.isEmpty then from_ else hot
    (l.find? fun t => l'.contains t.entry).map TaskRec.entry

/-- What may be placed: a new convoy of a grid, one flushed (its place in `again`), a wave of a task grid's tasks, or a saved convoy. -/
inductive Pending where
  | fresh (gid : Nat)
  | again (gid : Nat)
  | tasks (gid : Nat)
  | saved (k : Nat)
  deriving DecidableEq, Repr

/-- The grid of a pending convoy. -/
def State.pendGrid (s : State) : Pending → Option (Nat × Grid)
  | .fresh g => (s.grid? g).map fun x => (g, x)
  | .again g => (s.grid? g).map fun x => (g, x)
  | .tasks g => (s.grid? g).map fun x => (g, x)
  | .saved k => (s.convoy? k).bind fun cv => (s.grid? cv.grid).map fun x => (cv.grid, x)

/-- Every convoy that waits to be placed (18 R321). -/
def State.pending (s : State) : List Pending :=
  let heads := s.fns.flatMap fun f => f.2.queues.filterMap fun x => x.2.head
  (heads.filter fun g => (s.grid? g).elim false fun x => !x.taskgrid && x.again.isEmpty && s.mayPlace x).map .fresh ++
    (s.grids.filter fun p => !p.2.again.isEmpty && s.mayPlace p.2).map (fun p => .again p.1) ++
    (s.grids.filter fun p => p.2.taskgrid && p.2.again.isEmpty && !p.2.tasks.isEmpty && s.mayPlace p.2).map (fun p => .tasks p.1) ++
    (s.convoys.filter fun p => p.2.st == .saved && p.2.runnable && (s.grid? p.2.grid).elim false s.mayPlace).map fun p => .saved p.1

/-- The cluster on which a blocking grid bars others: the one that would first fit it, were there room. -/
def State.barTarget (s : State) (gid : Nat) (g : Grid) : Option Nat :=
  s.bestCluster gid false (allClusters.filter fun c => s.clusterOpen g.vf g.diemask c)

/-- Whether a blocking grid keeps a convoy of another grid from a cluster. -/
def State.barred (s : State) (gid : Nat) (g : Grid) (cl : Nat) : Bool :=
  s.grids.any fun p => p.2.blocking && p.1 != gid && g.prio ≤ p.2.prio && s.barTarget p.1 p.2 == some cl

/-- Where a pending convoy goes now: cluster and cores; none where it fits nowhere, or its queue has no save area or no free slot for
it (20 R345). A convoy that heat has moved goes to its target
while it fits there (24 R403). -/
def State.placeFor (s : State) (p : Pending) : Option (Nat × List Nat) :=
  match s.pendGrid p with
  | none => none
  | some (gid, g) =>
    let held := lookD (s.fn g.vf).csa g.q 0 = 0 || (match p with
      | .fresh _ | .tasks _ => (s.freeSlot g.vf g.q).isNone
      | .again _ | .saved _ => false)
    let fit (cl : Nat) : Option (List Nat) :=
      if s.barred gid g cl then none
      else match p with
        | .saved k => (s.convoy? k).bind fun cv => s.fitsSaved g cv cl
        | _ => s.fits g cl
    let free := match p with
      | .saved k => (s.convoy? k).elim false Convoy.freeChoice
      | _ => false
    let aim := match p with
      | .saved k => (s.convoy? k).bind Convoy.target
      | _ => none
    let good := allClusters.filter fun cl => (fit cl).isSome
    if held then none
    else
      (match aim with
       | some t => if good.contains t then some t else s.bestCluster gid free good
       | none => s.bestCluster gid free good).bind fun cl => (fit cl).map fun c => (cl, c)

/-- The fabric cycles of the last 2^24 that a function's convoys spent on a cluster (21 R368). -/
def State.usageOn (s : State) (vf cl : Nat) : Nat :=
  let from_ := s.fab - 2 ^ 24
  let past := ((s.fn vf).usage.filter fun u => u.1 == cl).map fun u => u.2.2 - max u.2.1 from_
  let now := (s.convoys.filter fun p => p.2.vf == vf && p.2.cluster == cl && p.2.placed).map fun p => s.fab - max p.2.since from_
  past.sum + now.sum

/-- WEIGHT, 0 being taken as 1. -/
def Fn.weightOf (f : Fn) : Nat := max f.weight.toNat 1

/-- Whether one pending convoy goes before another: the higher priority; a saved one; between functions in shared mode that wait for
one cluster the smaller usage by weight; the queue served longest ago (DEDUCED, log 42). -/
def State.before (s : State) (a b : Pending × Nat) : Bool :=
  match s.pendGrid a.1, s.pendGrid b.1 with
  | some (_, g), some (_, h) =>
    let saved (p : Pending) : Bool := match p with
      | .saved _ => true
      | _ => false
    let share (x y : Nat) : Nat := s.usageOn x a.2 * (s.fn y).weightOf
    if g.prio ≠ h.prio then h.prio < g.prio
    else if saved a.1 != saved b.1 then saved a.1
    else if g.vf ≠ h.vf ∧ a.2 = b.2 ∧ share g.vf h.vf ≠ share h.vf g.vf then share g.vf h.vf < share h.vf g.vf
    else (s.queue g.vf g.q).served < (s.queue h.vf h.q).served
  | _, _ => false

/-- The pending convoy to place next, with its cluster and cores. -/
def State.nextPlacement (s : State) : Option (Pending × Nat × List Nat) :=
  (s.pending.filterMap fun p => (s.placeFor p).map fun x => (p, x.1, x.2)).foldl (fun (r : Option (Pending × Nat × List Nat)) x =>
    match r with
    | none => some x
    | some y => if s.before (x.1, x.2.1) (y.1, y.2.1) then some x else some y) none

/-- A queue has been served. -/
def State.serve (s : State) (g : Grid) : State := s.setQueue g.vf g.q { s.queue g.vf g.q with served := s.freeCtr }

/-- The convoy is placed: a new one or a flushed one starts at its entry, a saved one is restored. -/
def State.placeOne (s : State) (p : Pending) (cl : Nat) (cores : List Nat) : Option State :=
  match p with
  | .saved k => (s.pendGrid p).bind fun (_, g) => (s.restoreConvoy k cl cores).map fun s => s.serve g
  | .fresh gid =>
    match s.grid? gid with
    | none => none
    | some g =>
      match s.freeSlot g.vf g.q with
      | none => none
      | some slot =>
        let s := s.setGrid gid { g with placed := g.placed + 1, blocking := false }
        let s := if g.placed + 1 = g.nconv then s.setQueue g.vf g.q { s.queue g.vf g.q with head := none } else s
        (s.startConvoy gid g g.placed cl slot 0 cores g.entry (allLanes g.d) []).map fun s => s.serve g
  | .again gid =>
    match s.grid? gid with
    | none => none
    | some g =>
      match g.again with
      | [] => none
      | x :: r =>
        let s := s.setGrid gid { g with again := r, blocking := false }
        let entry := (x.tasks.head?).elim g.entry TaskRec.entry
        let lanes := if g.taskgrid then lanesFrom (List.range x.tasks.length) else allLanes g.d
        (s.startConvoy gid g x.index cl x.slot x.relaunches cores entry lanes x.tasks).map fun s => s.serve g
  | .tasks gid =>
    match s.grid? gid with
    | none => none
    | some g =>
      match s.freeSlot g.vf g.q, s.pickEntry g.tasks with
      | some slot, some e =>
        let (mine, rest) := gatherTasks e 32 g.tasks
        let s := s.setGrid gid { g with tasks := rest, placed := g.placed + 1, blocking := false }
        (s.startConvoy gid g g.placed cl slot 0 cores e (lanesFrom (List.range mine.length)) mine).map fun s =>
          ((s.taskRoom g.vf g.tdesc).serve g).draw
      | _, _ => none

/-- Whether a pending convoy is a wave of a task grid's tasks. -/
def Pending.isTasks : Pending → Bool
  | .tasks _ => true
  | .fresh _ | .again _ | .saved _ => false

/-- The placement that comes next (18 R321), of a convoy that stands in the queue or is saved. -/
def State.placeNext (s : State) : Option State :=
  match s.nextPlacement with
  | none => none
  | some (p, cl, cores) => if p.isTasks then none else s.placeOne p cl cores

/-- CONVOY_PLACEMENT. -/
def execConvoyPlacement (s : State) : Host.Outcome State Fault Refusal := happens s s.placeNext

/-- A wave of a task grid's tasks is dispatched to a cluster, as a convoy of one crew that is placed as any other (01 R25, 18 R321). -/
def State.dispatchTasks (s : State) (gid cl : Nat) : Option State :=
  match s.nextPlacement with
  | none => none
  | some (p, c, cores) => if p = .tasks gid ∧ c = cl then s.placeOne p c cores else none

/-- TASK_WAVE_DISPATCH: at once when 32 tasks of an entry are gathered or no other queued task shares it (01 R25). -/
def execTaskWaveDispatch (grid cluster : Nat) (s : State) : Host.Outcome State Fault Refusal := happens s (s.dispatchTasks grid cluster)

/-- TASK_GATHER_TIMEOUT: the same, 1,024 fabric cycles after a wave's first task was gathered. -/
def execTaskGatherTimeout (grid cluster : Nat) (s : State) : Host.Outcome State Fault Refusal := happens s (s.dispatchTasks grid cluster)

/-- The head grid of a queue that may place. -/
def State.headGrid (s : State) (vf q : Nat) : Option (Nat × Grid) :=
  (s.queue vf q).head.bind fun gid => (s.grid? gid).bind fun g => if s.mayPlace g then some (gid, g) else none

/-- PLACEMENT_BLOCKING_TIMEOUT: the head convoy has waited 2^20 fabric cycles while others were placed. -/
def execPlacementBlockingTimeout (vf q : Nat) (s : State) : Host.Outcome State Fault Refusal :=
  happens s ((s.headGrid vf q).map fun x => s.setGrid x.1 { x.2 with blocking := true })

/-- The youngest of a list of convoys. -/
def youngest (l : List (Nat × Convoy)) : Option Nat :=
  (l.foldl (fun (r : Option (Nat × Convoy)) p => match r with
    | none => some p
    | some q => if q.2.order < p.2.order then some p else some q) none).map Prod.fst

/-- The priority of a convoy's grid. -/
def State.prioOf (s : State) (cv : Convoy) : Nat := (s.grid? cv.grid).elim 0 Grid.prio

/-- STARVATION_PREEMPT: no cluster has fitted the head convoy for 2^18 fabric cycles; the youngest resident convoy of the lowest lower
priority on a cluster that the head may use is pre-empted. -/
def State.starve (s : State) (vf q : Nat) : Option State :=
  match s.headGrid vf q with
  | none => none
  | some (gid, g) =>
    if (s.placeFor (.fresh gid)).isSome then none
    else
      let low := s.convoys.filter fun p => p.2.st == .resident && p.2.teardown.isNone && s.prioOf p.2 < g.prio &&
        s.clusterOpen g.vf g.diemask p.2.cluster
      let least := low.foldl (fun m p => min m (s.prioOf p.2)) 7
      (youngest (low.filter fun p => s.prioOf p.2 == least)).bind fun k => s.preempt k .priority

/-- STARVATION_PREEMPT. -/
def execStarvationPreempt (vf q : Nat) (s : State) : Host.Outcome State Fault Refusal := happens s (s.starve vf q)

/-- A convoy of a function waits for a cluster that is open to it and on which it does not fit. -/
def State.waitsFor (s : State) (cl : Nat) (ok : Nat → Bool) : Bool :=
  s.pending.any fun p => match s.pendGrid p with
    | some (_, g) => ok g.vf && s.clusterOpen g.vf g.diemask cl && (s.placeFor p).isNone
    | none => false

/-- The resident convoys of a function on a cluster. -/
def State.residents (s : State) (vf cl : Nat) : List (Nat × Convoy) :=
  s.convoys.filter fun p => p.2.vf == vf && p.2.cluster == cl && p.2.st == .resident && p.2.teardown.isNone

/-- SLICE, 0 being taken as 1 (21 Table 21-4). -/
def Fn.sliceOf (f : Fn) : Nat := max f.slice.toNat 1

/-- The fabric cycle from which on a function has held a cluster without a break: from the placement of its oldest resident convoy, or of
one that left later than that. -/
def State.heldFrom (s : State) (vf cl : Nat) : Nat :=
  let past := (s.fn vf).usage.filter fun u => u.1 == cl
  let oldest := (s.residents vf cl).foldl (fun t p => min t p.2.since) s.fab
  (List.range past.length).foldl (fun t _ => past.foldl (fun t u => if u.2.1 < t ∧ t ≤ u.2.2 then u.2.1 else t) t) oldest

/-- TIME_SLICE_EXPIRY: the function of greatest usage by weight on the cluster has held it for its slice while another's convoy waits;
its youngest convoy is pre-empted (21 R368). -/
def State.sliceOver (s : State) (cl vf : Nat) : Option State :=
  let more (x y : Nat) : Bool := s.usageOn y cl * (s.fn x).weightOf ≤ s.usageOn x cl * (s.fn y).weightOf
  let held := s.heldFrom vf cl + 2 ^ 16 * (s.fn vf).sliceOf ≤ s.fab
  if (s.fn vf).mode != 0 || !held || !s.waitsFor cl (· != vf) || !(s.fns.all fun p => (s.residents p.1 cl).isEmpty || more vf p.1) then
    none
  else (youngest (s.residents vf cl)).bind fun k => s.preempt k .timeSlice

/-- TIME_SLICE_EXPIRY. -/
def execTimeSliceExpiry (cluster vf : Nat) (s : State) : Host.Outcome State Fault Refusal := happens s (s.sliceOver cluster vf)

/-- RESIDENT_WAIT_SWITCH: every wave of a resident convoy is parked, not by the spin detector, while a convoy of its function cannot be
placed (18 R325). -/
def State.waitSwitch (s : State) (k : Nat) : Option State :=
  match s.convoy? k with
  | none => none
  | some cv =>
    let l := s.liveWaves k
    if l.isEmpty || !(l.all fun p => p.2.parked && p.2.wait.elim false fun r => !r.isSpin) ||
        !(s.pending.any fun p => (s.pendGrid p).elim false (fun x => x.2.vf == cv.vf) && (s.placeFor p).isNone) then none
    else s.preempt k .waiting

/-- RESIDENT_WAIT_SWITCH. -/
def execResidentWaitSwitch (conv : Nat) (s : State) : Host.Outcome State Fault Refusal := happens s (s.waitSwitch conv)

/-- WAKE_TABLE_SWEEP: the saved convoys of a die whose waits found no room in its wake table are marked runnable (18 R325). -/
def execWakeTableSweep (die : Nat) (s : State) : Host.Outcome State Fault Refusal :=
  let lost (k : Nat) (cv : Convoy) : Bool := cv.st == .saved && cv.cluster / 8 == die &&
    (lineWaits (s.liveWaves k)).any fun l => !(lookD s.wakeTable (2 ^ 40 * die + lineOf l) []).contains k
  .next { s with convoys := s.convoys.map fun p => if lost p.1 p.2 then (p.1, { p.2 with runnable := true }) else p }

/-! ### Completion (18 R314, R315) -/

/-- Whether tile tasks that a grid posted are queued or running (18 R317). -/
def State.tilesOf (s : State) (gid : Nat) : Bool :=
  s.clusters.any fun p => p.2.queued.any (fun t => t.grid == gid) ||
    p.2.engines.any fun x => x.tile.elim false fun t => t.grid == gid

/-- Every convoy of a grid has retired; of a task grid, OUTST is 0; and its tile tasks are over. -/
def State.allRetired (s : State) (gid : Nat) (g : Grid) : Bool :=
  !s.tilesOf gid &&
    if g.taskgrid then g.outst == 0 && g.tasks.isEmpty && g.again.isEmpty && !s.convoys.any fun p => p.2.grid == gid
    else g.retired == g.nconv

/-- How many writes each die has performed. -/
def State.performed (s : State) : List Word := (List.range 4).map fun d => (s.die d).vc[d]?.getD 0

/-- The writes of a grid have been performed at SIGSCOPE (18 R314): under PKG and SYS, everything that was performed at any die when its
last convoy had retired is applied at every die. -/
def State.gridQuiet (s : State) (g : Grid) : Bool :=
  g.scope == .die || (g.due.elim false fun vc => (List.range 4).all fun d => s.applied d vc) &&
    (g.scope != .sys || !s.dir.any fun p => p.2.dirty && s.memHeld p.1)

/-- Every dirty line is written back: it holds the lines that a grid has written (DEDUCED, log 43). -/
def State.writeAll (s : State) : State :=
  s.dir.foldl (fun (s : State) p => if p.2.dirty && !s.memHeld p.1 && !s.memLost p.1 then s.writeBack p.1 else s) s

/-- SIGV added to the signal word at its home die, for PKG and SYS at every die at once; none while it has to wait. The answer brings
the cause where SIGA is lost, or is a step that has to come before. -/
def State.signal (s : State) (g : Grid) : Option (Except State (State × Option (BitVec 10))) :=
  if g.siga = 0 then some (.ok (s, none))
  else
    match s.xlate g.vf 0 g.siga .device 3 .atomic with
    | .error c => some (.ok (s, some c))
    | .ok x =>
      let pa := s.devAddr g.vf x g.siga
      let h := homeDie pa
      let line := lineOf pa
      let wide := g.scope != .die
      let used (s : State) : State := (s.touch x true).cache g.vf g.siga x
      if !s.touchable x true then none
      else if s.untouched x true then some (.error (used s))
      else if (s.lineDir line).owner.isSome then (if s.canRecall line then some (.error (s.giveBack line)) else none)
      else if !s.atomReady h line wide then none
      else
        let s := used s
        let w := lineWrite pa (leBytes 8 (s.devVal h pa 8 + g.sigv.toNat)) none
        let s := s.devWrite h w .host
        let s := ((List.range 4).filter fun e => e != h && wide).foldl (fun s e => s.applyNow w e) s
        some (.ok (if g.scope = .sys then s.writeBack line else s, none))

/-- The grid is gone, with what was kept of its code. -/
def State.removeGrid (s : State) (gid : Nat) : State :=
  { s with grids := del s.grids gid, codeHist := s.codeHist.filter fun p => p.1 / 2 ^ 48 != gid }

/-- The completion record of a grid whose signal is made. -/
def Grid.doneRecord (g : Grid) (lost : Option (BitVec 10)) : List Byte :=
  match lost, g.failed with
  | some c, _ => gridRecord 4 c g.seq g.utag g.siga 0
  | none, some (f, i) => gridRecord 1 f.cause g.seq g.utag f.faddr.toNat i
  | none, none => gridRecord 0 0 g.seq g.utag 0 0

/-- GRID_COMPLETION: the signal, then the record; while the ring is full the device holds the record and its queue places no convoy. A
disabled queue's record is dropped. -/
def State.completeGrid (s : State) (gid : Nat) : Option State :=
  match s.grid? gid with
  | none => none
  | some g =>
    if !g.depMet || !s.allRetired gid g then none
    else if g.scope != .die && g.due.isNone then some (s.setGrid gid { g with due := some s.performed })
    else if !g.signalled && !s.gridQuiet g then none
    else
      match if g.signalled then some (.ok (s, g.lost)) else (if g.scope = .sys then s.writeAll else s).signal g with
      | none => none
      | some (.error s) => some s
      | some (.ok (s, lost)) =>
        if g.noRecord then some (s.removeGrid gid)
        else
          match s.postCring g.vf g.q (g.doneRecord lost) with
          | some s => some (s.removeGrid gid)
          | none => if g.signalled then none else some (s.setGrid gid { g with signalled := true, lost := lost })

/-- GRID_COMPLETION. -/
def execGridCompletion (grid : Nat) (s : State) : Host.Outcome State Fault Refusal := happens s (s.completeGrid grid)

end Sys2Proof.Machine
end

