-- ==== Sys2Proof/Machine/Power.lean ====
section
/-!
DEFINITION. Sys2Proof/Machine/Power.lean: frequency transitions (20 R355, 24 R393 to R395), the margin servo (R397), gating (R399), self-refresh
(R400), SAVEREQ (R401), migration and rationing (R402 to R404). Voltages are in units of 5 mV.
-/
namespace Sys2Proof.Machine

open Sys2Proof

/-! ### Rails (24 R392, R393) -/

/-- The fixed rail of a die: 0.70 V, or 0.75 V under FRAIL. -/
def Die.rail (x : Die) : Nat := if x.frail then 150 else 140

/-- A line through two points, rounded up: the voltage applied is at least the exact one (DEDUCED, log 44). -/
def between (c c0 v0 c1 v1 : Nat) : Nat := v0 + ((c - c0) * (v1 - v0) + (c1 - c0) - 1) / (c1 - c0)

/-- Table 24-1 at a frequency code: the floor, or with `nom` the nominal voltage. -/
def voltAt (nom : Bool) (c : Nat) : Nat :=
  let pick (a b : Nat) : Nat := if nom then b else a
  if c ≤ 14 then pick 76 84
  else if c ≤ 32 then between c 14 (pick 76 84) 32 (pick 100 112)
  else if c ≤ 56 then between c 32 (pick 100 112) 56 (pick 132 150)
  else if c ≤ 60 then between c 56 (pick 132 150) 60 (pick 142 160)
  else between (min c 64) 60 (pick 142 160) 64 (pick 152 170)

/-- The code that a FREQ value stands for on a die. -/
def Die.code (x : Die) (freq : Nat) : Nat :=
  let c := min (max freq 14) 64
  if x.frail then c else min c 60

/-- A voltage clamped to a window. -/
def clampV (v lo hi : Nat) : Nat := min (max v lo) hi

/-- A voltage held within the window that the fixed rail gives. -/
def Die.window (x : Die) (v : Nat) : Nat := clampV v (x.rail - 70) (x.rail + 20)

/-! ### Frequency transitions (20 R355, 24 R394, R395) -/

/-- The convoys that are on a cluster. -/
def State.onCluster (s : State) (cl : Nat) : List (Nat × Convoy) := s.convoys.filter fun p => p.2.cluster == cl && p.2.placed

/-- Pre-emption requests on the resident convoys of a list. -/
def State.preemptAll (s : State) (why : PreReason) (l : List (Nat × Convoy)) : State :=
  l.foldl (fun s p => (s.preempt p.1 why).getD s) s

/-- A transition towards FREQ begins: placement stops and residents drain. -/
def State.startTransition (s : State) (cl : Nat) : State :=
  let s := s.setCluster cl { s.cluster cl with busy := true }
  s.preemptAll .frequency (s.onCluster cl)

/-- FREQ_WRITE. A value that names the running frequency starts nothing. -/
def execFreqWrite (cluster : Nat) (code : BitVec 7) (s : State) : Host.Outcome State Fault Refusal :=
  let c := s.cluster cluster
  let s := s.setCluster cluster { c with freq := code }
  .next (if c.busy || (s.die (cluster / 8)).code code.toNat = c.fnow.toNat then s else s.startTransition cluster)

/-- Held writes of FRAIL = 0 to a die are made again when a transition ends. -/
def State.releaseFrail (s : State) (d : Nat) : State :=
  { s with agenda := s.agenda ++ s.held.filter (· == .ev (.frailWrite d false)),
           held := s.held.filter (· != .ev (.frailWrite d false)) }

/-- Rail and clock change on an empty cluster, and placement resumes (R355, step 4; R395). -/
def State.endTransition (s : State) (cl : Nat) : State :=
  let c := s.cluster cl
  let d := s.die (cl / 8)
  let f := d.code c.freq.toNat
  let v := if c.fnow.toNat < f then max c.vnow.toNat (voltAt true f) else c.vnow.toNat
  let s := s.setCluster cl { c with fnow := BitVec.ofNat 7 f, vnow := BitVec.ofNat 8 (d.window v), busy := false }
  (s.releaseFrail (cl / 8)).unstall

/-- TRANSITION_TIMEOUT: whatever is still on the cluster is saved, a convoy that was to be flushed too; the change follows once the cluster is
empty. -/
def State.transition (s : State) (cl : Nat) : Option State :=
  if !(s.cluster cl).busy then none
  else
    let stop (p : Nat × Convoy) : Nat × Convoy :=
      if p.2.cluster = cl ∧ p.2.placed ∧ p.2.teardown = none then (p.1, { p.2 with st := .saving }) else p
    let s := { s with convoys := s.convoys.map stop }
    let s := (s.onCluster cl).foldl (fun (s : State) p => (s.saveConvoy p.1).getD s) s
    some (if (s.onCluster cl).isEmpty then s.endTransition cl else s)

/-- TRANSITION_TIMEOUT. -/
def execTransitionTimeout (cluster : Nat) (s : State) : Host.Outcome State Fault Refusal := happens s (s.transition cluster)

/-! ### The margin servo (24 R397) -/

/-- ServoStep, from the mismatches per 2^20 checked instructions and the recovery cycles per 256. -/
def Cluster.servoStep (c : Cluster) (d : Die) (mtgt rlim m r : Nat) : Cluster :=
  if c.busy then c
  else
    let lo := max (voltAt false c.fnow.toNat) (d.rail - 70)
    let hi := d.rail + 20
    let v := c.vnow.toNat
    let v := if rlim < r then v + 4
      else if c.servo ∧ m < mtgt then v - 1
      else if c.servo ∧ 2 * mtgt < m then v + 1
      else if !c.servo then max (v - 1) c.vset.toNat
      else v
    { c with vnow := BitVec.ofNat 8 (clampV v lo hi) }

/-- SERVO_STEP. -/
def execServoStep (cluster mism recov : Nat) (s : State) : Host.Outcome State Fault Refusal :=
  .next (s.setCluster cluster ((s.cluster cluster).servoStep (s.die (cluster / 8)) s.mtgt.toNat s.rlim.toNat mism recov))

/-! ### FRAIL (24 R392, R393) -/

/-- The clusters of a die. -/
def clustersOf (d : Nat) : List Nat := (List.range 8).map fun i => 8 * d + i

/-- A die's fixed rail set, its logic rails held within the new window. -/
def State.setRail (s : State) (d : Nat) (on : Bool) : State :=
  let x := { s.die d with frail := on }
  (clustersOf d).foldl (fun (s : State) cl =>
    let c := s.cluster cl
    s.setCluster cl { c with vnow := BitVec.ofNat 8 (x.window c.vnow.toNat) }) (s.setDie d x)

/-- FRAIL_WRITE: before the rail is lowered every cluster above code 60 makes its transition to 60, and the write waits for them. -/
def execFrailWrite (die : Nat) (on : Bool) (s : State) : Host.Outcome State Fault Refusal :=
  let over60 := (clustersOf die).filter fun cl => 60 < (s.cluster cl).freq.toNat
  let s := if on then s else over60.foldl (fun (s : State) cl =>
    let c := s.cluster cl
    let s := s.setCluster cl { c with freq := 60 }
    if c.busy || c.fnow.toNat ≤ 60 then s else s.startTransition cl) s
  let running := (clustersOf die).any fun cl => 60 < (s.cluster cl).fnow.toNat
  .next (if on || !running then s.setRail die on
    else { s with held := (s.held.filter (· != .ev (.frailWrite die false))) ++ [.ev (.frailWrite die false)] })

/-! ### Gating (24 R399) -/

/-- The slices of a die that gating switches off. -/
def gatedSlices (d : Nat) : List Nat := (List.range 44).map fun i => 48 * d + 4 + i

/-- The slice of a line of a die among its four shell slices, or among all 48. -/
def sliceFor (gated : Bool) (line : Nat) : Nat :=
  48 * homeDie line + (if gated then Config.sliceHash (lineOf line) % 4 else Config.sliceHash (lineOf line) % 48)

/-- A trigger handed over to a slice joins its queue. One that finds the queue full takes its default action and is counted as dropped; a
message that was accepted stays accepted (07 R138). -/
def State.handOver (s : State) (n : Nat) (t : Trigger) : State :=
  match s.enqueue n t with
  | (s, true) => s
  | (s', false) =>
    if t.kind = .msg then let y := s.slice n; s.setSlice n { y with queue := y.queue ++ [t] } else s'.defaultAction t

/-- The triggers of a die's slices go to the slices that serve their lines. -/
def State.handTriggers (s : State) (gated : Bool) (slices : List Nat) : State :=
  slices.foldl (fun (s : State) n =>
    let x := s.slice n
    let go := x.queue.filter fun t => sliceFor gated t.line != n
    let s := s.setSlice n { x with queue := x.queue.filter fun t => sliceFor gated t.line == n }
    go.foldl (fun (s : State) t => s.handOver (sliceFor gated t.line) t) s) s

/-- The Slate pages and windows of a die's engines go to their images and spill areas; none while a write has to wait. -/
def State.giveUpEngines (s : State) (d : Nat) : Option State :=
  (clustersOf d).foldl (fun (s : Option State) cl => (List.range 4).foldl (fun (s : Option State) e => s.bind fun s =>
    (s.slateWrite cl e).bind fun s =>
      ((s.engine cl e).owner.map Prod.fst).foldl (fun (s : Option State) w => s.bind fun s => s.spillWindow cl e w) (some s)) s) (some s)

/-- Steps 3 to 5 of gating, once no convoy, tile task or invocation runs on the die. -/
def State.finishGate (s : State) (d : Nat) : Option State :=
  let free := (clustersOf d).all fun cl => (s.onCluster cl).isEmpty && (s.cluster cl).engines.all fun e => e.tile.isNone
  let calm := (gatedSlices d).all fun n => (s.slice n).inv.isNone && (s.slice n).reqs.isEmpty
  if !free || !calm then none
  else
    match s.giveUpEngines d with
    | none => none
    | some s =>
      let dirty := s.dir.filter fun p => p.2.dirty && homeDie p.1 == d && (gatedSlices d).contains (sliceFor false p.1)
      let s := dirty.foldl (fun (s : State) p => s.writeBack p.1) s
      let s := s.handTriggers true (gatedSlices d)
      let s := (gatedSlices d).foldl (fun (s : State) n => s.setSlice n { s.slice n with data := [] }) s
      let off (p : Nat × Core) : Nat × Core := if dieOfCore p.1 = d then (p.1, { p.2 with l1 := [], assay := [] }) else p
      let s := { s with cores := s.cores.map off }
      some (s.setDie d { s.die d with state := 2 })

/-- GATE_DIE: gating starts, its convoys being saved; a die whose convoys have left goes on to be switched off; while
the die wakes, the write is held. -/
def State.gate (s : State) (d : Nat) : Option State :=
  let x := s.die d
  if x.state = 0 then
    let s := s.setDie d { x with gate := true, cmp := false, state := 1 }
    let s := s.preemptAll .shrink (s.convoys.filter fun p => p.2.cluster / 8 == d && p.2.placed)
    some ((s.finishGate d).getD s)
  else if x.state = 1 then s.finishGate d
  else if x.state = 3 then some (s.later (.gateDie d))
  else none

/-- GATE_DIE. -/
def execGateDie (die : Nat) (s : State) : Host.Outcome State Fault Refusal := happens s (s.gate die)

/-- WAKE_DIE: the die is powered, STATE being 3; then homes return to all its slices, STATE is 0 and CMP sets. Gating in progress ends where
it stands. -/
def State.wake (s : State) (d : Nat) : Option State :=
  let x := s.die d
  if x.state = 0 then none
  else if x.state = 3 then
    let s := s.setDie d { x with cmp := true, state := 0 }
    some (s.handTriggers false ((List.range 4).map fun i => 48 * d + i)).unstall
  else some (s.setDie d { x with gate := false, state := 3 })

/-- WAKE_DIE. -/
def execWakeDie (die : Nat) (s : State) : Host.Outcome State Fault Refusal := happens s (s.wake die)

/-- SELF_REFRESH_ENTRY: stack n of the package is stack n mod 2 of die n div 2. -/
def execSelfRefreshEntry (stack : Nat) (s : State) : Host.Outcome State Fault Refusal :=
  let x := s.die (stack / 2)
  .next (s.setDie (stack / 2) { x with sr := x.sr ||| (1#2 <<< (stack % 2)) })

/-! ### SAVEREQ (24 R401) -/

/-- A write to SAVEREQ. -/
def State.saveReq (s : State) (val : DWord) : Option State :=
  let v := val.toNat
  let hit (p : Nat × Convoy) : Bool := p.2.index == v / 2 ^ 40 && p.2.vf == v / 2 ^ 13 % 128 && p.2.q == v / 2 % 64 &&
    (p.2.st == .resident || p.2.st == .draining)
  if v % 2 = 0 then none
  else
    match s.convoys.find? hit with
    | none => none
    | some (k, _) => (s.preempt k .driver).map fun s => match s.convoy? k with
      | some cv => s.setConvoy k { cv with freeChoice := true }
      | none => s

/-- SAVEREQ. -/
def execSavereq (val : DWord) (s : State) : Host.Outcome State Fault Refusal := happens s (s.saveReq val)

/-! ### Heat (24 R402 to R404) -/

/-- The sensors' readings, cluster by cluster. -/
def State.readTemps (s : State) (temps : List Nat) : State :=
  temps.zipIdx.foldl (fun (s : State) p => s.setCluster p.2 { s.cluster p.2 with temp := BitVec.ofNat 8 p.1 }) s

/-- A hot cluster. -/
def State.isHot (s : State) (cl : Nat) : Bool := (s.die (cl / 8)).state != 2 && s.hot.toNat ≤ (s.cluster cl).temp.toNat

/-- A convoy may move: 50 steps of 1 ms since its last move, and at most one move in the last 1,000. -/
def State.mayMove (s : State) (cv : Convoy) : Bool :=
  cv.moves.all (fun t => t + 50 ≤ s.therm) && (cv.moves.filter fun t => s.therm < t + 1000).length < 2

/-- The coolest cluster to which a convoy may move. -/
def State.coolTarget (s : State) (k : Nat) (cv : Convoy) : Option Nat :=
  let from_ := (s.cluster cv.cluster).temp.toNat
  match s.grid? cv.grid with
  | none => none
  | some g =>
    let ok (cl : Nat) : Bool :=
      let t := (s.cluster cl).temp.toNat
      t < s.hot.toNat && t + 6 ≤ from_ && (s.fitsSaved g { cv with kept := s.keptOf k cv.cluster } cl).isSome
    (allClusters.filter ok).foldl (fun (r : Option Nat) cl => match r with
      | none => some cl
      | some b => if (s.cluster cl).temp.toNat < (s.cluster b).temp.toNat then some cl else some b) none

/-- The convoy that leaves a hot cluster, with its target: the one that has run longest among those that may move. -/
def State.mover (s : State) (cl : Nat) : Option (Nat × Nat) :=
  let l := (s.convoys.filter fun p => p.2.cluster == cl && p.2.st == .resident && p.2.teardown.isNone && s.mayMove p.2).filterMap
    fun p => (s.coolTarget p.1 p.2).map fun t => (p.1, p.2, t)
  (l.foldl (fun (r : Option (Nat × Convoy × Nat)) x => match r with
    | none => some x
    | some y => if x.2.1.order < y.2.1.order then some x else some y) none).map fun x => (x.1, x.2.2)

/-- One hot cluster's move. -/
def State.moveOff (s : State) (cl : Nat) : State :=
  match if s.isHot cl then s.mover cl else none with
  | none => s
  | some (k, t) =>
    match s.preempt k .migration with
    | none => s
    | some s =>
      match s.convoy? k with
      | some cv => s.setConvoy k { cv with freeChoice := true, target := some t, moves := cv.moves ++ [s.therm] }
      | none => s

/-- THERMAL_MIGRATION_STEP. -/
def execThermalMigrationStep (temps : List Nat) (s : State) : Host.Outcome State Fault Refusal :=
  let s := s.readTemps temps
  .next (allClusters.foldl State.moveOff { s with therm := s.therm + 1 })

/-- TRATION written to PWRQ of every core of the dies that are not gated; 0 stands for no ration. -/
def State.writeRation (s : State) (n : Nat) : State :=
  (allCores.filter fun c => (s.die (dieOfCore c)).state != 2).foldl (fun (s : State) c =>
    s.setCore c { s.core c with pwrq := BitVec.ofNat 6 n }) s

/-- RATION_STEP: `overPower` says that the package has drawn more than PLIM for 1 ms. -/
def State.ration (s : State) (overPower : Bool) : State :=
  let stuck := allClusters.any fun cl => s.isHot cl && (s.mover cl).isNone
  let cool := allClusters.all fun cl => (s.cluster cl).temp.toNat + 3 < s.hot.toNat
  let now := s.tration.toNat
  if stuck || overPower then
    let n := max 4 ((if now = 0 then 32 else now) - 4)
    ({ s with allHot := true, tration := BitVec.ofNat 6 n }).writeRation n
  else if now = 0 then { s with allHot := false }
  else if cool then
    let n := now + 4
    if 32 ≤ n then ({ s with allHot := false, tration := 0 }).writeRation 32
    else ({ s with tration := BitVec.ofNat 6 n }).writeRation n
  else s.writeRation now

/-- RATION_STEP. -/
def execRationStep (overPower : Bool) (temps : List Nat) (s : State) : Host.Outcome State Fault Refusal :=
  .next ((s.readTemps temps).ration overPower)

end Sys2Proof.Machine
end

