-- ==== Sys2Proof/Machine/Host.lean ====
section
/-!
DEFINITION. Sys2Proof/Machine/Host.lean: the host's accesses and registers (22 R371, R373, 21 R365, 19 R339, 00 R7), and the Causeway ports and
the domain (22 R374 to R382).
-/
namespace Sys2Proof.Machine

open Sys2Proof

/-! ### Device memory from the host (22 R371, 23 R390) -/

/-- The lines of a host access with their FPA offsets: bytes by line, at an FPA. -/
def hostChunks (fpa : Nat) : Nat → List Byte → List (Nat × List Byte)
  | 0, _ => []
  | _, [] => []
  | n + 1, b =>
    let k := 64 - fpa % 64
    (fpa, b.take k) :: hostChunks (fpa + k) n (b.drop k)

/-- The device addresses of the chunks of a host access; none where some FPA has no granule or the function is off. -/
def State.hostPlaces (s : State) (vf fpa : Nat) (b : List Byte) : Option (List (Nat × List Byte)) :=
  if !(s.fn vf).en then none
  else (hostChunks fpa b.length b).mapM fun c => ((s.fn vf).granule c.1).map fun pa => (pa, c.2)

/-- How the host's access completed. -/
def State.answered (s : State) (r : HostRead) : State := { s with hostRead := r }

/-- Whether an access lies in the function's BAR2 window (22 Table 22-1: 1 GiB to 512 GiB). -/
def State.inBar2 (s : State) (vf fpa n : Nat) : Bool := fpa + n ≤ 2 ^ (30 + (s.fn vf).bar2.toNat)

/-- A host write by an agent of each line's home die, with tag 0x0000. One that memory or an older write holds up waits; one that reaches
no granule, or memory that failed, writes nothing and completes with Unsupported Request. -/
def State.hostWrite (s : State) (vf fpa : Nat) (b : List Byte) (self : Instr) : State :=
  match s.hostPlaces vf fpa b with
  | none => s.answered .unsupported
  | some l =>
    if l.any fun p => s.memLost p.1 then s.answered .unsupported
    else if !l.all fun p => s.canWrite (homeDie p.1) (lineOf p.1) then (s.later self)
    else l.foldl (fun (s : State) p => s.devWrite (homeDie p.1) (lineWrite p.1 p.2 (some 0)) .host) s

/-- What an AtomicOp leaves of its old value. -/
def HostAtomic.apply (op : HostAtomic) (n old v : Nat) : Nat :=
  match op with
  | .fetchAdd => (old + v) % 256 ^ n
  | .swap => v
  | .cas c => if old = c % 256 ^ n then v else old

/-- An AtomicOp that the device completes (22 R370): one read and write at the home slice, in its die's order (DEDUCED, log 99); the host has the
old value. One that is not aligned, or reaches no granule, completes with Unsupported Request. -/
def State.hostAtomic (s : State) (vf fpa : Nat) (b : List Byte) (op : HostAtomic) (self : Instr) : State :=
  match (if (s.fn vf).en && fpa % b.length = 0 then (s.fn vf).granule fpa else none) with
  | none => s.answered .unsupported
  | some pa =>
    let d := homeDie pa
    if s.memLost pa then s.answered .unsupported
    else if !s.canWrite d (lineOf pa) then s.later self
    else
      let old := s.devVal d pa b.length
      (s.devWrite d (lineWrite pa (leBytes b.length (HostAtomic.apply op b.length old (leVal b))) (some 0)) .host).answered
        (.data (leBytes b.length old))

/-- BAR2_WRITE: a write, or an AtomicOp. -/
def execBar2Write (vf fpa : Nat) (data : HostStore) (s : State) : Host.Outcome State Fault Refusal :=
  .next (if !s.inBar2 vf fpa data.bytes.length then s.answered .unsupported
    else match data.op with
      | some op => s.hostAtomic vf fpa data.bytes op (.bar2Write vf fpa data)
      | none => s.hostWrite vf fpa data.bytes (.bar2Write vf fpa data))

/-- CXL_MEM_WRITE. -/
def execCxlMemWrite (vf fpa : Nat) (data : List Byte) (s : State) : Host.Outcome State Fault Refusal :=
  .next (s.hostWrite vf fpa data (.cxlMemWrite vf fpa data))

/-- Lines read in their home dies' orders, one after the other; the first that cannot be read answers. -/
def State.cxlBytes : State → List (Nat × List Byte) → Except LineRead (State × List Byte)
  | s, [] => .ok (s, [])
  | s, p :: r =>
    match s.readDevice (homeDie p.1) (lineOf p.1) with
    | .line s b _ =>
      match State.cxlBytes s r with
      | .ok (s, l) => .ok (s, (b.drop (p.1 % 64)).take p.2.length ++ l)
      | .error x => .error x
    | x => .error x

/-- A CXL.mem read of lines: the host keeps copies of them. -/
def State.cxlRead (s : State) (l : List (Nat × List Byte)) (self : Instr) : State :=
  match s.cxlBytes l with
  | .ok (t, b) =>
    let keep := (l.map fun p => lineOf p.1).filter fun x => !t.hostLines.contains x
    { t with hostRead := .data b, hostLines := t.hostLines ++ keep.eraseDups }
  | .error (.bad t _) => t.answered .poisoned
  | .error (.again t) => (t.later self).answered .held
  | .error _ => (s.later self).answered .held

/-- A BAR2 read of lines: device memory and not the slices (04 R76). -/
def State.bar2Read (s : State) (l : List (Nat × List Byte)) (self : Instr) : State :=
  if l.any fun p => s.memHeld p.1 then (s.later self).answered .held
  else if l.any fun p => (s.lineErr (lineOf p.1)).isSome && !s.l2Bad (lineOf p.1) then (l.foldl (fun (s : State) p => s.told (lineOf p.1)) s).answered .poisoned
  else s.answered (.data (l.flatMap fun p => (List.range p.2.length).map fun i => s.hbm.byte (p.1 + i)))

/-- A host read: `cxl` reads in the home dies' orders; otherwise device memory is read. -/
def State.hostReads (s : State) (vf fpa n : Nat) (cxl : Bool) (self : Instr) : State :=
  match s.hostPlaces vf fpa (List.replicate n 0) with
  | none => s.answered .unsupported
  | some l =>
    if l.any fun p => s.memLost p.1 then s.answered .unsupported
    else if cxl then s.cxlRead l self
    else s.bar2Read l self

/-- BAR2_READ. -/
def execBar2Read (vf fpa bytes : Nat) (s : State) : Host.Outcome State Fault Refusal :=
  .next (if !s.inBar2 vf fpa bytes then s.answered .unsupported else s.hostReads vf fpa bytes false (.bar2Read vf fpa bytes))

/-- CXL_MEM_READ. -/
def execCxlMemRead (vf fpa bytes : Nat) (s : State) : Host.Outcome State Fault Refusal :=
  .next (s.hostReads vf fpa bytes true (.cxlMemRead vf fpa bytes))

/-! ### Invalidation (21 R365) -/

/-- The range that INVADDR names. -/
def invRange (a : DWord) : Nat × Nat :=
  let va := (a &&& 0x1FFFFFFFFFFF000#64).toNat
  let n := 12 + 9 * (a.toNat % 4)
  if a.toNat % 4 = 3 then (0, 2 ^ 57) else (va / 2 ^ n * 2 ^ n, va / 2 ^ n * 2 ^ n + 2 ^ n)

/-- INVCTL_GO: ignored while BUSY. -/
def execInvctlGo (vf : Nat) (s : State) : Host.Outcome State Fault Refusal :=
  let f := s.fn vf
  .next (if f.inv.isSome then s else s.setFn vf { f with inv := some (invRange f.invaddr) })

/-- PTBR_WRITE: reserved bits are ignored; the whole function is invalidated. -/
def execPtbrWrite (vf : Nat) (val : DWord) (s : State) : Host.Outcome State Fault Refusal :=
  .next (s.setFn vf { s.fn vf with ptbr := val &&& 0xFFFFFFFFFF001#64, inv := some (0, 2 ^ 57) })

/-- Whether a range of addresses meets another. -/
def meets (r : Nat × Nat) (va n : Nat) : Bool := va < r.2 && r.1 < va + n

/-- The spaces that are addressed through translation. -/
def cpVirtual : CpSpace → Bool
  | .dv | .pr | .hs => true
  | .sc | .cv => false

/-- An outstanding store or maintenance operation uses an address of a range. -/
def SqEntry.uses (e : SqEntry) (r : Nat × Nat) : Bool :=
  match e.kind with
  | .cctl _ a n => meets r a n
  | .swb a n => meets r a n
  | .store | .push _ _ _ _ | .disc => isVirtual e.space && e.info.any fun p => meets r (lineOf p.1) 64

/-- The virtual addresses of a matrix operation's lines. -/
def MOpKind.vas : MOpKind → List Nat
  | .mldb _ l _ => l.map Prod.snd
  | .mstc _ _ l _ => l.map Prod.snd
  | .mldc _ l _ => l.map Prod.snd
  | .mring | .mcmt _ _ | .mzero _ _ | .mma _ => []

/-- The virtual addresses of a Gravel operation's lines. -/
def GOpKind.vas : GOpKind → List Nat
  | .ld _ l => l.map Prod.snd
  | .st _ _ _ _ l => l.map Prod.snd
  | .put _ _ _ | .and _ _ _ | .xnr _ _ _ _ | .mux _ _ _ _ | .shf _ _ _ | .mov _ _ | .seed _ _ => []

/-- An outstanding copy uses an address of a range. -/
def CopyOp.uses (o : CopyOp) (r : Nat × Nat) : Bool :=
  o.left.any fun (i, j, _) =>
    (cpVirtual o.dsp && meets r (o.dst + i * o.dstStride + 64 * j) 64) ||
      (cpVirtual o.ssp && meets r (o.src + i * o.srcStride + srcSpan o.cv * j) (srcSpan o.cv))

/-- A wave's outstanding accesses use an address of a range; a PEER or HOST access that awaits its answers may use any. -/
def Wave.uses (w : Wave) (r : Nat × Nat) : Bool :=
  w.far.isSome || w.sq.any (SqEntry.uses · r) || w.copies.any (CopyOp.uses · r) || w.msgs.any (fun m => !m.done && meets r m.va 64) ||
    w.doms.any fun o => match o with
      | .store e => e.uses r
      | .coll o _ => meets r o.dst (8 * o.n) || meets r o.src (8 * o.n)
      | _ => false

/-- An access of a function that may have used an address of the range is not performed yet. -/
def State.inUse (s : State) (vf : Nat) (r : Nat × Nat) : Bool :=
  let mine (k : Nat) : Bool := (s.convoy? (waveOfKey k).conv).elim false fun cv => cv.vf == vf
  let hit (l : List Nat) : Bool := l.any fun a => meets r (lineOf a) 64
  s.waves.any (fun p => mine p.1 && p.2.uses r) ||
    s.clusters.any (fun c => c.2.engines.any (fun e => e.ops.any (fun o => mine o.wave && hit o.op.vas) ||
      e.tile.elim false fun t => vfOf t.ctx == vf) || c.2.gravel.ops.any fun o => mine o.wave && hit o.op.vas) ||
    s.slices.any fun x => x.2.reqs.any fun q => q.vf == vf && hit [q.va]

/-- A watch whose page is gone is cleared with ERR set (19 R339). -/
def State.watchGone (s : State) (vf n : Nat) (r : Nat × Nat) : State :=
  let f := s.fn vf
  let v := lookD f.lwatch n 0
  let va := (v &&& 0x1FFFFFFFFFFFFC0#64).toNat
  if !v.getLsbD 63 || !meets r va 64 || ((s.walk vf 0 va).elim false fun x => x.cls == 0) then s
  else s.setFn vf { f with lwatch := ins f.lwatch n ((v &&& ~~~ (1#64 <<< 63)) ||| 1#64 <<< 62), lwLine := del f.lwLine n }

/-- INVALIDATION_DONE: BUSY clears, the entries that overlap the range being gone, once every access that used one is performed. -/
def State.invalidated (s : State) (vf : Nat) : Option State :=
  let f := s.fn vf
  match f.inv with
  | none => none
  | some r =>
    if s.inUse vf r then none
    else
      let s := s.setFn vf { f with inv := none, tlb := f.tlb.filter fun t => !meets r t.va (2 ^ t.psz) }
      some ((List.range 16).foldl (fun (s : State) n => s.watchGone vf n r) s)

/-- INVALIDATION_DONE. -/
def execInvalidationDone (vf : Nat) (s : State) : Host.Outcome State Fault Refusal := happens s (s.invalidated vf)

/-! ### Line watches (19 R339) -/

/-- LWATCH_ENABLE: a write of LWATCHn; with EN the line is translated, and without a DEVICE page ERR is set. -/
def execLwatchEnable (vf n : Nat) (val : DWord) (s : State) : Host.Outcome State Fault Refusal :=
  let f := s.fn vf
  let line := val &&& 0x1FFFFFFFFFFFFC0#64
  let err := lookD f.lwatch n 0 &&& (1#64 <<< 62)
  let put (v : DWord) (l : NMap Nat) : State := s.setFn vf { f with lwatch := ins f.lwatch n v, lwLine := l }
  .next (if !val.getLsbD 63 then put (line ||| err) (del f.lwLine n)
    else match s.lookup vf 0 line.toNat with
      | some x => if x.cls = 0 then put (line ||| 1#64 <<< 63) (ins f.lwLine n (s.devAddr vf x line.toNat))
          else put (line ||| 1#64 <<< 62) (del f.lwLine n)
      | none => put (line ||| 1#64 <<< 62) (del f.lwLine n))

/-! ### Registers without behaviour of their own (00 R7) -/

/-- A function's own registers, which the host writes in its page; the firmware command starts its step (23 R386). -/
def State.writeFnReg (s : State) (vf off : Nat) (val : DWord) : State :=
  let f := s.fn vf
  if off = 0 then s.setFn vf { f with qtb := val &&& 0xFFFFFFFFFFFFF000#64 }
  else if off = 8 then s.setFn vf { f with terb := val }
  else if 0x200 ≤ off ∧ off < 0x400 ∧ off % 8 = 0 then
    s.setFn vf { f with csa := ins f.csa ((off - 0x200) / 8) (val &&& 0xFFFFFFFFFFFFF000#64) }
  else if off = 0x408 then s.setFn vf { f with invaddr := val &&& 0x1FFFFFFFFFFF003#64 }
  else if off = 0x810 then
    if f.fwstat = 1 then s
    else
      let op := val.extractLsb' 0 4
      let s := s.setFn vf { f with fwcmd := val &&& 0xFFFFFFFFFFFFF00F#64, fwstat := if op = 0 then f.fwstat else 1 }
      let step : List Turn := if op = 0 then [] else if op = 1 ∧ vf = 0 then [.ev .fwUpdate] else if op = 2 then [.ev (.fwAttest vf)]
        else [.ev (.fwReservedOp vf op)]
      { s with agenda := s.agenda ++ step }
  else if off = 0x818 then s.setFn vf { f with fwlen := val.extractLsb' 0 32 }
  else s

/-- The physical function's package registers; in a virtual function's page the offsets ignore writes. -/
def State.writePackReg (s : State) (off : Nat) (val : DWord) : State :=
  if 0x1000 ≤ off ∧ off < 0x1100 ∧ off % 8 = 0 then
    let c := (off - 0x1000) / 8
    s.setCluster c { s.cluster c with vset := val.extractLsb' 32 8, servo := val.getLsbD 30 }
  else if off = 0x1180 then { s with mtgt := val.extractLsb' 0 16, rlim := val.extractLsb' 16 8 }
  else if off = 0x1188 then { s with hot := val.extractLsb' 0 8, plim := val.extractLsb' 8 8 }
  else if off = 0x11A0 then { s with errb := val }
  else s

/-- A wave's register that Quarry or Keystone writes (02 Table 2-5): CAUSE and FADDR too, which a handler only reads;
CTXID is fixed by the context (20 R344; DEDUCED, log 103). -/
def Wave.quarrySet (w : Wave) (n : Nat) (x : DWord) : Option Wave :=
  match n with
  | 2 => some { w with cause := x.extractLsb' 0 10 }
  | 3 => some { w with faddr := x.extractLsb' 0 57 }
  | _ => w.setSys n x

/-- What Quarry writes, at numbers of the model's own from 0x10000 on (DESIGN CHOICE, log 45): route masks (22 R377), TRAPB (02 Table 2-5), the table of
handler sets (07 R136), SLICE and WEIGHT (21 Table 21-4), the mask of an MSI-X vector (22 R373, which the host writes), PWRQ and
LEASE of a core (02 R44), SHARE of a slot (07 Table 7-1), ASTAT of a core (25 R406), the size of BAR2, which the host writes (22 Table 22-1),
and from 0x100000 on a wave's registers by its key and their index (02 Table 2-5). -/
def State.writeQuarryReg (s : State) (vf off : Nat) (val : DWord) : State :=
  let f := s.fn vf
  let i (from_ : Nat) : Nat := (off - from_) / 8
  if off < 0x10800 then { s with routes := put 0 s.routes (i 0x10000) (val.extractLsb' 0 24) }
  else if off = 0x20000 then s.setFn vf { f with trapb := val &&& 0x1FFFFFFFFFFFFF8#64 }
  else if off = 0x20008 then s.setFn vf { f with htable := if val = 0 then none else some val.toNat }
  else if off = 0x20010 then s.setFn vf { f with slice := val.extractLsb' 40 8, weight := val.extractLsb' 32 8 }
  else if off = 0x20018 then s.setFn vf { f with bar2 := BitVec.ofNat 4 (min (val.toNat % 16) 9) }
  else if 0x20800 ≤ off ∧ off < 0x20A10 then
    s.setFn vf { f with msixMask := if val.getLsbD 0 then f.msixMask.filter (· != i 0x20800) ++ [i 0x20800] else f.msixMask.filter (· != i 0x20800) }
  else if 0x21000 ≤ off ∧ off < 0x21800 then s.setCore (i 0x21000) { s.core (i 0x21000) with pwrq := val.extractLsb' 0 6 }
  else if 0x22000 ≤ off ∧ off < 0x22800 then s.setCore (i 0x22000) { s.core (i 0x22000) with lease := val.extractLsb' 0 8 }
  else if 0x23000 ≤ off ∧ off < 0x23800 then
    let c := s.core (i 0x23000)
    s.setCore (i 0x23000) { c with
      aLvm := if val.extractLsb' 48 16 = 0 then c.aLvm else 0, aSrm := if val.extractLsb' 32 16 = 0 then c.aSrm else 0,
      aRsm := if val.extractLsb' 16 16 = 0 then c.aRsm else 0, aRcy := if val.extractLsb' 0 8 = 0 then c.aRcy else 0 }
  else if 0x30000 ≤ off ∧ off < 0x33000 then
    let n := i 0x30000
    let x := s.slice (n / 8)
    match x.slots[n % 8]? with
    | some k => s.setSlice (n / 8) { x with slots := setAt x.slots (n % 8) { k with share := val.extractLsb' 0 8 } }
    | none => s
  else if 0x100000 ≤ off then
    let id := waveOfKey (i 0x100000 / 16)
    match (s.wave? id).bind fun w => w.quarrySet (i 0x100000 % 16) val with
    | some w => s.setWave id w
    | none => s
  else s

/-- REGISTER_WRITE: reserved bits are ignored, and so is a write to an offset that holds no such register. -/
def execRegisterWrite (vf off : Nat) (val : DWord) (s : State) : Host.Outcome State Fault Refusal :=
  .next (if off < 0x1000 then s.writeFnReg vf off val
    else if off < 0x10000 then if vf = 0 then s.writePackReg off val else s
    else s.writeQuarryReg vf off val)

/-- A cleared counter or log count (25 R407, R416): FENCE0 and FENCE1 ignore writes. -/
def State.clearCounter (s : State) (off : Nat) : State :=
  if 0x1800 ≤ off ∧ off < 0x1A00 then
    let n := (off - 0x1800) / 0x40
    let x := s.stack n
    let r := off % 0x40
    s.setStack n (if r = 0 then { x with ace := 0 } else if r = 8 then { x with aue := 0 } else if r = 0x18 then { x with lrty := 0 }
      else if r = 0x20 then { x with llim := 0 } else x)
  else if 0x2000 ≤ off ∧ off < 0xA000 then
    let n := (off - 0x2000) / 0x80
    let x := s.core n
    let r := off % 0x80
    s.setCore n (if r = 0 then { x with chk := 0 } else if r = 8 then { x with lvm := 0 } else if r = 0x10 then { x with srm := 0 }
      else if r = 0x18 then { x with rsm := 0 } else if r = 0x20 then { x with rcy := 0 } else if r = 0x28 then { x with katRun := 0 }
      else if r = 0x30 then { x with katFail := 0 } else if r = 0x48 then { x with pfIss := 0 } else if r = 0x50 then { x with pfUse := 0 }
      else if r = 0x58 then { x with pfLate := 0 } else if r = 0x60 then { x with pfDrop := 0 } else if r = 0x68 then { x with stUse := 0 }
      else if r = 0x70 then { x with stDrop := 0 } else if r = 0x78 then { x with spce := 0 } else x)
  else if 0xA000 ≤ off ∧ off < 0xA800 then
    let n := (off - 0xA000) / 0x40
    let x := s.cluster n
    let r := off % 0x40
    s.setCluster n (if r = 0 then { x with mrpl := 0 } else if r = 8 then { x with grpl := 0 } else if r = 0x10 then { x with crpl := 0 }
      else if r = 0x18 then { x with prst := 0 } else x)
  else if 0xA800 ≤ off ∧ off < 0xA900 then { s with dce := del s.dce ((off - 0xA800) / 8) }
  else s

/-- COUNTER_CLEAR. -/
def execCounterClear (off : Nat) (s : State) : Host.Outcome State Fault Refusal := .next (s.clearCounter off)

/-- MSI_X_UNMASK: the pending interrupt of an unmasked vector is sent. -/
def execMsiXUnmask (vf vec : Nat) (s : State) : Host.Outcome State Fault Refusal :=
  let f := s.fn vf
  let g := { f with msixMask := f.msixMask.filter (· != vec) }
  .next (s.setFn vf (if f.msixPend.contains vec then
      { g with msixPend := f.msixPend.filter (· != vec), msixSent := ins f.msixSent vec (lookD f.msixSent vec 0 + 1) }
    else g))

/-! ### Causeway ports (22 R374 to R377) -/

/-- FLIT_RECEIVE. -/
def execFlitReceive (port : Nat) (f : Flit) (s : State) : Host.Outcome State Fault Refusal :=
  happens s (if (s.port port).up then some (s.setPort port ((s.port port).receive f)) else none)

/-- A trained port sends what is not acknowledged again, from the first flit on. -/
def Port.trained (p : Port) : Port :=
  { p with up := true, training := false, nak := none, nakDue := false, unacked := p.unacked.map (fun q => { q with replays := 0 }),
           resend := p.unacked.map Sent.seq }

/-- TRAINING_DONE. -/
def execTrainingDone (port : Nat) (s : State) : Host.Outcome State Fault Refusal :=
  happens s (if (s.port port).training then some (s.setPort port (s.port port).trained) else none)

/-- The first outstanding store of a wave with a PEER line, as its place and the line's. -/
def writePlace (l : List DomOp) (line : Nat) : Option (Nat × Nat × SqEntry) :=
  l.zipIdx.findSome? fun (o, i) => match o with
    | .store e => if e.space = .peer then (e.lines.findIdx? fun x => x.line == line).map fun j => (i, j, e) else none
    | _ => none

/-- The outstanding COLL of a number, as its place, with whether the trap handler issued it. -/
def collPlace (l : List DomOp) (no : Nat) : Option (Nat × CollOp' × Bool) :=
  l.zipIdx.findSome? fun (o, i) => match o with
    | .coll x h => if x.no = no then some (i, x, h) else none
    | _ => none

/-- A far access whose line's message is lost. -/
def Wave.farLost (w : Wave) (f : FarReq) (line : Nat) : Wave :=
  let x : FarAnswer := { line := line, status := .linkDown, bytes := List.replicate 64 0, tag := 0 }
  let f : FarReq := { f with lines := f.lines.filter (fun l => l.1 != line), got := f.got ++ [x] }
  { w with stall := false, far := some f }

/-- What fails of a message on a port that goes down: a load or an atomic, precisely, by its line's answer; a store and a COLL late. -/
def State.lostMsg (s : State) (m : CwMsg) : State :=
  match m with
  | .request key _ | .write key _ | .coll key _ _ =>
    let id := waveOfKey key
    match s.wave? id with
    | none => s
    | some w =>
      match m with
      | .request _ line =>
        match w.far with
        | some f =>
          if f.lines.any fun l => l.1 == line then
            s.setWave id (w.farLost f line)
          else s
        | none => s
      | .write _ line =>
        match writePlace w.doms line with
        | some (i, j, e) => (s.setDoms id (dropLine w.doms i j)).reportLate key e.hnd
            { cause := cMemerr 7 2, faddr := BitVec.ofNat 57 ((e.info[j]?.getD (0, 0)).1) }
        | none => s
      | .coll _ no _ =>
        match collPlace w.doms no with
        | some (i, o, h) => ((s.collOver key o).setDoms id (setAt w.doms i .done)).reportLate key h { cause := cMemerr 7 2, faddr := 0 }
        | none => s
      | _ => s
  | _ => s

/-- Whether a copy has a line left whose PEER address leaves its die by a port. -/
def State.copyOn (s : State) (port d vf : Nat) (o : CopyOp) : Bool :=
  let on (sp : CpSpace) (va : Nat) : Bool := sp == .pr && (s.lookup vf d va).elim false fun x =>
    s.routeOf (x.addr va / 2 ^ 44 % 256) (x.addr va / 4096) d == some port
  o.left.any fun (i, j, _) => on o.dsp (o.dst + i * o.dstStride + 64 * j) || on o.ssp (o.src + i * o.srcStride + srcSpan o.cv * j)

/-- The copies of a wave that have a message on a port that goes down fail late. Whether an outstanding copy has one is a free value, since
its lines cross in the step that moves them (DESIGN CHOICE, log 62). -/
def State.lostCopies (s : State) (port key : Nat) : State :=
  let id := waveOfKey key
  match s.wave? id, s.convoy? id.conv with
  | some w, some cv =>
    (List.range w.copies.length).reverse.foldl (fun (s : State) i =>
      match w.copies[i]? with
      | some o =>
        if !o.left.isEmpty && s.copyOn port (dieOfCore w.core) cv.vf o then
          if s.free % 2 = 1 then s.draw.copyFails id i { cause := cMemerr 7 2, faddr := 0 } else s.draw
        else s
      | none => s) s
  | _, _ => s

/-- A port is down: it leaves every route, and what was on it fails. -/
def State.portDown (s : State) (port : Nat) : State :=
  let p := s.port port
  let s := s.setPort port { p with up := false, training := false, unacked := [], resend := [], nak := none, nakDue := false, msgs := [], flood := [] }
  let s := (s.waves.map Prod.fst).foldl (fun (s : State) k => s.lostCopies port k) s
  let s := p.msgs.foldl State.lostMsg s
  let clear (r : Nat × BitVec 24) : Nat × BitVec 24 := (r.1, r.2 &&& ~~~ (1#24 <<< port))
  ({ s with routes := (s.routes.map clear).filter fun r => r.2 != 0 } : State).unstall

/-- TRAINING_TIMEOUT. -/
def execTrainingTimeout (port : Nat) (s : State) : Host.Outcome State Fault Refusal :=
  happens s (if (s.port port).training then some (s.portDown port) else none)

/-- HEARTBEAT_SEND: one message on channel 4 of each up port that can start it. -/
def execHeartbeatSend (s : State) : Host.Outcome State Fault Refusal :=
  .next ((List.range 24).foldl (fun (s : State) n => match s.tell n .heartbeat [] with
    | some s => { s with heartbeats := s.heartbeats + 1 }
    | none => s) s)

/-! ### The domain (22 R380, R382) -/

/-- Another device. -/
def State.peer (s : State) (dev : Nat) : PeerDev := lookD s.peers dev { live := false, mem := Img.empty }

/-- A member entry's LIVE bit. -/
def memberLive (b : List Byte) (r : Nat) : Bool := (fieldOf b (0x40 + 8 * r) 8).testBit 15

/-- A group table that fails the check of R380. -/
def State.groupBad (s : State) (vf : Nat) (b : List Byte) : Bool :=
  let f (o n : Nat) : Nat := fieldOf b o n
  let count := f 4 2
  let selfR := f 6 2
  let dev (r : Nat) : Nat := f (0x40 + 8 * r) 1
  let fnOf (r : Nat) : Nat := f (0x41 + 8 * r) 1 % 128
  count == 0 || 256 < count || (b.drop 0x14).take 0x2C != List.replicate 0x2C 0 ||
    (List.range count).any (fun r => f (0x42 + 8 * r) 6 != 0) || count ≤ selfR || dev selfR != s.devId.toNat || fnOf selfR != vf ||
    ((List.range count).map dev).dedup.length != count ||
    (List.range count).any fun r => r != selfR && (s.boundFn vf (dev r)) != some (fnOf r)

/-- GROUP_ENABLE: a write of GROUPj; with EN the table is read and checked. -/
def execGroupEnable (vf j : Nat) (val : DWord) (s : State) : Host.Outcome State Fault Refusal :=
  let f := s.fn vf
  let tbl := val &&& 0x1FFFFFFFFFFFFC0#64
  let err := lookD f.group j 0 &&& 2#64
  let put (v : DWord) (s : State) : State := s.setFn vf { s.fn vf with group := ins (s.fn vf).group j v }
  let head := s.homeBytes vf tbl.toNat 0x40
  let count := fieldOf (head.getD []) 4 2
  .next (if !val.getLsbD 0 then put (tbl ||| err) s
    else match head.bind fun _ => if 256 < count then none else s.homeBytes vf tbl.toNat (0x40 + 8 * count) with
      | none => put (tbl ||| 2) s
      | some b =>
        if s.groupBad vf b then put (tbl ||| 2) s
        else
          -- the members of a registered table belong to the domain (DEDUCED, log 46)
          let join (s : State) (r : Nat) : State :=
            let d := fieldOf b (0x40 + 8 * r) 1
            if d = s.devId.toNat then s else { s with peers := ins s.peers d { s.peer d with live := true } }
          put (tbl ||| 1) ((List.range count).foldl join s))

/-- A declaration is to be sent on channel 4 of every port that is up. -/
def State.flood (s : State) (dev : Nat) : State :=
  { s with ports := s.ports.map fun (n, p) => (n, if p.up then { p with flood := p.flood ++ [dev] } else p) }

/-- FAILURE_DETECT: the lowest-numbered live device that observes the loss orders the declaration, and floods it. -/
def execFailureDetect (dev : Nat) (s : State) : Host.Outcome State Fault Refusal :=
  let lower := s.peers.any fun p => p.2.live && p.1 != dev && p.1 < s.devId.toNat
  happens s (if !(s.peer dev).live || s.declared.contains dev || lower then none else some { s.flood dev with declared := s.declared ++ [dev] })

/-- A declaration applied to the table of one group register: LIVE, NLIVE and REPAIRS in one update, and a GROUP record. None while a
write has to wait. -/
def State.repairTable (s : State) (vf : Nat) (reg : DWord) (dev : Nat) : Option State :=
  let tbl := (reg &&& 0x1FFFFFFFFFFFFC0#64).toNat
  if !reg.getLsbD 0 then some s
  else
    match s.homeBytes vf tbl 0x40 with
    | none => some s
    | some h =>
      let count := min (fieldOf h 4 2) 256
      let at_ (va : Nat) : Option Nat := ((s.saveAddr vf 0 va false).toOption).map Prod.snd
      let b := (s.homeBytes vf tbl (0x40 + 8 * count)).getD h
      match (List.range count).find? fun r => fieldOf b (0x40 + 8 * r) 1 == dev && memberLive b r with
      | none => some s
      | some r =>
        match at_ tbl, at_ (tbl + 0x40 + 8 * r) with
        | some pa, some pm =>
          if !s.canWrite (homeDie pa) (lineOf pa) || !s.canWrite (homeDie pm) (lineOf pm) then none
          else
            let bytes := leBytes 2 (fieldOf h 0x10 2 - 1) ++ leBytes 2 (fieldOf h 0x12 2 + 1)
            let entry := fieldOf b (0x40 + 8 * r) 8 - 2 ^ 15
            let s := s.devWrite (homeDie pa) (lineWrite (pa + 0x10) bytes none) .host
            let s := s.devWrite (homeDie pm) (lineWrite pm (leBytes 8 entry) none) .host
            some (s.postEvent vf (eventRecord 3 0 0 0 0 tbl (fieldOf h 0 4) 0 (dev + 256 * r)))
        | _, _ => some s

/-- DECLARATION_APPLY: every registered table that holds the failed device as a live member is repaired; declarations that this device has
ordered are applied in that order. -/
def State.applyDeclaration (s : State) (dev : Nat) : Option State :=
  let regs := s.fns.flatMap fun f => f.2.group.map fun g => (f.1, g.2)
  if s.declared.contains dev && s.declared.head? != some dev then none
  else (regs.foldl (fun (s : Option State) x => s.bind fun s => s.repairTable x.1 x.2 dev) (some s)).map fun s =>
    ({ s with peers := ins s.peers dev { s.peer dev with live := false }, declared := s.declared.filter (· != dev) } : State).unstall

/-- DECLARATION_APPLY. -/
def execDeclarationApply (dev : Nat) (s : State) : Host.Outcome State Fault Refusal := happens s (s.applyDeclaration dev)

end Sys2Proof.Machine
end

