-- ==== Sys2Proof/Machine/Firmware.lean ====
section
/-!
DEFINITION. Sys2Proof/Machine/Firmware.lean: reset and boot, the firmware mailbox and attestation, recovery, memory training, loss of power
(23), what Keystone writes (21 R358, R367, 22 R378, 07 R128), and what comes to a Cairn slot (07 R143).
-/
namespace Sys2Proof.Machine

open Sys2Proof

/-! ### Images (23 Table 23-1) -/

/-- Exactly `n` bytes: a list cut, or filled with zeros. -/
def fixBytes (n : Nat) (b : List Byte) : List Byte := b.take n ++ List.replicate (n - b.length) 0

/-- SVN of an image. -/
def imageSvn (b : List Byte) : Nat := fieldOf b 8 4 % 2 ^ 31

/-- COMMIT of an image. -/
def imageCommit (b : List Byte) : Bool := (fieldOf b 8 4).testBit 31

/-- MAGIC, LEN and the reserved bytes are as Table 23-1 has them, and the image has the length that LEN says. -/
def headerGood (b : List Byte) : Bool :=
  let len := fieldOf b 0xC 4
  fieldOf b 0 8 == 0x4C4947474C414B00 && len % 4096 == 0 && 4096 ≤ len && len ≤ 2 ^ 26 && b.length == 0x2000 + len &&
    ((b.drop 0x1263).take (0x2000 - 0x1263)).all (· == 0)

/-- Keystone's check of a firmware image (23 R384, step 4): the ST code of what fails (Table 23-2), the header first. -/
def imageFault (b : List Byte) (floor : Nat) : Option (BitVec 4) :=
  if !headerGood b then some 4
  else if Config.sha3 (b.drop 0x2000) != (b.drop 0x10).take 0x40 || !Config.signatureGood (b.take 0x50 ++ (b.drop 0x50).take 4627) then some 3
  else if imageSvn b < floor then some 5
  else none

/-- Quarry started from an image. -/
def Firmware.start (f : Firmware) (b : List Byte) : Firmware :=
  { f with running := b, svn := imageSvn b, qry := true, rcv := false,
           floor := if imageCommit b then max f.floor (imageSvn b) else f.floor }

/-- What the boot ROM and Keystone come to (23 R384): a failure at any step ends in recovery mode. -/
def Firmware.boot (f : Firmware) : Firmware :=
  let f : Firmware := { f with running := [], svn := 0, key := false, qry := false, rcv := false }
  if !Config.signatureGood f.keystone then { f with rcv := true }
  else
    match imageFault f.slotImage f.floor with
    | some _ => { f with key := true, rcv := true }
    | none => ({ f with key := true } : Firmware).start f.slotImage

/-- Keystone answers: it has been started, or reset has not been run yet. -/
def Firmware.answers (f : Firmware) : Bool := f.key || !f.rcv

/-! ### Reset, power and memory (23 R384, R387, R390) -/

/-- The machine at reset, beside what outlasts it: the firmware and the fuses, the host's memory, the other devices. -/
def State.atReset (s : State) (fw : Firmware) : State :=
  { State.reset with fw := fw, hostMem := s.hostMem, peers := s.peers, freeCtr := s.freeCtr }

/-- DEVICE_RESET. -/
def execDeviceReset (s : State) : Host.Outcome State Fault Refusal :=
  let fw := s.fw.boot
  let up (x : Die) : Die := { x with cmp := fw.qry }
  let t := s.atReset fw
  .next { t with dies := t.dies.map up }

/-- POWER_LOSS: every unit stops. A slot that an UPDATE was writing may stand half-written, and then it is no image (DEDUCED, log 48). -/
def execPowerLoss (halfWritten : Bool) (s : State) : Host.Outcome State Fault Refusal :=
  let writing := (s.fn 0).fwstat == 1 && (s.fn 0).fwcmd.extractLsb' 0 4 == 1#4
  let fw : Firmware := { Firmware.reset with keystone := s.fw.keystone, floor := s.fw.floor,
                                             slotImage := if halfWritten && writing then [] else s.fw.slotImage }
  .next { s.atReset fw with powered := false }

/-- QUARRY_TIMEOUT: recovery mode. -/
def execQuarryTimeout (s : State) : Host.Outcome State Fault Refusal :=
  happens s (if s.fw.key && s.fw.qry then some { s with fw := { s.fw with qry := false, rcv := true } } else none)

/-- Accesses that waited for memory are made again. -/
def State.releaseHeld (s : State) : State :=
  ({ s with agenda := s.agenda ++ s.held.filter waitsForMemory, held := s.held.filter fun t => !waitsForMemory t } : State).unstall

/-- Training of a die's memory ends. -/
def State.trained (s : State) (d : Nat) (good : Bool) : Option State :=
  let x := s.die d
  if x.memReady || x.memFail then none else some (s.setDie d { x with memReady := good, memFail := !good }).releaseHeld

/-- MEMORY_TRAINING_DONE. -/
def execMemoryTrainingDone (die : Nat) (s : State) : Host.Outcome State Fault Refusal := happens s (s.trained die true)

/-- MEMORY_TRAINING_FAIL. -/
def execMemoryTrainingFail (die : Nat) (s : State) : Host.Outcome State Fault Refusal := happens s (s.trained die false)

/-! ### The mailbox (23 R386 to R388) -/

/-- A function's mailbox command ends. -/
def State.mailDone (s : State) (vf : Nat) (st : BitVec 4) : State := s.setFn vf { s.fn vf with fwstat := st }

/-- A function's mailbox is busy with a command. -/
def State.mailBusy (s : State) (vf op : Nat) : Bool :=
  s.fw.answers && (s.fn vf).fwstat == 1 && ((s.fn vf).fwcmd.extractLsb' 0 4).toNat == op

/-- ADDR of a function's mailbox. -/
def State.mailAddr (s : State) (vf : Nat) : Nat := ((s.fn vf).fwcmd &&& 0xFFFFFFFFFFFFF000#64).toNat

/-- Bytes of host memory. -/
def State.hostBytes (s : State) (a n : Nat) : List Byte := (List.range n).map fun i => s.hostMem.read (a + i)

/-- Some queue is enabled, or some convoy is resident or saved. -/
def State.inService (s : State) : Bool := s.fns.any (fun p => p.2.queues.any fun q => q.2.en) || !s.convoys.isEmpty

/-- FW_UPDATE: Keystone checks its own copy of the staged image; only a good one is written and started. -/
def execFwUpdate (s : State) : Host.Outcome State Fault Refusal :=
  happens s (if !s.mailBusy 0 1 then none
    else if s.inService then some (s.mailDone 0 6)
    else
      let n := (s.fn 0).fwlen.toNat
      let b := if 0x2000 + 2 ^ 26 < n then [] else s.hostBytes (s.mailAddr 0) n
      match imageFault b s.fw.floor with
      | some st => some (s.mailDone 0 st)
      | none =>
        let up (x : Die) : Die := { x with cmp := x.cmp || x.state == 0 }
        let s : State := { s with fw := ({ s.fw with slotImage := b } : Firmware).start b, dies := s.dies.map up }
        some (s.mailDone 0 2))

/-- A slot register's bits (07 Table 7-1). -/
def Slot.bits (t : Slot) : DWord :=
  (if t.en then 1#1 else 0#1) ++ BitVec.ofNat 7 t.vf ++ t.share ++ t.cbase ++ t.clen ++ t.dbase ++ t.dlen ++ 0#20

/-- A function configuration register's bits (21 Table 21-4). -/
def Fn.configBits (f : Fn) : DWord :=
  (if f.en then 1#1 else 0#1) ++ f.mode ++ f.dies ++ 0#9 ++ f.slice ++ f.weight ++ 0#32

/-- The configuration that a function's report measures (23 Table 23-3, MCFG; the layout of the tables is DESIGN CHOICE, log 49). -/
def State.measured (s : State) (vf : Nat) : List Byte :=
  let f := s.fn vf
  leBytes 8 f.configBits.toNat ++
    (List.range 512).flatMap (fun g => leBytes 2 (lookD f.gran g 0).toNat) ++
    (List.range 256).map (fun d => match look f.bind d with
      | some n => BitVec.ofNat 8 (128 + n)
      | none => 0) ++
    fixBytes 128 (f.accept.flatMap fun p => [BitVec.ofNat 8 p.1, BitVec.ofNat 8 (128 + p.2)]) ++
    (List.range 192).flatMap fun n => ((s.slice n).slots.filter fun t => t.en && t.vf == vf).flatMap fun t => leBytes 8 t.bits.toNat

/-- Bytes 0x000 to 0x1BF of an attestation report. -/
def State.reportBody (s : State) (vf : Nat) (nonce : List Byte) : List Byte :=
  nonce ++ fixBytes 64 (Config.sha3 s.fw.keystone) ++ fixBytes 64 ((s.fw.running.drop 0x10).take 0x40) ++
    fixBytes 64 (Config.sha3 (s.measured vf)) ++ leBytes 4 (s.fw.svn + if s.fw.rcv then 2 ^ 31 else 0) ++
    leBytes 4 (s.devId.toNat + 256 * vf) ++ List.replicate 0xB8 0

/-- The report and the certificate chain after it. -/
def State.report (s : State) (vf : Nat) (nonce : List Byte) : List Byte :=
  let body := s.reportBody vf nonce
  body ++ fixBytes 4627 (Config.sign body) ++ List.replicate (0x1FF0 - 0x13D3) 0 ++
    leBytes 8 0x2040 ++ leBytes 8 Config.certificates.length ++ Config.certificates

/-- FW_ATTEST. -/
def execFwAttest (vf : Nat) (s : State) : Host.Outcome State Fault Refusal :=
  happens s (if !s.mailBusy vf 2 then none
    else
      let a := s.mailAddr vf
      let s : State := { s with hostMem := s.hostMem.writes (a + 64) (s.report vf (s.hostBytes a 64)) }
      some (s.mailDone vf 2))

/-- FW_RESERVED_OP: a reserved OP, or an UPDATE that a virtual function asks for. -/
def execFwReservedOp (vf : Nat) (op : BitVec 4) (s : State) : Host.Outcome State Fault Refusal :=
  let out := (op = 1 ∧ vf ≠ 0) ∨ 3 ≤ op.toNat
  happens s (if s.mailBusy vf op.toNat && out then some (s.mailDone vf 7) else none)

/-! ### Keystone's configuration (23 R385) -/

/-- Two ranges, as base and length, meet. -/
def crosses (a n b m : Nat) : Bool := 0 < n && 0 < m && a < b + m && b < a + n

/-- Keystone accepts a slice's slots: each within its memories, no two enabled ones over each other (07 R128). -/
def slotsGood (l : List Slot) : Bool :=
  let on := l.zipIdx.filter fun p => p.1.en
  on.all (fun (t, i) => t.cbase.toNat + t.clen.toNat ≤ 256 && t.dbase.toNat + t.dlen.toNat ≤ 64 && t.vf < 65 &&
    on.all fun (u, j) => i == j || (!crosses t.cbase.toNat t.clen.toNat u.cbase.toNat u.clen.toNat &&
      !crosses t.dbase.toNat t.dlen.toNat u.dbase.toNat u.dlen.toNat))

/-- The device granules that a function's map names. -/
def Fn.granules (f : Fn) : List Nat := f.gran.filterMap fun p => if p.2.getLsbD 15 then some (p.2.extractLsb' 0 9).toNat else none

/-- Keystone accepts two functions beside each other: where both are enabled they share no granule, and no die as partitions; a shared-mode
function names no die that a partition-mode function holds (21 R358, R367). -/
def Fn.beside (f g : Fn) : Bool :=
  let apart := f.dies &&& g.dies == 0
  (!f.en || !g.en || (f.granules.all (fun x => !g.granules.contains x) && (f.mode != 1 || g.mode != 1 || apart))) &&
    ((f.mode == 1) == (g.mode == 1) || apart)

/-- Keystone accepts a function for itself: MODE is not reserved, no granule mapped twice by it counts against it, and a partition's
granules lie on its dies (21 R367). -/
def Fn.sound (f : Fn) : Bool := f.mode.toNat < 2 && (f.mode != 1 || f.granules.all fun x => f.dies.getLsbD (x / 128))

/-- The Cairn slots on an enabled partition's dies belong to that function alone (21 R368). -/
def State.slotsAlone (s : State) : Bool :=
  s.slices.all fun x => x.2.slots.all fun t => !t.en ||
    s.fns.all fun f => !f.2.en || f.2.mode != 1 || !f.2.dies.getLsbD (x.1 / 48) || f.1 == t.vf

/-- The whole configuration is one that Keystone accepts. -/
def State.configGood (s : State) : Bool :=
  s.slotsAlone && s.fns.all fun p => p.2.sound && s.fns.all fun q => p.1 == q.1 || p.2.beside q.2

/-- A crew's bindings without the lines for which `out` does not hold. -/
def Crew.keepLines (c : Crew) (out : Nat → Bool) : Crew :=
  let stay (b : Bind) (l : List Nat) : List Nat := l.filter fun o => out (b.line o)
  { c with binds := c.binds.map fun (n, b) => (n, { b with present := stay b b.present, dirty := stay b b.dirty, filling := stay b b.filling }) }

/-- A granule's memory is given to a virtual function: it reads as zero, tagged RAW (03 R49). Nothing that a die, a slice, a cache, a stash or a
host keeps of its lines, or that is on its way to them, is left. -/
def State.clearGranule (s : State) (g : Nat) : State :=
  let out (a : Nat) : Bool := a / 2 ^ 30 != g
  let cut (x : Die) : Die := { x with view := x.view.filter fun p => out p.1, viewTags := x.viewTags.filter fun p => out p.1 }
  let core (k : Core) : Core := { k with l1 := k.l1.filter fun y => out y.line, assay := k.assay.filter out }
  { s with hbm := s.hbm.clear (g * 2 ^ 30) (2 ^ 30), dies := s.dies.map cut, poison := s.poison.filter out,
           memErr := s.memErr.filter fun p => out p.1, pkg := s.pkg.filter fun p => out p.write.line,
           dir := s.dir.map fun p => if out p.1 then p else (p.1, LineDir.absent),
           crews := s.crews.map fun (k, c) => (k, c.keepLines out), cores := s.cores.map fun (n, k) => (n, core k),
           hostLines := s.hostLines.filter out }

/-- A function takes a configuration's new value; the granules that an enabled virtual function had not before are cleared. -/
def State.giveFn (s : State) (vf : Nat) (f : Fn) : Option State :=
  let old := if (s.fn vf).en then (s.fn vf).granules else []
  let t := s.setFn vf f
  if !t.configGood then none
  else some ((if vf = 0 ∨ !f.en then [] else f.granules.filter fun g => !old.contains g).foldl State.clearGranule t)

/-- A slot register that Keystone writes; the data window of a slot that it enables, moves or gives to another function reads as zero (07 R128,
R142). -/
def State.giveSlot (s : State) (n i : Nat) (v : DWord) : Option State :=
  let x := s.slice n
  match x.slots[i]? with
  | none => none
  | some t =>
    let u : Slot := { t with en := v.getLsbD 63, vf := (v.extractLsb' 56 7).toNat, cbase := v.extractLsb' 40 8, clen := v.extractLsb' 32 8,
                             dbase := v.extractLsb' 26 6, dlen := v.extractLsb' 20 6 }
    let slots := setAt x.slots i u
    if !slotsGood slots then none
    else
      let lo := 256 * u.dbase.toNat
      let hi := lo + 256 * u.dlen.toNat
      let same := t.en && t.vf == u.vf && t.dbase == u.dbase && t.dlen == u.dlen
      let data := if u.en && !same then x.data.filter fun p => p.1 < lo || hi ≤ p.1 else x.data
      let s := s.setSlice n { x with slots := slots, data := data }
      if s.slotsAlone then some s else none

/-- What one write of Keystone's comes to; none where Keystone refuses it. -/
def State.keystone (s : State) (w : KsWrite) : Option State :=
  match w with
  | .slot n i v => s.giveSlot n i v
  | .granule vf g v =>
    let f := s.fn vf
    s.giveFn vf { f with gran := put 0 f.gran g (v &&& 0x81FF#16) }
  | .config vf v => s.giveFn vf { s.fn vf with en := v.getLsbD 63, mode := v.extractLsb' 61 2, dies := v.extractLsb' 57 4 }
  | .bind vf dev fn =>
    let f := s.fn vf
    some (s.setFn vf { f with bind := match fn with
      | some n => ins f.bind dev n
      | none => del f.bind dev })
  | .accept vf pairs => some (s.setFn vf { s.fn vf with accept := pairs })
  | .deviceId id => some { s with devId := id }

/-- KEYSTONE_CONFIGURATION. -/
def execKeystoneConfiguration (w : KsWrite) (s : State) : Host.Outcome State Fault Refusal :=
  happens s (if s.fw.answers then s.keystone w else none)

/-! ### Cairn slots (07 R143) -/

/-- The invocation that runs in a slot is aborted with CAIRN/LOCKSTEP. -/
def State.lockstep (s : State) (n i : Nat) : State :=
  match (s.slice n).inv with
  | some v => if v.slot = i then s.abort n v 9 else s
  | none => s

/-- What comes to a slot: code within the slot's bounds, which also returns a dead slot to service; uncorrectable data, which disables it;
a lockstep difference while it runs. -/
def State.slotEvent (s : State) (n i : Nat) (e : SlotEvent) : Option State :=
  match e with
  | .load code =>
    let x := s.slice n
    match x.slots[i]? with
    | none => none
    | some t =>
      let b := code.take (256 * t.clen.toNat)
      let mem := b.zipIdx.foldl (fun m p => put 0 m (256 * t.cbase.toNat + p.2) p.1) x.code
      some (s.setSlice n { x with code := mem, slots := setAt x.slots i { t with dead := false } })
  | .uncorrectable =>
    let s := s.lockstep n i
    let x := s.slice n
    (x.slots[i]?).map fun t => s.setSlice n { x with slots := setAt x.slots i { t with dead := true } }
  | .differ => if (s.slice n).inv.elim false fun v => v.slot == i then some (s.lockstep n i) else none

/-- HANDLER_CODE_LOAD. -/
def execHandlerCodeLoad (slice slot : Nat) (ev : SlotEvent) (s : State) : Host.Outcome State Fault Refusal :=
  happens s (s.slotEvent slice slot ev)

end Sys2Proof.Machine
end

