-- ==== Sys2Proof/Machine/Rely.lean ====
section
/-!
DEFINITION. Sys2Proof/Machine/Rely.lean: known-answer tests of the assay lanes (25 R408, R409), corrected and uncorrectable words of
scratchpad and convoy memory (25 R411, R412), HBM transfers (25 R413 to R416) and their records (25 R418).
-/
namespace Sys2Proof.Machine

open Sys2Proof

/-! ### Counts and records -/

/-- DCE of a die and a structure counts (25 Table 25-2). -/
def State.countDce (s : State) (d structure_ : Nat) : State :=
  let k := 8 * d + structure_
  { s with dce := ins s.dce k (bump (lookD s.dce k 0) 1) }

/-- A CE or RETRY record: at most one per structure and die in each window of 2^20 fabric cycles (25 R418). -/
def State.postSeldom (s : State) (kind structure_ d : Nat) (r : List Byte) : State :=
  let key := 8 * structure_ + kind
  let now := s.fab / 2 ^ 20
  if s.errWindow.contains (key, d, now) then s
  else ({ s with errWindow := (s.errWindow.filter fun x => !(x.1 == key && x.2.1 == d)) ++ [(key, d, now)] } : State).postError r

/-! ### Known-answer tests (25 R408, R409) -/

/-- A core that keeps fewer than 96 lanes is retired: its resident convoys are saved. -/
def State.retireCore (s : State) (core lane : Nat) : State :=
  let c := s.core core
  if c.gone || 96 ≤ 128 - (lanesOf c.fenced).length then s
  else
    let s := s.setCore core { c with gone := true }
    let here := ((s.crews.filter fun p => p.2.core == core).map fun p => p.1 / 8).dedup
    let save (s : State) (k : Nat) : State :=
      match s.preempt k .driver with
      | none => s
      | some s => match s.convoy? k with
        | some cv => s.setConvoy k { cv with freeChoice := true }
        | none => s
    (here.foldl save s).postError (s.errorRecord 5 (cAssay 3) (dieOfCore core) (core % 64) 0 lane 0 0)

/-- A lane is fenced. -/
def State.fence (s : State) (core lane : Nat) : State :=
  let c := s.core core
  let s := s.setCore core { c with fenced := c.fenced ||| oneLane lane, due := c.due.filter (· != lane) }
  (s.postError (s.errorRecord 4 (cAssay 3) (dieOfCore core) (core % 64) 0 lane 0 0)).retireCore core lane

/-- The three known-answer operations that a lane is given at once, after a mismatch or after a check that another lane overruled (25 R408,
R410): one that fails fences the lane. -/
def State.retest (s : State) (core lane : Nat) (results : List Bool) : State :=
  let c := s.core core
  let bad := results.countP fun b => !b
  let s := s.setCore core { c with katRun := bump c.katRun 3, katFail := bump c.katFail bad, due := c.due.filter (· != lane) }
  if bad = 0 then s else s.fence core lane

/-- One known-answer operation on a lane, and after a mismatch the three that follow it; a lane to which three are due receives these. -/
def State.kat (s : State) (core lane : Nat) (good : Bool) (retests : List Bool) : Option State :=
  let c := s.core core
  if c.fenced.getLsbD lane then none
  else if c.due.contains lane then some (s.retest core lane retests)
  else if good then some (s.setCore core { c with katRun := bump c.katRun 1 })
  else some ((s.setCore core { c with katRun := bump c.katRun 1, katFail := bump c.katFail 1 }).retest core lane retests)

/-- KAT_INJECTION. -/
def execKatInjection (core lane : Nat) (good : Bool) (retests : List Bool) (s : State) : Host.Outcome State Fault Refusal :=
  happens s (s.kat core lane good retests)

/-! ### Scrubbing (25 R411, R412) -/

/-- A word of a crew's scratchpad is found bad. -/
def State.markScratch (s : State) (k crew off : Nat) : Option State :=
  match s.crew? (8 * k + crew) with
  | none => none
  | some c =>
    if c.scratchBytes ≤ off then none
    else if c.bad.contains off then some s
    else some (s.setCrew (8 * k + crew) { c with bad := c.bad ++ [off] })

/-- A word of convoy memory is found bad. -/
def State.markCmem (s : State) (k off : Nat) : Option State :=
  match s.convoy? k with
  | none => none
  | some cv =>
    if cv.cmemBytes ≤ off then none
    else if cv.bad.contains off then some s
    else some (s.setConvoy k { cv with bad := cv.bad ++ [off] })

/-- A word that a matrix engine holds is found bad: a late fault to whoever uses it (05 R111). A shadow is named by its place. -/
def Engine.markBad (x : Engine) (f : ScrubFind) : Engine :=
  let add (l : List Nat) (n : Nat) : List Nat := if l.contains n then l else l ++ [n]
  match f with
  | .slate _ _ line => { x with slateBad := add x.slateBad line }
  | .window _ _ w off => { x with winBad := add x.winBad (4096 * w + off) }
  | .shadow _ _ n off => match x.shadows[n]? with
    | some y => { x with shadows := setAt x.shadows n { y with bad := add y.bad off } }
    | none => x
  | _ => x

/-- What a scrub comes to. -/
def State.scrub (s : State) (f : ScrubFind) : Option State :=
  match f with
  | .clean => some s
  | .corrected cluster core conv =>
    let n := 8 * cluster + core
    let x := s.core n
    let s := if conv then s else s.setCore n { x with spce := bump x.spce 1 }
    let st := if conv then 3 else 2
    some ((s.countDce (cluster / 8) st).postSeldom 0 st (cluster / 8)
      (s.errorRecord 0 0 (cluster / 8) (n % 64) 0 0 0 0))
  | .outside die conv unit => some (s.postError (s.errorRecord 1 (if conv then cMemerr 3 0 else cMemerr 2 0) die unit 0 0 0 0))
  | .scratch k crew off => (s.markScratch k crew off).map fun s => s.badWordFound k (some crew) off
  | .cmem k off => (s.markCmem k off).map fun s => s.badWordFound k none off
  | .correctedIn d st => some ((s.countDce d st).postSeldom 0 st d (s.errorRecord 0 0 d 0 0 0 0 0))
  | .slate cl e _ | .window cl e _ _ | .shadow cl e _ _ => some (s.setEngine cl e ((s.engine cl e).markBad f))
  | .gravel cl n =>
    let g := (s.cluster cl).gravel
    some (s.setGravel cl (if g.bad.contains n then g else { g with bad := g.bad ++ [n] }))
  | .l2 line => if (s.lineDir line).present then some { s with memErr := ins s.memErr line (cMemerr 1 0) } else none

/-- SCRATCH_SCRUB. -/
def execScratchScrub (find : ScrubFind) (s : State) : Host.Outcome State Fault Refusal := happens s (s.scrub find)

/-! ### HBM transfers (25 R413 to R416) -/

/-- A line's stack with a wrong lane in its link log. -/
def Stack.wrongLane (x : Stack) (pch lane : Nat) : Stack := { x with llast := BitVec.ofNat 64 (256 * pch + lane) }

/-- The MEMERR of a failed transfer reaches its reader: the wave that is named, late; otherwise the next read of the line (DEDUCED, log 50). -/
def State.tellReader (s : State) (line : Nat) (cause : BitVec 10) (reader : Option WaveId) : State :=
  let s : State := { s with memErr := ins s.memErr line cause }
  match reader with
  | none => s
  | some id => (s.told line).reportLate (waveKey id) false { cause := cause, faddr := BitVec.ofNat 57 (s.lineDir line).va }

/-- ECC on a transfer whose parity is good. -/
def State.ecc (s : State) (line : Nat) (t : HbmTry) (reader : Option WaveId) : State :=
  let n := hbmStackOf line
  let d := homeDie line
  let x := s.stack n
  match t with
  | .good | .parity _ => s
  | .corrected =>
    let s := (s.setStack n { x with ace := bump x.ace 1, aaddr := BitVec.ofNat 64 line }).countDce d 0
    s.postSeldom 0 0 d (s.errorRecord 0 0 d n (pchOf line) 0 line 0)
  | .uncorrectable =>
    let s := s.setStack n { x with aue := bump x.aue 1, aaddr := BitVec.ofNat 64 line ||| 1#64 <<< 63 }
    (s.postError (s.errorRecord 1 (cMemerr 0 0) d n (pchOf line) 0 line 0)).tellReader line (cMemerr 0 0) reader

/-- The wrong lanes of the attempts before one with good parity. -/
def wrongLanes : List HbmTry → List Nat
  | .parity l :: r => l :: wrongLanes r
  | _ => []

/-- A free spare of a pseudo-channel. -/
def Stack.spare (x : Stack) (pch : Nat) : Option Nat := [0, 1].find? fun s => !x.swaps.any fun w => w.1 == pch && w.2.2 == s

/-- A transfer that failed five times: a swap of the lane that failed each time, or a link error. -/
def State.transferFailed (s : State) (line : Nat) (lanes : List Nat) (reader : Option WaveId) : State :=
  let n := hbmStackOf line
  let p := pchOf line
  let x := s.stack n
  match lanes with
  | [] => s
  | l :: r =>
    match if r.all (· == l) then x.spare p else none with
    | none => s.tellReader line (cMemerr 0 2) reader
    | some k =>
      let s := s.setStack n { x with lswap := bump x.lswap 1, swaps := x.swaps ++ [(p, l, k)], busySwap := x.busySwap ++ [(p, l, line)] }
      s.postError (s.errorRecord 3 (cMemerr 0 2) (homeDie line) n p l line (l + 256 * k))

/-- A transfer of a line: the first attempt and up to four retries. Attempts that stop short of both decide nothing. -/
def State.transfer (s : State) (line : Nat) (tries : List HbmTry) (reader : Option WaveId) : Option State :=
  let n := hbmStackOf line
  let lanes := wrongLanes tries
  let k := lanes.length
  let x := s.stack n
  let x := match lanes.getLast? with
    | some l => x.wrongLane (pchOf line) l
    | none => x
  if x.busySwap.any fun y => y.1 == pchOf line then none
  else if 5 ≤ k then
    some ((s.setStack n { x with lrty := bump x.lrty 4, llim := bump x.llim 1 }).transferFailed line (lanes.take 5) reader)
  else
    match tries[k]? with
    | none => none
    | some t =>
      let s := s.setStack n { x with lrty := bump x.lrty k }
      let d := homeDie line
      let s := if k = 0 ∨ t = .uncorrectable then s
        else s.postSeldom 2 0 d (s.errorRecord 2 0 d n (pchOf line) (lanes.getLast?.getD 0) line 0)
      some (s.ecc line t reader)

/-- HBM_TRANSFER_RECEIVE. -/
def execHbmTransferReceive (line : Nat) (tries : List HbmTry) (reader : Option WaveId) (s : State) : Host.Outcome State Fault Refusal :=
  happens s (s.transfer line tries reader)

/-- The retry after a swap. -/
def State.swapDone (s : State) (n pch : Nat) (last : HbmTry) (reader : Option WaveId) : Option State :=
  let x := s.stack n
  match x.busySwap.find? fun y => y.1 == pch with
  | none => none
  | some y =>
    let line := y.2.2
    let x := { x with busySwap := x.busySwap.filter (· != y), lrty := bump x.lrty 1 }
    some (match last with
      | .parity l => ((s.setStack n (x.wrongLane pch l)).tellReader line (cMemerr 0 2) reader).releaseHeld
      | .good | .corrected | .uncorrectable => ((s.setStack n x).ecc line last reader).releaseHeld)

/-- LANE_SWAP_DONE. -/
def execLaneSwapDone (stack pch : Nat) (last : HbmTry) (reader : Option WaveId) (s : State) : Host.Outcome State Fault Refusal :=
  happens s (s.swapDone stack pch last reader)

end Sys2Proof.Machine
end

