-- ==== Sys2Proof/Machine/Dispatch.lean ====
section
/-! DEFINITION. Sys2Proof/Machine/Dispatch.lean: one arm for each constructor of `Instr`: a direct call of its meaning, or a
rejection by name. -/
namespace Sys2Proof.Machine

def exec (i : Instr) (s : State) : Host.Outcome State Fault Refusal :=
  match i with
  | .nop c => Sys2Proof.Machine.execNop c s
  | .bra c t => Sys2Proof.Machine.execBra c t s
  | .brc c cond a t => Sys2Proof.Machine.execBrc c cond a t s
  | .brd c t => Sys2Proof.Machine.execBrd c t s
  | .join c t => Sys2Proof.Machine.execJoin c t s
  | .call c d t => Sys2Proof.Machine.execCall c d t s
  | .ret c a => Sys2Proof.Machine.execRet c a s
  | .loop c d t => Sys2Proof.Machine.execLoop c d t s
  | .kmov c d b ty => Sys2Proof.Machine.execKmov c d b ty s
  | .kadd c d a b ty sat => Sys2Proof.Machine.execKadd c d a b ty sat s
  | .ksub c d a b ty sat => Sys2Proof.Machine.execKsub c d a b ty sat s
  | .kmul c d a b ty sat => Sys2Proof.Machine.execKmul c d a b ty sat s
  | .kand c d a b ty => Sys2Proof.Machine.execKand c d a b ty s
  | .kor c d a b ty => Sys2Proof.Machine.execKor c d a b ty s
  | .kxor c d a b ty => Sys2Proof.Machine.execKxor c d a b ty s
  | .ksh c d a b ty kind sat => Sys2Proof.Machine.execKsh c d a b ty kind sat s
  | .kcmp c d a b ty cond => Sys2Proof.Machine.execKcmp c d a b ty cond s
  | .ksel c d a b e ty => Sys2Proof.Machine.execKsel c d a b e ty s
  | .kmad c d a b e ty sat => Sys2Proof.Machine.execKmad c d a b e ty sat s
  | .vote c d op hi neg n => Sys2Proof.Machine.execVote c d op hi neg n s
  | .rdlane c d va t w64 => Sys2Proof.Machine.execRdlane c d va t w64 s
  | .wrlane c vd a t w64 => Sys2Proof.Machine.execWrlane c vd a t w64 s
  | .tail c => Sys2Proof.Machine.execTail c s
  | .setiw c a b => Sys2Proof.Machine.execSetiw c a b s
  | .vmov c op ty => Sys2Proof.Machine.execVmov c op ty s
  | .vadd c d a b ty sat => Sys2Proof.Machine.execVadd c d a b ty sat s
  | .vsub c d a b ty sat => Sys2Proof.Machine.execVsub c d a b ty sat s
  | .vmul c d a b ty hi sat => Sys2Proof.Machine.execVmul c d a b ty hi sat s
  | .vmad c d a b e ty sat => Sys2Proof.Machine.execVmad c d a b e ty sat s
  | .vquo c d a b ty rem sat => Sys2Proof.Machine.execVquo c d a b ty rem sat s
  | .vand c d a b ty => Sys2Proof.Machine.execVand c d a b ty s
  | .vor c d a b ty => Sys2Proof.Machine.execVor c d a b ty s
  | .vxor c d a b ty => Sys2Proof.Machine.execVxor c d a b ty s
  | .vbic c d a b ty => Sys2Proof.Machine.execVbic c d a b ty s
  | .vshl c d a b ty sat => Sys2Proof.Machine.execVshl c d a b ty sat s
  | .vshr c d a b ty => Sys2Proof.Machine.execVshr c d a b ty s
  | .vfun c d a b e ty left => Sys2Proof.Machine.execVfun c d a b e ty left s
  | .vbfx c d a b ty => Sys2Proof.Machine.execVbfx c d a b ty s
  | .vbfi c d a b e ty => Sys2Proof.Machine.execVbfi c d a b e ty s
  | .vcnt c d a op ty => Sys2Proof.Machine.execVcnt c d a op ty s
  | .vmin c d a b ty => Sys2Proof.Machine.execVmin c d a b ty s
  | .vmax c d a b ty => Sys2Proof.Machine.execVmax c d a b ty s
  | .vabsd c d a b ty sat => Sys2Proof.Machine.execVabsd c d a b ty sat s
  | .vcmp c p a b ty cond comb => Sys2Proof.Machine.execVcmp c p a b ty cond comb s
  | .vsel c d a b ty n neg => Sys2Proof.Machine.execVsel c d a b ty n neg s
  | .vshfl c d a b ty mode all => Sys2Proof.Machine.execVshfl c d a b ty mode all s
  | .vmatch c d a ty => Sys2Proof.Machine.execVmatch c d a ty s
  | .vscan c d a key ty op excl all sat => Sys2Proof.Machine.execVscan c d a key ty op excl all sat s
  | .vaddr c d a b uns sh => Sys2Proof.Machine.execVaddr c d a b uns sh s
  | .vprm c d a b e uns => Sys2Proof.Machine.execVprm c d a b e uns s
  | .fadd c d a b ty rm sat => Sys2Proof.Machine.execFadd c d a b ty rm sat s
  | .fsub c d a b ty rm sat => Sys2Proof.Machine.execFsub c d a b ty rm sat s
  | .fmul c d a b ty rm sat => Sys2Proof.Machine.execFmul c d a b ty rm sat s
  | .fma c d a b e ty rm sat => Sys2Proof.Machine.execFma c d a b e ty rm sat s
  | .fmin c d a b ty => Sys2Proof.Machine.execFmin c d a b ty s
  | .fmax c d a b ty => Sys2Proof.Machine.execFmax c d a b ty s
  | .fsgn c d a b ty op => Sys2Proof.Machine.execFsgn c d a b ty op s
  | .fcmp c p a b ty cond comb => Sys2Proof.Machine.execFcmp c p a b ty cond comb s
  | .fclass c d a ty => Sys2Proof.Machine.execFclass c d a ty s
  | .frcp c d a ty rm sat => Sys2Proof.Machine.execFrcp c d a ty rm sat s
  | .frsq c d a ty rm sat => Sys2Proof.Machine.execFrsq c d a ty rm sat s
  | .fsqrt c d a ty rm => Sys2Proof.Machine.execFsqrt c d a ty rm s
  | .fdiv c d a b ty rm sat => Sys2Proof.Machine.execFdiv c d a b ty rm sat s
  | .fexp2 c d a ty rm sat => Sys2Proof.Machine.execFexp2 c d a ty rm sat s
  | .flog2 c d a ty rm => Sys2Proof.Machine.execFlog2 c d a ty rm s
  | .ftrig c d a ty cos rm => Sys2Proof.Machine.execFtrig c d a ty cos rm s
  | .frnd c d a ty rm => Sys2Proof.Machine.execFrnd c d a ty rm s
  | .cvtf c d a dir ty rm sat => Sys2Proof.Machine.execCvtf c d a dir ty rm sat s
  | .cvti c d a toFloat ity ty rm sat => Sys2Proof.Machine.execCvti c d a toFloat ity ty rm sat s
  | .qblk c d a b e fmt ty rm => Sys2Proof.Machine.execQblk c d a b e fmt ty rm s
  | .dqblk c d a b ty rm sat => Sys2Proof.Machine.execDqblk c d a b ty rm sat s
  | .hadm c d a ty h32 rm sat => Sys2Proof.Machine.execHadm c d a ty h32 rm sat s
  | .fdot c d a b e ty rm sat => Sys2Proof.Machine.execFdot c d a b e ty rm sat s
  | .fred c d a ty op all rm sat => Sys2Proof.Machine.execFred c d a ty op all rm sat s
  | .fsrn c d a cls dst ty sat => Sys2Proof.Machine.execFsrn c d a cls dst ty sat s
  | .fpack c d a b dst pos ty rm sat => Sys2Proof.Machine.execFpack c d a b dst pos ty rm sat s
  | .ldsc c d base off m => Sys2Proof.Machine.execLdsc c d base off m s
  | .stsc c base data off tag m => Sys2Proof.Machine.execStsc c base data off tag m s
  | .stscPush c e data tag uns ch tagged => Sys2Proof.Machine.execStscPush c e data tag uns ch tagged s
  | .amsc c d addr b cmp m => Sys2Proof.Machine.execAmsc c d addr b cmp m s
  | .ldsh c d base off m => Sys2Proof.Machine.execLdsh c d base off m s
  | .stsh c base data off tag m => Sys2Proof.Machine.execStsh c base data off tag m s
  | .amsh c d addr b cmp m => Sys2Proof.Machine.execAmsh c d addr b cmp m s
  | .ldcv c d base off m => Sys2Proof.Machine.execLdcv c d base off m s
  | .stcv c base data off tag m => Sys2Proof.Machine.execStcv c base data off tag m s
  | .amcv c d addr b cmp m => Sys2Proof.Machine.execAmcv c d addr b cmp m s
  | .lddv c d base off m => Sys2Proof.Machine.execLddv c d base off m s
  | .stdv c base data off tag m => Sys2Proof.Machine.execStdv c base data off tag m s
  | .amdv c d addr b cmp m => Sys2Proof.Machine.execAmdv c d addr b cmp m s
  | .ldpr c d base off m => Sys2Proof.Machine.execLdpr c d base off m s
  | .stpr c base data off tag m => Sys2Proof.Machine.execStpr c base data off tag m s
  | .ampr c d addr b cmp m => Sys2Proof.Machine.execAmpr c d addr b cmp m s
  | .ldhs c d base off m => Sys2Proof.Machine.execLdhs c d base off m s
  | .sths c base data off tag m => Sys2Proof.Machine.execSths c base data off tag m s
  | .amhs c d addr b cmp m => Sys2Proof.Machine.execAmhs c d addr b cmp m s
  | .fence c scope => Sys2Proof.Machine.execFence c scope s
  | .waitc c ctr n => Sys2Proof.Machine.execWaitc c ctr n s
  | .barw c conv id => Sys2Proof.Machine.execBarw c conv id s
  | .waitv c d addr b sp cond w64 sg => Sys2Proof.Machine.execWaitv c d addr b sp cond w64 sg s
  | .pref c base off l1 => Sys2Proof.Machine.execPref c base off l1 s
  | .disc c base off => Sys2Proof.Machine.execDisc c base off s
  | .smap c slot g o n => Sys2Proof.Machine.execSmap c slot g o n s
  | .smapUnb c slot => Sys2Proof.Machine.execSmapUnb c slot s
  | .swb c a n => Sys2Proof.Machine.execSwb c a n s
  | .cctl c a n op => Sys2Proof.Machine.execCctl c a n op s
  | .evpop c d hdr ring nb => Sys2Proof.Machine.execEvpop c d hdr ring nb s
  | .mres c pd sel kd => Sys2Proof.Machine.execMres c pd sel kd s
  | .mresGrv c pd => Sys2Proof.Machine.execMresGrv c pd s
  | .mrel c e => Sys2Proof.Machine.execMrel c e s
  | .mrelGrv c => Sys2Proof.Machine.execMrelGrv c s
  | .mldb c e page addr saddr => Sys2Proof.Machine.execMldb c e page addr saddr s
  | .mring c e base cnt sbase => Sys2Proof.Machine.execMring c e base cnt sbase s
  | .mma c e cls w0 page m sh boff => Sys2Proof.Machine.execMma c e cls w0 page m sh boff s
  | .mcmt c e g cond => Sys2Proof.Machine.execMcmt c e g cond s
  | .mzero c e w0 n d64 => Sys2Proof.Machine.execMzero c e w0 n d64 s
  | .mstc c e w0 addr n stride => Sys2Proof.Machine.execMstc c e w0 addr n stride s
  | .mldc c e w0 addr n stride d64 => Sys2Proof.Machine.execMldc c e w0 addr n stride d64 s
  | .mfnc c d => Sys2Proof.Machine.execMfnc c d s
  | .mwait c b => Sys2Proof.Machine.execMwait c b s
  | .taskq c addr => Sys2Proof.Machine.execTaskq c addr s
  | .tsten c w h mask => Sys2Proof.Machine.execTsten c w h mask s
  | .aownRd c e d w => Sys2Proof.Machine.execAownRd c e d w s
  | .aownWr c e w a => Sys2Proof.Machine.execAownWr c e w a s
  | .ggen c gd vn cls bip x => Sys2Proof.Machine.execGgen c gd vn cls bip x s
  | .gcnt c vd gs kind => Sys2Proof.Machine.execGcnt c vd gs kind s
  | .gand c gd ga gb cor => Sys2Proof.Machine.execGand c gd ga gb cor s
  | .gxnr c gd ga gb cor => Sys2Proof.Machine.execGxnr c gd ga gb cor s
  | .gmux c gd ga gb gs cor => Sys2Proof.Machine.execGmux c gd ga gb gs cor s
  | .gacc c vd ga n => Sys2Proof.Machine.execGacc c vd ga n s
  | .greg c gd gs cls => Sys2Proof.Machine.execGreg c gd gs cls s
  | .gshf c gd gs r => Sys2Proof.Machine.execGshf c gd gs r s
  | .gcmp c d gs vn first => Sys2Proof.Machine.execGcmp c d gs vn first s
  | .glen c l => Sys2Proof.Machine.execGlen c l s
  | .gseed c cls value => Sys2Proof.Machine.execGseed c cls value s
  | .gmov c gd gs => Sys2Proof.Machine.execGmov c gd gs s
  | .gmovLd c gd ka => Sys2Proof.Machine.execGmovLd c gd ka s
  | .gmovSt c ka gs => Sys2Proof.Machine.execGmovSt c ka gs s
  | .copy c dst src n mask dsp ssp cv mc => Sys2Proof.Machine.execCopy c dst src n mask dsp ssp cv mc s
  | .cpy2 c dst src kg dsp ssp => Sys2Proof.Machine.execCpy2 c dst src kg dsp ssp s
  | .task c entry arg kh => Sys2Proof.Machine.execTask c entry arg kh s
  | .sgnl c addr b set scope => Sys2Proof.Machine.execSgnl c addr b set scope s
  | .grid c rec q => Sys2Proof.Machine.execGrid c rec q s
  | .cmsg c addr kw => Sys2Proof.Machine.execCmsg c addr kw s
  | .cbuf c pd hdr kw nb => Sys2Proof.Machine.execCbuf c pd hdr kw nb s
  | .coll c dst src n kg op ty root => Sys2Proof.Machine.execColl c dst src n kg op ty root s
  | .trap c imm => Sys2Proof.Machine.execTrap c imm s
  | .rte c => Sys2Proof.Machine.execRte c s
  | .sysr c d idx => Sys2Proof.Machine.execSysr c d idx s
  | .sysw c idx a => Sys2Proof.Machine.execSysw c idx a s
  | .probe c d addr sp kind => Sys2Proof.Machine.execProbe c d addr sp kind s
  | .achk c => Sys2Proof.Machine.execAchk c s
  | .clnRd rd rs1 imm => Sys2Proof.Machine.execClnRd rd rs1 imm s
  | .clnGet rd imm => Sys2Proof.Machine.execClnGet rd imm s
  | .clnBud rd => Sys2Proof.Machine.execClnBud rd s
  | .clnDone act => Sys2Proof.Machine.execClnDone act s
  | .clnKeep rd prio => Sys2Proof.Machine.execClnKeep rd prio s
  | .clnWr rs1 rs2 imm => Sys2Proof.Machine.execClnWr rs1 rs2 imm s
  | .clnReq rd rs1 rs2 => Sys2Proof.Machine.execClnReq rd rs1 rs2 s
  | .clnFwd rd rs1 rs2 => Sys2Proof.Machine.execClnFwd rd rs1 rs2 s
  | .clnRply rs1 => Sys2Proof.Machine.execClnRply rs1 s
  | .clnAtom op rd rs1 rs2 => Sys2Proof.Machine.execClnAtom op rd rs1 rs2 s
  | .clnEvq rd rs1 rs2 => Sys2Proof.Machine.execClnEvq rd rs1 rs2 s
  | .cairnBase rv short => Sys2Proof.Machine.execCairnBase rv short s
  | .unassignedOpcode w => Sys2Proof.Machine.execUnassignedOpcode w s
  | .clauseHeaderDecode w => Sys2Proof.Machine.execClauseHeaderDecode w s
  | .lateFault wv cause faddr => Sys2Proof.Machine.execLateFault wv cause faddr s
  | .storeDrain wv => Sys2Proof.Machine.execStoreDrain wv s
  | .stashFillArrival conv crew line => Sys2Proof.Machine.execStashFillArrival conv crew line s
  | .assayFillArrival core line victim => Sys2Proof.Machine.execAssayFillArrival core line victim s
  | .leaseFill core line => Sys2Proof.Machine.execLeaseFill core line s
  | .tickRebase die => Sys2Proof.Machine.execTickRebase die s
  | .remoteWriteApply die idx => Sys2Proof.Machine.execRemoteWriteApply die idx s
  | .peerRequestArrival r => Sys2Proof.Machine.execPeerRequestArrival r s
  | .peerResponse wv st => Sys2Proof.Machine.execPeerResponse wv st s
  | .hostCompletion wv st => Sys2Proof.Machine.execHostCompletion wv st s
  | .hostCompletionTimeout wv => Sys2Proof.Machine.execHostCompletionTimeout wv s
  | .hostWriteRefused wv => Sys2Proof.Machine.execHostWriteRefused wv s
  | .copyComplete wv pick r => Sys2Proof.Machine.execCopyComplete wv pick r s
  | .gravelOpComplete cluster fails => Sys2Proof.Machine.execGravelOpComplete cluster fails s
  | .matrixKblock cluster e r => Sys2Proof.Machine.execMatrixKblock cluster e r s
  | .matrixOpComplete cluster e => Sys2Proof.Machine.execMatrixOpComplete cluster e s
  | .tileTaskRelease cluster => Sys2Proof.Machine.execTileTaskRelease cluster s
  | .tileTaskRetire cluster r => Sys2Proof.Machine.execTileTaskRetire cluster r s
  | .tileTaskFault cluster e cause faddr => Sys2Proof.Machine.execTileTaskFault cluster e cause faddr s
  | .collComplete wv data agree => Sys2Proof.Machine.execCollComplete wv data agree s
  | .messageAccepted wv => Sys2Proof.Machine.execMessageAccepted wv s
  | .handlerInvocation slice => Sys2Proof.Machine.execHandlerInvocation slice s
  | .cairnBudgetExpiry slice => Sys2Proof.Machine.execCairnBudgetExpiry slice s
  | .cairnShareExhausted slice slot => Sys2Proof.Machine.execCairnShareExhausted slice slot s
  | .cairnRequestFill slice idx => Sys2Proof.Machine.execCairnRequestFill slice idx s
  | .wakeReevaluate wv => Sys2Proof.Machine.execWakeReevaluate wv s
  | .spinDetect wv => Sys2Proof.Machine.execSpinDetect wv s
  | .spinTimeout wv => Sys2Proof.Machine.execSpinTimeout wv s
  | .taskWaveDispatch grid cluster => Sys2Proof.Machine.execTaskWaveDispatch grid cluster s
  | .taskGatherTimeout grid cluster => Sys2Proof.Machine.execTaskGatherTimeout grid cluster s
  | .taskAging grid cluster => Sys2Proof.Machine.execTaskAging grid cluster s
  | .retirementDrainDone wv => Sys2Proof.Machine.execRetirementDrainDone wv s
  | .doorbell vf val => Sys2Proof.Machine.execDoorbell vf val s
  | .qerrClear vf val => Sys2Proof.Machine.execQerrClear vf val s
  | .queueEnable vf q => Sys2Proof.Machine.execQueueEnable vf q s
  | .launchRecordAccept vf q => Sys2Proof.Machine.execLaunchRecordAccept vf q s
  | .dependenceRelease vf q => Sys2Proof.Machine.execDependenceRelease vf q s
  | .placementBlockingTimeout vf q => Sys2Proof.Machine.execPlacementBlockingTimeout vf q s
  | .starvationPreempt vf q => Sys2Proof.Machine.execStarvationPreempt vf q s
  | .timeSliceExpiry cluster vf => Sys2Proof.Machine.execTimeSliceExpiry cluster vf s
  | .residentWaitSwitch conv => Sys2Proof.Machine.execResidentWaitSwitch conv s
  | .wakeTableSweep die => Sys2Proof.Machine.execWakeTableSweep die s
  | .gridCompletion grid => Sys2Proof.Machine.execGridCompletion grid s
  | .preemptRequest conv why => Sys2Proof.Machine.execPreemptRequest conv why s
  | .drainTimeout conv => Sys2Proof.Machine.execDrainTimeout conv s
  | .convoySave conv => Sys2Proof.Machine.execConvoySave conv s
  | .convoyFlush conv => Sys2Proof.Machine.execConvoyFlush conv s
  | .freqWrite cluster code => Sys2Proof.Machine.execFreqWrite cluster code s
  | .transitionTimeout cluster => Sys2Proof.Machine.execTransitionTimeout cluster s
  | .servoStep cluster mism recov => Sys2Proof.Machine.execServoStep cluster mism recov s
  | .frailWrite die on => Sys2Proof.Machine.execFrailWrite die on s
  | .gateDie die => Sys2Proof.Machine.execGateDie die s
  | .wakeDie die => Sys2Proof.Machine.execWakeDie die s
  | .selfRefreshEntry stack => Sys2Proof.Machine.execSelfRefreshEntry stack s
  | .savereq val => Sys2Proof.Machine.execSavereq val s
  | .thermalMigrationStep temps => Sys2Proof.Machine.execThermalMigrationStep temps s
  | .rationStep overPower temps => Sys2Proof.Machine.execRationStep overPower temps s
  | .invctlGo vf => Sys2Proof.Machine.execInvctlGo vf s
  | .invalidationDone vf => Sys2Proof.Machine.execInvalidationDone vf s
  | .ptbrWrite vf val => Sys2Proof.Machine.execPtbrWrite vf val s
  | .lwatchEnable vf n val => Sys2Proof.Machine.execLwatchEnable vf n val s
  | .bar2Write vf fpa data => Sys2Proof.Machine.execBar2Write vf fpa data s
  | .bar2Read vf fpa bytes => Sys2Proof.Machine.execBar2Read vf fpa bytes s
  | .cxlMemWrite vf fpa data => Sys2Proof.Machine.execCxlMemWrite vf fpa data s
  | .cxlMemRead vf fpa bytes => Sys2Proof.Machine.execCxlMemRead vf fpa bytes s
  | .flitReceive port f => Sys2Proof.Machine.execFlitReceive port f s
  | .trainingDone port => Sys2Proof.Machine.execTrainingDone port s
  | .trainingTimeout port => Sys2Proof.Machine.execTrainingTimeout port s
  | .failureDetect dev => Sys2Proof.Machine.execFailureDetect dev s
  | .declarationApply dev => Sys2Proof.Machine.execDeclarationApply dev s
  | .groupEnable vf j val => Sys2Proof.Machine.execGroupEnable vf j val s
  | .fwAttest vf => Sys2Proof.Machine.execFwAttest vf s
  | .fwReservedOp vf op => Sys2Proof.Machine.execFwReservedOp vf op s
  | .memoryTrainingDone die => Sys2Proof.Machine.execMemoryTrainingDone die s
  | .scratchScrub find => Sys2Proof.Machine.execScratchScrub find s
  | .hbmTransferReceive line tries reader => Sys2Proof.Machine.execHbmTransferReceive line tries reader s
  | .laneSwapDone stack pch last reader => Sys2Proof.Machine.execLaneSwapDone stack pch last reader s
  | .registerWrite vf off val => Sys2Proof.Machine.execRegisterWrite vf off val s
  | .keystoneConfiguration w => Sys2Proof.Machine.execKeystoneConfiguration w s
  | .handlerCodeLoad slice slot ev => Sys2Proof.Machine.execHandlerCodeLoad slice slot ev s
  | .memoryTrainingFail die => Sys2Proof.Machine.execMemoryTrainingFail die s
  | .katInjection core lane good retests => Sys2Proof.Machine.execKatInjection core lane good retests s
  | .counterClear off => Sys2Proof.Machine.execCounterClear off s
  | .wakeWithoutEvent wv => Sys2Proof.Machine.execWakeWithoutEvent wv s
  | .msiXUnmask vf vec => Sys2Proof.Machine.execMsiXUnmask vf vec s
  | .powerLoss halfWritten => Sys2Proof.Machine.execPowerLoss halfWritten s
  | .clnDrop => Sys2Proof.Machine.execClnDrop s
  | .leaseStep => Sys2Proof.Machine.execLeaseStep s
  | .cairnShareWindow => Sys2Proof.Machine.execCairnShareWindow s
  | .convoyPlacement => Sys2Proof.Machine.execConvoyPlacement s
  | .heartbeatSend => Sys2Proof.Machine.execHeartbeatSend s
  | .deviceReset => Sys2Proof.Machine.execDeviceReset s
  | .fwUpdate => Sys2Proof.Machine.execFwUpdate s
  | .quarryTimeout => Sys2Proof.Machine.execQuarryTimeout s

end Sys2Proof.Machine
end

