-- ==== Sys2Proof/Machine/Regs.lean ====
section
/-!
DEFINITION. Sys2Proof/Machine/Regs.lean: what a read of a function's register page returns, by offset (18 Table 18-1, 19 Table 19-7, 20 Table
20-1, 21 Table 21-3, 22 Table 22-3, 23 Tables 23-2 and 23-4, 24 Tables 24-2 to 24-5, 25 R407, R416, R418). No step reads a register for the
host: a read changes nothing.
-/
namespace Sys2Proof.Machine

open Sys2Proof

/-- One bit at a place. -/
def bitAt (b : Bool) (n : Nat) : Nat := if b then 2 ^ n else 0

/-- A register of a table of 64-bit registers from `base` on, by the byte offset. -/
def regIndex (base off : Nat) : Nat := (off - base) / 8

/-- READY (23 Table 23-4). -/
def State.ready (s : State) : Nat :=
  let dies (f : Die → Bool) (n : Nat) : Nat := ((List.range 4).map fun d => bitAt (f (s.die d)) (n + d)).sum
  bitAt s.fw.key 0 + bitAt s.fw.qry 1 + bitAt s.fw.rcv 2 + dies (fun x => x.cmp && x.state = 0) 4 + dies Die.memReady 8 + dies Die.memFail 12 +
    ((List.range 24).map fun n => bitAt (s.port n).up (16 + n)).sum

/-- CPWR of a cluster (24 Table 24-2). -/
def Cluster.cpwr (c : Cluster) : Nat :=
  2 ^ 48 * c.temp.toNat + 2 ^ 40 * c.vnow.toNat + 2 ^ 32 * c.vset.toNat + bitAt c.busy 31 + bitAt c.servo 30 + 2 ^ 8 * c.fnow.toNat + c.freq.toNat

/-- DIEPWR of a die (24 Table 24-4). -/
def Die.diepwr (x : Die) : Nat := 2 ^ 12 * x.sr.toNat + 2 ^ 8 * x.state.toNat + bitAt x.frail 1 + bitAt x.gate 0

/-- The logs of an HBM stack (25 Table 25-3). -/
def Stack.log (x : Stack) (n : Nat) : DWord :=
  match n with
  | 0 => x.ace | 1 => x.aue | 2 => x.aaddr | 3 => x.lrty | 4 => x.llim | 5 => x.lswap | 6 => x.llast
  | _ => 0

/-- The counters of a core (25 Table 25-2). -/
def Core.counter (x : Core) (n : Nat) : DWord :=
  match n with
  | 0 => x.chk | 1 => x.lvm | 2 => x.srm | 3 => x.rsm | 4 => x.rcy | 5 => x.katRun | 6 => x.katFail
  | 7 => x.fenced.extractLsb' 0 64 | 8 => x.fenced.extractLsb' 64 64
  | 9 => x.pfIss | 10 => x.pfUse | 11 => x.pfLate | 12 => x.pfDrop | 13 => x.stUse | 14 => x.stDrop | 15 => x.spce
  | _ => 0

/-- The counters of a cluster (25 Table 25-2). -/
def Cluster.counter (c : Cluster) (n : Nat) : DWord :=
  match n with
  | 0 => c.mrpl | 1 => c.grpl | 2 => c.crpl | 3 => c.prst
  | _ => 0

/-- A function's own registers. -/
def State.readFnReg (s : State) (vf off : Nat) : DWord :=
  let f := s.fn vf
  if off % 8 ≠ 0 then 0
  else if off = 0 then f.qtb
  else if off = 8 then f.terb
  else if off = 0x18 then f.qerr
  else if 0x100 ≤ off ∧ off < 0x180 then lookD f.lwatch (regIndex 0x100 off) 0
  else if 0x200 ≤ off ∧ off < 0x400 then lookD f.csa (regIndex 0x200 off) 0
  else if off = 0x400 then f.ptbr
  else if off = 0x408 then f.invaddr
  else if off = 0x410 then BitVec.ofNat 64 (bitAt f.inv.isSome 1)
  else if 0x600 ≤ off ∧ off < 0x680 then lookD f.group (regIndex 0x600 off) 0
  else if off = 0x800 then BitVec.ofNat 64 s.ready
  else if off = 0x810 then f.fwcmd
  else if off = 0x818 then f.fwlen.setWidth 64
  else if off = 0x820 then f.fwstat.setWidth 64
  else 0

/-- The package's registers, in the physical function's page. -/
def State.readPackReg (s : State) (off : Nat) : DWord :=
  if off % 8 ≠ 0 then 0
  else if off < 0x1100 then BitVec.ofNat 64 (s.cluster (regIndex 0x1000 off)).cpwr
  else if off < 0x1120 then BitVec.ofNat 64 (s.die (regIndex 0x1100 off)).diepwr
  else if off = 0x1180 then BitVec.ofNat 64 (2 ^ 16 * s.rlim.toNat + s.mtgt.toNat)
  else if off = 0x1188 then
    BitVec.ofNat 64 (bitAt s.allHot 22 + 2 ^ 16 * s.tration.toNat + 2 ^ 8 * s.plim.toNat + s.hot.toNat)
  else if off = 0x11A0 then s.errb
  else if off = 0x11A8 then s.errovf
  else if 0x1800 ≤ off ∧ off < 0x1A00 then (s.stack ((off - 0x1800) / 0x40)).log (off % 0x40 / 8)
  else if 0x2000 ≤ off ∧ off < 0xA000 then (s.core ((off - 0x2000) / 0x80)).counter (off % 0x80 / 8)
  else if 0xA000 ≤ off ∧ off < 0xA800 then (s.cluster ((off - 0xA000) / 0x40)).counter (off % 0x40 / 8)
  else if 0xA800 ≤ off ∧ off < 0xA900 then lookD s.dce (regIndex 0xA800 off) 0
  else 0

/-- A register of a function's page as a read finds it; in a virtual function's page the package's offsets read as zero. -/
def State.readReg (s : State) (vf off : Nat) : DWord :=
  if off < 0x1000 then s.readFnReg vf off else if vf = 0 then s.readPackReg off else 0

end Sys2Proof.Machine
end

