-- ==== Sys2Proof/Machine/Turn.lean ====
section
/-!
DEFINITION. Sys2Proof/Machine/Turn.lean: what a wave or a Cairn core does in its turn: pending traps, the fetch of the next
word (08 R158) or parcel (07 R128), and the decode checks that come before the instruction's own (08 Table 8-3, steps 1 to 4).
-/
namespace Sys2Proof.Machine

open Sys2Proof

/-- What a turn comes to: an instruction to execute; a state (a trap taken, a wait, nothing to do); or a step that the fabric clock makes
due, in which no time passes. -/
inductive Act where
  | run (i : Instr) (s : State)
  | done (s : State)
  | due (i : Instr) (s : State)

/-- The class of an opcode (09 Table 9-2). -/
def classOf (op : Nat) : Eng :=
  if op < 0x20 then .uni else if op < 0x60 then .vec else if op < 0x80 then .mem else if op < 0x90 then .mtx
  else if op < 0xA0 then .grv else if op < 0xB0 then .cpy else .sys

/-- The word that a fetch of a code word finds (08 R158): as it stands, or as it stood at some time since the grid's launch;
a free value decides where it was written since. -/
def State.codeWord (s : State) (grid d pa : Nat) : DWord :=
  let now : DWord := BitVec.ofNat 64 (s.devVal d pa 8)
  match lookD s.codeHist (2 ^ 48 * grid + pa) [] with
  | [] => now
  | old => ((old ++ [now])[s.free % (old.length + 1)]?).getD now

/-- The fetch of the word at a wave's pc: its translation and its place, or the cause of the fault. -/
def Ctx.fetchAt (c : Ctx) : Except (BitVec 10) (Xlat × Nat) :=
  if 2 ^ 57 ≤ c.w.pc.toNat then .error (cProtect 0)
  else if !c.hnd && 2 ^ 56 ≤ c.w.pc.toNat then .error (cProtect 1)
  else
    match c.s.xlate c.vf c.die c.w.pc.toNat .device 7 .fetch with
    | .error x => .error x
    | .ok x => .ok (x, c.s.devAddr c.vf x c.w.pc.toNat)

/-- The breakpoint that stands at a wave's pc (19 R338). -/
def Ctx.breakpoint (c : Ctx) : Option Nat :=
  if c.hnd || c.w.skipBreak == some c.w.pc then none
  else (List.range 4).find? fun n =>
    let b := c.w.dbg[8 + n]?.getD 0
    b.getLsbD 0 && (b &&& 0x1FFFFFFFFFFFFF8#64) == c.w.pc

/-- Every breakpoint detail that matches, as DBG holds it. -/
def Ctx.breakBits (c : Ctx) : Nat :=
  (List.range 4).foldl (fun m n =>
    let b := c.w.dbg[8 + n]?.getD 0
    if b.getLsbD 0 && (b &&& 0x1FFFFFFFFFFFFF8#64) == c.w.pc then m ||| 2 ^ (4 + n) else m) 0

/-- A wave's word, decoded (08 Table 8-3): a header where no clause is open, else an instruction. -/
def Ctx.decodeWord (c : Ctx) (s : State) (w : DWord) : Act :=
  match c.w.clause with
  | none => .run (.clauseHeaderDecode w) s
  | some cl =>
    let op := (w.extractLsb' 56 8).toNat
    if !opAssigned op then .run (.unassignedOpcode w) s
    else if classOf op != .uni && classOf op != cl.eng then .done (c.precise s c.w (.plain (cInstr 1)) false)
    else
      match decode w with
      | .ok i => .run i s
      | .error .fieldReserved => .done (c.precise s c.w (.plain (cInstr 2)) false)
      | .error .litForm => .done (c.precise s c.w (.plain (cInstr 3)) false)

/-- A wave's turn. -/
def waveTurn (s : State) (id : WaveId) : Act :=
  match s.ctx id with
  | none => .done s
  | some c =>
    match c.w.late, c.w.level with
    | some f, .kernel => .done (s.takeLate id c.w c.cv f)
    | _, _ =>
      match c.breakpoint with
      | some n =>
        let hdr := match c.w.clause with
          | some cl => cl.addr
          | none => c.w.pc
        match s.trapEntry id c.w c.cv { kind := 0, cause := cDebug (4 + n), faddr := 0, flane := 0, part := false,
                                        dbg := c.breakBits, epc := c.w.pc, hdr := hdr } with
        | some s => .done s
        | none => .done (s.stalled id)
      | none =>
        match c.fetchAt with
        | .error x => .done (c.precise s c.w (.plain x) false)
        | .ok (x, pa) =>
          if !s.touchable x false || !s.canRead c.die pa then .done (s.stalled id)
          else if let some e := s.lineErr (lineOf pa) then
            .done ((s.told (lineOf pa)).reportLate (waveKey id) c.hnd { cause := e, faddr := c.w.pc.extractLsb' 0 57 })
          else
            let s' := (s.touch x false).cache c.vf c.w.pc.toNat x
            let s' := if lookD s'.codeHist (2 ^ 48 * c.cv.grid + pa) [] = [] then s' else s'.draw
            c.decodeWord s' (s.codeWord c.cv.grid c.die pa)

/-- A Cairn core's turn: budget, then share (07 R139, R140; where both are reached at once the budget's abort is taken: DESIGN CHOICE, log
89), then the parcel at its pc. -/
def cairnTurn (s : State) (n : Nat) : Act :=
  match (s.slice n).inv with
  | none => .done s
  | some v =>
    let t := s.invSlot n v
    if v.budget ≤ s.cyclesOf v then .run (.cairnBudgetExpiry n) s
    else if t.cap ≤ s.slotUsed n v.slot then .run (.cairnShareExhausted n v.slot) s
    else
      let off := v.pc.toNat
      let byte (i : Nat) : Nat := (lookD (s.slice n).code (256 * t.cbase.toNat + off + i) 0).toNat
      let half (i : Nat) : Nat := byte i + 256 * byte (i + 1)
      if 256 * t.clen.toNat < off + 2 then .done (s.abort n v 3)
      else if half 0 % 4 ≠ 3 then
        match decodeParcel (BitVec.ofNat 16 (half 0)) with
        | some i => .run (.cairnBase i true) s
        | none => .done (s.abort n v 2)
      else if 256 * t.clen.toNat < off + 4 then .done (s.abort n v 3)
      else
        match decodeCairn (BitVec.ofNat 32 (half 0 + 65536 * half 2)) with
        | some i => .run i s
        | none => .done (s.abort n v 2)

/-- The clocks advance while a step passes (00 R4, 02 R39, 07 R129), by a number of fabric cycles that the spec leaves open (DESIGN CHOICE,
log 8). -/
def State.pass (s : State) : State := (s.elapse (Config.stepCycles s.freeCtr)).draw

end Sys2Proof.Machine
end

