-- ==== Sys2Proof/Machine/Sched.lean ====
section
/-!
DEFINITION. Sys2Proof/Machine/Sched.lean: who acts next (DESIGN CHOICE, log 1): the head of the agenda; else the waves, the Cairn cores and the
device itself in turn; and one instruction placed at the fetch (DESIGN CHOICE, log 11).
-/
namespace Sys2Proof.Machine

open Sys2Proof

/-- Whether the term is a step of the device, not an instruction that a core fetches. -/
def isEvent (i : Instr) : Bool :=
  match encode i with
  | some _ => false
  | none => match i with
    | .clauseHeaderDecode _ => false
    | _ => true

/-- A wave can run: it is resident, not parked, not waiting at commit or for a far answer; or a late fault is to be taken. -/
def State.runnable (s : State) (id : WaveId) : Bool :=
  match s.ctx id with
  | none => false
  | some c => (c.w.late.isSome && c.w.level == .kernel && !c.w.stall) || (c.w.wait.isNone || c.w.woken) && !c.w.stall && (match c.w.far with
      | some f => f.lines.isEmpty
      | none => true)

/-! ### The device's own steps -/

/-- A step, if it can happen. -/
def ifSome {α : Type} (r : Option α) (i : Instr) : Option Instr := if r.isSome then some i else none

/-- Something that the device may do, if it can be done now. -/
abbrev Chance : Type := Unit → Option Act

/-- A step as a chance. -/
def chance {α : Type} (s : State) (r : Unit → Option α) (i : Instr) : Chance := fun _ =>
  if (r ()).isSome then some (.run i { s with focus := .none }) else none

/-- The steps of one wave: the spin detector, stores, messages that enter a port, copies, messages to slices, retirement. -/
def State.waveSteps (s : State) (key : Nat) (w : Wave) : List Chance :=
  let id := waveOfKey key
  [chance s (fun _ => s.spun id) (.spinDetect id),
   chance s (fun _ => if w.sq.isEmpty then none else s.drain id) (.storeDrain id),
   fun _ => (s.sendStep id).map .done, fun _ => if w.doms.isEmpty then none else (s.collSend id).map .done,
   chance s (fun _ => if w.copies.isEmpty then none else s.copyStep id 0 0 .ok .ok) (.copyComplete id 0 ⟨0, .ok, .ok⟩),
   chance s (fun _ => if w.msgs.isEmpty then none else s.messageStep id) (.messageAccepted id),
   chance s (fun _ => if w.ended then s.retireWave id else none) (.retirementDrainDone id)]

/-- A stash line that arrives. -/
def State.crewStep (s : State) (key : Nat) (c : Crew) : Option Instr :=
  (c.binds.flatMap fun p => p.2.filling.map p.2.line).findSome? fun line =>
    ifSome (s.stashFillHere key line) (.stashFillArrival (key / 8) (key % 8) line)

/-- A step of a core's assay cache: the oldest reload arrives (03 R63). -/
def State.coreStep (s : State) (n : Nat) (c : Core) : Option Instr :=
  c.fills.findSome? fun f => ifSome (s.assayFillHere n f.1 none) (.assayFillArrival n f.1 none)

/-- A line that answers a request of a core's miss slots. -/
def State.missStep (s : State) (n : Nat) (c : Core) : Option Instr :=
  (c.miss.find? fun m => m.kind != .stash && !(s.lineDir m.line).pinned && !s.memHeld m.line).map fun m => .leaseFill n m.line

/-- The known-answer operations that a lane is to receive at once (25 R410), with results that a free value gives. -/
def State.dueKat (s : State) (n : Nat) (c : Core) : Option State :=
  c.due.head?.map fun l => s.draw.retest n l ((List.range 3).map fun i => s.free / 2 ^ i % 2 = 0)

/-- The steps of a cluster's engines and of its tile tasks, and the end of a frequency transition. -/
def State.clusterSteps (s : State) (n : Nat) (c : Cluster) : List Chance :=
  chance s (fun _ => if c.gravel.ops.isEmpty then none else s.gravelStep n 0) (.gravelOpComplete n 0) ::
  ((List.range 4).flatMap fun e =>
    [chance s (fun _ => s.kblockStep n e 128 []) (.matrixKblock n e ⟨128, []⟩), chance s (fun _ => s.matrixStep n e) (.matrixOpComplete n e),
     chance s (fun _ => s.tileRetire n e []) (.tileTaskRetire n ⟨e, []⟩)]) ++
  [chance s (fun _ => s.tileRelease n) (.tileTaskRelease n),
   fun _ => if c.busy && (s.onCluster n).isEmpty then some (.run (.transitionTimeout n) { s with focus := .none }) else none]

/-- A step of a slice: an invocation, or a requested line. -/
def State.sliceStep (s : State) (n : Nat) (x : Slice) : Option Instr :=
  (ifSome (s.invoke n) (.handlerInvocation n)).orElse fun _ =>
  (List.range x.reqs.length).findSome? fun i => ifSome (s.requestFill n i) (.cairnRequestFill n i)

/-- A write that a die applies. -/
def State.pkgStep (s : State) : Option Instr :=
  (List.range s.pkg.length).findSome? fun i =>
    ((List.range 4).find? fun d => s.canApply i d).map fun d => .remoteWriteApply d i

/-- A step of a convoy that has stopped, or of one that keeps another from its cluster. -/
def State.convoyStep (s : State) (k : Nat) (cv : Convoy) : Option Instr :=
  match cv.st with
  | .saving => ifSome (s.saveConvoy k) (.convoySave k)
  | .flushing => ifSome (s.flushConvoy k) (.convoyFlush k)
  | .resident => ifSome (s.waitSwitch k) (.residentWaitSwitch k)
  | .draining | .saved => none

/-- A step of a grid: its completion. -/
def State.gridStep (s : State) (k : Nat) : Option Instr := ifSome (s.completeGrid k) (.gridCompletion k)

/-- The placement that comes next: a convoy, or a wave of tasks (18 R321). -/
def State.placeStep (s : State) : Option Instr :=
  match s.nextPlacement with
  | some (.tasks g, cl, _) => ifSome (s.dispatchTasks g cl) (.taskWaveDispatch g cl)
  | some _ => ifSome s.placeNext .convoyPlacement
  | none => none

/-- A step of a function: its invalidation, and of its queues. -/
def State.fnStep (s : State) (vf : Nat) (f : Fn) : Option Instr :=
  (ifSome (s.invalidated vf) (.invalidationDone vf)).orElse fun _ =>
  f.queues.findSome? fun q =>
    (ifSome (s.release? vf q.1) (.dependenceRelease vf q.1)).orElse fun _ =>
      ifSome (s.acceptRecord vf q.1) (.launchRecordAccept vf q.1)

/-- A step that the fabric clock makes due (00 R4, 07 R140). -/
def State.dueNow (s : State) : Option Instr :=
  if s.leaseDue then some .leaseStep else if s.windowDue then some .cairnShareWindow else none

/-- Everything that the device itself may do, in a round. Steps that a timer or the outside world brings are none of these. -/
def State.chances (s : State) : List Chance :=
  let run (f : Unit → Option Instr) : Chance := fun _ => (f ()).map fun i => .run i { s with focus := .none }
  (fun _ => s.postStep.map .done) ::
  (fun _ => s.retryHeld.map .done) :: (fun _ => s.replyStep.map .done) ::
  run (fun _ => s.placeStep) ::
  (s.waves.flatMap fun p => s.waveSteps p.1 p.2) ++
  (s.convoys.map fun p => run fun _ => s.convoyStep p.1 p.2) ++
  (s.grids.map fun p => run fun _ => s.gridStep p.1) ++
  (s.ports.map fun p => fun _ => (s.portStep p.1).map .done) ++
  (s.fns.map fun p => run fun _ => s.fnStep p.1 p.2) ++
  (s.crews.map fun p => run fun _ => s.crewStep p.1 p.2) ++
  (s.cores.flatMap fun p => [run fun _ => s.coreStep p.1 p.2, run fun _ => s.missStep p.1 p.2, fun _ => (s.dueKat p.1 p.2).map .done]) ++
  (s.clusters.flatMap fun p => s.clusterSteps p.1 p.2) ++
  (s.slices.map fun p => run fun _ => s.sliceStep p.1 p.2) ++
  ((List.range 4).map fun d => run fun _ => if (s.die d).state = 1 then ifSome (s.finishGate d) (.gateDie d)
    else if (s.die d).state = 3 then some (.wakeDie d) else none) ++
  [run fun _ => s.declared.head?.map .declarationApply]

/-- The device's next step: a write that a die can apply; else the first thing that can be done, from a place in the round that moves on
with each step, so that nothing that can be done waits for ever (01 R29; DESIGN CHOICE, log 1). -/
def State.deviceTurn (s : State) : Option Act :=
  match s.pkgStep with
  | some i => some (.run i { s with focus := .none })
  | none =>
    let l := s.chances
    let k := s.devPos % l.length
    let s' (a : Act) : Act := match a with
      | .run i t => .run i { t with devPos := s.devPos + 1 }
      | .done t => .done { t with devPos := s.devPos + 1 }
      | .due i t => .due i t
    ((l.drop k ++ l.take k).findSome? fun f => f ()).map s'

/-! ### Whose turn it is -/

/-- The turn of the first wave that can run, of a key from `lo` on. -/
def State.waveFrom (s : State) (lo : Nat) : Option Act :=
  (s.waves.find? fun p => lo ≤ p.1 && s.runnable (waveOfKey p.1)).map fun p =>
    waveTurn { s with focus := .wave (waveOfKey p.1) } (waveOfKey p.1)

/-- The turn of the first running invocation, of a slice from `lo` on. -/
def State.cairnFrom (s : State) (lo : Nat) : Option Act :=
  (s.slices.find? fun p => lo ≤ p.1 && p.2.inv.isSome).map fun p => cairnTurn { s with focus := .cairn p.1 } p.1

/-- The agents take turns: after the one that had the last turn comes the next that can do something. -/
def State.rotate (s : State) : Act :=
  (match s.focus with
    | .wave id => (s.waveFrom (waveKey id + 1)).orElse fun _ => (s.cairnFrom 0).orElse fun _ => s.deviceTurn.orElse fun _ => s.waveFrom 0
    | .cairn n => (s.cairnFrom (n + 1)).orElse fun _ => s.deviceTurn.orElse fun _ => (s.waveFrom 0).orElse fun _ => s.cairnFrom 0
    | .none => (s.waveFrom 0).orElse fun _ => (s.cairnFrom 0).orElse fun _ => s.deviceTurn).getD (.done s)

/-- Whether an entry of the agenda is a step of the device that can stand there: while the supply is lost, only a reset. -/
def State.admits (s : State) (i : Instr) : Bool := isEvent i && i.wf && (s.powered || i == .deviceReset)

/-- The next turn. -/
def State.turn (s : State) : Act :=
  match if s.powered then s.dueNow else none with
  | some i => .due i s
  | none =>
  match s.agenda with
  | .ev i :: r => if s.admits i then .run i { s with agenda := r } else .done { s with agenda := r }
  | .wave id :: r => if s.powered then waveTurn { s with agenda := r, focus := .wave id } id else .done { s with agenda := r }
  | .cairn n :: r => if s.powered then cairnTurn { s with agenda := r, focus := .cairn n } n else .done { s with agenda := r }
  | [] => if s.powered then s.rotate else .done s

/-! ### Placing one instruction at the fetch -/

/-- Bytes put into device memory as every die reads it. -/
def State.poke (s : State) (pa : Nat) (b : List Byte) : State :=
  { s with hbm := s.hbm.setBytes pa b,
           dies := s.dies.map fun x => { x with view := x.view.filter fun p => p.1 < pa || pa + b.length ≤ p.1 } }

/-- A grid of one convoy, as `withFetchWord` stands it up. -/
def Grid.lone : Grid :=
  { vf := 0, q := 0, seq := 0, entry := 0x10000, w := 1, d := 1, v := 32, kk := 16, scratch := 0, crews := 1, cmem := 0,
    idem := false, params := [], nconv := 1, placed := 1, again := [], retired := 0, due := none, depa := none, depv := 0, depMet := true,
    siga := 0, sigv := 0, scope := .die, after := none, partcap := false, taskgrid := false, tdesc := 0, diemask := 0,
    prio := 0, utag := 0, code := 0x10000, qbase := 0, qsize := 0, tpa := 0, sent := 0,
    tasks := [], outst := 0, blocking := false, failed := none,
    life := 0, noRecord := false, signalled := false, lost := none }

/-- Every die's compute and memory ready. -/
def State.up (s : State) : State :=
  { s with dies := s.dies.map fun x => { x with memReady := true, memFail := false, cmp := true, state := 0 } }

/-- Page tables of function 0 that map the 4 KiB code page at 0x10000 to itself, readable, writable and executable. -/
def State.mapped (s : State) : State :=
  let s := s.setFn 0 { s.fn 0 with en := true, ptbr := 0x1001, gran := ins (s.fn 0).gran 0 0x8000, tlb := [] }
  let s := s.poke 0x1000 (leBytes 8 0x2001)
  let s := s.poke 0x2000 (leBytes 8 0x3001)
  let s := s.poke 0x3000 (leBytes 8 0x4001)
  let s := s.poke 0x4000 (leBytes 8 0x5001)
  s.poke 0x5080 (leBytes 8 0x800000000001007F)

/-- A wave whose next word is the given instruction word, alone in a clause of its class. -/
def State.withKalgil (s : State) (w : DWord) : State :=
  let s := (s.up.mapped).poke 0x10008 (leBytes 8 w.toNat)
  let cl : Clause := { addr := 0x10000, eng := classOf (w.extractLsb' 56 8).toNat, cnt := 0, m := false }
  { s with
    agenda := [.wave { conv := 0, crew := 0, wave := 0 }],
    waves := ins s.waves 0 { Wave.start 0 0 0x10000 1 32 16 [] (allLanes 1) (List.replicate 16 0) [] with
      clause := some cl, pc := 0x10008 },
    crews := ins s.crews 0 (Crew.start 0 1 0), convoys := ins s.convoys 0 (Convoy.start 0 0 0 0 0 1 0 0),
    grids := ins s.grids 0 Grid.lone, codeHist := [], nextConvoy := max s.nextConvoy 1, nextGrid := max s.nextGrid 1 }

/-- A Cairn invocation on slice 0, under FILL of line 0, whose next bytes are the given word. -/
def State.withCairn (s : State) (w : Word) : State :=
  let s := s.up
  let x := s.slice 0
  let slot : Slot := { Slot.reset with en := true, share := 100, clen := 1, dlen := 1 }
  let t : Trigger := { kind := .fill, line := 0, va := 0, vf := 0, set := 1, hops := 0, src := 0, msg := [], token := none }
  let v : Invoc := { slot := 0, trig := t, arg := 0, budget := 2048, start := s.fab, instret := 0, pc := 0, x := [], keep := none,
                     drop := false, evqs := 0, replied := false, forwarded := false, fetched := false }
  let s := s.setLineDir 0 { s.lineDir 0 with present := true, pinned := true }
  let s := s.setSlice 0 { x with slots := setAt x.slots 0 slot, inv := some v,
                                 code := (leBytes 4 w.toNat).zipIdx.foldl (fun m p => put 0 m p.2 p.1) x.code }
  { s with agenda := [.cairn 0] }

end Sys2Proof.Machine
end

