-- ==== Sys2Proof/Machine/Step.lean ====
section
/-! DEFINITION. Sys2Proof/Machine/Step.lean: one step of the machine, and one instruction placed where it fetches next. -/
namespace Sys2Proof.Machine

open Sys2Proof

/-- One step: the turn that `State.turn` picks, then the clocks, which stand while a step that they made due is made. -/
def step (s : State) : Host.Outcome State Fault Refusal :=
  match s.turn with
  | .done t => .next t.pass
  | .run i t =>
    match exec i t with
    | .next u => .next u.pass
    | .fault r => .fault r
    | .refused r => .refused r
  | .due i t => exec i t

/-- The state with an instruction's bits where the next step fetches (DESIGN CHOICE, log 11): a 64-bit word for a wave, 32 bits or a parcel
for a Cairn core. -/
def State.withFetchWord (s : State) (nbits w : Nat) : State :=
  if nbits = 64 then s.withKalgil (BitVec.ofNat 64 w) else s.withCairn (BitVec.ofNat 32 w)

end Sys2Proof.Machine
end

