-- ==== Sys2Proof/Safety.lean ====
section
/-!
DEFINITION. Sys2Proof/Safety.lean: what a safe run is, and the words in which claims say that an instruction completes.
-/
namespace Sys2Proof.Machine

open Sys2Proof

/-- A die's view of device memory in canonical form: keys strictly rising, and listed is only what differs from device memory. -/
def Die.viewWf (x : Die) (m : Img) : Bool :=
  risingFrom 0 x.view && (x.view.all fun p => p.2 != m.byte p.1) && risingFrom 0 x.viewTags &&
    x.viewTags.all fun p => p.2 != m.tag p.1

/-- Device memory, each die's view of it, and host memory are in canonical form (strictly rising addresses, no default
listed): equal memories are equal data. -/
def State.memWf (s : State) : Bool := s.hbm.wf && (s.dies.all fun x => x.viewWf s.hbm) && Memory.wf s.hostMem

/-- A step that goes on. -/
def goesOn (s : State) : Bool :=
  match step s with
  | .next _ => true
  | .fault _ => false
  | .refused _ => false

/-- Nothing holds a commit back and no single step follows it: an instruction that advances the milestone finds no asynchronous
operation of its wave outstanding (01 R21), and DCTL.STEP is clear (19 R338). -/
def Ctx.calm (c : Ctx) (closer : Bool) : Bool :=
  (c.hnd || !(closer || c.explicitMile) || c.quiet) && (c.hnd || !c.w.stepping)

/-- An instruction passes the common checks (08 Table 8-3, steps 5, 6 and 8), some thread acts where one must, and nothing holds
its commit back. -/
def Ctx.runs (c : Ctx) (m : Meta) (each : Nat → Option (BitVec 10 × Nat) := fun _ => none) : Bool :=
  (m.check c).isNone && (threadFault c.w m.fields (c.acting m.ctl) each).isNone && (c.acting m.ctl != 0 || m.always) &&
    c.calm m.closer

/-- The commit of an instruction with no after-trap: in the state `s` of its effects, the wave advances its milestone, moves to
`dest` or to the next word, and its core's CHK counts the instruction (01 R18, R19, 25 R407). -/
def Ctx.commit (c : Ctx) (closer : Bool) (dest : Option DWord) (s : State) : State :=
  match s.wave? c.id with
  | none => s
  | some w => (s.setWave c.id (c.move dest (c.advance closer w))).checked c.w.core

end Sys2Proof.Machine
end

