-- ==== Sys2Proof/Certificates/Slice0/Obligations.lean ====
section
/-!
DEFINITION. Sys2Proof/Certificates/Slice0/Obligations.lean: the statements about the model. Words they share stand in
`Sys2Proof.Ob`: tables of what instructions compute, written from the chapters' tables, and what a state keeps.
-/

open Sys2Proof Sys2Proof.Machine

namespace Sys2Proof.Ob

/-! ### What instructions compute -/

/-- A K instruction: its common checks, destination, type, SAT and exact result x in a thread (11 Table 11-5, R207). -/
structure UOp where
  m : Meta
  d : Desc
  ty : ITy
  sat : Bool
  x : Ctx → Nat → Int

/-- Operand fields of two and of three sources. -/
def two (k : Ctl) (d a : Desc) (b : SrcB) (ty : ITy) : Meta :=
  .uni k (dst d (spanOf ty.wide) :: src a (spanOf ty.wide) :: srcB b (spanOf ty.wide))
/-- Three sources. -/
def three (k : Ctl) (d a b e : Desc) (ty : ITy) : Meta :=
  .uni k [dst d (spanOf ty.wide), src a (spanOf ty.wide), src b (spanOf ty.wide), src e (spanOf ty.wide)]

/-- Table 11-5. -/
def uOp : Instr → Option UOp
  | .kmov k d b ty => some ⟨.uni k (dst d (spanOf ty.wide) :: srcB b (spanOf ty.wide)), d, ty, false,
      fun c t => ty.val (c.readB t b ty)⟩
  | .kadd k d a b ty sat => some ⟨two k d a b ty, d, ty, sat, fun c t => ty.val (c.readI t a ty) + ty.val (c.readB t b ty)⟩
  | .ksub k d a b ty sat => some ⟨two k d a b ty, d, ty, sat, fun c t => ty.val (c.readI t a ty) - ty.val (c.readB t b ty)⟩
  | .kmul k d a b ty sat => some ⟨two k d a b ty, d, ty, sat, fun c t => ty.val (c.readI t a ty) * ty.val (c.readB t b ty)⟩
  | .kand k d a b ty => some ⟨two k d a b ty, d, ty, false, fun c t => ty.val (c.readI t a ty &&& c.readB t b ty)⟩
  | .kor k d a b ty => some ⟨two k d a b ty, d, ty, false, fun c t => ty.val (c.readI t a ty ||| c.readB t b ty)⟩
  | .kxor k d a b ty => some ⟨two k d a b ty, d, ty, false, fun c t => ty.val (c.readI t a ty ^^^ c.readB t b ty)⟩
  | .ksh k d a b ty kind sat => some ⟨two k d a b ty, d, ty, sat, fun c t => shiftVal ty kind (c.readI t a ty) (c.readB t b ty)⟩
  | .kcmp k d a b ty cond => some ⟨two k d a b ty, d, ty, false,
      fun c t => if cond.holds (ty.val (c.readI t a ty)) (ty.val (c.readB t b ty)) then 1 else 0⟩
  | .ksel k d a b e ty => some ⟨three k d a b e ty, d, ty, false,
      fun c t => if ty.unsignedVal (c.readI t a ty) ≠ 0 then ty.val (c.readI t b ty) else ty.val (c.readI t e ty)⟩
  | .kmad k d a b e ty sat => some ⟨three k d a b e ty, d, ty, sat,
      fun c t => ty.val (c.readI t a ty) * ty.val (c.readI t b ty) + ty.val (c.readI t e ty)⟩
  | _ => none

/-- A VEC integer instruction: its common checks, destination, type, SAT and exact result in a thread of the acting set (11 Table
11-7, R210 to R217). -/
structure VOp where
  m : Meta
  d : Desc
  ty : ITy
  sat : Bool
  x : Ctx → Lanes → Nat → Int

/-- Fields of two sources, per thread. -/
def vtwo (k : Ctl) (d a : Desc) (b : SrcB) (ty : ITy) : Meta :=
  .plain k (dst d (spanOf ty.wide) :: src a (spanOf ty.wide) :: srcB b (spanOf ty.wide))
/-- Fields of three sources, per thread. -/
def vthree (k : Ctl) (d a b e : Desc) (ty : ITy) : Meta :=
  .plain k [dst d (spanOf ty.wide), src a (spanOf ty.wide), src b (spanOf ty.wide), src e (spanOf ty.wide)]
/-- An operation of two sources. -/
def v2 (k : Ctl) (d a : Desc) (b : SrcB) (ty : ITy) (sat : Bool) (f : DWord → DWord → Int) : Option VOp :=
  some ⟨vtwo k d a b ty, d, ty, sat, fun c _ t => f (c.readI t a ty) (c.readB t b ty)⟩
/-- An operation of three sources. -/
def v3 (k : Ctl) (d a b e : Desc) (ty : ITy) (sat : Bool) (f : DWord → DWord → DWord → Int) : Option VOp :=
  some ⟨vthree k d a b e ty, d, ty, sat, fun c _ t => f (c.readI t a ty) (c.readI t b ty) (c.readI t e ty)⟩

/-- Table 11-7. -/
def vOp : Instr → Option VOp
  | .vmov k (.reg d b) ty => some ⟨.plain k (dst d (spanOf ty.wide) :: srcB b (spanOf ty.wide)), d, ty, false,
      fun c _ t => ty.val (c.readB t b ty)⟩
  | .vmov k (.fromIdx d i) ty => some ⟨{ Meta.plain k [dst d (spanOf ty.wide)] with noHnd := true }, d, ty, false,
      fun c _ t => ((c.w.getI t i.toNat).toNat : Int)⟩
  | .vadd k d a b ty sat => v2 k d a b ty sat fun x y => ty.val x + ty.val y
  | .vsub k d a b ty sat => v2 k d a b ty sat fun x y => ty.val x - ty.val y
  | .vmul k d a b ty hi sat => v2 k d a b ty sat fun x y =>
      if hi then ty.val x * ty.val y / 2 ^ ty.bits else ty.val x * ty.val y
  | .vmad k d a b e ty sat => v3 k d a b e ty sat fun x y z => ty.val x * ty.val y + ty.val z
  | .vquo k d a b ty rem sat => v2 k d a b ty sat fun x y =>
      if ty.val y = 0 then (if rem then ty.val x else if ty.signed then -1 else 2 ^ ty.bits - 1)
      else if rem then ty.val x - Int.tdiv (ty.val x) (ty.val y) * ty.val y else Int.tdiv (ty.val x) (ty.val y)
  | .vand k d a b ty => v2 k d a b ty false fun x y => ty.val (x &&& y)
  | .vor k d a b ty => v2 k d a b ty false fun x y => ty.val (x ||| y)
  | .vxor k d a b ty => v2 k d a b ty false fun x y => ty.val (x ^^^ y)
  | .vbic k d a b ty => v2 k d a b ty false fun x y => ty.val (x &&& ~~~ y)
  | .vshl k d a b ty sat => v2 k d a b ty sat (shiftVal ty .shl)
  | .vshr k d a b ty => v2 k d a b ty false (shiftVal ty .shr)
  | .vfun k d a b e ty left => v3 k d a b e ty false (funVal ty left)
  | .vbfx k d a b ty => v2 k d a b ty false (bfxVal ty)
  | .vbfi k d a b e ty => v3 k d a b e ty false (bfiVal ty)
  | .vcnt k d a op ty => some ⟨.plain k [dst d (spanOf ty.wide), src a (spanOf ty.wide)], d, ty, false,
      fun c _ t => cntVal ty op (c.readI t a ty)⟩
  | .vmin k d a b ty => v2 k d a b ty false fun x y => if ty.val y < ty.val x then ty.val y else ty.val x
  | .vmax k d a b ty => v2 k d a b ty false fun x y => if ty.val x < ty.val y then ty.val y else ty.val x
  | .vabsd k d a b ty sat => v2 k d a b ty sat fun x y => |ty.val x - ty.val y|
  | .vsel k d a b ty n neg => some ⟨{ vtwo k d a b ty with noHnd := n != 7 }, d, ty, false, fun c _ t =>
      if (c.w.getP n.toNat).getLsbD t != neg then ty.val (c.readI t a ty) else ty.val (c.readB t b ty)⟩
  | .vprm k d a b e uns => v3 k d a b e (if uns then .n32 else .s32) false prmVal
  | .vshfl k d a b ty mode all => some ⟨{ vtwo k d a b ty with xlane := true }, d, ty, false, fun c _ t =>
      let (lo, size) := c.w.spanFrom all t
      ty.val (c.readFrom t (((shflFrom mode size (t - lo) (ty.unsignedVal (c.readB t b ty))).map (lo + ·)).getD t) a ty)⟩
  | .vscan k d a key ty op excl all sat =>
      some ⟨{ Meta.plain k (dst d (spanOf ty.wide) :: src a (spanOf ty.wide) :: key.toList.map (src · (spanOf ty.wide)))
                with xlane := true }, d, ty, false, fun c act t =>
        let same (u : Nat) : Bool := key.elim true fun x => ty.unsignedVal (c.readI u x ty) == ty.unsignedVal (c.readI t x ty)
        let before := (lanesOf act).filter fun u => (c.w.spanFrom all t).1 ≤ u && u < t && same u
        scanVal ty op sat excl (before.map fun u => ty.val (c.readI u a ty)) (ty.val (c.readI t a ty))⟩
  | _ => none

/-- A VEC float instruction that computes in each thread: its common checks, destination, result format and result pattern (12
Table 12-1). -/
structure FOp where
  m : Meta
  d : Desc
  f : FCode
  x : Ctx → Nat → Nat

/-- One source. -/
def f1 (k : Ctl) (d a : Desc) (ty : FTy) (f : FVal → Nat) : Option FOp :=
  some ⟨.plain k [dst d (spanF ty), src a (spanF ty)], d, ty.fcode, fun c t => f (ty.fmt.value (c.readFBits t a ty.fcode))⟩
/-- One source, on its pattern. -/
def f1b (k : Ctl) (d a : Desc) (ty : FTy) (f : Nat → Nat) : Option FOp :=
  some ⟨.plain k [dst d (spanF ty), src a (spanF ty)], d, ty.fcode, fun c t => f (c.readFBits t a ty.fcode)⟩
/-- Two sources, on their patterns. -/
def f2b (k : Ctl) (d a : Desc) (b : SrcB) (ty : FTy) (f : Nat → Nat → Nat) : Option FOp :=
  some ⟨.plain k (dst d (spanF ty) :: src a (spanF ty) :: srcB b (spanF ty)), d, ty.fcode,
    fun c t => f (c.readFBits t a ty.fcode) (c.readBBits t b ty.fcode)⟩
/-- Two sources, exactly, finished once. -/
def f2 (k : Ctl) (d a : Desc) (b : SrcB) (ty : FTy) (rm : RM) (sat : Bool) (f : FVal → FVal → FVal) : Option FOp :=
  f2b k d a b ty fun x y => ty.fmt.finish rm sat (f (ty.fmt.value x) (ty.fmt.value y))

/-- Table 12-1, the instructions of one thread. -/
def fOp : Instr → Option FOp
  | .fadd k d a b ty rm sat => f2 k d a b ty rm sat fun x y => exactSum rm [x, y]
  | .fsub k d a b ty rm sat => f2 k d a b ty rm sat fun x y => exactSum rm [x, y.neg]
  | .fmul k d a b ty rm sat => f2 k d a b ty rm sat FVal.mul
  | .fdiv k d a b ty rm sat => f2 k d a b ty rm sat FVal.div
  | .fma k d a b e ty rm sat => some ⟨.plain k [dst d (spanF ty), src a (spanF ty), src b (spanF ty), src e (spanF ty)], d,
      ty.fcode, fun c t => ty.fmt.finish rm sat
        (exactSum rm [(c.readF t a ty.fcode).mul (c.readF t b ty.fcode), c.readF t e ty.fcode])⟩
  | .fmin k d a b ty => f2b k d a b ty (minMaxBits ty.fmt false)
  | .fmax k d a b ty => f2b k d a b ty (minMaxBits ty.fmt true)
  | .fsgn k d a b ty op => f2b k d a b ty fun x y =>
      ty.fmt.join (sgnSign op (ty.fmt.signOf x) (ty.fmt.signOf y)) (ty.fmt.magOf x)
  | .fclass k d a ty => some ⟨.plain k [dst d, src a (spanF ty)], d, .fp32,
      fun c t => 2 ^ classBit ty.fmt (c.readFBits t a ty.fcode)⟩
  | .frcp k d a ty rm sat => f1 k d a ty fun x => ty.fmt.finish rm sat (FVal.div (.fin false 1 0) x)
  | .frsq k d a ty rm sat => f1 k d a ty fun x => ty.fmt.finish rm sat x.rsqrt
  | .fsqrt k d a ty rm => f1 k d a ty fun x => ty.fmt.finish rm false x.sqrt
  | .fexp2 k d a ty rm sat => f1b k d a ty (exp2Bits ty.fmt rm sat)
  | .flog2 k d a ty rm => f1b k d a ty (log2Bits ty.fmt rm)
  | .ftrig k d a ty cos rm => f1b k d a ty (trigBits ty.fmt cos rm)
  | .frnd k d a ty rm => f1 k d a ty fun x => ty.fmt.finish rm false (x.integral rm)
  | .cvtf k d a (.toCode f) ty rm sat => some ⟨.plain k [dst d (spanOf (wideF f)), src a (spanOf (wideF ty.fcode))], d, f,
      fun c t => f.fmt.finish rm sat (c.readF t a ty.fcode)⟩
  | .cvtf k d a (.fromCode f) ty rm sat => some ⟨.plain k [dst d (spanOf (wideF ty.fcode)), src a (spanOf (wideF f))], d,
      ty.fcode, fun c t => ty.fcode.fmt.finish rm sat (c.readF t a f)⟩
  | .cvti k d a true ity ty rm sat => some ⟨.plain k [dst d (spanF ty), src a (spanOf ity.wide)], d, ty.fcode, fun c t =>
      ty.fmt.finish rm sat (.fin (ity.val (c.readI t a ity) < 0) (ity.val (c.readI t a ity)).natAbs 0)⟩
  | .fpack k d a b into pos ty rm sat => some ⟨.plain k [dst d, src a (spanF ty), src b (spanF ty)], d, .fp32, fun c t =>
      let w := into.fmt.top + 1
      setField (setField (c.read32 t d).toNat w (2 * pos.toNat) (into.fmt.finish rm sat (c.readF t a ty.fcode)))
        w (2 * pos.toNat + 1) (into.fmt.finish rm sat (c.readF t b ty.fcode))⟩
  | .fdot k d a b e ty rm sat => some ⟨.plain k [dst d, src a, src b, src e], d, .fp32, fun c t =>
      FCode.fp32.fmt.finish rm sat (exactSum rm [c.readF t e .fp32,
        (c.readPair t a ty).1.mul (c.readPair t b ty).1, (c.readPair t a ty).2.mul (c.readPair t b ty).2])⟩
  | _ => none

end Sys2Proof.Ob

open Sys2Proof.Ob

/-! ### Arithmetic -/

/-- 11 R204, R207, Table 11-5. A K instruction that runs computes once, as the leader: its exact result, finished, is written to
the destination, and the wave moves on. -/
def Obligations.UniformArithmetic : Prop :=
  ∀ (i : Instr) (o : UOp) (s : State) (c : Ctx), uOp i = some o → Ctx.of s = some c → c.runs o.m = true →
    exec i s = .next (c.commit false none ((c.during false).dest o.d o.ty.wide
      [(leader (c.acting o.m.ctl), o.ty.finish o.sat (o.x (c.during false) (leader (c.acting o.m.ctl))))] s))

/-- 11 R209 to R217, Table 11-7. A VEC integer instruction that runs computes in every acting thread from the registers as they
were, and writes each thread's finished result. -/
def Obligations.VectorInteger : Prop :=
  ∀ (i : Instr) (o : VOp) (s : State) (c : Ctx), vOp i = some o → Ctx.of s = some c → c.runs o.m = true →
    exec i s = .next (c.commit false none ((c.during false).dest o.d o.ty.wide
      ((lanesOf (c.acting o.m.ctl)).map fun t => (t, o.ty.finish o.sat (o.x (c.during false) (c.acting o.m.ctl) t))) s))

/-- 12 R222 to R230, Table 12-1. A floating-point instruction that runs computes in every acting thread: exactly, rounded once. -/
def Obligations.VectorFloat : Prop :=
  ∀ (i : Instr) (o : FOp) (s : State) (c : Ctx), fOp i = some o → Ctx.of s = some c → c.runs o.m = true →
    exec i s = .next (c.commit false none ((c.during false).dest o.d (wideF o.f)
      ((lanesOf (c.acting o.m.ctl)).map fun t => (t, BitVec.ofNat 64 (o.x (c.during false) t))) s))

namespace Sys2Proof.Ob

/-! ### Control -/

/-- A control instruction as it completes: its common checks, the state of its effect, and the target to which it transfers, in a
setting with the acting threads (11 R200 to R202). -/
structure COp where
  m : Meta
  s : State
  dest : Option DWord

/-- BRD, JOIN: last in its clause and forbidden in a handler. -/
def pathMeta (k : Ctl) (t : SrcB) (last : Bool) : Meta :=
  { Meta.uni k (srcB t 2) with last := last, noHnd := true, always := true }

/-- The wave after BRD: an entry with the header that follows, the active set, and the other path's threads where both paths
have threads (11 R201). -/
def afterBrd (c : Ctx) (taken : Lanes) : Wave :=
  { c.w with
    stack := { jpc := c.nextHeader, outer := c.w.active, pend := if taken = 0 then 0 else c.w.active &&& ~~~ taken } :: c.w.stack,
    active := if taken = 0 then c.w.active &&& ~~~ taken else taken }

/-- NOP, BRA, BRC, BRD, CALL, RET and LOOP. A LOOP counts in a k register. -/
def cOp (c : Ctx) : Instr → Option COp
  | .nop k => some ⟨{ Meta.uni (ctlOf k) [] with always := true }, c.s, none⟩
  | .bra k t =>
      let x := c.target (c.acting { k with onc := true }) t
      some ⟨.uni k (srcB t 2), c.put (c.w.spin x), some x⟩
  | .brc k cond a t =>
      let act := c.acting { k with onc := true }
      if cond.holds (c.read64 (leader act) a false) then
        some ⟨.uni k (src a 2 :: srcB t 2), c.put (c.w.spin (c.target act t)), some (c.target act t)⟩
      else some ⟨.uni k (src a 2 :: srcB t 2), c.s, none⟩
  | .brd k t =>
      let taken := c.w.active &&& c.w.guard k
      if 32 ≤ c.w.stack.length then none
      else some ⟨pathMeta k t true, c.put (afterBrd c taken),
        if taken = 0 then none else some (c.target (c.acting { k with onc := true }) t)⟩
  | .call k d t =>
      let act := c.acting { k with onc := true }
      some ⟨.uni k (dst d 2 :: srcB t 2), c.dest d true [(leader act, c.nextHeader)] c.s, some (c.target act t)⟩
  | .ret k a => some ⟨.uni k [src a 2], c.s, some (c.target (c.acting { k with onc := true }) (.desc a))⟩
  | .loop k (.k r) t =>
      let act := c.acting { k with onc := true }
      let n := c.w.getK r.toNat
      let x := c.target act t
      if n = 0 then some ⟨.uni k (dst (.k r) :: srcB t 2), c.s, none⟩
      else if n = 1 then some ⟨.uni k (dst (.k r) :: srcB t 2), c.put (c.w.setK r.toNat 0), none⟩
      else some ⟨.uni k (dst (.k r) :: srcB t 2), c.put ((c.w.setK r.toNat (n - 1)).spin x), some x⟩
  | _ => none

/-- A transfer's target is a header's place in the address space (11 R199). -/
def goodTarget : Option DWord → Bool
  | some t => t.extractLsb' 0 3 == 0 && t.extractLsb' 57 7 == 0
  | none => true

end Sys2Proof.Ob

/-- 11 R200, R201. A control instruction that runs, with a good target where it transfers, has its effect and goes there. -/
def Sys2Proof.Ob.ControlTransfers : Prop :=
  ∀ (i : Instr) (o : COp) (s : State) (c : Ctx), Ctx.of s = some c → cOp (c.during false) i = some o → c.runs o.m = true →
    goodTarget o.dest = true → exec i s = .next (c.commit false o.dest o.s)

/-- 11 R202. JOIN runs the pending path of the entry on top where one is left, without looking at its own target; else it takes
the entry's threads back and goes to its target. -/
def Sys2Proof.Ob.JoinReconverges : Prop :=
  ∀ (k : Ctl0) (t : SrcB) (e : StackEntry) (r : List StackEntry) (s : State) (c : Ctx), Ctx.of s = some c →
    c.runs (pathMeta (ctlOf k) t false) = true → c.w.stack = e :: r →
    (e.pend ≠ 0 → exec (.join k t) s =
      .next (c.commit false (some e.jpc) (c.put { c.w with active := e.pend, stack := { e with pend := 0 } :: r }))) ∧
    (let x := (c.during false).target (c.acting { ctlOf k with onc := true }) t
     e.pend = 0 → goodTarget (some x) = true →
      exec (.join k t) s = .next (c.commit false (some x) (c.put { c.w with active := e.outer, stack := r })))

/-- 11 R199, R201, R202, 19 R340. BRD on a full stack, JOIN on an empty one and a transfer to a misaligned or non-canonical target
fault precisely, and commit nothing. -/
def Sys2Proof.Ob.ControlFaults : Prop :=
  ∀ (s : State) (c : Ctx), Ctx.of s = some c →
    (∀ k t, c.runs (pathMeta k t true) = true → 32 ≤ c.w.stack.length →
      exec (.brd k t) s = .next (c.precise s c.w (.plain (cSync 0)) false)) ∧
    (∀ k t, c.runs (pathMeta (ctlOf k) t false) = true → c.w.stack = [] →
      exec (.join k t) s = .next (c.precise s c.w (.plain (cSync 1)) false)) ∧
    (∀ i (o : COp) t, cOp (c.during false) i = some o → c.runs o.m = true → o.dest = some t → goodTarget o.dest = false →
      exec i s = .next (c.precise s c.w (.plain (if t.extractLsb' 0 3 ≠ 0 then cAlign 1 else cProtect 0)) false))

/-! ### Votes, lanes, the index window, the end of a wave -/

/-- 11 R205, R206. VOTE counts over the threads on which it acts; RDLANE and WRLANE move a value between the leader and the thread
that is named, whatever its state. -/
def Obligations.VotesAndLanes : Prop :=
  ∀ (s : State) (c : Ctx), Ctx.of s = some c →
    (∀ k d op hi neg (n : BitVec 3), c.runs { Meta.uni k [dst d 2] with noHnd := n != 7 } = true →
      exec (.vote k d op hi neg n) s = .next (c.commit false none ((c.during false).dest d true
        [(leader (c.acting { k with onc := true }),
          let all := c.acting { k with onc := false }
          let q := all &&& (if neg then ~~~ c.w.getP n.toNat else c.w.getP n.toNat)
          match op with
          | .ballot => if hi then q.extractLsb' 64 64 else q.extractLsb' 0 64
          | .any => if q ≠ 0 then 1 else 0
          | .all => if q = all then 1 else 0
          | .count => BitVec.ofNat 64 (lanesOf q).length)] s))) ∧
    (∀ k d r t w64,
      c.runs (.uni k (dst d (spanOf w64) :: { src (.v r) (spanOf w64) with free := true } :: srcB t 2)) = true →
      let act := c.acting { k with onc := true }
      let x := ((c.during false).readB64 (leader act) t).toNat
      x < c.w.threads →
      exec (.rdlane k d (.v r) t w64) s = .next (c.commit false none ((c.during false).dest d w64
        [(leader act, if w64 then c.w.getV2 x r.toNat else (c.w.getV x r.toNat).zeroExtend 64)] s))) ∧
    (∀ k r a t w64,
      c.runs (.uni k ({ dst (.v r) (spanOf w64) with free := true } :: src a (spanOf w64) :: srcB t 2)) = true →
      let act := c.acting { k with onc := true }
      let x := ((c.during false).readB64 (leader act) t).toNat
      x < c.w.threads →
      exec (.wrlane k (.v r) a t w64) s = .next (c.commit false none ((c.during false).dest (.v r) w64
        [(x, if w64 then (c.during false).read64 (leader act) a false
          else ((c.during false).read32 (leader act) a).zeroExtend 64)] s)))

/-- 11 R208. SETIW sets IWB and IWL to a and b, read as unsigned 64-bit values, where a + b is at most V; else it raises
OPERAND/INDEX-BOUND and the window keeps its values. With IWL = 0 every indexed access faults in every thread. -/
def Obligations.SetIndexWindow : Prop :=
  ∀ (k : Ctl) (a : Desc) (b : SrcB) (s : State) (c : Ctx), Ctx.of s = some c → c.runs (.uni k (src a 2 :: srcB b 2)) = true →
    let act := c.acting { k with onc := true }
    let x := ((c.during false).read64 (leader act) a false).toNat
    let y := ((c.during false).readB64 (leader act) b).toNat
    (x + y ≤ c.w.vregs → exec (.setiw k a b) s =
      .next (c.commit false none (c.put { c.w with iwb := BitVec.ofNat 8 x, iwl := BitVec.ofNat 9 y }))) ∧
    (c.w.vregs < x + y → exec (.setiw k a b) s = .next (c.precise s c.w (.plain (cOperand 2)) false)) ∧
    (∀ (f : Field) (n : BitVec 2) (off : BitVec 5) (t : Nat), f.d = .idx n off → c.w.iwl = 0 →
      (f.index c.w t).map Prod.fst = some (cOperand 2))

/-- 01 R27, 19 R334. TAIL ends its wave; barriers that now wait for no one complete; from a trap handler the grid fails with the
trap's cause and address. -/
def Sys2Proof.Ob.TailEndsWave : Prop :=
  ∀ (k : Ctl0) (s : State) (c : Ctx), Ctx.of s = some c →
    c.runs { Meta.uni (ctlOf k) [] with last := true, always := true } = true →
    exec (.tail k) s = .next ((((if c.hnd then s.failGrid c.cv.grid { cause := c.w.cause, faddr := c.w.faddr } c.cv.index else s).setWave
      c.id { c.advance false c.w with ended := true, wait := none, woken := false, stall := false, far := none }).barsAfterTail
        c.id).checked c.w.core)

/-! ### VEC forms that write no finished integer -/

/-- 02 R35, 11 R210, R212, R213, R216. A move to an index register, a comparison, an address and a match: what they leave. -/
def Obligations.VectorForms : Prop :=
  ∀ (s : State) (c : Ctx), Ctx.of s = some c →
    (∀ k i b sat ty, c.runs { Meta.plain k [src b (spanOf ty.wide)] with noHnd := true } = true →
      exec (.vmov k (.toIdx i b sat) ty) s = .next (c.commit false none (c.put ((lanesOf (c.acting k)).foldl (fun w t =>
        w.setI t i.toNat (BitVec.ofInt 8 (let x := ty.val ((c.during false).readI t b ty)
                                          if sat then clampInt 0 255 x else x))) c.w)))) ∧
    (∀ k (p : BitVec 3) a b ty cond comb,
      c.runs { Meta.plain k (src a (spanOf ty.wide) :: srcB b (spanOf ty.wide)) with noHnd := p != 7 } = true →
      exec (.vcmp k p a b ty cond comb) s = .next (c.commit false none (c.put (c.w.setP p.toNat
        (mergeLanes (c.acting k) (lanesWhere (c.acting k) fun t => comb.apply ((c.w.getP p.toNat).getLsbD t)
          (cond.holds (ty.val ((c.during false).readI t a ty)) (ty.val ((c.during false).readB t b ty))))
          (c.w.getP p.toNat)))))) ∧
    (∀ k (p : BitVec 3) a b ty cond comb,
      c.runs { Meta.plain k (src a (spanF ty) :: srcB b (spanF ty)) with noHnd := p != 7 } = true →
      exec (.fcmp k p a b ty cond comb) s = .next (c.commit false none (c.put (c.w.setP p.toNat
        (mergeLanes (c.acting k) (lanesWhere (c.acting k) fun t => comb.apply ((c.w.getP p.toNat).getLsbD t)
          (cond.holds ((c.during false).readF t a ty.fcode) ((c.during false).readBF t b ty.fcode)))
          (c.w.getP p.toNat)))))) ∧
    (∀ k d a b uns sh, c.runs (.plain k (dst d 2 :: src a 2 :: srcB b)) = true →
      exec (.vaddr k d a b uns sh) s = .next (c.commit false none ((c.during false).dest d true
        ((lanesOf (c.acting k)).map fun t => (t, (c.during false).read64 t a false +
          (if uns then ((c.during false).readB32 t b).zeroExtend 64 else ((c.during false).readB32 t b).signExtend 64) <<< sh.toNat)) s))) ∧
    (∀ k d a ty, c.runs { Meta.plain k [dst d, src a (spanOf ty.wide)] with xlane := true } = true →
      exec (.vmatch k d a ty) s = .next (c.commit false none ((c.during false).dest d false
        ((lanesOf (c.acting k)).map fun t =>
          let m := (List.range 32).foldl (fun m l =>
            if (c.acting k).getLsbD (t / 32 * 32 + l) &&
                ty.unsignedVal ((c.during false).readI (t / 32 * 32 + l) a ty) == ty.unsignedVal ((c.during false).readI t a ty)
            then m ||| 2 ^ l else m) 0
          (t, if ty = .s32 then (BitVec.ofNat 32 m).signExtend 64 else BitVec.ofNat 64 m)) s)))

/-! ### Floating-point instructions over a pass, a span or an image -/

/-- The threads of pass p, with 0 where a thread does not act. -/
def passValues (c : Ctx) (act : Lanes) (a : Desc) (ty : FTy) (p : Nat) : List FVal :=
  (List.range 32).map fun i => if act.getLsbD (32 * p + i) then c.readF (32 * p + i) a ty.fcode else .fin false 0 0

/-- 12 R229, R233 to R235, 10 R191, R192. CVTI to an integer, the Hadamard transform, the reduction tree and the expansion of an
image: what each writes in each acting thread. -/
def Obligations.FloatForms : Prop :=
  ∀ (s : State) (c : Ctx), Ctx.of s = some c →
    (∀ k d a ity ty rm sat, c.runs (.plain k [dst d (spanOf ity.wide), src a (spanF ty)]) = true →
      exec (.cvti k d a false ity ty rm sat) s = .next (c.commit false none ((c.during false).dest d ity.wide
        ((lanesOf (c.acting k)).map fun t => (t, ity.finish false (match (c.during false).readF t a ty.fcode with
          | .nan => 0
          | .inf neg => if neg then ity.minOf else ity.maxOf
          | .fin neg m e => clampInt ity.minOf ity.maxOf (roundInt rm neg m e)))) s))) ∧
    (∀ k d a ty h32 rm sat, c.runs { Meta.plain k [dst d (spanF ty), src a (spanF ty)] with xlane := true } = true →
      let n := if h32 then 32 else 16
      exec (.hadm k d a ty h32 rm sat) s = .next (c.commit false none ((c.during false).dest d (wideF ty.fcode)
        ((lanesOf (c.acting k)).map fun t => (t, BitVec.ofNat 64 (ty.fmt.finish rm sat
          (((lookD (((c.during false).passes (c.acting k)).map fun p => (p, hadamardBlocks rm n (32 / n) (passValues (c.during false) (c.acting k) a ty p)))
            (t / 32) [])[t % 32]?).getD (.fin false 0 0))))) s))) ∧
    (∀ k d a ty op all rm sat, c.runs { Meta.plain k [dst d (spanF ty), src a (spanF ty)] with xlane := true } = true →
      let leaf (t : Nat) : Nat := if (c.acting k).getLsbD t then (c.during false).readFBits t a ty.fcode else redUnit op ty.fmt
      let root (first size : Nat) : Nat :=
        redRoot (redNode ty.fmt op rm sat) (Nat.log2 size) ((List.range size).map fun i => leaf (first + i))
      exec (.fred k d a ty op all rm sat) s = .next (c.commit false none ((c.during false).dest d (wideF ty.fcode)
        ((lanesOf (c.acting k)).map fun t => (t, BitVec.ofNat 64 (lookD
          (if all then (List.range c.w.depth).map fun p => (p, root 0 c.w.threads)
           else ((c.during false).passes (c.acting k)).map fun p => (p, root (32 * p) 32)) (t / 32) 0))) s))) ∧
    (∀ k r a b ty rm sat,
      c.runs (.plain k [dst (.v r) 2, src a, src b (spanF ty)])
        (fun t => (dqblkFault c.w (.v r) ((c.during false).read32 t a).toNat).map fun x => (x, 0)) = true →
      exec (.dqblk k (.v r) a b ty rm sat) s = .next (c.commit false none (c.put ((lanesOf (c.acting k)).foldl (fun w t =>
        (imageValues ((c.during false).read32 t a).toNat).zipIdx.foldl (fun w p => w.setV t (r.toNat + p.2)
          (BitVec.ofNat 32 (ty.fmt.finish rm sat (p.1.mul ((c.during false).readF t b ty.fcode))))) w) c.w))))

/-- 12 R231, R232. QBLK: each pass's elements, 0 where a thread does not act, are quantised to the 32 words of one image. -/
def Sys2Proof.Ob.QuantiseBlock : Prop :=
  ∀ (k : Ctl) (d a b e : Desc) (q : QFmt) (ty : FTy) (rm : RM) (s : State) (c : Ctx), Ctx.of s = some c →
    let n := if q.isS4 then 2 else 1
    let c' := c.during false
    let act := c.acting k
    c.runs { Meta.plain k ([dst d, src a n, src b n] ++ (if q.isS4 then [src e] else [])) with xlane := true } = true →
    (q.isS4 = true → isV a = true ∧ isV b = true) →
    let elems (t : Nat) : List FVal :=
      if q.isS4 then
        if act.getLsbD t then [regOf a, regOf a + 1, regOf b, regOf b + 1].map fun r => FCode.fp32.fmt.value (c.w.getV t r).toNat
        else List.replicate 4 (.fin false 0 0)
      else if act.getLsbD t then [c'.readF t a ty.fcode, c'.readF t b ty.fcode] else List.replicate 2 (.fin false 0 0)
    let image (p : Nat) : List Nat :=
      let l := (List.range 32).flatMap fun i => elems (32 * p + i)
      if q.isS4 then qblkS4 q rm (c'.readF (((lanesOf act).find? fun t => t / 32 = p).getD 0) e .fp32) l else qblk8 q rm l
    exec (.qblk k d a b e q ty rm) s = .next (c.commit false none (c'.dest d false
      ((lanesOf act).map fun t => (t, BitVec.ofNat 64
        (((lookD ((c'.passes act).map fun p => (p, image p)) (t / 32) [])[t % 32]?).getD 0))) s))

/-- 06 R119, R123, R126, 12 R236. FSRN, as the engine's turn comes, its failed attempts being replayed: 32·D words of the class are drawn
in ascending thread number, whether or not each thread acts, and each acting thread's value is rounded by its own word. -/
def Sys2Proof.Ob.StochasticRounding : Prop :=
  ∀ (k : Ctl) (d a cls : Desc) (into : FCode) (ty : FTy) (sat : Bool) (s : State) (c : Ctx), Ctx.of s = some c →
    c.runs { Meta.plain k [dst d, src a (spanF ty), src cls] with last := true, closer := true } = true →
    c.gravel.holder = some c.id.conv → c.gravel.ops = [] →
    let c' := c.during true
    let n := (c'.read32 (leader (c.acting k)) cls).toNat
    n ≤ 63 → c.gravel.bad.contains (32 + n) = false → persists c.gravel.fails = false →
    exec (.fsrn k d a cls into ty sat) s = .next (c.commit true none (c'.dest d (wideF into)
      ((lanesOf (c.acting k)).map fun t => (t, BitVec.ofNat 64 (fsrnBits into.fmt sat (c'.readF t a ty.fcode)
        (((((c.attempted.cluster c.clusterNo).gravel.words n c.w.threads).1[t]?).getD 0).toNat))))
      (c.attempted.setGravel c.clusterNo ((c.attempted.cluster c.clusterNo).gravel.words n c.w.threads).2)))

namespace Sys2Proof.Ob

/-! ### Accesses of threads -/

/-- The accesses of threads whose checks pass: thread, address, place. -/
def accsOf (act : Lanes) (adr : Nat → Int) (place : Nat → Int → Except (BitVec 10) Place) : List (Nat × Int × Place) :=
  (lanesOf act).filterMap fun t => match place t (adr t) with
    | .ok p => some (t, adr t, p)
    | .error _ => none

/-- The check of each thread's access. -/
def eachOf (adr : Nat → Int) (place : Nat → Int → Except (BitVec 10) Place) (t : Nat) : Option (BitVec 10 × Nat) :=
  match place t (adr t) with
  | .error e => some (e, faddrOf (adr t))
  | .ok _ => none

/-- Addresses and places. -/
def placesOf (accs : List (Nat × Int × Place)) : List (Nat × Place) := accs.map fun a => (a.2.1.toNat, a.2.2)

/-- Threads and the addresses that watchpoints see. -/
def seenBy (accs : List (Nat × Int × Place)) : List (Nat × Nat) := accs.map fun a => (a.1, faddrOf a.2.1)

/-- The six loads (13 Table 13-1): space and operands. -/
def ldOp : Instr → Option (Space × Ctl × Desc × Desc × SrcB × LdMods)
  | .ldsc k d base off m => some (.scratch, k, d, base, off, m)
  | .ldsh k d base off m => some (.stash, k, d, base, off, m)
  | .ldcv k d base off m => some (.convoy, k, d, base, off, m)
  | .lddv k d base off m => some (.device, k, d, base, off, m)
  | .ldpr k d base off m => some (.peer, k, d, base, off, m)
  | .ldhs k d base off m => some (.host, k, d, base, off, m)
  | _ => none

/-- The six stores. -/
def stOp : Instr → Option (Space × Ctl × Desc × Desc × SrcB × Desc × StMods)
  | .stsc k base data off tag m => some (.scratch, k, base, data, off, tag, m)
  | .stsh k base data off tag m => some (.stash, k, base, data, off, tag, m)
  | .stcv k base data off tag m => some (.convoy, k, base, data, off, tag, m)
  | .stdv k base data off tag m => some (.device, k, base, data, off, tag, m)
  | .stpr k base data off tag m => some (.peer, k, base, data, off, tag, m)
  | .sths k base data off tag m => some (.host, k, base, data, off, tag, m)
  | _ => none

/-- The six atomics. -/
def amOp : Instr → Option (Space × Ctl × Desc × Desc × SrcB × Desc × AmMods)
  | .amsc k d addr b cmp m => some (.scratch, k, d, addr, b, cmp, m)
  | .amsh k d addr b cmp m => some (.stash, k, d, addr, b, cmp, m)
  | .amcv k d addr b cmp m => some (.convoy, k, d, addr, b, cmp, m)
  | .amdv k d addr b cmp m => some (.device, k, d, addr, b, cmp, m)
  | .ampr k d addr b cmp m => some (.peer, k, d, addr, b, cmp, m)
  | .amhs k d addr b cmp m => some (.host, k, d, addr, b, cmp, m)
  | _ => none

/-- The fields of a load, a store, an atomic. -/
def ldMeta (sp : Space) (k : Ctl) (d base : Desc) (off : SrcB) (m : LdMods) : Meta :=
  .plain k (dst d (if m.tag then 1 else spanM m.ty) :: src base (spanBase sp) :: srcB off)
/-- A store. -/
def stMeta (sp : Space) (k : Ctl) (base data : Desc) (off : SrcB) (tag : Desc) (m : StMods) : Meta :=
  .plain k (src base (spanBase sp) :: src data (spanM m.ty) :: (srcB off ++ if m.tag then [src tag] else []))
/-- An atomic. -/
def amMeta (sp : Space) (k : Ctl) (d addr : Desc) (b : SrcB) (cmp : Desc) (m : AmMods) : Meta :=
  let n := spanOf (atomWide m)
  { Meta.plain k (dst d n :: src addr (spanBase sp) :: (srcB b n ++ if m.op = .cas then [src cmp n] else [])) with
    last := true, closer := true }

/-- The threads of a load: a .PART load that trapped acts again on those that failed (19 R337). -/
def ldAct (c : Ctx) (k : Ctl) (m : LdMods) : Lanes :=
  if m.part then (match c.w.replay with
    | some l => c.acting k &&& l
    | none => c.acting k) else c.acting k

end Sys2Proof.Ob

/-! ### Loads, stores, atomics -/

/-- 13 R242, R243, 04 R64, 03 R58, R61. A load of scratchpad, stash, convoy or device memory whose threads pass every check, with its
lines there to be read and slots for its requests, writes each thread's value: the bytes of its own queued stores over those that
stand in the die order. The assay counts the load's claims that it contradicts, and the main L1 drops those lines. -/
def Obligations.NearLoads : Prop :=
  ∀ (i : Instr) (sp : Space) (k : Ctl) (d base : Desc) (off : SrcB) (m : LdMods) (s : State) (c : Ctx),
    ldOp i = some (sp, k, d, base, off, m) → isFar sp = false → Ctx.of s = some c →
    let c' := c.during false
    let adr (t : Nat) : Int := c'.memAddr sp t base (some off)
    let place (_ : Nat) (x : Int) : Except (BitVec 10) Place := c'.loadPlace sp m x
    let accs := accsOf (ldAct c k m) adr place
    c.runs (ldMeta sp k d base off m) (if m.part then fun _ => none else eachOf adr place) = true →
    c'.loadOwn sp d base off m = none → accs ≠ [] → accs.length = (lanesOf (ldAct c k m)).length →
    (accs.all fun a => !(if m.tag then c.w.queuedDisc a.2.2 else c.w.mustDrain a.2.2 (ldBytes m)) && c'.readable a.2.2) = true →
    c'.stashFill (accs.map fun a => a.2.2) = .none → c'.touchables (placesOf accs) false = true →
    (c'.mainRequests m.tag s (placesOf accs)).2 = none →
    (c'.assayRead (c'.mainRequests m.tag s (placesOf accs)).1 (placesOf accs)).2 = true →
    c'.watchHits sp true false (ldBytes m) (seenBy accs) = [] →
    let s' := (c'.assayRead (c'.mainRequests m.tag s (placesOf accs)).1 (placesOf accs)).1.touches c.vf (placesOf accs) false
    exec i s = .next (c.commit false none (c'.loadDone sp d m
      (c'.claims s' (accs.filterMap fun a => c'.lineBytes s' m a.2.2)) accs
      (accs.map fun a => (a.1, c'.loadVal s' m a.2.2))).s)

/-- 13 R242, 04 R74, R76. A load of peer or host memory completes once every line that it asked for is answered, and no answer tells of
a failure: each thread's value comes from the answer for its line. -/
def Sys2Proof.Ob.FarLoadAnswers : Prop :=
  ∀ (i : Instr) (sp : Space) (k : Ctl) (d base : Desc) (off : SrcB) (m : LdMods) (s : State) (c : Ctx) (f : FarReq),
    ldOp i = some (sp, k, d, base, off, m) → isFar sp = true → (m.tag && sp == .host) = false → Ctx.of s = some c →
    let c' := c.during false
    let adr (t : Nat) : Int := c'.memAddr sp t base (some off)
    let place (_ : Nat) (x : Int) : Except (BitVec 10) Place := c'.loadPlace sp m x
    let accs := accsOf (ldAct c k m) adr place
    c.runs (ldMeta sp k d base off m) (if m.part then fun _ => none else eachOf adr place) = true →
    c'.loadOwn sp d base off m = none → accs ≠ [] → accs.length = (lanesOf (ldAct c k m)).length →
    (accs.all fun a => !c.w.farBlocked a.2.2) = true → c'.touchables (placesOf accs) false = true →
    c.w.far = some f → f.lines = [] → (accs.all fun a => (c'.farFault f a.2.2).isNone) = true →
    c'.watchHits sp true false (ldBytes m) (seenBy accs) = [] →
    exec i s = .next (c.commit false none (c'.loadFarDone sp d m (s.touches c.vf (placesOf accs) false) accs fun _ l =>
      ((f.answerAt l).map fun r => (r.bytes, r.tag)).getD ([], 0)).s)

/-- 13 R241, R242, 04 R74, R76, 22 R372. The other ends of a far load whose accesses pass: having asked for nothing it asks for each
line, or is served by the die's copies; it goes on waiting for lines not yet answered; failing answers fault it, with the cause and
address of the lowest thread that they fail, those threads alone in FLANE; LDHS.TAG reads nothing and gives 0 (03 R57). -/
def Sys2Proof.Ob.FarLoadsAsk : Prop :=
  ∀ (i : Instr) (sp : Space) (k : Ctl) (d base : Desc) (off : SrcB) (m : LdMods) (s : State) (c : Ctx),
    ldOp i = some (sp, k, d, base, off, m) → isFar sp = true → m.part = false → Ctx.of s = some c →
    let c' := c.during false
    let adr (t : Nat) : Int := c'.memAddr sp t base (some off)
    let place (_ : Nat) (x : Int) : Except (BitVec 10) Place := c'.loadPlace sp m x
    let accs := accsOf (c.acting k) adr place
    c.runs (ldMeta sp k d base off m) (eachOf adr place) = true →
    c'.loadOwn sp d base off m = none → c'.touchables (placesOf accs) false = true →
    ((m.tag && sp == .host) = true → c'.watchHits sp true false (ldBytes m) (seenBy accs) = [] →
      exec i s = .next (c.commit false none (c'.loadDone sp d m (s.touches c.vf (placesOf accs) false) accs
        (accs.map fun a => (a.1, 0))).s)) ∧
    ((m.tag && sp == .host) = false → (accs.all fun a => !c.w.farBlocked a.2.2) = true →
      let held := accs.all fun a => match a.2.2 with
        | .far x xl => (s.farCopy c.die c.vf xl (lineOf x)).isSome
        | _ => true
      (c.w.far = none → held = false → exec i s = .next (c'.askFar sp false (accs.map fun a => a.2.2))) ∧
      (c.w.far = none → held = true → c'.watchHits sp true false (ldBytes m) (seenBy accs) = [] →
        exec i s = .next (c'.askFar sp false (accs.map fun a => a.2.2)) ∨
        exec i s = .next (c.commit false none (c'.loadFarDone sp d m (s.touches c.vf (placesOf accs) false) accs fun x l =>
          (s.farCopy c.die c.vf x l).getD ([], 0)).s)) ∧
      (∀ f, c.w.far = some f → f.lines ≠ [] → exec i s = .next s) ∧
      (∀ f, c.w.far = some f → f.lines = [] →
        let failed := accs.filterMap fun a => (c'.farFault f a.2.2).map fun x => (a.1, a.2.1, x)
        failed ≠ [] → exec i s = .next (c'.precise (c'.told (fltOf failed)) c.w (fltOf failed) false)))

/-- 13 R244, R245, 04 R64, R72, R74, R76. A store whose threads pass every check enters the wave's store queue whole, at its
commit: one entry, its lines in the order of the lowest thread that writes each, later threads' bytes over earlier ones'. A far
store counts in DOM; a PEER store drops the die's copies of its lines. -/
def Sys2Proof.Ob.StoresJoinTheQueue : Prop :=
  ∀ (i : Instr) (sp : Space) (k : Ctl) (base data : Desc) (off : SrcB) (tag : Desc) (m : StMods) (s : State) (c : Ctx),
    stOp i = some (sp, k, base, data, off, tag, m) → Ctx.of s = some c →
    let c' := c.during false
    let adr (t : Nat) : Int := c'.memAddr sp t base (some off)
    let place (t : Nat) (x : Int) : Except (BitVec 10) Place := c'.storePlace sp m t tag x
    let accs := accsOf (c.acting k) adr place
    c.runs (stMeta sp k base data off tag m) (eachOf adr place) = true →
    (m.ty = .q → isV data = true) → (isFar sp = true → c.w.cDom ≠ 63) → c'.touchables (placesOf accs) true = true →
    c'.watchHits sp false true (bytesOf m.ty) (seenBy accs) = [] →
    let lines := accs.foldl (fun l a => addWrite l a.2.2.adr (c'.storeData a.1 data m.ty)
      (if sp = .host then none else some (if m.tag then c'.tagOf a.1 tag else 0)) (lineOf a.2.1.toNat) a.2.2.set) []
    let s' := s.touches c.vf (placesOf accs) true
    let s' := if sp = .peer then s'.dropPeerCopies c.die c.vf (lines.map fun l => l.1.line) else s'
    exec i s = .next (c.commit false none (c'.queueStore s' sp lines
      ((placesOf accs).any fun p => p.2.xlat.elim false fun x => x.cls == 3)))

/-- 13 R241, R240, 19 R331, R340. An access of a load, a store or an atomic that fails its checks in some acting thread faults
the instruction whole: the lowest failing thread's cause and address, FLANE every failing thread. -/
def Sys2Proof.Ob.AccessChecks : Prop :=
  ∀ (s : State) (c : Ctx) (f : Flt), Ctx.of s = some c →
    (∀ i sp k d base off m, ldOp i = some (sp, k, d, base, off, m) → m.part = false →
      (ldMeta sp k d base off m).check c = none → (c.during false).loadOwn sp d base off m = none →
      threadFault c.w (ldMeta sp k d base off m).fields (c.acting k) (eachOf (fun t => (c.during false).memAddr sp t base (some off))
        fun _ x => (c.during false).loadPlace sp m x) = some f →
      exec i s = .next ((c.during false).precise ((c.during false).told f) c.w f false)) ∧
    (∀ i sp k base data off tag m, stOp i = some (sp, k, base, data, off, tag, m) →
      (stMeta sp k base data off tag m).check c = none → (m.ty = .q → isV data = true) →
      threadFault c.w (stMeta sp k base data off tag m).fields (c.acting k)
        (eachOf (fun t => (c.during false).memAddr sp t base (some off)) fun t x => (c.during false).storePlace sp m t tag x) = some f →
      exec i s = .next ((c.during false).precise ((c.during false).told f) c.w f false)) ∧
    (∀ i sp k d addr b cmp m, amOp i = some (sp, k, d, addr, b, cmp, m) → (amMeta sp k d addr b cmp m).check c = none →
      (sp = .host → hostOp m.op = true) →
      threadFault c.w (amMeta sp k d addr b cmp m).fields (c.acting k)
        (eachOf (fun t => (c.during true).memAddr sp t addr none)
          fun _ x => (c.during true).atomPlace sp (atomBytes m.op m.ty) x) = some f →
      exec i s = .next ((c.during true).precise ((c.during true).told f) c.w f false))

/-- 13 R247, R248, 04 R71, R79, R80. An atomic whose threads pass every check, with its stores drained, its leaves' ACC and DTY set and its
lines free at their home, is performed at its commit: each thread's old value and each location's new one come from one serial order of the threads,
which a free value chooses. -/
def Sys2Proof.Ob.AtomicOps : Prop :=
  ∀ (i : Instr) (sp : Space) (k : Ctl) (d addr : Desc) (b : SrcB) (cmp : Desc) (m : AmMods) (s : State) (c : Ctx),
    amOp i = some (sp, k, d, addr, b, cmp, m) → Ctx.of s = some c →
    let c' := c.during true
    let adr (t : Nat) : Int := c'.memAddr sp t addr none
    let place (_ : Nat) (x : Int) : Except (BitVec 10) Place := c'.atomPlace sp (atomBytes m.op m.ty) x
    let accs := accsOf (c.acting k) adr place
    let bytes := atomBytes m.op m.ty
    c.runs (amMeta sp k d addr b cmp m) (eachOf adr place) = true → (sp = .host → hostOp m.op = true) →
    c.w.sq = [] → c'.touchables (placesOf accs) true = true → (accs.all fun a => !s.untouched' a.2.2) = true →
    c'.stashFill (accs.map fun a => a.2.2) = .none →
    ((devLines accs).all fun l => (s.lineDir l).owner.isNone && s.atomReady c.die l m.pkg) = true →
    (isFar sp = true → c.w.cDom ≠ 63 ∧ ∃ f, c.w.far = some f ∧ f.lines = [] ∧
      (accs.all fun a => (c'.farFault f a.2.2).isNone) = true) →
    c'.watchHits sp true true bytes (seenBy accs) = [] →
    let ops : List AtomOp := accs.map fun a =>
      { t := a.1, adr := a.2.2.adr, place := a.2.2, va := a.2.1.toNat, b := c'.atomArg a.1 b m,
        cmp := if m.op = .cas then c'.atomArg a.1 (.desc cmp) m else 0 }
    let s' := s.touches c.vf (placesOf accs) true
    let r := combine m.op m.ty (c'.atomRead s' bytes) (shuffle ops.length s.free ops) [] []
    let s' := c'.dest d (atomWide m) ((lanesOf (lanesFrom (r.1.map Prod.fst))).map fun t => (t, atomOld m.op m.ty (lookD r.1 t 0)))
      (c'.atomStore s' ops r.2 bytes m.pkg)
    let w := ((s'.wave? c.id).getD c.w).noSpin
    let s' := s'.setWave c.id (if isFar sp then { w.raise .dom with doms := w.doms ++ [.atomic sp] } else w)
    exec i s = .next (c.commit true none (if sp = .host then s'.leaveHost c.die (waveKey c.id) else s'))

/-- 13 R249, 19 R340. AMHS with an operation that the host interface does not carry raises ATOMIC/HOST-OP at decode. -/
def Sys2Proof.Ob.HostAtomicOps : Prop :=
  ∀ (k : Ctl) (d addr : Desc) (b : SrcB) (cmp : Desc) (m : AmMods) (s : State) (c : Ctx), Ctx.of s = some c →
    (amMeta .host k d addr b cmp m).check c = none → (m.op ≠ .add ∧ m.op ≠ .swap ∧ m.op ≠ .cas) →
    exec (.amhs k d addr b cmp m) s = .next (c.precise s c.w (.plain (cAtomic 0)) false)

/-- 03 R46. Every access of 1, 2, 4, 8 or 16 bytes is naturally aligned: a misaligned address raises ALIGN/NATURAL, ahead of every
other check of its place, and an aligned access never crosses a 64-byte line. -/
def Sys2Proof.Ob.NaturalAlignment : Prop :=
  ∀ (c : Ctx) (sp : Space) (k : Access) (n : Nat) (x : Int), n ∈ [1, 2, 4, 8, 16] →
    (x % n ≠ 0 → c.locate sp k n x = .error (cAlign 0)) ∧
    (x % n = 0 → 0 ≤ x → ∀ j, j < n → (x.toNat + j) / 64 = x.toNat / 64)

/-- 05 R98, 13 R246. STSC.PUSH appends D entries to the crew's own ring, one per pass in ascending order: the 4-byte values of its
32 threads, zero where a thread does not act, as two lines. -/
def Sys2Proof.Ob.PushEntries : Prop :=
  ∀ (k : Ctl) (e : BitVec 2) (data tag : Desc) (uns : Bool) (ch : BitVec 2) (tagged : Bool) (r : Ring) (s : State) (c : Ctx),
    Ctx.of s = some c →
    c.runs (.plain k (src data :: if tagged then [src tag] else []))
      (fun t => if tagged && tagBad ((c.during false).tagOf t tag) then some (cOperand 7, 0) else none) = true →
    (c.engine e.toNat).holder = some c.id.conv → c.ownRing e.toNat = some r → c.w.depth ≤ r.free →
    let act := c.acting k
    let tg : Tag := if tagged then (c.during false).tagOf ((highest act).getD 0) tag else 0
    let lines := (List.range c.w.depth).flatMap fun d => pushLines (r.base + 128 * ((r.tail + d) % r.entries))
      ((List.range 32).map fun l => if act.getLsbD (32 * d + l) then (c.during false).read32 (32 * d + l) data else 0) tg
    let entry : SqEntry :=
      { kind := .push e.toNat r.no r.tail c.w.depth, space := .scratch, lines := lines, info := [], fn := c.vf, mmio := false,
        hnd := c.hnd }
    exec (.stscPush k e data tag uns ch tagged) s = .next (c.commit false none
      ((c.put { c.w.noSpin with sq := c.w.sq ++ [entry] }).setEngine c.clusterNo e.toNat
        { c.engine e.toNat with ring := some { r with tail := r.tail + c.w.depth, free := r.free - c.w.depth } }))

/-! ### Fences, waits, barriers -/

/-- 04 R77, R83, 13 R252. A FENCE whose scope's conditions hold commits with its effect, and waits while they do not; WAITC commits
once its counter is at most n. -/
def Sys2Proof.Ob.FencesAndCounters : Prop :=
  ∀ (s : State) (c : Ctx), Ctx.of s = some c →
    (∀ k sc, c.runs (.uni k []) = true → c.fenceReady sc = true →
      exec (.fence k sc) s = .next (c.commit false none (c.fenceDone sc))) ∧
    (∀ k sc, c.runs (.uni k []) = true → c.fenceReady sc = false → exec (.fence k sc) s = .next (s.stalled c.id)) ∧
    (∀ k ctr n, c.runs (.uni k []) = true → c.w.ctr ctr ≤ BitVec.toNat n →
      exec (.waitc k ctr n) s = .next (c.commit false none s)) ∧
    (∀ k ctr n, c.runs (.uni k []) = true → BitVec.toNat n < c.w.ctr ctr → exec (.waitc k ctr n) s = .next (s.stalled c.id))

/-- 13 R253, 01 R30. BARW: a wave that comes last, its stores performed, turns the barrier's generation and goes on; one that has
waited goes on when the generation has turned; one that others have yet to join waits with a record of the barrier. -/
def Sys2Proof.Ob.Barriers : Prop :=
  ∀ (k : Ctl0) (conv : Bool) (n : BitVec 4) (s : State) (c : Ctx), Ctx.of s = some c →
    c.runs { Meta.uni (ctlOf k) [] with last := true, closer := true, always := true } = true →
    let conv' := conv && decide (1 < c.cv.crews)
    let crew := if conv' then none else some c.id.crew
    let b := s.bar c.id.conv crew n.toNat
    let s' := (s.setBar c.id.conv crew n.toNat { b with arrived := b.arrived ++ [16 * c.id.crew + c.id.wave] }).barCheck
      c.id.conv crew n.toNat
    (∀ i g, c.w.wait = some (.bar conv' i g) → b.gen ≠ g → exec (.barw k conv n) s = .next (c.commit true none s)) ∧
    (c.w.wait = none → c.w.sq = [] → (s'.bar c.id.conv crew n.toNat).gen ≠ b.gen →
      exec (.barw k conv n) s = .next (c.commit true none s')) ∧
    (c.w.wait = none → c.w.sq = [] → (s'.bar c.id.conv crew n.toNat).gen = b.gen →
      exec (.barw k conv n) s = .next (match s'.wave? c.id with
        | some w => s'.setWave c.id { w with wait := some (.bar conv' n.toNat b.gen), woken := false, stall := false }
        | none => s'))

/-- 13 R254, 18 R324. WAITV reads its word as a load does; where the condition holds, it commits with the word in its k register,
and else it leaves the active set with a record of the word's line. -/
def Sys2Proof.Ob.WaitOnValue : Prop :=
  ∀ (k : Ctl) (r : BitVec 6) (addr : Desc) (b : SrcB) (sp : WvSpace) (cond : Cond) (w64 sg : Bool) (p : Place) (s : State)
      (c : Ctx), Ctx.of s = some c →
    let c' := c.during false
    let m : LdMods := { ty := if w64 then .n64 else .n32, ch := 0, tag := false, part := false }
    let t := leader (c.acting { k with onc := true })
    let x := c'.memAddr (WvSpace.space sp) t addr none
    let ty := waitTy w64 sg
    c.runs (.uni k (dst (.k r) (spanOf w64) :: src addr (spanBase (WvSpace.space sp)) :: srcB b (spanOf w64)))
      (eachOf (fun t => c'.memAddr (WvSpace.space sp) t addr none) fun _ x => c'.loadPlace (WvSpace.space sp) m x) = true →
    c'.loadPlace (WvSpace.space sp) m x = .ok p → c.w.mustDrain p (ldBytes m) = false → c'.stashFill [p] = .none →
    c'.readable p = true → c'.touchables [(x.toNat, p)] false = true → (c'.mainRequests false s [(x.toNat, p)]).2 = none →
    (c'.assayRead (c'.mainRequests false s [(x.toNat, p)]).1 [(x.toNat, p)]).2 = true →
    c'.watchHits (WvSpace.space sp) true false (ldBytes m) [(t, x.toNat)] = [] →
    let v : DWord := BitVec.ofNat 64 (c'.loadVal s m p)
    let s1 := c'.claims (c'.assayRead (c'.mainRequests false s [(x.toNat, p)]).1 [(x.toNat, p)]).1 (c'.lineBytes s m p).toList
    (cond.holds (ty.val v) (ty.val (c'.readB t b ty)) = true →
      let s' := c'.dest (.k r) true [(t, ty.extend v)] (s1.touches c.vf [(x.toNat, p)] false)
      exec (.waitv k (.k r) addr b sp cond w64 sg) s = .next (c.commit false none (s'.setWave c.id
        (((s'.wave? c.id).getD c.w).noteLoads [(c'.placeName p, v.toNat + 2 ^ 128 * (p.adr % 64))])))) ∧
    (cond.holds (ty.val v) (ty.val (c'.readB t b ty)) = false →
      exec (.waitv k (.k r) addr b sp cond w64 sg) s = .next (match s1.wave? c.id with
        | some w => s1.setWave c.id { w with wait := some (.line (c'.placeName p)), woken := false, stall := false }
        | none => s1))

/-! ### Prefetch, discard, stash, write-back, event queues -/

/-- 13 R256 to R259. PREF asks for lines; DISC, SWB and CCTL enter the store queue with the lines or the range they name. -/
def Sys2Proof.Ob.CacheInstructions : Prop :=
  ∀ (s : State) (c : Ctx), Ctx.of s = some c →
    (∀ k base off l1, c.runs (.plain k (src base 2 :: srcB off)) = true →
      exec (.pref k base off l1) s = .next (c.commit false none
        (((((lanesOf (c.acting k)).map fun t => (c.during false).memAddr .device t base (some off)).map fun x => x / 64 * 64).eraseDups).foldl
          ((c.during false).prefetch l1) s))) ∧
    (∀ k base off,
      let c' := c.during false
      let adr (t : Nat) : Int := c'.memAddr .device t base (some off)
      let place (_ : Nat) (x : Int) : Except (BitVec 10) Place := c'.locate .device .store 1 x
      let accs := accsOf (c.acting k) adr place
      c.runs (.plain k (src base 2 :: srcB off)) (eachOf adr place) = true → c'.touchables (placesOf accs) true = true →
      c'.watchHits .device false true 1 (seenBy accs) = [] →
      let lines := accs.foldl (fun l a => addWrite l a.2.2.adr [] none (lineOf a.2.1.toNat) a.2.2.set) []
      let s' := s.touches c.vf (placesOf accs) true
      let w := ((s'.wave? c.id).getD c.w).noSpin
      let entry : SqEntry :=
        { kind := .disc, space := .device, lines := lines.map Prod.fst, info := lines.map Prod.snd, fn := c.vf, mmio := false,
          hnd := c.hnd }
      exec (.disc k base off) s = .next (c.commit false none (s'.setWave c.id { w with sq := w.sq ++ [entry] }))) ∧
    (∀ k a n, c.runs (.uni k (src a 2 :: srcB n)) = true →
      let c' := c.during false
      let t := leader (c.acting { k with onc := true })
      let x := (c'.read64 t a false).toNat
      let y := (c'.readB32 t n).toNat
      x % 64 = 0 → y % 64 = 0 → y ≤ 2 ^ 20 →
      exec (.swb k a n) s = .next (c.commit false none (c'.queueOther s (.swb x y) .stash []))) ∧
    (∀ k a n op, c.runs (.uni k (src a 2 :: srcB n)) = true →
      let c' := c.during false
      let t := leader (c.acting { k with onc := true })
      let x := (c'.read64 t a false).toNat
      let y := (c'.readB32 t n).toNat
      let pages := if y = 0 then [] else (pagesOf x y).filterMap fun p =>
        match c'.locate .device .both 1 ((max x (4096 * p) : Nat) : Int) with
        | .ok q => some (max x (4096 * p), q)
        | .error _ => none
      x % 64 = 0 → y % 64 = 0 → y ≤ 2 ^ 20 → c'.touchables pages false = true →
      exec (.cctl k a n op) s = .next (c.commit false none
        (c'.queueOther (s.touches c.vf pages false) (.cctl op x y) .device (pages.map fun p => (p.1, p.2.adr)))))

/-- 13 R255, 03 R51, R52, R54. SMAP makes a binding with every line absent, where its checks pass, and the crew's queued stores to the
scratchpad range reach nothing any more; SMAP.UNB of a binding none of
whose lines is present frees the slot, and its scratchpad range then reads as zero. -/
def Sys2Proof.Ob.StashBindings : Prop :=
  ∀ (s : State) (c : Ctx), Ctx.of s = some c →
    (∀ k slot g o n, c.runs (.uni k [src g 2, src o, src n]) = true →
      let c' := c.during false
      let t := leader (c.acting { k with onc := true })
      let g' := (c'.read64 t g false).toNat
      let o' := (c'.read32 t o).toNat
      let n' := (c'.read32 t n).toNat
      let places := (pagesOf g' n').filterMap fun p =>
        match c'.locate .device .both 1 ((max g' (4096 * p) : Nat) : Int) with
        | .ok q => some (max g' (4096 * p), q)
        | .error _ => none
      c'.smapFault (BitVec.toNat slot) g' o' n' = none → c'.touchables places true = true →
      let s' := (s.touches c.vf places true).voidScratch c.crewKey o' n'
      let b : Bind :=
        { g := g', s := o', n := n', present := [], dirty := [], filling := [],
          pages := places.map fun p => (p.1 / 4096, p.2.adr / 4096 * 4096) }
      exec (.smap k slot g o n) s = .next (c.commit false none (s'.setCrew c.crewKey
        { (s'.crew? c.crewKey).getD c.cw with binds := ins c.cw.binds (BitVec.toNat slot) b }))) ∧
    (∀ k slot b, c.runs (.uni k []) = true → look c.cw.binds (BitVec.toNat slot) = some b → b.present = [] → b.filling = [] →
      s.stashQueued c.crewKey b = false → s.awayFromHome ((List.range (b.n / 64)).map fun i => b.line (64 * i)) = false →
      exec (.smapUnb k slot) s = .next (c.commit false none (s.setCrew c.crewKey { c.cw with
        scratch := c.cw.scratch.clear b.s b.n, bad := c.cw.bad.filter (fun o => o < b.s || b.s + b.n ≤ o),
        binds := del c.cw.binds (BitVec.toNat slot) }))) ∧
    (∀ k slot, c.runs (.uni k []) = true → look c.cw.binds (BitVec.toNat slot) = none →
      exec (.smapUnb k slot) s = .next (c.precise s c.w (.plain (cScratch 4)) false))

/-- 13 R260. EVPOP of the crew's event queue takes the oldest record into four registers; of an empty one it gives all ones under
.NB, and else waits; of a ring it takes the record at HEAD and advances HEAD by one. -/
def Sys2Proof.Ob.EventPop : Prop :=
  ∀ (k : Ctl) (r : BitVec 6) (hdr : Desc) (nb : Bool) (s : State) (c : Ctx), Ctx.of s = some c → r.toNat % 4 = 0 →
    r.toNat + 3 < c.w.kregs →
    let s1 := c.put c.w.noSpin
    let c' : Ctx := { c.during true with s := s1, w := c.w.noSpin }
    (∀ rec_ rest, c.runs { Meta.uni k [dst (.k r)] with last := true, closer := true } = true → c.cw.evq = rec_ :: rest →
      exec (.evpop k (.k r) hdr false nb) s = .next (c.commit true none (c'.putRecord (s1.setCrew c.crewKey
        { c.cw with evq := rest ++ c.cw.held.take 1, held := c.cw.held.drop 1 }) (.k r) rec_))) ∧
    (c.runs { Meta.uni k [dst (.k r)] with last := true, closer := true } = true → c.cw.evq = [] → nb = true →
      exec (.evpop k (.k r) hdr false nb) s = .next (c.commit true none (c'.putRecord s1 (.k r) (List.replicate 32 0xFF)))) ∧
    (∀ (p : Place) (h : RingHdr) (q : Place), c.runs { Meta.uni k [dst (.k r), src hdr 2] with last := true, closer := true } = true →
      let a := (c'.read64 (leader (c.acting { k with onc := true })) hdr false).toNat
      let va : Nat := h.base + 32 * (h.head % h.size)
      c'.locate .device .atomic 64 a = .ok p → c.w.sq = [] → c'.touchables [(a, p)] true = true →
      s1.untouched' p = false → (s1.lineDir (lineOf p.adr)).owner = none → s1.atomReady c.die (lineOf p.adr) false = true →
      c'.badAt p 64 = none → s1.ringHdr (homeDie p.adr) p.adr = some h →
      c'.watchHits .device true false 64 [(leader (c.acting { k with onc := true }), a)] = [] → h.count ≠ 0 →
      c'.locate .device .atomic 32 va = .ok q → c'.touchables [(va, q)] false = true →
      s1.canRead (homeDie p.adr) q.adr = true → (q.xlat.elim false fun x => s1.untouched x false) = false → c'.badAt q 32 = none →
      c'.watchHits .device true false 32 [(leader (c.acting { k with onc := true }), va)] = [] →
      let s2 := (s1.touches c.vf [(a, p)] true).touches c.vf [(va, q)] false
      exec (.evpop k (.k r) hdr true nb) s = .next (c.commit true none
        (c'.putRecord (s2.atomWrite c.die c.w.core p.adr 8 (h.head + 1) false) (.k r) (s2.devRead (homeDie p.adr) q.adr 32))))

namespace Sys2Proof.Ob

/-! ### The matrix and Gravel engines -/

/-- A matrix operation at the end of an engine's list, in the open batch of its wave (05 R102, R103). -/
def issuedMtx (c : Ctx) (s : State) (e : Nat) (f : Engine → Engine) (op : MOpKind) : State :=
  let w := ((s.wave? c.id).getD c.w).noSpin
  let x := f (s.engine c.clusterNo e)
  let o : MOp := { wave := c.key, batch := w.batchOpen, op := op, hnd := c.hnd }
  (s.setWave c.id w).setEngine c.clusterNo e { x with ops := x.ops ++ [o] }

/-- A ring as MRING binds it (05 R97). -/
def emptyRing (no crew base n sb : Nat) : Machine.Ring :=
  { no := no, crew := crew, base := base, entries := n, sbase := sb, head := 0, tail := 0, free := n, ready := [] }

/-- The engine is held by the convoy and takes one more operation of it (05 R92, R103). -/
def mtxRoom (c : Ctx) (e : Nat) : Bool :=
  (c.engine e).holder == some c.id.conv && decide (((c.engine e).opsOf c.id.conv).length < 64)

/-- A GRV operation at the end of the engine's list, its wave's GRV raised, its destination tagged (06 R121, R122, 04 R82). -/
def issuedGrv (c : Ctx) (s : State) (tag : Option (Nat × DWord × BitVec 12 × Bool)) (op : GOpKind) : State :=
  let g := (s.cluster c.clusterNo).gravel
  let regs := match tag with
    | some (gd, m, sh, x) => ins g.g gd { (g.reg gd) with m := m, s := sh, x := x }
    | none => g.g
  (s.setWave c.id (((s.wave? c.id).getD c.w).noSpin.raise .grv)).setGravel c.clusterNo
    { g with g := regs, ops := g.ops ++ [{ wave := c.key, op := op, hnd := c.hnd }] }

/-- The Gravel engine is held by the convoy, the registers read are set and none of them is being loaded, nor is the
destination, and GRV can rise (06 R114, R124). -/
def grvRoom (c : Ctx) (reads : List Nat) (dest : Option Nat) : Bool :=
  c.gravel.holder == some c.id.conv && reads.all (fun r => (look c.gravel.g r).isSome) && decide (c.w.cGrv ≠ 63) &&
    (reads ++ dest.toList).all fun r => !c.gravel.loading r

/-- A GRV instruction that issues an operation and reads no memory: its form, the registers it reads and writes, the pairs that must
not be correlated, the engine after the words that it draws at its commit, its tag and the operation (06 R118). -/
structure GrvIssue where
  m : Meta
  reads : List Nat
  gd : Option Nat
  pairs : List (Nat × Nat) := []
  good : Bool := true
  drawn : Option Gravel := none
  tag : Option (Nat × DWord × BitVec 12 × Bool)
  op : GOpKind

/-- The table of these instructions (06 Table 6-1, Table 6-2). -/
def gOp (c : Ctx) : Instr → Option GrvIssue
  | .ggen k gd vn cls bip x =>
    let drawn := c.gravel.words cls.toNat (64 * c.gravel.len)
    some { m := { Meta.wide k [src vn 2] with last := true, closer := true }, reads := [], gd := some gd.toNat,
           good := isV vn && c.gravel.ops.isEmpty, drawn := some drawn.2, tag := some (gd.toNat, 1#64 <<< cls.toNat, 0, false),
           op := .put gd.toNat [32 + cls.toNat] (comparedBits c.gravel.len drawn.1 ((List.range 64).map fun e =>
             if x then (c.element vn e).toNat else thresholdOf bip (FCode.fp32.fmt.value (c.element vn e).toNat))) }
  | .greg k gd gs cls =>
    let drawn := c.gravel.words cls.toNat (64 * c.gravel.len)
    some { m := { Meta.wide k [] with last := true, closer := true }, reads := [gs.toNat], gd := some gd.toNat,
           good := c.gravel.ops.isEmpty, drawn := some drawn.2, tag := some (gd.toNat, 1#64 <<< cls.toNat, 0, false),
           op := .put gd.toNat [32 + cls.toNat, gs.toNat] (comparedBits c.gravel.len drawn.1
             ((List.range 64).map fun e => c.gravel.count gs.toNat e * 2 ^ 32 / c.gravel.len)) }
  | .gand k gd ga gb cor =>
    some { m := { Meta.wide k [] with always := true }, good := c.acting k != 0, reads := [ga.toNat, gb.toNat], gd := some gd.toNat,
           pairs := if cor then [] else [(ga.toNat, gb.toNat)],
           tag := c.gravel.tagOf gd.toNat [ga.toNat, gb.toNat], op := .and gd.toNat ga.toNat gb.toNat }
  | .gxnr k gd ga gb cor =>
    some { m := { Meta.wide k [] with always := true }, good := c.acting k != 0, reads := [ga.toNat, gb.toNat], gd := some gd.toNat,
           pairs := if cor then [] else [(ga.toNat, gb.toNat)],
           tag := c.gravel.tagOf gd.toNat [ga.toNat, gb.toNat], op := .xnr gd.toNat ga.toNat gb.toNat cor }
  | .gmux k gd ga gb gs cor =>
    some { m := { Meta.wide k [] with always := true }, good := c.acting k != 0, reads := [ga.toNat, gb.toNat, gs.toNat], gd := some gd.toNat,
           pairs := if cor then [] else [(gs.toNat, ga.toNat), (gs.toNat, gb.toNat)],
           tag := c.gravel.tagOf gd.toNat [ga.toNat, gb.toNat, gs.toNat], op := .mux gd.toNat ga.toNat gb.toNat gs.toNat }
  | .gshf k gd gs r =>
    let x := (c.readB32 (leader (c.acting { k with onc := true })) r).toNat
    let g := c.gravel.reg gs.toNat
    some { m := { Meta.wide k (srcB r) with always := true }, reads := [gs.toNat], gd := some gd.toNat,
           good := c.acting { k with onc := true } != 0 && decide (0 < x) && decide (x < c.gravel.len),
           tag := some (gd.toNat, g.m, BitVec.ofNat 12 ((g.s.toNat + x) % c.gravel.len), g.x), op := .shf gd.toNat gs.toNat x }
  | .gseed k cls v =>
    some { m := .wide k (srcB v), reads := [], gd := none, tag := none,
           op := .seed cls.toNat (c.readB32 (leader (c.acting { k with onc := true })) v) }
  | .gmov k gd gs =>
    let g := c.gravel.reg gs.toNat
    some { m := .wide k [], reads := [gs.toNat], gd := some gd.toNat, tag := some (gd.toNat, g.m, g.s, g.x),
           op := .mov gd.toNat gs.toNat }
  | _ => none

/-- No two of the pairs are correlated (06 R121). -/
def uncorrelated (c : Ctx) (l : List (Nat × Nat)) : Bool :=
  l.all fun p => !correlated (c.gravel.reg p.1) (c.gravel.reg p.2)

/-- The MTX and GRV instructions that need a reservation, with the engine (none: Gravel) and their form. -/
def needs : Instr → Option (Option Nat × Meta)
  | .mrel k e => some (some e.toNat, { Meta.wide k [] with last := true, closer := true })
  | .mldb k e _ a sa => some (some e.toNat, .wide k (src a 2 :: sa.elim [] fun d => [src d 2]))
  | .mring k e b n sb => some (some e.toNat, .wide k [src b, src n, src sb])
  | .mma k e _ _ _ m _ bo => some (some e.toNat, .wide k (src m :: bo.elim [] fun d => [src d]))
  | .mcmt k e _ cond => some (some e.toNat, .wide k [src cond 2])
  | .mzero k e _ n _ => some (some e.toNat, { Meta.wide k (srcB n) with always := true })
  | .mstc k e _ a n st => some (some e.toNat, .wide k [src a 2, src n, src st])
  | .mldc k e _ a n st _ => some (some e.toNat, .wide k [src a 2, src n, src st])
  | .mrelGrv k => some (none, { Meta.wide k [] with last := true, closer := true })
  | .greg k _ _ _ => some (none, { Meta.wide k [] with last := true, closer := true })
  | .gand k _ _ _ _ => some (none, .wide k [])
  | .gxnr k _ _ _ _ => some (none, .wide k [])
  | .gmux k _ _ _ _ _ => some (none, .wide k [])
  | .gshf k _ _ r => some (none, { Meta.wide k (srcB r) with always := true })
  | .glen k l => some (none, { Meta.wide k (srcB l) with always := true })
  | .gseed k _ v => some (none, .wide k (srcB v))
  | .gmov k _ _ => some (none, .wide k [])
  | .gmovLd k _ a => some (none, .wide k [src a 2])
  | .gmovSt k a _ => some (none, .wide k [src a 2])
  | _ => none

/-- The lines of a list of virtual addresses all of which pass their checks. -/
def goodLines (c : Ctx) (k : Access) (vas : List Nat) : List (Nat × Place) :=
  vas.filterMap fun (va : Nat) => match c.locate .device k 64 va with
    | .ok p => some (va, p)
    | .error _ => none

end Sys2Proof.Ob

/-- 05 R92, R93, 14 R266. MRES of engine e: where it is free, or the convoy holds it, pd becomes true and kd the engine's number, and
the convoy holds it; where another convoy holds it, pd becomes false and kd all ones and nothing else changes. .ANY takes the
lowest free engine. MREL, once the convoy's operations there have completed, frees the engine, empties its pages, drops its ring. -/
def Sys2Proof.Ob.ReserveEngine : Prop :=
  ∀ (s : State) (c : Ctx), Ctx.of s = some c →
    (∀ (k : Ctl) (pd : BitVec 3) (sel : MSel) (r : BitVec 6),
      c.runs { predMeta (.wide k [dst (.k r)]) pd with last := true, closer := true } = true →
      let c' := c.during true
      let act := c.acting { k with onc := true }
      let done (s : State) (ok : Bool) (v : DWord) : State := c'.dest (.k r) true [(leader act, v)]
        (let w := (s.wave? c.id).getD c.w
         s.setWave c.id (w.setP pd.toNat (mergeLanes (c.acting { k with onc := false }) (if ok then c.acting { k with onc := false } else 0) (w.getP pd.toNat))))
      (∀ e : BitVec 2, (sel = .eng e ∨ sel = .any ∧ ∀ j, j < e.toNat → (c.engine j).holder ≠ none) →
        (c.engine e.toNat).holder = none → (c.engine e.toNat).slateOf = none →
        exec (.mres k pd sel (some (.k r))) s = .next (c.commit true none (done (s.setEngine c.clusterNo e.toNat
          { s.engine c.clusterNo e.toNat with
            holder := some c.id.conv, pageSt := [], slate := Img.empty, slateBad := [], ring := none, shadows := [], shFault := [] })
          true (BitVec.ofNat 64 e.toNat)))) ∧
      (∀ e : BitVec 2, (c.engine e.toNat).holder = some c.id.conv →
        exec (.mres k pd (.eng e) (some (.k r))) s = .next (c.commit true none (done s true (BitVec.ofNat 64 e.toNat)))) ∧
      ((∃ e : BitVec 2, sel = .eng e ∧ (c.engine e.toNat).holder ≠ none ∧ (c.engine e.toNat).holder ≠ some c.id.conv) ∨
          (sel = .any ∧ ∀ j, j < 4 → (c.engine j).holder ≠ none) →
        exec (.mres k pd sel (some (.k r))) s = .next (c.commit true none (done s false (BitVec.allOnes 64))))) ∧
    (∀ (k : Ctl) (e : BitVec 2), c.runs { Meta.wide k [] with last := true, closer := true } = true →
      (c.engine e.toNat).holder = some c.id.conv →
      (((c.engine e.toNat).opsOf c.id.conv = [] → exec (.mrel k e) s = .next (c.commit true none
        (s.setEngine c.clusterNo e.toNat { c.engine e.toNat with
          holder := none, freedBy := some c.id.conv, pageSt := [], slate := Img.empty, slateBad := [], ring := none, shadows := [],
          shFault := [] }).unstall)) ∧
      ((c.engine e.toNat).opsOf c.id.conv ≠ [] → exec (.mrel k e) s = .next (s.stalled c.id))))

/-- 05 R93, 14 R266, R274, 06 R124. A matrix instruction other than MRES, TASKQ and TSTEN that names an engine its convoy does not
hold raises MATRIX/NOT-RESERVED at decode (AOWN in a handler, where it may run at all) and commits nothing, whether or not any
thread acts; a Gravel instruction STREAM/NOT-RESERVED. The checks of Table 8-3 that come earlier have passed. -/
def Obligations.NotReserved : Prop :=
  (∀ (i : Instr) (e : Option Nat) (m : Meta) (s : State) (c : Ctx), needs i = some (e, m) → Ctx.of s = some c →
    m.check c = none →
    (∀ n, e = some n → (c.engine n).holder ≠ some c.id.conv → exec i s = .next (c.precise s c.w (.plain (cMatrix 0)) false)) ∧
    (e = none → c.gravel.holder ≠ some c.id.conv → exec i s = .next (c.precise s c.w (.plain (cStream 0)) false))) ∧
  (∀ (k : Ctl) (e : BitVec 2) (r : BitVec 6) (a : Desc) (n : BitVec 9) (s : State) (c : Ctx), Ctx.of s = some c → c.hnd = true →
    (c.engine e.toNat).holder ≠ some c.id.conv →
    ((Meta.wide k [dst (.k r)]).check c = none →
      exec (.aownRd k e (.k r) n) s = .next (c.precise s c.w (.plain (cMatrix 0)) false)) ∧
    ((Meta.wide k [src a]).check c = none →
      exec (.aownWr k e n a) s = .next (c.precise s c.w (.plain (cMatrix 0)) false)))

/-- 05 R94, R97, R104, 14 R267, R268. MLDB, MRING and MCMT issue their operations: MLDB, once its wave's earlier stores are performed,
sets its pages' states at its commit, MRING binds an empty ring, MCMT names the group and whether it accepts. -/
def Sys2Proof.Ob.SlateAndRing : Prop :=
  ∀ (s : State) (c : Ctx), Ctx.of s = some c →
    (∀ (k : Ctl) (e : BitVec 2) (page : BitVec 6) (addr : Desc) (saddr : Option Desc),
      c.runs (.wide k (src addr 2 :: saddr.elim [] fun d => [src d 2])) = true → mtxRoom c e.toNat = true →
      (saddr.isSome = true → page.toNat % 2 = 0) → c.w.sq = [] →
      let c' := c.during false
      let act := c.acting { k with onc := true }
      let a := (c'.addr act addr).toNat
      let b := saddr.map fun d => (c'.addr act d).toNat
      let vas := lineVas a 512 ++ b.elim [] fun x => lineVas x 128
      let l := goodLines c' .load vas
      a % 64 = 0 → b.getD 0 % 64 = 0 → l.length = vas.length → c'.touchables l false = true →
      exec (.mldb k e page addr saddr) s = .next (c.commit false none
        (issuedMtx c' (s.touches c.vf l false) e.toNat (fun x => x.loadPage page.toNat saddr.isSome)
          (.mldb page.toNat (linePairs l) (List.range l.length))))) ∧
    (∀ (k : Ctl) (e : BitVec 2) (base cnt sbase : Desc), c.runs (.wide k [src base, src cnt, src sbase]) = true →
      mtxRoom c e.toNat = true →
      let c' := c.during false
      let t := leader (c.acting { k with onc := true })
      let b := (c'.read32 t base).toNat
      let n := (c'.read32 t cnt).toNat
      let sb := (c'.read32 t sbase).toNat
      c'.ringFault b n sb = none → (∀ r, (c.engine e.toNat).ring = some r → r.head = r.tail) →
      ((c.engine e.toNat).ops.any fun o => o.op.isMma) = false →
      (s.waves.any fun p => p.1 / 16 == c.crewKey && p.2.sq.any fun q => match q.kind with
        | .push f _ _ _ => f == e.toNat
        | _ => false) = false →
      exec (.mring k e base cnt sbase) s = .next (c.commit false none (issuedMtx c' s e.toNat
        (fun x => { x with ring := some (emptyRing x.ringNo c.id.crew b n sb), ringNo := x.ringNo + 1 }) .mring))) ∧
    (∀ (k : Ctl) (e g : BitVec 2) (cond : Desc), c.runs (.wide k [src cond 2]) = true → mtxRoom c e.toNat = true →
      exec (.mcmt k e g cond) s = .next (c.commit false none (issuedMtx (c.during false) s e.toNat id
        (.mcmt g.toNat ((c.during false).addr (c.acting { k with onc := true }) cond != 0)))))

/-- 05 R98 to R101, R104, 14 R269. MMA: where the ring is bound, the page holds data, M is in 1 to 256 and every covered window is
owned, of the class's mode and without a shadow of another group, the operation joins the engine's list; under .SH the windows get
their shadows at the commit. The band scales are read at the commit. -/
def Sys2Proof.Ob.MatrixMultiply : Prop :=
  ∀ (k : Ctl) (e : BitVec 2) (cls : MCls) (w0 : BitVec 9) (page : BitVec 6) (m : Desc) (sh : Option (BitVec 2))
    (boff : Option Desc) (s : State) (c : Ctx), Ctx.of s = some c →
    c.runs (.wide k (src m :: boff.elim [] fun d => [src d])) = true → mtxRoom c e.toNat = true →
    let c' := c.during false
    let act := c.acting { k with onc := true }
    let x := c.engine e.toNat
    let n := (c'.read32 (leader act) m).toNat
    let wins := coveredWins cls w0.toNat n
    let g := sh.map BitVec.toNat
    x.ring ≠ none → x.page page.toNat ≠ .empty → x.page page.toNat ≠ .scaleHolder → 1 ≤ n → n ≤ 256 →
    (∀ w ∈ wins, w ≤ 511 ∧ x.ownerOf w = c.ctxid ∧ x.mode64.getLsbD w = (cls == .d64) ∧ x.shadowed w g = false) →
    (∀ q, g = some q → x.shadows.length + (x.newShadows q wins).length ≤ 32) →
    (∀ d, boff = some d → c'.bandScales act (c'.read32 (leader act) d).toNat n =
      .ok ((List.range ((n + 63) / 64)).map fun j =>
        c'.loadVal s { ty := .n16, ch := 0, tag := false, part := false }
          (.scratch ((c'.read32 (leader act) d).toNat + 2 * j)))) →
    exec (.mma k e cls w0 page m sh boff) s = .next (c.commit false none (issuedMtx c' s e.toNat
      (fun y => match g with
        | some q => { y with shadows := y.shadows ++ y.newShadows q wins }
        | none => y)
      (.mma { cls := cls, page := page.toNat, s4 := x.page page.toNat == .dataS4, w0 := w0.toNat, m := n, sh := g,
              betas := boff.map fun d => (List.range ((n + 63) / 64)).map fun j =>
                c'.loadVal s { ty := .n16, ch := 0, tag := false, part := false }
                  (.scratch ((c'.read32 (leader act) d).toNat + 2 * j)),
              pass := 0, row := 0, kb := 0, grp := 0 })))

/-- 05 R105, 14 R270, R271. MZERO, MSTC and MLDC over windows that the context owns and that have no shadow, the last two once the
wave's earlier stores are performed: MZERO and MLDC set the modes of their windows at the commit. -/
def Sys2Proof.Ob.WindowMoves : Prop :=
  ∀ (s : State) (c : Ctx), Ctx.of s = some c →
    (∀ (k : Ctl) (e : BitVec 2) (w0 : BitVec 9) (n : SrcB) (d64 : Bool),
      c.runs { Meta.wide k (srcB n) with always := true } = true → mtxRoom c e.toNat = true →
      let c' := c.during false
      let act := c.acting { k with onc := true }
      let x := (c'.readB32 (leader act) n).toNat
      act ≠ 0 → 0 < x → c'.winCheck e.toNat w0.toNat x = none →
      exec (.mzero k e w0 n d64) s = .next (c.commit false none
        (issuedMtx c' s e.toNat (fun y => y.setModes w0.toNat x d64) (.mzero w0.toNat x)))) ∧
    (∀ (k : Ctl) (e : BitVec 2) (w0 : BitVec 9) (addr n stride : Desc),
      c.runs (.wide k [src addr 2, src n, src stride]) = true → mtxRoom c e.toNat = true →
      let c' := c.during false
      let act := c.acting { k with onc := true }
      let a := (c'.addr act addr).toNat
      let m := (c'.read32 (leader act) n).toNat
      let st := (c'.read32 (leader act) stride).toNat
      1 ≤ m → m ≤ 64 → st % 64 = 0 → 128 * m ≤ st → st < 2 ^ 24 → a % 64 = 0 → c'.winCheck e.toNat w0.toNat m = none →
      c.w.sq = [] →
      (let l := goodLines c' .store (windowVas a m st)
       l.length = 64 * m → c'.touchables l true = true →
       exec (.mstc k e w0 addr n stride) s = .next (c.commit false none (issuedMtx c' (s.touches c.vf l true) e.toNat (fun x => x)
         (.mstc w0.toNat ((List.range m).map fun j => (c.engine e.toNat).mode64.getLsbD (w0.toNat + j)) (linePairs l)
           (List.range l.length))))) ∧
      (∀ d64 : Bool,
       let l := goodLines c' .load (windowVas a m st)
       l.length = 64 * m → c'.touchables l false = true →
       exec (.mldc k e w0 addr n stride d64) s = .next (c.commit false none
         (issuedMtx c' (s.touches c.vf l false) e.toNat (fun x => x.setModes w0.toNat m d64)
           (.mldc w0.toNat (linePairs l) (List.range l.length)))))) ∧
    (∀ (x : Engine) (w0 n : Nat) (d64 : Bool) (w : Nat), w < 512 → w0 + n ≤ 512 →
      (x.setModes w0 n d64).mode64.getLsbD w = if w0 ≤ w ∧ w < w0 + n then d64 else x.mode64.getLsbD w)

/-- 05 R102, 04 R84, 14 R272. MFNC closes the wave's open batch and gives its number; the next batch's number follows it. MWAIT waits
for the batches up to n, and raises QUEUE/BATCH-AHEAD for a batch that is not closed. -/
def Sys2Proof.Ob.Batches : Prop :=
  ∀ (s : State) (c : Ctx), Ctx.of s = some c →
    (∀ (k : Ctl) (r : BitVec 6), c.runs (.wide k [dst (.k r)]) = true → (c.during false).pendingBatches.length < 64 →
      let s' := (c.during false).dest (.k r) true [(leader (c.acting { k with onc := true }), c.w.batchOpen.zeroExtend 64)] s
      exec (.mfnc k (.k r)) s = .next (c.commit false none (s'.setWave c.id
        { (s'.wave? c.id).getD c.w with batchClosed := c.w.batchOpen, batchOpen := c.w.batchOpen + 1 }))) ∧
    (∀ (k : Ctl) (b : SrcB), c.runs { Meta.wide k (srcB b) with always := true } = true → c.acting { k with onc := true } ≠ 0 →
      let n : BitVec 16 := ((c.during false).readB32 (leader (c.acting { k with onc := true })) b).extractLsb' 0 16
      ((n = c.w.batchClosed ∨ 2 ^ 15 ≤ (n - c.w.batchClosed).toNat) →
        (∀ o ∈ s.matrixOps c.clusterNo c.key, o.batch = c.w.batchOpen ∨ 2 ^ 15 ≤ (n - o.batch).toNat) →
        exec (.mwait k b) s = .next (c.commit false none s)) ∧
      (n ≠ c.w.batchClosed → (n - c.w.batchClosed).toNat < 2 ^ 15 →
        exec (.mwait k b) s = .next (c.precise s c.w (.plain (cQueue 0)) false)))

/-- 05 R107, R108, 14 R273. TASKQ posts the tile task of its record, where the tile is on the board and not yet posted and the queue
has room; TSTEN sets the board of its context, where no task of it is queued or running. -/
def Sys2Proof.Ob.TileTasks : Prop :=
  ∀ (s : State) (c : Ctx), Ctx.of s = some c →
    (∀ (k : Ctl) (addr : Desc) (s' : State) (bytes : List Byte) (t : TileTask),
      c.runs { Meta.wide k [src addr 2] with last := true, closer := true } = true →
      let c' := c.during true
      let act := c.acting { k with onc := true }
      c'.loadChunks [leader act] [((c'.addr act addr).toNat, 64)] = .ok (s', [bytes], []) →
      tileRecord c.ctxid c.cv.grid c.cv.index bytes = some t →
      let b := lookD c.cl.boards c.ctxid.toNat Board.fresh
      t.x < b.w → t.y < b.h → b.posted.contains (t.x, t.y) = false → c.cl.queued.length < 256 →
      (c.cl.queued.filter fun q => vfOf q.ctx == c.vf).length < 128 →
      let cl := s'.cluster c.clusterNo
      let s2 := (s'.setCluster c.clusterNo ({ cl with
        boards := ins cl.boards c.ctxid.toNat { b with posted := b.posted ++ [(t.x, t.y)] },
        tileQueue := cl.tileQueue ++ [t] } : Cluster).promote).markSubmitted c.id.conv
      exec (.taskq k addr) s = .next (c.commit true none (s2.setWave c.id ((s2.wave? c.id).getD c.w).noSpin))) ∧
    (∀ (k : Ctl) (w h mask : Desc), c.runs (.wide k [src w, src h, src mask]) = true →
      let c' := c.during false
      let t := leader (c.acting { k with onc := true })
      let x := (c'.read32 t w).toNat
      let y := (c'.read32 t h).toNat
      let m := c'.read32 t mask
      1 ≤ x → x ≤ 1024 → 1 ≤ y → y ≤ 1024 → m.toNat < 2 ^ 24 → stencilGood (m.extractLsb' 0 24) = true →
      ((c.cl.queued ++ c.cl.engines.filterMap Engine.tile).any fun q => q.ctx == c.ctxid) = false →
      exec (.tsten k w h mask) s = .next (c.commit false none (s.setCluster c.clusterNo { c.cl with
        boards := ins c.cl.boards c.ctxid.toNat
          { w := x, h := y, mask := m.extractLsb' 0 24, posted := [], retired := [] } })))

/-- 05 R106, 14 R274. AOWN reads or writes a window's owner, in a handler only: elsewhere it raises PROTECT/PRIV. -/
def Sys2Proof.Ob.WindowOwners : Prop :=
  ∀ (k : Ctl) (e : BitVec 2) (w : BitVec 9) (s : State) (c : Ctx), Ctx.of s = some c →
    (∀ (r : BitVec 6), c.runs (.wide k [dst (.k r)]) = true → c.hnd = true → (c.engine e.toNat).holder = some c.id.conv →
      exec (.aownRd k e (.k r) w) s = .next (c.commit false none ((c.during false).dest (.k r) true
        [(leader (c.acting { k with onc := true }), ((c.engine e.toNat).ownerOf w.toNat).zeroExtend 64)] s))) ∧
    (∀ (a : Desc), c.runs (.wide k [src a]) = true → c.hnd = true → (c.engine e.toNat).holder = some c.id.conv →
      exec (.aownWr k e w a) s = .next (c.commit false none (s.setEngine c.clusterNo e.toNat { c.engine e.toNat with
        owner := put 0 (c.engine e.toNat).owner w.toNat
          (((c.during false).read32 (leader (c.acting { k with onc := true })) a).extractLsb' 0 16) }))) ∧
    (∀ (r : BitVec 6), (Meta.wide k [dst (.k r)]).check c = none → c.hnd = false →
      exec (.aownRd k e (.k r) w) s = .next (c.precise s c.w (.plain (cProtect 4)) false)) ∧
    (∀ (a : Desc), (Meta.wide k [src a]).check c = none → c.hnd = false →
      exec (.aownWr k e w a) s = .next (c.precise s c.w (.plain (cProtect 4)) false))

/-- 06 R124. MRES.GRV of a free engine takes it as reset leaves it, of one the convoy holds succeeds, of another's fails; MREL.GRV
resets it once its operations have completed. -/
def Sys2Proof.Ob.ReserveGravel : Prop :=
  ∀ (s : State) (c : Ctx), Ctx.of s = some c →
    (∀ (k : Ctl) (pd : BitVec 3), c.runs { predMeta (.wide k []) pd with last := true, closer := true } = true →
      let done (s : State) (ok : Bool) : State :=
        let w := (s.wave? c.id).getD c.w
        s.setWave c.id (w.setP pd.toNat (mergeLanes (c.acting { k with onc := false }) (if ok then c.acting { k with onc := false } else 0) (w.getP pd.toNat)))
      (c.gravel.holder = none → exec (.mresGrv k pd) s = .next (c.commit true none
        (done (s.setGravel c.clusterNo { Gravel.reset with holder := some c.id.conv }) true))) ∧
      (c.gravel.holder = some c.id.conv → exec (.mresGrv k pd) s = .next (c.commit true none (done s true))) ∧
      (∀ o, c.gravel.holder = some o → o ≠ c.id.conv → exec (.mresGrv k pd) s = .next (c.commit true none (done s false)))) ∧
    (∀ (k : Ctl), c.runs { Meta.wide k [] with last := true, closer := true } = true → c.gravel.holder = some c.id.conv →
      (c.gravel.ops = [] →
        exec (.mrelGrv k) s = .next (c.commit true none (s.setGravel c.clusterNo { Gravel.reset with freedBy := some c.id.conv }).unstall)) ∧
      (c.gravel.ops ≠ [] → exec (.mrelGrv k) s = .next (s.stalled c.id)))

/-- 06 R118, R121, R122, 14 R275, R276. A GRV instruction that writes a stream register or a generator joins the engine's list: GRV
rises, and its destination takes the tag that its operands give it; GGEN and GREG draw their words at their commit, once the engine's
earlier operations are performed; correlated operands without .COR raise STREAM/CORRELATED once the wave's operations have completed,
whether or not a thread acts. -/
def Sys2Proof.Ob.GravelOperations : Prop :=
  ∀ (i : Instr) (s : State) (c : Ctx), Ctx.of s = some c →
    (∀ o : GrvIssue, (gOp (c.during true) i = some o ∧ o.m.closer = true ∨ gOp (c.during false) i = some o ∧ o.m.closer = false) →
      c.runs o.m = true → grvRoom c o.reads o.gd = true →
      (o.good = true → uncorrelated c o.pairs = true → exec i s = .next (c.commit o.m.closer none
        (issuedGrv (c.during o.m.closer) (o.drawn.elim s fun g => s.setGravel c.clusterNo g) o.tag o.op))) ∧
      (uncorrelated c o.pairs = false → c.w.cGrv = 0 → exec i s = .next (c.precise s c.w (.plain (cStream 2)) false))) ∧
    (∀ (o : GrvIssue) (r : Nat), gOp (c.during false) i = some o → r ∈ o.reads → o.m.check c = none →
      c.gravel.holder = some c.id.conv → look c.gravel.g r = none → c.gravel.loading r = false →
      exec i s = .next (c.precise s c.w (.plain (cStream 1)) false))

/-- 06 R120, 14 R276. GMOV.LD and GMOV.ST translate the image's lines at the commit, after the wave's earlier stores. -/
def Sys2Proof.Ob.GravelImages : Prop :=
  ∀ (k : Ctl) (g : BitVec 5) (ka : Desc) (s : State) (c : Ctx), Ctx.of s = some c → c.runs (.wide k [src ka 2]) = true →
    let c' := c.during false
    let a := (c'.addr (c.acting { k with onc := true }) ka).toNat
    a % 64 = 0 → c.w.sq = [] →
    (let l := goodLines c' .load (lineVas a (c.gravel.len / 8 + 1))
     l.length = c.gravel.len / 8 + 1 → c'.touchables l false = true → grvRoom c [] none = true →
     exec (.gmovLd k g ka) s =
       .next (c.commit false none (issuedGrv c' (s.touches c.vf l false) none (.ld g.toNat (linePairs l))))) ∧
    (let l := goodLines c' .store (lineVas a (c.gravel.len / 8 + 1))
     let x := c.gravel.reg g.toNat
     l.length = c.gravel.len / 8 + 1 → c'.touchables l true = true → grvRoom c [g.toNat] none = true →
     exec (.gmovSt k ka g) s = .next (c.commit false none
       (issuedGrv c' (s.touches c.vf l true) none (.st g.toNat x.m x.s x.x (linePairs l)))))

/-- 06 R119, R126. The synchronous instructions, once the engine's operations have completed and with no uncorrectable register and
no persisting mismatch: GCNT and GACC write all 64 elements, GCMP a k pair, GLEN the length, which leaves every register unset. -/
def Sys2Proof.Ob.GravelCounts : Prop :=
  ∀ (s : State) (c : Ctx), Ctx.of s = some c → c.gravel.holder = some c.id.conv → c.gravel.ops = [] →
    persists c.gravel.fails = false →
    let c' := c.during false
    let s' := c'.attempted
    let act (k : Ctl) : Lanes := c.acting { k with onc := true }
    (∀ (k : Ctl) (vd : Desc) (gs : BitVec 5) (kind : GCntKind), c.runs (.wide k [dst vd 2]) = true → isV vd = true →
      look c.gravel.g gs.toNat ≠ none → gs.toNat ∉ c.gravel.bad →
      exec (.gcnt k vd gs kind) s = .next (c.commit false none
        (c'.putElements s' vd fun e => countBits kind (c.gravel.count gs.toNat e) c.gravel.len))) ∧
    (∀ (k : Ctl) (vd : Desc) (ga n : BitVec 5), c.runs (.wide k [dst vd 2]) = true → isV vd = true →
      ga.toNat + n.toNat < 32 →
      (∀ r, ga.toNat ≤ r → r ≤ ga.toNat + n.toNat → look c.gravel.g r ≠ none ∧ r ∉ c.gravel.bad) →
      exec (.gacc k vd ga n) s = .next (c.commit false none (c'.putElements s' vd fun e => BitVec.ofNat 32
        (((List.range (n.toNat + 1)).map fun i => c.gravel.count (ga.toNat + i) e).foldl (· + ·) 0)))) ∧
    (∀ (k : Ctl) (r : BitVec 6) (gs : BitVec 5) (vn : Desc) (first : Bool), c.runs (.wide k [dst (.k r), src vn 2]) = true →
      isV vn = true → look c.gravel.g gs.toNat ≠ none → gs.toNat ∉ c.gravel.bad →
      let hit (e : Nat) : Bool := (c'.element vn e).toNat ≤ c.gravel.count gs.toNat e
      ∃ v : DWord, exec (.gcmp k (.k r) gs vn first) s = .next (c.commit false none (c'.dest (.k r) true [(leader (act k), v)] s')) ∧
        (first = true → v = BitVec.ofNat 64 (((List.range 64).find? hit).getD 64)) ∧
        (first = false → ∀ e, e < 64 → v.getLsbD e = hit e)) ∧
    (∀ (k : Ctl) (l : SrcB), c.runs { Meta.wide k (srcB l) with always := true } = true → act k ≠ 0 →
      let x := (c'.readB32 (leader (act k)) l).toNat
      x ∈ [256, 1024, 4096] →
      let g := (s'.cluster c.clusterNo).gravel
      exec (.glen k l) s = .next (c.commit false none (s'.setGravel c.clusterNo
        { g with len := x, g := [], bad := g.bad.filter (32 ≤ ·) })))

namespace Sys2Proof.Ob

/-! ### Copies, messages and system instructions -/

/-- CPY has room and the wave's stores have all been performed, so that a copy can issue (04 R82). -/
def copyRoom (c : Ctx) : Bool := decide (c.w.cCpy ≠ 63) && c.w.sq.isEmpty

/-- A copy at the end of its wave's list, its CPY raised. -/
def issuedCopy (c : Ctx) (op : CopyOp) : State :=
  c.put { (c.w.raise .cpy).noSpin with copies := c.w.copies ++ [op] }

/-- The lines of a copy: row, line of the row, crew. -/
def copyLines (crews : List Nat) (rows n : Nat) : List (Nat × Nat × Nat) :=
  crews.flatMap fun i => (List.range rows).flatMap fun r => (List.range (n / 64)).map fun j => (r, j, i)

/-- A record of 1 to 32 bytes at 8 bytes a register. -/
def quadBytes (c : Ctx) (kw : Desc) : List Byte := (c.kGroup kw 4).flatMap fun x => leBytes 8 x.toNat

end Sys2Proof.Ob

/-- 14 R278 to R280, 04 R82. A COPY or CPY2 whose operands pass joins the copy engine's work at its commit, and CPY rises: for a
multicast, one copy of each line to every crew of the mask, in ascending order. -/
def Obligations.Copies : Prop :=
  ∀ (s : State) (c : Ctx), Ctx.of s = some c → copyRoom c = true →
    let c' := c.during false
    (∀ (k : Ctl) (d a : Desc) (n : SrcB) (mask : Desc) (dsp ssp : CpSpace) (cv : CpConv) (mc : Bool),
      c.runs { Meta.wide k ([src d 2, src a 2] ++ srcB n ++ if mc then [src mask] else []) with always := true } = true →
      let act := c.acting { k with onc := true }
      let x := (c'.readB32 (leader act) n).toNat
      let m := if mc then some (c'.read32 (leader act) mask).toNat else none
      let crews := match m with
        | some m => (List.range 8).filter fun i => m.testBit i
        | none => [c.id.crew]
      act ≠ 0 → c'.copyFault (c'.addr act d).toNat (c'.addr act a).toNat x m dsp ssp cv = none →
      exec (.copy k d a n mask dsp ssp cv mc) s = .next (c.commit false none (issuedCopy c
        { dsp := dsp, ssp := ssp, dst := (c'.addr act d).toNat, src := (c'.addr act a).toNat, rowBytes := x, dstStride := 0,
          srcStride := 0, cv := cv, multicast := mc, hnd := c.hnd, left := copyLines crews 1 x }))) ∧
    (∀ (k : Ctl) (d a : Desc) (r : BitVec 6) (dsp ssp : CpSpace), c.runs (.wide k [src d 2, src a 2, src (.k r)]) = true →
      r.toNat % 2 = 0 → r.toNat + 1 < c.w.kregs →
      let act := c.acting { k with onc := true }
      let x := (c'.addr act d).toNat
      let y := (c'.addr act a).toNat
      let row := ((c.w.getK r.toNat).extractLsb' 0 32).toNat
      let rows := ((c.w.getK r.toNat).extractLsb' 32 32).toNat
      let ds := ((c.w.getK (r.toNat + 1)).extractLsb' 0 32).toNat
      let ss := ((c.w.getK (r.toNat + 1)).extractLsb' 32 32).toNat
      row % 64 = 0 → ds % 64 = 0 → ss % 64 = 0 → 64 ≤ row → 1 ≤ rows → rows ≤ 65536 → row * rows ≤ 2 ^ 20 → row ≤ ds →
      x % 64 = 0 → y % 64 = 0 → copyBound c.cw c.cv dsp x row rows ds = none → copyBound c.cw c.cv ssp y row rows ss = none →
      exec (.cpy2 k d a (.k r) dsp ssp) s = .next (c.commit false none (issuedCopy c
        { dsp := dsp, ssp := ssp, dst := x, src := y, rowBytes := row, dstStride := ds, srcStride := ss, cv := .none,
          multicast := false, hnd := c.hnd, left := copyLines [c.id.crew] rows row })))

/-- 14 R281, 18 R316. TASK: when every acting thread's task has been accepted, in ascending order of the threads, it commits; when
the queue has no room for the next one, the wave waits for it and keeps the count of those accepted. -/
def Sys2Proof.Ob.TaskSubmission : Prop :=
  ∀ (k : Ctl) (entry arg : Desc) (r : BitVec 6) (s : State) (c : Ctx) (gid : Nat) (s1 : State) (args : List (List Byte)),
    Ctx.of s = some c →
    let c' := c.during true
    let act := c.acting k
    let ts := (lanesOf act).drop c.taken
    let check (t : Nat) : Option (BitVec 10 × Nat) :=
      if ((lanesOf act).take c.taken).contains t then none
      else
        let e := (c'.read64 t entry false).toNat
        let a := (c'.read64 t arg false).toNat
        if e % 8 ≠ 0 then some (cAlign 1, e)
        else
          match c'.locate .device .load 32 a with
          | .error x => some (x, faddrOf a)
          | .ok p => match if c'.w.covered p 32 then none else c'.badAt p 32 with
            | some x => some (x, faddrOf a)
            | none => none
    c.runs { Meta.plain k [src entry 2, src arg 2, src (.k r)] with last := true, closer := true } check = true →
    s.taskGrid c.vf (c.w.getK r.toNat).toNat = some gid → (c.hnd || c.quiet) = true →
    c'.loadChunks ts (ts.map fun t => ((c'.read64 t arg false).toNat, 32)) = .ok (s1, args, []) →
    let tasks := (ts.map fun t => c'.read64 t entry false).zip args
    let q := State.acceptTasks c.w.core gid s1 tasks
    let s2 := q.1.setWave c.id { ((q.1.wave? c.id).getD c.w).noSpin with accepted := c.taken + q.2.1 }
    let s3 := if q.2.1 = 0 then s2 else s2.markSubmitted c.id.conv
    (q.2.1 = tasks.length →
      exec (.task k entry arg (.k r)) s = .next (c.commit true none (s3.markSubmitted c.id.conv))) ∧
    (q.2.1 ≠ tasks.length → q.2.2 = true → ∀ w, s3.wave? c.id = some w →
      exec (.task k entry arg (.k r)) s = .next (s3.setWave c.id
        { w with wait := some (.taskQueue (c.w.getK r.toNat).toNat), woken := false, stall := false }))

/-- 14 R282, 04 R83. SGNL, once the conditions of its scope hold, sets the 8 bytes at its address or adds to them. -/
def Sys2Proof.Ob.Signals : Prop :=
  ∀ (k : Ctl) (addr b : Desc) (set : Bool) (scope : SgScope) (s : State) (c : Ctx) (p : Place), Ctx.of s = some c →
    c.runs { Meta.wide k [src addr 2, src b 2] with last := true, closer := true } = true →
    let c' := c.during true
    let act := c.acting { k with onc := true }
    let a := (c'.addr act addr).toNat
    let sc := match scope with
      | .die => Scope.die
      | .pkg => .pkg
      | .sys => .sys
    c'.locate .device .atomic 8 a = .ok p → c.w.sq = [] → c.quiet = true → c'.fenceReady sc = true →
    c'.touchables [(a, p)] true = true → s.untouched' p = false → (s.lineDir (lineOf p.adr)).owner = none →
    s.atomReady c.die (lineOf p.adr) (scope != .die) = true → c'.badAt p 8 = none → c'.watchHits .device true true 8 [(leader act, a)] = [] →
    let s1 := ((c'.fenceDone sc).touches c.vf [(a, p)] true).checkedLine (lineOf p.adr) a c.vf p.set 0
    let x := (c'.addr act b).toNat
    let s2 := s1.atomWrite c.die c.w.core p.adr 8
      (if set then x else (s1.devVal (homeDie p.adr) p.adr 8 + x) % 2 ^ 64) (scope != .die)
    let s3 := if scope = .sys then s2.writeBack (lineOf p.adr) else s2
    exec (.sgnl k addr b set scope) s = .next (c.commit true none
      ((s3.setWave c.id ((s3.wave? c.id).getD c.w).noSpin).markSubmitted c.id.conv))

/-- 14 R283, 18 R308, R309. GRID appends its 128-byte record to its queue at HD ≤ TL < HD + SIZE and TL rises by one; of a queue not
enabled, in its registers or in its descriptor, it raises QUEUE/NOT-ENABLED; in recovery mode it is ignored (23 R387). -/
def Sys2Proof.Ob.GridLaunch : Prop :=
  ∀ (k : Ctl) (rec_ : Desc) (q : SrcB) (s : State) (c : Ctx) (s1 : State) (b0 b1 : List Byte), Ctx.of s = some c →
    c.runs { Meta.wide k (src rec_ 2 :: srcB q) with last := true, closer := true, always := true } = true →
    let c' := c.during true
    let act := c.acting { k with onc := true }
    let a := (c'.addr act rec_).toNat
    let n := (c'.readB32 (leader act) q).toNat
    let x := lookD (s1.fn c.vf).queues n Queue.reset
    act ≠ 0 →
    (64 ≤ n → exec (.grid k rec_ q) s = .next (c'.precise s c.w (.plain (cQueue 5)) false)) ∧
    (n < 64 → c'.loadChunks [leader act, leader act] [(a, 64), (a + 64, 64)] = .ok (s1, [b0, b1], []) →
      (c.hnd || c.quiet) = true → s1.pkg.length = s.pkg.length →
      (s1.fw.rcv = true → exec (.grid k rec_ q) s = .next (c.commit true none s1)) ∧
      (s1.fw.rcv = false → (x.en = false ∨ x.dev = false) →
        exec (.grid k rec_ q) s = .next (c'.precise s c.w (.plain (cQueue 5)) false)) ∧
      (∀ pa : Nat, s1.fw.rcv = false → x.en = true → x.dev = true → s1.queueDesc c.vf c.die n = some pa →
        let h := homeDie pa
        let hd := s1.devVal h pa 8
        let tl := s1.devVal h (pa + 8) 8
        let va := x.base + 128 * (tl % x.size)
        (s1.lineDir (lineOf pa)).owner = none → s1.atomReady c.die (lineOf pa) false = true → s1.lineErr (lineOf pa) = none →
        (s1.devVal h (pa + 0x1D) 1 % 2 = 0 →
          exec (.grid k rec_ q) s = .next (c'.precise s c.w (.plain (cQueue 5)) false)) ∧
        (s1.devVal h (pa + 0x1D) 1 % 2 = 1 → (tl + 2 ^ 64 - hd) % 2 ^ 64 < x.size →
          ∀ (xl : Xlat) (slot : Nat), s1.saveAddr c.vf c.die va true = .ok (xl, slot) → s1.touchable xl true = true →
          s1.untouched xl true = false → ([slot, slot + 64].all fun l => s1.canWrite h l && s1.abreast h l c.die) = true →
          let s2 := (linesOf slot none 2 (b0 ++ b1)).foldl (fun s w => s.writeFrom h c.die w (.wave c.w.core)) (s1.cache c.vf va xl)
          let s3 := s2.atomWrite c.die c.w.core (pa + 8) 8 (tl + 1) false
          let f := s3.fn c.vf
          let s4 := s3.setFn c.vf { f with queues := ins f.queues n { x with hd := hd, tail := (tl + 1) % 2 ^ 64 } }
          exec (.grid k rec_ q) s = .next (c.commit true none
            ((s4.setWave c.id ((s4.wave? c.id).getD c.w).noSpin).markSubmitted c.id.conv)))))

/-- 14 R284, R285, 18 R324, R325. CMSG leaves its message with MSG raised; CBUF writes its record at TAIL of a ring with room, raises
TAIL by one and ends with pd true; on a full ring CBUF.NB ends with pd false and nothing written. -/
def Sys2Proof.Ob.MessagesAndRings : Prop :=
  ∀ (k : Ctl) (addr : Desc) (r : BitVec 6) (s : State) (c : Ctx), Ctx.of s = some c → r.toNat % 4 = 0 → r.toNat + 3 < c.w.kregs →
    let act := c.acting { k with onc := true }
    (∀ p : Place, c.runs { Meta.wide k [src addr 2, src (.k r)] with last := true, closer := true } = true →
      let c' := c.during true
      let a := (c'.addr act addr).toNat
      c'.locate .device .store 1 a = .ok p → c.w.cMsg ≠ 63 → c.w.sq = [] → c'.touchables [(a, p)] false = true →
      let s1 := s.touches c.vf [(a, p)] false
      let w := (((s1.wave? c.id).getD c.w).raise .msg).noSpin
      let m : MsgOp := { pa := lineOf p.adr, va := lineOf a, set := p.set, hnd := c.hnd, done := false
                         words := (List.range 4).map fun j => c.w.getK (r.toNat + j) }
      exec (.cmsg k addr (.k r)) s = .next (c.commit true none
        ((s1.setWave c.id { w with msgs := w.msgs ++ [m] }).markSubmitted c.id.conv))) ∧
    (∀ (pd : BitVec 3) (nb : Bool) (p : Place) (x : RingHdr),
      c.runs (predMeta (.wide k [src addr 2, src (.k r)]) pd) = true →
      let c' := c.during false
      let a := (c'.addr act addr).toNat
      let b := quadBytes c (.k r)
      let setPred (s : State) (v : Bool) : State :=
        let w := (s.wave? c.id).getD c.w
        let all := c.acting { k with onc := false }
        s.setWave c.id (w.setP pd.toNat (mergeLanes all (if v then all else 0) (w.getP pd.toNat)))
      a % 64 = 0 → b.take 4 ≠ List.replicate 4 0xFF → c'.locate .device .atomic 64 a = .ok p → c.w.sq = [] →
      c'.touchables [(a, p)] true = true → s.untouched' p = false → (s.lineDir (lineOf p.adr)).owner = none →
      s.atomReady c.die (lineOf p.adr) false = true → c'.badAt p 64 = none → s.ringHdr (homeDie p.adr) p.adr = some x →
      (x.size ≤ x.count → nb = true →
        exec (.cbuf k pd addr (.k r) nb) s = .next (c.commit false none ((setPred s false).markSubmitted c.id.conv))) ∧
      (∀ q : Place, x.count < x.size →
        let va : Nat := x.base + 32 * (x.tail % x.size)
        let h := homeDie p.adr
        c'.locate .device .atomic 32 va = .ok q → c'.touchables [(va, q)] true = true → s.untouched' q = false →
        s.memLost q.adr = false → s.canWrite h (lineOf q.adr) = true → s.abreast h (lineOf q.adr) c.die = true → c'.watchHits .device false true 8 [(leader act, a + 8)] = [] →
        c'.watchHits .device false true 32 [(leader act, va)] = [] →
        let s1 := (s.touches c.vf [(a, p)] true).touches c.vf [(va, q)] true
        let s2 := (s1.writeFrom h c.die (lineWrite q.adr b none) (.wave c.w.core)).atomWrite c.die c.w.core (p.adr + 8) 8
          (x.tail + 1) false
        let s3 := (s2.setWave c.id ((s2.wave? c.id).getD c.w).noSpin).markSubmitted c.id.conv
        exec (.cbuf k pd addr (.k r) nb) s = .next (c.commit false none (setPred s3 true))))

/-- 14 R286, 22 R380. COLL by a live group takes SEQ of its table and raises it, with DOM raised; of a table that no group register
names it raises QUEUE/GROUP. -/
def Sys2Proof.Ob.Collectives : Prop :=
  ∀ (k : Ctl) (d a n : Desc) (r : BitVec 6) (op : CollOp) (ty : CollTy) (root : BitVec 8) (s : State) (c : Ctx),
    Ctx.of s = some c → c.runs { Meta.wide k [src d 2, src a 2, src n, src (.k r)] with last := true, closer := true } = true →
    let c' := c.during true
    let act := c.acting { k with onc := true }
    let x := (c'.addr act d).toNat
    let y := (c'.addr act a).toNat
    let m := (c'.read32 (leader act) n).toNat
    let table := (c.w.getK r.toNat).toNat
    m % 64 = 0 → 64 ≤ m → m ≤ 2 ^ 30 → x % 64 = 0 → y % 64 = 0 →
    ((s.fn c.vf).groupAt table = false →
      exec (.coll k d a n (.k r) op ty root) s = .next (c'.precise s c.w (.plain (cQueue 6)) false)) ∧
    (∀ (xl : Xlat) (pa gid seq : Nat), (s.fn c.vf).groupAt table = true →
      (op = .bcast → s.rankLive c.vf c.die table root.toNat = true) → s.saveAddr c.vf c.die table true = .ok (xl, pa) →
      s.tableVal c.vf c.die table 0 4 = some gid → s.tableVal c.vf c.die table 8 8 = some seq → c.w.cDom ≠ 63 → c.w.sq = [] →
      s.touchable xl true = true → s.untouched xl true = false → (s.lineDir (lineOf pa)).owner = none →
      s.atomReady c.die (lineOf pa) false = true → s.lineErr pa = none →
      let s1 := ((s.touch xl true).cache c.vf table xl).atomWrite c.die c.w.core (pa + 8) 8 (seq + 1) false
      let w := (((s1.wave? c.id).getD c.w).raise .dom).noSpin
      let o : CollOp' := { table := table, gid := gid, seq := seq, dst := x, src := y, n := m, op := op, ty := ty,
                           root := root.toNat }
      exec (.coll k d a n (.k r) op ty root) s = .next (c.commit true none
        ((s1.setWave c.id { w with doms := w.doms ++ [.coll o c.hnd] }).markSubmitted c.id.conv)))

/-- 14 R287, R289, R291, 02 R43, R44. SYSR reads a system register that its level may read, SYSW, in a handler, writes one that may
be written; elsewhere they raise PROTECT/PRIV. ACHK has no architectural effect. -/
def Sys2Proof.Ob.SystemRegisterAccess : Prop :=
  ∀ (s : State) (c : Ctx), Ctx.of s = some c →
    (∀ (k : Ctl) (r n : BitVec 6), c.runs (.wide k [dst (.k r)]) = true → n.toNat ≤ 15 →
      (c.hnd = true ∨ 6 ≤ n.toNat ∧ n.toNat ≤ 10 ∨ 12 ≤ n.toNat) → n ≠ 7 →
      exec (.sysr k (.k r) n) s = .next (c.commit false none ((c.during false).dest (.k r) true
        [(leader (c.acting { k with onc := true }), (c.during false).sysReg n.toNat)] s))) ∧
    (∀ (k : Ctl) (r n : BitVec 6), (Meta.wide k [dst (.k r)]).check c = none → c.hnd = false →
      (n.toNat ≤ 5 ∨ n = 11) → exec (.sysr k (.k r) n) s = .next (c.precise s c.w (.plain (cProtect 4)) false)) ∧
    (∀ (k : Ctl) (n : BitVec 6) (a : Desc), c.runs (.wide k [src a 2]) = true → c.hnd = true →
      let x := (c.during false).addr (c.acting { k with onc := true }) a
      let w := c.w
      (n = 1 → exec (.sysw k n a) s = .next (c.commit false none (c.put { w with epc := x.extractLsb' 0 57 }))) ∧
      (n = 4 → exec (.sysw k n a) s = .next (c.commit false none
        (c.put { w with flane := (w.flane.extractLsb' 64 64 : DWord) ++ x }))) ∧
      (n = 5 → exec (.sysw k n a) s = .next (c.commit false none
        (c.put { w with flane := x ++ (w.flane.extractLsb' 0 64 : DWord) }))) ∧
      (n = 6 → exec (.sysw k n a) s = .next (c.commit false none (c.put { w with mile := x.extractLsb' 0 32 }))) ∧
      (n = 7 → exec (.sysw k n a) s = .next (c.commit false none (c.put { w with milepc := x &&& 0x1FFFFFFFFFFFFF8#64 }))) ∧
      (n = 8 → (x.extractLsb' 0 8).toNat + w.iwl.toNat ≤ w.vregs →
        exec (.sysw k n a) s = .next (c.commit false none (c.put { w with iwb := x.extractLsb' 0 8 }))) ∧
      (n = 9 → w.iwb.toNat + (x.extractLsb' 0 9).toNat ≤ w.vregs →
        exec (.sysw k n a) s = .next (c.commit false none (c.put { w with iwl := x.extractLsb' 0 9 })))) ∧
    (∀ (k : Ctl) (n : BitVec 6) (a : Desc), (Meta.wide k [src a 2]).check c = none → n.toNat ≤ 15 → c.hnd = false →
      exec (.sysw k n a) s = .next (c.precise s c.w (.plain (cProtect 4)) false)) ∧
    (∀ (k : Ctl), c.runs (.wide k []) = true → exec (.achk k) s = .next (c.commit false none s))

/-- 14 R290, Table 14-8. PROBE writes the translation that an access would find, or 0 where it finds none, and never traps. -/
def Sys2Proof.Ob.Probes : Prop :=
  ∀ (k : Ctl) (r : BitVec 6) (addr : Desc) (sp : PrSpace) (kind : PrKind) (s : State) (c : Ctx), Ctx.of s = some c →
    c.runs (.wide k [dst (.k r), src addr 2]) = true →
    let act := c.acting { k with onc := true }
    let a := ((c.during false).addr act addr).toNat
    ((2 ^ 57 ≤ a ∨ 2 ^ 56 ≤ a ∧ c.hnd = false ∨ s.lookup c.vf c.die a = none) → exec (.probe k (.k r) addr sp kind) s =
      .next (c.commit false none ((c.during false).dest (.k r) true [(leader act, 0)] s))) ∧
    (∀ x : Xlat, a < 2 ^ 57 → (a < 2 ^ 56 ∨ c.hnd = true) → s.lookup c.vf c.die a = some x →
      let b (v : Bool) (n : Nat) : Nat := if v then 2 ^ n else 0
      exec (.probe k (.k r) addr sp kind) s = .next (c.commit false none ((c.during false).dest (.k r) true
        [(leader act, if (PrSpace.space sp).accepts x.cls && (PrKind.access kind).permits x then
            BitVec.ofNat 64 (2 ^ 13 * x.psz + 2 ^ 7 * x.set + 2 ^ 4 * x.cls + b x.pat 3 + b x.pw 2 + b x.pr 1 + 1)
          else 0)] s)))

/-- 08 R146 to R149, Table 8-3, 19 R340. A clause header that is well formed and whose wait is over opens its clause at the next
word; while the wait goes on it stays; a malformed header and a word of an unassigned opcode fault at their own address. -/
def Obligations.HeadersAndUnassigned : Prop :=
  ∀ (w : DWord) (s : State) (c : Ctx), Ctx.of s = some c →
    (headerFault w = none → c.headerReady w = true → exec (.clauseHeaderDecode w) s = .next (c.put
      { c.w with pc := c.w.pc + 8, skipBreak := none, stall := false
                 clause := (engOf (w.extractLsb' 60 4).toNat).map fun e =>
                   { addr := c.w.pc, eng := e, cnt := w.extractLsb' 56 4, m := w.getLsbD 46 } })) ∧
    (headerFault w = none → c.headerReady w = false → exec (.clauseHeaderDecode w) s = .next (s.stalled c.id)) ∧
    (7 ≤ (w.extractLsb' 60 4).toNat →
      exec (.clauseHeaderDecode w) s = .next (c.precise s c.w (.plain (cInstr 5)) false)) ∧
    ((w.extractLsb' 60 4).toNat < 7 → 6 ≤ (w.extractLsb' 53 3).toNat →
      exec (.clauseHeaderDecode w) s = .next (c.precise s c.w (.plain (cInstr 6)) false)) ∧
    (exec (.unassignedOpcode w) s = .next (c.precise s c.w (.plain (cInstr 0)) false))

/-- 19 R330, R336, 14 R288. TRAP commits, and the wave enters its handler after it: EPC is the next word, CAUSE the software cause of
its number. -/
def Sys2Proof.Ob.SoftwareTrap : Prop :=
  ∀ (k : Ctl) (n : BitVec 6) (s : State) (c : Ctx) (w : Wave), Ctx.of s = some c → c.runs (.wide k []) = true → c.hnd = false →
    s.wave? c.id = some w → ∀ t : State,
    let w' := c.move none (c.advance false w)
    ((s.setWave c.id w').checked c.w.core).trapEntry c.id w' c.cv
      { kind := 2, cause := cSoftware n.toNat, faddr := 0, flane := 0, part := false, dbg := 0, epc := w'.pc,
        hdr := (w'.clause.map Clause.addr).getD w'.pc } = some t →
    exec (.trap k n) s = .next t

/-- 19 R335. RTE, with the wave's stores performed and its frame readable, returns: k0 to k15 and the place to resume come from the
frame, the wave leaves the handler, and the context's debug registers are read again; at kernel level it raises PROTECT/PRIV. -/
def Sys2Proof.Ob.ReturnFromTrap : Prop :=
  ∀ (k : Ctl0) (s : State) (c : Ctx), Ctx.of s = some c →
    (∀ b : List Byte, c.runs { Meta.wide (ctlOf k) [] with always := true } = true → c.hnd = true →
      c.w.epc.extractLsb' 0 3 = 0 → c.w.sq = [] → s.saveRead c.vf c.die c.w.frame 0xA0 = .ok b →
      let ks : List DWord := (List.range 16).map fun n => BitVec.ofNat 64 (fieldOf b (8 * n) 8)
      let hdr : DWord := BitVec.ofNat 64 (fieldOf b 0x88 8)
      let epc : DWord := BitVec.ofNat 64 (fieldOf b 0x90 8)
      let same := c.w.epc.setWidth 64 == epc
      let w := c.w.leave ks same (if same && hdr != epc then (c.during false).clauseAgain c.w.inner hdr else none)
      exec (.rte k) s = .next (((c.put { w with accepted := if same then w.accepted else 0 }).checked c.w.core).setDebug c.ctxid
        (s.debugBlock c.cv c.die))) ∧
    ({ Meta.wide (ctlOf k) [] with always := true }.check c = none → c.hnd = false →
      exec (.rte k) s = .next (c.precise s c.w (.plain (cProtect 4)) false))

namespace Sys2Proof.Ob

/-! ### Cairn -/

/-- The focus is the invocation `v` of the Cairn core of slice `n`. -/
def runsCairn (s : State) (n : Nat) (v : Invoc) : Prop := s.focus = .cairn n ∧ (s.slice n).inv = some v

/-- The fabric cycles of one Cairn instruction: at least 1 (07 R139; DESIGN CHOICE, log 8). -/
def cairnCost (s : State) : Nat := 1 + Config.cairnCycles s.freeCtr

/-- A Cairn instruction of `s` that has retired in the state `t` of its effects: the invocation `v` is at `pc`. -/
def retired (s t : State) (n : Nat) (v : Invoc) (pc : DWord) : State :=
  (t.setSlice n { t.slice n with inv := some { v with pc := pc, instret := v.instret + 1 } }).draw.elapse (cairnCost s)

/-- The same at the next word. -/
def retiredNext (s t : State) (n : Nat) (v : Invoc) : State := retired s t n v (v.pc + 4)

/-- The line instructions: their word offset, the state and the registers after their access of the word at `pa`, and whether they
write (07 Table 7-3). -/
def lineOp : Instr → Option ((Invoc → DWord) × Bool × (State → Nat → Invoc → Nat → State × Invoc))
  | .clnRd rd rs1 imm => some (fun v => v.get rs1 + imm.signExtend 64, false, fun s n v pa =>
      (s, v.set rd (BitVec.ofNat 64 (s.devVal (n / 48) pa 8))))
  | .clnWr rs1 rs2 imm => some (fun v => v.get rs1 + imm.signExtend 64, true, fun s n v pa =>
      (s.handlerWrite n v pa (v.get rs2), v))
  | .clnAtom op rd rs1 rs2 => some (fun v => v.get rs1, true, fun s n v pa =>
      let old : DWord := BitVec.ofNat 64 (s.devVal (n / 48) pa 8)
      (s.handlerWrite n v pa (clnNew op old (v.get rs2)), v.set rd old))
  | _ => none

end Sys2Proof.Ob

/-- 07 R131. A line instruction whose word lies in the trigger line, with the line fetched, has its effect; under MISS it is aborted
with NO-LINE, at a bad offset with LINE-OFFSET. -/
def Sys2Proof.Ob.CairnLines : Prop :=
  ∀ (i : Instr) (o : Invoc → DWord) (wr : Bool) (f : State → Nat → Invoc → Nat → State × Invoc) (s : State) (n : Nat) (v : Invoc),
    lineOp i = some (o, wr, f) → runsCairn s n v →
    (∀ (s1 : State) (v1 : Invoc), v.trig.kind ≠ .miss → (o v).toNat ≤ 56 → (o v).toNat % 8 = 0 →
      s.fetchTarget v = some (s1, v1) → (wr = true → s1.handlerCanWrite n v1.trig = true) →
      (wr = false → s1.canSee (n / 48) (v1.trig.line + (o v).toNat) = true) →
      let r := f s1 n v1 (v1.trig.line + (o v).toNat)
      exec i s = .next (retiredNext s r.1 n r.2)) ∧
    (v.trig.kind = .miss → exec i s = .next (s.abort n v 6)) ∧
    (v.trig.kind ≠ .miss → (56 < (o v).toNat ∨ (o v).toNat % 8 ≠ 0) → exec i s = .next (s.abort n v 7))

/-- 07 R131, R135, Table 7-6. cln.get reads a field of the trigger record, cln.bud what is left of the budget, cln.done ends the
invocation, cln.keep and cln.drop are staged; operands out of range abort. -/
def Sys2Proof.Ob.CairnInvocation : Prop :=
  ∀ (s : State) (n : Nat) (v : Invoc), runsCairn s n v →
    (∀ rd (imm : BitVec 12), imm.toNat < 16 →
      exec (.clnGet rd imm) s = .next (retiredNext s s n (v.set rd (s.trigField n v imm.toNat)))) ∧
    (∀ rd (imm : BitVec 12), 16 ≤ imm.toNat → exec (.clnGet rd imm) s = .next (s.abort n v 11)) ∧
    (∀ rd, exec (.clnBud rd) s = .next (retiredNext s s n (v.set rd (BitVec.ofNat 64 (v.budget - s.cyclesOf v))))) ∧
    (exec (.clnDone 0) s = .next (s.finishInv n v true)) ∧
    (exec (.clnDone 1) s = .next (s.finishInv n v false)) ∧
    (∀ a : BitVec 12, 2 ≤ a.toNat → exec (.clnDone a) s = .next (s.abort n v 10)) ∧
    (∀ rd (p : BitVec 12), 3 < p.toNat → exec (.clnKeep rd p) s = .next (s.abort n v 12)) ∧
    (∀ rd (p : BitVec 12), p.toNat ≤ 3 → v.trig.kind = .msg → exec (.clnKeep rd p) s = .next (retiredNext s s n (v.set rd 0))) ∧
    (∀ rd (p : BitVec 12), p.toNat ≤ 3 → v.trig.kind ≠ .msg → (p = 0 ∨ s.keptLines n v.trig.vf v.trig.line < 8192) →
      exec (.clnKeep rd p) s = .next (retiredNext s s n { v.set rd 0 with keep := some (p.extractLsb' 0 2) })) ∧
    (∀ rd (p : BitVec 12), p.toNat ≤ 3 → v.trig.kind ≠ .msg → p ≠ 0 → 8192 ≤ s.keptLines n v.trig.vf v.trig.line →
      exec (.clnKeep rd p) s = .next (retiredNext s s n (v.set rd 1))) ∧
    (v.trig.kind ≠ .msg → exec .clnDrop s = .next (retiredNext s s n { v with drop := true })) ∧
    (v.trig.kind = .msg → exec .clnDrop s = .next (retiredNext s s n v))

/-- 07 R132, R133, R141. cln.req, cln.fwd, cln.rply and cln.evq: what each leaves and the code it answers. -/
def Sys2Proof.Ob.CairnRequests : Prop :=
  ∀ (s : State) (n : Nat) (v : Invoc), runsCairn s n v →
    let t := s.invSlot n v
    (∀ rd rs1 rs2, v.get rs2 &&& (~~~ 1#64) ≠ 0 → exec (.clnReq rd rs1 rs2) s = .next (s.abort n v 2)) ∧
    (∀ rd rs1 rs2, v.get rs2 &&& (~~~ 1#64) = 0 →
      let va := (v.get rs1).toNat
      (s.handlerXlate n v.trig.vf va = none → exec (.clnReq rd rs1 rs2) s = .next (retiredNext s s n (v.set rd 2))) ∧
      (∀ x, s.handlerXlate n v.trig.vf va = some x →
        let line := lineOf (s.devAddr v.trig.vf x va)
        (((s.lineDir line).present || (s.lineDir line).requested) = true →
          exec (.clnReq rd rs1 rs2) s = .next (retiredNext s s n (v.set rd 1))) ∧
        (((s.lineDir line).present || (s.lineDir line).requested) = false → 16 ≤ (s.slice n).reqs.length →
          exec (.clnReq rd rs1 rs2) s = .next (retiredNext s s n (v.set rd 3))) ∧
        (((s.lineDir line).present || (s.lineDir line).requested) = false → (s.slice n).reqs.length < 16 →
          s.touchable x false = true →
          let s1 := (s.touch x false).cache v.trig.vf va x
          let s2 := s1.setLineDir line { s1.lineDir line with requested := true }
          exec (.clnReq rd rs1 rs2) s = .next (retiredNext s (s2.setSlice n { s2.slice n with
            reqs := (s2.slice n).reqs ++ [{ line := line, va := lineOf va, vf := v.trig.vf, set := x.set, hops := v.trig.hops
                                            chain := (v.get rs2).getLsbD 0 }] }) n (v.set rd 0))))) ∧
    (∀ rd rs1 rs2 (x : Xlat), let off := (v.get rs2).toNat
      let va := (v.get rs1).toNat
      off + 32 ≤ 256 * t.dlen.toNat → off % 8 = 0 → s.handlerXlate n v.trig.vf va = some x → s.touchable x false = true →
      let line := lineOf (s.devAddr v.trig.vf x va)
      let words : List DWord := (List.range 4).map fun j => BitVec.ofNat 64 (leVal (s.window n t (off + 8 * j) 8))
      let token := if v.trig.kind = .msg ∧ !v.replied ∧ !v.forwarded then v.trig.token else none
      let q := ((s.touch x false).cache v.trig.vf va x).enqueue (s.homeSlice line)
        (msgTrigger line (lineOf va) v.trig.vf x.set 3 words token)
      q.2 = true → exec (.clnFwd rd rs1 rs2) s =
        .next (retiredNext s q.1 n { v.set rd 0 with forwarded := v.forwarded || v.trig.kind == .msg })) ∧
    (∀ rd rs1 rs2, let off := (v.get rs2).toNat
      (256 * t.dlen.toNat < off + 32 → exec (.clnFwd rd rs1 rs2) s = .next (s.abort n v 4)) ∧
      (off + 32 ≤ 256 * t.dlen.toNat → off % 8 ≠ 0 → exec (.clnFwd rd rs1 rs2) s = .next (s.abort n v 5)) ∧
      (off + 32 ≤ 256 * t.dlen.toNat → off % 8 = 0 → s.handlerXlate n v.trig.vf (v.get rs1).toNat = none →
        exec (.clnFwd rd rs1 rs2) s = .next (retiredNext s s n (v.set rd 1)))) ∧
    (∀ rs1, let off := (v.get rs1).toNat
      v.trig.kind = .msg → v.replied = false → v.forwarded = false → off + 24 ≤ 256 * t.dlen.toNat → off % 8 = 0 →
      exec (.clnRply rs1) s = .next (retiredNext s (s.replyTo v.trig.token 0 n (s.window n t off 24)) n { v with replied := true })) ∧
    (∀ rs1, (v.trig.kind ≠ .msg ∨ v.replied = true ∨ v.forwarded = true) → exec (.clnRply rs1) s = .next (s.abort n v 8)) ∧
    (∀ rd rs1 rs2, let v1 := { v with evqs := v.evqs + 1 }
      (4 ≤ v.evqs → exec (.clnEvq rd rs1 rs2) s = .next (retiredNext s s n (v1.set rd 1))) ∧
      (∀ s1, v.evqs < 4 → (s.fn v.trig.vf).terb ≠ 0 → (s.posts.any fun p => p.isFor v.trig.vf) = false →
        s.appendWaits v.trig.vf (s.fn v.trig.vf).terb.toNat = false →
        s.append v.trig.vf (s.fn v.trig.vf).terb.toNat (eventRecord 0 0 n v.trig.kind.code v.trig.set v.trig.va
          (v.get rs1).toNat (s.cyclesOf v) (v.get rs2).toNat) = some s1 →
        exec (.clnEvq rd rs1 rs2) s = .next (retiredNext s (s1.msix v.trig.vf 64) n (v1.set rd 0))))

/-- 07 R127 to R129. The RV64 base: registers, jumps, branches, loads and stores of the data window, counters and fences; a 16-bit
parcel moves the pc by 2, any other word by 4, and an access out of its window or misaligned aborts with nothing written. -/
def Obligations.CairnBase : Prop :=
  ∀ (s : State) (n : Nat) (v : Invoc) (short : Bool), runsCairn s n v →
    let t := s.invSlot n v
    let len : DWord := if short then 2 else 4
    let next (s' : State) (v' : Invoc) : State := retired s s' n v' (v'.pc + len)
    let run (i : RvInstr) := exec (.cairnBase i short) s
    (∀ rd imm, run (.lui rd imm) = .next (next s (v.set rd ((imm ++ (0 : BitVec 12) : BitVec 32).signExtend 64)))) ∧
    (∀ rd imm, run (.auipc rd imm) =
      .next (next s (v.set rd (v.pc + (imm ++ (0 : BitVec 12) : BitVec 32).signExtend 64)))) ∧
    (∀ rd off, run (.jal rd off) = .next (retired s s n (v.set rd (v.pc + len)) (v.pc + off.signExtend 64))) ∧
    (∀ rd rs1 imm, run (.jalr rd rs1 imm) =
      .next (retired s s n (v.set rd (v.pc + len)) ((v.get rs1 + imm.signExtend 64) &&& (~~~ 1#64)))) ∧
    (∀ op rs1 rs2 off, run (.branch op rs1 rs2 off) = .next (retired s s n v
      (if rvTaken op (v.get rs1) (v.get rs2) then v.pc + off.signExtend 64 else v.pc + len))) ∧
    (∀ op rd rs1 imm, run (.opImm op rd rs1 imm) = .next (next s (v.set rd (rvOpI op (v.get rs1) (imm.signExtend 64))))) ∧
    (∀ op rd rs1 sh, run (.shImm op rd rs1 sh) = .next (next s (v.set rd (rvShI op (v.get rs1) sh.toNat)))) ∧
    (∀ op rd rs1 rs2, run (.opReg op rd rs1 rs2) = .next (next s (v.set rd (rvOp op (v.get rs1) (v.get rs2))))) ∧
    (∀ op rd rs1 imm, let off := (v.get rs1 + imm.signExtend 64).toNat
      (off + rvLdBytes op ≤ 256 * t.dlen.toNat → off % rvLdBytes op = 0 → run (.load op rd rs1 imm) =
        .next (next s (v.set rd (rvLdValue op (leVal (s.window n t off (rvLdBytes op))))))) ∧
      (256 * t.dlen.toNat < off + rvLdBytes op → run (.load op rd rs1 imm) = .next (s.abort n v 4)) ∧
      (off + rvLdBytes op ≤ 256 * t.dlen.toNat → off % rvLdBytes op ≠ 0 → run (.load op rd rs1 imm) = .next (s.abort n v 5))) ∧
    (∀ op rs1 rs2 imm, let off := (v.get rs1 + imm.signExtend 64).toNat
      (off + rvStBytes op ≤ 256 * t.dlen.toNat → off % rvStBytes op = 0 → run (.store op rs1 rs2 imm) =
        .next (next (s.setWindow n t off (leBytes (rvStBytes op) (v.get rs2).toNat)) v)) ∧
      (256 * t.dlen.toNat < off + rvStBytes op → run (.store op rs1 rs2 imm) = .next (s.abort n v 4)) ∧
      (off + rvStBytes op ≤ 256 * t.dlen.toNat → off % rvStBytes op ≠ 0 → run (.store op rs1 rs2 imm) = .next (s.abort n v 5))) ∧
    (∀ p q x, run (.fence p q x) = .next (next s v)) ∧
    (∀ p q x, run (.fenceI p q x) = .next (next s v)) ∧
    (∀ csr op rd, run (.csrRead csr op rd) = .next (next s (v.set rd (s.rvCounter v csr))))

/-- 07 R127 (the RISC-V unprivileged specification's register-register operations). The 64-bit operations as arithmetic on the
operands' values; the word operations are those of the low 32 bits, sign-extended. -/
def Obligations.CairnArithmetic : Prop :=
  ∀ a b : DWord,
    (rvOp .add a b).toNat = (a.toNat + b.toNat) % 2 ^ 64 ∧
    ((rvOp .sub a b).toNat + b.toNat) % 2 ^ 64 = a.toNat ∧
    (rvOp .sll a b).toNat = a.toNat * 2 ^ (b.toNat % 64) % 2 ^ 64 ∧
    (rvOp .srl a b).toNat = a.toNat / 2 ^ (b.toNat % 64) ∧
    (rvOp .sra a b).toInt = a.toInt / 2 ^ (b.toNat % 64) ∧
    ((rvOp .slt a b).toNat = if a.toInt < b.toInt then 1 else 0) ∧
    ((rvOp .sltu a b).toNat = if a.toNat < b.toNat then 1 else 0) ∧
    (∀ i, (rvOp .xor a b).getLsbD i = (a.getLsbD i != b.getLsbD i)) ∧
    (∀ i, (rvOp .or a b).getLsbD i = (a.getLsbD i || b.getLsbD i)) ∧
    (∀ i, (rvOp .and a b).getLsbD i = (a.getLsbD i && b.getLsbD i)) ∧
    (rvOp .mulhu a b).toNat * 2 ^ 64 + (rvOp .mul a b).toNat = a.toNat * b.toNat ∧
    (rvOp .mulh a b).toInt * 2 ^ 64 + (rvOp .mul a b).toNat = a.toInt * b.toInt ∧
    (rvOp .mulhsu a b).toInt * 2 ^ 64 + (rvOp .mul a b).toNat = a.toInt * b.toNat ∧
    (b = 0 → rvOp .div a b = BitVec.allOnes 64 ∧ rvOp .divu a b = BitVec.allOnes 64 ∧ rvOp .rem a b = a ∧ rvOp .remu a b = a) ∧
    (b ≠ 0 → (rvOp .divu a b).toNat = a.toNat / b.toNat ∧ (rvOp .remu a b).toNat = a.toNat % b.toNat) ∧
    (b ≠ 0 → ¬(a.toInt = -2 ^ 63 ∧ b.toInt = -1) →
      (rvOp .div a b).toInt = a.toInt.tdiv b.toInt ∧ (rvOp .rem a b).toInt = a.toInt.tmod b.toInt) ∧
    (a.toInt = -2 ^ 63 ∧ b.toInt = -1 → rvOp .div a b = a ∧ rvOp .rem a b = 0) ∧
    (rvOp .addw a b = (a.extractLsb' 0 32 + b.extractLsb' 0 32).signExtend 64) ∧
    (rvOp .subw a b = (a.extractLsb' 0 32 - b.extractLsb' 0 32).signExtend 64) ∧
    (rvOp .mulw a b = (a.extractLsb' 0 32 * b.extractLsb' 0 32).signExtend 64) ∧
    (rvOpI .addiw a b = rvOp .addw a b)

namespace Sys2Proof.Ob

/-! ### The device's own steps -/

/-- A convoy on a cluster that is not being torn down. -/
def onIt (cv : Convoy) : Prop := cv.teardown = none ∧ (cv.st = .resident ∨ cv.st = .draining)

/-- A wave whose oldest store is over. -/
def popped (s : State) (id : WaveId) (w : Wave) : State := (s.setWave id { w with sq := w.sq.drop 1 }).unstall

/-- The slot named in a request of a core, if its fill goes to the main L1 (03 R59, R61). -/
def mainFill (s : State) (core line : Nat) : Prop :=
  ∃ m, ((s.core core).miss.find? fun m => m.line == line) = some m ∧ m.kind = .load

/-- A wave whose convoy has not stopped, or whose work of the steps before one of 20 R348 is over. -/
def unheld (s : State) (id : WaveId) (step : Nat) : Prop := s.holdsBack id.conv step = false

/-- A slot has reached its share of the present window: PERCENT of 65,536 cycles, 0 counting as 1, at most 100 (07 R140). -/
def shareUsed (s : State) (n i : Nat) (k : Slot) : Prop :=
  65536 * (if k.share.toNat = 0 then 1 else min k.share.toNat 100) / 100 ≤ s.slotUsed n i

/-- A wave's DOM operation is over, as its head reports it (04 R83). -/
def domOver (s : State) (id : WaveId) (i : Nat) : State :=
  (s.wave? id).elim s fun w => s.setDoms id (setAt w.doms i .done)

/-- Each message of a COLL to another live member has left by a port, and awaits its answer (22 R377, R381). -/
def allAsked (s : State) (id : WaveId) (w : Wave) (cv : Convoy) (o : CollOp') : Prop :=
  ∀ m ∈ s.collMsgs (waveKey id) cv.vf (dieOfCore w.core) o, s.flying m.1 ≠ 0

/-- The windows that an engine's operation takes are its context's there (20 R351). -/
def atHome (s : State) (cl e : Nat) (o : MOp) : Prop :=
  ∀ cv, (s.engine cl e).holder.bind s.convoy? = some cv → ∀ w ∈ (s.engine cl e).winsOf o.op, (s.engine cl e).ownerOf w = cv.ctxid

end Sys2Proof.Ob

/-- 04 R64, R65, 13 R245, 14 R256. STORE_DRAIN performs a wave's oldest store: scratchpad and convoy memory take its bytes, a DEVICE
store takes its places in its die's order, a PEER or HOST store leaves as a DOM operation; of an empty queue it does nothing. -/
def Sys2Proof.Ob.StoresPerformed : Prop :=
  ∀ (s : State) (id : WaveId) (w : Wave), s.wave? id = some w →
    (w.sq = [] → exec (.storeDrain id) s = .next s) ∧
    (∀ (e : SqEntry) (r : List SqEntry), w.sq = e :: r → e.kind = .store → unheld s id 3 →
      (e.space = .scratch → exec (.storeDrain id) s =
        .next ((e.lines.foldl (fun s l => s.writeScratch (crewKeyOf id) l) s).popStore id)) ∧
      (e.space = .convoy → exec (.storeDrain id) s =
        .next ((e.lines.foldl (fun s l => s.writeCmem id.conv l) s).popStore id)) ∧
      (∀ l va set, e.space = .device → e.lines = [l] → e.info = [(va, set)] → s.canWrite (dieOfCore w.core) l.line = true →
        s.memLost l.line = false →
        let s1 := (s.checkedLine l.line va e.fn set 0).devWrite (dieOfCore w.core) l (.wave w.core)
        ∀ w1, s1.wave? id = some w1 → exec (.storeDrain id) s = .next ((s1.setWave id
          { w1 with wrote := w1.wrote ++ if w1.wrote.contains l.line then [] else [l.line] }).popStore id)) ∧
      (e.space = .peer → exec (.storeDrain id) s =
        .next ((s.setWave id { w with sq := r, doms := w.doms ++ [.store e] }).unstall.sendMsgs id)) ∧
      (e.space = .host → exec (.storeDrain id) s = .next ((s.setWave id { w with sq := r, doms := w.doms ++ [.store e] }).unstall.leaveHost
        (dieOfCore w.core) (waveKey id))))

/-- 03 R52, R58 to R60, 04 R66, R85, R86, 02 R44. Lines that arrive at a stash or an assay cache, an L1 lease, the lease clock and a
remote die's application of a write. -/
def Sys2Proof.Ob.LineArrivals : Prop :=
  ∀ s : State,
    (∀ (conv crew line : Nat) (c : Crew) (n : Nat) (b : Bind) (o : Nat), line % 64 = 0 → s.crew? (8 * conv + crew) = some c →
      c.fillingAt line = some (n, b, o) → (s.lineDir line).pinned = false → s.memHeld line = false →
      (s.pkg.any fun p => p.write.line == line) = false →
      (∀ k, (s.lineDir line).owner = some k → s.canRecall line = true → exec (.stashFillArrival conv crew line) s = .next (s.giveBack line)) ∧
      ((s.lineDir line).owner = none → ∃ t, exec (.stashFillArrival conv crew line) s = .next t ∧
        (t.lineDir line).owner = some (8 * conv + crew))) ∧
    (∀ (core line : Nat) (bad : Bool) (v : Option Nat), line % 64 = 0 →
      ((s.core core).fills.find? fun f => f.1 = line) = some (line, bad) →
      let held := v.elim (s.core core).assay fun v => (s.core core).assay.filter (· != lineOf v)
      let kept := if held.length < 1024 then held else held.drop 1
      exec (.assayFillArrival core line (v.map Victim.assay)) s = .next (s.setCore core { s.core core with
        fills := (s.core core).fills.filter fun f => f.1 != line
        assay := if bad || kept.contains line then kept else kept ++ [line] }).unstall) ∧
    (∀ core line, line % 64 = 0 → (s.lineDir line).pinned = false → s.memHeld line = false → mainFill s core line →
      let x := s.lineDir line
      let k := s.core core
      max x.wts.toNat k.tick.toNat + k.lease.toNat < 0xF0000 → ∃ t, exec (.leaseFill core line) s = .next t ∧
        (t.core core).tick.toNat = max k.tick.toNat x.wts.toNat ∧
        (t.lineDir line).rts.toNat = max x.rts.toNat (max k.tick.toNat x.wts.toNat + k.lease.toNat) ∧
        (t.core core).miss = k.miss.filter (fun m => m.line != line) ∧
        (k.lease ≠ 0 → ∃ y ∈ (t.core core).l1, y.line = line ∧ y.rts = (t.lineDir line).rts)) ∧
    (∀ die, exec (.tickRebase die) s = .next (s.rebase die)) ∧
    (s.fab < 256 * (s.leases + 1) → exec .leaseStep s = .next s) ∧
    (256 * (s.leases + 1) ≤ s.fab → (∀ c, c < 256 → (s.core c).tick.toNat + 1 < 0xF0000) → ∃ t, exec .leaseStep s = .next t ∧ t.dir = s.dir ∧ t.waves = s.waves ∧ t.leases = s.leases + 1 ∧
      ∀ c, c < 256 → (t.core c).tick = (s.core c).tick + 1 ∧ (t.core c).l1 = (s.core c).l1) ∧
    (∀ d i, s.canApply i d = true → exec (.remoteWriteApply d i) s = .next (s.remoteApply i d).unstall) ∧
    (∀ d i, s.canApply i d = false → exec (.remoteWriteApply d i) s = .next s)

/-- 04 R72 to R76, 22 R372, R377 to R379. Requests and answers from outside: a PEER read, write or atomic is performed at its line's home
where it is accepted, and its answer falls due; an answer reaches the line of the access that waits for it; the oldest HOST write of a die
becomes visible, times out or is refused; a PEER store's line is written, or is refused, or its port fails it. -/
def Sys2Proof.Ob.FarAnswersArrive : Prop :=
  ∀ s : State,
    (∀ (r : PeerReq) (pa : Nat) (data : List Byte) (tag : Tag), s.peerTarget r = some pa → s.memLost pa = false →
      r.op = .write data tag → data ≠ [] → pa % 64 + data.length ≤ 64 → s.canWrite (homeDie pa) (lineOf pa) = true →
      exec (.peerRequestArrival r) s = .next
        ((s.devWrite (homeDie pa) (lineWrite pa data (some tag)) .peer).owe r (homeDie pa) (some (lineOf pa)) .ok [])) ∧
    (∀ (r : PeerReq) (pa : Nat) (op : AOp) (ty : BitVec 2) (b c : DWord), s.peerTarget r = some pa → s.memLost pa = false →
      r.op = .atomic op ty b c → pa % atomBytes op ty = 0 → s.canWrite (homeDie pa) (lineOf pa) = true →
      let old := s.devVal (homeDie pa) pa (atomBytes op ty)
      exec (.peerRequestArrival r) s = .next ((s.devWrite (homeDie pa) (lineWrite pa (leBytes (atomBytes op ty)
        (atomNew op ty old b.toNat c.toNat)) none) .peer).owe r (homeDie pa) (some (lineOf pa)) .ok (leBytes (atomBytes op ty) old))) ∧
    (∀ (r : PeerReq) (pa n : Nat) (t : State) (b : List Byte) (tag : Tag), s.peerTarget r = some pa → s.memLost pa = false →
      r.op = .read n → s.readDevice (homeDie pa) (lineOf pa) = .line t b tag →
      exec (.peerRequestArrival r) s = .next (t.owe r (homeDie pa) none .ok ((b.drop (pa % 64)).take n))) ∧
    (∀ r : PeerReq, s.peerTarget r = none → exec (.peerRequestArrival r) s = .next (s.owe r 0 none .unsupported [])) ∧
    (∀ (id : WaveId) (w : Wave) (cv : Convoy) (f : FarReq) (st : FarStatus) (line cls : Nat) (r : List (Nat × Nat)),
      s.wave? id = some w → s.convoy? id.conv = some cv → w.far = some f → f.lines = (line, cls) :: r → f.behind = 0 →
      let u := s.landed (.request (waveKey id) line)
      let l := u.farLine cv.vf cls line
      let v := if st = .ok ∧ f.atomic = false then u.keepCopy (dieOfCore w.core) cv.vf cls line l else u
      let t (st : FarStatus) (v : State) : State := v.draw.setWave id { w with stall := false, far := some { f with
        lines := r, got := f.got ++ [{ line := line, status := st, bytes := l.1, tag := l.2 }] } }
      (f.space = .peer → s.flying (.request (waveKey id) line) ≠ 0 → exec (.peerResponse id st) s = .next (t st v)) ∧
      (f.space = .host → exec (.hostCompletion id st) s = .next (t st v) ∧
        exec (.hostCompletionTimeout id) s = .next (t .linkDown u))) ∧
    (∀ (id : WaveId) (w : Wave) (i : Nat) (e : SqEntry), s.wave? id = some w → w.far = none → unheld s id 4 →
      (s.die (dieOfCore w.core)).hostOut.head? = some (waveKey id) → hostNext w.doms = some (i, .store e) →
      let u := s.hostOver (dieOfCore w.core) 0
      let t := u.setDoms id (setAt w.doms i .done)
      let va : BitVec 57 := BitVec.ofNat 57 (e.info.headD (0, 0)).1
      exec (.hostCompletion id .ok) s = .next (State.setDoms { u with
        hostMem := e.lines.foldl (fun m l => l.bytes.foldl (fun m p => m.write (l.line + p.1) p.2) m) u.hostMem } id
        (setAt w.doms i .done)) ∧
      exec (.hostCompletionTimeout id) s = .next (t.reportLate (waveKey id) e.hnd { cause := cMemerr 7 2, faddr := va }) ∧
      exec (.hostWriteRefused id) s = .next (t.reportLate (waveKey id) e.hnd { cause := cTranslate 5 7, faddr := va })) ∧
    (∀ (id : WaveId) (w : Wave) (e : SqEntry) (x : LineWrite) (va set : Nat), s.wave? id = some w → w.far = none →
      unheld s id 4 → w.doms = [.store e] → e.space = .peer → e.lines = [x] → e.info = [(va, set)] →
      s.pageFirst (waveKey id) x.line = true →
      let u := s.draw.landed (.write (waveKey id) x.line)
      (u.boundFn e.fn (x.line / 2 ^ 44 % 256)).isSome = true →
      exec (.peerResponse id .ok) s = .next ((u.writePeer e.fn x).setDoms id [.done]) ∧
      exec (.peerResponse id .unsupported) s = .next ((u.setDoms id [.done]).reportLate (waveKey id) e.hnd
        { cause := cTranslate 4 7, faddr := BitVec.ofNat 57 va }) ∧
      exec (.peerResponse id .linkDown) s = .next ((u.setDoms id [.done]).reportLate (waveKey id) e.hnd
        { cause := cMemerr 7 2, faddr := BitVec.ofNat 57 va })) ∧
    (∀ (id : WaveId) (w : Wave), s.wave? id = some w → w.far = none → unheld s id 4 → w.doms = [.atomic .peer] →
      ∀ st, exec (.peerResponse id st) s = .next (s.draw.setDoms id [.done]))

/-- 14 R278 to R280, 04 R82, 19 R331. COPY_COMPLETE writes one line of a copy: the destination's bytes are the converted source lines'; a
line that cannot be read or written ends the copy with its cause and its own address, and the fifth failed attempt with ASSAY/COPY. -/
def Sys2Proof.Ob.CopyLines : Prop :=
  ∀ (s : State) (id : WaveId) (w : Wave) (cv : Convoy) (op : CopyOp) (r l crew fails : Nat) (rd wr : FarStatus)
    (rest : List (Nat × Nat × Nat)),
    s.wave? id = some w → s.convoy? id.conv = some cv → w.copies = [op] → op.left = (r, l, crew) :: rest →
    let s0 := s.countCopy (clusterOfCore w.core) fails
    let at_ := op.dst + r * op.dstStride + 64 * l
    let from_ := op.src + r * op.srcStride + srcSpan op.cv * l
    let lines := (List.range (srcSpan op.cv / 64)).map fun n => from_ + 64 * n
    (5 ≤ fails → exec (.copyComplete id 0 ⟨fails, rd, wr⟩) s = .next (s0.copyFails id 0 { cause := cAssay 2, faddr := BitVec.ofNat 57 at_ }) ∧
      (s0.cluster (clusterOfCore w.core)).prst = upTo (s.cluster (clusterOfCore w.core)).prst 1) ∧
    (∀ (s1 s2 : State) (src_ : List (List Byte × Tag)) (w2 : Wave), fails < 5 → State.copyReads id w cv.vf op rd s0 lines = .ok (s1, src_) →
      s1.copyWrite id w cv.vf op wr crew at_ (convertLine op.cv src_).1 (convertLine op.cv src_).2 = .done s2 → s2.wave? id = some w2 →
      w2.copies = [op] →
      exec (.copyComplete id 0 ⟨fails, rd, wr⟩) s = .next (s2.setCopies id [{ op with left := rest }])) ∧
    (∀ (s1 : State) (cause : BitVec 10) (va : Nat), fails < 5 → State.copyReads id w cv.vf op rd s0 lines = .error (.bad s1 cause, va) →
      exec (.copyComplete id 0 ⟨fails, rd, wr⟩) s = .next (s1.copyFails id 0 { cause := cause, faddr := BitVec.ofNat 57 va })) ∧
    (∀ (s1 s2 : State) (src_ : List (List Byte × Tag)) (cause : BitVec 10), fails < 5 →
      State.copyReads id w cv.vf op rd s0 lines = .ok (s1, src_) →
      s1.copyWrite id w cv.vf op wr crew at_ (convertLine op.cv src_).1 (convertLine op.cv src_).2 = .bad s2 cause →
      exec (.copyComplete id 0 ⟨fails, rd, wr⟩) s = .next (s2.copyFails id 0 { cause := cause, faddr := BitVec.ofNat 57 at_ }))

/-- 06 R118 to R120, R126, 05 R101 to R105, R110, R111. The oldest operation of an engine: a Gravel operation leaves its streams and its
GRV, after five failed attempts with a free mixture of old and new bits and a late fault; one that reads an uncorrectable register writes
nothing. MRING and MZERO complete at once, MZERO with its windows zero; MCMT takes over or drops its group's shadows. -/
def Sys2Proof.Ob.EngineOperations : Prop :=
  ∀ (s : State) (cl : Nat),
    (∀ (o : Machine.GOp) (r : List Machine.GOp) (fails : Nat), (s.cluster cl).gravel.ops = o :: r → unheld s (waveOfKey o.wave) 4 →
      let g := (s.cluster cl).gravel
      let s0 := s.countGravel cl fails
      ((∃ x ∈ o.op.reads, x ∈ g.bad) → exec (.gravelOpComplete cl fails) s = .next
        ((s.gravelPop cl o id).reportLate o.wave o.hnd { cause := cMemerr 6 0, faddr := 0 })) ∧
      ((∀ x ∈ o.op.reads, x ∉ g.bad) →
        (∀ (gd : Nat) (l : List Nat), g.result o.op = some (gd, l) →
          (fails < 5 → exec (.gravelOpComplete cl fails) s = .next (s0.gravelPop cl o fun g => g.setBits gd l)) ∧
          (5 ≤ fails → exec (.gravelOpComplete cl fails) s = .next
            ((s0.gravelPop cl o fun g => g.setBits gd (mixBits s0.free (g.bitsOf gd) l)).draw.reportLate o.wave o.hnd
              { cause := cAssay 1, faddr := 0 }))) ∧
        (∀ cls v, o.op = .seed cls v → fails < 5 →
          exec (.gravelOpComplete cl fails) s = .next (s0.gravelPop cl o fun g => g.seed cls v)) ∧
        (∀ gd lines t l q, o.op = .ld gd lines → fails < 5 → State.readLines (cl / 8) s0 (lines.map Prod.fst) = .ok (t, l) →
          (∀ x ∈ l, fmtOf x.2 = 0x10) → imageReg (t.cluster cl).gravel.len (l.map Prod.fst).flatten = some (some q) →
          exec (.gravelOpComplete cl fails) s = .next (t.gravelPop cl o fun g =>
            { g with g := ins g.g gd q, bad := (t.cluster cl).gravel.bad.filter (· != gd) })) ∧
        (∀ gs m sh x lines, o.op = .st gs m sh x lines → fails < 5 → (∀ p ∈ lines, s0.memLost p.1 = false) →
          (∀ p ∈ lines, s0.canWrite (cl / 8) p.1 = true) →
          let b := streamBytes (s0.cluster cl).gravel.len ((s0.cluster cl).gravel.bitsOf gs) ++
            tagRecord m sh x false (s0.cluster cl).gravel.len
          exec (.gravelOpComplete cl fails) s = .next (State.gravelPop (lines.zipIdx.foldl (fun (s : State) p =>
            s.devWrite (cl / 8) (lineWrite p.1.1 ((b.drop (64 * p.2)).take 64) (some 0x1000)) .gravel) s0) cl o id)))) ∧
    (∀ (e : Nat) (o : MOp) (r : List MOp), (s.engine cl e).ops = o :: r → (s.engine cl e).tile = none →
      unheld s (waveOfKey o.wave) 5 → atHome s cl e o →
      (o.op = .mring → exec (.matrixOpComplete cl e) s = .next (s.matrixDone cl e o r)) ∧
      (∀ w0 n, o.op = .mzero w0 n → exec (.matrixOpComplete cl e) s = .next ((s.setEngine cl e { s.engine cl e with
        win := (s.engine cl e).win.filter fun p => p.1 < 4096 * w0 || 4096 * (w0 + n) ≤ p.1
        winBad := (s.engine cl e).winBad.filter fun b => b < 4096 * w0 || 4096 * (w0 + n) ≤ b }).matrixDone cl e o r)) ∧
      (∀ g, o.op = .mcmt g false → exec (.matrixOpComplete cl e) s =
        .next ((s.setEngine cl e ((s.engine cl e).freeGroup g)).matrixDone cl e o r)) ∧
      (∀ g, o.op = .mcmt g true → (s.engine cl e).groupFault g = none → exec (.matrixOpComplete cl e) s =
        .next ((s.setEngine cl e (((s.engine cl e).commitGroup g).freeGroup g)).matrixDone cl e o r)) ∧
      (∀ g f, o.op = .mcmt g true → (s.engine cl e).groupFault g = some f → exec (.matrixOpComplete cl e) s =
        .next (((s.setEngine cl e (((s.engine cl e).commitGroup g).freeGroup g)).matrixDone cl e o r).reportLate o.wave o.hnd f)) ∧
      (∀ q : Mma, o.op = .mma q → passesOf q.cls ≤ q.pass → exec (.matrixOpComplete cl e) s = .next (s.matrixDone cl e o r)) ∧
      (∀ q : Mma, o.op = .mma q → q.pass < passesOf q.cls → exec (.matrixOpComplete cl e) s = .next s))

/-- 05 R98 to R100, R109, R110. MATRIX_KBLOCK of an MMA whose ring entries are performed: the accumulators take the K-block for its rows,
the entries are freed after the last K-block of their rows, and the operation goes on at the next block; a block that faults, or that
persists in failing its check, ends the MMA. -/
def Sys2Proof.Ob.MatrixBlocks : Prop :=
  ∀ (s : State) (cl e k rows fails : Nat) (tries : List KTry) (o : MOp) (rest : List MOp) (r : Machine.Ring) (q : Mma) (y : Engine)
    (l : List (KOp × List Tag)),
    (s.engine cl e).ops = o :: rest → (s.engine cl e).ring = some r → (s.engine cl e).holder = some k → (s.engine cl e).tile = none →
    o.op = .mma q → q.pass < passesOf q.cls → s.holdsBack k 5 = false → atHome s cl e o →
    let n := q.rowsNext r rows
    n ≠ 0 → s.ringRows k r q (List.range n) = (l, none) →
    let x := q.sh.elim (s.engine cl e) fun g => (s.engine cl e).openShadows g (coveredWins q.cls q.w0 q.m)
    (x.kblock q l tries = (fails, y, none) →
      let last := kblocksOf q.cls ≤ q.kb + 1
      let t : Mma := if ¬last then { q with kb := q.kb + 1, grp := n }
        else if q.row + n < q.m then { q with row := q.row + n, kb := 0, grp := 0 }
        else { q with pass := q.pass + 1, row := 0, kb := 0, grp := 0 }
      let ring : Machine.Ring :=
        if last then { r with head := r.head + n, free := r.free + n, ready := r.ready.filter (r.head + n ≤ ·) } else r
      let u := (s.countMatrix cl fails).setEngine cl e { y with ops := { o with op := .mma t } :: rest, ring := some ring }
      exec (.matrixKblock cl e ⟨rows, tries⟩) s = .next (if last then (u.wakeRing k e).unstall else u)) ∧
    (∀ c, x.kblock q l tries = (fails, y, some c) → exec (.matrixKblock cl e ⟨rows, tries⟩) s =
      .next (((s.countMatrix cl fails).setEngine cl e y).mmaFails cl e o q.sh { cause := c, faddr := 0 }))

/-- 05 R107, R108, 18 R317. Tile tasks: the oldest released task goes to the lowest free engine, with its windows taken; a task that
retires writes C, raises DONE in its turn and marks its tile; one that faults leaves its engine, and its grid fails with a record. -/
def Sys2Proof.Ob.TileSteps : Prop :=
  ∀ (s : State) (cl : Nat),
    (∀ (t : TileTask) (r : List TileTask) (e : Nat) (u v : State), (s.cluster cl).tileReady = t :: r → e < 4 →
      s.engineFree cl e = true → (s.engine cl e).tile = none →
      (∀ j, j < e → s.engineFree cl j = false ∨ (s.engine cl j).tile ≠ none) →
      s.slateRoom cl e = some u → u.takeWindows cl e t.ctx (coveredWins t.cls 0 t.m) = some (v, none) →
      exec (.tileTaskRelease cl) s = .next (((v.setCluster cl { v.cluster cl with tileReady := r }).setEngine cl e
        { (v.setCluster cl { v.cluster cl with tileReady := r }).engine cl e with tile := some t }).wakeTiles cl).unstall) ∧
    (∀ (e : Nat) (t : TileTask) (r : TileOut), (s.engine cl e).tile = some t → t.stored = false →
      s.tileResult cl e t (fun _ => []) = .ok r → r.fault = none →
      let u := (r.fails.foldl (fun s n => s.countMatrix cl n) r.s).setEngine cl e r.x
      u.tileBad cl t (r.out.map Prod.fst) = none → (∀ va ∈ r.out.map Prod.fst, u.tileMay cl t va = true) →
      let v := State.tilePut u cl t u r.out
      exec (.tileTaskRetire cl ⟨e, []⟩) s = .next (if t.done = 0 then v.tileLeave cl e t
        else v.setEngine cl e { v.engine cl e with tile := some { t with stored := true } })) ∧
    (∀ (e : Nat) (t : TileTask) (x : Xlat) (pa : Nat), (s.engine cl e).tile = some t → t.stored = true →
      s.tileAdr cl t .engWrite t.done = .ok (x, pa) → s.memLost pa = false → s.touchable x true = true → s.untouched x true = false →
      s.atomReady (cl / 8) (lineOf pa) false = true →
      let v := (s.touch x true).cache (vfOf t.ctx) t.done x
      exec (.tileTaskRetire cl ⟨e, []⟩) s = .next ((v.writeFrom (homeDie pa) (cl / 8)
        (lineWrite pa (leBytes 4 (v.devVal (homeDie pa) pa 4 + 1)) none) .matrix).tileLeave cl e t)) ∧
    (∀ (e : Nat) (t : TileTask), (s.engine cl e).tile = some t →
      ((s.tileLeave cl e t).engine cl e).tile = none ∧
      (lookD ((s.tileLeave cl e t).cluster cl).boards t.ctx.toNat Board.fresh).retired =
        (lookD (s.cluster cl).boards t.ctx.toNat Board.fresh).retired ++ [(t.x, t.y)]) ∧
    (∀ (t : TileTask) (u : State) (va : Nat) (b : List Byte) (x : Xlat) (pa : Nat), s.tileAdr cl t .engWrite va = .ok (x, pa) →
      State.tilePut s cl t u [(va, b)] = (((u.touch x true).cache (vfOf t.ctx) va x).checkedLine pa va (vfOf t.ctx) x.set 1).devWrite
        (cl / 8) (lineWrite pa b (some (if t.cls = .d64 then 0x0600 else 0x0500))) .matrix) ∧
    (∀ (e : Nat) (t : TileTask) (f : LateF) (u : State), (s.engine cl e).tile = some t → s.tileFault cl e t f = some u →
      (f.cause = cAssay 0 → exec (.tileTaskFault cl e f.cause f.faddr) s = .next u) ∧
      (t.stored = true → s.tileBad cl t [t.done] = some f → exec (.tileTaskRetire cl ⟨e, []⟩) s = .next u)) ∧
    (∀ (e : Nat) (t : TileTask) (f : LateF) (g : Grid), (s.engine cl e).tile = some t → s.grid? t.grid = some g →
      g.noRecord = true → s.tileFault cl e t f =
        some (((s.setEngine cl e { s.engine cl e with tile := none }).unstall).failGrid t.grid f t.conv))

/-- 14 R284, R286, 22 R381, 04 R83, 19 R328, R329. A collective that its members agree on writes its result and is over; one that they
disagree on ends with QUEUE/COLL-MISMATCH, and a .BCAST without its root with QUEUE/GROUP; a message whose home slice has room joins
its queue; a late fault is held until the wave is at kernel level, and then taken. -/
def Sys2Proof.Ob.WaveReports : Prop :=
  ∀ (s : State) (id : WaveId) (w : Wave) (cv : Convoy), s.wave? id = some w → s.convoy? id.conv = some cv →
    (∀ (o : CollOp') (h : Bool) (r : List DomOp) (data : List (List Byte)), w.doms = .coll o h :: r → allAsked s id w cv o →
      let d := dieOfCore w.core
      let mem := s.members cv.vf d o.table
      let self := (s.tableVal cv.vf d o.table 6 2).getD 0
      (exec (.collComplete id data false) s = .next ((domOver (s.collOver (waveKey id) o) id 0).reportLate (waveKey id) h
        { cause := cQueue 7, faddr := 0 })) ∧
      (o.op = .bcast → (∀ m ∈ mem, m.1 ≠ o.root) → exec (.collComplete id data true) s =
        .next ((domOver (s.collOver (waveKey id) o) id 0).reportLate (waveKey id) h { cause := cQueue 6, faddr := 0 })) ∧
      (∀ (src_ dst_ : List (Nat × Xlat × Nat)) (own : List (List Byte × Tag)) (t : State),
        (o.op = .bcast → ∃ m ∈ mem, m.1 = o.root) →
        s.collLines cv.vf d h .engRead o.src (if o.op = .rsum then mem.length * o.n else o.n) = .ok src_ →
        s.collLines cv.vf d h .engWrite o.dst (if o.op = .gath then mem.length * o.n else o.n) = .ok dst_ →
        State.readLines d s (src_.map fun p => p.2.2) = .ok (t, own) →
        (∀ p ∈ src_, t.touchable p.2.1 false = true) →
        (∀ p ∈ dst_, t.memLost p.2.2 = false ∧ t.touchable p.2.1 true = true ∧ t.canWrite d p.2.2 = true) →
        let of (m : Nat × Nat × Nat) : List Byte := if m.1 = self then own.flatMap Prod.fst else data[m.1]?.getD []
        let free (k : Nat) : Nat := Config.free (t.freeCtr + k)
        let out : List Byte := match o.op with
          | .bcast => (mem.find? fun m => m.1 == o.root).elim [] of
          | .gath => mem.flatMap fun m => (of m).take o.n
          | .rsum => collBytes o free (mem.map of) ((mem.findIdx? fun m => m.1 == self).getD 0 * o.n) o.n
          | .sum | .max | .min | .mean => collBytes o free (mem.map of) 0 o.n
        exec (.collComplete id data true) s = .next (domOver (State.collOver
          (State.collWrite { t with freeCtr := t.freeCtr + o.n } cv.vf d (CollTy.tag o.ty) src_ dst_ out) (waveKey id) o) id 0))) ∧
    (∀ (o : CollOp') (h : Bool) (r : List DomOp) (data : List (List Byte)) (agree : Bool), w.doms = .coll o h :: r →
      ¬allAsked s id w cv o → exec (.collComplete id data agree) s = .next s) ∧
    (∀ (m : MsgOp), w.msgs = [m] → m.done = false → unheld s id 4 → (s.slice (s.homeSlice m.pa)).queue.length < 64 →
      let q := s.draw.enqueue (s.homeSlice m.pa) (msgTrigger m.pa m.va cv.vf m.set 0 m.words (some (crewKeyOf id)))
      ∀ w1, q.1.wave? id = some w1 → exec (.messageAccepted id) s =
        .next (q.1.setWave id { w1 with msgs := [], cMsg := w1.cMsg - 1 }).unstall) ∧
    (∀ (m : MsgOp), w.msgs = [m] → 64 ≤ (s.slice (s.homeSlice m.pa)).queue.length → exec (.messageAccepted id) s = .next s) ∧
    (∀ (f : LateF) (x : BitVec 10) (a : BitVec 57), w.late = some f → w.level = .kernel → (s.ctx id).isSome = true →
      exec (.lateFault id x a) s = .next (s.takeLate id w cv f)) ∧
    (∀ (x : BitVec 10) (a : BitVec 57), w.late = none → x.toNat / 64 ≠ 12 → x.toNat / 64 ≠ 13 →
      exec (.lateFault id x a) s = .next s)

/-- 07 R132, R133, R136, R139, R140, R143. The steps of an L2 slice: a forwarded message whose page has lost its translation is answered
with status 5; a trigger without a handler set takes its default action; a handler present is entered at its entry with its own budget; an invocation that reaches its budget or its slot's share is aborted; a new
window clears what every slot has used; a requested line is installed; a slot's code is loaded within its bounds. -/
def Obligations.CairnSteps : Prop :=
  ∀ (s : State) (n : Nat),
    (∀ (t : Trigger) (r : List Trigger), (s.slice n).inv = none → (s.slice n).queue = t :: r →
      let s1 := (s.setSlice n { s.slice n with queue := r }).unstall
      (t.kind = .msg → t.src = 3 → s1.handlerXlate n t.vf t.va = none →
        exec (.handlerInvocation n) s = .next (s1.replyTo t.token 5 n [])) ∧
      (t.set = 0 → s1.trigLost n t = false → exec (.handlerInvocation n) s = .next
        (let s2 := s1.defaultAction t
         if t.kind = .msg then s2.replyTo t.token 2 n [] else s2)) ∧
      (∀ (i : Nat) (k : Slot), t.set ≠ 0 → s1.trigLost n t = false → (s.slice n).slotOf t.vf = some i →
        (s.slice n).slots[i]? = some k →
        (shareUsed s1 n i k → exec (.handlerInvocation n) s = .next (s1.trigUnshared n i t)) ∧
        (∀ (desc : List Byte) (e : Nat), ¬shareUsed s1 n i k → s1.setDesc n t.vf t.set = some desc → entryOf desc t.kind = some e →
          ∃ u, exec (.handlerInvocation n) s = .next u ∧ ∃ v, (u.slice n).inv = some v ∧
            v.slot = i ∧ v.trig = t ∧ v.pc = BitVec.ofNat 64 e ∧ v.budget = budgetOf (fieldOf desc 0x10 2) ∧ v.start = s.fab))) ∧
    (∀ v : Invoc, (s.slice n).inv = some v →
      (v.budget ≤ s.fab - v.start → exec (.cairnBudgetExpiry n) s = .next (s.abort n v 0)) ∧
      (s.fab - v.start < v.budget → exec (.cairnBudgetExpiry n) s = .next s) ∧
      (∀ k : Slot, (s.slice n).slots[v.slot]? = some k → shareUsed s n v.slot k → exec (.cairnShareExhausted n v.slot) s =
        .next ((s.setSlice n { s.slice n with
          slots := setAt (s.slice n).slots v.slot { k with spent := true } }).abort n v 1))) ∧
    (65536 * (s.windows + 1) ≤ s.fab → exec .cairnShareWindow s = .next { s with windows := s.windows + 1, slices := s.slices.map fun p =>
      (p.1, { p.2 with slots := p.2.slots.map fun k => { k with used := 0, spent := false } }) }) ∧
    (s.fab < 65536 * (s.windows + 1) → exec .cairnShareWindow s = .next s) ∧
    (∀ (i : Nat) (r : CairnReq), (s.slice n).reqs[i]? = some r → s.memHeld r.line = false →
      let s1 := s.setSlice n { s.slice n with reqs := dropAt (s.slice n).reqs i }
      ((s1.lineDir r.line).present = false → exec (.cairnRequestFill n i) s =
        .next (s1.install r.line r.va r.vf r.set (r.hops + 1) 3 (r.chain && decide (r.hops < 15)))) ∧
      ((s1.lineDir r.line).present = true → exec (.cairnRequestFill n i) s = .next s1)) ∧
    (∀ (i : Nat) (k : Slot), (s.slice n).slots[i]? = some k →
      (∀ code : List Byte, exec (.handlerCodeLoad n i (.load code)) s = .next (s.setSlice n { s.slice n with
        code := (code.take (256 * k.clen.toNat)).zipIdx.foldl (fun m p => put 0 m (256 * k.cbase.toNat + p.2) p.1) (s.slice n).code
        slots := setAt (s.slice n).slots i { k with dead := false } })) ∧
      ((s.slice n).inv = none → exec (.handlerCodeLoad n i .uncorrectable) s =
        .next (s.setSlice n { s.slice n with slots := setAt (s.slice n).slots i { k with dead := true } })) ∧
      (∀ v, (s.slice n).inv = some v → v.slot = i → exec (.handlerCodeLoad n i .differ) s = .next (s.abort n v 9)))

/-- 01 R28 to R31, 18 R324, R326. A parked wave is woken, and evaluates its condition again in its next turn; the spin detector parks a
wave whose loop has repeated 4,096 times, and its record wakes. -/
def Sys2Proof.Ob.WakeAndSpin : Prop :=
  ∀ (s : State) (id : WaveId) (c : Ctx), s.ctx id = some c →
    (c.w.wait.isSome = true → c.w.woken = true →
      exec (.wakeReevaluate id) s = .next { s with agenda := .wave id :: s.agenda }) ∧
    (c.w.wait.isSome = true → exec (.wakeWithoutEvent id) s = .next (s.setWave id { c.w with woken := true })) ∧
    (c.w.wait = none → exec (.wakeWithoutEvent id) s = .next s ∧ exec (.wakeReevaluate id) s = .next s) ∧
    (4096 ≤ c.w.spinCount → c.w.wait = none → exec (.spinDetect id) s = .next (s.setWave id
      { c.w with wait := some (.spin (lastLines c.w.spinPrev)), woken := false, spinCount := 0 })) ∧
    (c.w.spinCount < 4096 → exec (.spinDetect id) s = .next s) ∧
    (∀ l, c.w.wait = some (.spin l) → exec (.spinTimeout id) s = .next (s.setWave id { c.w with woken := true }))

/-- 01 R25 to R27, 18 R316, R321. Where a task grid's wave is the next placement, up to 32 tasks of one entry become a convoy of one wave on
its cluster; an aged task goes first; a wave that has ended and whose work is over retires. -/
def Sys2Proof.Ob.TaskSteps : Prop :=
  ∀ (s : State) (gid cl : Nat) (g : Grid), s.grid? gid = some g →
    (∀ (cores : List Nat) (slot : Nat) (e : DWord) (u : State), s.nextPlacement = some (.tasks gid, cl, cores) →
      s.freeSlot g.vf g.q = some slot → s.pickEntry g.tasks = some e →
      let q := gatherTasks e 32 g.tasks
      State.startConvoy (s.setGrid gid { g with tasks := q.2, placed := g.placed + 1, blocking := false }) gid g g.placed cl slot 0 cores e
        (lanesFrom (List.range q.1.length)) q.1 = some u →
      let t := ((u.taskRoom g.vf g.tdesc).serve g).draw
      exec (.taskWaveDispatch gid cl) s = .next t ∧ exec (.taskGatherTimeout gid cl) s = .next t) ∧
    ((∀ cores, s.nextPlacement ≠ some (.tasks gid, cl, cores)) → exec (.taskWaveDispatch gid cl) s = .next s ∧
      exec (.taskGatherTimeout gid cl) s = .next s) ∧
    (∀ (a b : List TaskRec) (t : TaskRec), g.tasks = a ++ t :: b → (a.all TaskRec.aged) = true → t.aged = false →
      exec (.taskAging gid cl) s = .next (s.setGrid gid { g with tasks := a ++ { t with aged := true } :: b })) ∧
    (∀ (id : WaveId) (w : Wave) (cv : Convoy), s.wave? id = some w → s.convoy? id.conv = some cv → w.ended = true →
      w.drained = false → cv.st = .resident → s.drainedOf id w = true → g.taskgrid = false → cv.grid = gid →
      (∃ p ∈ s.wavesOf id.conv, p.1 ≠ waveKey id ∧ p.2.drained = false ∧ (waveOfKey p.1).crew = id.crew) →
      exec (.retirementDrainDone id) s = .next (s.setWave id { w with drained := true }).unstall) ∧
    (∀ (id : WaveId) (w : Wave) (cv : Convoy) (u v : State), s.wave? id = some w → s.convoy? id.conv = some cv → w.ended = true →
      w.drained = false → cv.st = .resident → s.drainedOf id w = true → cv.grid = gid →
      (∀ p ∈ s.wavesOf id.conv, p.1 = waveKey id ∨ p.2.drained = true) → s.emptyStash (crewKeyOf id) = some u →
      (u.setWave id { w with drained := true }).tasksRetired gid w.tasks.length = some v →
      ∀ t, v.retireConvoy id.conv = some t → exec (.retirementDrainDone id) s = .next t) ∧
    (∀ (id : WaveId) (w : Wave) (cv : Convoy), s.wave? id = some w → s.convoy? id.conv = some cv → w.ended = false →
      exec (.retirementDrainDone id) s = .next s)

namespace Sys2Proof.Ob

/-- A grid with nothing of it left to run: no convoy, and of a task grid no task (18 R314). -/
def overGrid (s : State) (gid : Nat) (g : Grid) : Prop :=
  g.depMet = true ∧ s.allRetired gid g = true ∧ s.gridQuiet g = true ∧ (g.scope = .die ∨ g.due.isSome = true)

/-- The convoy has come to rest, so that its save or flush can go on: its copies, stores, stash lines, other operations and engines are
over (20 R348, steps 2 to 5). -/
def atRest (s : State) (k : Nat) (cv : Convoy) : Prop :=
  s.convoy? k = some cv ∧ cv.teardown = none ∧ s.savePhase k = 5 ∧ s.convoyQuiet k = true ∧ s.enginesRest cv.cluster k = true ∧
    ∀ p ∈ s.wavesOf k, p.2.copies = [] ∧ p.2.sq = []

/-- Nothing is still to be written to a queue's descriptor (18 R309). -/
def descFree (s : State) (vf q : Nat) : Prop := ∀ pa, s.queueDesc vf 0 q = some pa → Post.clearEn pa ∉ s.posts

/-- A clean counter register of core n, cluster n or stack n is at the given offset (25 Table 25-2). -/
def coreReg (n r : Nat) : Nat := 0x2000 + 0x80 * n + r

end Sys2Proof.Ob

/-- 18 R307 to R309. A doorbell makes the named queue's HEAD and TAIL be read again, in recovery mode it is ignored (23 R387); QERR's
bits are cleared by ones; EN set in a good descriptor enables the queue as the descriptor has it, in a bad one it disables it; EN cleared
disables the queue. -/
def Sys2Proof.Ob.QueueSteps : Prop :=
  ∀ (s : State) (vf q : Nat),
    (∀ (val : DWord) (b : List Byte), (s.fn vf).en = true → s.fw.rcv = false → val.toNat % 64 = q →
      s.homeBytes vf ((s.fn vf).qtb.toNat + 64 * q) 64 = some b →
      exec (.doorbell vf val) s = .next (s.setQueue vf q { s.queue vf q with
        hd := fieldOf b 0 8, tail := fieldOf b 8 8, en := (s.queue vf q).en && (fieldOf b 0x1D 1).testBit 0 })) ∧
    (∀ val : DWord, (s.fn vf).en = true → s.fw.rcv = false → val.toNat % 64 = q →
      s.homeBytes vf ((s.fn vf).qtb.toNat + 64 * q) 64 = none → exec (.doorbell vf val) s = .next (s.disableQueue vf q)) ∧
    (∀ val : DWord, s.fw.rcv = true → exec (.doorbell vf val) s = .next s) ∧
    (∀ val : DWord, exec (.qerrClear vf val) s = .next (s.setFn vf { s.fn vf with qerr := (s.fn vf).qerr &&& ~~~ val })) ∧
    (∀ b : List Byte, (s.fn vf).en = true → q < 64 → descFree s vf q → s.homeBytes vf ((s.fn vf).qtb.toNat + 64 * q) 64 = some b →
      ((fieldOf b 0x1D 1).testBit 0 = false → (s.queue vf q).en = true →
        exec (.queueEnable vf q) s = .next (s.setQueue vf q { s.queue vf q with en := false })) ∧
      ((fieldOf b 0x1D 1).testBit 0 = true → descBad b = false → exec (.queueEnable vf q) s = .next (s.setQueue vf q { s.queue vf q with
        en := true, dev := (fieldOf b 0x1D 1).testBit 1, priv := (fieldOf b 0x1D 1).testBit 2 && vf == 0
        base := fieldOf b 0x10 8, size := fieldOf b 0x18 4, prio := fieldOf b 0x1C 1, cring := fieldOf b 0x20 8
        hd := fieldOf b 0 8, tail := fieldOf b 8 8 })) ∧
      ((fieldOf b 0x1D 1).testBit 0 = true → descBad b = true → exec (.queueEnable vf q) s = .next (s.disableQueue vf q)))

/-- 18 R310 to R313. The record at HEAD: one that a check rejects posts its completion record with the check's code and HEAD
advances; one accepted becomes the queue's head grid, or, of a task grid whose dependence is met, has its tasks in its slots at once. -/
def Sys2Proof.Ob.LaunchAcceptance : Prop :=
  ∀ (s : State) (vf q : Nat) (b : List Byte) (s1 : State),
    let x := s.queue vf q
    let r := Record.of b
    let at_ := x.base + 128 * (x.hd % x.size)
    x.en = true → x.hd ≠ x.tail → x.head = none → s.homeAbreast vf at_ 128 = true → s.homeBytes vf at_ 128 = some b →
    s.saveTouch vf 0 [(at_, 128)] = .done s1 →
    (∀ code, s1.rejects vf x r = some code → s1.pkg.length ≠ s.pkg.length → exec (.launchRecordAccept vf q) s = .next s1) ∧
    (∀ (code : Nat) (s2 s3 : State), s1.rejects vf x r = some code → s1.pkg.length = s.pkg.length →
      s1.postCring vf q (gridRecord 2 0 (x.hd % 2 ^ 32) (BitVec.ofNat 64 r.utag) code 0) = some s2 →
      s2.advanceHead vf q { s2.queue vf q with last := none } = some s3 → exec (.launchRecordAccept vf q) s = .next s3) ∧
    (∀ (s2 s3 s4 : State), s1.rejects vf x r = none →
      s1.saveTouch vf 0 [(r.kdesc, 64), (lineOf r.param, r.plen), (r.tdesc, if r.taskgrid then 64 else 0)] = .done s2 →
      let g := s2.gridOf vf q x r
      let gid := s2.nextGrid
      (if g.taskgrid then s2.seed g else some s2) = some s3 →
      let s5 : State := { s3.setGrid gid g with nextGrid := gid + 1 }
      s5.advanceHead vf q { s5.queue vf q with head := if g.taskgrid && g.depMet then none else some gid, last := some gid } = some s4 →
      exec (.launchRecordAccept vf q) s = .next s4)

/-- 18 R313, R314, R325, 21 R368. Dependences, blocking, starvation, time slices and resident waits: who is released, blocked or
pre-empted. -/
def Sys2Proof.Ob.SchedulerSteps : Prop :=
  ∀ (s : State) (vf q gid : Nat) (g : Grid), s.grid? gid = some g → (s.queue vf q).head = some gid →
    (∀ pa : Nat, g.depa = some pa → g.depMet = false → g.taskgrid = false →
      (g.depv.toNat ≤ s.devVal (homeDie pa) pa 8 →
        exec (.dependenceRelease vf q) s = .next (s.setGrid gid { g with depMet := true })) ∧
      (s.devVal (homeDie pa) pa 8 < g.depv.toNat → exec (.dependenceRelease vf q) s = .next s)) ∧
    (s.mayPlace g = true → exec (.placementBlockingTimeout vf q) s = .next (s.setGrid gid { g with blocking := true })) ∧
    (∀ (k : Nat) (t : State), s.mayPlace g = true → s.placeFor (.fresh gid) = none →
      let low := s.convoys.filter fun p => p.2.st == .resident && p.2.teardown.isNone && s.prioOf p.2 < g.prio &&
        s.clusterOpen g.vf g.diemask p.2.cluster
      let least := low.foldl (fun m p => min m (s.prioOf p.2)) 7
      youngest (low.filter fun p => s.prioOf p.2 == least) = some k → s.preempt k .priority = some t →
      exec (.starvationPreempt vf q) s = .next t) ∧
    (∀ (cl k : Nat) (t : State), (s.fn vf).mode = 0 → s.waitsFor cl (· != vf) = true →
      s.heldFrom vf cl + 65536 * max (s.fn vf).slice.toNat 1 ≤ s.fab →
      (s.fns.all fun p => (s.residents p.1 cl).isEmpty ||
        decide (s.usageOn p.1 cl * (s.fn vf).weightOf ≤ s.usageOn vf cl * (s.fn p.1).weightOf)) = true →
      youngest (s.residents vf cl) = some k → s.preempt k .timeSlice = some t →
      exec (.timeSliceExpiry cl vf) s = .next t) ∧
    (∀ (k : Nat) (cv : Convoy) (t : State), s.convoy? k = some cv → s.liveWaves k ≠ [] →
      ((s.liveWaves k).all fun p => p.2.parked && p.2.wait.elim false fun r => !r.isSpin) = true →
      (s.pending.any fun p => (s.pendGrid p).elim false (fun x => x.2.vf == cv.vf) && (s.placeFor p).isNone) = true →
      s.preempt k .waiting = some t → exec (.residentWaitSwitch k) s = .next t) ∧
    (∀ die, exec (.wakeTableSweep die) s = .next { s with convoys := s.convoys.map fun p =>
      if p.2.st == .saved && p.2.cluster / 8 == die && (lineWaits (s.liveWaves p.1)).any (fun l =>
          !(lookD s.wakeTable (2 ^ 40 * die + lineOf l) []).contains p.1) then
        (p.1, { p.2 with runnable := true }) else p })

/-- 18 R320, R321, 20 R350, R354. CONVOY_PLACEMENT starts the grid's next convoy on the cores that the rules of placement choose: the grid has one
more convoy placed, and a grid whose last convoy is placed is no longer its queue's head. A saved convoy that is the next placement is
restored, and a flushed one starts again at its entry with its index and its slot. -/
def Sys2Proof.Ob.ConvoyPlacement : Prop :=
  ∀ (s : State) (gid cl : Nat) (cores : List Nat) (g : Grid), s.grid? gid = some g →
    (∀ (slot : Nat) (u : State), s.nextPlacement = some (.fresh gid, cl, cores) → s.freeSlot g.vf g.q = some slot →
      let s1 := s.setGrid gid { g with placed := g.placed + 1, blocking := false }
      let s2 := if g.placed + 1 = g.nconv then s1.setQueue g.vf g.q { s1.queue g.vf g.q with head := none } else s1
      s2.startConvoy gid g g.placed cl slot 0 cores g.entry (allLanes g.d) [] = some u →
      exec .convoyPlacement s = .next (u.serve g)) ∧
    (∀ (x : Again) (r : List Again) (u : State), s.nextPlacement = some (.again gid, cl, cores) → g.again = x :: r → g.taskgrid = false →
      x.tasks = [] → State.startConvoy (s.setGrid gid { g with again := r, blocking := false }) gid g x.index cl x.slot x.relaunches cores
        g.entry (allLanes g.d) [] = some u → exec .convoyPlacement s = .next (u.serve g)) ∧
    (∀ (k : Nat) (cv : Convoy) (u : State), s.nextPlacement = some (.saved k, cl, cores) → s.convoy? k = some cv → cv.grid = gid →
      s.restoreConvoy k cl cores = some u → exec .convoyPlacement s = .next (u.serve g))

/-- 18 R314, R315. GRID_COMPLETION: a grid whose convoys have all retired makes its signal, under PKG and SYS once what was performed when
they had is applied at every die, and posts its record; while the completion ring is full the device holds the record. -/
def Sys2Proof.Ob.GridCompletion : Prop :=
  ∀ (s : State) (gid : Nat) (g : Grid), s.grid? gid = some g →
    (g.depMet = true → s.allRetired gid g = true → g.scope ≠ .die → g.due = none →
      exec (.gridCompletion gid) s = .next (s.setGrid gid { g with due := some ((List.range 4).map fun d => (s.die d).vc[d]?.getD 0) })) ∧
    (∀ (s1 : State) (lost : Option (BitVec 10)), overGrid s gid g → g.signalled = false →
      (if g.scope = .sys then s.writeAll else s).signal g = some (.ok (s1, lost)) →
      (g.noRecord = true → exec (.gridCompletion gid) s = .next (s1.removeGrid gid)) ∧
      (∀ s2, g.noRecord = false → s1.postCring g.vf g.q (g.doneRecord lost) = some s2 →
        exec (.gridCompletion gid) s = .next (s2.removeGrid gid)) ∧
      (g.noRecord = false → s1.postCring g.vf g.q (g.doneRecord lost) = none →
        exec (.gridCompletion gid) s = .next (s1.setGrid gid { g with signalled := true, lost := lost })))

/-- 20 R346 to R349, R354. A pre-emption request starts the action that Table 20-2 chooses; a drain that lasts too long becomes a save; a
save at rest writes its images and the convoy is saved; a flush at rest drops the convoy and queues it again; either gives up its stash
lines once its copies and stores are performed, and waits for these. -/
def Sys2Proof.Ob.PreemptionSteps : Prop :=
  ∀ (s : State) (k : Nat) (cv : Convoy),
    (∀ why, s.convoy? k = some cv → cv.teardown = none → cv.st = .resident →
      let act := s.preAction k cv why
      exec (.preemptRequest k why) s = .next (s.setConvoy k
        { cv with st := act, why := why, relaunches := if act = .flushing then 0 else cv.relaunches })) ∧
    (∀ why, s.convoy? k = some cv → cv.teardown = none → cv.st = .saved → exec (.preemptRequest k why) s = .next s) ∧
    (s.convoy? k = some cv → cv.teardown = none → cv.st = .draining →
      exec (.drainTimeout k) s = .next (s.setConvoy k { cv with st := .saving })) ∧
    (∀ (s2 s3 : State) (cv3 : Convoy), atRest s k cv → cv.st = .saving → s.firstBadWord k cv = none →
      s.handlers k = [] → s.saveTouch cv.vf (cv.cluster / 8) [] = .done s2 →
      let m := s2.toMilestones k (cv.cluster / 8) cv
      m.saveLines cv.vf (cv.cluster / 8) (m.savePieces k cv []) = .done s3 → s3.convoy? k = some cv3 →
      exec (.convoySave k) s = .next (s3.nowSaved k cv3)) ∧
    (atRest s k cv → cv.st = .flushing →
      exec (.convoyFlush k) s = .next ((((s.requeue k cv).releaseEngines k cv false).leaveCluster k cv).removeConvoy k).unstall) ∧
    (∀ s1 : State, s.convoy? k = some cv → cv.teardown = none → (∀ p ∈ s.wavesOf k, p.2.copies = [] ∧ p.2.sq = []) →
      s.savePhase k = 3 → s.emptyStashes k = some s1 →
      (cv.st = .saving → exec (.convoySave k) s = .next s1) ∧ (cv.st = .flushing → exec (.convoyFlush k) s = .next s1)) ∧
    (s.convoy? k = some cv → cv.teardown = none → cv.st = .saving ∨ cv.st = .flushing →
      (∃ p ∈ s.wavesOf k, p.2.copies ≠ [] ∨ p.2.sq ≠ []) → exec (.convoySave k) s = .next s ∧ exec (.convoyFlush k) s = .next s)

/-- 20 R355, 24 R392 to R397. Frequency and rails: FREQ starts a transition unless the cluster runs there already; an empty cluster
changes its clock and its rail; the servo moves the rail by its steps inside its window; FRAIL moves the fixed rail. -/
def Sys2Proof.Ob.RailSteps : Prop :=
  ∀ (s : State) (cl : Nat),
    (∀ code : BitVec 7, let s1 := s.setCluster cl { s.cluster cl with freq := code }
      (((s.cluster cl).busy = true ∨ (s.die (cl / 8)).code code.toNat = (s.cluster cl).fnow.toNat) →
        exec (.freqWrite cl code) s = .next s1) ∧
      ((s.cluster cl).busy = false → (s.die (cl / 8)).code code.toNat ≠ (s.cluster cl).fnow.toNat →
        exec (.freqWrite cl code) s = .next (s1.startTransition cl))) ∧
    ((s.cluster cl).busy = false → exec (.transitionTimeout cl) s = .next s) ∧
    ((s.cluster cl).busy = true → s.convoys = [] → exec (.transitionTimeout cl) s = .next (s.endTransition cl)) ∧
    (∀ m r : Nat, let c := s.cluster cl
      let lo := max (voltAt false c.fnow.toNat) ((s.die (cl / 8)).rail - 70)
      let hi := (s.die (cl / 8)).rail + 20
      c.busy = false →
      (s.rlim.toNat < r → exec (.servoStep cl m r) s = .next (s.setCluster cl
        { c with vnow := BitVec.ofNat 8 (min (max (c.vnow.toNat + 4) lo) hi) })) ∧
      (r ≤ s.rlim.toNat → c.servo = true → m < s.mtgt.toNat → exec (.servoStep cl m r) s = .next (s.setCluster cl
        { c with vnow := BitVec.ofNat 8 (min (max (c.vnow.toNat - 1) lo) hi) })) ∧
      (r ≤ s.rlim.toNat → c.servo = true → 2 * s.mtgt.toNat < m → exec (.servoStep cl m r) s = .next (s.setCluster cl
        { c with vnow := BitVec.ofNat 8 (min (max (c.vnow.toNat + 1) lo) hi) }))) ∧
    (∀ d, exec (.frailWrite d true) s = .next (s.setRail d true)) ∧
    (∀ d, (((List.range 8).map fun i => 8 * d + i).all fun c => decide ((s.cluster c).freq.toNat ≤ 60) &&
        decide ((s.cluster c).fnow.toNat ≤ 60)) = true → exec (.frailWrite d false) s = .next (s.setRail d false))

/-- 24 R399 to R404. Power states and heat: a gated die stops its convoys; a die woken is powered, and then computes again; a stack enters self-refresh; a
SAVEREQ saves the convoy it names; over-power lowers the ration by four steps, from 28 on, to 4 at least. -/
def Sys2Proof.Ob.PowerSteps : Prop :=
  ∀ (s : State) (d : Nat),
    (∀ x : Die, s.die d = x → x.state = 0 →
      let s1 := (s.setDie d { x with gate := true, cmp := false, state := 1 }).preemptAll .shrink
        ((s.setDie d { x with gate := true, cmp := false, state := 1 }).convoys.filter fun p => p.2.cluster / 8 == d && p.2.placed)
      s1.finishGate d = none → exec (.gateDie d) s = .next s1) ∧
    ((s.die d).state = 1 → ∀ t, s.finishGate d = some t → exec (.gateDie d) s = .next t ∧ (t.die d).state = 2) ∧
    (((s.die d).state = 1 ∨ (s.die d).state = 2) → exec (.wakeDie d) s = .next (s.setDie d { s.die d with gate := false, state := 3 })) ∧
    ((s.die d).state = 3 → exec (.wakeDie d) s = .next ((s.setDie d { s.die d with cmp := true, state := 0 }).handTriggers false
      ((List.range 4).map fun i => 48 * d + i)).unstall ∧ exec (.gateDie d) s = .next (s.later (.gateDie d))) ∧
    ((s.die d).state = 0 → exec (.wakeDie d) s = .next s) ∧
    (∀ n, exec (.selfRefreshEntry n) s =
      .next (s.setDie (n / 2) { s.die (n / 2) with sr := (s.die (n / 2)).sr ||| (1#2 <<< (n % 2)) })) ∧
    (∀ (val : DWord) (k : Nat) (cv cv1 : Convoy) (t : State), val.toNat % 2 = 1 →
      (s.convoys.find? fun p => p.2.index == val.toNat / 2 ^ 40 && p.2.vf == val.toNat / 2 ^ 13 % 128 &&
        p.2.q == val.toNat / 2 % 64 && (p.2.st == .resident || p.2.st == .draining)) = some (k, cv) →
      s.preempt k .driver = some t → t.convoy? k = some cv1 →
      exec (.savereq val) s = .next (t.setConvoy k { cv1 with freeChoice := true })) ∧
    (∀ val : DWord, val.toNat % 2 = 0 → exec (.savereq val) s = .next s) ∧
    (∀ temps, exec (.thermalMigrationStep temps) s =
      .next (allClusters.foldl State.moveOff { s.readTemps temps with therm := (s.readTemps temps).therm + 1 })) ∧
    (∀ temps, let s1 := s.readTemps temps
      let n := max 4 ((if s1.tration = 0 then 32 else s1.tration.toNat) - 4)
      exec (.rationStep true temps) s = .next (({ s1 with allHot := true, tration := BitVec.ofNat 6 n } : State).writeRation n))

/-- 21 R365, R358, 19 R339. Invalidation, PTBR and line watches: INVCTL.GO starts the range that INVADDR names; when no outstanding
access uses it, its translations are gone; PTBR invalidates everything; a watch is armed on a DEVICE line. -/
def Sys2Proof.Ob.TranslationSteps : Prop :=
  ∀ (s : State) (vf : Nat), let f := s.fn vf
    (f.inv = none → exec (.invctlGo vf) s = .next (s.setFn vf { f with inv := some (invRange f.invaddr) })) ∧
    (f.inv ≠ none → exec (.invctlGo vf) s = .next s) ∧
    (∀ r, f.inv = some r → f.lwatch = [] →
      (s.inUse vf r = true → exec (.invalidationDone vf) s = .next s) ∧
      (s.inUse vf r = false → exec (.invalidationDone vf) s = .next (s.setFn vf { f with
        inv := none, tlb := f.tlb.filter fun t => !(decide (t.va < r.2) && decide (r.1 < t.va + 2 ^ t.psz)) }))) ∧
    (∀ val, exec (.ptbrWrite vf val) s =
      .next (s.setFn vf { f with ptbr := val &&& 0xFFFFFFFFFF001#64, inv := some (0, 2 ^ 57) })) ∧
    (∀ (n : Nat) (val : DWord) (x : Xlat), let line := val &&& 0x1FFFFFFFFFFFFC0#64
      val.getLsbD 63 = true → s.lookup vf 0 line.toNat = some x →
      (x.cls = 0 → exec (.lwatchEnable vf n val) s = .next (s.setFn vf { f with
        lwatch := ins f.lwatch n (line ||| 1#64 <<< 63), lwLine := ins f.lwLine n (s.devAddr vf x line.toNat) })) ∧
      (x.cls ≠ 0 → exec (.lwatchEnable vf n val) s = .next (s.setFn vf { f with
        lwatch := ins f.lwatch n (line ||| 1#64 <<< 62), lwLine := del f.lwLine n })))

/-- 22 R370, R371, 00 R7, 25 R407, 22 R373. Host accesses of device memory through an enabled function's granules, AtomicOps that the device
completes, writes of plain registers, cleared counters, and an unmasked vector's pending interrupt. -/
def Sys2Proof.Ob.HostSteps : Prop :=
  ∀ (s : State) (vf fpa : Nat),
    (∀ (data : List Byte) (pa : Nat), s.hostPlaces vf fpa data = some [(pa, data)] → s.memLost pa = false →
      s.canWrite (homeDie pa) (lineOf pa) = true →
      let t := s.devWrite (homeDie pa) (lineWrite pa data (some 0)) .host
      (s.inBar2 vf fpa data.length = true → exec (.bar2Write vf fpa ⟨data, none⟩) s = .next t) ∧
        exec (.cxlMemWrite vf fpa data) s = .next t) ∧
    (∀ (data : List Byte) (op : HostAtomic) (pa : Nat), s.inBar2 vf fpa data.length = true → (s.fn vf).en = true →
      fpa % data.length = 0 → (s.fn vf).granule fpa = some pa → s.memLost pa = false → s.canWrite (homeDie pa) (lineOf pa) = true →
      let old := s.devVal (homeDie pa) pa data.length
      let new := match op with
        | .fetchAdd => (old + leVal data) % 256 ^ data.length
        | .swap => leVal data
        | .cas c => if old = c % 256 ^ data.length then leVal data else old
      exec (.bar2Write vf fpa ⟨data, some op⟩) s = .next { s.devWrite (homeDie pa) (lineWrite pa (leBytes data.length new) (some 0)) .host with
        hostRead := .data (leBytes data.length old) }) ∧
    (∀ (n pa : Nat), s.hostPlaces vf fpa (List.replicate n 0) = some [(pa, List.replicate n 0)] → s.memLost pa = false →
      (s.inBar2 vf fpa n = true → s.memHeld pa = false → s.lineErr (lineOf pa) = none →
        exec (.bar2Read vf fpa n) s = .next { s with hostRead := .data ((List.range n).map fun i => s.hbm.byte (pa + i)) }) ∧
      (∀ (t : State) (b : List Byte) (tag : Tag), s.readDevice (homeDie pa) (lineOf pa) = .line t b tag →
        exec (.cxlMemRead vf fpa n) s = .next { t with
          hostRead := .data ((b.drop (pa % 64)).take n)
          hostLines := t.hostLines ++ if t.hostLines.contains (lineOf pa) then [] else [lineOf pa] })) ∧
    (∀ n, (s.fn vf).en = false ∨ s.inBar2 vf fpa n = false → exec (.bar2Read vf fpa n) s = .next { s with hostRead := .unsupported }) ∧
    (∀ n, (s.fn vf).en = false → exec (.cxlMemRead vf fpa n) s = .next { s with hostRead := .unsupported }) ∧
    (∀ data a, (s.fn vf).en = false → exec (.bar2Write vf fpa ⟨data, a⟩) s = .next { s with hostRead := .unsupported } ∧
      exec (.cxlMemWrite vf fpa data) s = .next { s with hostRead := .unsupported }) ∧
    (∀ val : DWord, exec (.registerWrite vf 0 val) s = .next (s.setFn vf { s.fn vf with qtb := val &&& 0xFFFFFFFFFFFFF000#64 })) ∧
    (∀ val : DWord, exec (.registerWrite vf 8 val) s = .next (s.setFn vf { s.fn vf with terb := val })) ∧
    (∀ val : DWord, exec (.registerWrite 0 0x11A0 val) s = .next { s with errb := val } ∧
      (vf ≠ 0 → exec (.registerWrite vf 0x11A0 val) s = .next s)) ∧
    (∀ n, n < 256 → exec (.counterClear (coreReg n 0)) s = .next (s.setCore n { s.core n with chk := 0 }) ∧
      exec (.counterClear (coreReg n 0x38)) s = .next (s.setCore n (s.core n))) ∧
    (∀ v, let f := s.fn vf
      ((f.msixPend.contains v) = true → exec (.msiXUnmask vf v) s = .next (s.setFn vf { f with
        msixMask := f.msixMask.filter (· != v), msixPend := f.msixPend.filter (· != v)
        msixSent := ins f.msixSent v (lookD f.msixSent v 0 + 1) })) ∧
      ((f.msixPend.contains v) = false → exec (.msiXUnmask vf v) s = .next (s.setFn vf { f with
        msixMask := f.msixMask.filter (· != v) })))

/-- 22 R374 to R377. Causeway ports: a flit in sequence is accepted, its messages fill their channels' buffers and the next number is expected;
one whose CRC is bad is NAKed, and so is the first out of sequence; a NAK brings the replay of what is not acknowledged, and of a flit
replayed 16 times retraining; training that succeeds brings the port up and sends that again, training that fails takes the port down and
out of every route; heartbeats take the next number of each port that may send. -/
def Sys2Proof.Ob.PortSteps : Prop :=
  ∀ (s : State) (n : Nat), let p := s.port n
    (∀ f : Flit, p.up = true →
      let q : Port := { p with
        stopped := f.stop, unacked := p.unacked.filter fun u => (u.seq - f.ack).toNat < 2048
        resend := p.resend.filter fun u => (u - f.ack).toNat < 2048 }
      (f.crcGood = false ∨ 4 ≤ f.ftype.toNat →
        exec (.flitReceive n f) s = .next (s.setPort n { p with nak := some p.expect, nakDue := true })) ∧
      (f.crcGood = true → f.ftype = 0 → f.seq = p.expect → exec (.flitReceive n f) s = .next (s.setPort n { q with
        expect := p.expect + 1, nak := none, nakDue := false
        held := (slotChannels 15 f.slots).foldl (fun h c => setAt h c (h[c]?.getD 0 + 1)) p.held })) ∧
      (f.crcGood = true → f.ftype = 0 ∨ f.ftype = 1 → f.seq ≠ p.expect →
        (p.nak = none → exec (.flitReceive n f) s = .next (s.setPort n { q with nak := some p.expect, nakDue := true })) ∧
        (p.nak.isSome = true → exec (.flitReceive n f) s = .next (s.setPort n q))) ∧
      (f.crcGood = true → f.ftype = 2 →
        ((∀ u ∈ q.unacked, u.replays < 16) → exec (.flitReceive n f) s = .next (s.setPort n { q with
          unacked := q.unacked.map (fun u => { u with replays := u.replays + 1 }), resend := q.unacked.map Sent.seq })) ∧
        ((∃ u ∈ q.unacked, 16 ≤ u.replays) → exec (.flitReceive n f) s = .next (s.setPort n
          { q with training := true, up := false, resend := [] })))) ∧
    (∀ f : Flit, p.up = false → exec (.flitReceive n f) s = .next s) ∧
    (p.training = true → exec (.trainingDone n) s = .next (s.setPort n { p with
      up := true, training := false, nak := none, nakDue := false, unacked := p.unacked.map (fun u => { u with replays := 0 })
      resend := p.unacked.map Sent.seq })) ∧
    (p.training = true → exec (.trainingTimeout n) s = .next (s.portDown n)) ∧
    (s.waves = [] → ((s.portDown n).port n).up = false ∧ ((s.portDown n).port n).training = false ∧
      ∀ dev r, look (s.portDown n).routes dev = some r → n < 24 → r.getLsbD n = false) ∧
    (p.training = false → exec (.trainingDone n) s = .next s ∧ exec (.trainingTimeout n) s = .next s) ∧
    (∃ t, exec .heartbeatSend s = .next t ∧ t.hbm = s.hbm ∧ t.waves = s.waves ∧
      (n < 24 → p.up = false ∨ p.stopped.getLsbD 4 = true ∨ p.resend ≠ [] ∨ 2048 ≤ p.unacked.length → t.port n = p) ∧
      (n < 24 → p.up = true → p.stopped.getLsbD 4 = false → p.resend = [] → p.unacked.length < 2048 →
        (t.port n).next = p.next + 1 ∧ (t.port n).unacked.length = p.unacked.length + 1))

/-- 22 R380, R382. Groups and failures: a cleared EN keeps the table's address; a table that fails the check sets ERR; the lowest live
device declares a loss once, by every port that is up; a declaration takes the device out of the domain. -/
def Sys2Proof.Ob.DomainSteps : Prop :=
  ∀ (s : State) (vf j dev : Nat),
    (∀ val : DWord, val.getLsbD 0 = false → exec (.groupEnable vf j val) s = .next (s.setFn vf { s.fn vf with
      group := ins (s.fn vf).group j ((val &&& 0x1FFFFFFFFFFFFC0#64) ||| (lookD (s.fn vf).group j 0 &&& 2#64)) })) ∧
    (∀ (val : DWord) (h b : List Byte), let tbl := val &&& 0x1FFFFFFFFFFFFC0#64
      val.getLsbD 0 = true → s.homeBytes vf tbl.toNat 0x40 = some h → fieldOf h 4 2 ≤ 256 →
      s.homeBytes vf tbl.toNat (0x40 + 8 * fieldOf h 4 2) = some b → s.groupBad vf b = true →
      exec (.groupEnable vf j val) s = .next (s.setFn vf { s.fn vf with group := ins (s.fn vf).group j (tbl ||| 2) })) ∧
    ((s.peer dev).live = true → s.declared.contains dev = false →
      (s.peers.any fun p => p.2.live && p.1 != dev && p.1 < s.devId.toNat) = false →
      exec (.failureDetect dev) s = .next { s with
        declared := s.declared ++ [dev]
        ports := s.ports.map fun x => (x.1, if x.2.up then { x.2 with flood := x.2.flood ++ [dev] } else x.2) }) ∧
    ((s.peer dev).live = false → exec (.failureDetect dev) s = .next s) ∧
    ((s.fns.all fun f => f.2.group.all fun g => !g.2.getLsbD 0) = true → (dev ∈ s.declared → s.declared.head? = some dev) →
      exec (.declarationApply dev) s =
      .next ({ s with peers := ins s.peers dev { s.peer dev with live := false }, declared := s.declared.filter (· != dev) } :
        State).unstall)

/-- 23 R384 to R388, R390. Reset, power, firmware and memory: what boot comes to, what lasts through a loss of power, what a mailbox
command answers, the good image that an UPDATE writes and starts, what training lets through, and the configuration that Keystone writes. -/
def Sys2Proof.Ob.FirmwareSteps : Prop :=
  ∀ s : State,
    (∃ t, exec .deviceReset s = .next t ∧ t.waves = [] ∧ t.convoys = [] ∧ t.hbm = State.reset.hbm ∧ t.hostMem = s.hostMem ∧
      t.fw = s.fw.boot ∧ t.powered = true) ∧
    (Config.signatureGood s.fw.keystone = false → s.fw.boot.rcv = true ∧ s.fw.boot.key = false ∧ s.fw.boot.qry = false) ∧
    (∃ t, exec (.powerLoss false) s = .next t ∧ t.powered = false ∧ t.waves = [] ∧ t.fw.slotImage = s.fw.slotImage ∧
      t.fw.floor = s.fw.floor ∧ t.fw.keystone = s.fw.keystone) ∧
    (s.fw.key = true → s.fw.qry = true → exec .quarryTimeout s = .next { s with fw := { s.fw with qry := false, rcv := true } }) ∧
    (s.fw.key = false → exec .quarryTimeout s = .next s) ∧
    (s.mailBusy 0 1 = true → s.inService = true → exec .fwUpdate s = .next (s.setFn 0 { s.fn 0 with fwstat := 6 })) ∧
    (s.mailBusy 0 1 = true → s.inService = false → ∀ st, (s.fn 0).fwlen.toNat ≤ 0x2000 + 2 ^ 26 →
      imageFault (s.hostBytes (s.mailAddr 0) (s.fn 0).fwlen.toNat) s.fw.floor = some st →
      exec .fwUpdate s = .next (s.setFn 0 { s.fn 0 with fwstat := st })) ∧
    (∀ b : List Byte, s.mailBusy 0 1 = true → s.inService = false → (s.fn 0).fwlen.toNat ≤ 0x2000 + 2 ^ 26 →
      s.hostBytes (s.mailAddr 0) (s.fn 0).fwlen.toNat = b → imageFault b s.fw.floor = none →
      ∃ t, exec .fwUpdate s = .next t ∧ t.fw = { s.fw with
          slotImage := b, running := b, svn := imageSvn b, qry := true, rcv := false
          floor := if imageCommit b then max s.fw.floor (imageSvn b) else s.fw.floor } ∧
        (t.fn 0).fwstat = 2 ∧ t.hbm = s.hbm ∧ t.hostMem = s.hostMem ∧
        t.dies = s.dies.map fun x => { x with cmp := x.cmp || x.state == 0 }) ∧
    (∀ vf, s.mailBusy vf 2 = true →
      let m := s.hostMem.writes (s.mailAddr vf + 64) (s.report vf (s.hostBytes (s.mailAddr vf) 64))
      exec (.fwAttest vf) s = .next (State.mailDone { s with hostMem := m } vf 2)) ∧
    (∀ vf (op : BitVec 4), s.mailBusy vf op.toNat = true → (3 ≤ op.toNat ∨ op = 1 ∧ vf ≠ 0) →
      exec (.fwReservedOp vf op) s = .next (s.setFn vf { s.fn vf with fwstat := 7 })) ∧
    (∀ d, (s.die d).memReady = false → (s.die d).memFail = false →
      exec (.memoryTrainingDone d) s = .next (s.setDie d { s.die d with memReady := true, memFail := false }).releaseHeld ∧
      exec (.memoryTrainingFail d) s = .next (s.setDie d { s.die d with memReady := false, memFail := true }).releaseHeld) ∧
    (s.fw.answers = true → ∀ id, exec (.keystoneConfiguration (.deviceId id)) s = .next { s with devId := id }) ∧
    (s.fw.answers = true → ∀ vf pairs, exec (.keystoneConfiguration (.accept vf pairs)) s =
      .next (s.setFn vf { s.fn vf with accept := pairs })) ∧
    (s.fw.answers = false → ∀ w, exec (.keystoneConfiguration w) s = .next s)

/-- 25 R408 to R416. Reliability: known-answer tests, the three given at once and fenced lanes, scrubbed words, HBM transfers and lane swaps, with
what each counts. -/
def Sys2Proof.Ob.ReliabilitySteps : Prop :=
  ∀ s : State,
    (∀ core lane, (s.core core).fenced.getLsbD lane = false → lane ∉ (s.core core).due →
      (∀ l, exec (.katInjection core lane true l) s = .next (s.setCore core
        { s.core core with katRun := bump (s.core core).katRun 1 })) ∧
      exec (.katInjection core lane false [true, true, true]) s = .next ((s.setCore core
        { s.core core with katRun := bump (s.core core).katRun 1, katFail := bump (s.core core).katFail 1 }).retest core lane
          [true, true, true]) ∧
      exec (.katInjection core lane false [true, false, true]) s = .next ((s.setCore core
        { s.core core with katRun := bump (s.core core).katRun 1, katFail := bump (s.core core).katFail 1 }).retest core lane
          [true, false, true])) ∧
    (∀ core lane l, (s.core core).fenced.getLsbD lane = false → lane ∈ (s.core core).due →
      exec (.katInjection core lane true l) s = .next (s.retest core lane l)) ∧
    (∀ core lane, s.retest core lane [true, true, true] = s.setCore core { s.core core with
        katRun := bump (s.core core).katRun 3, katFail := bump (s.core core).katFail 0
        due := (s.core core).due.filter (· != lane) } ∧
      s.retest core lane [true, false, true] = (s.setCore core { s.core core with
        katRun := bump (s.core core).katRun 3, katFail := bump (s.core core).katFail 1
        due := (s.core core).due.filter (· != lane) }).fence core lane) ∧
    (∀ core lane g l, (s.core core).fenced.getLsbD lane = true → exec (.katInjection core lane g l) s = .next s) ∧
    (exec (.scratchScrub .clean) s = .next s) ∧
    (∀ k crew off c, s.crew? (8 * k + crew) = some c → off < c.scratchBytes → off ∉ c.bad →
      exec (.scratchScrub (.scratch k crew off)) s =
        .next ((s.setCrew (8 * k + crew) { c with bad := c.bad ++ [off] }).badWordFound k (some crew) off)) ∧
    (∀ k off cv, s.convoy? k = some cv → off < cv.cmemBytes → off ∉ cv.bad → exec (.scratchScrub (.cmem k off)) s =
      .next ((s.setConvoy k { cv with bad := cv.bad ++ [off] }).badWordFound k none off)) ∧
    (∀ cl e off, off ∉ (s.engine cl e).slateBad → exec (.scratchScrub (.slate cl e off)) s =
      .next (s.setEngine cl e { s.engine cl e with slateBad := (s.engine cl e).slateBad ++ [off] })) ∧
    (∀ cl r, r ∉ (s.cluster cl).gravel.bad → exec (.scratchScrub (.gravel cl r)) s =
      .next (s.setGravel cl { (s.cluster cl).gravel with bad := (s.cluster cl).gravel.bad ++ [r] })) ∧
    (∀ line rd, let n := hbmStackOf line
      let x := s.stack n
      (x.busySwap.any fun y => y.1 == pchOf line) = false →
      exec (.hbmTransferReceive line [.good] rd) s = .next (s.setStack n { x with lrty := bump x.lrty 0 }) ∧
      (∀ l, exec (.hbmTransferReceive line (List.replicate 5 (.parity l)) rd) s = .next ((s.setStack n
        { x with llast := BitVec.ofNat 64 (256 * pchOf line + l), lrty := bump x.lrty 4, llim := bump x.llim 1 }).transferFailed
          line [l, l, l, l, l] rd))) ∧
    (∀ n pch line lane rd, let x := s.stack n
      x.busySwap = [(pch, lane, line)] → exec (.laneSwapDone n pch .good rd) s =
        .next (s.setStack n { x with busySwap := [], lrty := bump x.lrty 1 }).releaseHeld)

namespace Sys2Proof.Ob

/-! ### Words and steps -/

/-- The opcode of a Kalgil instruction (09 Table 9-1). -/
def opOf (i : Instr) : Option Nat := i.fields.map fun f => f.op.toNat

/-- The instruction's encoding decodes to the instruction. -/
def comesBack (i : Instr) : Prop := ∃ w, encode i = some w ∧ decodeCode w = some i

/-- What a step makes of the outcome of an instruction: the clocks pass (DESIGN CHOICE, log 8). -/
def afterRun (o : Host.Outcome State Fault Refusal) : Host.Outcome State Fault Refusal :=
  match o with
  | .next t => .next t.pass
  | .fault f => .fault f
  | .refused r => .refused r

/-- The word at a wave's pc can be fetched: its place, through a translation. -/
def fetches (s : State) (c : Ctx) (x : Xlat) (pa : Nat) : Prop :=
  c.fetchAt = .ok (x, pa) ∧ s.touchable x false = true ∧ s.canRead c.die pa = true ∧ s.lineErr (lineOf pa) = none

/-- The state after that fetch. -/
def fetched (s : State) (c : Ctx) (x : Xlat) (pa : Nat) : State :=
  let t := (s.touch x false).cache c.vf c.w.pc.toNat x
  if lookD t.codeHist (2 ^ 48 * c.cv.grid + pa) [] = [] then t else t.draw

/-- The `n` bytes at a Cairn core's pc, as a value. -/
def cairnValue (s : State) (n : Nat) (v : Invoc) (bytes : Nat) : Nat :=
  leVal ((List.range bytes).map fun i => lookD (s.slice n).code (256 * (s.invSlot n v).cbase.toNat + v.pc.toNat + i) 0)

/-! ### What is left unchanged -/

/-- The register instructions with one destination: common checks, destination, whether the result is 64 bits wide. -/
def regOp (i : Instr) : Option (Meta × Desc × Bool) :=
  match uOp i, vOp i, fOp i with
  | some o, _, _ => some (o.m, o.d, o.ty.wide)
  | none, some o, _ => some (o.m, o.d, o.ty.wide)
  | none, none, some o => some (o.m, o.d, wideF o.f)
  | none, none, none => none

/-- The v registers that a destination names in a thread. -/
def destRegs (c : Ctx) (d : Desc) (wide : Bool) (t : Nat) : List Nat :=
  let pair (r : Nat) : List Nat := if wide then [r, r + 1] else [r]
  match d with
  | .v n => pair n.toNat
  | .idx i off => pair (c.w.indexed t i off)
  | .k _ | .h _ | .special _ | .inline _ => []

/-- Register r of thread t is none that an acting thread's destination names (registers stand at 256·thread + number). -/
def keeps (c : Ctx) (act : Lanes) (d : Desc) (wide : Bool) (t r : Nat) : Prop :=
  ∀ u, act.getLsbD u = true → ∀ q ∈ destRegs c d wide u, 256 * u + q ≠ 256 * t + r

/-- Address a is none of the bytes that a store entry writes. -/
def outside (e : SqEntry) (a : Nat) : Prop := ∀ l ∈ e.lines, ∀ p ∈ l.bytes, l.line + p.1 ≠ a

/-- UNI and VEC instructions, headers and unassigned words. -/
def coreOnly (i : Instr) : Prop :=
  (∃ n, opOf i = some n ∧ n < 0x60) ∨ (∃ w, i = .clauseHeaderDecode w) ∨ ∃ w, i = .unassignedOpcode w

end Sys2Proof.Ob

/-! ### Encodings -/

/-- 08 R151 to R153, 09 R168 to R174. Every well-formed UNI and VEC integer instruction comes back from its word. -/
def Obligations.RoundTripUniformAndInteger : Prop :=
  ∀ (i : Instr) (n : Nat), opOf i = some n → n < 0x40 → i.wf = true → comesBack i

/-- 08 R151 to R153, 09 R168 to R174. Every well-formed VEC float and MEM instruction comes back from its word. -/
def Obligations.RoundTripFloatAndMemory : Prop :=
  ∀ (i : Instr) (n : Nat), opOf i = some n → 0x40 ≤ n → n < 0x80 → i.wf = true → comesBack i

/-- 08 R151 to R153, 14 R263. Every well-formed MTX, GRV, CPY and SYS instruction comes back from its word. -/
def Obligations.RoundTripEnginesAndSystem : Prop :=
  ∀ (i : Instr) (n : Nat), opOf i = some n → 0x80 ≤ n → i.wf = true → comesBack i

/-- 07 R127 to R130, Table 7-2. Every well-formed Cairn instruction comes back from its word or parcel. -/
def Obligations.RoundTripCairn : Prop :=
  (∀ (i : Instr) (w : Word), i.cairnWord = some w → i.wf = true → comesBack i) ∧
  (∀ i : RvInstr, Instr.wf (.cairnBase i true) = true → comesBack (.cairnBase i true))

/-- 08 R152, R157, 09 R167 to R174. The decoder accepts a word of an assigned opcode only as the encoding of a well-formed instruction: a
word with a reserved bit set, a reserved code or a form that its opcode excludes is none. A Cairn core's 32-bit words likewise. -/
def Obligations.AcceptedWordsAreEncodings : Prop :=
  (∀ (w : DWord) (i : Instr), opAssigned (w.extractLsb' 56 8).toNat = true → decode w = .ok i →
    i.wf = true ∧ encode i = some (.kalgil w)) ∧
  (∀ (w : Word) (i : Instr), decodeCairn w = some i → i.wf = true ∧ encode i = some (.cairn w))

/-- 08 Table 8-5, 11 Table 11-8, 13 Table 13-8, 14 R266 to R272, 09 R170, Table 9-11. Words that the spec works out, and rejected ones. -/
def Obligations.SpecWords : Prop :=
  decode 0x211C_0550_BB80_0000 = .ok (.vadd ⟨false, false, 7, false⟩ (.v 2) (.special 0) (.desc (.inline 23)) .s32 false) ∧
  decode 0x4388_0805_0301_E000 = .ok (.fma ⟨true, false, 2, true⟩ (.v 4) (.v 5) (.v 6) (.v 7) .f .rn false) ∧
  decode 0x161C_0000_0000_0000 = .ok (.tail ⟨false, false⟩) ∧
  decode 0x401C_0806_0400_0091 = .ok (.fadd ⟨false, false, 7, false⟩ (.v 4) (.v 6) (.desc (.v 8)) .d .rz true) ∧
  decode 0x6B5E_0500_B8DC_1000 = .ok (.amdv ⟨false, true, 7, false⟩ (.k 2) (.k 0) (.desc (.inline 17)) (.inline 16)
    ⟨.cas, 0, 0, false⟩) ∧
  decode 0x841C_8003_8480_0800 = .ok (.mma ⟨false, false, 7, false⟩ 1 .n8 64 3 (.k 9) none none) ∧
  decode 0x441C_0806_0400_0060 = .error .fieldReserved ∧
  decodeTableWord 32 0x0000250B = some (.clnBud 10)

/-! ### Steps -/

/-- 08 R158, Table 8-3, 07 R127, 04 R69. A step runs the instruction that the bytes at the pc decode to: for the wave or the Cairn core
whose turn the agenda names, and for the device's own step that stands there. A step that the fabric clock has made due comes before any
other, and in it no time passes (00 R4; DESIGN CHOICE, log 8). -/
def Sys2Proof.Ob.StepRuns : Prop :=
  ∀ (s : State) (r : List Turn), s.powered = true →
    (256 * (s.leases + 1) ≤ s.fab → step s = exec .leaseStep s) ∧
    (s.fab < 256 * (s.leases + 1) → 65536 * (s.windows + 1) ≤ s.fab → step s = exec .cairnShareWindow s) ∧
    (s.fab < 256 * (s.leases + 1) → s.fab < 65536 * (s.windows + 1) →
    (∀ (id : WaveId) (c : Ctx) (x : Xlat) (pa : Nat) (cl : Clause) (i : Instr), s.agenda = .wave id :: r →
      let s0 : State := { s with agenda := r, focus := .wave id }
      let w := s0.codeWord c.cv.grid c.die pa
      let op := (w.extractLsb' 56 8).toNat
      s0.ctx id = some c → (c.w.late = none ∨ c.w.level = .handler) → c.breakpoint = none → fetches s0 c x pa →
      c.w.clause = some cl → opAssigned op = true → (classOf op = .uni ∨ classOf op = cl.eng) → decode w = .ok i →
      step s = afterRun (exec i (fetched s0 c x pa))) ∧
    (∀ (n : Nat) (v : Invoc), s.agenda = .cairn n :: r →
      let s0 : State := { s with agenda := r, focus := .cairn n }
      let t := s.invSlot n v
      (s.slice n).inv = some v → s.fab - v.start < v.budget → s.slotUsed n v.slot < t.cap →
      (∀ i, v.pc.toNat + 4 ≤ 256 * t.clen.toNat → cairnValue s n v 2 % 4 = 3 →
        decodeCairn (BitVec.ofNat 32 (cairnValue s n v 4)) = some i → step s = afterRun (exec i s0)) ∧
      (∀ i, v.pc.toNat + 2 ≤ 256 * t.clen.toNat → cairnValue s n v 2 % 4 ≠ 3 →
        decodeParcel (BitVec.ofNat 16 (cairnValue s n v 2)) = some i → step s = afterRun (exec (.cairnBase i true) s0))) ∧
    (∀ i : Instr, s.agenda = .ev i :: r → isEvent i = true → i.wf = true →
      step s = afterRun (exec i { s with agenda := r })))

/-- 23 R387 (DESIGN CHOICE, log 1). While its supply is lost the machine does nothing but a device reset. -/
def Sys2Proof.Ob.UnpoweredMachineWaits : Prop :=
  ∀ s : State, s.powered = false →
    (s.agenda = [] → step s = .next s.pass) ∧
    (∀ (t : Turn) (r : List Turn), s.agenda = t :: r → t ≠ .ev .deviceReset → step s = .next ({ s with agenda := r } : State).pass) ∧
    (∀ r : List Turn, s.agenda = .ev .deviceReset :: r → step s = afterRun (exec .deviceReset { s with agenda := r }))

/-- No instruction is refused, and the only faults are those of an instruction that no wave and no invocation runs. -/
def Obligations.NothingIsRefused : Prop :=
  ∀ (i : Instr) (s : State),
    (∀ r, exec i s ≠ .refused r) ∧ (exec i s = .fault .noWave → Ctx.of s = none) ∧
    (exec i s = .fault .noInvocation → ∀ n v, ¬runsCairn s n v)

/-- Every step goes on: whatever the state, the machine has a next state. -/
def Obligations.EveryStepGoesOn : Prop := ∀ s : State, goesOn s = true

/-- 03 R49, 24 R404, 22 R367, 18 R307. What reset leaves, as the spec gives it: no wave and no convoy, every function disabled, memory
zero and RAW, RLIM 13, MTGT 16, HOT 95, PLIM 132, TRATION 0; and memory in canonical form. -/
def Obligations.ResetState : Prop :=
  let s := State.reset
  s.waves = [] ∧ s.convoys = [] ∧ s.grids = [] ∧ (∀ n, (s.fn n).en = false ∧ ∀ q, (s.queue n q).en = false) ∧
    (∀ d a, s.devByte d a = 0 ∧ s.devTag d a = 0) ∧ s.rlim = 13 ∧ s.mtgt = 16 ∧ s.hot = 95 ∧ s.plim = 132 ∧ s.tration = 0 ∧
    s.memWf = true

/-- 03 R49. Device memory, each die's view of it, and host memory keep their canonical form over every step of a wave that executes a
UNI or VEC instruction, a clause header or an unassigned word, whatever it comes to: a commit, a wait, a trap, a teardown. -/
def Obligations.MemoryStaysCanonical : Prop :=
  ∀ (s t : State) (id : WaveId) (r : List Turn), s.agenda = .wave id :: r → s.memWf = true →
    (∀ i u, waveTurn { s with agenda := r, focus := .wave id } id = .run i u → coreOnly i) → step s = .next t → t.memWf = true

/-! ### Traps and checks -/

/-- 19 R330, R331, R334. Trap entry of a kernel wave whose frame can be written: the frame holds k0 to k15, FLAGS, HDR, EPC and DBG; the
wave enters its handler at TRAPB with EPC, CAUSE, FADDR and FLANE, k0 at the frame, k1 to k15 zero, and everything else of it as it was.
In handler mode, with TRAPB 0, or where the frame cannot be written, the convoy is torn down. -/
def Obligations.TrapEntry : Prop :=
  ∀ (s : State) (id : WaveId) (w : Wave) (cv : Convoy) (tr : Trap),
    let frame := s.waveRecord cv id + 0x300
    let flags := tr.kind + if tr.part then 4 else 0
    let b := frameBytes w flags tr.hdr tr.epc tr.dbg
    (∀ (x : Xlat) (pa : Nat), w.level = .kernel → (s.fn cv.vf).trapb ≠ 0 → s.saveAddr cv.vf (dieOfCore w.core) frame true = .ok (x, pa) →
      s.touchable x true = true → (∀ j, j < 4 → s.canWrite (dieOfCore w.core) (lineOf (pa + 64 * j)) = true) →
      ∃ t w', s.trapEntry id w cv tr = some t ∧ t.wave? id = some w' ∧ w'.level = .handler ∧ w'.pc = (s.fn cv.vf).trapb ∧
        w'.clause = none ∧ w'.epc = tr.epc.extractLsb' 0 57 ∧ w'.cause = tr.cause ∧ w'.faddr = tr.faddr ∧ w'.flane = tr.flane ∧
        w'.getK 0 = BitVec.ofNat 64 frame ∧ (∀ n, 1 ≤ n → n < 16 → w'.getK n = 0) ∧ (∀ n, 16 ≤ n → w'.getK n = w.getK n) ∧
        (w'.v, w'.p, w'.i, w'.stack, w'.active) = (w.v, w.p, w.i, w.stack, w.active) ∧
        (w'.mile, w'.milepc, w'.ckpt, w'.sq, w'.copies) = (w.mile, w.milepc, w.ckpt, w.sq, w.copies)) ∧
    (b.length = 256 ∧ (∀ n, n < 16 → fieldOf b (8 * n) 8 = (w.getK n).toNat) ∧ fieldOf b 0x80 8 = flags % 2 ^ 64 ∧
      fieldOf b 0x88 8 = tr.hdr.toNat ∧ fieldOf b 0x90 8 = tr.epc.toNat ∧ fieldOf b 0x98 8 = tr.dbg % 2 ^ 64 ∧
      ∀ j, 0xA0 ≤ j → j < 256 → b[j]? = some 0) ∧
    ((w.level = .handler ∨ (s.fn cv.vf).trapb = 0) →
      s.trapEntry id w cv tr = some (s.teardown id.conv { cause := tr.cause, faddr := tr.faddr })) ∧
    (∀ e, w.level = .kernel → (s.fn cv.vf).trapb ≠ 0 → s.saveAddr cv.vf (dieOfCore w.core) frame true = .error e →
      s.trapEntry id w cv tr = some (s.teardown id.conv { cause := e, faddr := BitVec.ofNat 57 frame }))

/-- 08 R157, Table 8-3, 02 R34, R37, 01 R15. A register instruction that fails a check on its encoding, or a check of a thread, faults
precisely with the first cause and commits nothing else; one that acts on no thread commits with no effect. -/
def Obligations.DecodeChecks : Prop :=
  ∀ (i : Instr) (m : Meta) (d : Desc) (wide : Bool) (s : State) (c : Ctx), regOp i = some (m, d, wide) → Ctx.of s = some c →
    (∀ x, m.check c = some x → exec i s = .next (c.precise s c.w (.plain x) false)) ∧
    (∀ f, m.check c = none → threadFault c.w m.fields (c.acting m.ctl) (fun _ => none) = some f →
      exec i s = .next (c.precise s c.w f false)) ∧
    (m.check c = none → c.acting m.ctl = 0 → c.calm m.closer = true → exec i s = .next (c.commit m.closer none s)) ∧
    (∀ (f : Field) (n : BitVec 8) (k v kr : Nat), f.d = .v n → (k = 0 ∨ f.free = true) →
      f.check (k == 1) v kr = if v ≤ n.toNat then some (cOperand 0) else if n.toNat % f.regs ≠ 0 then some (cOperand 1) else none) ∧
    (∀ (f : Field) (n : BitVec 6) (hnd : Bool) (v kr : Nat), f.d = .k n →
      f.check hnd v kr = if (if hnd then max kr 16 else kr) ≤ n.toNat then some (cOperand 0) else none)

/-! ### Frames -/

/-- 01 R14, R18, 02 R36. The frame of the register instructions: a next state differs from the last in the destination register alone, in
the acting threads, in the wave's own progress (pc, clause, milestone and what a commit ends), and in what its core counts of the
assay's findings (25 R406, R407, R410); every other wave, every other register of the device, and every byte of memory is as it was. -/
def Obligations.RegisterFrame : Prop :=
  ∀ (i : Instr) (m : Meta) (d : Desc) (wide : Bool) (s t : State) (c : Ctx), regOp i = some (m, d, wide) → Ctx.of s = some c →
    c.runs m = true → exec i s = .next t →
    ({ t with waves := s.waves, crews := s.crews, cores := s.cores } : State) = s ∧
    (∀ k, k ≠ c.key → look t.waves k = look s.waves k) ∧ (∀ k, k ≠ c.crewKey → look t.crews k = look s.crews k) ∧
    (∀ n, n ≠ c.w.core → look t.cores n = look s.cores n) ∧
    (∀ k, k = t.core c.w.core →
      k = { s.core c.w.core with
            chk := k.chk, srm := k.srm, rsm := k.rsm, rcy := k.rcy, aSrm := k.aSrm, aRsm := k.aRsm, aRcy := k.aRcy, due := k.due }) ∧
    (∃ cw, t.crew? c.crewKey = some cw ∧ cw = { c.cw with h := cw.h } ∧ ∀ n : BitVec 4, d ≠ .h n → cw.getH n.toNat = c.cw.getH n.toNat) ∧
    (∃ w, t.wave? c.id = some w ∧
      w = { c.w with
            v := w.v, k := w.k, pc := w.pc, clause := w.clause, mile := w.mile, milepc := w.milepc, ckpt := w.ckpt,
            accepted := w.accepted, prog := w.prog, replay := none, skipBreak := none, wait := none, woken := false,
            stall := false, far := none, spinTarget := w.spinTarget, spinEnd := w.spinEnd, spinCount := w.spinCount,
            spinCur := w.spinCur, spinPrev := w.spinPrev } ∧
      (∀ u r, keeps c (c.acting m.ctl) d wide u r → w.getV u r = c.w.getV u r) ∧
      (∀ n : BitVec 6, d ≠ .k n → w.getK n.toNat = c.w.getK n.toNat)) ∧
    (∀ die a, t.devByte die a = s.devByte die a) ∧ t.hostMem = s.hostMem

/-- 04 R64, R65, R74, R76. The frame of a store as it is performed: every byte that its entry does not write is as it was, in scratchpad,
convoy memory and device memory, and each byte that it writes to device memory is read back; a PEER or HOST store writes nothing here. -/
def Obligations.StoreFrame : Prop :=
  ∀ (s t : State) (id : WaveId) (w : Wave) (e : SqEntry) (r : List SqEntry), s.wave? id = some w → w.sq = e :: r → e.kind = .store →
    exec (.storeDrain id) s = .next t →
    (e.space = .scratch → t.hbm = s.hbm ∧ t.dies = s.dies ∧ t.hostMem = s.hostMem ∧ t.convoys = s.convoys ∧
      (∀ k, k ≠ crewKeyOf id → t.crew? k = s.crew? k) ∧
      ∀ c, s.crew? (crewKeyOf id) = some c → ∃ c', t.crew? (crewKeyOf id) = some c' ∧
        c' = { c with scratch := c'.scratch, bad := c'.bad } ∧ ∀ a, outside e a → c'.scratch.byte a = c.scratch.byte a) ∧
    (e.space = .convoy → t.hbm = s.hbm ∧ t.dies = s.dies ∧ t.hostMem = s.hostMem ∧ t.crews = s.crews ∧
      (∀ k, k ≠ id.conv → t.convoy? k = s.convoy? k) ∧
      ∀ c, s.convoy? id.conv = some c → ∃ c', t.convoy? id.conv = some c' ∧
        c' = { c with cmem := c'.cmem, bad := c'.bad } ∧ ∀ a, outside e a → c'.cmem.byte a = c.cmem.byte a) ∧
    (∀ (l : LineWrite) (x : Nat × Nat), e.space = .device → e.lines = [l] → e.info = [x] → s.canWrite (dieOfCore w.core) l.line = true →
      s.memLost l.line = false → s.watchers l.line = [] → (s.lineDir l.line).owner = none → l.line % 64 = 0 →
      (∀ p ∈ l.bytes, p.1 < 64) → risingFrom 0 l.bytes = true →
      (∀ d a, outside e a → t.devByte d a = s.devByte d a) ∧
      (∀ k b, look l.bytes k = some b → t.devByte (dieOfCore w.core) (l.line + k) = b) ∧ t.hostMem = s.hostMem) ∧
    (e.space = .peer ∨ e.space = .host → t.hbm = s.hbm ∧ t.dies = s.dies ∧ t.hostMem = s.hostMem ∧ t.crews = s.crews ∧
      t.convoys = s.convoys)

/-! ### Rules stated whole -/

/-- 10 R180. The sixteen E2M1 codes have the values of Table 10-2; the column a2 is twice the value, and it is the integer that the
matrix engine multiplies. -/
def Obligations.E2M1Values : Prop :=
  ((List.range 16).map e2m1Twice = [0, 1, 2, 3, 4, 6, 8, 12, 0, -1, -2, -3, -4, -6, -8, -12]) ∧
  (∀ c, c < 16 → ∃ m e, FCode.e2m1.fmt.value c = .fin (decide (8 ≤ c)) m e ∧
    m * 2 ^ (e + 1).toNat = [0, 1, 2, 3, 4, 6, 8, 12][c % 8]?.getD 0 * 2 ^ (-(e + 1)).toNat) ∧
  (∀ (o : KOp) (j : Nat) (b : Byte), o.bytes[j]? = some b →
    o.scaled4[2 * j]? = some ((e3m5 ((o.micro[2 * j / 8]?).getD 0) : Int) * e2m1Twice (b.toNat % 16)) ∧
    o.scaled4[2 * j + 1]? = some ((e3m5 ((o.micro[(2 * j + 1) / 8]?).getD 0) : Int) * e2m1Twice (b.toNat / 16)))

/-- 10 R181. An E3M5 code with exponent field X and fraction M has the value I · 2^−7, as DQBLK's and the engine's S4 elements take it: I
is M when X = 0 and (32 + M) · 2^(X − 1) when X ≥ 1; it has no sign, no infinity and no NaN, and code 0x00 is zero. -/
def Obligations.E3M5Values : Prop :=
  (∀ c, c < 256 → e3m5 c = if c / 32 = 0 then c % 32 else (32 + c % 32) * 2 ^ (c / 32 - 1)) ∧
  ((List.range 8).map (fun x => ((List.range 3).map fun i => e3m5 (32 * x + i), e3m5 (32 * x + 31))) =
    [([0, 1, 2], 31), ([32, 33, 34], 63), ([64, 66, 68], 126), ([128, 132, 136], 252), ([256, 264, 272], 504),
     ([512, 528, 544], 1008), ([1024, 1056, 1088], 2016), ([2048, 2112, 2176], 4032)]) ∧
  (∀ x, imageS4 (x / 2 ^ 24) = some true → imageValues x = (List.range 4).map fun j =>
    (FCode.e2m1.fmt.value (x / 16 ^ j % 16)).mul (.fin false (e3m5 (x / 2 ^ 16 % 256)) (-7))) ∧ e3m5 0x73 = 204 ∧ e3m5 0 = 0

/-- 02 R35. Predicate p7 reads true in every thread; a write to p7 leaves the wave as it was; a guard with PG = 7 holds in every thread,
whatever PN. -/
def Obligations.PredicateSeven : Prop :=
  ∀ (w : Wave) (x : Lanes) (k : Ctl) (t : Nat), t < 128 →
    (w.getP 7).getLsbD t = true ∧ w.setP 7 x = w ∧ (w.setP 7 x).getP 7 = w.getP 7 ∧ (k.pg = 7 → (w.guard k).getLsbD t = true)

/-- 07 R129. At entry to an invocation x1 to x31 hold 0, and the PC is the entry offset that the handler set gives for the trigger. -/
def Obligations.HandlerEntry : Prop :=
  ∀ (s : State) (n : Nat) (t : Trigger) (r : List Trigger) (i : Nat) (k : Slot) (desc : List Byte) (e : Nat),
    (s.slice n).inv = none → (s.slice n).queue = t :: r → t.set ≠ 0 → (s.slice n).slotOf t.vf = some i →
    (s.slice n).slots[i]? = some k →
    let s1 := (s.setSlice n { s.slice n with queue := r }).unstall
    ¬shareUsed s1 n i k → s1.trigLost n t = false →
    s1.setDesc n t.vf t.set = some desc → entryOf desc t.kind = some e →
    ∃ u v, exec (.handlerInvocation n) s = .next u ∧ (u.slice n).inv = some v ∧ v.pc = BitVec.ofNat 64 e ∧
      ∀ x : BitVec 5, v.get x = 0

/-! ### Statements of several parts -/

/-- A step runs the instruction that the bytes at the pc decode to. -/
def Obligations.StepRunsTheInstruction : Prop :=
  Sys2Proof.Ob.StepRuns ∧ Sys2Proof.Ob.UnpoweredMachineWaits

/-- Control transfers, reconvergence, their faults, and the end of a wave. -/
def Obligations.Control : Prop :=
  Sys2Proof.Ob.ControlTransfers ∧ Sys2Proof.Ob.JoinReconverges ∧ Sys2Proof.Ob.ControlFaults ∧ Sys2Proof.Ob.TailEndsWave

/-- QBLK quantises one image per pass, FSRN rounds by the classes of Gravel words. -/
def Obligations.Quantise : Prop :=
  Sys2Proof.Ob.QuantiseBlock ∧ Sys2Proof.Ob.StochasticRounding

/-- Far loads ask once and take the answer of their own request. -/
def Obligations.FarLoads : Prop :=
  Sys2Proof.Ob.FarLoadAnswers ∧ Sys2Proof.Ob.FarLoadsAsk

/-- Stores join their wave's queue; STSC.PUSH appends ring entries. -/
def Obligations.Stores : Prop :=
  Sys2Proof.Ob.StoresJoinTheQueue ∧ Sys2Proof.Ob.PushEntries

/-- Accesses that fail their checks fault with the lowest thread's cause. -/
def Obligations.AccessFaults : Prop :=
  Sys2Proof.Ob.AccessChecks ∧ Sys2Proof.Ob.NaturalAlignment

/-- Atomics read, combine and write one value per thread, in thread order. -/
def Obligations.Atomics : Prop :=
  Sys2Proof.Ob.AtomicOps ∧ Sys2Proof.Ob.HostAtomicOps

/-- Fences, counters, barriers, waits on a value, events. -/
def Obligations.Ordering : Prop :=
  Sys2Proof.Ob.FencesAndCounters ∧ Sys2Proof.Ob.Barriers ∧ Sys2Proof.Ob.WaitOnValue ∧ Sys2Proof.Ob.EventPop

/-- Cache instructions and stash bindings. -/
def Obligations.Caches : Prop :=
  Sys2Proof.Ob.CacheInstructions ∧ Sys2Proof.Ob.StashBindings

/-- Engines and windows are reserved, released and owned. -/
def Obligations.Reservations : Prop :=
  Sys2Proof.Ob.ReserveEngine ∧ Sys2Proof.Ob.ReserveGravel ∧ Sys2Proof.Ob.WindowOwners

/-- Matrix instructions issue their operations. -/
def Obligations.MatrixIssue : Prop :=
  Sys2Proof.Ob.SlateAndRing ∧ Sys2Proof.Ob.MatrixMultiply ∧ Sys2Proof.Ob.WindowMoves

/-- Batches are fenced and awaited; tile tasks are queued. -/
def Obligations.BatchesAndTiles : Prop :=
  Sys2Proof.Ob.Batches ∧ Sys2Proof.Ob.TileTasks

/-- Gravel instructions issue, move images and count. -/
def Obligations.Gravel : Prop :=
  Sys2Proof.Ob.GravelOperations ∧ Sys2Proof.Ob.GravelImages ∧ Sys2Proof.Ob.GravelCounts

/-- TASK and GRID submit work. -/
def Obligations.Submission : Prop :=
  Sys2Proof.Ob.TaskSubmission ∧ Sys2Proof.Ob.GridLaunch

/-- Signals, messages, rings and collectives. -/
def Obligations.Messages : Prop :=
  Sys2Proof.Ob.Signals ∧ Sys2Proof.Ob.MessagesAndRings ∧ Sys2Proof.Ob.Collectives

/-- SYSR, SYSW, clocks and probes. -/
def Obligations.SystemRegisters : Prop :=
  Sys2Proof.Ob.SystemRegisterAccess ∧ Sys2Proof.Ob.Probes

/-- TRAP enters the handler, RTE returns from it. -/
def Obligations.Traps : Prop :=
  Sys2Proof.Ob.SoftwareTrap ∧ Sys2Proof.Ob.ReturnFromTrap

/-- Xcairn instructions: lines, the invocation, requests. -/
def Obligations.Xcairn : Prop :=
  Sys2Proof.Ob.CairnLines ∧ Sys2Proof.Ob.CairnInvocation ∧ Sys2Proof.Ob.CairnRequests

/-- Stores are performed in order, and lines arrive at caches. -/
def Obligations.StoreDrain : Prop :=
  Sys2Proof.Ob.StoresPerformed ∧ Sys2Proof.Ob.LineArrivals

/-- Far answers, posted writes, messages and late faults reach their waves. -/
def Obligations.FarAnswers : Prop :=
  Sys2Proof.Ob.FarAnswersArrive ∧ Sys2Proof.Ob.WaveReports

/-- The engines' own steps: copies, Gravel, matrix blocks, tile tasks. -/
def Obligations.Engines : Prop :=
  Sys2Proof.Ob.CopyLines ∧ Sys2Proof.Ob.EngineOperations ∧ Sys2Proof.Ob.MatrixBlocks ∧ Sys2Proof.Ob.TileSteps

/-- Waves are woken, parked by the spin detector, made of tasks, and retire. -/
def Obligations.WakeSteps : Prop :=
  Sys2Proof.Ob.WakeAndSpin ∧ Sys2Proof.Ob.TaskSteps

/-- Queues, acceptance, placement and completion of grids. -/
def Obligations.Launch : Prop :=
  Sys2Proof.Ob.QueueSteps ∧ Sys2Proof.Ob.LaunchAcceptance ∧ Sys2Proof.Ob.ConvoyPlacement ∧ Sys2Proof.Ob.GridCompletion

/-- Who is released, blocked, pre-empted, saved or flushed. -/
def Obligations.Scheduling : Prop :=
  Sys2Proof.Ob.SchedulerSteps ∧ Sys2Proof.Ob.PreemptionSteps

/-- Frequency, rails, gated dies, rationing. -/
def Obligations.PowerAndRails : Prop :=
  Sys2Proof.Ob.RailSteps ∧ Sys2Proof.Ob.PowerSteps

/-- Invalidation, line watches, and what the host reads and writes. -/
def Obligations.TranslationAndHost : Prop :=
  Sys2Proof.Ob.TranslationSteps ∧ Sys2Proof.Ob.HostSteps

/-- Causeway ports, groups, and devices declared lost. -/
def Obligations.PortsAndDomain : Prop :=
  Sys2Proof.Ob.PortSteps ∧ Sys2Proof.Ob.DomainSteps

/-- Boot, power loss, the mailbox, tests, scrubbing and lane swaps. -/
def Obligations.FirmwareAndReliability : Prop :=
  Sys2Proof.Ob.FirmwareSteps ∧ Sys2Proof.Ob.ReliabilitySteps
end

