-- ==== Sys2Proof/Laws/Map.lean ====
section
/-!
SUPPORT. Sys2Proof/Laws/Map.lean: finite maps, and memory as bytes in canonical form: a read after a write, and every memory
operation keeps the form.
-/
namespace Sys2Proof.Machine

open Sys2Proof

/-! ### Finite maps -/

/-- The entry just set is found. -/
@[simp] theorem look_ins_self {α : Type} (m : NMap α) (k : Nat) (v : α) : look (ins m k v) k = some v := by
  induction m with
  | nil => simp [ins, look]
  | cons p r ih =>
    obtain ⟨i, a⟩ := p
    simp only [ins]
    split
    · simp [look]
    · split
      · simp [look]
      · rename_i h
        simp [look, h, ih]

/-- Another entry is found as before. -/
theorem look_ins_ne {α : Type} (m : NMap α) {k q : Nat} (v : α) (h : q ≠ k) : look (ins m k v) q = look m q := by
  induction m with
  | nil => simp [ins, look, Ne.symm h]
  | cons p r ih =>
    obtain ⟨i, a⟩ := p
    simp only [ins]
    split
    · rw [look, if_neg (Ne.symm h)]
    · split
      · rename_i e
        subst e
        simp [look, Ne.symm h]
      · simp only [look, ih]

/-- A deleted entry is gone. -/
@[simp] theorem look_del_self {α : Type} (m : NMap α) (k : Nat) : look (del m k) k = none := by
  induction m with
  | nil => rfl
  | cons p r ih =>
    obtain ⟨i, a⟩ := p
    by_cases h : i = k
    · simpa [del, h] using ih
    · simpa [del, h, look] using ih

/-- Another entry stands as before. -/
theorem look_del_ne {α : Type} (m : NMap α) {k q : Nat} (h : q ≠ k) : look (del m k) q = look m q := by
  induction m with
  | nil => rfl
  | cons p r ih =>
    obtain ⟨i, a⟩ := p
    by_cases e : i = k
    · subst e
      simpa [del, look, Ne.symm h] using ih
    · simp only [del] at ih
      simp [del, e, look, ih]

/-- What was put at a key is read there. -/
@[simp] theorem lookD_put_self {α : Type} [DecidableEq α] (d : α) (m : NMap α) (k : Nat) (v : α) :
    lookD (put d m k v) k d = v := by
  unfold lookD put
  split
  · rename_i h; simp [h]
  · simp

/-- Another key reads as before. -/
theorem lookD_put_ne {α : Type} [DecidableEq α] (d : α) (m : NMap α) {k q : Nat} (v : α) (h : q ≠ k) :
    lookD (put d m k v) q d = lookD m q d := by
  unfold lookD put
  split
  · rw [look_del_ne m h]
  · rw [look_ins_ne m v h]

/-- Keys that rise from a bound rise from every lower one. -/
theorem risingFrom_mono {α : Type} {m : NMap α} {a b : Nat} (h : a ≤ b) (hm : risingFrom b m = true) :
    risingFrom a m = true := by
  cases m with
  | nil => rfl
  | cons p r =>
    simp only [risingFrom, Bool.and_eq_true, decide_eq_true_eq] at hm ⊢
    exact ⟨h.trans hm.1, hm.2⟩

/-- Setting an entry keeps the keys rising. -/
theorem risingFrom_ins {α : Type} {m : NMap α} {lo k : Nat} (v : α) (h : lo ≤ k) (hm : risingFrom lo m = true) :
    risingFrom lo (ins m k v) = true := by
  induction m generalizing lo with
  | nil => simp [ins, risingFrom, h]
  | cons p r ih =>
    obtain ⟨i, a⟩ := p
    simp only [risingFrom, Bool.and_eq_true, decide_eq_true_eq] at hm
    simp only [ins]
    split
    · rename_i hk
      simp only [risingFrom, Bool.and_eq_true, decide_eq_true_eq]
      exact ⟨h, by omega, hm.2⟩
    · split
      · rename_i e
        simp only [risingFrom, Bool.and_eq_true, decide_eq_true_eq]
        exact ⟨h, e ▸ hm.2⟩
      · simp only [risingFrom, Bool.and_eq_true, decide_eq_true_eq]
        exact ⟨hm.1, ih (by omega) hm.2⟩

/-- Leaving entries out keeps the keys rising. -/
theorem risingFrom_filter {α : Type} {m : NMap α} {lo : Nat} (f : Nat × α → Bool) (hm : risingFrom lo m = true) :
    risingFrom lo (m.filter f) = true := by
  induction m generalizing lo with
  | nil => rfl
  | cons p r ih =>
    obtain ⟨i, a⟩ := p
    simp only [risingFrom, Bool.and_eq_true, decide_eq_true_eq] at hm
    rw [List.filter_cons]
    split
    · simp only [risingFrom, Bool.and_eq_true, decide_eq_true_eq]
      exact ⟨hm.1, ih hm.2⟩
    · exact risingFrom_mono (by omega) (ih hm.2)

/-- An entry of the map with one set is that one or was there. -/
theorem mem_ins {α : Type} {m : NMap α} {k : Nat} {v : α} {p : Nat × α} (h : p ∈ ins m k v) : p = (k, v) ∨ p ∈ m := by
  induction m with
  | nil => simpa [ins] using h
  | cons q r ih =>
    obtain ⟨i, a⟩ := q
    simp only [ins] at h
    split at h
    · simpa using h
    · split at h
      · rcases List.mem_cons.1 h with h | h
        · exact .inl h
        · exact .inr (List.mem_cons_of_mem _ h)
      · rcases List.mem_cons.1 h with h | h
        · exact .inr (h ▸ List.mem_cons_self)
        · exact (ih h).imp_right (List.mem_cons_of_mem _)

/-- Keys that rise from a bound are not below it. -/
theorem risingFrom_le {α : Type} {m : NMap α} {lo : Nat} {p : Nat × α} (hm : risingFrom lo m = true) (h : p ∈ m) : lo ≤ p.1 := by
  induction m generalizing lo with
  | nil => cases h
  | cons q r ih =>
    simp only [risingFrom, Bool.and_eq_true, decide_eq_true_eq] at hm
    rcases List.mem_cons.1 h with rfl | h
    · exact hm.1
    · exact hm.1.trans (Nat.le_of_succ_le (ih hm.2 h))

/-- An entry of a map with rising keys and one set is that one, or was there under another key. -/
theorem mem_ins_ne {α : Type} {m : NMap α} {lo k : Nat} {v : α} {p : Nat × α} (hm : risingFrom lo m = true) (h : p ∈ ins m k v) :
    p = (k, v) ∨ p ∈ m ∧ p.1 ≠ k := by
  induction m generalizing lo with
  | nil => exact .inl (by simpa [ins] using h)
  | cons q r ih =>
    obtain ⟨i, a⟩ := q
    simp only [risingFrom, Bool.and_eq_true, decide_eq_true_eq] at hm
    simp only [ins] at h
    split at h
    · rcases List.mem_cons.1 h with h | h
      · exact .inl h
      · rcases List.mem_cons.1 h with rfl | g
        · exact .inr ⟨h, by simp only; omega⟩
        · exact .inr ⟨h, by have := risingFrom_le hm.2 g; omega⟩
    · split at h
      · rcases List.mem_cons.1 h with h | h
        · exact .inl h
        · exact .inr ⟨List.mem_cons_of_mem _ h, by have := risingFrom_le hm.2 h; omega⟩
      · rcases List.mem_cons.1 h with rfl | h
        · exact .inr ⟨List.mem_cons_self, by assumption⟩
        · exact (ih hm.2 h).imp_right fun g => ⟨List.mem_cons_of_mem _ g.1, g.2⟩

/-- A map in canonical form stays so when an entry is put: keys rising, no default listed. -/
theorem canonical_put {α : Type} [DecidableEq α] {d : α} {m : NMap α} {k : Nat} {v : α}
    (h : risingFrom 0 m = true ∧ ∀ p ∈ m, p.2 ≠ d) : risingFrom 0 (put d m k v) = true ∧ ∀ p ∈ put d m k v, p.2 ≠ d := by
  unfold put
  split
  · exact ⟨risingFrom_filter _ h.1, fun p hp => h.2 p (List.mem_of_mem_filter hp)⟩
  · rename_i hv
    refine ⟨risingFrom_ins v (Nat.zero_le _) h.1, fun p hp => ?_⟩
    rcases mem_ins hp with rfl | hp
    · exact hv
    · exact h.2 p hp

/-! ### Bytes -/

/-- The canonical form of memory, as a proposition. -/
theorem memory_wf_iff (m : Memory) : Memory.wf m = true ↔ risingFrom 0 m = true ∧ ∀ p ∈ m, p.2 ≠ 0 := by
  simp [Memory.wf]

/-- A byte just written is read. -/
@[simp] theorem memory_read_write (m : Memory) (a : Nat) (b : Byte) : (Memory.write m a b).read a = b := lookD_put_self _ _ _ _

/-- Every other byte reads as before. -/
theorem memory_read_write_ne (m : Memory) {a q : Nat} (b : Byte) (h : q ≠ a) : (Memory.write m a b).read q = m.read q :=
  lookD_put_ne _ _ _ h

/-- A tag set leaves the tags of other lines. -/
theorem tag_setTag_ne (m : Img) {a q : Nat} (t : Tag) (h : lineOf q ≠ lineOf a) : (m.setTag a t).tag q = m.tag q :=
  lookD_put_ne _ _ _ h

/-- A byte written keeps the canonical form. -/
theorem memory_write_wf {m : Memory} (a : Nat) (b : Byte) (h : Memory.wf m = true) : Memory.wf (Memory.write m a b) = true := by
  rw [memory_wf_iff] at h ⊢
  exact canonical_put h

/-- Bytes written keep the canonical form. -/
theorem memory_writes_wf {m : Memory} (a : Nat) (l : List Byte) (h : Memory.wf m = true) :
    Memory.wf (Memory.writes m a l) = true := by
  induction l generalizing m a with
  | nil => exact h
  | cons b r ih => exact ih (a + 1) (memory_write_wf a b h)

/-- Bytes outside the written ones read as before. -/
theorem memory_read_writes_ne (m : Memory) (a q : Nat) (l : List Byte) (h : q < a ∨ a + l.length ≤ q) :
    (Memory.writes m a l).read q = m.read q := by
  induction l generalizing m a with
  | nil => rfl
  | cons b r ih =>
    simp only [List.length_cons] at h
    simp only [Memory.writes]
    rw [ih _ _ (by omega), memory_read_write_ne _ _ (by omega)]

/-! ### Images: bytes and tags -/

/-- The canonical form of an image, as a proposition. -/
theorem img_wf_iff (m : Img) :
    m.wf = true ↔ Memory.wf m.bytes = true ∧ risingFrom 0 m.tags = true ∧ ∀ p ∈ m.tags, p.2 ≠ 0 := by
  simp [Img.wf, and_assoc]

/-- A byte written to an image is read there. -/
@[simp] theorem byte_setByte (m : Img) (a : Nat) (b : Byte) : (m.setByte a b).byte a = b := memory_read_write _ _ _

/-- Every other byte of the image reads as before. -/
theorem byte_setByte_ne (m : Img) {a q : Nat} (b : Byte) (h : q ≠ a) : (m.setByte a b).byte q = m.byte q :=
  memory_read_write_ne _ _ h

/-- A tag set changes no byte. -/
@[simp] theorem byte_setTag (m : Img) (a q : Nat) (t : Tag) : (m.setTag a t).byte q = m.byte q := rfl

/-- A byte written changes no tag. -/
@[simp] theorem tag_setByte (m : Img) (a q : Nat) (b : Byte) : (m.setByte a b).tag q = m.tag q := rfl

/-- A tag set is read in the whole line. -/
theorem tag_setTag (m : Img) {a q : Nat} (t : Tag) (h : lineOf q = lineOf a) : (m.setTag a t).tag q = t := by
  simp [Img.tag, Img.setTag, h]

/-- A byte written keeps the canonical form. -/
theorem setByte_wf {m : Img} (a : Nat) (b : Byte) (h : m.wf = true) : (m.setByte a b).wf = true := by
  rw [img_wf_iff] at h ⊢
  exact ⟨memory_write_wf a b h.1, h.2⟩

/-- Bytes written keep the canonical form. -/
theorem setBytes_wf {m : Img} (a : Nat) (l : List Byte) (h : m.wf = true) : (m.setBytes a l).wf = true := by
  rw [img_wf_iff] at h ⊢
  exact ⟨memory_writes_wf a l h.1, h.2⟩

/-- A tag set keeps the canonical form. -/
theorem setTag_wf {m : Img} (a : Nat) (t : Tag) (h : m.wf = true) : (m.setTag a t).wf = true := by
  rw [img_wf_iff] at h ⊢
  exact ⟨h.1, canonical_put h.2⟩

/-- A line write keeps the canonical form. -/
theorem apply_wf {m : Img} (w : LineWrite) (h : m.wf = true) : (m.apply w).wf = true := by
  have step : ∀ (l : List (Nat × Byte)) (m : Img), m.wf = true →
      (l.foldl (fun m p => m.setByte (w.line + p.1) p.2) m).wf = true := by
    intro l
    induction l with
    | nil => exact fun m h => h
    | cons p r ih => exact fun m h => ih _ (setByte_wf _ _ h)
  unfold Img.apply
  split
  · exact step _ _ h
  · exact setTag_wf _ _ (step _ _ h)

/-- A line write leaves every byte that it does not name. -/
theorem byte_apply_ne (m : Img) (w : LineWrite) (q : Nat) (h : ∀ p ∈ w.bytes, w.line + p.1 ≠ q) : (m.apply w).byte q = m.byte q := by
  have step : ∀ (l : List (Nat × Byte)) (m : Img), (∀ p ∈ l, w.line + p.1 ≠ q) →
      (l.foldl (fun m p => m.setByte (w.line + p.1) p.2) m).byte q = m.byte q := by
    intro l
    induction l with
    | nil => exact fun m _ => rfl
    | cons p r ih =>
      intro m h
      rw [List.foldl_cons, ih _ fun x hx => h x (List.mem_cons_of_mem _ hx),
        byte_setByte_ne _ _ (Ne.symm (h p List.mem_cons_self))]
  unfold Img.apply
  split
  · exact step _ _ h
  · rw [byte_setTag, step _ _ h]

/-- Cleared memory is in canonical form. -/
theorem clear_wf {m : Img} (a n : Nat) (h : m.wf = true) : (m.clear a n).wf = true := by
  rw [img_wf_iff, memory_wf_iff] at h
  rw [img_wf_iff, memory_wf_iff]
  exact ⟨⟨risingFrom_filter _ h.1.1, fun p hp => h.1.2 p (List.mem_of_mem_filter hp)⟩, risingFrom_filter _ h.2.1,
    fun p hp => h.2.2 p (List.mem_of_mem_filter hp)⟩

/-! ### Parts of the state -/

/-- A wave just set is found. -/
@[simp] theorem wave_setWave (s : State) (id : WaveId) (w : Wave) : (s.setWave id w).wave? id = some w := look_ins_self _ _ _
/-- A crew just set is found. -/
@[simp] theorem crew_setCrew (s : State) (k : Nat) (c : Crew) : (s.setCrew k c).crew? k = some c := look_ins_self _ _ _
/-- A convoy just set is found. -/
@[simp] theorem convoy_setConvoy (s : State) (k : Nat) (c : Convoy) : (s.setConvoy k c).convoy? k = some c := look_ins_self _ _ _
/-- A grid just set is found. -/
@[simp] theorem grid_setGrid (s : State) (k : Nat) (g : Grid) : (s.setGrid k g).grid? k = some g := look_ins_self _ _ _
/-- A core just set is found. -/
@[simp] theorem core_setCore (s : State) (n : Nat) (c : Core) : (s.setCore n c).core n = c := by
  simp [State.core, State.setCore, lookD]
/-- A cluster just set is found. -/
@[simp] theorem cluster_setCluster (s : State) (n : Nat) (c : Cluster) : (s.setCluster n c).cluster n = c := by
  simp [State.cluster, State.setCluster, lookD]
/-- A slice just set is found. -/
@[simp] theorem slice_setSlice (s : State) (n : Nat) (x : Slice) : (s.setSlice n x).slice n = x := by
  simp [State.slice, State.setSlice, lookD]
/-- A function just set is found. -/
@[simp] theorem fn_setFn (s : State) (n : Nat) (f : Fn) : (s.setFn n f).fn n = f := by simp [State.fn, State.setFn, lookD]
/-- A line's record just set is found. -/
@[simp] theorem lineDir_setLineDir (s : State) (n : Nat) (d : LineDir) : (s.setLineDir n d).lineDir n = d := by
  simp [State.lineDir, State.setLineDir, lookD]
/-- A port just set is found. -/
@[simp] theorem port_setPort (s : State) (n : Nat) (p : Port) : (s.setPort n p).port n = p := by
  simp [State.port, State.setPort, lookD]
/-- A stack just set is found. -/
@[simp] theorem stack_setStack (s : State) (n : Nat) (x : Stack) : (s.setStack n x).stack n = x := by
  simp [State.stack, State.setStack, lookD]

/-- Another core is as before. -/
theorem core_setCore_ne (s : State) {n q : Nat} (c : Core) (h : q ≠ n) : (s.setCore n c).core q = s.core q := by
  simp [State.core, State.setCore, lookD, look_ins_ne _ _ h]
/-- Another cluster is as before. -/
theorem cluster_setCluster_ne (s : State) {n q : Nat} (c : Cluster) (h : q ≠ n) : (s.setCluster n c).cluster q = s.cluster q := by
  simp [State.cluster, State.setCluster, lookD, look_ins_ne _ _ h]
/-- Another slice is as before. -/
theorem slice_setSlice_ne (s : State) {n q : Nat} (x : Slice) (h : q ≠ n) : (s.setSlice n x).slice q = s.slice q := by
  simp [State.slice, State.setSlice, lookD, look_ins_ne _ _ h]
/-- Another function is as before. -/
theorem fn_setFn_ne (s : State) {n q : Nat} (f : Fn) (h : q ≠ n) : (s.setFn n f).fn q = s.fn q := by
  simp [State.fn, State.setFn, lookD, look_ins_ne _ _ h]

/-- A v register just written is read. -/
@[simp] theorem getV_setV (w : Wave) (t n : Nat) (x : Word) : (w.setV t n x).getV t n = x := lookD_put_self _ _ _ _
/-- A k register just written is read. -/
@[simp] theorem getK_setK (w : Wave) (n : Nat) (x : DWord) : (w.setK n x).getK n = x := lookD_put_self _ _ _ _
/-- Another k register is as before. -/
theorem getK_setK_ne (w : Wave) {n q : Nat} (x : DWord) (h : q ≠ n) : (w.setK n x).getK q = w.getK q := lookD_put_ne _ _ _ h
/-- An h register just written is read. -/
@[simp] theorem getH_setH (c : Crew) (n : Nat) (x : Word) : (c.setH n x).getH n = x := lookD_put_self _ _ _ _

end Sys2Proof.Machine
end

