-- ==== Sys2Proof/Laws/State.lean ====
section
/-!
SUPPORT. Sys2Proof/Laws/State.lean: what each update of a part of the state, of a wave or of a crew leaves alone, field by field.
-/
namespace Sys2Proof.Machine

open Sys2Proof

/-! ### `State.setCore` -/

@[simp] theorem setCore_agenda (s : State) (n : Nat) (x : Core) : (s.setCore n x).agenda = s.agenda := rfl
@[simp] theorem setCore_focus (s : State) (n : Nat) (x : Core) : (s.setCore n x).focus = s.focus := rfl
@[simp] theorem setCore_freeCtr (s : State) (n : Nat) (x : Core) : (s.setCore n x).freeCtr = s.freeCtr := rfl
@[simp] theorem setCore_devPos (s : State) (n : Nat) (x : Core) : (s.setCore n x).devPos = s.devPos := rfl
@[simp] theorem setCore_clock (s : State) (n : Nat) (x : Core) : (s.setCore n x).clock = s.clock := rfl
@[simp] theorem setCore_fab (s : State) (n : Nat) (x : Core) : (s.setCore n x).fab = s.fab := rfl
@[simp] theorem setCore_leases (s : State) (n : Nat) (x : Core) : (s.setCore n x).leases = s.leases := rfl
@[simp] theorem setCore_windows (s : State) (n : Nat) (x : Core) : (s.setCore n x).windows = s.windows := rfl
@[simp] theorem setCore_posts (s : State) (n : Nat) (x : Core) : (s.setCore n x).posts = s.posts := rfl
@[simp] theorem setCore_powered (s : State) (n : Nat) (x : Core) : (s.setCore n x).powered = s.powered := rfl
@[simp] theorem setCore_waves (s : State) (n : Nat) (x : Core) : (s.setCore n x).waves = s.waves := rfl
@[simp] theorem setCore_crews (s : State) (n : Nat) (x : Core) : (s.setCore n x).crews = s.crews := rfl
@[simp] theorem setCore_convoys (s : State) (n : Nat) (x : Core) : (s.setCore n x).convoys = s.convoys := rfl
@[simp] theorem setCore_grids (s : State) (n : Nat) (x : Core) : (s.setCore n x).grids = s.grids := rfl
@[simp] theorem setCore_nextConvoy (s : State) (n : Nat) (x : Core) : (s.setCore n x).nextConvoy = s.nextConvoy := rfl
@[simp] theorem setCore_nextGrid (s : State) (n : Nat) (x : Core) : (s.setCore n x).nextGrid = s.nextGrid := rfl
@[simp] theorem setCore_clusters (s : State) (n : Nat) (x : Core) : (s.setCore n x).clusters = s.clusters := rfl
@[simp] theorem setCore_slices (s : State) (n : Nat) (x : Core) : (s.setCore n x).slices = s.slices := rfl
@[simp] theorem setCore_dies (s : State) (n : Nat) (x : Core) : (s.setCore n x).dies = s.dies := rfl
@[simp] theorem setCore_hbm (s : State) (n : Nat) (x : Core) : (s.setCore n x).hbm = s.hbm := rfl
@[simp] theorem setCore_poison (s : State) (n : Nat) (x : Core) : (s.setCore n x).poison = s.poison := rfl
@[simp] theorem setCore_memErr (s : State) (n : Nat) (x : Core) : (s.setCore n x).memErr = s.memErr := rfl
@[simp] theorem setCore_codeHist (s : State) (n : Nat) (x : Core) : (s.setCore n x).codeHist = s.codeHist := rfl
@[simp] theorem setCore_dir (s : State) (n : Nat) (x : Core) : (s.setCore n x).dir = s.dir := rfl
@[simp] theorem setCore_pkg (s : State) (n : Nat) (x : Core) : (s.setCore n x).pkg = s.pkg := rfl
@[simp] theorem setCore_wakeTable (s : State) (n : Nat) (x : Core) : (s.setCore n x).wakeTable = s.wakeTable := rfl
@[simp] theorem setCore_fns (s : State) (n : Nat) (x : Core) : (s.setCore n x).fns = s.fns := rfl
@[simp] theorem setCore_hostMem (s : State) (n : Nat) (x : Core) : (s.setCore n x).hostMem = s.hostMem := rfl
@[simp] theorem setCore_peers (s : State) (n : Nat) (x : Core) : (s.setCore n x).peers = s.peers := rfl
@[simp] theorem setCore_owed (s : State) (n : Nat) (x : Core) : (s.setCore n x).owed = s.owed := rfl
@[simp] theorem setCore_ports (s : State) (n : Nat) (x : Core) : (s.setCore n x).ports = s.ports := rfl
@[simp] theorem setCore_routes (s : State) (n : Nat) (x : Core) : (s.setCore n x).routes = s.routes := rfl
@[simp] theorem setCore_devId (s : State) (n : Nat) (x : Core) : (s.setCore n x).devId = s.devId := rfl
@[simp] theorem setCore_fw (s : State) (n : Nat) (x : Core) : (s.setCore n x).fw = s.fw := rfl
@[simp] theorem setCore_rlim (s : State) (n : Nat) (x : Core) : (s.setCore n x).rlim = s.rlim := rfl
@[simp] theorem setCore_mtgt (s : State) (n : Nat) (x : Core) : (s.setCore n x).mtgt = s.mtgt := rfl
@[simp] theorem setCore_hot (s : State) (n : Nat) (x : Core) : (s.setCore n x).hot = s.hot := rfl
@[simp] theorem setCore_plim (s : State) (n : Nat) (x : Core) : (s.setCore n x).plim = s.plim := rfl
@[simp] theorem setCore_tration (s : State) (n : Nat) (x : Core) : (s.setCore n x).tration = s.tration := rfl
@[simp] theorem setCore_therm (s : State) (n : Nat) (x : Core) : (s.setCore n x).therm = s.therm := rfl
@[simp] theorem setCore_allHot (s : State) (n : Nat) (x : Core) : (s.setCore n x).allHot = s.allHot := rfl
@[simp] theorem setCore_errb (s : State) (n : Nat) (x : Core) : (s.setCore n x).errb = s.errb := rfl
@[simp] theorem setCore_errovf (s : State) (n : Nat) (x : Core) : (s.setCore n x).errovf = s.errovf := rfl
@[simp] theorem setCore_dce (s : State) (n : Nat) (x : Core) : (s.setCore n x).dce = s.dce := rfl
@[simp] theorem setCore_hbmStacks (s : State) (n : Nat) (x : Core) : (s.setCore n x).hbmStacks = s.hbmStacks := rfl
@[simp] theorem setCore_errWindow (s : State) (n : Nat) (x : Core) : (s.setCore n x).errWindow = s.errWindow := rfl
@[simp] theorem setCore_held (s : State) (n : Nat) (x : Core) : (s.setCore n x).held = s.held := rfl
@[simp] theorem setCore_hostRead (s : State) (n : Nat) (x : Core) : (s.setCore n x).hostRead = s.hostRead := rfl
@[simp] theorem setCore_hostLines (s : State) (n : Nat) (x : Core) : (s.setCore n x).hostLines = s.hostLines := rfl
@[simp] theorem setCore_heartbeats (s : State) (n : Nat) (x : Core) : (s.setCore n x).heartbeats = s.heartbeats := rfl
@[simp] theorem setCore_declared (s : State) (n : Nat) (x : Core) : (s.setCore n x).declared = s.declared := rfl

/-! ### `State.setCluster` -/

@[simp] theorem setCluster_agenda (s : State) (n : Nat) (x : Cluster) : (s.setCluster n x).agenda = s.agenda := rfl
@[simp] theorem setCluster_focus (s : State) (n : Nat) (x : Cluster) : (s.setCluster n x).focus = s.focus := rfl
@[simp] theorem setCluster_freeCtr (s : State) (n : Nat) (x : Cluster) : (s.setCluster n x).freeCtr = s.freeCtr := rfl
@[simp] theorem setCluster_devPos (s : State) (n : Nat) (x : Cluster) : (s.setCluster n x).devPos = s.devPos := rfl
@[simp] theorem setCluster_clock (s : State) (n : Nat) (x : Cluster) : (s.setCluster n x).clock = s.clock := rfl
@[simp] theorem setCluster_fab (s : State) (n : Nat) (x : Cluster) : (s.setCluster n x).fab = s.fab := rfl
@[simp] theorem setCluster_leases (s : State) (n : Nat) (x : Cluster) : (s.setCluster n x).leases = s.leases := rfl
@[simp] theorem setCluster_windows (s : State) (n : Nat) (x : Cluster) : (s.setCluster n x).windows = s.windows := rfl
@[simp] theorem setCluster_posts (s : State) (n : Nat) (x : Cluster) : (s.setCluster n x).posts = s.posts := rfl
@[simp] theorem setCluster_powered (s : State) (n : Nat) (x : Cluster) : (s.setCluster n x).powered = s.powered := rfl
@[simp] theorem setCluster_waves (s : State) (n : Nat) (x : Cluster) : (s.setCluster n x).waves = s.waves := rfl
@[simp] theorem setCluster_crews (s : State) (n : Nat) (x : Cluster) : (s.setCluster n x).crews = s.crews := rfl
@[simp] theorem setCluster_convoys (s : State) (n : Nat) (x : Cluster) : (s.setCluster n x).convoys = s.convoys := rfl
@[simp] theorem setCluster_grids (s : State) (n : Nat) (x : Cluster) : (s.setCluster n x).grids = s.grids := rfl
@[simp] theorem setCluster_nextConvoy (s : State) (n : Nat) (x : Cluster) : (s.setCluster n x).nextConvoy = s.nextConvoy := rfl
@[simp] theorem setCluster_nextGrid (s : State) (n : Nat) (x : Cluster) : (s.setCluster n x).nextGrid = s.nextGrid := rfl
@[simp] theorem setCluster_cores (s : State) (n : Nat) (x : Cluster) : (s.setCluster n x).cores = s.cores := rfl
@[simp] theorem setCluster_slices (s : State) (n : Nat) (x : Cluster) : (s.setCluster n x).slices = s.slices := rfl
@[simp] theorem setCluster_dies (s : State) (n : Nat) (x : Cluster) : (s.setCluster n x).dies = s.dies := rfl
@[simp] theorem setCluster_hbm (s : State) (n : Nat) (x : Cluster) : (s.setCluster n x).hbm = s.hbm := rfl
@[simp] theorem setCluster_poison (s : State) (n : Nat) (x : Cluster) : (s.setCluster n x).poison = s.poison := rfl
@[simp] theorem setCluster_memErr (s : State) (n : Nat) (x : Cluster) : (s.setCluster n x).memErr = s.memErr := rfl
@[simp] theorem setCluster_codeHist (s : State) (n : Nat) (x : Cluster) : (s.setCluster n x).codeHist = s.codeHist := rfl
@[simp] theorem setCluster_dir (s : State) (n : Nat) (x : Cluster) : (s.setCluster n x).dir = s.dir := rfl
@[simp] theorem setCluster_pkg (s : State) (n : Nat) (x : Cluster) : (s.setCluster n x).pkg = s.pkg := rfl
@[simp] theorem setCluster_wakeTable (s : State) (n : Nat) (x : Cluster) : (s.setCluster n x).wakeTable = s.wakeTable := rfl
@[simp] theorem setCluster_fns (s : State) (n : Nat) (x : Cluster) : (s.setCluster n x).fns = s.fns := rfl
@[simp] theorem setCluster_hostMem (s : State) (n : Nat) (x : Cluster) : (s.setCluster n x).hostMem = s.hostMem := rfl
@[simp] theorem setCluster_peers (s : State) (n : Nat) (x : Cluster) : (s.setCluster n x).peers = s.peers := rfl
@[simp] theorem setCluster_owed (s : State) (n : Nat) (x : Cluster) : (s.setCluster n x).owed = s.owed := rfl
@[simp] theorem setCluster_ports (s : State) (n : Nat) (x : Cluster) : (s.setCluster n x).ports = s.ports := rfl
@[simp] theorem setCluster_routes (s : State) (n : Nat) (x : Cluster) : (s.setCluster n x).routes = s.routes := rfl
@[simp] theorem setCluster_devId (s : State) (n : Nat) (x : Cluster) : (s.setCluster n x).devId = s.devId := rfl
@[simp] theorem setCluster_fw (s : State) (n : Nat) (x : Cluster) : (s.setCluster n x).fw = s.fw := rfl
@[simp] theorem setCluster_rlim (s : State) (n : Nat) (x : Cluster) : (s.setCluster n x).rlim = s.rlim := rfl
@[simp] theorem setCluster_mtgt (s : State) (n : Nat) (x : Cluster) : (s.setCluster n x).mtgt = s.mtgt := rfl
@[simp] theorem setCluster_hot (s : State) (n : Nat) (x : Cluster) : (s.setCluster n x).hot = s.hot := rfl
@[simp] theorem setCluster_plim (s : State) (n : Nat) (x : Cluster) : (s.setCluster n x).plim = s.plim := rfl
@[simp] theorem setCluster_tration (s : State) (n : Nat) (x : Cluster) : (s.setCluster n x).tration = s.tration := rfl
@[simp] theorem setCluster_therm (s : State) (n : Nat) (x : Cluster) : (s.setCluster n x).therm = s.therm := rfl
@[simp] theorem setCluster_allHot (s : State) (n : Nat) (x : Cluster) : (s.setCluster n x).allHot = s.allHot := rfl
@[simp] theorem setCluster_errb (s : State) (n : Nat) (x : Cluster) : (s.setCluster n x).errb = s.errb := rfl
@[simp] theorem setCluster_errovf (s : State) (n : Nat) (x : Cluster) : (s.setCluster n x).errovf = s.errovf := rfl
@[simp] theorem setCluster_dce (s : State) (n : Nat) (x : Cluster) : (s.setCluster n x).dce = s.dce := rfl
@[simp] theorem setCluster_hbmStacks (s : State) (n : Nat) (x : Cluster) : (s.setCluster n x).hbmStacks = s.hbmStacks := rfl
@[simp] theorem setCluster_errWindow (s : State) (n : Nat) (x : Cluster) : (s.setCluster n x).errWindow = s.errWindow := rfl
@[simp] theorem setCluster_held (s : State) (n : Nat) (x : Cluster) : (s.setCluster n x).held = s.held := rfl
@[simp] theorem setCluster_hostRead (s : State) (n : Nat) (x : Cluster) : (s.setCluster n x).hostRead = s.hostRead := rfl
@[simp] theorem setCluster_hostLines (s : State) (n : Nat) (x : Cluster) : (s.setCluster n x).hostLines = s.hostLines := rfl
@[simp] theorem setCluster_heartbeats (s : State) (n : Nat) (x : Cluster) : (s.setCluster n x).heartbeats = s.heartbeats := rfl
@[simp] theorem setCluster_declared (s : State) (n : Nat) (x : Cluster) : (s.setCluster n x).declared = s.declared := rfl

/-! ### `State.setSlice` -/

@[simp] theorem setSlice_agenda (s : State) (n : Nat) (x : Slice) : (s.setSlice n x).agenda = s.agenda := rfl
@[simp] theorem setSlice_focus (s : State) (n : Nat) (x : Slice) : (s.setSlice n x).focus = s.focus := rfl
@[simp] theorem setSlice_freeCtr (s : State) (n : Nat) (x : Slice) : (s.setSlice n x).freeCtr = s.freeCtr := rfl
@[simp] theorem setSlice_devPos (s : State) (n : Nat) (x : Slice) : (s.setSlice n x).devPos = s.devPos := rfl
@[simp] theorem setSlice_clock (s : State) (n : Nat) (x : Slice) : (s.setSlice n x).clock = s.clock := rfl
@[simp] theorem setSlice_fab (s : State) (n : Nat) (x : Slice) : (s.setSlice n x).fab = s.fab := rfl
@[simp] theorem setSlice_leases (s : State) (n : Nat) (x : Slice) : (s.setSlice n x).leases = s.leases := rfl
@[simp] theorem setSlice_windows (s : State) (n : Nat) (x : Slice) : (s.setSlice n x).windows = s.windows := rfl
@[simp] theorem setSlice_posts (s : State) (n : Nat) (x : Slice) : (s.setSlice n x).posts = s.posts := rfl
@[simp] theorem setSlice_powered (s : State) (n : Nat) (x : Slice) : (s.setSlice n x).powered = s.powered := rfl
@[simp] theorem setSlice_waves (s : State) (n : Nat) (x : Slice) : (s.setSlice n x).waves = s.waves := rfl
@[simp] theorem setSlice_crews (s : State) (n : Nat) (x : Slice) : (s.setSlice n x).crews = s.crews := rfl
@[simp] theorem setSlice_convoys (s : State) (n : Nat) (x : Slice) : (s.setSlice n x).convoys = s.convoys := rfl
@[simp] theorem setSlice_grids (s : State) (n : Nat) (x : Slice) : (s.setSlice n x).grids = s.grids := rfl
@[simp] theorem setSlice_nextConvoy (s : State) (n : Nat) (x : Slice) : (s.setSlice n x).nextConvoy = s.nextConvoy := rfl
@[simp] theorem setSlice_nextGrid (s : State) (n : Nat) (x : Slice) : (s.setSlice n x).nextGrid = s.nextGrid := rfl
@[simp] theorem setSlice_cores (s : State) (n : Nat) (x : Slice) : (s.setSlice n x).cores = s.cores := rfl
@[simp] theorem setSlice_clusters (s : State) (n : Nat) (x : Slice) : (s.setSlice n x).clusters = s.clusters := rfl
@[simp] theorem setSlice_dies (s : State) (n : Nat) (x : Slice) : (s.setSlice n x).dies = s.dies := rfl
@[simp] theorem setSlice_hbm (s : State) (n : Nat) (x : Slice) : (s.setSlice n x).hbm = s.hbm := rfl
@[simp] theorem setSlice_poison (s : State) (n : Nat) (x : Slice) : (s.setSlice n x).poison = s.poison := rfl
@[simp] theorem setSlice_memErr (s : State) (n : Nat) (x : Slice) : (s.setSlice n x).memErr = s.memErr := rfl
@[simp] theorem setSlice_codeHist (s : State) (n : Nat) (x : Slice) : (s.setSlice n x).codeHist = s.codeHist := rfl
@[simp] theorem setSlice_dir (s : State) (n : Nat) (x : Slice) : (s.setSlice n x).dir = s.dir := rfl
@[simp] theorem setSlice_pkg (s : State) (n : Nat) (x : Slice) : (s.setSlice n x).pkg = s.pkg := rfl
@[simp] theorem setSlice_wakeTable (s : State) (n : Nat) (x : Slice) : (s.setSlice n x).wakeTable = s.wakeTable := rfl
@[simp] theorem setSlice_fns (s : State) (n : Nat) (x : Slice) : (s.setSlice n x).fns = s.fns := rfl
@[simp] theorem setSlice_hostMem (s : State) (n : Nat) (x : Slice) : (s.setSlice n x).hostMem = s.hostMem := rfl
@[simp] theorem setSlice_peers (s : State) (n : Nat) (x : Slice) : (s.setSlice n x).peers = s.peers := rfl
@[simp] theorem setSlice_owed (s : State) (n : Nat) (x : Slice) : (s.setSlice n x).owed = s.owed := rfl
@[simp] theorem setSlice_ports (s : State) (n : Nat) (x : Slice) : (s.setSlice n x).ports = s.ports := rfl
@[simp] theorem setSlice_routes (s : State) (n : Nat) (x : Slice) : (s.setSlice n x).routes = s.routes := rfl
@[simp] theorem setSlice_devId (s : State) (n : Nat) (x : Slice) : (s.setSlice n x).devId = s.devId := rfl
@[simp] theorem setSlice_fw (s : State) (n : Nat) (x : Slice) : (s.setSlice n x).fw = s.fw := rfl
@[simp] theorem setSlice_rlim (s : State) (n : Nat) (x : Slice) : (s.setSlice n x).rlim = s.rlim := rfl
@[simp] theorem setSlice_mtgt (s : State) (n : Nat) (x : Slice) : (s.setSlice n x).mtgt = s.mtgt := rfl
@[simp] theorem setSlice_hot (s : State) (n : Nat) (x : Slice) : (s.setSlice n x).hot = s.hot := rfl
@[simp] theorem setSlice_plim (s : State) (n : Nat) (x : Slice) : (s.setSlice n x).plim = s.plim := rfl
@[simp] theorem setSlice_tration (s : State) (n : Nat) (x : Slice) : (s.setSlice n x).tration = s.tration := rfl
@[simp] theorem setSlice_therm (s : State) (n : Nat) (x : Slice) : (s.setSlice n x).therm = s.therm := rfl
@[simp] theorem setSlice_allHot (s : State) (n : Nat) (x : Slice) : (s.setSlice n x).allHot = s.allHot := rfl
@[simp] theorem setSlice_errb (s : State) (n : Nat) (x : Slice) : (s.setSlice n x).errb = s.errb := rfl
@[simp] theorem setSlice_errovf (s : State) (n : Nat) (x : Slice) : (s.setSlice n x).errovf = s.errovf := rfl
@[simp] theorem setSlice_dce (s : State) (n : Nat) (x : Slice) : (s.setSlice n x).dce = s.dce := rfl
@[simp] theorem setSlice_hbmStacks (s : State) (n : Nat) (x : Slice) : (s.setSlice n x).hbmStacks = s.hbmStacks := rfl
@[simp] theorem setSlice_errWindow (s : State) (n : Nat) (x : Slice) : (s.setSlice n x).errWindow = s.errWindow := rfl
@[simp] theorem setSlice_held (s : State) (n : Nat) (x : Slice) : (s.setSlice n x).held = s.held := rfl
@[simp] theorem setSlice_hostRead (s : State) (n : Nat) (x : Slice) : (s.setSlice n x).hostRead = s.hostRead := rfl
@[simp] theorem setSlice_hostLines (s : State) (n : Nat) (x : Slice) : (s.setSlice n x).hostLines = s.hostLines := rfl
@[simp] theorem setSlice_heartbeats (s : State) (n : Nat) (x : Slice) : (s.setSlice n x).heartbeats = s.heartbeats := rfl
@[simp] theorem setSlice_declared (s : State) (n : Nat) (x : Slice) : (s.setSlice n x).declared = s.declared := rfl

/-! ### `State.setFn` -/

@[simp] theorem setFn_agenda (s : State) (n : Nat) (x : Fn) : (s.setFn n x).agenda = s.agenda := rfl
@[simp] theorem setFn_focus (s : State) (n : Nat) (x : Fn) : (s.setFn n x).focus = s.focus := rfl
@[simp] theorem setFn_freeCtr (s : State) (n : Nat) (x : Fn) : (s.setFn n x).freeCtr = s.freeCtr := rfl
@[simp] theorem setFn_devPos (s : State) (n : Nat) (x : Fn) : (s.setFn n x).devPos = s.devPos := rfl
@[simp] theorem setFn_clock (s : State) (n : Nat) (x : Fn) : (s.setFn n x).clock = s.clock := rfl
@[simp] theorem setFn_fab (s : State) (n : Nat) (x : Fn) : (s.setFn n x).fab = s.fab := rfl
@[simp] theorem setFn_leases (s : State) (n : Nat) (x : Fn) : (s.setFn n x).leases = s.leases := rfl
@[simp] theorem setFn_windows (s : State) (n : Nat) (x : Fn) : (s.setFn n x).windows = s.windows := rfl
@[simp] theorem setFn_posts (s : State) (n : Nat) (x : Fn) : (s.setFn n x).posts = s.posts := rfl
@[simp] theorem setFn_powered (s : State) (n : Nat) (x : Fn) : (s.setFn n x).powered = s.powered := rfl
@[simp] theorem setFn_waves (s : State) (n : Nat) (x : Fn) : (s.setFn n x).waves = s.waves := rfl
@[simp] theorem setFn_crews (s : State) (n : Nat) (x : Fn) : (s.setFn n x).crews = s.crews := rfl
@[simp] theorem setFn_convoys (s : State) (n : Nat) (x : Fn) : (s.setFn n x).convoys = s.convoys := rfl
@[simp] theorem setFn_grids (s : State) (n : Nat) (x : Fn) : (s.setFn n x).grids = s.grids := rfl
@[simp] theorem setFn_nextConvoy (s : State) (n : Nat) (x : Fn) : (s.setFn n x).nextConvoy = s.nextConvoy := rfl
@[simp] theorem setFn_nextGrid (s : State) (n : Nat) (x : Fn) : (s.setFn n x).nextGrid = s.nextGrid := rfl
@[simp] theorem setFn_cores (s : State) (n : Nat) (x : Fn) : (s.setFn n x).cores = s.cores := rfl
@[simp] theorem setFn_clusters (s : State) (n : Nat) (x : Fn) : (s.setFn n x).clusters = s.clusters := rfl
@[simp] theorem setFn_slices (s : State) (n : Nat) (x : Fn) : (s.setFn n x).slices = s.slices := rfl
@[simp] theorem setFn_dies (s : State) (n : Nat) (x : Fn) : (s.setFn n x).dies = s.dies := rfl
@[simp] theorem setFn_hbm (s : State) (n : Nat) (x : Fn) : (s.setFn n x).hbm = s.hbm := rfl
@[simp] theorem setFn_poison (s : State) (n : Nat) (x : Fn) : (s.setFn n x).poison = s.poison := rfl
@[simp] theorem setFn_memErr (s : State) (n : Nat) (x : Fn) : (s.setFn n x).memErr = s.memErr := rfl
@[simp] theorem setFn_codeHist (s : State) (n : Nat) (x : Fn) : (s.setFn n x).codeHist = s.codeHist := rfl
@[simp] theorem setFn_dir (s : State) (n : Nat) (x : Fn) : (s.setFn n x).dir = s.dir := rfl
@[simp] theorem setFn_pkg (s : State) (n : Nat) (x : Fn) : (s.setFn n x).pkg = s.pkg := rfl
@[simp] theorem setFn_wakeTable (s : State) (n : Nat) (x : Fn) : (s.setFn n x).wakeTable = s.wakeTable := rfl
@[simp] theorem setFn_hostMem (s : State) (n : Nat) (x : Fn) : (s.setFn n x).hostMem = s.hostMem := rfl
@[simp] theorem setFn_peers (s : State) (n : Nat) (x : Fn) : (s.setFn n x).peers = s.peers := rfl
@[simp] theorem setFn_owed (s : State) (n : Nat) (x : Fn) : (s.setFn n x).owed = s.owed := rfl
@[simp] theorem setFn_ports (s : State) (n : Nat) (x : Fn) : (s.setFn n x).ports = s.ports := rfl
@[simp] theorem setFn_routes (s : State) (n : Nat) (x : Fn) : (s.setFn n x).routes = s.routes := rfl
@[simp] theorem setFn_devId (s : State) (n : Nat) (x : Fn) : (s.setFn n x).devId = s.devId := rfl
@[simp] theorem setFn_fw (s : State) (n : Nat) (x : Fn) : (s.setFn n x).fw = s.fw := rfl
@[simp] theorem setFn_rlim (s : State) (n : Nat) (x : Fn) : (s.setFn n x).rlim = s.rlim := rfl
@[simp] theorem setFn_mtgt (s : State) (n : Nat) (x : Fn) : (s.setFn n x).mtgt = s.mtgt := rfl
@[simp] theorem setFn_hot (s : State) (n : Nat) (x : Fn) : (s.setFn n x).hot = s.hot := rfl
@[simp] theorem setFn_plim (s : State) (n : Nat) (x : Fn) : (s.setFn n x).plim = s.plim := rfl
@[simp] theorem setFn_tration (s : State) (n : Nat) (x : Fn) : (s.setFn n x).tration = s.tration := rfl
@[simp] theorem setFn_therm (s : State) (n : Nat) (x : Fn) : (s.setFn n x).therm = s.therm := rfl
@[simp] theorem setFn_allHot (s : State) (n : Nat) (x : Fn) : (s.setFn n x).allHot = s.allHot := rfl
@[simp] theorem setFn_errb (s : State) (n : Nat) (x : Fn) : (s.setFn n x).errb = s.errb := rfl
@[simp] theorem setFn_errovf (s : State) (n : Nat) (x : Fn) : (s.setFn n x).errovf = s.errovf := rfl
@[simp] theorem setFn_dce (s : State) (n : Nat) (x : Fn) : (s.setFn n x).dce = s.dce := rfl
@[simp] theorem setFn_hbmStacks (s : State) (n : Nat) (x : Fn) : (s.setFn n x).hbmStacks = s.hbmStacks := rfl
@[simp] theorem setFn_errWindow (s : State) (n : Nat) (x : Fn) : (s.setFn n x).errWindow = s.errWindow := rfl
@[simp] theorem setFn_held (s : State) (n : Nat) (x : Fn) : (s.setFn n x).held = s.held := rfl
@[simp] theorem setFn_hostRead (s : State) (n : Nat) (x : Fn) : (s.setFn n x).hostRead = s.hostRead := rfl
@[simp] theorem setFn_hostLines (s : State) (n : Nat) (x : Fn) : (s.setFn n x).hostLines = s.hostLines := rfl
@[simp] theorem setFn_heartbeats (s : State) (n : Nat) (x : Fn) : (s.setFn n x).heartbeats = s.heartbeats := rfl
@[simp] theorem setFn_declared (s : State) (n : Nat) (x : Fn) : (s.setFn n x).declared = s.declared := rfl

/-! ### `State.setDie` -/

@[simp] theorem setDie_agenda (s : State) (n : Nat) (x : Die) : (s.setDie n x).agenda = s.agenda := rfl
@[simp] theorem setDie_focus (s : State) (n : Nat) (x : Die) : (s.setDie n x).focus = s.focus := rfl
@[simp] theorem setDie_freeCtr (s : State) (n : Nat) (x : Die) : (s.setDie n x).freeCtr = s.freeCtr := rfl
@[simp] theorem setDie_devPos (s : State) (n : Nat) (x : Die) : (s.setDie n x).devPos = s.devPos := rfl
@[simp] theorem setDie_clock (s : State) (n : Nat) (x : Die) : (s.setDie n x).clock = s.clock := rfl
@[simp] theorem setDie_fab (s : State) (n : Nat) (x : Die) : (s.setDie n x).fab = s.fab := rfl
@[simp] theorem setDie_leases (s : State) (n : Nat) (x : Die) : (s.setDie n x).leases = s.leases := rfl
@[simp] theorem setDie_windows (s : State) (n : Nat) (x : Die) : (s.setDie n x).windows = s.windows := rfl
@[simp] theorem setDie_posts (s : State) (n : Nat) (x : Die) : (s.setDie n x).posts = s.posts := rfl
@[simp] theorem setDie_powered (s : State) (n : Nat) (x : Die) : (s.setDie n x).powered = s.powered := rfl
@[simp] theorem setDie_waves (s : State) (n : Nat) (x : Die) : (s.setDie n x).waves = s.waves := rfl
@[simp] theorem setDie_crews (s : State) (n : Nat) (x : Die) : (s.setDie n x).crews = s.crews := rfl
@[simp] theorem setDie_convoys (s : State) (n : Nat) (x : Die) : (s.setDie n x).convoys = s.convoys := rfl
@[simp] theorem setDie_grids (s : State) (n : Nat) (x : Die) : (s.setDie n x).grids = s.grids := rfl
@[simp] theorem setDie_nextConvoy (s : State) (n : Nat) (x : Die) : (s.setDie n x).nextConvoy = s.nextConvoy := rfl
@[simp] theorem setDie_nextGrid (s : State) (n : Nat) (x : Die) : (s.setDie n x).nextGrid = s.nextGrid := rfl
@[simp] theorem setDie_cores (s : State) (n : Nat) (x : Die) : (s.setDie n x).cores = s.cores := rfl
@[simp] theorem setDie_clusters (s : State) (n : Nat) (x : Die) : (s.setDie n x).clusters = s.clusters := rfl
@[simp] theorem setDie_slices (s : State) (n : Nat) (x : Die) : (s.setDie n x).slices = s.slices := rfl
@[simp] theorem setDie_hbm (s : State) (n : Nat) (x : Die) : (s.setDie n x).hbm = s.hbm := rfl
@[simp] theorem setDie_poison (s : State) (n : Nat) (x : Die) : (s.setDie n x).poison = s.poison := rfl
@[simp] theorem setDie_memErr (s : State) (n : Nat) (x : Die) : (s.setDie n x).memErr = s.memErr := rfl
@[simp] theorem setDie_codeHist (s : State) (n : Nat) (x : Die) : (s.setDie n x).codeHist = s.codeHist := rfl
@[simp] theorem setDie_dir (s : State) (n : Nat) (x : Die) : (s.setDie n x).dir = s.dir := rfl
@[simp] theorem setDie_pkg (s : State) (n : Nat) (x : Die) : (s.setDie n x).pkg = s.pkg := rfl
@[simp] theorem setDie_wakeTable (s : State) (n : Nat) (x : Die) : (s.setDie n x).wakeTable = s.wakeTable := rfl
@[simp] theorem setDie_fns (s : State) (n : Nat) (x : Die) : (s.setDie n x).fns = s.fns := rfl
@[simp] theorem setDie_hostMem (s : State) (n : Nat) (x : Die) : (s.setDie n x).hostMem = s.hostMem := rfl
@[simp] theorem setDie_peers (s : State) (n : Nat) (x : Die) : (s.setDie n x).peers = s.peers := rfl
@[simp] theorem setDie_owed (s : State) (n : Nat) (x : Die) : (s.setDie n x).owed = s.owed := rfl
@[simp] theorem setDie_ports (s : State) (n : Nat) (x : Die) : (s.setDie n x).ports = s.ports := rfl
@[simp] theorem setDie_routes (s : State) (n : Nat) (x : Die) : (s.setDie n x).routes = s.routes := rfl
@[simp] theorem setDie_devId (s : State) (n : Nat) (x : Die) : (s.setDie n x).devId = s.devId := rfl
@[simp] theorem setDie_fw (s : State) (n : Nat) (x : Die) : (s.setDie n x).fw = s.fw := rfl
@[simp] theorem setDie_rlim (s : State) (n : Nat) (x : Die) : (s.setDie n x).rlim = s.rlim := rfl
@[simp] theorem setDie_mtgt (s : State) (n : Nat) (x : Die) : (s.setDie n x).mtgt = s.mtgt := rfl
@[simp] theorem setDie_hot (s : State) (n : Nat) (x : Die) : (s.setDie n x).hot = s.hot := rfl
@[simp] theorem setDie_plim (s : State) (n : Nat) (x : Die) : (s.setDie n x).plim = s.plim := rfl
@[simp] theorem setDie_tration (s : State) (n : Nat) (x : Die) : (s.setDie n x).tration = s.tration := rfl
@[simp] theorem setDie_therm (s : State) (n : Nat) (x : Die) : (s.setDie n x).therm = s.therm := rfl
@[simp] theorem setDie_allHot (s : State) (n : Nat) (x : Die) : (s.setDie n x).allHot = s.allHot := rfl
@[simp] theorem setDie_errb (s : State) (n : Nat) (x : Die) : (s.setDie n x).errb = s.errb := rfl
@[simp] theorem setDie_errovf (s : State) (n : Nat) (x : Die) : (s.setDie n x).errovf = s.errovf := rfl
@[simp] theorem setDie_dce (s : State) (n : Nat) (x : Die) : (s.setDie n x).dce = s.dce := rfl
@[simp] theorem setDie_hbmStacks (s : State) (n : Nat) (x : Die) : (s.setDie n x).hbmStacks = s.hbmStacks := rfl
@[simp] theorem setDie_errWindow (s : State) (n : Nat) (x : Die) : (s.setDie n x).errWindow = s.errWindow := rfl
@[simp] theorem setDie_held (s : State) (n : Nat) (x : Die) : (s.setDie n x).held = s.held := rfl
@[simp] theorem setDie_hostRead (s : State) (n : Nat) (x : Die) : (s.setDie n x).hostRead = s.hostRead := rfl
@[simp] theorem setDie_hostLines (s : State) (n : Nat) (x : Die) : (s.setDie n x).hostLines = s.hostLines := rfl
@[simp] theorem setDie_heartbeats (s : State) (n : Nat) (x : Die) : (s.setDie n x).heartbeats = s.heartbeats := rfl
@[simp] theorem setDie_declared (s : State) (n : Nat) (x : Die) : (s.setDie n x).declared = s.declared := rfl

/-! ### `State.setWave` -/

@[simp] theorem setWave_agenda (s : State) (n : WaveId) (x : Wave) : (s.setWave n x).agenda = s.agenda := rfl
@[simp] theorem setWave_focus (s : State) (n : WaveId) (x : Wave) : (s.setWave n x).focus = s.focus := rfl
@[simp] theorem setWave_freeCtr (s : State) (n : WaveId) (x : Wave) : (s.setWave n x).freeCtr = s.freeCtr := rfl
@[simp] theorem setWave_devPos (s : State) (n : WaveId) (x : Wave) : (s.setWave n x).devPos = s.devPos := rfl
@[simp] theorem setWave_clock (s : State) (n : WaveId) (x : Wave) : (s.setWave n x).clock = s.clock := rfl
@[simp] theorem setWave_fab (s : State) (n : WaveId) (x : Wave) : (s.setWave n x).fab = s.fab := rfl
@[simp] theorem setWave_leases (s : State) (n : WaveId) (x : Wave) : (s.setWave n x).leases = s.leases := rfl
@[simp] theorem setWave_windows (s : State) (n : WaveId) (x : Wave) : (s.setWave n x).windows = s.windows := rfl
@[simp] theorem setWave_posts (s : State) (n : WaveId) (x : Wave) : (s.setWave n x).posts = s.posts := rfl
@[simp] theorem setWave_powered (s : State) (n : WaveId) (x : Wave) : (s.setWave n x).powered = s.powered := rfl
@[simp] theorem setWave_crews (s : State) (n : WaveId) (x : Wave) : (s.setWave n x).crews = s.crews := rfl
@[simp] theorem setWave_convoys (s : State) (n : WaveId) (x : Wave) : (s.setWave n x).convoys = s.convoys := rfl
@[simp] theorem setWave_grids (s : State) (n : WaveId) (x : Wave) : (s.setWave n x).grids = s.grids := rfl
@[simp] theorem setWave_nextConvoy (s : State) (n : WaveId) (x : Wave) : (s.setWave n x).nextConvoy = s.nextConvoy := rfl
@[simp] theorem setWave_nextGrid (s : State) (n : WaveId) (x : Wave) : (s.setWave n x).nextGrid = s.nextGrid := rfl
@[simp] theorem setWave_cores (s : State) (n : WaveId) (x : Wave) : (s.setWave n x).cores = s.cores := rfl
@[simp] theorem setWave_clusters (s : State) (n : WaveId) (x : Wave) : (s.setWave n x).clusters = s.clusters := rfl
@[simp] theorem setWave_slices (s : State) (n : WaveId) (x : Wave) : (s.setWave n x).slices = s.slices := rfl
@[simp] theorem setWave_dies (s : State) (n : WaveId) (x : Wave) : (s.setWave n x).dies = s.dies := rfl
@[simp] theorem setWave_hbm (s : State) (n : WaveId) (x : Wave) : (s.setWave n x).hbm = s.hbm := rfl
@[simp] theorem setWave_poison (s : State) (n : WaveId) (x : Wave) : (s.setWave n x).poison = s.poison := rfl
@[simp] theorem setWave_memErr (s : State) (n : WaveId) (x : Wave) : (s.setWave n x).memErr = s.memErr := rfl
@[simp] theorem setWave_codeHist (s : State) (n : WaveId) (x : Wave) : (s.setWave n x).codeHist = s.codeHist := rfl
@[simp] theorem setWave_dir (s : State) (n : WaveId) (x : Wave) : (s.setWave n x).dir = s.dir := rfl
@[simp] theorem setWave_pkg (s : State) (n : WaveId) (x : Wave) : (s.setWave n x).pkg = s.pkg := rfl
@[simp] theorem setWave_wakeTable (s : State) (n : WaveId) (x : Wave) : (s.setWave n x).wakeTable = s.wakeTable := rfl
@[simp] theorem setWave_fns (s : State) (n : WaveId) (x : Wave) : (s.setWave n x).fns = s.fns := rfl
@[simp] theorem setWave_hostMem (s : State) (n : WaveId) (x : Wave) : (s.setWave n x).hostMem = s.hostMem := rfl
@[simp] theorem setWave_peers (s : State) (n : WaveId) (x : Wave) : (s.setWave n x).peers = s.peers := rfl
@[simp] theorem setWave_owed (s : State) (n : WaveId) (x : Wave) : (s.setWave n x).owed = s.owed := rfl
@[simp] theorem setWave_ports (s : State) (n : WaveId) (x : Wave) : (s.setWave n x).ports = s.ports := rfl
@[simp] theorem setWave_routes (s : State) (n : WaveId) (x : Wave) : (s.setWave n x).routes = s.routes := rfl
@[simp] theorem setWave_devId (s : State) (n : WaveId) (x : Wave) : (s.setWave n x).devId = s.devId := rfl
@[simp] theorem setWave_fw (s : State) (n : WaveId) (x : Wave) : (s.setWave n x).fw = s.fw := rfl
@[simp] theorem setWave_rlim (s : State) (n : WaveId) (x : Wave) : (s.setWave n x).rlim = s.rlim := rfl
@[simp] theorem setWave_mtgt (s : State) (n : WaveId) (x : Wave) : (s.setWave n x).mtgt = s.mtgt := rfl
@[simp] theorem setWave_hot (s : State) (n : WaveId) (x : Wave) : (s.setWave n x).hot = s.hot := rfl
@[simp] theorem setWave_plim (s : State) (n : WaveId) (x : Wave) : (s.setWave n x).plim = s.plim := rfl
@[simp] theorem setWave_tration (s : State) (n : WaveId) (x : Wave) : (s.setWave n x).tration = s.tration := rfl
@[simp] theorem setWave_therm (s : State) (n : WaveId) (x : Wave) : (s.setWave n x).therm = s.therm := rfl
@[simp] theorem setWave_allHot (s : State) (n : WaveId) (x : Wave) : (s.setWave n x).allHot = s.allHot := rfl
@[simp] theorem setWave_errb (s : State) (n : WaveId) (x : Wave) : (s.setWave n x).errb = s.errb := rfl
@[simp] theorem setWave_errovf (s : State) (n : WaveId) (x : Wave) : (s.setWave n x).errovf = s.errovf := rfl
@[simp] theorem setWave_dce (s : State) (n : WaveId) (x : Wave) : (s.setWave n x).dce = s.dce := rfl
@[simp] theorem setWave_hbmStacks (s : State) (n : WaveId) (x : Wave) : (s.setWave n x).hbmStacks = s.hbmStacks := rfl
@[simp] theorem setWave_errWindow (s : State) (n : WaveId) (x : Wave) : (s.setWave n x).errWindow = s.errWindow := rfl
@[simp] theorem setWave_held (s : State) (n : WaveId) (x : Wave) : (s.setWave n x).held = s.held := rfl
@[simp] theorem setWave_hostRead (s : State) (n : WaveId) (x : Wave) : (s.setWave n x).hostRead = s.hostRead := rfl
@[simp] theorem setWave_hostLines (s : State) (n : WaveId) (x : Wave) : (s.setWave n x).hostLines = s.hostLines := rfl
@[simp] theorem setWave_heartbeats (s : State) (n : WaveId) (x : Wave) : (s.setWave n x).heartbeats = s.heartbeats := rfl
@[simp] theorem setWave_declared (s : State) (n : WaveId) (x : Wave) : (s.setWave n x).declared = s.declared := rfl

/-! ### `State.setCrew` -/

@[simp] theorem setCrew_agenda (s : State) (n : Nat) (x : Crew) : (s.setCrew n x).agenda = s.agenda := rfl
@[simp] theorem setCrew_focus (s : State) (n : Nat) (x : Crew) : (s.setCrew n x).focus = s.focus := rfl
@[simp] theorem setCrew_freeCtr (s : State) (n : Nat) (x : Crew) : (s.setCrew n x).freeCtr = s.freeCtr := rfl
@[simp] theorem setCrew_devPos (s : State) (n : Nat) (x : Crew) : (s.setCrew n x).devPos = s.devPos := rfl
@[simp] theorem setCrew_clock (s : State) (n : Nat) (x : Crew) : (s.setCrew n x).clock = s.clock := rfl
@[simp] theorem setCrew_fab (s : State) (n : Nat) (x : Crew) : (s.setCrew n x).fab = s.fab := rfl
@[simp] theorem setCrew_leases (s : State) (n : Nat) (x : Crew) : (s.setCrew n x).leases = s.leases := rfl
@[simp] theorem setCrew_windows (s : State) (n : Nat) (x : Crew) : (s.setCrew n x).windows = s.windows := rfl
@[simp] theorem setCrew_posts (s : State) (n : Nat) (x : Crew) : (s.setCrew n x).posts = s.posts := rfl
@[simp] theorem setCrew_powered (s : State) (n : Nat) (x : Crew) : (s.setCrew n x).powered = s.powered := rfl
@[simp] theorem setCrew_waves (s : State) (n : Nat) (x : Crew) : (s.setCrew n x).waves = s.waves := rfl
@[simp] theorem setCrew_convoys (s : State) (n : Nat) (x : Crew) : (s.setCrew n x).convoys = s.convoys := rfl
@[simp] theorem setCrew_grids (s : State) (n : Nat) (x : Crew) : (s.setCrew n x).grids = s.grids := rfl
@[simp] theorem setCrew_nextConvoy (s : State) (n : Nat) (x : Crew) : (s.setCrew n x).nextConvoy = s.nextConvoy := rfl
@[simp] theorem setCrew_nextGrid (s : State) (n : Nat) (x : Crew) : (s.setCrew n x).nextGrid = s.nextGrid := rfl
@[simp] theorem setCrew_cores (s : State) (n : Nat) (x : Crew) : (s.setCrew n x).cores = s.cores := rfl
@[simp] theorem setCrew_clusters (s : State) (n : Nat) (x : Crew) : (s.setCrew n x).clusters = s.clusters := rfl
@[simp] theorem setCrew_slices (s : State) (n : Nat) (x : Crew) : (s.setCrew n x).slices = s.slices := rfl
@[simp] theorem setCrew_dies (s : State) (n : Nat) (x : Crew) : (s.setCrew n x).dies = s.dies := rfl
@[simp] theorem setCrew_hbm (s : State) (n : Nat) (x : Crew) : (s.setCrew n x).hbm = s.hbm := rfl
@[simp] theorem setCrew_poison (s : State) (n : Nat) (x : Crew) : (s.setCrew n x).poison = s.poison := rfl
@[simp] theorem setCrew_memErr (s : State) (n : Nat) (x : Crew) : (s.setCrew n x).memErr = s.memErr := rfl
@[simp] theorem setCrew_codeHist (s : State) (n : Nat) (x : Crew) : (s.setCrew n x).codeHist = s.codeHist := rfl
@[simp] theorem setCrew_dir (s : State) (n : Nat) (x : Crew) : (s.setCrew n x).dir = s.dir := rfl
@[simp] theorem setCrew_pkg (s : State) (n : Nat) (x : Crew) : (s.setCrew n x).pkg = s.pkg := rfl
@[simp] theorem setCrew_wakeTable (s : State) (n : Nat) (x : Crew) : (s.setCrew n x).wakeTable = s.wakeTable := rfl
@[simp] theorem setCrew_fns (s : State) (n : Nat) (x : Crew) : (s.setCrew n x).fns = s.fns := rfl
@[simp] theorem setCrew_hostMem (s : State) (n : Nat) (x : Crew) : (s.setCrew n x).hostMem = s.hostMem := rfl
@[simp] theorem setCrew_peers (s : State) (n : Nat) (x : Crew) : (s.setCrew n x).peers = s.peers := rfl
@[simp] theorem setCrew_owed (s : State) (n : Nat) (x : Crew) : (s.setCrew n x).owed = s.owed := rfl
@[simp] theorem setCrew_ports (s : State) (n : Nat) (x : Crew) : (s.setCrew n x).ports = s.ports := rfl
@[simp] theorem setCrew_routes (s : State) (n : Nat) (x : Crew) : (s.setCrew n x).routes = s.routes := rfl
@[simp] theorem setCrew_devId (s : State) (n : Nat) (x : Crew) : (s.setCrew n x).devId = s.devId := rfl
@[simp] theorem setCrew_fw (s : State) (n : Nat) (x : Crew) : (s.setCrew n x).fw = s.fw := rfl
@[simp] theorem setCrew_rlim (s : State) (n : Nat) (x : Crew) : (s.setCrew n x).rlim = s.rlim := rfl
@[simp] theorem setCrew_mtgt (s : State) (n : Nat) (x : Crew) : (s.setCrew n x).mtgt = s.mtgt := rfl
@[simp] theorem setCrew_hot (s : State) (n : Nat) (x : Crew) : (s.setCrew n x).hot = s.hot := rfl
@[simp] theorem setCrew_plim (s : State) (n : Nat) (x : Crew) : (s.setCrew n x).plim = s.plim := rfl
@[simp] theorem setCrew_tration (s : State) (n : Nat) (x : Crew) : (s.setCrew n x).tration = s.tration := rfl
@[simp] theorem setCrew_therm (s : State) (n : Nat) (x : Crew) : (s.setCrew n x).therm = s.therm := rfl
@[simp] theorem setCrew_allHot (s : State) (n : Nat) (x : Crew) : (s.setCrew n x).allHot = s.allHot := rfl
@[simp] theorem setCrew_errb (s : State) (n : Nat) (x : Crew) : (s.setCrew n x).errb = s.errb := rfl
@[simp] theorem setCrew_errovf (s : State) (n : Nat) (x : Crew) : (s.setCrew n x).errovf = s.errovf := rfl
@[simp] theorem setCrew_dce (s : State) (n : Nat) (x : Crew) : (s.setCrew n x).dce = s.dce := rfl
@[simp] theorem setCrew_hbmStacks (s : State) (n : Nat) (x : Crew) : (s.setCrew n x).hbmStacks = s.hbmStacks := rfl
@[simp] theorem setCrew_errWindow (s : State) (n : Nat) (x : Crew) : (s.setCrew n x).errWindow = s.errWindow := rfl
@[simp] theorem setCrew_held (s : State) (n : Nat) (x : Crew) : (s.setCrew n x).held = s.held := rfl
@[simp] theorem setCrew_hostRead (s : State) (n : Nat) (x : Crew) : (s.setCrew n x).hostRead = s.hostRead := rfl
@[simp] theorem setCrew_hostLines (s : State) (n : Nat) (x : Crew) : (s.setCrew n x).hostLines = s.hostLines := rfl
@[simp] theorem setCrew_heartbeats (s : State) (n : Nat) (x : Crew) : (s.setCrew n x).heartbeats = s.heartbeats := rfl
@[simp] theorem setCrew_declared (s : State) (n : Nat) (x : Crew) : (s.setCrew n x).declared = s.declared := rfl

/-! ### `State.setConvoy` -/

@[simp] theorem setConvoy_agenda (s : State) (n : Nat) (x : Convoy) : (s.setConvoy n x).agenda = s.agenda := rfl
@[simp] theorem setConvoy_focus (s : State) (n : Nat) (x : Convoy) : (s.setConvoy n x).focus = s.focus := rfl
@[simp] theorem setConvoy_freeCtr (s : State) (n : Nat) (x : Convoy) : (s.setConvoy n x).freeCtr = s.freeCtr := rfl
@[simp] theorem setConvoy_devPos (s : State) (n : Nat) (x : Convoy) : (s.setConvoy n x).devPos = s.devPos := rfl
@[simp] theorem setConvoy_clock (s : State) (n : Nat) (x : Convoy) : (s.setConvoy n x).clock = s.clock := rfl
@[simp] theorem setConvoy_fab (s : State) (n : Nat) (x : Convoy) : (s.setConvoy n x).fab = s.fab := rfl
@[simp] theorem setConvoy_leases (s : State) (n : Nat) (x : Convoy) : (s.setConvoy n x).leases = s.leases := rfl
@[simp] theorem setConvoy_windows (s : State) (n : Nat) (x : Convoy) : (s.setConvoy n x).windows = s.windows := rfl
@[simp] theorem setConvoy_posts (s : State) (n : Nat) (x : Convoy) : (s.setConvoy n x).posts = s.posts := rfl
@[simp] theorem setConvoy_powered (s : State) (n : Nat) (x : Convoy) : (s.setConvoy n x).powered = s.powered := rfl
@[simp] theorem setConvoy_waves (s : State) (n : Nat) (x : Convoy) : (s.setConvoy n x).waves = s.waves := rfl
@[simp] theorem setConvoy_crews (s : State) (n : Nat) (x : Convoy) : (s.setConvoy n x).crews = s.crews := rfl
@[simp] theorem setConvoy_grids (s : State) (n : Nat) (x : Convoy) : (s.setConvoy n x).grids = s.grids := rfl
@[simp] theorem setConvoy_nextConvoy (s : State) (n : Nat) (x : Convoy) : (s.setConvoy n x).nextConvoy = s.nextConvoy := rfl
@[simp] theorem setConvoy_nextGrid (s : State) (n : Nat) (x : Convoy) : (s.setConvoy n x).nextGrid = s.nextGrid := rfl
@[simp] theorem setConvoy_cores (s : State) (n : Nat) (x : Convoy) : (s.setConvoy n x).cores = s.cores := rfl
@[simp] theorem setConvoy_clusters (s : State) (n : Nat) (x : Convoy) : (s.setConvoy n x).clusters = s.clusters := rfl
@[simp] theorem setConvoy_slices (s : State) (n : Nat) (x : Convoy) : (s.setConvoy n x).slices = s.slices := rfl
@[simp] theorem setConvoy_dies (s : State) (n : Nat) (x : Convoy) : (s.setConvoy n x).dies = s.dies := rfl
@[simp] theorem setConvoy_hbm (s : State) (n : Nat) (x : Convoy) : (s.setConvoy n x).hbm = s.hbm := rfl
@[simp] theorem setConvoy_poison (s : State) (n : Nat) (x : Convoy) : (s.setConvoy n x).poison = s.poison := rfl
@[simp] theorem setConvoy_memErr (s : State) (n : Nat) (x : Convoy) : (s.setConvoy n x).memErr = s.memErr := rfl
@[simp] theorem setConvoy_codeHist (s : State) (n : Nat) (x : Convoy) : (s.setConvoy n x).codeHist = s.codeHist := rfl
@[simp] theorem setConvoy_dir (s : State) (n : Nat) (x : Convoy) : (s.setConvoy n x).dir = s.dir := rfl
@[simp] theorem setConvoy_pkg (s : State) (n : Nat) (x : Convoy) : (s.setConvoy n x).pkg = s.pkg := rfl
@[simp] theorem setConvoy_wakeTable (s : State) (n : Nat) (x : Convoy) : (s.setConvoy n x).wakeTable = s.wakeTable := rfl
@[simp] theorem setConvoy_fns (s : State) (n : Nat) (x : Convoy) : (s.setConvoy n x).fns = s.fns := rfl
@[simp] theorem setConvoy_hostMem (s : State) (n : Nat) (x : Convoy) : (s.setConvoy n x).hostMem = s.hostMem := rfl
@[simp] theorem setConvoy_peers (s : State) (n : Nat) (x : Convoy) : (s.setConvoy n x).peers = s.peers := rfl
@[simp] theorem setConvoy_owed (s : State) (n : Nat) (x : Convoy) : (s.setConvoy n x).owed = s.owed := rfl
@[simp] theorem setConvoy_ports (s : State) (n : Nat) (x : Convoy) : (s.setConvoy n x).ports = s.ports := rfl
@[simp] theorem setConvoy_routes (s : State) (n : Nat) (x : Convoy) : (s.setConvoy n x).routes = s.routes := rfl
@[simp] theorem setConvoy_devId (s : State) (n : Nat) (x : Convoy) : (s.setConvoy n x).devId = s.devId := rfl
@[simp] theorem setConvoy_fw (s : State) (n : Nat) (x : Convoy) : (s.setConvoy n x).fw = s.fw := rfl
@[simp] theorem setConvoy_rlim (s : State) (n : Nat) (x : Convoy) : (s.setConvoy n x).rlim = s.rlim := rfl
@[simp] theorem setConvoy_mtgt (s : State) (n : Nat) (x : Convoy) : (s.setConvoy n x).mtgt = s.mtgt := rfl
@[simp] theorem setConvoy_hot (s : State) (n : Nat) (x : Convoy) : (s.setConvoy n x).hot = s.hot := rfl
@[simp] theorem setConvoy_plim (s : State) (n : Nat) (x : Convoy) : (s.setConvoy n x).plim = s.plim := rfl
@[simp] theorem setConvoy_tration (s : State) (n : Nat) (x : Convoy) : (s.setConvoy n x).tration = s.tration := rfl
@[simp] theorem setConvoy_therm (s : State) (n : Nat) (x : Convoy) : (s.setConvoy n x).therm = s.therm := rfl
@[simp] theorem setConvoy_allHot (s : State) (n : Nat) (x : Convoy) : (s.setConvoy n x).allHot = s.allHot := rfl
@[simp] theorem setConvoy_errb (s : State) (n : Nat) (x : Convoy) : (s.setConvoy n x).errb = s.errb := rfl
@[simp] theorem setConvoy_errovf (s : State) (n : Nat) (x : Convoy) : (s.setConvoy n x).errovf = s.errovf := rfl
@[simp] theorem setConvoy_dce (s : State) (n : Nat) (x : Convoy) : (s.setConvoy n x).dce = s.dce := rfl
@[simp] theorem setConvoy_hbmStacks (s : State) (n : Nat) (x : Convoy) : (s.setConvoy n x).hbmStacks = s.hbmStacks := rfl
@[simp] theorem setConvoy_errWindow (s : State) (n : Nat) (x : Convoy) : (s.setConvoy n x).errWindow = s.errWindow := rfl
@[simp] theorem setConvoy_held (s : State) (n : Nat) (x : Convoy) : (s.setConvoy n x).held = s.held := rfl
@[simp] theorem setConvoy_hostRead (s : State) (n : Nat) (x : Convoy) : (s.setConvoy n x).hostRead = s.hostRead := rfl
@[simp] theorem setConvoy_hostLines (s : State) (n : Nat) (x : Convoy) : (s.setConvoy n x).hostLines = s.hostLines := rfl
@[simp] theorem setConvoy_heartbeats (s : State) (n : Nat) (x : Convoy) : (s.setConvoy n x).heartbeats = s.heartbeats := rfl
@[simp] theorem setConvoy_declared (s : State) (n : Nat) (x : Convoy) : (s.setConvoy n x).declared = s.declared := rfl

/-! ### `State.setGrid` -/

@[simp] theorem setGrid_agenda (s : State) (n : Nat) (x : Grid) : (s.setGrid n x).agenda = s.agenda := rfl
@[simp] theorem setGrid_focus (s : State) (n : Nat) (x : Grid) : (s.setGrid n x).focus = s.focus := rfl
@[simp] theorem setGrid_freeCtr (s : State) (n : Nat) (x : Grid) : (s.setGrid n x).freeCtr = s.freeCtr := rfl
@[simp] theorem setGrid_devPos (s : State) (n : Nat) (x : Grid) : (s.setGrid n x).devPos = s.devPos := rfl
@[simp] theorem setGrid_clock (s : State) (n : Nat) (x : Grid) : (s.setGrid n x).clock = s.clock := rfl
@[simp] theorem setGrid_fab (s : State) (n : Nat) (x : Grid) : (s.setGrid n x).fab = s.fab := rfl
@[simp] theorem setGrid_leases (s : State) (n : Nat) (x : Grid) : (s.setGrid n x).leases = s.leases := rfl
@[simp] theorem setGrid_windows (s : State) (n : Nat) (x : Grid) : (s.setGrid n x).windows = s.windows := rfl
@[simp] theorem setGrid_posts (s : State) (n : Nat) (x : Grid) : (s.setGrid n x).posts = s.posts := rfl
@[simp] theorem setGrid_powered (s : State) (n : Nat) (x : Grid) : (s.setGrid n x).powered = s.powered := rfl
@[simp] theorem setGrid_waves (s : State) (n : Nat) (x : Grid) : (s.setGrid n x).waves = s.waves := rfl
@[simp] theorem setGrid_crews (s : State) (n : Nat) (x : Grid) : (s.setGrid n x).crews = s.crews := rfl
@[simp] theorem setGrid_convoys (s : State) (n : Nat) (x : Grid) : (s.setGrid n x).convoys = s.convoys := rfl
@[simp] theorem setGrid_nextConvoy (s : State) (n : Nat) (x : Grid) : (s.setGrid n x).nextConvoy = s.nextConvoy := rfl
@[simp] theorem setGrid_nextGrid (s : State) (n : Nat) (x : Grid) : (s.setGrid n x).nextGrid = s.nextGrid := rfl
@[simp] theorem setGrid_cores (s : State) (n : Nat) (x : Grid) : (s.setGrid n x).cores = s.cores := rfl
@[simp] theorem setGrid_clusters (s : State) (n : Nat) (x : Grid) : (s.setGrid n x).clusters = s.clusters := rfl
@[simp] theorem setGrid_slices (s : State) (n : Nat) (x : Grid) : (s.setGrid n x).slices = s.slices := rfl
@[simp] theorem setGrid_dies (s : State) (n : Nat) (x : Grid) : (s.setGrid n x).dies = s.dies := rfl
@[simp] theorem setGrid_hbm (s : State) (n : Nat) (x : Grid) : (s.setGrid n x).hbm = s.hbm := rfl
@[simp] theorem setGrid_poison (s : State) (n : Nat) (x : Grid) : (s.setGrid n x).poison = s.poison := rfl
@[simp] theorem setGrid_memErr (s : State) (n : Nat) (x : Grid) : (s.setGrid n x).memErr = s.memErr := rfl
@[simp] theorem setGrid_codeHist (s : State) (n : Nat) (x : Grid) : (s.setGrid n x).codeHist = s.codeHist := rfl
@[simp] theorem setGrid_dir (s : State) (n : Nat) (x : Grid) : (s.setGrid n x).dir = s.dir := rfl
@[simp] theorem setGrid_pkg (s : State) (n : Nat) (x : Grid) : (s.setGrid n x).pkg = s.pkg := rfl
@[simp] theorem setGrid_wakeTable (s : State) (n : Nat) (x : Grid) : (s.setGrid n x).wakeTable = s.wakeTable := rfl
@[simp] theorem setGrid_fns (s : State) (n : Nat) (x : Grid) : (s.setGrid n x).fns = s.fns := rfl
@[simp] theorem setGrid_hostMem (s : State) (n : Nat) (x : Grid) : (s.setGrid n x).hostMem = s.hostMem := rfl
@[simp] theorem setGrid_peers (s : State) (n : Nat) (x : Grid) : (s.setGrid n x).peers = s.peers := rfl
@[simp] theorem setGrid_owed (s : State) (n : Nat) (x : Grid) : (s.setGrid n x).owed = s.owed := rfl
@[simp] theorem setGrid_ports (s : State) (n : Nat) (x : Grid) : (s.setGrid n x).ports = s.ports := rfl
@[simp] theorem setGrid_routes (s : State) (n : Nat) (x : Grid) : (s.setGrid n x).routes = s.routes := rfl
@[simp] theorem setGrid_devId (s : State) (n : Nat) (x : Grid) : (s.setGrid n x).devId = s.devId := rfl
@[simp] theorem setGrid_fw (s : State) (n : Nat) (x : Grid) : (s.setGrid n x).fw = s.fw := rfl
@[simp] theorem setGrid_rlim (s : State) (n : Nat) (x : Grid) : (s.setGrid n x).rlim = s.rlim := rfl
@[simp] theorem setGrid_mtgt (s : State) (n : Nat) (x : Grid) : (s.setGrid n x).mtgt = s.mtgt := rfl
@[simp] theorem setGrid_hot (s : State) (n : Nat) (x : Grid) : (s.setGrid n x).hot = s.hot := rfl
@[simp] theorem setGrid_plim (s : State) (n : Nat) (x : Grid) : (s.setGrid n x).plim = s.plim := rfl
@[simp] theorem setGrid_tration (s : State) (n : Nat) (x : Grid) : (s.setGrid n x).tration = s.tration := rfl
@[simp] theorem setGrid_therm (s : State) (n : Nat) (x : Grid) : (s.setGrid n x).therm = s.therm := rfl
@[simp] theorem setGrid_allHot (s : State) (n : Nat) (x : Grid) : (s.setGrid n x).allHot = s.allHot := rfl
@[simp] theorem setGrid_errb (s : State) (n : Nat) (x : Grid) : (s.setGrid n x).errb = s.errb := rfl
@[simp] theorem setGrid_errovf (s : State) (n : Nat) (x : Grid) : (s.setGrid n x).errovf = s.errovf := rfl
@[simp] theorem setGrid_dce (s : State) (n : Nat) (x : Grid) : (s.setGrid n x).dce = s.dce := rfl
@[simp] theorem setGrid_hbmStacks (s : State) (n : Nat) (x : Grid) : (s.setGrid n x).hbmStacks = s.hbmStacks := rfl
@[simp] theorem setGrid_errWindow (s : State) (n : Nat) (x : Grid) : (s.setGrid n x).errWindow = s.errWindow := rfl
@[simp] theorem setGrid_held (s : State) (n : Nat) (x : Grid) : (s.setGrid n x).held = s.held := rfl
@[simp] theorem setGrid_hostRead (s : State) (n : Nat) (x : Grid) : (s.setGrid n x).hostRead = s.hostRead := rfl
@[simp] theorem setGrid_hostLines (s : State) (n : Nat) (x : Grid) : (s.setGrid n x).hostLines = s.hostLines := rfl
@[simp] theorem setGrid_heartbeats (s : State) (n : Nat) (x : Grid) : (s.setGrid n x).heartbeats = s.heartbeats := rfl
@[simp] theorem setGrid_declared (s : State) (n : Nat) (x : Grid) : (s.setGrid n x).declared = s.declared := rfl

/-! ### `State.setLineDir` -/

@[simp] theorem setLineDir_agenda (s : State) (n : Nat) (x : LineDir) : (s.setLineDir n x).agenda = s.agenda := rfl
@[simp] theorem setLineDir_focus (s : State) (n : Nat) (x : LineDir) : (s.setLineDir n x).focus = s.focus := rfl
@[simp] theorem setLineDir_freeCtr (s : State) (n : Nat) (x : LineDir) : (s.setLineDir n x).freeCtr = s.freeCtr := rfl
@[simp] theorem setLineDir_devPos (s : State) (n : Nat) (x : LineDir) : (s.setLineDir n x).devPos = s.devPos := rfl
@[simp] theorem setLineDir_clock (s : State) (n : Nat) (x : LineDir) : (s.setLineDir n x).clock = s.clock := rfl
@[simp] theorem setLineDir_fab (s : State) (n : Nat) (x : LineDir) : (s.setLineDir n x).fab = s.fab := rfl
@[simp] theorem setLineDir_leases (s : State) (n : Nat) (x : LineDir) : (s.setLineDir n x).leases = s.leases := rfl
@[simp] theorem setLineDir_windows (s : State) (n : Nat) (x : LineDir) : (s.setLineDir n x).windows = s.windows := rfl
@[simp] theorem setLineDir_posts (s : State) (n : Nat) (x : LineDir) : (s.setLineDir n x).posts = s.posts := rfl
@[simp] theorem setLineDir_powered (s : State) (n : Nat) (x : LineDir) : (s.setLineDir n x).powered = s.powered := rfl
@[simp] theorem setLineDir_waves (s : State) (n : Nat) (x : LineDir) : (s.setLineDir n x).waves = s.waves := rfl
@[simp] theorem setLineDir_crews (s : State) (n : Nat) (x : LineDir) : (s.setLineDir n x).crews = s.crews := rfl
@[simp] theorem setLineDir_convoys (s : State) (n : Nat) (x : LineDir) : (s.setLineDir n x).convoys = s.convoys := rfl
@[simp] theorem setLineDir_grids (s : State) (n : Nat) (x : LineDir) : (s.setLineDir n x).grids = s.grids := rfl
@[simp] theorem setLineDir_nextConvoy (s : State) (n : Nat) (x : LineDir) : (s.setLineDir n x).nextConvoy = s.nextConvoy := rfl
@[simp] theorem setLineDir_nextGrid (s : State) (n : Nat) (x : LineDir) : (s.setLineDir n x).nextGrid = s.nextGrid := rfl
@[simp] theorem setLineDir_cores (s : State) (n : Nat) (x : LineDir) : (s.setLineDir n x).cores = s.cores := rfl
@[simp] theorem setLineDir_clusters (s : State) (n : Nat) (x : LineDir) : (s.setLineDir n x).clusters = s.clusters := rfl
@[simp] theorem setLineDir_slices (s : State) (n : Nat) (x : LineDir) : (s.setLineDir n x).slices = s.slices := rfl
@[simp] theorem setLineDir_dies (s : State) (n : Nat) (x : LineDir) : (s.setLineDir n x).dies = s.dies := rfl
@[simp] theorem setLineDir_hbm (s : State) (n : Nat) (x : LineDir) : (s.setLineDir n x).hbm = s.hbm := rfl
@[simp] theorem setLineDir_poison (s : State) (n : Nat) (x : LineDir) : (s.setLineDir n x).poison = s.poison := rfl
@[simp] theorem setLineDir_memErr (s : State) (n : Nat) (x : LineDir) : (s.setLineDir n x).memErr = s.memErr := rfl
@[simp] theorem setLineDir_codeHist (s : State) (n : Nat) (x : LineDir) : (s.setLineDir n x).codeHist = s.codeHist := rfl
@[simp] theorem setLineDir_pkg (s : State) (n : Nat) (x : LineDir) : (s.setLineDir n x).pkg = s.pkg := rfl
@[simp] theorem setLineDir_wakeTable (s : State) (n : Nat) (x : LineDir) : (s.setLineDir n x).wakeTable = s.wakeTable := rfl
@[simp] theorem setLineDir_fns (s : State) (n : Nat) (x : LineDir) : (s.setLineDir n x).fns = s.fns := rfl
@[simp] theorem setLineDir_hostMem (s : State) (n : Nat) (x : LineDir) : (s.setLineDir n x).hostMem = s.hostMem := rfl
@[simp] theorem setLineDir_peers (s : State) (n : Nat) (x : LineDir) : (s.setLineDir n x).peers = s.peers := rfl
@[simp] theorem setLineDir_owed (s : State) (n : Nat) (x : LineDir) : (s.setLineDir n x).owed = s.owed := rfl
@[simp] theorem setLineDir_ports (s : State) (n : Nat) (x : LineDir) : (s.setLineDir n x).ports = s.ports := rfl
@[simp] theorem setLineDir_routes (s : State) (n : Nat) (x : LineDir) : (s.setLineDir n x).routes = s.routes := rfl
@[simp] theorem setLineDir_devId (s : State) (n : Nat) (x : LineDir) : (s.setLineDir n x).devId = s.devId := rfl
@[simp] theorem setLineDir_fw (s : State) (n : Nat) (x : LineDir) : (s.setLineDir n x).fw = s.fw := rfl
@[simp] theorem setLineDir_rlim (s : State) (n : Nat) (x : LineDir) : (s.setLineDir n x).rlim = s.rlim := rfl
@[simp] theorem setLineDir_mtgt (s : State) (n : Nat) (x : LineDir) : (s.setLineDir n x).mtgt = s.mtgt := rfl
@[simp] theorem setLineDir_hot (s : State) (n : Nat) (x : LineDir) : (s.setLineDir n x).hot = s.hot := rfl
@[simp] theorem setLineDir_plim (s : State) (n : Nat) (x : LineDir) : (s.setLineDir n x).plim = s.plim := rfl
@[simp] theorem setLineDir_tration (s : State) (n : Nat) (x : LineDir) : (s.setLineDir n x).tration = s.tration := rfl
@[simp] theorem setLineDir_therm (s : State) (n : Nat) (x : LineDir) : (s.setLineDir n x).therm = s.therm := rfl
@[simp] theorem setLineDir_allHot (s : State) (n : Nat) (x : LineDir) : (s.setLineDir n x).allHot = s.allHot := rfl
@[simp] theorem setLineDir_errb (s : State) (n : Nat) (x : LineDir) : (s.setLineDir n x).errb = s.errb := rfl
@[simp] theorem setLineDir_errovf (s : State) (n : Nat) (x : LineDir) : (s.setLineDir n x).errovf = s.errovf := rfl
@[simp] theorem setLineDir_dce (s : State) (n : Nat) (x : LineDir) : (s.setLineDir n x).dce = s.dce := rfl
@[simp] theorem setLineDir_hbmStacks (s : State) (n : Nat) (x : LineDir) : (s.setLineDir n x).hbmStacks = s.hbmStacks := rfl
@[simp] theorem setLineDir_errWindow (s : State) (n : Nat) (x : LineDir) : (s.setLineDir n x).errWindow = s.errWindow := rfl
@[simp] theorem setLineDir_held (s : State) (n : Nat) (x : LineDir) : (s.setLineDir n x).held = s.held := rfl
@[simp] theorem setLineDir_hostRead (s : State) (n : Nat) (x : LineDir) : (s.setLineDir n x).hostRead = s.hostRead := rfl
@[simp] theorem setLineDir_hostLines (s : State) (n : Nat) (x : LineDir) : (s.setLineDir n x).hostLines = s.hostLines := rfl
@[simp] theorem setLineDir_heartbeats (s : State) (n : Nat) (x : LineDir) : (s.setLineDir n x).heartbeats = s.heartbeats := rfl
@[simp] theorem setLineDir_declared (s : State) (n : Nat) (x : LineDir) : (s.setLineDir n x).declared = s.declared := rfl

/-! ### `State.setPort` -/

@[simp] theorem setPort_agenda (s : State) (n : Nat) (x : Port) : (s.setPort n x).agenda = s.agenda := rfl
@[simp] theorem setPort_focus (s : State) (n : Nat) (x : Port) : (s.setPort n x).focus = s.focus := rfl
@[simp] theorem setPort_freeCtr (s : State) (n : Nat) (x : Port) : (s.setPort n x).freeCtr = s.freeCtr := rfl
@[simp] theorem setPort_devPos (s : State) (n : Nat) (x : Port) : (s.setPort n x).devPos = s.devPos := rfl
@[simp] theorem setPort_clock (s : State) (n : Nat) (x : Port) : (s.setPort n x).clock = s.clock := rfl
@[simp] theorem setPort_fab (s : State) (n : Nat) (x : Port) : (s.setPort n x).fab = s.fab := rfl
@[simp] theorem setPort_leases (s : State) (n : Nat) (x : Port) : (s.setPort n x).leases = s.leases := rfl
@[simp] theorem setPort_windows (s : State) (n : Nat) (x : Port) : (s.setPort n x).windows = s.windows := rfl
@[simp] theorem setPort_posts (s : State) (n : Nat) (x : Port) : (s.setPort n x).posts = s.posts := rfl
@[simp] theorem setPort_powered (s : State) (n : Nat) (x : Port) : (s.setPort n x).powered = s.powered := rfl
@[simp] theorem setPort_waves (s : State) (n : Nat) (x : Port) : (s.setPort n x).waves = s.waves := rfl
@[simp] theorem setPort_crews (s : State) (n : Nat) (x : Port) : (s.setPort n x).crews = s.crews := rfl
@[simp] theorem setPort_convoys (s : State) (n : Nat) (x : Port) : (s.setPort n x).convoys = s.convoys := rfl
@[simp] theorem setPort_grids (s : State) (n : Nat) (x : Port) : (s.setPort n x).grids = s.grids := rfl
@[simp] theorem setPort_nextConvoy (s : State) (n : Nat) (x : Port) : (s.setPort n x).nextConvoy = s.nextConvoy := rfl
@[simp] theorem setPort_nextGrid (s : State) (n : Nat) (x : Port) : (s.setPort n x).nextGrid = s.nextGrid := rfl
@[simp] theorem setPort_cores (s : State) (n : Nat) (x : Port) : (s.setPort n x).cores = s.cores := rfl
@[simp] theorem setPort_clusters (s : State) (n : Nat) (x : Port) : (s.setPort n x).clusters = s.clusters := rfl
@[simp] theorem setPort_slices (s : State) (n : Nat) (x : Port) : (s.setPort n x).slices = s.slices := rfl
@[simp] theorem setPort_dies (s : State) (n : Nat) (x : Port) : (s.setPort n x).dies = s.dies := rfl
@[simp] theorem setPort_hbm (s : State) (n : Nat) (x : Port) : (s.setPort n x).hbm = s.hbm := rfl
@[simp] theorem setPort_poison (s : State) (n : Nat) (x : Port) : (s.setPort n x).poison = s.poison := rfl
@[simp] theorem setPort_memErr (s : State) (n : Nat) (x : Port) : (s.setPort n x).memErr = s.memErr := rfl
@[simp] theorem setPort_codeHist (s : State) (n : Nat) (x : Port) : (s.setPort n x).codeHist = s.codeHist := rfl
@[simp] theorem setPort_dir (s : State) (n : Nat) (x : Port) : (s.setPort n x).dir = s.dir := rfl
@[simp] theorem setPort_pkg (s : State) (n : Nat) (x : Port) : (s.setPort n x).pkg = s.pkg := rfl
@[simp] theorem setPort_wakeTable (s : State) (n : Nat) (x : Port) : (s.setPort n x).wakeTable = s.wakeTable := rfl
@[simp] theorem setPort_fns (s : State) (n : Nat) (x : Port) : (s.setPort n x).fns = s.fns := rfl
@[simp] theorem setPort_hostMem (s : State) (n : Nat) (x : Port) : (s.setPort n x).hostMem = s.hostMem := rfl
@[simp] theorem setPort_peers (s : State) (n : Nat) (x : Port) : (s.setPort n x).peers = s.peers := rfl
@[simp] theorem setPort_owed (s : State) (n : Nat) (x : Port) : (s.setPort n x).owed = s.owed := rfl
@[simp] theorem setPort_routes (s : State) (n : Nat) (x : Port) : (s.setPort n x).routes = s.routes := rfl
@[simp] theorem setPort_devId (s : State) (n : Nat) (x : Port) : (s.setPort n x).devId = s.devId := rfl
@[simp] theorem setPort_fw (s : State) (n : Nat) (x : Port) : (s.setPort n x).fw = s.fw := rfl
@[simp] theorem setPort_rlim (s : State) (n : Nat) (x : Port) : (s.setPort n x).rlim = s.rlim := rfl
@[simp] theorem setPort_mtgt (s : State) (n : Nat) (x : Port) : (s.setPort n x).mtgt = s.mtgt := rfl
@[simp] theorem setPort_hot (s : State) (n : Nat) (x : Port) : (s.setPort n x).hot = s.hot := rfl
@[simp] theorem setPort_plim (s : State) (n : Nat) (x : Port) : (s.setPort n x).plim = s.plim := rfl
@[simp] theorem setPort_tration (s : State) (n : Nat) (x : Port) : (s.setPort n x).tration = s.tration := rfl
@[simp] theorem setPort_therm (s : State) (n : Nat) (x : Port) : (s.setPort n x).therm = s.therm := rfl
@[simp] theorem setPort_allHot (s : State) (n : Nat) (x : Port) : (s.setPort n x).allHot = s.allHot := rfl
@[simp] theorem setPort_errb (s : State) (n : Nat) (x : Port) : (s.setPort n x).errb = s.errb := rfl
@[simp] theorem setPort_errovf (s : State) (n : Nat) (x : Port) : (s.setPort n x).errovf = s.errovf := rfl
@[simp] theorem setPort_dce (s : State) (n : Nat) (x : Port) : (s.setPort n x).dce = s.dce := rfl
@[simp] theorem setPort_hbmStacks (s : State) (n : Nat) (x : Port) : (s.setPort n x).hbmStacks = s.hbmStacks := rfl
@[simp] theorem setPort_errWindow (s : State) (n : Nat) (x : Port) : (s.setPort n x).errWindow = s.errWindow := rfl
@[simp] theorem setPort_held (s : State) (n : Nat) (x : Port) : (s.setPort n x).held = s.held := rfl
@[simp] theorem setPort_hostRead (s : State) (n : Nat) (x : Port) : (s.setPort n x).hostRead = s.hostRead := rfl
@[simp] theorem setPort_hostLines (s : State) (n : Nat) (x : Port) : (s.setPort n x).hostLines = s.hostLines := rfl
@[simp] theorem setPort_heartbeats (s : State) (n : Nat) (x : Port) : (s.setPort n x).heartbeats = s.heartbeats := rfl
@[simp] theorem setPort_declared (s : State) (n : Nat) (x : Port) : (s.setPort n x).declared = s.declared := rfl

/-! ### `State.setStack` -/

@[simp] theorem setStack_agenda (s : State) (n : Nat) (x : Stack) : (s.setStack n x).agenda = s.agenda := rfl
@[simp] theorem setStack_focus (s : State) (n : Nat) (x : Stack) : (s.setStack n x).focus = s.focus := rfl
@[simp] theorem setStack_freeCtr (s : State) (n : Nat) (x : Stack) : (s.setStack n x).freeCtr = s.freeCtr := rfl
@[simp] theorem setStack_devPos (s : State) (n : Nat) (x : Stack) : (s.setStack n x).devPos = s.devPos := rfl
@[simp] theorem setStack_clock (s : State) (n : Nat) (x : Stack) : (s.setStack n x).clock = s.clock := rfl
@[simp] theorem setStack_fab (s : State) (n : Nat) (x : Stack) : (s.setStack n x).fab = s.fab := rfl
@[simp] theorem setStack_leases (s : State) (n : Nat) (x : Stack) : (s.setStack n x).leases = s.leases := rfl
@[simp] theorem setStack_windows (s : State) (n : Nat) (x : Stack) : (s.setStack n x).windows = s.windows := rfl
@[simp] theorem setStack_posts (s : State) (n : Nat) (x : Stack) : (s.setStack n x).posts = s.posts := rfl
@[simp] theorem setStack_powered (s : State) (n : Nat) (x : Stack) : (s.setStack n x).powered = s.powered := rfl
@[simp] theorem setStack_waves (s : State) (n : Nat) (x : Stack) : (s.setStack n x).waves = s.waves := rfl
@[simp] theorem setStack_crews (s : State) (n : Nat) (x : Stack) : (s.setStack n x).crews = s.crews := rfl
@[simp] theorem setStack_convoys (s : State) (n : Nat) (x : Stack) : (s.setStack n x).convoys = s.convoys := rfl
@[simp] theorem setStack_grids (s : State) (n : Nat) (x : Stack) : (s.setStack n x).grids = s.grids := rfl
@[simp] theorem setStack_nextConvoy (s : State) (n : Nat) (x : Stack) : (s.setStack n x).nextConvoy = s.nextConvoy := rfl
@[simp] theorem setStack_nextGrid (s : State) (n : Nat) (x : Stack) : (s.setStack n x).nextGrid = s.nextGrid := rfl
@[simp] theorem setStack_cores (s : State) (n : Nat) (x : Stack) : (s.setStack n x).cores = s.cores := rfl
@[simp] theorem setStack_clusters (s : State) (n : Nat) (x : Stack) : (s.setStack n x).clusters = s.clusters := rfl
@[simp] theorem setStack_slices (s : State) (n : Nat) (x : Stack) : (s.setStack n x).slices = s.slices := rfl
@[simp] theorem setStack_dies (s : State) (n : Nat) (x : Stack) : (s.setStack n x).dies = s.dies := rfl
@[simp] theorem setStack_hbm (s : State) (n : Nat) (x : Stack) : (s.setStack n x).hbm = s.hbm := rfl
@[simp] theorem setStack_poison (s : State) (n : Nat) (x : Stack) : (s.setStack n x).poison = s.poison := rfl
@[simp] theorem setStack_memErr (s : State) (n : Nat) (x : Stack) : (s.setStack n x).memErr = s.memErr := rfl
@[simp] theorem setStack_codeHist (s : State) (n : Nat) (x : Stack) : (s.setStack n x).codeHist = s.codeHist := rfl
@[simp] theorem setStack_dir (s : State) (n : Nat) (x : Stack) : (s.setStack n x).dir = s.dir := rfl
@[simp] theorem setStack_pkg (s : State) (n : Nat) (x : Stack) : (s.setStack n x).pkg = s.pkg := rfl
@[simp] theorem setStack_wakeTable (s : State) (n : Nat) (x : Stack) : (s.setStack n x).wakeTable = s.wakeTable := rfl
@[simp] theorem setStack_fns (s : State) (n : Nat) (x : Stack) : (s.setStack n x).fns = s.fns := rfl
@[simp] theorem setStack_hostMem (s : State) (n : Nat) (x : Stack) : (s.setStack n x).hostMem = s.hostMem := rfl
@[simp] theorem setStack_peers (s : State) (n : Nat) (x : Stack) : (s.setStack n x).peers = s.peers := rfl
@[simp] theorem setStack_owed (s : State) (n : Nat) (x : Stack) : (s.setStack n x).owed = s.owed := rfl
@[simp] theorem setStack_ports (s : State) (n : Nat) (x : Stack) : (s.setStack n x).ports = s.ports := rfl
@[simp] theorem setStack_routes (s : State) (n : Nat) (x : Stack) : (s.setStack n x).routes = s.routes := rfl
@[simp] theorem setStack_devId (s : State) (n : Nat) (x : Stack) : (s.setStack n x).devId = s.devId := rfl
@[simp] theorem setStack_fw (s : State) (n : Nat) (x : Stack) : (s.setStack n x).fw = s.fw := rfl
@[simp] theorem setStack_rlim (s : State) (n : Nat) (x : Stack) : (s.setStack n x).rlim = s.rlim := rfl
@[simp] theorem setStack_mtgt (s : State) (n : Nat) (x : Stack) : (s.setStack n x).mtgt = s.mtgt := rfl
@[simp] theorem setStack_hot (s : State) (n : Nat) (x : Stack) : (s.setStack n x).hot = s.hot := rfl
@[simp] theorem setStack_plim (s : State) (n : Nat) (x : Stack) : (s.setStack n x).plim = s.plim := rfl
@[simp] theorem setStack_tration (s : State) (n : Nat) (x : Stack) : (s.setStack n x).tration = s.tration := rfl
@[simp] theorem setStack_therm (s : State) (n : Nat) (x : Stack) : (s.setStack n x).therm = s.therm := rfl
@[simp] theorem setStack_allHot (s : State) (n : Nat) (x : Stack) : (s.setStack n x).allHot = s.allHot := rfl
@[simp] theorem setStack_errb (s : State) (n : Nat) (x : Stack) : (s.setStack n x).errb = s.errb := rfl
@[simp] theorem setStack_errovf (s : State) (n : Nat) (x : Stack) : (s.setStack n x).errovf = s.errovf := rfl
@[simp] theorem setStack_dce (s : State) (n : Nat) (x : Stack) : (s.setStack n x).dce = s.dce := rfl
@[simp] theorem setStack_errWindow (s : State) (n : Nat) (x : Stack) : (s.setStack n x).errWindow = s.errWindow := rfl
@[simp] theorem setStack_held (s : State) (n : Nat) (x : Stack) : (s.setStack n x).held = s.held := rfl
@[simp] theorem setStack_hostRead (s : State) (n : Nat) (x : Stack) : (s.setStack n x).hostRead = s.hostRead := rfl
@[simp] theorem setStack_hostLines (s : State) (n : Nat) (x : Stack) : (s.setStack n x).hostLines = s.hostLines := rfl
@[simp] theorem setStack_heartbeats (s : State) (n : Nat) (x : Stack) : (s.setStack n x).heartbeats = s.heartbeats := rfl
@[simp] theorem setStack_declared (s : State) (n : Nat) (x : Stack) : (s.setStack n x).declared = s.declared := rfl

/-! ### `State.draw` -/

@[simp] theorem draw_agenda (s : State) : (s.draw).agenda = s.agenda := rfl
@[simp] theorem draw_focus (s : State) : (s.draw).focus = s.focus := rfl
@[simp] theorem draw_devPos (s : State) : (s.draw).devPos = s.devPos := rfl
@[simp] theorem draw_clock (s : State) : (s.draw).clock = s.clock := rfl
@[simp] theorem draw_fab (s : State) : (s.draw).fab = s.fab := rfl
@[simp] theorem draw_leases (s : State) : (s.draw).leases = s.leases := rfl
@[simp] theorem draw_windows (s : State) : (s.draw).windows = s.windows := rfl
@[simp] theorem draw_posts (s : State) : (s.draw).posts = s.posts := rfl
@[simp] theorem draw_powered (s : State) : (s.draw).powered = s.powered := rfl
@[simp] theorem draw_waves (s : State) : (s.draw).waves = s.waves := rfl
@[simp] theorem draw_crews (s : State) : (s.draw).crews = s.crews := rfl
@[simp] theorem draw_convoys (s : State) : (s.draw).convoys = s.convoys := rfl
@[simp] theorem draw_grids (s : State) : (s.draw).grids = s.grids := rfl
@[simp] theorem draw_nextConvoy (s : State) : (s.draw).nextConvoy = s.nextConvoy := rfl
@[simp] theorem draw_nextGrid (s : State) : (s.draw).nextGrid = s.nextGrid := rfl
@[simp] theorem draw_cores (s : State) : (s.draw).cores = s.cores := rfl
@[simp] theorem draw_clusters (s : State) : (s.draw).clusters = s.clusters := rfl
@[simp] theorem draw_slices (s : State) : (s.draw).slices = s.slices := rfl
@[simp] theorem draw_dies (s : State) : (s.draw).dies = s.dies := rfl
@[simp] theorem draw_hbm (s : State) : (s.draw).hbm = s.hbm := rfl
@[simp] theorem draw_poison (s : State) : (s.draw).poison = s.poison := rfl
@[simp] theorem draw_memErr (s : State) : (s.draw).memErr = s.memErr := rfl
@[simp] theorem draw_codeHist (s : State) : (s.draw).codeHist = s.codeHist := rfl
@[simp] theorem draw_dir (s : State) : (s.draw).dir = s.dir := rfl
@[simp] theorem draw_pkg (s : State) : (s.draw).pkg = s.pkg := rfl
@[simp] theorem draw_wakeTable (s : State) : (s.draw).wakeTable = s.wakeTable := rfl
@[simp] theorem draw_fns (s : State) : (s.draw).fns = s.fns := rfl
@[simp] theorem draw_hostMem (s : State) : (s.draw).hostMem = s.hostMem := rfl
@[simp] theorem draw_peers (s : State) : (s.draw).peers = s.peers := rfl
@[simp] theorem draw_owed (s : State) : (s.draw).owed = s.owed := rfl
@[simp] theorem draw_ports (s : State) : (s.draw).ports = s.ports := rfl
@[simp] theorem draw_routes (s : State) : (s.draw).routes = s.routes := rfl
@[simp] theorem draw_devId (s : State) : (s.draw).devId = s.devId := rfl
@[simp] theorem draw_fw (s : State) : (s.draw).fw = s.fw := rfl
@[simp] theorem draw_rlim (s : State) : (s.draw).rlim = s.rlim := rfl
@[simp] theorem draw_mtgt (s : State) : (s.draw).mtgt = s.mtgt := rfl
@[simp] theorem draw_hot (s : State) : (s.draw).hot = s.hot := rfl
@[simp] theorem draw_plim (s : State) : (s.draw).plim = s.plim := rfl
@[simp] theorem draw_tration (s : State) : (s.draw).tration = s.tration := rfl
@[simp] theorem draw_therm (s : State) : (s.draw).therm = s.therm := rfl
@[simp] theorem draw_allHot (s : State) : (s.draw).allHot = s.allHot := rfl
@[simp] theorem draw_errb (s : State) : (s.draw).errb = s.errb := rfl
@[simp] theorem draw_errovf (s : State) : (s.draw).errovf = s.errovf := rfl
@[simp] theorem draw_dce (s : State) : (s.draw).dce = s.dce := rfl
@[simp] theorem draw_hbmStacks (s : State) : (s.draw).hbmStacks = s.hbmStacks := rfl
@[simp] theorem draw_errWindow (s : State) : (s.draw).errWindow = s.errWindow := rfl
@[simp] theorem draw_held (s : State) : (s.draw).held = s.held := rfl
@[simp] theorem draw_hostRead (s : State) : (s.draw).hostRead = s.hostRead := rfl
@[simp] theorem draw_hostLines (s : State) : (s.draw).hostLines = s.hostLines := rfl
@[simp] theorem draw_heartbeats (s : State) : (s.draw).heartbeats = s.heartbeats := rfl
@[simp] theorem draw_declared (s : State) : (s.draw).declared = s.declared := rfl

/-! ### `State.elapse` -/

@[simp] theorem elapse_agenda (s : State) (k : Nat) : (s.elapse k).agenda = s.agenda := rfl
@[simp] theorem elapse_focus (s : State) (k : Nat) : (s.elapse k).focus = s.focus := rfl
@[simp] theorem elapse_freeCtr (s : State) (k : Nat) : (s.elapse k).freeCtr = s.freeCtr := rfl
@[simp] theorem elapse_devPos (s : State) (k : Nat) : (s.elapse k).devPos = s.devPos := rfl
@[simp] theorem elapse_leases (s : State) (k : Nat) : (s.elapse k).leases = s.leases := rfl
@[simp] theorem elapse_windows (s : State) (k : Nat) : (s.elapse k).windows = s.windows := rfl
@[simp] theorem elapse_posts (s : State) (k : Nat) : (s.elapse k).posts = s.posts := rfl
@[simp] theorem elapse_powered (s : State) (k : Nat) : (s.elapse k).powered = s.powered := rfl
@[simp] theorem elapse_waves (s : State) (k : Nat) : (s.elapse k).waves = s.waves := rfl
@[simp] theorem elapse_crews (s : State) (k : Nat) : (s.elapse k).crews = s.crews := rfl
@[simp] theorem elapse_convoys (s : State) (k : Nat) : (s.elapse k).convoys = s.convoys := rfl
@[simp] theorem elapse_grids (s : State) (k : Nat) : (s.elapse k).grids = s.grids := rfl
@[simp] theorem elapse_nextConvoy (s : State) (k : Nat) : (s.elapse k).nextConvoy = s.nextConvoy := rfl
@[simp] theorem elapse_nextGrid (s : State) (k : Nat) : (s.elapse k).nextGrid = s.nextGrid := rfl
@[simp] theorem elapse_cores (s : State) (k : Nat) : (s.elapse k).cores = s.cores := rfl
@[simp] theorem elapse_clusters (s : State) (k : Nat) : (s.elapse k).clusters = s.clusters := rfl
@[simp] theorem elapse_slices (s : State) (k : Nat) : (s.elapse k).slices = s.slices := rfl
@[simp] theorem elapse_dies (s : State) (k : Nat) : (s.elapse k).dies = s.dies := rfl
@[simp] theorem elapse_hbm (s : State) (k : Nat) : (s.elapse k).hbm = s.hbm := rfl
@[simp] theorem elapse_poison (s : State) (k : Nat) : (s.elapse k).poison = s.poison := rfl
@[simp] theorem elapse_memErr (s : State) (k : Nat) : (s.elapse k).memErr = s.memErr := rfl
@[simp] theorem elapse_codeHist (s : State) (k : Nat) : (s.elapse k).codeHist = s.codeHist := rfl
@[simp] theorem elapse_dir (s : State) (k : Nat) : (s.elapse k).dir = s.dir := rfl
@[simp] theorem elapse_pkg (s : State) (k : Nat) : (s.elapse k).pkg = s.pkg := rfl
@[simp] theorem elapse_wakeTable (s : State) (k : Nat) : (s.elapse k).wakeTable = s.wakeTable := rfl
@[simp] theorem elapse_fns (s : State) (k : Nat) : (s.elapse k).fns = s.fns := rfl
@[simp] theorem elapse_hostMem (s : State) (k : Nat) : (s.elapse k).hostMem = s.hostMem := rfl
@[simp] theorem elapse_peers (s : State) (k : Nat) : (s.elapse k).peers = s.peers := rfl
@[simp] theorem elapse_owed (s : State) (k : Nat) : (s.elapse k).owed = s.owed := rfl
@[simp] theorem elapse_ports (s : State) (k : Nat) : (s.elapse k).ports = s.ports := rfl
@[simp] theorem elapse_routes (s : State) (k : Nat) : (s.elapse k).routes = s.routes := rfl
@[simp] theorem elapse_devId (s : State) (k : Nat) : (s.elapse k).devId = s.devId := rfl
@[simp] theorem elapse_fw (s : State) (k : Nat) : (s.elapse k).fw = s.fw := rfl
@[simp] theorem elapse_rlim (s : State) (k : Nat) : (s.elapse k).rlim = s.rlim := rfl
@[simp] theorem elapse_mtgt (s : State) (k : Nat) : (s.elapse k).mtgt = s.mtgt := rfl
@[simp] theorem elapse_hot (s : State) (k : Nat) : (s.elapse k).hot = s.hot := rfl
@[simp] theorem elapse_plim (s : State) (k : Nat) : (s.elapse k).plim = s.plim := rfl
@[simp] theorem elapse_tration (s : State) (k : Nat) : (s.elapse k).tration = s.tration := rfl
@[simp] theorem elapse_therm (s : State) (k : Nat) : (s.elapse k).therm = s.therm := rfl
@[simp] theorem elapse_allHot (s : State) (k : Nat) : (s.elapse k).allHot = s.allHot := rfl
@[simp] theorem elapse_errb (s : State) (k : Nat) : (s.elapse k).errb = s.errb := rfl
@[simp] theorem elapse_errovf (s : State) (k : Nat) : (s.elapse k).errovf = s.errovf := rfl
@[simp] theorem elapse_dce (s : State) (k : Nat) : (s.elapse k).dce = s.dce := rfl
@[simp] theorem elapse_hbmStacks (s : State) (k : Nat) : (s.elapse k).hbmStacks = s.hbmStacks := rfl
@[simp] theorem elapse_errWindow (s : State) (k : Nat) : (s.elapse k).errWindow = s.errWindow := rfl
@[simp] theorem elapse_held (s : State) (k : Nat) : (s.elapse k).held = s.held := rfl
@[simp] theorem elapse_hostRead (s : State) (k : Nat) : (s.elapse k).hostRead = s.hostRead := rfl
@[simp] theorem elapse_hostLines (s : State) (k : Nat) : (s.elapse k).hostLines = s.hostLines := rfl
@[simp] theorem elapse_heartbeats (s : State) (k : Nat) : (s.elapse k).heartbeats = s.heartbeats := rfl
@[simp] theorem elapse_declared (s : State) (k : Nat) : (s.elapse k).declared = s.declared := rfl

/-! ### `State.postEvent` and `State.postError` -/

@[simp] theorem postEvent_agenda (s : State) (vf : Nat) (r : List Byte) : (s.postEvent vf r).agenda = s.agenda := rfl
@[simp] theorem postEvent_focus (s : State) (vf : Nat) (r : List Byte) : (s.postEvent vf r).focus = s.focus := rfl
@[simp] theorem postEvent_freeCtr (s : State) (vf : Nat) (r : List Byte) : (s.postEvent vf r).freeCtr = s.freeCtr := rfl
@[simp] theorem postEvent_devPos (s : State) (vf : Nat) (r : List Byte) : (s.postEvent vf r).devPos = s.devPos := rfl
@[simp] theorem postEvent_clock (s : State) (vf : Nat) (r : List Byte) : (s.postEvent vf r).clock = s.clock := rfl
@[simp] theorem postEvent_fab (s : State) (vf : Nat) (r : List Byte) : (s.postEvent vf r).fab = s.fab := rfl
@[simp] theorem postEvent_leases (s : State) (vf : Nat) (r : List Byte) : (s.postEvent vf r).leases = s.leases := rfl
@[simp] theorem postEvent_windows (s : State) (vf : Nat) (r : List Byte) : (s.postEvent vf r).windows = s.windows := rfl
@[simp] theorem postEvent_powered (s : State) (vf : Nat) (r : List Byte) : (s.postEvent vf r).powered = s.powered := rfl
@[simp] theorem postEvent_waves (s : State) (vf : Nat) (r : List Byte) : (s.postEvent vf r).waves = s.waves := rfl
@[simp] theorem postEvent_crews (s : State) (vf : Nat) (r : List Byte) : (s.postEvent vf r).crews = s.crews := rfl
@[simp] theorem postEvent_convoys (s : State) (vf : Nat) (r : List Byte) : (s.postEvent vf r).convoys = s.convoys := rfl
@[simp] theorem postEvent_grids (s : State) (vf : Nat) (r : List Byte) : (s.postEvent vf r).grids = s.grids := rfl
@[simp] theorem postEvent_nextConvoy (s : State) (vf : Nat) (r : List Byte) : (s.postEvent vf r).nextConvoy = s.nextConvoy := rfl
@[simp] theorem postEvent_nextGrid (s : State) (vf : Nat) (r : List Byte) : (s.postEvent vf r).nextGrid = s.nextGrid := rfl
@[simp] theorem postEvent_cores (s : State) (vf : Nat) (r : List Byte) : (s.postEvent vf r).cores = s.cores := rfl
@[simp] theorem postEvent_clusters (s : State) (vf : Nat) (r : List Byte) : (s.postEvent vf r).clusters = s.clusters := rfl
@[simp] theorem postEvent_slices (s : State) (vf : Nat) (r : List Byte) : (s.postEvent vf r).slices = s.slices := rfl
@[simp] theorem postEvent_dies (s : State) (vf : Nat) (r : List Byte) : (s.postEvent vf r).dies = s.dies := rfl
@[simp] theorem postEvent_hbm (s : State) (vf : Nat) (r : List Byte) : (s.postEvent vf r).hbm = s.hbm := rfl
@[simp] theorem postEvent_poison (s : State) (vf : Nat) (r : List Byte) : (s.postEvent vf r).poison = s.poison := rfl
@[simp] theorem postEvent_memErr (s : State) (vf : Nat) (r : List Byte) : (s.postEvent vf r).memErr = s.memErr := rfl
@[simp] theorem postEvent_codeHist (s : State) (vf : Nat) (r : List Byte) : (s.postEvent vf r).codeHist = s.codeHist := rfl
@[simp] theorem postEvent_dir (s : State) (vf : Nat) (r : List Byte) : (s.postEvent vf r).dir = s.dir := rfl
@[simp] theorem postEvent_pkg (s : State) (vf : Nat) (r : List Byte) : (s.postEvent vf r).pkg = s.pkg := rfl
@[simp] theorem postEvent_wakeTable (s : State) (vf : Nat) (r : List Byte) : (s.postEvent vf r).wakeTable = s.wakeTable := rfl
@[simp] theorem postEvent_fns (s : State) (vf : Nat) (r : List Byte) : (s.postEvent vf r).fns = s.fns := rfl
@[simp] theorem postEvent_hostMem (s : State) (vf : Nat) (r : List Byte) : (s.postEvent vf r).hostMem = s.hostMem := rfl
@[simp] theorem postEvent_peers (s : State) (vf : Nat) (r : List Byte) : (s.postEvent vf r).peers = s.peers := rfl
@[simp] theorem postEvent_owed (s : State) (vf : Nat) (r : List Byte) : (s.postEvent vf r).owed = s.owed := rfl
@[simp] theorem postEvent_ports (s : State) (vf : Nat) (r : List Byte) : (s.postEvent vf r).ports = s.ports := rfl
@[simp] theorem postEvent_routes (s : State) (vf : Nat) (r : List Byte) : (s.postEvent vf r).routes = s.routes := rfl
@[simp] theorem postEvent_devId (s : State) (vf : Nat) (r : List Byte) : (s.postEvent vf r).devId = s.devId := rfl
@[simp] theorem postEvent_fw (s : State) (vf : Nat) (r : List Byte) : (s.postEvent vf r).fw = s.fw := rfl
@[simp] theorem postEvent_rlim (s : State) (vf : Nat) (r : List Byte) : (s.postEvent vf r).rlim = s.rlim := rfl
@[simp] theorem postEvent_mtgt (s : State) (vf : Nat) (r : List Byte) : (s.postEvent vf r).mtgt = s.mtgt := rfl
@[simp] theorem postEvent_hot (s : State) (vf : Nat) (r : List Byte) : (s.postEvent vf r).hot = s.hot := rfl
@[simp] theorem postEvent_plim (s : State) (vf : Nat) (r : List Byte) : (s.postEvent vf r).plim = s.plim := rfl
@[simp] theorem postEvent_tration (s : State) (vf : Nat) (r : List Byte) : (s.postEvent vf r).tration = s.tration := rfl
@[simp] theorem postEvent_therm (s : State) (vf : Nat) (r : List Byte) : (s.postEvent vf r).therm = s.therm := rfl
@[simp] theorem postEvent_allHot (s : State) (vf : Nat) (r : List Byte) : (s.postEvent vf r).allHot = s.allHot := rfl
@[simp] theorem postEvent_errb (s : State) (vf : Nat) (r : List Byte) : (s.postEvent vf r).errb = s.errb := rfl
@[simp] theorem postEvent_errovf (s : State) (vf : Nat) (r : List Byte) : (s.postEvent vf r).errovf = s.errovf := rfl
@[simp] theorem postEvent_dce (s : State) (vf : Nat) (r : List Byte) : (s.postEvent vf r).dce = s.dce := rfl
@[simp] theorem postEvent_hbmStacks (s : State) (vf : Nat) (r : List Byte) : (s.postEvent vf r).hbmStacks = s.hbmStacks := rfl
@[simp] theorem postEvent_errWindow (s : State) (vf : Nat) (r : List Byte) : (s.postEvent vf r).errWindow = s.errWindow := rfl
@[simp] theorem postEvent_held (s : State) (vf : Nat) (r : List Byte) : (s.postEvent vf r).held = s.held := rfl
@[simp] theorem postEvent_hostRead (s : State) (vf : Nat) (r : List Byte) : (s.postEvent vf r).hostRead = s.hostRead := rfl
@[simp] theorem postEvent_hostLines (s : State) (vf : Nat) (r : List Byte) : (s.postEvent vf r).hostLines = s.hostLines := rfl
@[simp] theorem postEvent_heartbeats (s : State) (vf : Nat) (r : List Byte) : (s.postEvent vf r).heartbeats = s.heartbeats := rfl
@[simp] theorem postEvent_declared (s : State) (vf : Nat) (r : List Byte) : (s.postEvent vf r).declared = s.declared := rfl

@[simp] theorem postError_agenda (s : State) (r : List Byte) : (s.postError r).agenda = s.agenda := rfl
@[simp] theorem postError_focus (s : State) (r : List Byte) : (s.postError r).focus = s.focus := rfl
@[simp] theorem postError_freeCtr (s : State) (r : List Byte) : (s.postError r).freeCtr = s.freeCtr := rfl
@[simp] theorem postError_devPos (s : State) (r : List Byte) : (s.postError r).devPos = s.devPos := rfl
@[simp] theorem postError_clock (s : State) (r : List Byte) : (s.postError r).clock = s.clock := rfl
@[simp] theorem postError_fab (s : State) (r : List Byte) : (s.postError r).fab = s.fab := rfl
@[simp] theorem postError_leases (s : State) (r : List Byte) : (s.postError r).leases = s.leases := rfl
@[simp] theorem postError_windows (s : State) (r : List Byte) : (s.postError r).windows = s.windows := rfl
@[simp] theorem postError_powered (s : State) (r : List Byte) : (s.postError r).powered = s.powered := rfl
@[simp] theorem postError_waves (s : State) (r : List Byte) : (s.postError r).waves = s.waves := rfl
@[simp] theorem postError_crews (s : State) (r : List Byte) : (s.postError r).crews = s.crews := rfl
@[simp] theorem postError_convoys (s : State) (r : List Byte) : (s.postError r).convoys = s.convoys := rfl
@[simp] theorem postError_grids (s : State) (r : List Byte) : (s.postError r).grids = s.grids := rfl
@[simp] theorem postError_nextConvoy (s : State) (r : List Byte) : (s.postError r).nextConvoy = s.nextConvoy := rfl
@[simp] theorem postError_nextGrid (s : State) (r : List Byte) : (s.postError r).nextGrid = s.nextGrid := rfl
@[simp] theorem postError_cores (s : State) (r : List Byte) : (s.postError r).cores = s.cores := rfl
@[simp] theorem postError_clusters (s : State) (r : List Byte) : (s.postError r).clusters = s.clusters := rfl
@[simp] theorem postError_slices (s : State) (r : List Byte) : (s.postError r).slices = s.slices := rfl
@[simp] theorem postError_dies (s : State) (r : List Byte) : (s.postError r).dies = s.dies := rfl
@[simp] theorem postError_hbm (s : State) (r : List Byte) : (s.postError r).hbm = s.hbm := rfl
@[simp] theorem postError_poison (s : State) (r : List Byte) : (s.postError r).poison = s.poison := rfl
@[simp] theorem postError_memErr (s : State) (r : List Byte) : (s.postError r).memErr = s.memErr := rfl
@[simp] theorem postError_codeHist (s : State) (r : List Byte) : (s.postError r).codeHist = s.codeHist := rfl
@[simp] theorem postError_dir (s : State) (r : List Byte) : (s.postError r).dir = s.dir := rfl
@[simp] theorem postError_pkg (s : State) (r : List Byte) : (s.postError r).pkg = s.pkg := rfl
@[simp] theorem postError_wakeTable (s : State) (r : List Byte) : (s.postError r).wakeTable = s.wakeTable := rfl
@[simp] theorem postError_fns (s : State) (r : List Byte) : (s.postError r).fns = s.fns := rfl
@[simp] theorem postError_hostMem (s : State) (r : List Byte) : (s.postError r).hostMem = s.hostMem := rfl
@[simp] theorem postError_peers (s : State) (r : List Byte) : (s.postError r).peers = s.peers := rfl
@[simp] theorem postError_owed (s : State) (r : List Byte) : (s.postError r).owed = s.owed := rfl
@[simp] theorem postError_ports (s : State) (r : List Byte) : (s.postError r).ports = s.ports := rfl
@[simp] theorem postError_routes (s : State) (r : List Byte) : (s.postError r).routes = s.routes := rfl
@[simp] theorem postError_devId (s : State) (r : List Byte) : (s.postError r).devId = s.devId := rfl
@[simp] theorem postError_fw (s : State) (r : List Byte) : (s.postError r).fw = s.fw := rfl
@[simp] theorem postError_rlim (s : State) (r : List Byte) : (s.postError r).rlim = s.rlim := rfl
@[simp] theorem postError_mtgt (s : State) (r : List Byte) : (s.postError r).mtgt = s.mtgt := rfl
@[simp] theorem postError_hot (s : State) (r : List Byte) : (s.postError r).hot = s.hot := rfl
@[simp] theorem postError_plim (s : State) (r : List Byte) : (s.postError r).plim = s.plim := rfl
@[simp] theorem postError_tration (s : State) (r : List Byte) : (s.postError r).tration = s.tration := rfl
@[simp] theorem postError_therm (s : State) (r : List Byte) : (s.postError r).therm = s.therm := rfl
@[simp] theorem postError_allHot (s : State) (r : List Byte) : (s.postError r).allHot = s.allHot := rfl
@[simp] theorem postError_errb (s : State) (r : List Byte) : (s.postError r).errb = s.errb := rfl
@[simp] theorem postError_errovf (s : State) (r : List Byte) : (s.postError r).errovf = s.errovf := rfl
@[simp] theorem postError_dce (s : State) (r : List Byte) : (s.postError r).dce = s.dce := rfl
@[simp] theorem postError_hbmStacks (s : State) (r : List Byte) : (s.postError r).hbmStacks = s.hbmStacks := rfl
@[simp] theorem postError_errWindow (s : State) (r : List Byte) : (s.postError r).errWindow = s.errWindow := rfl
@[simp] theorem postError_held (s : State) (r : List Byte) : (s.postError r).held = s.held := rfl
@[simp] theorem postError_hostRead (s : State) (r : List Byte) : (s.postError r).hostRead = s.hostRead := rfl
@[simp] theorem postError_hostLines (s : State) (r : List Byte) : (s.postError r).hostLines = s.hostLines := rfl
@[simp] theorem postError_heartbeats (s : State) (r : List Byte) : (s.postError r).heartbeats = s.heartbeats := rfl
@[simp] theorem postError_declared (s : State) (r : List Byte) : (s.postError r).declared = s.declared := rfl

/-! ### `Wave.setV` -/

@[simp] theorem setV_core (w : Wave) (t n : Nat) (x : Word) : (w.setV t n x).core = w.core := rfl
@[simp] theorem setV_slot (w : Wave) (t n : Nat) (x : Word) : (w.setV t n x).slot = w.slot := rfl
@[simp] theorem setV_depth (w : Wave) (t n : Nat) (x : Word) : (w.setV t n x).depth = w.depth := rfl
@[simp] theorem setV_vregs (w : Wave) (t n : Nat) (x : Word) : (w.setV t n x).vregs = w.vregs := rfl
@[simp] theorem setV_kregs (w : Wave) (t n : Nat) (x : Word) : (w.setV t n x).kregs = w.kregs := rfl
@[simp] theorem setV_launched (w : Wave) (t n : Nat) (x : Word) : (w.setV t n x).launched = w.launched := rfl
@[simp] theorem setV_tasks (w : Wave) (t n : Nat) (x : Word) : (w.setV t n x).tasks = w.tasks := rfl
@[simp] theorem setV_pc (w : Wave) (t n : Nat) (x : Word) : (w.setV t n x).pc = w.pc := rfl
@[simp] theorem setV_clause (w : Wave) (t n : Nat) (x : Word) : (w.setV t n x).clause = w.clause := rfl
@[simp] theorem setV_level (w : Wave) (t n : Nat) (x : Word) : (w.setV t n x).level = w.level := rfl
@[simp] theorem setV_k (w : Wave) (t n : Nat) (x : Word) : (w.setV t n x).k = w.k := rfl
@[simp] theorem setV_p (w : Wave) (t n : Nat) (x : Word) : (w.setV t n x).p = w.p := rfl
@[simp] theorem setV_i (w : Wave) (t n : Nat) (x : Word) : (w.setV t n x).i = w.i := rfl
@[simp] theorem setV_active (w : Wave) (t n : Nat) (x : Word) : (w.setV t n x).active = w.active := rfl
@[simp] theorem setV_stack (w : Wave) (t n : Nat) (x : Word) : (w.setV t n x).stack = w.stack := rfl
@[simp] theorem setV_mile (w : Wave) (t n : Nat) (x : Word) : (w.setV t n x).mile = w.mile := rfl
@[simp] theorem setV_milepc (w : Wave) (t n : Nat) (x : Word) : (w.setV t n x).milepc = w.milepc := rfl
@[simp] theorem setV_ckpt (w : Wave) (t n : Nat) (x : Word) : (w.setV t n x).ckpt = w.ckpt := rfl
@[simp] theorem setV_iwb (w : Wave) (t n : Nat) (x : Word) : (w.setV t n x).iwb = w.iwb := rfl
@[simp] theorem setV_iwl (w : Wave) (t n : Nat) (x : Word) : (w.setV t n x).iwl = w.iwl := rfl
@[simp] theorem setV_cCpy (w : Wave) (t n : Nat) (x : Word) : (w.setV t n x).cCpy = w.cCpy := rfl
@[simp] theorem setV_cGrv (w : Wave) (t n : Nat) (x : Word) : (w.setV t n x).cGrv = w.cGrv := rfl
@[simp] theorem setV_cMsg (w : Wave) (t n : Nat) (x : Word) : (w.setV t n x).cMsg = w.cMsg := rfl
@[simp] theorem setV_cDom (w : Wave) (t n : Nat) (x : Word) : (w.setV t n x).cDom = w.cDom := rfl
@[simp] theorem setV_batchOpen (w : Wave) (t n : Nat) (x : Word) : (w.setV t n x).batchOpen = w.batchOpen := rfl
@[simp] theorem setV_batchClosed (w : Wave) (t n : Nat) (x : Word) : (w.setV t n x).batchClosed = w.batchClosed := rfl
@[simp] theorem setV_sq (w : Wave) (t n : Nat) (x : Word) : (w.setV t n x).sq = w.sq := rfl
@[simp] theorem setV_wrote (w : Wave) (t n : Nat) (x : Word) : (w.setV t n x).wrote = w.wrote := rfl
@[simp] theorem setV_copies (w : Wave) (t n : Nat) (x : Word) : (w.setV t n x).copies = w.copies := rfl
@[simp] theorem setV_msgs (w : Wave) (t n : Nat) (x : Word) : (w.setV t n x).msgs = w.msgs := rfl
@[simp] theorem setV_doms (w : Wave) (t n : Nat) (x : Word) : (w.setV t n x).doms = w.doms := rfl
@[simp] theorem setV_far (w : Wave) (t n : Nat) (x : Word) : (w.setV t n x).far = w.far := rfl
@[simp] theorem setV_epc (w : Wave) (t n : Nat) (x : Word) : (w.setV t n x).epc = w.epc := rfl
@[simp] theorem setV_cause (w : Wave) (t n : Nat) (x : Word) : (w.setV t n x).cause = w.cause := rfl
@[simp] theorem setV_faddr (w : Wave) (t n : Nat) (x : Word) : (w.setV t n x).faddr = w.faddr := rfl
@[simp] theorem setV_flane (w : Wave) (t n : Nat) (x : Word) : (w.setV t n x).flane = w.flane := rfl
@[simp] theorem setV_trapKind (w : Wave) (t n : Nat) (x : Word) : (w.setV t n x).trapKind = w.trapKind := rfl
@[simp] theorem setV_frame (w : Wave) (t n : Nat) (x : Word) : (w.setV t n x).frame = w.frame := rfl
@[simp] theorem setV_inner (w : Wave) (t n : Nat) (x : Word) : (w.setV t n x).inner = w.inner := rfl
@[simp] theorem setV_late (w : Wave) (t n : Nat) (x : Word) : (w.setV t n x).late = w.late := rfl
@[simp] theorem setV_wait (w : Wave) (t n : Nat) (x : Word) : (w.setV t n x).wait = w.wait := rfl
@[simp] theorem setV_woken (w : Wave) (t n : Nat) (x : Word) : (w.setV t n x).woken = w.woken := rfl
@[simp] theorem setV_accepted (w : Wave) (t n : Nat) (x : Word) : (w.setV t n x).accepted = w.accepted := rfl
@[simp] theorem setV_prog (w : Wave) (t n : Nat) (x : Word) : (w.setV t n x).prog = w.prog := rfl
@[simp] theorem setV_dbg (w : Wave) (t n : Nat) (x : Word) : (w.setV t n x).dbg = w.dbg := rfl
@[simp] theorem setV_skipBreak (w : Wave) (t n : Nat) (x : Word) : (w.setV t n x).skipBreak = w.skipBreak := rfl
@[simp] theorem setV_replay (w : Wave) (t n : Nat) (x : Word) : (w.setV t n x).replay = w.replay := rfl
@[simp] theorem setV_spinTarget (w : Wave) (t n : Nat) (x : Word) : (w.setV t n x).spinTarget = w.spinTarget := rfl
@[simp] theorem setV_spinEnd (w : Wave) (t n : Nat) (x : Word) : (w.setV t n x).spinEnd = w.spinEnd := rfl
@[simp] theorem setV_spinCount (w : Wave) (t n : Nat) (x : Word) : (w.setV t n x).spinCount = w.spinCount := rfl
@[simp] theorem setV_spinCur (w : Wave) (t n : Nat) (x : Word) : (w.setV t n x).spinCur = w.spinCur := rfl
@[simp] theorem setV_spinPrev (w : Wave) (t n : Nat) (x : Word) : (w.setV t n x).spinPrev = w.spinPrev := rfl
@[simp] theorem setV_stall (w : Wave) (t n : Nat) (x : Word) : (w.setV t n x).stall = w.stall := rfl
@[simp] theorem setV_ended (w : Wave) (t n : Nat) (x : Word) : (w.setV t n x).ended = w.ended := rfl
@[simp] theorem setV_drained (w : Wave) (t n : Nat) (x : Word) : (w.setV t n x).drained = w.drained := rfl

/-! ### `Wave.setK` -/

@[simp] theorem setK_core (w : Wave) (n : Nat) (x : DWord) : (w.setK n x).core = w.core := rfl
@[simp] theorem setK_slot (w : Wave) (n : Nat) (x : DWord) : (w.setK n x).slot = w.slot := rfl
@[simp] theorem setK_depth (w : Wave) (n : Nat) (x : DWord) : (w.setK n x).depth = w.depth := rfl
@[simp] theorem setK_vregs (w : Wave) (n : Nat) (x : DWord) : (w.setK n x).vregs = w.vregs := rfl
@[simp] theorem setK_kregs (w : Wave) (n : Nat) (x : DWord) : (w.setK n x).kregs = w.kregs := rfl
@[simp] theorem setK_launched (w : Wave) (n : Nat) (x : DWord) : (w.setK n x).launched = w.launched := rfl
@[simp] theorem setK_tasks (w : Wave) (n : Nat) (x : DWord) : (w.setK n x).tasks = w.tasks := rfl
@[simp] theorem setK_pc (w : Wave) (n : Nat) (x : DWord) : (w.setK n x).pc = w.pc := rfl
@[simp] theorem setK_clause (w : Wave) (n : Nat) (x : DWord) : (w.setK n x).clause = w.clause := rfl
@[simp] theorem setK_level (w : Wave) (n : Nat) (x : DWord) : (w.setK n x).level = w.level := rfl
@[simp] theorem setK_v (w : Wave) (n : Nat) (x : DWord) : (w.setK n x).v = w.v := rfl
@[simp] theorem setK_p (w : Wave) (n : Nat) (x : DWord) : (w.setK n x).p = w.p := rfl
@[simp] theorem setK_i (w : Wave) (n : Nat) (x : DWord) : (w.setK n x).i = w.i := rfl
@[simp] theorem setK_active (w : Wave) (n : Nat) (x : DWord) : (w.setK n x).active = w.active := rfl
@[simp] theorem setK_stack (w : Wave) (n : Nat) (x : DWord) : (w.setK n x).stack = w.stack := rfl
@[simp] theorem setK_mile (w : Wave) (n : Nat) (x : DWord) : (w.setK n x).mile = w.mile := rfl
@[simp] theorem setK_milepc (w : Wave) (n : Nat) (x : DWord) : (w.setK n x).milepc = w.milepc := rfl
@[simp] theorem setK_ckpt (w : Wave) (n : Nat) (x : DWord) : (w.setK n x).ckpt = w.ckpt := rfl
@[simp] theorem setK_iwb (w : Wave) (n : Nat) (x : DWord) : (w.setK n x).iwb = w.iwb := rfl
@[simp] theorem setK_iwl (w : Wave) (n : Nat) (x : DWord) : (w.setK n x).iwl = w.iwl := rfl
@[simp] theorem setK_cCpy (w : Wave) (n : Nat) (x : DWord) : (w.setK n x).cCpy = w.cCpy := rfl
@[simp] theorem setK_cGrv (w : Wave) (n : Nat) (x : DWord) : (w.setK n x).cGrv = w.cGrv := rfl
@[simp] theorem setK_cMsg (w : Wave) (n : Nat) (x : DWord) : (w.setK n x).cMsg = w.cMsg := rfl
@[simp] theorem setK_cDom (w : Wave) (n : Nat) (x : DWord) : (w.setK n x).cDom = w.cDom := rfl
@[simp] theorem setK_batchOpen (w : Wave) (n : Nat) (x : DWord) : (w.setK n x).batchOpen = w.batchOpen := rfl
@[simp] theorem setK_batchClosed (w : Wave) (n : Nat) (x : DWord) : (w.setK n x).batchClosed = w.batchClosed := rfl
@[simp] theorem setK_sq (w : Wave) (n : Nat) (x : DWord) : (w.setK n x).sq = w.sq := rfl
@[simp] theorem setK_wrote (w : Wave) (n : Nat) (x : DWord) : (w.setK n x).wrote = w.wrote := rfl
@[simp] theorem setK_copies (w : Wave) (n : Nat) (x : DWord) : (w.setK n x).copies = w.copies := rfl
@[simp] theorem setK_msgs (w : Wave) (n : Nat) (x : DWord) : (w.setK n x).msgs = w.msgs := rfl
@[simp] theorem setK_doms (w : Wave) (n : Nat) (x : DWord) : (w.setK n x).doms = w.doms := rfl
@[simp] theorem setK_far (w : Wave) (n : Nat) (x : DWord) : (w.setK n x).far = w.far := rfl
@[simp] theorem setK_epc (w : Wave) (n : Nat) (x : DWord) : (w.setK n x).epc = w.epc := rfl
@[simp] theorem setK_cause (w : Wave) (n : Nat) (x : DWord) : (w.setK n x).cause = w.cause := rfl
@[simp] theorem setK_faddr (w : Wave) (n : Nat) (x : DWord) : (w.setK n x).faddr = w.faddr := rfl
@[simp] theorem setK_flane (w : Wave) (n : Nat) (x : DWord) : (w.setK n x).flane = w.flane := rfl
@[simp] theorem setK_trapKind (w : Wave) (n : Nat) (x : DWord) : (w.setK n x).trapKind = w.trapKind := rfl
@[simp] theorem setK_frame (w : Wave) (n : Nat) (x : DWord) : (w.setK n x).frame = w.frame := rfl
@[simp] theorem setK_inner (w : Wave) (n : Nat) (x : DWord) : (w.setK n x).inner = w.inner := rfl
@[simp] theorem setK_late (w : Wave) (n : Nat) (x : DWord) : (w.setK n x).late = w.late := rfl
@[simp] theorem setK_wait (w : Wave) (n : Nat) (x : DWord) : (w.setK n x).wait = w.wait := rfl
@[simp] theorem setK_woken (w : Wave) (n : Nat) (x : DWord) : (w.setK n x).woken = w.woken := rfl
@[simp] theorem setK_accepted (w : Wave) (n : Nat) (x : DWord) : (w.setK n x).accepted = w.accepted := rfl
@[simp] theorem setK_prog (w : Wave) (n : Nat) (x : DWord) : (w.setK n x).prog = w.prog := rfl
@[simp] theorem setK_dbg (w : Wave) (n : Nat) (x : DWord) : (w.setK n x).dbg = w.dbg := rfl
@[simp] theorem setK_skipBreak (w : Wave) (n : Nat) (x : DWord) : (w.setK n x).skipBreak = w.skipBreak := rfl
@[simp] theorem setK_replay (w : Wave) (n : Nat) (x : DWord) : (w.setK n x).replay = w.replay := rfl
@[simp] theorem setK_spinTarget (w : Wave) (n : Nat) (x : DWord) : (w.setK n x).spinTarget = w.spinTarget := rfl
@[simp] theorem setK_spinEnd (w : Wave) (n : Nat) (x : DWord) : (w.setK n x).spinEnd = w.spinEnd := rfl
@[simp] theorem setK_spinCount (w : Wave) (n : Nat) (x : DWord) : (w.setK n x).spinCount = w.spinCount := rfl
@[simp] theorem setK_spinCur (w : Wave) (n : Nat) (x : DWord) : (w.setK n x).spinCur = w.spinCur := rfl
@[simp] theorem setK_spinPrev (w : Wave) (n : Nat) (x : DWord) : (w.setK n x).spinPrev = w.spinPrev := rfl
@[simp] theorem setK_stall (w : Wave) (n : Nat) (x : DWord) : (w.setK n x).stall = w.stall := rfl
@[simp] theorem setK_ended (w : Wave) (n : Nat) (x : DWord) : (w.setK n x).ended = w.ended := rfl
@[simp] theorem setK_drained (w : Wave) (n : Nat) (x : DWord) : (w.setK n x).drained = w.drained := rfl

/-! ### `Wave.setI` -/

@[simp] theorem setI_core (w : Wave) (t n : Nat) (x : Byte) : (w.setI t n x).core = w.core := rfl
@[simp] theorem setI_slot (w : Wave) (t n : Nat) (x : Byte) : (w.setI t n x).slot = w.slot := rfl
@[simp] theorem setI_depth (w : Wave) (t n : Nat) (x : Byte) : (w.setI t n x).depth = w.depth := rfl
@[simp] theorem setI_vregs (w : Wave) (t n : Nat) (x : Byte) : (w.setI t n x).vregs = w.vregs := rfl
@[simp] theorem setI_kregs (w : Wave) (t n : Nat) (x : Byte) : (w.setI t n x).kregs = w.kregs := rfl
@[simp] theorem setI_launched (w : Wave) (t n : Nat) (x : Byte) : (w.setI t n x).launched = w.launched := rfl
@[simp] theorem setI_tasks (w : Wave) (t n : Nat) (x : Byte) : (w.setI t n x).tasks = w.tasks := rfl
@[simp] theorem setI_pc (w : Wave) (t n : Nat) (x : Byte) : (w.setI t n x).pc = w.pc := rfl
@[simp] theorem setI_clause (w : Wave) (t n : Nat) (x : Byte) : (w.setI t n x).clause = w.clause := rfl
@[simp] theorem setI_level (w : Wave) (t n : Nat) (x : Byte) : (w.setI t n x).level = w.level := rfl
@[simp] theorem setI_v (w : Wave) (t n : Nat) (x : Byte) : (w.setI t n x).v = w.v := rfl
@[simp] theorem setI_k (w : Wave) (t n : Nat) (x : Byte) : (w.setI t n x).k = w.k := rfl
@[simp] theorem setI_p (w : Wave) (t n : Nat) (x : Byte) : (w.setI t n x).p = w.p := rfl
@[simp] theorem setI_active (w : Wave) (t n : Nat) (x : Byte) : (w.setI t n x).active = w.active := rfl
@[simp] theorem setI_stack (w : Wave) (t n : Nat) (x : Byte) : (w.setI t n x).stack = w.stack := rfl
@[simp] theorem setI_mile (w : Wave) (t n : Nat) (x : Byte) : (w.setI t n x).mile = w.mile := rfl
@[simp] theorem setI_milepc (w : Wave) (t n : Nat) (x : Byte) : (w.setI t n x).milepc = w.milepc := rfl
@[simp] theorem setI_ckpt (w : Wave) (t n : Nat) (x : Byte) : (w.setI t n x).ckpt = w.ckpt := rfl
@[simp] theorem setI_iwb (w : Wave) (t n : Nat) (x : Byte) : (w.setI t n x).iwb = w.iwb := rfl
@[simp] theorem setI_iwl (w : Wave) (t n : Nat) (x : Byte) : (w.setI t n x).iwl = w.iwl := rfl
@[simp] theorem setI_cCpy (w : Wave) (t n : Nat) (x : Byte) : (w.setI t n x).cCpy = w.cCpy := rfl
@[simp] theorem setI_cGrv (w : Wave) (t n : Nat) (x : Byte) : (w.setI t n x).cGrv = w.cGrv := rfl
@[simp] theorem setI_cMsg (w : Wave) (t n : Nat) (x : Byte) : (w.setI t n x).cMsg = w.cMsg := rfl
@[simp] theorem setI_cDom (w : Wave) (t n : Nat) (x : Byte) : (w.setI t n x).cDom = w.cDom := rfl
@[simp] theorem setI_batchOpen (w : Wave) (t n : Nat) (x : Byte) : (w.setI t n x).batchOpen = w.batchOpen := rfl
@[simp] theorem setI_batchClosed (w : Wave) (t n : Nat) (x : Byte) : (w.setI t n x).batchClosed = w.batchClosed := rfl
@[simp] theorem setI_sq (w : Wave) (t n : Nat) (x : Byte) : (w.setI t n x).sq = w.sq := rfl
@[simp] theorem setI_wrote (w : Wave) (t n : Nat) (x : Byte) : (w.setI t n x).wrote = w.wrote := rfl
@[simp] theorem setI_copies (w : Wave) (t n : Nat) (x : Byte) : (w.setI t n x).copies = w.copies := rfl
@[simp] theorem setI_msgs (w : Wave) (t n : Nat) (x : Byte) : (w.setI t n x).msgs = w.msgs := rfl
@[simp] theorem setI_doms (w : Wave) (t n : Nat) (x : Byte) : (w.setI t n x).doms = w.doms := rfl
@[simp] theorem setI_far (w : Wave) (t n : Nat) (x : Byte) : (w.setI t n x).far = w.far := rfl
@[simp] theorem setI_epc (w : Wave) (t n : Nat) (x : Byte) : (w.setI t n x).epc = w.epc := rfl
@[simp] theorem setI_cause (w : Wave) (t n : Nat) (x : Byte) : (w.setI t n x).cause = w.cause := rfl
@[simp] theorem setI_faddr (w : Wave) (t n : Nat) (x : Byte) : (w.setI t n x).faddr = w.faddr := rfl
@[simp] theorem setI_flane (w : Wave) (t n : Nat) (x : Byte) : (w.setI t n x).flane = w.flane := rfl
@[simp] theorem setI_trapKind (w : Wave) (t n : Nat) (x : Byte) : (w.setI t n x).trapKind = w.trapKind := rfl
@[simp] theorem setI_frame (w : Wave) (t n : Nat) (x : Byte) : (w.setI t n x).frame = w.frame := rfl
@[simp] theorem setI_inner (w : Wave) (t n : Nat) (x : Byte) : (w.setI t n x).inner = w.inner := rfl
@[simp] theorem setI_late (w : Wave) (t n : Nat) (x : Byte) : (w.setI t n x).late = w.late := rfl
@[simp] theorem setI_wait (w : Wave) (t n : Nat) (x : Byte) : (w.setI t n x).wait = w.wait := rfl
@[simp] theorem setI_woken (w : Wave) (t n : Nat) (x : Byte) : (w.setI t n x).woken = w.woken := rfl
@[simp] theorem setI_accepted (w : Wave) (t n : Nat) (x : Byte) : (w.setI t n x).accepted = w.accepted := rfl
@[simp] theorem setI_prog (w : Wave) (t n : Nat) (x : Byte) : (w.setI t n x).prog = w.prog := rfl
@[simp] theorem setI_dbg (w : Wave) (t n : Nat) (x : Byte) : (w.setI t n x).dbg = w.dbg := rfl
@[simp] theorem setI_skipBreak (w : Wave) (t n : Nat) (x : Byte) : (w.setI t n x).skipBreak = w.skipBreak := rfl
@[simp] theorem setI_replay (w : Wave) (t n : Nat) (x : Byte) : (w.setI t n x).replay = w.replay := rfl
@[simp] theorem setI_spinTarget (w : Wave) (t n : Nat) (x : Byte) : (w.setI t n x).spinTarget = w.spinTarget := rfl
@[simp] theorem setI_spinEnd (w : Wave) (t n : Nat) (x : Byte) : (w.setI t n x).spinEnd = w.spinEnd := rfl
@[simp] theorem setI_spinCount (w : Wave) (t n : Nat) (x : Byte) : (w.setI t n x).spinCount = w.spinCount := rfl
@[simp] theorem setI_spinCur (w : Wave) (t n : Nat) (x : Byte) : (w.setI t n x).spinCur = w.spinCur := rfl
@[simp] theorem setI_spinPrev (w : Wave) (t n : Nat) (x : Byte) : (w.setI t n x).spinPrev = w.spinPrev := rfl
@[simp] theorem setI_stall (w : Wave) (t n : Nat) (x : Byte) : (w.setI t n x).stall = w.stall := rfl
@[simp] theorem setI_ended (w : Wave) (t n : Nat) (x : Byte) : (w.setI t n x).ended = w.ended := rfl
@[simp] theorem setI_drained (w : Wave) (t n : Nat) (x : Byte) : (w.setI t n x).drained = w.drained := rfl

/-! ### `Wave.setP` -/

/-- A write to a predicate changes the predicates alone. -/
theorem setP_eq (w : Wave) (n : Nat) (x : Lanes) : w.setP n x = { w with p := (w.setP n x).p } := by
  unfold Wave.setP
  split <;> rfl

@[simp] theorem setP_core (w : Wave) (n : Nat) (x : Lanes) : (w.setP n x).core = w.core := by rw [setP_eq]
@[simp] theorem setP_slot (w : Wave) (n : Nat) (x : Lanes) : (w.setP n x).slot = w.slot := by rw [setP_eq]
@[simp] theorem setP_depth (w : Wave) (n : Nat) (x : Lanes) : (w.setP n x).depth = w.depth := by rw [setP_eq]
@[simp] theorem setP_vregs (w : Wave) (n : Nat) (x : Lanes) : (w.setP n x).vregs = w.vregs := by rw [setP_eq]
@[simp] theorem setP_kregs (w : Wave) (n : Nat) (x : Lanes) : (w.setP n x).kregs = w.kregs := by rw [setP_eq]
@[simp] theorem setP_launched (w : Wave) (n : Nat) (x : Lanes) : (w.setP n x).launched = w.launched := by rw [setP_eq]
@[simp] theorem setP_tasks (w : Wave) (n : Nat) (x : Lanes) : (w.setP n x).tasks = w.tasks := by rw [setP_eq]
@[simp] theorem setP_pc (w : Wave) (n : Nat) (x : Lanes) : (w.setP n x).pc = w.pc := by rw [setP_eq]
@[simp] theorem setP_clause (w : Wave) (n : Nat) (x : Lanes) : (w.setP n x).clause = w.clause := by rw [setP_eq]
@[simp] theorem setP_level (w : Wave) (n : Nat) (x : Lanes) : (w.setP n x).level = w.level := by rw [setP_eq]
@[simp] theorem setP_v (w : Wave) (n : Nat) (x : Lanes) : (w.setP n x).v = w.v := by rw [setP_eq]
@[simp] theorem setP_k (w : Wave) (n : Nat) (x : Lanes) : (w.setP n x).k = w.k := by rw [setP_eq]
@[simp] theorem setP_i (w : Wave) (n : Nat) (x : Lanes) : (w.setP n x).i = w.i := by rw [setP_eq]
@[simp] theorem setP_active (w : Wave) (n : Nat) (x : Lanes) : (w.setP n x).active = w.active := by rw [setP_eq]
@[simp] theorem setP_stack (w : Wave) (n : Nat) (x : Lanes) : (w.setP n x).stack = w.stack := by rw [setP_eq]
@[simp] theorem setP_mile (w : Wave) (n : Nat) (x : Lanes) : (w.setP n x).mile = w.mile := by rw [setP_eq]
@[simp] theorem setP_milepc (w : Wave) (n : Nat) (x : Lanes) : (w.setP n x).milepc = w.milepc := by rw [setP_eq]
@[simp] theorem setP_ckpt (w : Wave) (n : Nat) (x : Lanes) : (w.setP n x).ckpt = w.ckpt := by rw [setP_eq]
@[simp] theorem setP_iwb (w : Wave) (n : Nat) (x : Lanes) : (w.setP n x).iwb = w.iwb := by rw [setP_eq]
@[simp] theorem setP_iwl (w : Wave) (n : Nat) (x : Lanes) : (w.setP n x).iwl = w.iwl := by rw [setP_eq]
@[simp] theorem setP_cCpy (w : Wave) (n : Nat) (x : Lanes) : (w.setP n x).cCpy = w.cCpy := by rw [setP_eq]
@[simp] theorem setP_cGrv (w : Wave) (n : Nat) (x : Lanes) : (w.setP n x).cGrv = w.cGrv := by rw [setP_eq]
@[simp] theorem setP_cMsg (w : Wave) (n : Nat) (x : Lanes) : (w.setP n x).cMsg = w.cMsg := by rw [setP_eq]
@[simp] theorem setP_cDom (w : Wave) (n : Nat) (x : Lanes) : (w.setP n x).cDom = w.cDom := by rw [setP_eq]
@[simp] theorem setP_batchOpen (w : Wave) (n : Nat) (x : Lanes) : (w.setP n x).batchOpen = w.batchOpen := by rw [setP_eq]
@[simp] theorem setP_batchClosed (w : Wave) (n : Nat) (x : Lanes) : (w.setP n x).batchClosed = w.batchClosed := by rw [setP_eq]
@[simp] theorem setP_sq (w : Wave) (n : Nat) (x : Lanes) : (w.setP n x).sq = w.sq := by rw [setP_eq]
@[simp] theorem setP_wrote (w : Wave) (n : Nat) (x : Lanes) : (w.setP n x).wrote = w.wrote := by rw [setP_eq]
@[simp] theorem setP_copies (w : Wave) (n : Nat) (x : Lanes) : (w.setP n x).copies = w.copies := by rw [setP_eq]
@[simp] theorem setP_msgs (w : Wave) (n : Nat) (x : Lanes) : (w.setP n x).msgs = w.msgs := by rw [setP_eq]
@[simp] theorem setP_doms (w : Wave) (n : Nat) (x : Lanes) : (w.setP n x).doms = w.doms := by rw [setP_eq]
@[simp] theorem setP_far (w : Wave) (n : Nat) (x : Lanes) : (w.setP n x).far = w.far := by rw [setP_eq]
@[simp] theorem setP_epc (w : Wave) (n : Nat) (x : Lanes) : (w.setP n x).epc = w.epc := by rw [setP_eq]
@[simp] theorem setP_cause (w : Wave) (n : Nat) (x : Lanes) : (w.setP n x).cause = w.cause := by rw [setP_eq]
@[simp] theorem setP_faddr (w : Wave) (n : Nat) (x : Lanes) : (w.setP n x).faddr = w.faddr := by rw [setP_eq]
@[simp] theorem setP_flane (w : Wave) (n : Nat) (x : Lanes) : (w.setP n x).flane = w.flane := by rw [setP_eq]
@[simp] theorem setP_trapKind (w : Wave) (n : Nat) (x : Lanes) : (w.setP n x).trapKind = w.trapKind := by rw [setP_eq]
@[simp] theorem setP_frame (w : Wave) (n : Nat) (x : Lanes) : (w.setP n x).frame = w.frame := by rw [setP_eq]
@[simp] theorem setP_inner (w : Wave) (n : Nat) (x : Lanes) : (w.setP n x).inner = w.inner := by rw [setP_eq]
@[simp] theorem setP_late (w : Wave) (n : Nat) (x : Lanes) : (w.setP n x).late = w.late := by rw [setP_eq]
@[simp] theorem setP_wait (w : Wave) (n : Nat) (x : Lanes) : (w.setP n x).wait = w.wait := by rw [setP_eq]
@[simp] theorem setP_woken (w : Wave) (n : Nat) (x : Lanes) : (w.setP n x).woken = w.woken := by rw [setP_eq]
@[simp] theorem setP_accepted (w : Wave) (n : Nat) (x : Lanes) : (w.setP n x).accepted = w.accepted := by rw [setP_eq]
@[simp] theorem setP_prog (w : Wave) (n : Nat) (x : Lanes) : (w.setP n x).prog = w.prog := by rw [setP_eq]
@[simp] theorem setP_dbg (w : Wave) (n : Nat) (x : Lanes) : (w.setP n x).dbg = w.dbg := by rw [setP_eq]
@[simp] theorem setP_skipBreak (w : Wave) (n : Nat) (x : Lanes) : (w.setP n x).skipBreak = w.skipBreak := by rw [setP_eq]
@[simp] theorem setP_replay (w : Wave) (n : Nat) (x : Lanes) : (w.setP n x).replay = w.replay := by rw [setP_eq]
@[simp] theorem setP_spinTarget (w : Wave) (n : Nat) (x : Lanes) : (w.setP n x).spinTarget = w.spinTarget := by rw [setP_eq]
@[simp] theorem setP_spinEnd (w : Wave) (n : Nat) (x : Lanes) : (w.setP n x).spinEnd = w.spinEnd := by rw [setP_eq]
@[simp] theorem setP_spinCount (w : Wave) (n : Nat) (x : Lanes) : (w.setP n x).spinCount = w.spinCount := by rw [setP_eq]
@[simp] theorem setP_spinCur (w : Wave) (n : Nat) (x : Lanes) : (w.setP n x).spinCur = w.spinCur := by rw [setP_eq]
@[simp] theorem setP_spinPrev (w : Wave) (n : Nat) (x : Lanes) : (w.setP n x).spinPrev = w.spinPrev := by rw [setP_eq]
@[simp] theorem setP_stall (w : Wave) (n : Nat) (x : Lanes) : (w.setP n x).stall = w.stall := by rw [setP_eq]
@[simp] theorem setP_ended (w : Wave) (n : Nat) (x : Lanes) : (w.setP n x).ended = w.ended := by rw [setP_eq]
@[simp] theorem setP_drained (w : Wave) (n : Nat) (x : Lanes) : (w.setP n x).drained = w.drained := by rw [setP_eq]

/-! ### `Crew.setH` -/

@[simp] theorem setH_core (c : Crew) (n : Nat) (x : Word) : (c.setH n x).core = c.core := rfl
@[simp] theorem setH_waves (c : Crew) (n : Nat) (x : Word) : (c.setH n x).waves = c.waves := rfl
@[simp] theorem setH_hAt (c : Crew) (n : Nat) (x : Word) : (c.setH n x).hAt = c.hAt := rfl
@[simp] theorem setH_scratchBytes (c : Crew) (n : Nat) (x : Word) : (c.setH n x).scratchBytes = c.scratchBytes := rfl
@[simp] theorem setH_scratch (c : Crew) (n : Nat) (x : Word) : (c.setH n x).scratch = c.scratch := rfl
@[simp] theorem setH_bars (c : Crew) (n : Nat) (x : Word) : (c.setH n x).bars = c.bars := rfl
@[simp] theorem setH_binds (c : Crew) (n : Nat) (x : Word) : (c.setH n x).binds = c.binds := rfl
@[simp] theorem setH_evq (c : Crew) (n : Nat) (x : Word) : (c.setH n x).evq = c.evq := rfl
@[simp] theorem setH_held (c : Crew) (n : Nat) (x : Word) : (c.setH n x).held = c.held := rfl
@[simp] theorem setH_bad (c : Crew) (n : Nat) (x : Word) : (c.setH n x).bad = c.bad := rfl

end Sys2Proof.Machine
end

