-- ==== Sys2Proof/Laws/Memory.lean ====
section
/-!
SUPPORT. Sys2Proof/Laws/Memory.lean: a write in the die order keeps device memory, the dies' views and host memory in canonical
form.
-/
namespace Sys2Proof.Machine

open Sys2Proof

/-- The canonical form of a view, as a proposition. -/
theorem viewWf_iff (x : Die) (m : Img) : x.viewWf m = true ↔
    (risingFrom 0 x.view = true ∧ ∀ p ∈ x.view, p.2 ≠ m.byte p.1) ∧
      risingFrom 0 x.viewTags = true ∧ ∀ p ∈ x.viewTags, p.2 ≠ m.tag p.1 := by
  simp [Die.viewWf, and_assoc]

/-- The canonical form of memory, part by part. -/
theorem memWf_iff (s : State) : s.memWf = true ↔
    s.hbm.wf = true ∧ (∀ x ∈ s.dies, x.viewWf s.hbm = true) ∧ Memory.wf s.hostMem = true := by
  simp [State.memWf, and_assoc]

/-- A difference set in a map keeps the form: keys rising, no entry equal to what stands below. -/
theorem differences_keep {α : Type} [DecidableEq α] {base : Nat → α} {v : NMap α} {k : Nat} {x : α}
    (h : risingFrom 0 v = true ∧ ∀ p ∈ v, p.2 ≠ base p.1) :
    risingFrom 0 (if x = base k then del v k else ins v k x) = true ∧
      ∀ p ∈ (if x = base k then del v k else ins v k x), p.2 ≠ base p.1 := by
  split
  · exact ⟨risingFrom_filter _ h.1, fun p hp => h.2 p (List.mem_of_mem_filter hp)⟩
  · rename_i hx
    refine ⟨risingFrom_ins x (Nat.zero_le _) h.1, fun p hp => ?_⟩
    rcases mem_ins hp with rfl | hp
    · exact hx
    · exact h.2 p hp

/-- A line write set in a die's view keeps the view's form. -/
theorem apply_viewWf {x : Die} {m : Img} (w : LineWrite) (h : x.viewWf m = true) : (x.apply m w).viewWf m = true := by
  rw [viewWf_iff] at h
  have bytes : ∀ (l : List (Nat × Byte)) (v : NMap Byte), (risingFrom 0 v = true ∧ ∀ p ∈ v, p.2 ≠ m.byte p.1) →
      (risingFrom 0 (l.foldl (fun v p => setViewByte m v (w.line + p.1) p.2) v) = true ∧
        ∀ p ∈ l.foldl (fun v p => setViewByte m v (w.line + p.1) p.2) v, p.2 ≠ m.byte p.1) := by
    intro l
    induction l with
    | nil => exact fun v h => h
    | cons p r ih => exact fun v h => ih _ (differences_keep h)
  unfold Die.apply
  split
  · exact (viewWf_iff _ _).2 ⟨bytes _ _ h.1, h.2⟩
  · exact (viewWf_iff _ _).2 ⟨bytes _ _ h.1, differences_keep h.2⟩

/-- Memory, the views and host memory stand in the second state as in the first. -/
def sameMemory (s t : State) : Prop := t.hbm = s.hbm ∧ t.dies = s.dies ∧ t.hostMem = s.hostMem

theorem sameMemory.memWf {s t : State} (h : sameMemory s t) (hs : s.memWf = true) : t.memWf = true := by
  obtain ⟨a, b, c⟩ := h
  rw [memWf_iff] at hs ⊢
  rw [a, b, c]
  exact hs

theorem sameMemory.trans {s t u : State} (h : sameMemory s t) (g : sameMemory t u) : sameMemory s u :=
  ⟨g.1.trans h.1, g.2.1.trans h.2.1, g.2.2.trans h.2.2⟩

/-- A list with one entry replaced holds that entry or an old one. -/
theorem mem_setAt {α : Type} {l : List α} {n : Nat} {x y : α} (h : y ∈ setAt l n x) : y = x ∨ y ∈ l := by
  induction l generalizing n with
  | nil => cases h
  | cons a r ih =>
    cases n with
    | zero =>
      rcases List.mem_cons.1 h with h | h
      · exact .inl h
      · exact .inr (List.mem_cons_of_mem _ h)
    | succ n =>
      rcases List.mem_cons.1 h with h | h
      · exact .inr (h ▸ List.mem_cons_self)
      · exact (ih h).imp_right (List.mem_cons_of_mem _)

/-- A die replaced by one whose view is in canonical form keeps the form. -/
theorem setDie_memWf {s : State} {x : Die} (d : Nat) (hs : s.memWf = true) (hx : x.viewWf s.hbm = true) :
    (s.setDie d x).memWf = true := by
  rw [memWf_iff] at hs ⊢
  refine ⟨hs.1, fun y hy => ?_, hs.2.2⟩
  rcases mem_setAt hy with rfl | hy
  · exact hx
  · exact hs.2.1 y hy

/-- The view of every die, listed or not, is in canonical form. -/
theorem die_viewWf {s : State} (d : Nat) (hs : s.memWf = true) : (s.die d).viewWf s.hbm = true := by
  unfold State.die
  cases h : s.dies[d]? with
  | none => rfl
  | some x => exact ((memWf_iff s).1 hs).2.1 x (List.mem_of_getElem? h)

/-- What leaves memory alone step by step leaves it alone through a fold. -/
theorem sameMemory_foldl {α : Type} {f : State → α → State} (hf : ∀ s x, sameMemory s (f s x)) (l : List α) (s : State) :
    sameMemory s (l.foldl f s) := by
  induction l generalizing s with
  | nil => exact ⟨rfl, rfl, rfl⟩
  | cons x r ih => exact (hf _ _).trans (ih _)

/-- The records of the watches on a line touch no memory. -/
theorem sameMemory_watchWrite (s : State) (w : LineWrite) (who : Writer) : sameMemory s (s.watchWrite w who) :=
  sameMemory_foldl (f := fun (s : State) (p : Nat × Nat) => s.postEvent p.1 (eventRecord 2 0 0 who.code 0 p.2 0 0 (byteMask w))) (fun _ _ => ⟨rfl, rfl, rfl⟩) _ _

/-- The record that a write leaves at its slice touches no memory. -/
theorem sameMemory_sliceWrite (s : State) (line : Nat) (w : Writer) : sameMemory s (s.sliceWrite line w) := by
  have rebase (s : State) (d t : Nat) : sameMemory s (s.rebaseAt d t) := by
    unfold State.rebaseAt
    repeat' split
    all_goals exact ⟨rfl, rfl, rfl⟩
  have h := rebase s (homeDie line) ((s.lineDir line).rts.toNat + 1)
  cases w <;> exact h.trans ⟨rfl, rfl, rfl⟩

/-- A write that takes its place in a die's order keeps the form. -/
theorem applyAt_memWf {s : State} (d : Nat) (w : LineWrite) (who : Writer) (hs : s.memWf = true) :
    (s.applyAt d w who).memWf = true := by
  have wake (s : State) (d l : Nat) : sameMemory s (wakeLine s d l) := by
    unfold wakeLine
    dsimp only
    split <;> exact ⟨rfl, rfl, rfl⟩
  have first : sameMemory s (if d = homeDie w.line then keepCode s d w else s) := by split <;> exact ⟨rfl, rfl, rfl⟩
  unfold State.applyAt
  dsimp only
  set t := if d = homeDie w.line then keepCode s d w else s with ht
  have h1 : (t.setDie d ((t.die d).apply t.hbm w)).memWf = true :=
    setDie_memWf d (first.memWf hs) (apply_viewWf w (die_viewWf d (first.memWf hs)))
  set u := t.setDie d ((t.die d).apply t.hbm w)
  have h2 : sameMemory u { wakeLine (invalidateAssay u d w.line) d w.line with
      hostLines := (wakeLine (invalidateAssay u d w.line) d w.line).hostLines.filter (· != w.line) } :=
    (show sameMemory u (invalidateAssay u d w.line) from ⟨rfl, rfl, rfl⟩).trans
      ((wake _ _ _).trans ⟨rfl, rfl, rfl⟩)
  set v := ({ wakeLine (invalidateAssay u d w.line) d w.line with
      hostLines := (wakeLine (invalidateAssay u d w.line) d w.line).hostLines.filter (· != w.line) } : State)
  split
  · have h3 := (show sameMemory v (v.setLineDir w.line { v.lineDir w.line with dirty := true }) from ⟨rfl, rfl, rfl⟩).trans
      (sameMemory_sliceWrite _ w.line who)
    split
    · exact ((h2.trans (h3.trans (sameMemory_watchWrite _ _ _))).trans ⟨rfl, rfl, rfl⟩ : sameMemory u _).memWf h1
    · exact (h2.trans (h3.trans (sameMemory_watchWrite _ _ _))).memWf h1
  · exact h2.memWf h1

/-- A write sent to the other dies keeps the form. -/
theorem sendPkg_memWf {s : State} (d : Nat) (w : LineWrite) (a : Bool) (hs : s.memWf = true) : (s.sendPkg d w a).memWf = true := by
  have h : ∀ x : Die, x.viewWf s.hbm = true → ∀ vc, ({ x with vc := vc } : Die).viewWf s.hbm = true := fun _ h _ => h
  unfold State.sendPkg
  exact setDie_memWf (s := { s with pkg := _ }) d hs (h _ (die_viewWf d hs) _)

/-- A write applied at another die keeps the form. -/
theorem remoteApply_memWf {s : State} (i d : Nat) (hs : s.memWf = true) : (s.remoteApply i d).memWf = true := by
  unfold State.remoteApply
  split
  · exact hs
  · rename_i p _
    have h := applyAt_memWf d p.write .die hs
    exact setDie_memWf d h (show ({ (s.applyAt d p.write .die).die d with vc := _ } : Die).viewWf _ = true from die_viewWf d h)

/-- A write applied at another die at once keeps the form. -/
theorem applyNow_memWf {s : State} (w : LineWrite) (e : Nat) (hs : s.memWf = true) : (s.applyNow w e).memWf = true := by
  unfold State.applyNow
  split
  · exact remoteApply_memWf _ _ hs
  · exact hs

/-- What keeps the form step by step keeps it through a fold. -/
theorem foldl_memWf {α : Type} {f : State → α → State} (hf : ∀ s x, s.memWf = true → (f s x).memWf = true) (l : List α) {s : State}
    (hs : s.memWf = true) : (l.foldl f s).memWf = true := by
  induction l generalizing s with
  | nil => exact hs
  | cons x r ih => exact ih (hf _ _ hs)

/-- A stash copy dropped touches no memory. -/
theorem sameMemory_dropStash (s : State) (line : Nat) : sameMemory s (s.dropStash line) := by
  unfold State.dropStash
  split <;> exact ⟨rfl, rfl, rfl⟩

/-- A trigger that joins a queue touches no memory. -/
theorem sameMemory_enqueue (s : State) (n : Nat) (t : Trigger) : sameMemory s (s.enqueue n t).1 := by
  unfold State.enqueue
  dsimp only
  repeat' split
  all_goals exact ⟨rfl, rfl, rfl⟩

/-! ### A line written back (07 R131) -/

/-- Bytes set one after the other in a view that is in canonical form but for them. -/
theorem setViewBytes_canonical {m : Img} (l : List (Nat × Byte)) {v : NMap Byte}
    (h : risingFrom 0 v = true ∧ ∀ p ∈ v, (∀ q ∈ l, q.1 ≠ p.1) → p.2 ≠ m.byte p.1) :
    risingFrom 0 (l.foldl (fun v p => setViewByte m v p.1 p.2) v) = true ∧
      ∀ p ∈ l.foldl (fun v p => setViewByte m v p.1 p.2) v, p.2 ≠ m.byte p.1 := by
  induction l generalizing v with
  | nil => exact ⟨h.1, fun p hp => h.2 p hp (by simp)⟩
  | cons q r ih =>
    refine ih ?_
    simp only [setViewByte]
    split
    · refine ⟨risingFrom_filter _ h.1, fun p hp hr => ?_⟩
      obtain ⟨hm, hk⟩ := List.mem_filter.1 hp
      exact h.2 p hm (List.forall_mem_cons.2 ⟨fun e => by simp [e] at hk, hr⟩)
    · rename_i hq
      refine ⟨risingFrom_ins _ (Nat.zero_le _) h.1, fun p hp hr => ?_⟩
      rcases mem_ins_ne h.1 hp with rfl | ⟨hm, hk⟩
      · exact hq
      · exact h.2 p hm (List.forall_mem_cons.2 ⟨fun e => hk e.symm, hr⟩)

/-- A view is in canonical form again once device memory has changed in a line, and the view with it. -/
theorem rebased_viewWf {x : Die} {m m' : Img} {line : Nat} {bytes : List (Nat × Byte)} (tag : Tag) (h : x.viewWf m = true)
    (hb : ∀ k, (∀ q ∈ bytes, q.1 ≠ k) → m'.byte k = m.byte k) (ht : ∀ k, lineOf k ≠ lineOf line → m'.tag k = m.tag k) :
    (x.rebased m' line bytes tag).viewWf m' = true := by
  rw [viewWf_iff] at h
  have rest : risingFrom 0 (x.viewTags.filter fun p => lineOf p.1 != lineOf line) = true ∧
      ∀ p ∈ x.viewTags.filter fun p => lineOf p.1 != lineOf line, p.2 ≠ m'.tag p.1 := by
    refine ⟨risingFrom_filter _ h.2.1, fun p hp => ?_⟩
    obtain ⟨hm, hk⟩ := List.mem_filter.1 hp
    rw [ht p.1 (by simpa using hk)]
    exact h.2.2 p hm
  refine (viewWf_iff _ _).2 ⟨setViewBytes_canonical bytes ⟨h.1.1, fun p hp hq => by rw [hb p.1 hq]; exact h.1.2 p hp⟩, ?_⟩
  unfold Die.rebased
  dsimp only
  split
  · exact rest
  · rename_i hne
    refine ⟨risingFrom_ins _ (Nat.zero_le _) rest.1, fun p hp => ?_⟩
    rcases mem_ins hp with rfl | hp
    · exact hne
    · exact rest.2 p hp

/-- The end of a stack's self-refresh keeps the form. -/
theorem exitRefresh_memWf {s : State} (line : Nat) (hs : s.memWf = true) : (s.exitRefresh line).memWf = true := by
  unfold State.exitRefresh
  dsimp only
  split
  · exact setDie_memWf _ hs (die_viewWf _ hs)
  · exact hs

/-- A slice's copy dropped touches no memory. -/
theorem sameMemory_l2Gone (s : State) (line : Nat) (b : Bool) : sameMemory s (s.l2Gone line b) := by
  unfold State.l2Gone
  split <;> exact ⟨rfl, rfl, rfl⟩

/-- Bytes set in an image one after the other keep its form, and leave the others. -/
theorem setAll_byte (l : List (Nat × Byte)) (m : Img) :
    ((m.wf = true → (l.foldl (fun m p => m.setByte p.1 p.2) m).wf = true) ∧
      (∀ k, (l.foldl (fun m p => m.setByte p.1 p.2) m).tag k = m.tag k)) ∧
      ∀ k, (∀ q ∈ l, q.1 ≠ k) → (l.foldl (fun m p => m.setByte p.1 p.2) m).byte k = m.byte k := by
  induction l generalizing m with
  | nil => exact ⟨⟨id, fun _ => rfl⟩, fun _ _ => rfl⟩
  | cons q r ih =>
    obtain ⟨⟨a, b⟩, c⟩ := ih (m.setByte q.1 q.2)
    exact ⟨⟨fun h => a (setByte_wf _ _ h), b⟩, fun k hk => (c k fun x hx => hk x (List.mem_cons_of_mem _ hx)).trans
      (byte_setByte_ne _ _ (Ne.symm (hk q List.mem_cons_self)))⟩

/-- A line written back keeps the form. -/
theorem writeBack_memWf {s : State} (line : Nat) (hs : s.memWf = true) : (s.writeBack line).memWf = true := by
  rw [memWf_iff] at hs
  unfold State.writeBack
  dsimp only
  set bytes := (List.range 64).map fun i => (line + i, s.viewByte (homeDie line) (line + i)) with hbytes
  set m := bytes.foldl (fun m p => m.setByte p.1 p.2) s.hbm with hm
  have all := setAll_byte bytes s.hbm
  rw [← hm] at all
  refine (show sameMemory _ _ from ⟨rfl, rfl, rfl⟩ : sameMemory _ (State.setLineDir _ _ _)).memWf
    ((sameMemory_l2Gone _ _ _).memWf (exitRefresh_memWf line ?_))
  refine (memWf_iff _).2 ⟨setTag_wf _ _ (all.1.1 hs.1), fun y hy => ?_, hs.2.2⟩
  obtain ⟨e, he, rfl⟩ := List.mem_iff_getElem.1 hy
  simp only [List.getElem_mapIdx]
  refine rebased_viewWf _ (hs.2.1 _ (List.getElem_mem _)) (fun k hk => ?_) (fun k hk => ?_)
  · rw [byte_setTag]
    refine all.2 k fun q hq => ?_
    exact hk (q.1, s.viewByte e q.1) (List.mem_map.2 ⟨q, hq, rfl⟩)
  · rw [tag_setTag_ne _ _ hk]
    exact all.1.2 k

/-! ### The slices' requests (07 R135) -/

/-- A line taken out of its slice keeps the form. -/
theorem evictNow_memWf {s : State} (line : Nat) (hs : s.memWf = true) : (s.evictNow line).memWf = true := by
  unfold State.evictNow
  dsimp only
  refine (show sameMemory _ _ from ⟨rfl, rfl, rfl⟩ : sameMemory _ (State.setLineDir _ _ _)).memWf ?_
  split
  · exact writeBack_memWf line hs
  · exact (sameMemory_l2Gone _ _ _).memWf hs

/-- A victim chosen keeps the form. -/
theorem evict_memWf {s : State} (line : Nat) (hs : s.memWf = true) : (s.evict line).memWf = true := by
  unfold State.evict
  dsimp only
  have q (n : Nat) (t : Trigger) := (sameMemory_enqueue s n t).memWf hs
  split
  · exact hs
  · split
    · split
      · exact (show sameMemory _ (State.setLineDir _ _ _) from ⟨rfl, rfl, rfl⟩).memWf (q _ _)
      · exact evictNow_memWf line (q _ _)
    · exact evictNow_memWf line hs

/-- FILL raised touches no memory. -/
theorem sameMemory_raiseFill (s : State) (line h q : Nat) : sameMemory s (s.raiseFill line h q) := by
  unfold State.raiseFill
  dsimp only
  split
  · exact sameMemory_enqueue _ _ _
  · exact ⟨rfl, rfl, rfl⟩

/-- A line announced touches no memory. -/
theorem sameMemory_announce (s : State) (line va vf set h q : Nat) : sameMemory s (s.announce line va vf set h q) :=
  (show sameMemory s _ from ⟨rfl, rfl, rfl⟩).trans (sameMemory_raiseFill _ _ _ _)

/-- A line installed keeps the form. -/
theorem install_memWf {s : State} (line va vf set h q : Nat) (b : Bool) (hs : s.memWf = true) :
    (s.install line va vf set h q b).memWf = true := by
  have room : (s.makeRoom line).memWf = true := by
    unfold State.makeRoom
    split
    · exact hs
    · split
      · exact evict_memWf _ hs
      · exact hs
  unfold State.install
  dsimp only
  split
  · have h1 := (show sameMemory s (s.setLineDir line { s.lineDir line with requested := false }) from ⟨rfl, rfl, rfl⟩).memWf hs
    split
    · exact (sameMemory_announce _ _ _ _ _ _ _).memWf h1
    · exact h1
  · have h1 := exitRefresh_memWf line room
    split
    · exact (sameMemory_raiseFill _ _ _ _).memWf ((show sameMemory _ (State.setLineDir _ _ _) from ⟨rfl, rfl, rfl⟩).memWf h1)
    · exact (show sameMemory _ (State.setLineDir _ _ _) from ⟨rfl, rfl, rfl⟩).memWf h1

/-- A checked access of a line keeps the form. -/
theorem checkedLine_memWf {s : State} (line va vf set q : Nat) (hs : s.memWf = true) : (s.checkedLine line va vf set q).memWf = true := by
  have used : (s.prefetchUsed line).memWf = true := by
    unfold State.prefetchUsed
    split
    · exact hs
    · exact (show sameMemory s _ from ⟨rfl, rfl, rfl⟩).memWf hs
  unfold State.checkedLine
  dsimp only
  set t := s.prefetchUsed line
  split
  · have h1 := (show sameMemory t (t.setLineDir line { t.lineDir line with recent := t.freeCtr }) from ⟨rfl, rfl, rfl⟩).memWf used
    split
    · exact (sameMemory_announce _ _ _ _ _ _ _).memWf h1
    · exact h1
  · split
    · exact used
    · have q (n : Nat) (t' : Trigger) := (sameMemory_enqueue t n t').memWf used
      split
      · split
        · exact (show sameMemory _ (State.setLineDir _ _ _) from ⟨rfl, rfl, rfl⟩).memWf (q _ _)
        · exact install_memWf _ _ _ _ _ _ _ (q _ _)
      · exact install_memWf _ _ _ _ _ _ _ used

/-! ### Writes of agents -/

/-- A write performed at a die and applied at all the others keeps the form. -/
theorem writeEverywhere_memWf {s : State} (d : Nat) (w : LineWrite) (who : Writer) (hs : s.memWf = true) :
    (s.writeEverywhere d w who).memWf = true :=
  foldl_memWf (fun _ e h => applyNow_memWf w e h) _ (sendPkg_memWf _ _ _ (applyAt_memWf _ _ _ hs))

/-- A stash line given up keeps the form. -/
theorem giveBack_memWf {s : State} (line : Nat) (hs : s.memWf = true) : (s.giveBack line).memWf = true := by
  unfold State.giveBack
  split
  · exact (sameMemory_dropStash _ _).memWf hs
  · rename_i k c o _
    have h : ((s.stashRequest line k c).dropStash line).memWf = true :=
      (sameMemory_dropStash _ line).memWf (checkedLine_memWf line _ _ _ _ hs)
    dsimp only
    split
    · exact writeEverywhere_memWf _ _ _ h
    · exact h

/-- A write by an agent keeps the canonical form of all memory. -/
theorem devWrite_memWf {s : State} (d : Nat) (w : LineWrite) (who : Writer) (hs : s.memWf = true) :
    (s.devWrite d w who).memWf = true := by
  unfold State.devWrite
  refine sendPkg_memWf _ _ _ (applyAt_memWf _ _ _ ?_)
  split
  · exact giveBack_memWf _ hs
  · exact hs

/-- A write that all dies see at once keeps the canonical form of all memory. -/
theorem devWriteAll_memWf {s : State} (d : Nat) (w : LineWrite) (who : Writer) (hs : s.memWf = true) :
    (s.devWriteAll d w who).memWf = true := foldl_memWf (fun _ e h => applyNow_memWf w e h) _ (devWrite_memWf d w who hs)

end Sys2Proof.Machine
end

