-- ==== Sys2Proof/Laws/Ops.lean ====
section
/-!
SUPPORT. Sys2Proof/Laws/Ops.lean: what the shared operations do, said once: an instruction that runs comes to its body, and a
body that commits comes to `Ctx.commit`.
-/
namespace Sys2Proof.Machine

open Sys2Proof

/-! ### The setting while an instruction commits -/

@[simp] theorem during_s (c : Ctx) (b : Bool) : (c.during b).s = c.s := rfl
@[simp] theorem during_id (c : Ctx) (b : Bool) : (c.during b).id = c.id := rfl
@[simp] theorem during_w (c : Ctx) (b : Bool) : (c.during b).w = c.w := rfl
@[simp] theorem during_cw (c : Ctx) (b : Bool) : (c.during b).cw = c.cw := rfl
@[simp] theorem during_cv (c : Ctx) (b : Bool) : (c.during b).cv = c.cv := rfl
@[simp] theorem during_g (c : Ctx) (b : Bool) : (c.during b).g = c.g := rfl
@[simp] theorem during_hnd (c : Ctx) (b : Bool) : (c.during b).hnd = c.hnd := rfl
@[simp] theorem during_explicit (c : Ctx) (b : Bool) : (c.during b).explicitMile = c.explicitMile := rfl
@[simp] theorem during_quiet (c : Ctx) (b : Bool) : (c.during b).quiet = c.quiet := rfl
@[simp] theorem during_acting (c : Ctx) (b : Bool) (k : Ctl) : (c.during b).acting k = c.acting k := rfl
@[simp] theorem during_check (c : Ctx) (b : Bool) (m : Meta) : m.check (c.during b) = m.check c := rfl
@[simp] theorem during_advance (c : Ctx) (b b' : Bool) (w : Wave) : (c.during b).advance b' w = c.advance b' w := rfl
@[simp] theorem during_move (c : Ctx) (b : Bool) (d : Option DWord) (w : Wave) : (c.during b).move d w = c.move d w := rfl
@[simp] theorem during_commit (c : Ctx) (b b' : Bool) (d : Option DWord) (s : State) :
    (c.during b).commit b' d s = c.commit b' d s := rfl
@[simp] theorem during_nextHeader (c : Ctx) (b : Bool) : (c.during b).nextHeader = c.nextHeader := rfl
@[simp] theorem during_put (c : Ctx) (b : Bool) (w : Wave) : (c.during b).put w = c.put w := rfl

/-- The setting of the focus wave holds the state it was taken in. -/
theorem ctx_state {s : State} {c : Ctx} (h : Ctx.of s = some c) : c.s = s := by
  unfold Ctx.of at h
  split at h
  · unfold State.ctx at h
    repeat' split at h
    all_goals first | (cases h; rfl) | cases h
  · cases h
  · cases h

/-! ### From an instruction to its body, from a body to the commit -/

/-- What `Ctx.runs` says, part by part. -/
theorem runs_iff (c : Ctx) (m : Meta) (each : Nat → Option (BitVec 10 × Nat)) : c.runs m each = true ↔
    m.check c = none ∧ threadFault c.w m.fields (c.acting m.ctl) each = none ∧ (c.acting m.ctl ≠ 0 ∨ m.always = true) ∧
      c.calm m.closer = true := by
  simp only [Ctx.runs, Bool.and_eq_true, Option.isNone_iff_eq_none, Bool.or_eq_true, bne_iff_ne, ne_eq, and_assoc]

/-- An instruction that runs and passes its own decode checks comes to its body. -/
theorem instrEach_runs {s : State} {c : Ctx} {m : Meta} {own : Ctx → Option (BitVec 10)}
    {each : Ctx → Lanes → Nat → Option (BitVec 10 × Nat)} {body : Ctx → Lanes → Verdict} (h : Ctx.of s = some c)
    (hr : c.runs m (each (c.during m.closer) (c.acting m.ctl)) = true) (ho : own (c.during m.closer) = none) :
    instrEach s m own each body =
      .next ((c.during m.closer).settle m.closer (body (c.during m.closer) (c.acting m.ctl))) := by
  obtain ⟨h1, h2, h3, -⟩ := (runs_iff _ _ _).1 hr
  have h4 : ¬(c.acting m.ctl = 0 ∧ m.always = false) := by
    rintro ⟨ha, hb⟩
    rcases h3 with h | h
    · exact h ha
    · rw [hb] at h; cases h
  simp only [instrEach, h, Ctx.run, during_check, h1, ho, during_acting, during_w, h2, Bool.and_eq_true,
    Bool.not_eq_true']
  rw [if_neg fun hh => h4 ⟨of_decide_eq_true hh.1, hh.2⟩]

/-- The same without checks of single threads. -/
theorem instr_runs {s : State} {c : Ctx} {m : Meta} {own : Ctx → Option (BitVec 10)} {body : Ctx → Lanes → Verdict}
    (h : Ctx.of s = some c) (hr : c.runs m = true) (ho : own (c.during m.closer) = none) :
    instr s m own body = .next ((c.during m.closer).settle m.closer (body (c.during m.closer) (c.acting m.ctl))) :=
  instrEach_runs h hr ho

/-- A body that commits, with no trap cause and no watchpoint matched, comes to the commit. -/
theorem settle_ok {c : Ctx} {b : Bool} {e : Eff} (hc : c.calm b = true) (hs : e.soft = none) (hh : e.hits = []) :
    (c.during b).settle b (.ok e) = c.commit b e.dest e.s := by
  simp only [Ctx.calm, Bool.and_eq_true, Bool.or_eq_true, Bool.not_eq_true'] at hc
  obtain ⟨h1, h2⟩ := hc
  have w : (!c.hnd && (b || c.explicitMile) && !c.quiet) = false := by
    rcases h1 with (h | h) | h <;> simp_all
  have st : (!c.hnd && c.w.stepping) = false := by rcases h2 with h | h <;> simp_all
  simp only [Ctx.settle, during_hnd, during_explicit, during_quiet, w, Bool.false_eq_true, if_false]
  unfold Ctx.finish Ctx.commit
  simp only [during_id, during_move, during_advance, during_w, during_hnd, hs, hh, ite_self, st, List.foldl_nil,
    Bool.false_eq_true, if_false, if_true]
  all_goals rfl

/-- An instruction that runs and whose body commits without an after-trap comes to the commit of its effects. -/
theorem instrEach_commits {s : State} {c : Ctx} {m : Meta} {own : Ctx → Option (BitVec 10)}
    {each : Ctx → Lanes → Nat → Option (BitVec 10 × Nat)} {body : Ctx → Lanes → Verdict} {e : Eff} (h : Ctx.of s = some c)
    (hr : c.runs m (each (c.during m.closer) (c.acting m.ctl)) = true) (ho : own (c.during m.closer) = none)
    (hb : body (c.during m.closer) (c.acting m.ctl) = .ok e) (hs : e.soft = none) (hh : e.hits = []) :
    instrEach s m own each body = .next (c.commit m.closer e.dest e.s) := by
  rw [instrEach_runs h hr ho, hb, settle_ok ((runs_iff _ _ _).1 hr).2.2.2 hs hh]

/-- The same without checks of single threads. -/
theorem instr_commits {s : State} {c : Ctx} {m : Meta} {own : Ctx → Option (BitVec 10)} {body : Ctx → Lanes → Verdict}
    {e : Eff} (h : Ctx.of s = some c) (hr : c.runs m = true) (ho : own (c.during m.closer) = none)
    (hb : body (c.during m.closer) (c.acting m.ctl) = .ok e) (hs : e.soft = none) (hh : e.hits = []) :
    instr s m own body = .next (c.commit m.closer e.dest e.s) := instrEach_commits h hr ho hb hs hh

/-- An instruction whose body has an effect on the state alone. -/
theorem instr_effect {s : State} {c : Ctx} {m : Meta} {own : Ctx → Option (BitVec 10)} {body : Ctx → Lanes → Verdict}
    {t : State} (h : Ctx.of s = some c) (hr : c.runs m = true) (ho : own (c.during m.closer) = none)
    (hb : body (c.during m.closer) (c.acting m.ctl) = .ok (.of t)) :
    instr s m own body = .next (c.commit m.closer none t) := instr_commits h hr ho hb rfl rfl

end Sys2Proof.Machine
end

