-- ==== Sys2Proof/Laws/Words.lean ====
section
/-!
SUPPORT. Sys2Proof/Laws/Words.lean: fields go into a word and come out of it unchanged: the lemmas on which the round trip of
encoder and decoder rests.
-/
namespace Sys2Proof.Laws

open Sys2Proof

/-- Concatenation as arithmetic. -/
theorem toNat_cat {v w : Nat} (a : BitVec v) (b : BitVec w) : (a ++ b).toNat = a.toNat * 2 ^ w + b.toNat := by
  rw [BitVec.toNat_append, ← Nat.shiftLeft_add_eq_or_of_lt b.isLt, Nat.shiftLeft_eq]

/-- A bit as arithmetic. -/
theorem toNat_bit (b : Bool) : (BitVec.ofBool b).toNat = b.toNat := by cases b <;> rfl

/-- A bit of a word as arithmetic. -/
theorem bit_eq {w : Nat} (x : BitVec w) (i : Nat) (b : Bool) (h : x.toNat / 2 ^ i % 2 = b.toNat) : x.getLsbD i = b := by
  rw [BitVec.getLsbD, Nat.testBit_eq_decide_div_mod_eq, h]
  cases b <;> rfl

/-- A field of a word as arithmetic. -/
theorem field_eq {w n : Nat} (x : BitVec w) (s : Nat) (a : BitVec n) (h : x.toNat / 2 ^ s % 2 ^ n = a.toNat) :
    x.extractLsb' s n = a := by
  apply BitVec.eq_of_toNat_eq
  rw [BitVec.extractLsb'_toNat, Nat.shiftRight_eq_div_pow, h]

/-- The fields of a packed word are the fields packed. -/
theorem unpack_pack (f : Fields) : Fields.unpack f.pack = f := by
  rcases f with ⟨op, sw, onc, pg, dst, sa, low⟩
  have h1 := op.isLt
  have h2 := sw.toNat_lt
  have h3 := onc.toNat_lt
  have h4 := pg.isLt
  have h5 := dst.isLt
  have h6 := sa.isLt
  cases low with
  | lit w =>
    have h7 := w.isLt
    have e : (Fields.pack ⟨op, sw, onc, pg, dst, sa, .lit w⟩).toNat = ((((((op.toNat * 2 + sw.toNat) * 2 + onc.toNat) * 2 + 1) * 8 +
        pg.toNat) * 512 + dst.toNat) * 512 + sa.toNat) * 2 ^ 32 + w.toNat := by
      simp only [Fields.pack, Low.bits, Low.isLit, toNat_cat, toNat_bit]
      rfl
    have l : (Fields.pack ⟨op, sw, onc, pg, dst, sa, .lit w⟩).getLsbD 53 = true := by
      apply bit_eq; rw [e]; simp only [Bool.toNat_true]; omega
    simp only [Fields.unpack, l, if_true]
    congr 1
    · apply field_eq; rw [e]; omega
    · apply bit_eq; rw [e]; omega
    · apply bit_eq; rw [e]; omega
    · apply field_eq; rw [e]; omega
    · apply field_eq; rw [e]; omega
    · apply field_eq; rw [e]; omega
    · congr 1; apply field_eq; rw [e]; omega
  | reg sb sc pn m =>
    have h7 := sb.isLt
    have h8 := sc.isLt
    have h9 := pn.toNat_lt
    have h10 := m.isLt
    have e : (Fields.pack ⟨op, sw, onc, pg, dst, sa, .reg sb sc pn m⟩).toNat = ((((((op.toNat * 2 + sw.toNat) * 2 + onc.toNat) * 2 + 0) * 8 +
        pg.toNat) * 512 + dst.toNat) * 512 + sa.toNat) * 2 ^ 32 + (((sb.toNat * 512 + sc.toNat) * 2 + pn.toNat) * 2 ^ 13 + m.toNat) := by
      simp only [Fields.pack, Low.bits, Low.isLit, toNat_cat, toNat_bit]
      rfl
    have l : (Fields.pack ⟨op, sw, onc, pg, dst, sa, .reg sb sc pn m⟩).getLsbD 53 = false := by
      apply bit_eq; rw [e]; simp only [Bool.toNat_false]; omega
    simp only [Fields.unpack, l]
    congr 1
    · apply field_eq; rw [e]; omega
    · apply bit_eq; rw [e]; omega
    · apply bit_eq; rw [e]; omega
    · apply field_eq; rw [e]; omega
    · apply field_eq; rw [e]; omega
    · apply field_eq; rw [e]; omega
    · simp only [Bool.false_eq_true, if_false]
      congr 1
      · apply field_eq; rw [e]; omega
      · apply field_eq; rw [e]; omega
      · apply bit_eq; rw [e]; omega
      · apply field_eq; rw [e]; omega

/-- A descriptor is read back from its code. -/
@[simp] theorem desc_code (d : Desc) : Desc.ofCode d.code = d := by
  cases d with
  | v n => revert n; decide
  | k n => revert n; decide
  | h n => revert n; decide
  | special n => revert n; decide
  | inline n => revert n; decide
  | idx i off => revert i off; decide

/-! ### Codes -/

@[simp] theorem iTy_code (x : ITy) : ITy.ofCode x.code = some x := by cases x <;> rfl
@[simp] theorem fTy_code (x : FTy) : FTy.ofCode x.code = some x := by cases x <;> rfl
@[simp] theorem mTy_code (x : MTy) : MTy.ofCode x.code = some x := by cases x <;> rfl
@[simp] theorem rM_code (x : RM) : RM.ofCode x.code = some x := by cases x <;> rfl
@[simp] theorem cond_code (x : Cond) : Cond.ofCode x.code = some x := by cases x <;> rfl
@[simp] theorem combine_code (x : Combine) : Combine.ofCode x.code = some x := by cases x <;> rfl
@[simp] theorem shKind_code (x : ShKind) : ShKind.ofCode x.code = some x := by cases x <;> rfl
@[simp] theorem cntOp_code (x : CntOp) : CntOp.ofCode x.code = some x := by cases x <;> rfl
@[simp] theorem scanOp_code (x : ScanOp) : ScanOp.ofCode x.code = some x := by cases x <;> rfl
@[simp] theorem redOp_code (x : RedOp) : RedOp.ofCode x.code = some x := by cases x <;> rfl
@[simp] theorem sgnOp_code (x : SgnOp) : SgnOp.ofCode x.code = some x := by cases x <;> rfl
@[simp] theorem fCode_code (x : FCode) : FCode.ofCode x.code = some x := by cases x <;> rfl
@[simp] theorem qFmt_code (x : QFmt) : QFmt.ofCode x.code = some x := by cases x <;> rfl
@[simp] theorem aOp_code (x : AOp) : AOp.ofCode x.code = some x := by cases x <;> rfl
@[simp] theorem scope_code (x : Scope) : Scope.ofCode x.code = some x := by cases x <;> rfl
@[simp] theorem sgScope_code (x : SgScope) : SgScope.ofCode x.code = some x := by cases x <;> rfl
@[simp] theorem ctr_code (x : Ctr) : Ctr.ofCode x.code = some x := by cases x <;> rfl
@[simp] theorem wvSpace_code (x : WvSpace) : WvSpace.ofCode x.code = some x := by cases x <;> rfl
@[simp] theorem ccOp_code (x : CcOp) : CcOp.ofCode x.code = some x := by cases x <;> rfl
@[simp] theorem mCls_code (x : MCls) : MCls.ofCode x.code = some x := by cases x <;> rfl
@[simp] theorem gCntKind_code (x : GCntKind) : GCntKind.ofCode x.code = some x := by cases x <;> rfl
@[simp] theorem cpSpace_code (x : CpSpace) : CpSpace.ofCode x.code = some x := by cases x <;> rfl
@[simp] theorem cpConv_code (x : CpConv) : CpConv.ofCode x.code = some x := by cases x <;> rfl
@[simp] theorem collOp_code (x : CollOp) : CollOp.ofCode x.code = some x := by cases x <;> rfl
@[simp] theorem prSpace_code (x : PrSpace) : PrSpace.ofCode x.code = some x := by cases x <;> rfl
@[simp] theorem prKind_code (x : PrKind) : PrKind.ofCode x.code = some x := by cases x <;> rfl
@[simp] theorem rvBr_code (x : RvBr) : RvBr.ofCode x.code = some x := by cases x <;> rfl
@[simp] theorem rvLd_code (x : RvLd) : RvLd.ofCode x.code = some x := by cases x <;> rfl
@[simp] theorem rvSt_code (x : RvSt) : RvSt.ofCode x.code = some x := by cases x <;> rfl
@[simp] theorem clnAtom_code (x : ClnAtom) : ClnAtom.ofCode x.code = some x := by cases x <;> rfl
@[simp] theorem rvCsr_code (x : RvCsr) : RvCsr.ofCode x.code = some x := by cases x <;> rfl
@[simp] theorem fCond_code (x : FCond) : FCond.ofCode x.code = x := by cases x <;> rfl
@[simp] theorem brCond_code (x : BrCond) : BrCond.ofCode x.code = x := by cases x <;> rfl
@[simp] theorem voteOp_code (x : VoteOp) : VoteOp.ofCode x.code = x := by cases x <;> rfl
@[simp] theorem shflMode_code (x : ShflMode) : ShflMode.ofCode x.code = x := by cases x <;> rfl
@[simp] theorem collTy_code (x : CollTy) : CollTy.ofCode x.code = x := by cases x <;> rfl

/-! ### Form A (09 Table 9-5) -/

/-- Form A as arithmetic. -/
theorem formA_toNat (xf : BitVec 5) (sat : Bool) (rm : BitVec 3) (ty : BitVec 4) :
    (formA xf sat rm ty).toNat = ((xf.toNat * 2 + sat.toNat) * 8 + rm.toNat) * 16 + ty.toNat := by
  simp only [formA, toNat_cat, toNat_bit]
  rfl

@[simp] theorem formA_xf (xf : BitVec 5) (sat : Bool) (rm : BitVec 3) (ty : BitVec 4) :
    (formA xf sat rm ty).extractLsb' 8 5 = xf := by
  have := xf.isLt; have := sat.toNat_lt; have := rm.isLt; have := ty.isLt
  apply field_eq; rw [formA_toNat]; omega
@[simp] theorem formA_sat (xf : BitVec 5) (sat : Bool) (rm : BitVec 3) (ty : BitVec 4) :
    (formA xf sat rm ty).getLsbD 7 = sat := by
  have := xf.isLt; have := sat.toNat_lt; have := rm.isLt; have := ty.isLt
  apply bit_eq; rw [formA_toNat]; omega
@[simp] theorem formA_rm (xf : BitVec 5) (sat : Bool) (rm : BitVec 3) (ty : BitVec 4) :
    (formA xf sat rm ty).extractLsb' 4 3 = rm := by
  have := xf.isLt; have := sat.toNat_lt; have := rm.isLt; have := ty.isLt
  apply field_eq; rw [formA_toNat]; omega
@[simp] theorem formA_ty (xf : BitVec 5) (sat : Bool) (rm : BitVec 3) (ty : BitVec 4) :
    (formA xf sat rm ty).extractLsb' 0 4 = ty := by
  have := xf.isLt; have := sat.toNat_lt; have := rm.isLt; have := ty.isLt
  apply field_eq; rw [formA_toNat]; omega

@[simp] theorem formA_bit (xf : BitVec 5) (sat : Bool) (rm : BitVec 3) (ty : BitVec 4) : (formA xf sat rm ty)[7] = sat :=
  formA_sat xf sat rm ty

/-! ### Words of Kalgil instructions -/

/-- An assigned opcode's fields decide what its word decodes to. -/
theorem decode_fields (f : Fields) (i : Instr) (ha : opAssigned f.op.toNat = true) (h : decodeFields f = .ok i) :
    decodeCode (.kalgil f.pack) = some i := by
  simp only [decodeCode, decode, unpack_pack, ha, if_true, h]

end Sys2Proof.Laws
end

