-- ==== Sys2Proof/Tests/Slice0.lean ====
section
/-!
SUPPORT. Sys2Proof/Tests/Slice0.lean: decoding of words written out from the spec, ill-formed terms, and for each statement a
concrete state and operands that meet its hypotheses.
-/
namespace Sys2Proof.Tests

open Sys2Proof Sys2Proof.Machine Sys2Proof.Ob

set_option maxRecDepth 20000
set_option Elab.async false

/-! ### Small states -/

/-- No guard, no clause bits. -/
def k : Ctl := ⟨false, false, 7, false⟩
/-- The same for the instructions without a guard. -/
def k0 : Ctl0 := ⟨false, false⟩
/-- The wave of the small states. -/
def id0 : WaveId := ⟨0, 0, 0⟩

/-- A wave of 32 threads, one of them active, at the last word of its clause, function 0's page 0x10000 mapped to itself; a crew with 4 KiB of
scratchpad and a convoy with 4 KiB of convoy memory. -/
def base : State :=
  let s := State.reset.withKalgil 0
  let s := match s.wave? id0 with
    | some w => s.setWave id0 { w with active := 1 }
    | none => s
  let s := match s.crew? 0 with
    | some c => s.setCrew 0 { c with scratchBytes := 4096 }
    | none => s
  let s := match s.convoy? 0 with
    | some c => s.setConvoy 0 { c with cmemBytes := 4096 }
    | none => s
  { s with agenda := [], focus := .wave id0 }

/-- The state with its wave changed. -/
def wv (f : Wave → Wave) (s : State := base) : State :=
  match s.wave? id0 with
  | some w => s.setWave id0 (f w)
  | none => s
/-- The state with its crew changed. -/
def crw (f : Crew → Crew) (s : State := base) : State :=
  match s.crew? 0 with
  | some c => s.setCrew 0 (f c)
  | none => s
/-- The state with its convoy changed. -/
def cnv (f : Convoy → Convoy) (s : State := base) : State :=
  match s.convoy? 0 with
  | some c => s.setConvoy 0 (f c)
  | none => s
/-- The state with k registers set. -/
def kr (l : List (Nat × DWord)) (s : State := base) : State := wv (fun w => l.foldl (fun w p => w.setK p.1 p.2) w) s
/-- The state with the first engine of its cluster changed. -/
def eng (f : Engine → Engine) (s : State := base) : State := s.setEngine 0 0 (f (s.engine 0 0))
/-- The state with its Gravel engine changed. -/
def grv (f : Gravel → Gravel) (s : State := base) : State := s.setGravel 0 (f (s.cluster 0).gravel)
/-- The wave is in its handler. -/
def inHandler (s : State := base) : State := wv (fun w => { w with level := .handler }) s
/-- The engine is held by the convoy, with a ring of two entries and a window it owns. -/
def held : State := eng fun e =>
  { e with holder := some 0, ring := some (emptyRing 0 0 0 2 256), pageSt := [(0, .data)], owner := [] }

/-- A Bool about the setting of the wave. -/
def on (s : State) (f : Ctx → Bool) : Bool := (Ctx.of s).any f

/-- A Kalgil word in the two halves that the spec's tables give. -/
def good {ε α : Type} (x : Except ε α) : Bool := x.toOption.isSome

theorem test_base_has_its_wave : (Ctx.of base).isSome = true := by decide +kernel
theorem witness_UniformArithmetic :
    on base (fun c => (uOp (.kadd k (.k 1) (.k 2) (.desc (.k 3)) .s64 false)).any fun o => c.runs o.m) = true := by decide +kernel
theorem witness_VectorInteger :
    on base (fun c => (vOp (.vadd k (.v 1) (.v 2) (.desc (.v 3)) .s32 false)).any fun o => c.runs o.m) = true := by decide +kernel
theorem witness_VectorFloat :
    on base (fun c => (fOp (.fma k (.v 1) (.v 2) (.v 3) (.v 4) .f .rn false)).any fun o => c.runs o.m) = true := by decide +kernel
theorem witness_RegisterFrame :
    on base (fun c => (regOp (.vadd k (.v 1) (.v 2) (.desc (.v 3)) .s32 false)).any fun o => c.runs o.1) = true := by decide +kernel

/-! ### Control and vector forms -/

theorem witness_ControlTransfers :
    on (kr [(1, 0x10040)]) (fun c => [Instr.nop k0, .bra k (.desc (.k 1)), .brc k .z (.k 2) (.desc (.k 1)), .brd k (.desc (.k 1)),
      .call k (.k 3) (.desc (.k 1)), .ret k (.k 1), .loop k (.k 4) (.desc (.k 1))].all fun i =>
        (cOp (c.during false) i).any fun o => c.runs o.m && goodTarget o.dest) = true := by decide +kernel
theorem witness_JoinReconverges :
    on (wv fun w => { w with stack := [{ jpc := 0x10040, outer := 3, pend := 1 }] })
      (fun c => c.runs (pathMeta (ctlOf k0) (.lit 0) false) && c.w.stack != []) &&
    on (kr [(1, 0x10040)] (wv fun w => { w with stack := [{ jpc := 0x10040, outer := 3, pend := 0 }] })) (fun c =>
      c.runs (pathMeta (ctlOf k0) (.desc (.k 1)) false) &&
        goodTarget (some ((c.during false).target (c.acting { ctlOf k0 with onc := true }) (.desc (.k 1))))) = true := by decide +kernel
theorem witness_ControlFaults :
    (on (wv fun w => { w with stack := List.replicate 32 { jpc := 0, outer := 0, pend := 0 } })
      (fun c => c.runs (pathMeta k (.lit 0) true) && decide (32 ≤ c.w.stack.length)) &&
    on base (fun c => c.runs (pathMeta (ctlOf k0) (.lit 0) false) && c.w.stack == []) &&
    on (kr [(1, 0x10044)]) (fun c => (cOp (c.during false) (.bra k (.desc (.k 1)))).any fun o =>
      c.runs o.m && o.dest.isSome && !goodTarget o.dest)) = true := by decide +kernel
theorem witness_TailEndsWave :
    on base (fun c => c.runs { Meta.uni (ctlOf k0) [] with last := true, always := true }) = true := by decide +kernel
theorem witness_VotesAndLanes :
    on (kr [(1, 5)]) (fun c => c.runs { Meta.uni k [dst (.k 2) 2] with noHnd := true } &&
      c.runs (.uni k (dst (.k 2) (spanOf false) :: { src (.v 3) (spanOf false) with free := true } :: srcB (.desc (.k 1)) 2)) &&
      c.runs (.uni k ({ dst (.v 3) (spanOf false) with free := true } :: src (.k 2) (spanOf false) :: srcB (.desc (.k 1)) 2)) &&
      decide (((c.during false).readB64 (leader (c.acting { k with onc := true })) (.desc (.k 1))).toNat < c.w.threads)) = true := by
  decide +kernel
/-- At the boundary: a + b is V, and V + 1. -/
theorem witness_SetIndexWindow :
    (on (kr [(1, 30), (2, 2), (3, 3)]) (fun c =>
      let act := c.acting { k with onc := true }
      let x := ((c.during false).read64 (leader act) (.k 1) false).toNat
      let y (n : BitVec 6) := ((c.during false).readB64 (leader act) (.desc (.k n))).toNat
      c.runs (.uni k (src (.k 1) 2 :: srcB (.desc (.k 2)) 2)) && c.runs (.uni k (src (.k 1) 2 :: srcB (.desc (.k 3)) 2)) &&
        x + y 2 == c.w.vregs && x + y 3 == c.w.vregs + 1)) = true := by decide +kernel
theorem witness_VectorForms :
    on base (fun c => c.runs { Meta.plain k [src (.v 1) (spanOf (ITy.wide .s32))] with noHnd := true } &&
      c.runs { Meta.plain k (src (.v 1) (spanOf (ITy.wide .s32)) :: srcB (.desc (.v 2)) (spanOf (ITy.wide .s32))) with
        noHnd := true } &&
      c.runs { Meta.plain k (src (.v 1) (spanF .f) :: srcB (.desc (.v 2)) (spanF .f)) with noHnd := true } &&
      c.runs (.plain k (dst (.v 2) 2 :: src (.k 1) 2 :: srcB (.desc (.v 4)))) &&
      c.runs { Meta.plain k [dst (.v 2), src (.v 1) (spanOf (ITy.wide .s32))] with xlane := true }) = true := by decide +kernel
theorem witness_FloatForms :
    on (wv fun w => w.setV 0 2 0x01000000) (fun c => c.runs (.plain k [dst (.v 2) (spanOf (ITy.wide .s32)), src (.v 1) (spanF .f)]) &&
      c.runs { Meta.plain k [dst (.v 2) (spanF .f), src (.v 1) (spanF .f)] with xlane := true } &&
      c.runs (.plain { k with onc := true } [dst (.v 4) 2, src (.v 2), src (.v 3) (spanF .f)])
        (fun t => (dqblkFault c.w (.v 4) ((c.during false).read32 t (.v 2)).toNat).map fun x => (x, 0))) = true := by decide +kernel
theorem witness_QuantiseBlock :
    on base (fun c => (c.runs { Meta.plain k ([dst (.v 4), src (.v 2) 2, src (.v 6) 2] ++ [src (.v 8)]) with xlane := true } &&
      isV (.v 2)) && c.runs { Meta.plain k ([dst (.v 4), src (.v 2) 1, src (.v 6) 1] ++ []) with xlane := true }) = true := by decide +kernel
theorem witness_StochasticRounding :
    on (kr [(1, 63)] (grv fun g => { g with holder := some 0 })) (fun c =>
      c.runs { Meta.plain k [dst (.v 4), src (.v 2) (spanF .f), src (.k 1)] with last := true, closer := true } &&
        c.gravel.holder == some c.id.conv && c.gravel.ops.isEmpty &&
        decide (((c.during true).read32 (leader (c.acting k)) (.k 1)).toNat ≤ 63)) = true := by decide +kernel

/-! ### Memory -/

/-- A page's address in k1, an address in scratchpad in k2. -/
def addressed : State := kr [(1, 0x10100), (2, 0x40)]
/-- The modifiers of a plain 32-bit load, store, and addition. -/
def ld32 : LdMods := { ty := .s32, ch := 0, tag := false, part := false }
def st32 : StMods := { ty := .s32, ch := 0, tag := false }
def add32 : AmMods := { op := .add, ty := 0, ch := 0, pkg := false }

/-- A stash answer that asks for nothing. -/
def noFill (r : FillRes) : Bool :=
  match r with
  | .none => true
  | _ => false
/-- The hypotheses of `NearLoads` for one load. -/
def nearLoad (s : State) (sp : Space) (base : Desc) (m : LdMods) : Bool :=
  on s fun c =>
    let c' := c.during false
    let adr (t : Nat) : Int := c'.memAddr sp t base (some (.lit 0))
    let place (_ : Nat) (x : Int) : Except (BitVec 10) Place := c'.loadPlace sp m x
    let accs := accsOf (ldAct c k m) adr place
    let s1 := c'.mainRequests m.tag s (placesOf accs)
    c.runs (ldMeta sp k (.v 4) base (.lit 0) m) (if m.part then fun _ => none else eachOf adr place) &&
      (c'.loadOwn sp (.v 4) base (.lit 0) m).isNone && accs.length == (lanesOf (ldAct c k m)).length && !accs.isEmpty &&
      (accs.all fun a => !(if m.tag then c.w.queuedDisc a.2.2 else c.w.mustDrain a.2.2 (ldBytes m)) && c'.readable a.2.2) &&
      noFill (c'.stashFill (accs.map fun a => a.2.2)) && c'.touchables (placesOf accs) false && s1.2.isNone &&
      (c'.assayRead s1.1 (placesOf accs)).2 && c'.watchHits sp true false (ldBytes m) (seenBy accs) == []
theorem witness_NearLoads : (nearLoad addressed .device (.k 1) ld32 && nearLoad addressed .scratch (.k 2) ld32 &&
    nearLoad addressed .convoy (.k 2) ld32 && nearLoad (addressed.setGrid 0 { (addressed.grid? 0).getD Grid.lone with partcap := true }) .device (.k 1) { ld32 with part := true }) = true := by decide +kernel

/-- A page of peer memory and one of host memory, read and write, at 0x11000 and 0x12000; device 0 is bound. -/
def farPages (s : State) : State :=
  let s := s.setFn 0 { s.fn 0 with bind := [(0, 0)] }
  (s.poke 0x5088 (leBytes 8 (0x007F + 0x1000 + 2 ^ 54))).poke 0x5090 (leBytes 8 (0x007F + 0x2000 + 2 ^ 55))
/-- The hypotheses that the statements about far loads share, and what the wave's request is to be. -/
def farLoad (s : State) (sp : Space) (m : LdMods) (f : Ctx → List (Nat × Int × Place) → Bool) : Bool :=
  on s fun c =>
    let c' := c.during false
    let adr (t : Nat) : Int := c'.memAddr sp t (.k 1) (some (.lit 0))
    let place (_ : Nat) (x : Int) : Except (BitVec 10) Place := c'.loadPlace sp m x
    let accs := accsOf (ldAct c k m) adr place
    c.runs (ldMeta sp k (.v 4) (.k 1) (.lit 0) m) (eachOf adr place) && (c'.loadOwn sp (.v 4) (.k 1) (.lit 0) m).isNone &&
      accs.length == (lanesOf (ldAct c k m)).length && !accs.isEmpty && (accs.all fun a => !c.w.farBlocked a.2.2) &&
      c'.touchables (placesOf accs) false && c'.watchHits sp true false (ldBytes m) (seenBy accs) == [] && f c accs
/-- The wave has asked for a line; what it waits for and the answer, if any. -/
def asked (sp : Space) (atomic : Bool) (lines : List (Nat × Nat)) (got : List FarAnswer) (s : State) : State :=
  wv (fun w => { w with far := some { space := sp, atomic := atomic, lines := lines, got := got, behind := 0 } }) s
/-- The answer for the line at 0x1040 of peer memory, and for that at 0x2040 of host memory. -/
def answer (line : Nat) (st : FarStatus) : FarAnswer := { line := line, status := st, bytes := List.replicate 64 7, tag := 0 }
/-- Every line is answered, and whether an answer tells of a failure. -/
def answered (good : Bool) (c : Ctx) (accs : List (Nat × Int × Place)) : Bool :=
  c.w.far.any fun f => f.lines == [] && (accs.all fun a => ((c.during false).farFault f a.2.2).isNone) == good &&
    accs.all fun a => match a.2.2 with
      | .far x _ => (f.answerAt x).isSome
      | _ => false
theorem witness_FarLoads :
    (farLoad (asked .peer false [] [answer 0x1040 .ok] (farPages (kr [(1, 0x11040)]))) .peer ld32 (answered true) &&
     farLoad (asked .host false [] [answer 0x2040 .ok] (farPages (kr [(1, 0x12040)]))) .host ld32 (answered true)) = true := by
  decide +kernel
theorem witness_FarLoadsAsk :
    (farLoad (farPages (kr [(1, 0x11040)])) .peer ld32 (fun c accs => c.w.far.isNone && !accs.all fun a => match a.2.2 with
      | .far x xl => ((farPages (kr [(1, 0x11040)])).farCopy c.die c.vf xl (lineOf x)).isSome
      | _ => true) &&
     farLoad (asked .peer false [(0x1040, 2)] [] (farPages (kr [(1, 0x11040)]))) .peer ld32
       (fun c _ => c.w.far.any fun f => f.lines != []) &&
     farLoad (asked .peer false [] [answer 0x1040 .poisoned] (farPages (kr [(1, 0x11040)]))) .peer ld32 (answered false) &&
     farLoad (farPages (kr [(1, 0x12040)])) .host { ld32 with ty := .n32, tag := true } (fun _ _ => true)) = true := by decide +kernel

/-- The hypotheses of `Stores` for one store. -/
def store (s : State) (sp : Space) (base : Desc) (m : StMods) : Bool :=
  on s fun c =>
    let c' := c.during false
    let adr (t : Nat) : Int := c'.memAddr sp t base (some (.lit 0))
    let place (t : Nat) (x : Int) : Except (BitVec 10) Place := c'.storePlace sp m t (.v 0) x
    let accs := accsOf (c.acting k) adr place
    c.runs (stMeta sp k base (.v 4) (.lit 0) (.v 0) m) (eachOf adr place) && decide (c.w.cDom ≠ 63) &&
      c'.touchables (placesOf accs) true && c'.watchHits sp false true (bytesOf m.ty) (seenBy accs) == []
theorem witness_StoresJoinTheQueue : (store addressed .device (.k 1) st32 && store addressed .scratch (.k 2) st32 &&
    store addressed .convoy (.k 2) st32 && store (farPages (kr [(1, 0x11040)])) .peer (.k 1) st32 &&
    store (farPages (kr [(1, 0x12040)])) .host (.k 1) st32) = true := by decide +kernel
theorem witness_PushEntries :
    on held (fun c => c.runs (.plain k (src (.v 4) :: []))
      (fun t => if false && tagBad ((c.during false).tagOf t (.v 0)) then some (cOperand 7, 0) else none) &&
      (c.engine 0).holder == some c.id.conv && (c.ownRing 0).any fun r => decide (c.w.depth ≤ r.free)) = true := by decide +kernel

/-- A misaligned address and one that nothing maps. -/
def badAddr : State := kr [(1, 0x10101), (2, 0x20000)]
theorem witness_AccessChecks :
    on badAddr (fun c =>
      ([1, 2] : List (BitVec 6)).all fun n =>
        ((ldMeta .device k (.v 4) (.k n) (.lit 0) ld32).check c).isNone &&
        ((c.during false).loadOwn .device (.v 4) (.k n) (.lit 0) ld32).isNone &&
        (threadFault c.w (ldMeta .device k (.v 4) (.k n) (.lit 0) ld32).fields (c.acting k)
          (eachOf (fun t => (c.during false).memAddr .device t (.k n) (some (.lit 0))) fun _ x =>
            (c.during false).loadPlace .device ld32 x)).isSome &&
        ((stMeta .device k (.k n) (.v 4) (.lit 0) (.v 0) st32).check c).isNone &&
        (threadFault c.w (stMeta .device k (.k n) (.v 4) (.lit 0) (.v 0) st32).fields (c.acting k)
          (eachOf (fun t => (c.during false).memAddr .device t (.k n) (some (.lit 0))) fun t x =>
            (c.during false).storePlace .device st32 t (.v 0) x)).isSome &&
        ((amMeta .device k (.v 4) (.k n) (.desc (.v 5)) (.v 0) add32).check c).isNone &&
        (threadFault c.w (amMeta .device k (.v 4) (.k n) (.desc (.v 5)) (.v 0) add32).fields (c.acting k)
          (eachOf (fun t => (c.during true).memAddr .device t (.k n) none) fun _ x =>
            (c.during true).atomPlace .device 4 x)).isSome) = true := by decide +kernel
/-- The last aligned place of a line, and the first misaligned one. -/
theorem witness_NaturalAlignment : (60 : Int) % (4 : Nat) = 0 ∧ (61 : Int) % (4 : Nat) ≠ 0 := by decide +kernel

/-- The hypotheses of `Atomics` for one atomic. -/
def atomic (s : State) (sp : Space) (base : Desc) : Bool :=
  on s fun c =>
    let c' := c.during true
    let adr (t : Nat) : Int := c'.memAddr sp t base none
    let place (_ : Nat) (x : Int) : Except (BitVec 10) Place := c'.atomPlace sp 4 x
    let accs := accsOf (c.acting k) adr place
    c.runs (amMeta sp k (.v 4) base (.desc (.v 5)) (.v 0) add32) (eachOf adr place) && c.w.sq.isEmpty &&
      c'.touchables (placesOf accs) true && (accs.all fun a => !s.untouched' a.2.2) && noFill (c'.stashFill (accs.map fun a => a.2.2)) &&
      ((devLines accs).all fun l => (s.lineDir l).owner.isNone && s.atomReady c.die l false) &&
      (!isFar sp || decide (c.w.cDom ≠ 63) && (c.w.far.any fun f => f.lines == [] &&
        accs.all fun a => (c'.farFault f a.2.2).isNone)) && c'.watchHits sp true true 4 (seenBy accs) == []
theorem witness_AtomicOps : (atomic addressed .device (.k 1) && atomic addressed .scratch (.k 2) &&
    atomic (asked .peer true [] [answer 0x1040 .ok] (farPages (kr [(1, 0x11040)]))) .peer (.k 1)) = true := by decide +kernel
theorem witness_HostAtomicOps :
    on base (fun c => ((amMeta .host k (.v 4) (.k 1) (.desc (.v 5)) (.v 0) { add32 with op := .and }).check c).isNone) = true := by
  decide +kernel

/-! ### Ordering and caches -/

/-- A store entry of no bytes. -/
def entry0 : SqEntry := { kind := .store, space := .scratch, lines := [], info := [], fn := 0, mmio := false, hnd := false }
theorem witness_FencesAndCounters :
    (on base (fun c => c.runs (.uni k []) && c.fenceReady .crew && decide (c.w.ctr .cpy ≤ 0)) &&
     on (wv fun w => { w with cCpy := 1, sq := [entry0] }) (fun c => c.runs (.uni k []) && !c.fenceReady .crew && decide (0 < c.w.ctr .cpy))) = true := by
  decide +kernel
theorem witness_Barriers :
    let met (s : State) (f : Ctx → Bar → State → Bool) : Bool := on s fun c =>
      let b := s.bar 0 (some 0) 3
      c.runs { Meta.uni (ctlOf k0) [] with last := true, closer := true, always := true } &&
        f c b ((s.setBar 0 (some 0) 3 { b with arrived := b.arrived ++ [0] }).barCheck 0 (some 0) 3)
    (met base (fun c b s' => c.w.wait == none && c.w.sq.isEmpty && (s'.bar 0 (some 0) 3).gen != b.gen) &&
     met ({ base with waves := ins base.waves 1 ((base.wave? id0).getD (Wave.start 0 0 0 1 32 16 [] 1 [] [])) })
       (fun c b s' => c.w.wait == none && c.w.sq.isEmpty && (s'.bar 0 (some 0) 3).gen == b.gen) &&
     met (wv fun w => { w with wait := some (.bar false 3 true) }) (fun c b _ => c.w.wait == some (.bar false 3 true) && b.gen != true)) =
      true := by decide +kernel
theorem witness_WaitOnValue :
    on addressed (fun c =>
      let c' := c.during false
      let m : LdMods := { ty := .n32, ch := 0, tag := false, part := false }
      let t := leader (c.acting { k with onc := true })
      let x := c'.memAddr .device t (.k 1) none
      c.runs (.uni k (dst (.k 3) 1 :: src (.k 1) (spanBase .device) :: srcB (.desc (.k 4)) 1))
        (eachOf (fun t => c'.memAddr .device t (.k 1) none) fun _ x => c'.loadPlace .device m x) &&
      ((c'.loadPlace .device m x).toOption.any fun p => !c.w.mustDrain p (ldBytes m) && noFill (c'.stashFill [p]) &&
        c'.readable p && c'.touchables [(x.toNat, p)] false && (c'.mainRequests false addressed [(x.toNat, p)]).2.isNone &&
        (c'.assayRead (c'.mainRequests false addressed [(x.toNat, p)]).1 [(x.toNat, p)]).2 && c'.watchHits .device true false (ldBytes m) [(t, x.toNat)] == [] &&
        Cond.eq.holds ((waitTy false false).val (BitVec.ofNat 64 (c'.loadVal addressed m p)))
          ((waitTy false false).val (c'.readB t (.desc (.k 4)) (waitTy false false))) &&
        !Cond.ne.holds ((waitTy false false).val (BitVec.ofNat 64 (c'.loadVal addressed m p)))
          ((waitTy false false).val (c'.readB t (.desc (.k 4)) (waitTy false false))))) = true := by decide +kernel
theorem witness_CacheInstructions :
    on (kr [(1, 0x10100), (3, 128)]) (fun c =>
      let c' := c.during false
      let t := leader (c.acting { k with onc := true })
      let place (_ : Nat) (x : Int) : Except (BitVec 10) Place := c'.locate .device .store 1 x
      let accs := accsOf (c.acting k) (fun t => c'.memAddr .device t (.k 1) (some (.lit 0))) place
      let x := (c'.read64 t (.k 1) false).toNat
      let y := (c'.readB32 t (.desc (.k 3))).toNat
      let pages := (pagesOf x y).filterMap fun p => (c'.locate .device .both 1 ((max x (4096 * p) : Nat) : Int)).toOption.map
        fun q => (max x (4096 * p), q)
      c.runs (.plain k (src (.k 1) 2 :: srcB (.lit 0))) (eachOf (fun t => c'.memAddr .device t (.k 1) (some (.lit 0))) place) &&
      c'.touchables (placesOf accs) true && c'.watchHits .device false true 1 (seenBy accs) == [] &&
      c.runs (.uni k (src (.k 1) 2 :: srcB (.desc (.k 3)))) && x % 64 == 0 && y % 64 == 0 && decide (y ≤ 2 ^ 20) &&
      c'.touchables pages false && !pages.isEmpty) = true := by decide +kernel
/-- A binding whose lines are all absent. -/
def bind0 : Bind := { g := 0x10000, s := 0, n := 128, present := [], dirty := [], filling := [], pages := [(16, 0x10000)] }
theorem witness_StashBindings :
    (on (kr [(1, 0x10100), (2, 0x40), (3, 128)]) (fun c =>
      let c' := c.during false
      let t := leader (c.acting { k with onc := true })
      c.runs (.uni k [src (.k 1) 2, src (.k 2), src (.k 3)]) &&
        (c'.smapFault 1 (c'.read64 t (.k 1) false).toNat (c'.read32 t (.k 2)).toNat (c'.read32 t (.k 3)).toNat).isNone &&
        c.runs (.uni k []) && (look c.cw.binds 1).isNone) &&
     (let s := crw fun c => { c with binds := [(1, bind0)] }
      on s fun c => c.runs (.uni k []) && look c.cw.binds 1 == some bind0 && !s.stashQueued c.crewKey bind0 &&
        !s.awayFromHome ((List.range (bind0.n / 64)).map fun i => bind0.line (64 * i)))) = true := by decide +kernel
/-- An event ring of 4 records at 0x10200, its header at 0x10180 with one record in it. -/
def ringed (s : State) : State :=
  s.poke 0x10180 (leBytes 8 0 ++ leBytes 8 1 ++ leBytes 8 0x10200 ++ leBytes 4 4 ++ List.replicate 36 0)
theorem witness_EventPop :
    (on (crw fun c => { c with evq := [List.replicate 32 7] }) (fun c =>
      c.runs { Meta.uni k [dst (.k 4)] with last := true, closer := true } && !c.cw.evq.isEmpty && decide (7 < c.w.kregs)) &&
     on base (fun c => c.runs { Meta.uni k [dst (.k 4)] with last := true, closer := true } && c.cw.evq.isEmpty) &&
     (let s := ringed (kr [(1, 0x10180)])
      on s fun c =>
        let s1 := c.put c.w.noSpin
        let c' : Ctx := { c.during true with s := s1, w := c.w.noSpin }
        let a := (c'.read64 (leader (c.acting { k with onc := true })) (.k 1) false).toNat
        c.runs { Meta.uni k [dst (.k 4), src (.k 1) 2] with last := true, closer := true } && c.w.sq.isEmpty &&
        ((c'.locate .device .atomic 64 a).toOption.any fun p => c'.touchables [(a, p)] true && !s1.untouched' p &&
          (s1.lineDir (lineOf p.adr)).owner.isNone && s1.atomReady c.die (lineOf p.adr) false && (c'.badAt p 64).isNone &&
          c'.watchHits .device true false 64 [(leader (c.acting { k with onc := true }), a)] == [] &&
          (s1.ringHdr (homeDie p.adr) p.adr).any fun h => h.count != 0 &&
            let va : Nat := h.base + 32 * (h.head % h.size)
            (c'.locate .device .atomic 32 va).toOption.any fun q =>
              c'.touchables [(va, q)] false && s1.canRead (homeDie p.adr) q.adr && !(q.xlat.elim false fun x => s1.untouched x false) &&
                (c'.badAt q 32).isNone &&
                c'.watchHits .device true false 32 [(leader (c.acting { k with onc := true }), va)] == []))) = true := by decide +kernel

/-! ### Engines -/

theorem witness_ReserveEngine :
    on base (fun c => c.runs { predMeta (.wide k [dst (.k 2)]) 1 with last := true, closer := true } &&
      c.runs { Meta.wide k [] with last := true, closer := true } && (c.engine 0).holder.isNone && (c.engine 0).slateOf.isNone) &&
    on held (fun c => (c.engine 0).holder == some c.id.conv && (c.engine 0).opsOf c.id.conv == []) &&
    on (eng fun e => { e with holder := some 5 }) (fun c => (c.engine 0).holder.isSome && (c.engine 0).holder != some c.id.conv) &&
    on (eng fun e => { e with holder := some 0, ops := [{ wave := 0, batch := 0, op := .mring, hnd := false }] })
      (fun c => (c.engine 0).holder == some c.id.conv && (c.engine 0).opsOf c.id.conv != []) = true := by decide +kernel
theorem witness_WindowOwners :
    on (inHandler held) (fun c => c.runs (.wide k [dst (.k 2)]) && c.runs (.wide k [src (.k 1)]) && c.hnd &&
      (c.engine 0).holder == some c.id.conv) &&
    on base (fun c => ((Meta.wide k [dst (.k 2)]).check c).isNone && ((Meta.wide k [src (.k 1)]).check c).isNone && !c.hnd) = true := by
  decide +kernel
theorem witness_NotReserved :
    on base (fun c => [Instr.mrel k 0, .mcmt k 0 1 (.k 2), .mrelGrv k, .gand k 1 2 3 false].all fun i =>
      (needs i).any fun p => (p.2.check c).isNone && (c.engine 0).holder != some c.id.conv && c.gravel.holder != some c.id.conv) &&
    on (inHandler base) (fun c => c.hnd && ((Meta.wide k [dst (.k 2)]).check c).isNone && ((Meta.wide k [src (.k 1)]).check c).isNone &&
      (c.engine 0).holder != some c.id.conv) = true := by decide +kernel
theorem witness_ReserveGravel :
    on base (fun c => c.runs { predMeta (.wide k []) 1 with last := true, closer := true } && c.gravel.holder.isNone) &&
    on (grv fun g => { g with holder := some 0 }) (fun c => c.runs { Meta.wide k [] with last := true, closer := true } &&
      c.gravel.holder == some c.id.conv && c.gravel.ops.isEmpty) &&
    on (grv fun g => { g with holder := some 5 }) (fun c => c.gravel.holder.any fun o => o != c.id.conv) &&
    on (grv fun g => { g with holder := some 0, ops := [{ wave := 0, op := .seed 0 1, hnd := false }] })
      (fun c => c.gravel.holder == some c.id.conv && !c.gravel.ops.isEmpty) = true := by decide +kernel
/-- An engine held without a ring, scratchpad of 16 KiB, an address in k1, a ring's base, size and scale base in k2 to k4. -/
def issuing : State :=
  kr [(1, 0x10100), (2, 0), (3, 16), (4, 2048)] (crw (fun c => { c with scratchBytes := 16384 }) (eng fun e => { e with holder := some 0 }))
/-- A mapping of one 1 GiB page at 0 in place of the page tables' lower levels. -/
def onePage (s : State) : State :=
  { s with hbm := ((Img.empty.setBytes 0x1000 (leBytes 8 0x2001)).setBytes 0x2000 (leBytes 8 0x3001)).setBytes 0x3000 (leBytes 8 0x7F) }
/-- The lines of a list that pass their checks for an access of one kind. -/
def allGood (s : State) (a : Access) (vas : List Nat) : Bool :=
  on s fun c => let l := goodLines (c.during false) a vas
    l.length == vas.length && (c.during false).touchables l (a == .store)
theorem allGood_append {s : State} {a : Access} {l m : List Nat} (hl : allGood s a l = true) (hm : allGood s a m = true) :
    allGood s a (l ++ m) = true := by
  unfold allGood on at *
  cases h : Ctx.of s with
  | none => simp [h] at hl
  | some c =>
    simp only [h, Option.any_some, Bool.and_eq_true, beq_iff_eq, goodLines, List.filterMap_append, List.length_append,
      Ctx.touchables, List.all_append] at *
    exact ⟨by omega, hl.2, hm.2⟩
theorem slateLines_0 : allGood (onePage issuing) .load (lineVas 0x10100 128) = true := by decide +kernel
theorem slateLines_1 : allGood (onePage issuing) .load (lineVas 0x12100 128) = true := by decide +kernel
theorem slateLines_2 : allGood (onePage issuing) .load (lineVas 0x14100 128) = true := by decide +kernel
theorem slateLines_3 : allGood (onePage issuing) .load (lineVas 0x16100 128) = true := by decide +kernel
theorem witness_SlateAndRing :
    (on issuing (fun c =>
      let c' := c.during false
      let act := c.acting { k with onc := true }
      c.runs (.wide k (src (.k 1) 2 :: [])) && mtxRoom c 0 && c.w.sq.isEmpty && (c'.addr act (.k 1)).toNat == 0x10100 &&
        c.runs (.wide k [src (.k 2), src (.k 3), src (.k 4)]) &&
        (c'.ringFault (c'.read32 (leader act) (.k 2)).toNat (c'.read32 (leader act) (.k 3)).toNat
          (c'.read32 (leader act) (.k 4)).toNat).isNone && (c.engine 0).ring.isNone && (c.engine 0).ops == [] &&
        !(issuing.waves.any fun p => p.1 / 16 == c.crewKey && !p.2.sq.isEmpty) && c.runs (.wide k [src (.k 5) 2])) &&
     allGood (onePage issuing) .load (lineVas 0x10100 512)) = true := by
  have h : lineVas 0x10100 512 = lineVas 0x10100 128 ++ (lineVas 0x12100 128 ++ (lineVas 0x14100 128 ++ lineVas 0x16100 128)) := by
    decide +kernel
  rw [h, allGood_append slateLines_0 (allGood_append slateLines_1 (allGood_append slateLines_2 slateLines_3)), Bool.and_true]
  decide +kernel
/-- The window that an MMA of one row covers is the context's. -/
def owning (s : State) : State :=
  eng (fun e => { e with
    holder := some 0, ring := some (emptyRing 0 0 0 16 2048), pageSt := [(0, .data)],
    owner := (List.range 32).map fun w => (w, ((Ctx.of s).map Ctx.ctxid).getD 0) }) s
theorem witness_MatrixMultiply :
    on (owning (kr [(1, 1)] issuing)) (fun c =>
      let c' := c.during false
      let act := c.acting { k with onc := true }
      let x := c.engine 0
      let n := (c'.read32 (leader act) (.k 1)).toNat
      c.runs (.wide k (src (.k 1) :: [])) && mtxRoom c 0 && x.ring.isSome && x.page 0 == .data && n == 1 &&
        ((coveredWins .n8 0 n).all fun w => decide (w ≤ 511) && x.ownerOf w == c.ctxid && x.mode64.getLsbD w == false &&
          !x.shadowed w (some 1)) && decide (x.shadows.length + (x.newShadows 1 (coveredWins .n8 0 n)).length ≤ 32)) = true := by
  decide +kernel
theorem witness_WindowMoves :
    (on (owning (kr [(1, 0x10100), (2, 1), (3, 128)] issuing)) (fun c =>
      let c' := c.during false
      let act := c.acting { k with onc := true }
      let st := (c'.read32 (leader act) (.k 3)).toNat
      c.runs { Meta.wide k (srcB (.lit 1)) with always := true } && mtxRoom c 0 && act != 0 &&
        (c'.readB32 (leader act) (.lit 1)).toNat == 1 && (c'.winCheck 0 0 1).isNone &&
        c.runs (.wide k [src (.k 1) 2, src (.k 2), src (.k 3)]) && (c'.read32 (leader act) (.k 2)).toNat == 1 && st == 128) &&
     allGood (onePage issuing) .store (windowVas 0x10100 1 128) && allGood (onePage issuing) .load (windowVas 0x10100 1 128)) =
      true := by decide +kernel
theorem witness_Batches :
    (on base (fun c => c.runs (.wide k [dst (.k 1)]) && decide ((c.during false).pendingBatches.length < 64) &&
      c.runs { Meta.wide k (srcB (.lit 0)) with always := true } && c.acting { k with onc := true } != 0) &&
     on (wv fun w => { w with batchClosed := 0, batchOpen := 1 }) (fun c =>
      let n (l : Word) : BitVec 16 := ((c.during false).readB32 (leader (c.acting { k with onc := true })) (.lit l)).extractLsb' 0 16
      n 0 == c.w.batchClosed && (base.matrixOps c.clusterNo c.key).isEmpty && n 1 != c.w.batchClosed &&
        decide ((n 1 - c.w.batchClosed).toNat < 2 ^ 15))) = true := by decide +kernel
/-- A tile task's record at 0x10100: one row, one page. -/
def taskRecord (s : State) : State :=
  s.poke 0x10100 (List.replicate 12 0 ++ leBytes 2 1 ++ leBytes 2 1 ++ List.replicate 48 0)
theorem witness_TileTasks :
    (on (taskRecord (kr [(1, 0x10100)])) (fun c =>
      let c' := c.during true
      let act := c.acting { k with onc := true }
      c.runs { Meta.wide k [src (.k 1) 2] with last := true, closer := true } &&
        match (c'.loadChunks [leader act] [((c'.addr act (.k 1)).toNat, 64)]).toOption with
        | some (_, [bytes], []) => (tileRecord c.ctxid c.cv.grid c.cv.index bytes).any fun t =>
            let b := lookD c.cl.boards c.ctxid.toNat Board.fresh
            decide (t.x < b.w) && decide (t.y < b.h) && !b.posted.contains (t.x, t.y) && decide (c.cl.queued.length < 256) &&
              decide ((c.cl.queued.filter fun q => vfOf q.ctx == c.vf).length < 128)
        | _ => false) &&
     on (kr [(1, 1), (2, 1024), (3, 0)]) (fun c =>
      let m := (c.during false).read32 (leader (c.acting { k with onc := true })) (.k 3)
      c.runs (.wide k [src (.k 1), src (.k 2), src (.k 3)]) && stencilGood (m.extractLsb' 0 24) &&
        !((c.cl.queued ++ c.cl.engines.filterMap Engine.tile).any fun q => q.ctx == c.ctxid))) = true := by decide +kernel
/-- The Gravel engine held, registers 1 and 2 set, 2 unrelated to 1 and 3 equal to it. -/
def streams : State := grv fun g => { g with
  holder := some 0
  g := [(1, { bits := [], m := 1, s := 0, x := false }), (2, { bits := [], m := 2, s := 0, x := false }), (3, { bits := [], m := 1, s := 0, x := false })] }
theorem witness_GravelOperations :
    (on streams (fun c => ((gOp (c.during false) (.gand k 4 1 2 false)).any fun o =>
        !o.m.closer && c.runs o.m && o.good && grvRoom c o.reads o.gd && uncorrelated c o.pairs) &&
      ((gOp (c.during false) (.gand k 4 1 3 false)).any fun o =>
        c.runs o.m && o.good && grvRoom c o.reads o.gd && !uncorrelated c o.pairs) &&
      ((gOp (c.during false) (.gand k 4 1 7 false)).any fun o => o.reads.contains 7 && (o.m.check c).isNone) &&
      (look c.gravel.g 7).isNone && !c.gravel.loading 7) &&
     on streams (fun c => (gOp (c.during true) (.ggen k 4 (.v 2) 0 false false)).any fun o =>
        o.m.closer && c.runs o.m && o.good && grvRoom c o.reads o.gd && uncorrelated c o.pairs && o.drawn.isSome && c.w.cGrv == 0)) = true := by decide +kernel
theorem witness_GravelImages :
    (on streams (fun c => c.runs (.wide k [src (.k 1) 2]) && c.w.sq.isEmpty && grvRoom c [] none && grvRoom c [1] none &&
      c.gravel.len == 1024) &&
     allGood (onePage streams) .load (lineVas 0x10000 129) && allGood (onePage streams) .store (lineVas 0x10000 129)) = true := by
  decide +kernel
theorem witness_GravelCounts :
    on (kr [(1, 4096)] streams) (fun c => c.gravel.holder == some c.id.conv && c.gravel.ops.isEmpty &&
      !persists c.gravel.fails && c.gravel.bad.isEmpty && c.runs (.wide k [dst (.v 2) 2]) && isV (.v 2) && (look c.gravel.g 1).isSome && (look c.gravel.g 2).isSome &&
      c.runs (.wide k [dst (.k 2), src (.v 2) 2]) && c.runs { Meta.wide k (srcB (.desc (.k 1))) with always := true } &&
      c.acting { k with onc := true } != 0 &&
      ((c.during false).readB32 (leader (c.acting { k with onc := true })) (.desc (.k 1))).toNat == 4096) = true := by decide +kernel

/-! ### Copies, submissions, messages, system -/

theorem witness_Copies :
    (on (kr [(1, 0), (2, 0x10100), (3, 64)]) (fun c =>
      let c' := c.during false
      let act := c.acting { k with onc := true }
      copyRoom c && c.runs { Meta.wide k ([src (.k 1) 2, src (.k 2) 2] ++ srcB (.desc (.k 3)) ++ []) with always := true } && act != 0 &&
        (c'.copyFault (c'.addr act (.k 1)).toNat (c'.addr act (.k 2)).toNat (c'.readB32 (leader act) (.desc (.k 3))).toNat none .sc .dv
          .none).isNone) &&
     on (kr [(1, 0), (2, 0x10100), (4, 0x200000040), (5, 0x8000000040)]) (fun c =>
      copyRoom c && c.runs (.wide k [src (.k 1) 2, src (.k 2) 2, src (.k 4)]) && (c.w.getK 4).extractLsb' 0 32 == 64 &&
        (c.w.getK 4).extractLsb' 32 32 == 2 && (c.w.getK 5).extractLsb' 0 32 == 64 && (c.w.getK 5).extractLsb' 32 32 == 128 &&
        (copyBound c.cw c.cv .sc 0 64 2 64).isNone && (copyBound c.cw c.cv .dv 0x10100 64 2 128).isNone)) = true := by decide +kernel
/-- The wave's grid takes tasks, up to `room` at a time; its task descriptor's address is 5. -/
def tasking (room : Nat) : State :=
  kr [(1, 5), (2, 0x10000), (3, 0x10400)] { base with
    grids := ins base.grids 0 { Grid.lone with taskgrid := true, tdesc := 5, outst := 1, qsize := room, qbase := 0x10800, tpa := 0x10440 } }
theorem witness_TaskSubmission :
    ([(4, true), (0, false)].all fun (room, all) => on (tasking room) fun c =>
      let c' := c.during true
      let act := c.acting k
      let ts := (lanesOf act).drop c.taken
      let check (t : Nat) : Option (BitVec 10 × Nat) :=
        if ((lanesOf act).take c.taken).contains t then none else
        let e := (c'.read64 t (.k 2) false).toNat
        let a := (c'.read64 t (.k 3) false).toNat
        if e % 8 ≠ 0 then some (cAlign 1, e)
        else
          match c'.locate .device .load 32 a with
          | .error x => some (x, faddrOf a)
          | .ok p => match if c'.w.covered p 32 then none else c'.badAt p 32 with
            | some x => some (x, faddrOf a)
            | none => none
      c.taken == 0 && c.runs { Meta.plain k [src (.k 2) 2, src (.k 3) 2, src (.k 1)] with last := true, closer := true } check &&
        (tasking room).taskGrid c.vf (c.w.getK 1).toNat == some 0 && (c.hnd || c.quiet) &&
        (c'.loadChunks ts (ts.map fun t => ((c'.read64 t (.k 3) false).toNat, 32))).toOption.any fun p => p.2.2.isEmpty &&
          let q := State.acceptTasks c.w.core 0 p.1 ((ts.map fun t => c'.read64 t (.k 2) false).zip p.2.1)
          if all then q.2.1 == ts.length else q.2.1 != ts.length && q.2.2) = true := by decide +kernel
theorem witness_Signals :
    on (kr [(1, 0x10108), (2, 7)]) (fun c =>
      let c' := c.during true
      let act := c.acting { k with onc := true }
      let a := (c'.addr act (.k 1)).toNat
      c.runs { Meta.wide k [src (.k 1) 2, src (.k 2) 2] with last := true, closer := true } && c.w.sq.isEmpty && c.quiet &&
        c'.fenceReady .die && (c'.locate .device .atomic 8 a).toOption.any fun p => c'.touchables [(a, p)] true &&
          !base.untouched' p && (base.lineDir (lineOf p.adr)).owner.isNone && base.atomReady c.die (lineOf p.adr) false && (c'.badAt p 8).isNone &&
          c'.watchHits .device true true 8 [(leader act, a)] == []) = true := by decide +kernel
/-- Function 0's queue 1 enabled or not in its registers and in its descriptor at 0x10600 + 64; its ring of 4 records at 0x10800; the record's
two lines in the core's main L1. -/
def queued (en desc : Bool) : State :=
  let s := (kr [(1, 0x10100), (2, 1), (3, 64)]).poke (0x10640 + 0x1D) [if desc then 1 else 0]
  let l (a : Nat) : L1Copy := { line := a, rts := 1, bytes := List.replicate 64 0 }
  let s := s.setCore 0 { s.core 0 with l1 := [l 0x10100, l 0x10140] }
  s.setFn 0 { s.fn 0 with qtb := 0x10600, queues := [(1, { Queue.reset with en := en, dev := true, base := 0x10800, size := 4 })] }
theorem witness_GridLaunch :
    ([(true, true), (true, false), (false, true)].all fun e => on (queued e.1 e.2) fun c =>
      let c' := c.during true
      let act := c.acting { k with onc := true }
      let a := (c'.addr act (.k 1)).toNat
      let runs (n : BitVec 6) : Bool :=
        c.runs { Meta.wide k (src (.k 1) 2 :: srcB (.desc (.k n))) with last := true, closer := true, always := true }
      runs 2 && runs 3 && act != 0 && (c'.readB32 (leader act) (.desc (.k 3))).toNat == 64 && (c.hnd || c.quiet) &&
        (c'.loadChunks [leader act, leader act] [(a, 64), (a + 64, 64)]).toOption.any fun p =>
          let s1 := p.1
          let x := lookD (s1.fn c.vf).queues (c'.readB32 (leader act) (.desc (.k 2))).toNat Queue.reset
          p.2.2.isEmpty && p.2.1.length == 2 && s1.pkg.length == (queued e.1 e.2).pkg.length && !s1.fw.rcv && x.en == e.1 && x.dev &&
            (s1.queueDesc c.vf c.die 1).any fun pa =>
              let h := homeDie pa
              (s1.lineDir (lineOf pa)).owner.isNone && s1.atomReady c.die (lineOf pa) false && (s1.lineErr (lineOf pa)).isNone &&
                s1.devVal h (pa + 0x1D) 1 % 2 == (if e.2 then 1 else 0) &&
                decide ((s1.devVal h (pa + 8) 8 + 2 ^ 64 - s1.devVal h pa 8) % 2 ^ 64 < x.size) &&
                (s1.saveAddr c.vf c.die x.base true).toOption.any fun q => s1.touchable q.1 true && !s1.untouched q.1 true &&
                  [q.2, q.2 + 64].all fun l => s1.canWrite h l && s1.abreast h l c.die) = true := by decide +kernel
theorem witness_GridLaunch_recovery :
    on ({ queued true true with fw := { (queued true true).fw with rcv := true } }) (fun c =>
      let c' := c.during true
      let act := c.acting { k with onc := true }
      let a := (c'.addr act (.k 1)).toNat
      (c'.loadChunks [leader act, leader act] [(a, 64), (a + 64, 64)]).toOption.any fun p => p.1.fw.rcv) = true := by decide +kernel
/-- A ring of `size` records at 0x10200 with one record in it, its header at 0x10180; the record to append in k4 to k7. -/
def appending (size : Nat) : State :=
  (kr [(1, 0x10180), (4, 1)]).poke 0x10180 (leBytes 8 0 ++ leBytes 8 1 ++ leBytes 8 0x10200 ++ leBytes 4 size ++ List.replicate 36 0)
theorem witness_MessagesAndRings :
    ([(4, false), (1, true)].all fun (size, full) => on (appending size) fun c =>
      let c' := c.during false
      let act := c.acting { k with onc := true }
      let a := (c'.addr act (.k 1)).toNat
      c.runs { Meta.wide k [src (.k 1) 2, src (.k 4)] with last := true, closer := true } && decide (c.w.cMsg ≠ 63) &&
        c.runs (predMeta (.wide k [src (.k 1) 2, src (.k 4)]) 1) && (quadBytes c (.k 4)).take 4 != List.replicate 4 0xFF &&
        c.w.sq.isEmpty && ((c'.locate .device .store 1 a).toOption.isSome) &&
        (c'.locate .device .atomic 64 a).toOption.any fun p => c'.touchables [(a, p)] true &&
          !(appending size).untouched' p && ((appending size).lineDir (lineOf p.adr)).owner.isNone &&
          (appending size).atomReady c.die (lineOf p.adr) false && (c'.badAt p 64).isNone &&
          ((appending size).ringHdr (homeDie p.adr) p.adr).any fun x =>
            if full then decide (x.size ≤ x.count)
            else decide (x.count < x.size) && (c'.locate .device .atomic 32 (x.base + 32 * (x.tail % x.size) : Nat)).toOption.any fun q =>
              c'.touchables [(x.base + 32 * (x.tail % x.size), q)] true && !(appending size).untouched' q &&
                !(appending size).memLost q.adr && (appending size).canWrite (homeDie p.adr) (lineOf q.adr) &&
                (appending size).abreast (homeDie p.adr) (lineOf q.adr) c.die &&
                c'.watchHits .device false true 8 [(leader act, a + 8)] == []) =
      true := by decide +kernel
/-- Group 0 of function 0 is the table at 0x10200. -/
def grouped (on_ : Bool) : State :=
  let s := kr [(1, 0x10400), (2, 0x10480), (3, 64), (4, 0x10200)]
  s.setFn 0 { s.fn 0 with group := if on_ then [(0, 0x10201)] else [] }
theorem witness_Collectives :
    ([true, false].all fun g => on (grouped g) fun c =>
      let c' := c.during true
      let act := c.acting { k with onc := true }
      c.runs { Meta.wide k [src (.k 1) 2, src (.k 2) 2, src (.k 3), src (.k 4)] with last := true, closer := true } &&
        (c'.read32 (leader act) (.k 3)).toNat == 64 && (c'.addr act (.k 1)).toNat % 64 == 0 &&
        ((grouped g).fn c.vf).groupAt (c.w.getK 4).toNat == g && decide (c.w.cDom ≠ 63) && c.w.sq.isEmpty &&
        ((grouped g).tableVal c.vf c.die 0x10200 0 4).isSome && ((grouped g).tableVal c.vf c.die 0x10200 8 8).isSome &&
        ((grouped g).saveAddr c.vf c.die 0x10200 true).toOption.any fun p => (grouped g).touchable p.1 true &&
          !(grouped g).untouched p.1 true && ((grouped g).lineDir (lineOf p.2)).owner.isNone &&
          (grouped g).atomReady c.die (lineOf p.2) false && ((grouped g).lineErr p.2).isNone) = true := by decide +kernel
theorem witness_SystemRegisterAccess :
    (on base (fun c => c.runs (.wide k [dst (.k 1)]) && !c.hnd && ((Meta.wide k [dst (.k 1)]).check c).isNone &&
      ((Meta.wide k [src (.k 1) 2]).check c).isNone && c.runs (.wide k [])) &&
     on (inHandler (kr [(1, 32), (2, 33)])) (fun c => c.runs (.wide k [src (.k 1) 2]) && c.hnd &&
      (((c.during false).addr (c.acting { k with onc := true }) (.k 1)).extractLsb' 0 8).toNat + c.w.iwl.toNat == c.w.vregs &&
      decide (c.w.iwb.toNat + (((c.during false).addr (c.acting { k with onc := true }) (.k 1)).extractLsb' 0 9).toNat ≤ c.w.vregs))) =
      true := by decide +kernel
theorem witness_Probes :
    on (kr [(1, 0x10100), (2, 2 ^ 57)]) (fun c =>
      let a (n : BitVec 6) := ((c.during false).addr (c.acting { k with onc := true }) (.k n)).toNat
      c.runs (.wide k [dst (.k 3), src (.k 1) 2]) && c.runs (.wide k [dst (.k 3), src (.k 2) 2]) && a 2 == 2 ^ 57 &&
        decide (a 1 < 2 ^ 56) && (base.lookup c.vf c.die (a 1)).isSome) = true := by decide +kernel
/-- A header of class UNI; one that waits for CPY 0; one of a reserved class; one of a reserved wait. -/
theorem witness_HeadersAndUnassigned :
    (headerFault 0 == none && on base (fun c => c.headerReady 0) && headerFault 0x0020000000000000 == none &&
     on (wv fun w => { w with cCpy := 1 }) (fun c => !c.headerReady 0x0020000000000000) &&
     decide (7 ≤ ((0x7000000000000000 : DWord).extractLsb' 60 4).toNat) &&
     decide (6 ≤ ((0x00C0000000000000 : DWord).extractLsb' 53 3).toNat)) = true := by decide +kernel
/-- Function 0's handlers at 0x10800, its context save area at 0x10000. -/
def handled (s : State := base) : State :=
  let s := s.setFn 0 { s.fn 0 with trapb := 0x10800, csa := [(0, 0x10000)] }
  s
theorem witness_SoftwareTrap :
    on handled (fun c => c.runs (.wide k []) && !c.hnd && (handled.wave? c.id).any fun _ =>
      let w' := c.move none (c.advance false c.w)
      (((handled.setWave c.id w').checked c.w.core).trapEntry c.id w' c.cv
        { kind := 2, cause := cSoftware 3, faddr := 0, flane := 0, part := false, dbg := 0, epc := w'.pc,
          hdr := (w'.clause.map Clause.addr).getD w'.pc }).isSome) = true := by decide +kernel
theorem witness_ReturnFromTrap :
    (on (inHandler (wv (fun w => { w with epc := 0x10008, frame := 0x10100 }) handled)) (fun c =>
      c.runs { Meta.wide (ctlOf k0) [] with always := true } && c.hnd && c.w.epc.extractLsb' 0 3 == 0 && c.w.sq.isEmpty &&
        (handled.saveRead c.vf c.die c.w.frame 0xA0).toOption.isSome) &&
     on base (fun c => ({ Meta.wide (ctlOf k0) [] with always := true }.check c).isNone && !c.hnd)) = true := by decide +kernel

/-! ### Cairn -/

/-- An invocation of slice 0 under the trigger kind, with the registers given. -/
def cairn (kind : TrigKind) (f : Invoc → Invoc := id) : State :=
  let s := { (base.withCairn 0) with agenda := [], focus := .cairn 0 }
  match (s.slice 0).inv with
  | some v => s.setSlice 0 { s.slice 0 with inv := some (f { v with trig := { v.trig with kind := kind } }) }
  | none => s
/-- A Bool about the running invocation. -/
def onC (s : State) (f : Invoc → Bool) : Bool := s.focus == .cairn 0 && (s.slice 0).inv.any f
/-- The last word of the line, and the first offset past it. -/
theorem witness_CairnLines :
    (onC (cairn .fill fun v => { v with fetched := true, x := [(5, 56)] }) (fun v =>
      [Instr.clnRd 6 5 0, .clnWr 5 6 0, .clnAtom .add 6 5 7].all fun i => (lineOp i).any fun o => (o.1 v).toNat == 56 &&
        ((cairn .fill fun v => { v with fetched := true, x := [(5, 56)] }).fetchTarget v).any fun q =>
          q.1.handlerCanWrite 0 q.2.trig && q.1.canSee 0 (q.2.trig.line + 56)) &&
     onC (cairn .miss) (fun v => v.trig.kind == .miss) &&
     onC (cairn .fill fun v => { v with x := [(5, 57)] }) (fun v => (lineOp (.clnRd 6 5 0)).any fun o => decide (56 < (o.1 v).toNat))) =
      true := by decide +kernel
theorem witness_CairnInvocation :
    (onC (cairn .fill) (fun v => v.trig.kind != .msg && decide ((cairn .fill).keptLines 0 v.trig.vf v.trig.line < 8192)) &&
     onC (cairn .msg) (fun v => v.trig.kind == .msg)) = true := by decide +kernel
/-- An invocation of a function with an event ring of 4 records at 0x10200, its header at 0x10180. -/
def evented : State :=
  let s := (cairn .fill).poke 0x10180 (leBytes 8 0 ++ leBytes 8 0 ++ leBytes 8 0x10200 ++ leBytes 4 4 ++ List.replicate 36 0)
  s.setFn 0 { s.fn 0 with terb := 0x10180 }
/-- A flag within the slot, an address past the maps and one in the page, and an invocation with four queued events. -/
theorem witness_CairnRequests :
    (onC (cairn .fill fun v => { v with x := [(5, 0x10200), (6, 1), (7, 0x400000)] }) (fun v =>
      let s := cairn .fill
      v.get 6 &&& (~~~ 1#64) == 0 && v.get 5 &&& (~~~ 1#64) != 0 && (s.handlerXlate 0 v.trig.vf 0x400000).isNone &&
        (s.handlerXlate 0 v.trig.vf 0x10200).any fun x => s.touchable x false && !(s.lineDir 0x10200).present &&
          !(s.lineDir 0x10200).requested && decide ((s.slice 0).reqs.length < 16) && (s.invSlot 0 v).dlen == 1) &&
     onC (cairn .fill fun v => { v with evqs := 4 }) (fun v => v.evqs == 4) &&
     onC evented (fun v => decide (v.evqs < 4) && (evented.fn v.trig.vf).terb != 0 && evented.posts == [] &&
      !evented.appendWaits v.trig.vf (evented.fn v.trig.vf).terb.toNat &&
      (evented.append v.trig.vf (evented.fn v.trig.vf).terb.toNat (eventRecord 0 0 0 v.trig.kind.code v.trig.set v.trig.va
        (v.get 5).toNat (evented.cyclesOf v) (v.get 6).toNat)).isSome) &&
     onC (cairn .msg) (fun v => v.trig.kind == .msg && !v.replied && !v.forwarded)) = true := by decide +kernel
theorem witness_CairnBase :
    onC (cairn .fill fun v => { v with x := [(5, 248), (6, 249)] }) (fun v =>
      let t := (cairn .fill).invSlot 0 v
      (v.get 5).toNat + 8 == 256 * t.dlen.toNat && decide (256 * t.dlen.toNat < (v.get 6).toNat + 8) &&
        (v.get 6).toNat + 1 == 250 && (v.get 6).toNat % 2 != 0) = true := by decide +kernel
/-- A slot's share, in percent, is not used up by so many cycles. -/
def shared (share used : Nat) : Bool := decide (¬65536 * (if share = 0 then 1 else min share 100) / 100 ≤ used)
/-- Triggers that wait at slice 0: one of set 0, and one whose set 1 has an entry for FILL at 8. -/
def waiting (set : Nat) : State :=
  let s := (base.withCairn 0).poke 0x10840 (leBytes 4 0xFFFFFFFF ++ leBytes 4 8 ++ List.replicate 56 0)
  let s := s.setFn 0 { s.fn 0 with htable := some 0x10800 }
  let t : Trigger := { kind := .fill, line := 0, va := 0, vf := 0, set := set, hops := 0, src := 0, msg := [], token := none }
  s.setSlice 0 { s.slice 0 with inv := none, queue := [t] }
theorem witness_HandlerEntry :
    (let s := waiting 1
     let x := s.slice 0
     x.inv.isNone && match x.queue with
      | t :: r => t.set == 1 && (x.slotOf t.vf).any fun i => x.slots[i]?.any fun q => shared q.share.toNat (s.slotUsed 0 i) &&
          !((s.setSlice 0 { x with queue := r }).unstall).trigLost 0 t && ((((s.setSlice 0 { x with queue := r }).unstall).setDesc 0 t.vf t.set).any fun d => entryOf d t.kind == some 8)
      | [] => false) = true := by decide +kernel
/-- A forwarded message whose page has no translation. -/
def strayed : State :=
  let t : Trigger := { kind := .msg, line := 0x400000, va := 0x400000, vf := 0, set := 0, hops := 0, src := 3, msg := [], token := none }
  base.setSlice 0 { base.slice 0 with queue := [t] }
theorem witness_CairnSteps :
    (((waiting 0).slice 0).queue.any (fun t => t.set == 0 && !(waiting 0).trigLost 0 t) &&
     (strayed.slice 0).inv.isNone && (strayed.slice 0).queue.any (fun t => t.kind == .msg && t.src == 3 &&
       (((strayed.setSlice 0 { strayed.slice 0 with queue := [] }).unstall).handlerXlate 0 t.vf t.va).isNone) &&
     onC (cairn .fill) (fun v => let s := { cairn .fill with fab := v.start + v.budget }
       decide (v.budget ≤ s.fab - v.start)) && onC (cairn .fill) (fun v =>
      let s := cairn .fill
      decide (s.fab - v.start < v.budget) && (s.slice 0).slots[v.slot]?.any fun q => shared q.share.toNat (s.slotUsed 0 v.slot)) &&
     onC (cairn .fill) (fun v => let s := { cairn .fill with fab := v.start + 65536 }
      (s.slice 0).slots[v.slot]?.any fun q => !shared q.share.toNat (s.slotUsed 0 v.slot)) &&
     decide (base.fab < 65536 * (base.windows + 1)) && decide (65536 * (({ base with fab := 65536 } : State).windows + 1) ≤ 65536)) = true := by
  decide +kernel

/-! ### The device's own steps -/

/-- A store entry of one line. -/
def entry1 (sp : Space) (line : Nat) : SqEntry :=
  { kind := .store, space := sp, lines := [{ line := line, bytes := [(0, 7)], tag := some 0 }], info := [(0x10100, 0)], fn := 0,
    mmio := false, hnd := false }
theorem witness_StoresPerformed :
    ((base.wave? id0).any (fun w => w.sq.isEmpty) && !base.holdsBack 0 3 &&
     ([Space.scratch, .convoy, .device, .peer, .host].all fun sp =>
       let s := wv fun w => { w with sq := [entry1 sp 0x10100] }
       !s.holdsBack 0 3 && (s.wave? id0).any fun w => w.sq == [entry1 sp 0x10100]) &&
     (let s := wv fun w => { w with sq := [entry1 .device 0x10100] }
      s.canWrite 0 0x10100 && !s.memLost 0x10100 &&
        ((((s.checkedLine 0x10100 0x10100 0 0 0).devWrite 0 { line := 0x10100, bytes := [(0, 7)], tag := some 0 } (.wave 0)).wave? id0).isSome))) =
      true := by decide +kernel
theorem witness_StoreFrame :
    ([Space.scratch, .convoy, .device, .peer, .host].all fun sp =>
      let s := wv fun w => { w with sq := [entry1 sp 0x10100] }
      (s.wave? id0).any (fun w => w.sq.any fun e => e.kind == .store && e.space == sp) &&
        (s.canWrite 0 0x10100 && !s.memLost 0x10100 && s.watchers 0x10100 == [] && (s.lineDir 0x10100).owner.isNone &&
          risingFrom 0 [(0, (7 : Byte))]) && (match exec (.storeDrain id0) s with
            | .next _ => true
            | _ => false)) = true := by decide +kernel
/-- Crew 0 asks for the line of a binding; another crew's stash may own it. -/
def filling (owner : Option Nat) : State :=
  let s := crw fun c => { c with binds := [(1, { bind0 with filling := [0] })] }
  s.setLineDir 0x10000 { s.lineDir 0x10000 with owner := owner }
theorem witness_LineArrivals :
    ([none, some 5].all (fun o => let s := filling o
       (s.crew? 0).any (fun c => (c.fillingAt 0x10000).isSome) && !(s.lineDir 0x10000).pinned && !s.memHeld 0x10000 &&
         !(s.pkg.any fun p => p.write.line == 0x10000) && (s.lineDir 0x10000).owner == o && s.canRecall 0x10000) &&
     ((base.setCore 0 { base.core 0 with fills := [(64, true)] }).core 0).fills == [(64, true)] &&
     (let s := base.setCore 0 { base.core 0 with miss := [{ kind := .load, line := 64, slice := 0, wave := some 0 }], lease := 8 }
      ((s.core 0).miss.find? fun m => m.line == 64).any (fun m => m.kind == .load) && !(s.lineDir 64).pinned && !s.memHeld 64 &&
        decide (max (s.lineDir 64).wts.toNat (s.core 0).tick.toNat + (s.core 0).lease.toNat < 0xF0000) && (s.core 0).lease != 0) &&
     decide (base.fab < 256 * (base.leases + 1)) &&
     decide (256 * (({ base with fab := 256 } : State).leases + 1) ≤ ({ base with fab := 256 } : State).fab) &&
     ({ base with pkg := [{ src := 0, todo := [1], vc := List.replicate 4 0, write := { line := 64, bytes := [], tag := none },
                            pkgAtomic := false }] } : State).canApply 0 1 && !base.canApply 0 1) = true := by decide +kernel
theorem witness_LineArrivals_clocks : ∀ c, c < 256 → (base.core c).tick.toNat + 1 < 0xF0000 := by
  intro c _
  have h : base.cores = [] := by decide +kernel
  simp [State.core, h, lookD, look, Core.reset]
/-- Function 0 accepts function 0 of device 3. -/
def accepting : State := base.setFn 0 { base.fn 0 with accept := [(3, 0)] }
/-- Port 0 has sent these messages. -/
def sent (l : List CwMsg) (s : State) : State := s.setPort 0 { s.port 0 with msgs := l }
theorem witness_FarAnswersArrive :
    (let r (op : PeerOp) : PeerReq := { vf := 0, dev := 3, fn := 0, fpa := 0x10100, op := op }
     accepting.peerTarget (r (.write [7] 0)) == some 0x10100 && accepting.peerTarget (r (.atomic .add 0 1 0)) == some 0x10100 &&
     !accepting.memLost 0x10100 && accepting.canWrite (homeDie 0x10100) (lineOf 0x10100) && 0x10100 % atomBytes .add 0 == 0 &&
     (match accepting.readDevice (homeDie 0x10100) (lineOf 0x10100) with
      | .line _ b _ => b.length == 64
      | _ => false) && base.peerTarget (r (.read 8)) == none &&
     (let s := sent [.request 0 0x1040] (asked .peer false [(0x1040, 1)] [] base)
      (s.wave? id0).any (fun w => w.far.any fun f => f.lines == [(0x1040, 1)] && f.behind == 0 && f.space == .peer) &&
        s.flying (.request 0 0x1040) != 0) &&
     ((asked .host false [(0x2040, 2)] [] base).wave? id0).any (fun w =>
       w.far.any fun f => f.lines == [(0x2040, 2)] && f.behind == 0 && f.space == .host) &&
     (let s := wv fun w => { w with doms := [.store (entry1 .host 64)] }
      let s := s.setDie 0 { s.die 0 with hostOut := [0] }
      (s.wave? id0).any (fun w => w.far == none && hostNext w.doms == some (0, .store (entry1 .host 64)) && !s.holdsBack 0 4 &&
        (s.die (dieOfCore w.core)).hostOut.head? == some (waveKey id0))) &&
     (let s := sent [.write 0 0x1040] ((farPages (wv fun w => { w with doms := [.store (entry1 .peer 0x1040)] })))
      (s.wave? id0).any (fun w => w.far == none && w.doms == [.store (entry1 .peer 0x1040)]) && s.pageFirst 0 0x1040 &&
        ((s.draw.landed (.write 0 0x1040)).boundFn 0 0).isSome) &&
     ((wv fun w => { w with doms := [.atomic .peer] }).wave? id0).any fun w => w.far == none && w.doms == [.atomic .peer]) = true := by
  decide +kernel
/-- A collective of 64 bytes over the table at 0x10200, of the rank 0 alone, from 0x10400 to 0x10480. -/
def coll0 (op : CollOp) : CollOp' :=
  { table := 0x10200, gid := 0, seq := 0, dst := 0x10480, src := 0x10400, n := 64, op := op, ty := .s32, root := 0 }
/-- The wave has it in flight; the group's only member is live or not. -/
def combining (op : CollOp) (live : Bool) : State :=
  (wv fun w => { w with doms := [.coll (coll0 op) false] }).poke 0x10204 ([1] ++ List.replicate 59 0 ++ leBytes 8 (if live then 2 ^ 15 else 0))
/-- A collective of one operation, of one live member, with nothing to send, whose lines can be read and written. -/
def collCase (op : CollOp) : Bool :=
  let s := combining op true
  s.members 0 0 0x10200 == [(0, 0, 0)] && (s.wave? id0).any (fun w => (s.collMsgs (waveKey id0) 0 (dieOfCore w.core) (coll0 op)) == []) &&
    match s.collLines 0 0 false .engRead 0x10400 64, s.collLines 0 0 false .engWrite 0x10480 64 with
    | .ok a, .ok b => (match State.readLines 0 s (a.map fun p => p.2.2) with
      | .ok (t, own) => own.length == 1 && (a.all fun p => t.touchable p.2.1 false) &&
          b.all fun p => !t.memLost p.2.2 && t.touchable p.2.1 true && t.canWrite 0 p.2.2
      | .error _ => false)
    | _, _ => false
theorem collCase_sum : collCase .sum = true := by decide +kernel
theorem collCase_bcast : collCase .bcast = true := by decide +kernel
theorem collCase_gath : collCase .gath = true := by decide +kernel
theorem collCase_rsum : collCase .rsum = true := by decide +kernel
/-- A collective whose lines can be read and written completes. -/
theorem witness_WaveReports_collective :
    (collCase .sum && collCase .bcast && collCase .gath && collCase .rsum) = true := by
  simp only [collCase_sum, collCase_bcast, collCase_gath, collCase_rsum, Bool.and_self]
/-- A .BCAST without its root; a collective whose message to another member no port has started. -/
theorem witness_WaveReports_members :
    ((combining .bcast false).members 0 0 0x10200 == [] &&
     (let s := (combining .sum true).poke 0x10240 (leBytes 8 0 ++ leBytes 8 (2 ^ 15 + 3))
      let s := s.poke 0x10204 [2]
      (s.collMsgs 0 0 0 (coll0 .sum)).any fun m => s.flying m.1 == 0)) = true := by decide +kernel
theorem witness_WaveReports :
    (((wv fun w => { w with late := some { cause := 0, faddr := 0 } }).wave? id0).any (fun w => w.late.isSome && w.level == .kernel) &&
     ((wv fun w => { w with late := some { cause := 0, faddr := 0 } }).ctx id0).isSome && (base.wave? id0).any (fun w => w.late.isNone) &&
     !base.holdsBack 0 4 && ((cMatrix 0).toNat / 64 != 12 && (cMatrix 0).toNat / 64 != 13)) = true := by decide +kernel
/-- Slice by slice, whatever the hash: a queue with room, and a full one. -/
theorem witness_WaveReports_messages (t : Trigger) : ((base.slice (base.homeSlice 64)).queue.length < 64) ∧
    64 ≤ (((base.setSlice (base.homeSlice 64) { base.slice 0 with queue := List.replicate 64 t }).slice
      (base.homeSlice 64)).queue.length) := by
  constructor
  · have h : base.slices = [] := by decide +kernel
    simp [State.slice, h, lookD, look, Slice.reset]
  · simp [State.slice, State.setSlice, lookD, ins, look, show base.slices = [] by decide +kernel]
theorem witness_CopyLines :
    ([true, false].all fun good =>
     let from_ := 64
     let op : CopyOp := { dsp := .sc, ssp := .sc, dst := 0, src := from_, rowBytes := 64, dstStride := 0, srcStride := 0, cv := .none,
                          multicast := false, hnd := false, left := [(0, 0, 0)] }
     let s := crw (fun c => { c with bad := if good then [] else [64] }) (wv fun w => { w with copies := [op] })
     (s.wave? id0).any fun w => w.copies == [op] && match State.copyReads id0 w 0 op .ok s [from_] with
       | .ok q => good && (match q.1.copyWrite id0 w 0 op .ok 0 0 (convertLine .none q.2).1 (convertLine .none q.2).2 with
         | .done s2 => (s2.wave? id0).any fun w2 => w2.copies == [op]
         | _ => false)
       | .error (.bad _ _, _) => !good
       | .error _ => false) = true := by decide +kernel
/-- A matrix operation of the wave. -/
def mop (op : MOpKind) : MOp := { wave := 0, batch := 0, op := op, hnd := false }
/-- An MMA of class D64 and one row, in the given pass. -/
def mma1 (pass : Nat) : Mma :=
  { cls := .d64, page := 0, s4 := false, w0 := 0, m := 1, sh := none, betas := none, pass := pass, row := 0, kb := 0, grp := 0 }
/-- Windows 0 to 31 of the first engine are the context's. -/
def homed (s : State := base) : State :=
  s.setEngine 0 0 { s.engine 0 0 with holder := some 0, owner := (List.range 32).map fun w => (w, ((Ctx.of s).map Ctx.ctxid).getD 0) }
/-- The windows of an operation are the context's. -/
def homeOk (s : State) (o : MOp) : Bool :=
  (s.convoy? 0).any fun cv => ((s.engine 0 0).winsOf o.op).all fun w => (s.engine 0 0).ownerOf w == cv.ctxid
theorem witness_EngineOperations :
    (([MOpKind.mring, .mzero 0 1, .mcmt 1 false, .mcmt 1 true, .mma (mma1 4), .mma (mma1 0)].all fun o =>
      let s := homed (eng fun e => { e with ops := [mop o] })
      let e := s.engine 0 0
      e.ops == [mop o] && e.tile.isNone && (e.groupFault 1).isNone && !s.holdsBack 0 5 && homeOk s (mop o)) &&
     passesOf .d64 == 4 &&
     (let s := eng fun e => { e with shFault := [(1, { cause := cAssay 0, faddr := 0 })] }
      ((s.engine 0 0).groupFault 1).isSome)) = true := by decide +kernel
/-- A Gravel engine with one operation at its head. -/
def graveling (op : GOpKind) (bad : List Nat := []) : State :=
  grv (fun g => { g with ops := [{ wave := 0, op := op, hnd := false }], bad := bad }) streams
theorem witness_EngineOperations_gravel :
    (!streams.holdsBack 0 4 &&
     ([GOpKind.and 4 1 2, .seed 0 1, .ld 4 [], .st 1 1 0 false [(0x10100, 0)]].all fun o =>
       (((graveling o).cluster 0).gravel.ops.head?.any fun x => x.op == o) && o.reads.all fun r => !((graveling o).cluster 0).gravel.bad.contains r) &&
     (((graveling (.and 4 1 2)).cluster 0).gravel.result (.and 4 1 2)).isSome &&
     ((GOpKind.and 4 1 2).reads.any fun r => ((graveling (.and 4 1 2) [1]).cluster 0).gravel.bad.contains r) &&
     (!((graveling (.st 1 1 0 false [])).countGravel 0 0).memLost 0x10100 && ((graveling (.st 1 1 0 false [])).countGravel 0 0).canWrite 0 0x10100)) =
      true := by decide +kernel
/-- A register's image of 256 streams at 0x20000: 33 lines of the format 0x10, the last with its tag record. -/
def imaged : State :=
  let s := (grv fun g => { g with len := 256 }).poke 0x20800 (tagRecord 1 0 false false 256)
  { s with hbm := { s.hbm with tags := s.hbm.tags ++ (List.range 33).map fun i => (0x20000 + 64 * i, 0x1000) } }
theorem witness_EngineOperations_image :
    (match State.readLines 0 (imaged.countGravel 0 0) ((List.range 33).map fun i => 0x20000 + 64 * i) with
     | .ok (_, l) => (l.all fun x => fmtOf x.2 == 0x10) && (match imageReg 256 (l.map Prod.fst).flatten with
       | some (some _) => true
       | _ => false)
     | .error _ => false) = true := by decide +kernel
/-- Lines of the format 6 from an address on. -/
def sixes (a n : Nat) : NMap Tag := (List.range n).map fun i => (a + 64 * i, 0x0600)
/-- An MMA of class D64 at its first block, with its ring entry pushed and performed, over lines of the format 6. -/
def multiplying : State :=
  homed (crw (fun c => { c with scratchBytes := 16384, scratch := { c.scratch with tags := sixes 0 16 } }) (eng fun e =>
    { e with holder := some 0, pageSt := [(0, .data)], ops := [mop (.mma (mma1 0))],
             slate := { e.slate with tags := sixes 0 512 },
             ring := some { emptyRing 0 0 0 16 2048 with tail := 1, free := 15, ready := [0] } }))
theorem witness_MatrixBlocks :
    (homeOk multiplying (mop (.mma (mma1 0))) && (multiplying.engine 0 0).ring.any fun r => (mma1 0).rowsNext r 1 == 1 &&
      (let l := multiplying.ringRows 0 r (mma1 0) (List.range 1)
       (match l.2 with
        | none => true
        | some _ => false) && (match (multiplying.engine 0 0).kblock (mma1 0) l.1 [] with
        | (0, _, none) => true
        | _ => false) && (match (multiplying.engine 0 0).kblock (mma1 0) l.1 (List.replicate 5 { errs := [(0, 0, 1)], agree := true }) with
        | (_, _, some c) => c == cAssay 0
        | _ => false))) = true := by decide +kernel
/-- A tile task of class D64 at tile (0, 0), of one row, no page and no accumulation, which raises the word at 0x10980. -/
def tile0 : TileTask :=
  { ctx := 1, grid := 0, conv := 0, abase := 0x10100, astride := 256, m := 1, npg := 0, bbase := 0x18000, cbase := 0x10C00, cstride := 512,
    x := 0, y := 0, cls := .d64, acc := false, done := 0x10980, stored := false }
/-- The task on the first engine of its cluster. -/
def tiling (t : TileTask := tile0) : State := base.setEngine 0 0 { base.engine 0 0 with tile := some t }
theorem witness_TileSteps :
    (let s := base.setCluster 0 { base.cluster 0 with tileReady := [tile0] }
     (s.cluster 0).tileReady == [tile0] && s.engineFree 0 0 && (s.engine 0 0).tile.isNone && (s.slateRoom 0 0).any (fun u =>
       (u.takeWindows 0 0 tile0.ctx (coveredWins .d64 0 1)).any fun p => p.2.isNone) &&
     (tiling.tileFault 0 0 tile0 { cause := cAssay 0, faddr := 0 }).isSome &&
     ((tiling).setGrid 0 { Grid.lone with noRecord := true }).grid? 0 != none &&
     (let u := tiling { tile0 with stored := true, done := 0x400000 }
      (u.tileBad 0 { tile0 with stored := true, done := 0x400000 } [0x400000]).any fun f =>
        (u.tileFault 0 0 { tile0 with stored := true, done := 0x400000 } f).isSome)) = true := by decide +kernel
theorem witness_TileSteps_retire :
    ((tiling.engine 0 0).tile == some tile0 && (match tiling.tileResult 0 0 tile0 (fun _ => []) with
      | .ok r => r.fault.isNone && r.fails == [] && !r.out.isEmpty &&
         (let u := r.s.setEngine 0 0 r.x
          (u.tileBad 0 tile0 (r.out.map Prod.fst)).isNone && (r.out.map Prod.fst).all fun va => u.tileMay 0 tile0 va)
      | .error _ => false) &&
     (let t := { tile0 with stored := true }
      let s := tiling t
      (s.tileAdr 0 t .engWrite t.done).toOption.any fun q => !s.memLost q.2 && s.touchable q.1 true && !s.untouched q.1 true &&
        s.atomReady 0 (lineOf q.2) false)) = true := by decide +kernel
theorem witness_WakeAndSpin :
    (((wv fun w => { w with wait := some (.line 64), woken := true }).ctx id0).any (fun c => c.w.wait.isSome && c.w.woken) &&
     ((wv fun w => { w with wait := some (.spin []) }).ctx id0).any (fun c => c.w.wait == some (.spin [])) &&
     ((wv fun w => { w with spinCount := 4096 }).ctx id0).any (fun c => decide (4096 ≤ c.w.spinCount) && c.w.wait == none) &&
     ((wv fun w => { w with spinCount := 4095 }).ctx id0).any (fun c => decide (c.w.spinCount < 4096))) = true := by decide +kernel
/-- A task grid with one task, and a save slot for it. -/
def dispatching (aged : Bool := true) : State :=
  let s := base.setGrid 0 { Grid.lone with taskgrid := true, tasks := [{ entry := 0x10000, arg := [], aged := aged }] }
  (s.setFn 0 { s.fn 0 with csa := [(0, 0x10000)], dies := 15 }).poke 0x10080 (leBytes 4 2)
theorem witness_TaskSteps :
    ((dispatching.nextPlacement.any fun p => p.1 == .tasks 0 && (dispatching.grid? 0).any fun g =>
       dispatching.pickEntry g.tasks == some 0x10000 && (dispatching.freeSlot g.vf g.q).any fun slot =>
         let q := gatherTasks 0x10000 32 g.tasks
         (State.startConvoy (dispatching.setGrid 0 { g with tasks := q.2, placed := g.placed + 1, blocking := false }) 0 g g.placed
           p.2.1 slot 0 p.2.2 0x10000 (lanesFrom (List.range q.1.length)) q.1).isSome) &&
     base.nextPlacement.isNone && ((dispatching false).grid? 0).any (fun g => g.tasks.any fun t => !t.aged) &&
     (base.wave? id0).any (fun w => !w.ended)) = true := by decide +kernel
/-- The wave has ended; another of its crew has not. -/
def leaving (others : Bool) : State :=
  let s := wv (fun w => { w with ended := true })
  if others then { s with waves := ins s.waves 1 ((base.wave? id0).getD (Wave.start 0 0 0 1 32 16 [] 1 [] [])) } else s
theorem witness_TaskSteps_retire :
    ([true, false].all fun b => let s := leaving b
      (s.wave? id0).any fun w => w.ended && !w.drained && s.drainedOf id0 w && (s.convoy? 0).any (fun cv => cv.st == .resident) &&
        (s.grid? 0).any (fun g => !g.taskgrid) &&
        ((s.wavesOf 0).any (fun p => p.1 != waveKey id0 && !p.2.drained) == b) &&
        (b || (s.emptyStash (crewKeyOf id0)).any fun u => ((u.setWave id0 { w with drained := true }).tasksRetired 0 w.tasks.length).any fun v =>
          (v.retireConvoy 0).isSome)) = true := by decide +kernel

/-! ### Queues and grids -/

/-- A queue descriptor with its ring at 0x10100 and its completion ring at 0x10300. -/
def desc (size tail : Nat) : List Byte :=
  leBytes 8 0 ++ leBytes 8 tail ++ leBytes 8 0x10100 ++ leBytes 4 size ++ [0, 1, 0, 0] ++ leBytes 8 0x10300 ++ List.replicate 24 0
/-- Nonzero bytes put behind those of device memory. -/
def lay (l : List (Nat × Byte)) (s : State := base) : State := { s with hbm := { s.hbm with bytes := s.hbm.bytes ++ l } }
/-- The nonzero bytes of `desc size 1` at 0x10040. -/
def descBytes (size : Byte) : List (Nat × Byte) :=
  [(0x10048, 1), (0x10051, 1), (0x10052, 1), (0x10058, size), (0x1005D, 1), (0x10061, 3), (0x10062, 1)]
/-- The nonzero bytes of a launch record of so many convoys at 0x10100, and of its kernel descriptor at 0x10200. -/
def recordBytes (nconv : Byte) : List (Nat × Byte) :=
  [(0x10101, 2), (0x10102, 1), (0x1010A, 1)] ++ (if nconv = 0 then [] else [(0x1011C, nconv)]) ++
    [(0x10208, 1), (0x10209, 1), (0x1020A, 31), (0x1020B, 16)]
/-- Queue 1 of function 0, enabled, with a completion ring of the given size and count; its descriptor is at 0x10040. -/
def onQueue1 (size count : Byte) (d : List (Nat × Byte) := descBytes 1) (r : List (Nat × Byte) := []) : State :=
  let s := lay (d ++ r ++ (if count = 0 then [] else [(0x10308, count)]) ++ [(0x10311, 4), (0x10312, 1), (0x10318, size)])
  let s := s.setFn 0 { s.fn 0 with qtb := 0x10000 }
  s.setQueue 0 1 (({ Queue.reset with en := true } : Queue).ofDesc 0 (desc 1 1))
/-- A launch record at the head of queue 1, of the given number of convoys. -/
def launched (nconv : Byte) : State := onQueue1 4 0 (descBytes 1) (recordBytes nconv)
theorem witness_QueueSteps :
    (let s := onQueue1 4 0
     (s.fn 0).en && !s.fw.rcv && (65#64).toNat % 64 == 1 && (s.queue 0 1).en && s.posts == [] &&
       (s.homeBytes 0 ((s.fn 0).qtb.toNat + 64 * 1) 64) == some (desc 1 1) &&
       (let u := s.setFn 0 { s.fn 0 with qtb := 0x400000 }
        (u.fn 0).en && (u.homeBytes 0 ((u.fn 0).qtb.toNat + 64 * 1) 64).isNone) &&
       ({ s with fw := { s.fw with rcv := true } } : State).fw.rcv &&
     (let t := s.setQueue 0 1 Queue.reset
      t.homeBytes 0 ((t.fn 0).qtb.toNat + 64 * 1) 64 == some (desc 1 1) &&
        (fieldOf (desc 1 1) 0x1D 1).testBit 0 && descBad (desc 1 1) == false) &&
     (let t := onQueue1 4 0 ((descBytes 1).filter fun x => x.1 != 0x1005D)
      (t.queue 0 1).en && (t.homeBytes 0 ((t.fn 0).qtb.toNat + 64 * 1) 64).any fun b => !(fieldOf b 0x1D 1).testBit 0) &&
     (let t := onQueue1 4 0 (descBytes 3)
      t.homeBytes 0 ((t.fn 0).qtb.toNat + 64 * 1) 64 == some (desc 3 1) && (fieldOf (desc 3 1) 0x1D 1).testBit 0 &&
        descBad (desc 3 1))) = true := by decide +kernel
/-- What a launch record of so many convoys is checked as, and the state after its bytes are read. -/
def checked (nconv : Byte) (f : Queue → Record → State → Bool) (s : State := launched nconv) : Bool :=
  let x := s.queue 0 1
  x.en && x.hd != x.tail && x.head.isNone && s.homeAbreast 0 (x.base + 128 * (x.hd % x.size)) 128 && match s.homeBytes 0 (x.base + 128 * (x.hd % x.size)) 128,
    s.saveTouch 0 0 [(x.base + 128 * (x.hd % x.size), 128)] with
  | some b, .done s1 => f x (Record.of b) s1
  | _, _ => false
/-- The page of the ring has been written but not read, as its leaf says. -/
def unread (s : State) : State := s.poke 0x5080 (leBytes 8 0x800000000001005F)
theorem witness_LaunchAcceptance :
    (checked 0 (fun x r s1 => s1.rejects 0 x r == some 6 && s1.pkg.length == (launched 0).pkg.length &&
       (s1.postCring 0 1 (gridRecord 2 0 (x.hd % 2 ^ 32) (BitVec.ofNat 64 r.utag) 6 0)).any fun s2 =>
         (s2.advanceHead 0 1 { s2.queue 0 1 with last := none }).isSome) &&
     checked 0 (fun x r s1 => s1.rejects 0 x r == some 6 && s1.pkg.length != (unread (launched 0)).pkg.length) (unread (launched 0)) &&
     checked 1 (fun x r s1 => (s1.rejects 0 x r).isNone && !r.taskgrid &&
       match s1.saveTouch 0 0 [(r.kdesc, 64), (lineOf r.param, r.plen), (r.tdesc, if r.taskgrid then 64 else 0)] with
       | .done s2 =>
         let t : State := { s2.setGrid s2.nextGrid (s2.gridOf 0 1 x r) with nextGrid := s2.nextGrid + 1 }
         (t.advanceHead 0 1 { t.queue 0 1 with head := some s2.nextGrid, last := some s2.nextGrid }).isSome
       | _ => false)) = true := by
  refine (Bool.and_eq_true _ _).mpr ⟨(Bool.and_eq_true _ _).mpr ⟨?_, ?_⟩, ?_⟩ <;> decide +kernel
/-- Grid 1 of function f at the head of its queue 0. -/
def heading (f : Nat) (g : Grid) (s : State := base) : State :=
  let s := s.setGrid 1 g
  let s := s.setFn f { s.fn f with en := true, dies := 1 }
  s.setQueue f 0 { s.queue f 0 with head := some 1 }
theorem witness_SchedulerSteps :
    (([0, 1].all fun v : Nat =>
        let g := { Grid.lone with depa := some 0x10400, depMet := false, depv := BitVec.ofNat 64 v }
        let s := heading 0 g
        s.grid? 1 == some g && (s.queue 0 0).head == some 1 && !g.taskgrid && decide (g.depv.toNat ≤ s.devVal (homeDie 0x10400) 0x10400 8) == (v == 0)) &&
     (let g := { Grid.lone with prio := 3 }
      let s := heading 0 g
      let low := s.convoys.filter fun p => p.2.st == .resident && p.2.teardown.isNone && s.prioOf p.2 < g.prio &&
        s.clusterOpen g.vf g.diemask p.2.cluster
      let least := low.foldl (fun m p => min m (s.prioOf p.2)) 7
      s.mayPlace g && (s.placeFor (.fresh 1)).isNone && youngest (low.filter fun p => s.prioOf p.2 == least) == some 0 &&
        (s.preempt 0 .priority).isSome)) = true := by decide +kernel
theorem witness_SchedulerSteps_slice :
    (let s := { heading 1 { Grid.lone with vf := 1 } (heading 0 Grid.lone) with fab := 2 ^ 20 }
     decide (s.heldFrom 0 0 + 65536 * max (s.fn 0).slice.toNat 1 ≤ s.fab) && (s.fn 0).mode == 0 && s.waitsFor 0 (· != 0) &&
       (s.fns.all fun p => (s.residents p.1 0).isEmpty ||
         decide (s.usageOn p.1 0 * (s.fn 0).weightOf ≤ s.usageOn 0 0 * (s.fn p.1).weightOf)) &&
       youngest (s.residents 0 0) == some 0 && (s.preempt 0 .timeSlice).isSome) = true := by decide +kernel
theorem witness_SchedulerSteps_waiting :
    (let s := heading 0 Grid.lone (wv fun w => { w with wait := some (.line 64) })
     (s.convoy? 0).any fun cv => s.liveWaves 0 != [] && ((s.liveWaves 0).all fun p => p.2.parked && p.2.wait.elim false fun r => !r.isSpin) &&
       (s.pending.any fun p => (s.pendGrid p).elim false (fun x => x.2.vf == cv.vf) && (s.placeFor p).isNone) &&
       (s.preempt 0 .waiting).isSome) = true := by decide +kernel
/-- Grid 1 of one convoy, with a save area of two slots. -/
def placing : State :=
  let s := (heading 0 { Grid.lone with placed := 0 }).poke 0x10080 (leBytes 4 2)
  s.setFn 0 { s.fn 0 with csa := [(0, 0x10000)] }
theorem witness_ConvoyPlacement :
    (placing.nextPlacement.any fun p => p.1 == .fresh 1 && (placing.grid? 1).any fun g => (placing.freeSlot g.vf g.q).any fun slot =>
      let s1 := placing.setGrid 1 { g with placed := g.placed + 1, blocking := false }
      let s2 := if g.placed + 1 = g.nconv then s1.setQueue g.vf g.q { s1.queue g.vf g.q with head := none } else s1
      (State.startConvoy s2 1 g g.placed p.2.1 slot 0 p.2.2 g.entry (allLanes g.d) []).isSome) = true := by decide +kernel
/-- A flushed convoy of the grid waits to start again. -/
def againGrid : Grid := { Grid.lone with again := [{ index := 0, slot := 1, relaunches := 1, tasks := [] }] }
theorem witness_ConvoyPlacement_again :
    (let s := placing.setGrid 1 againGrid
     s.nextPlacement.any fun p => p.1 == .again 1 && !againGrid.taskgrid &&
       (State.startConvoy (s.setGrid 1 { againGrid with again := [], blocking := false }) 1 againGrid 0 p.2.1 1 1 p.2.2 againGrid.entry
         (allLanes againGrid.d) []).isSome) = true := by decide +kernel
theorem witness_ConvoyPlacement_saved :
    (let s := cnv (fun c => { c with st := .saved, runnable := true }) (base.setFn 0 { base.fn 0 with csa := [(0, 0x10000)], dies := 15 })
     let s := s.poke 0x10080 (leBytes 4 2)
     s.nextPlacement.any fun p => p.1 == .saved 0 && (s.restoreConvoy 0 p.2.1 p.2.2).isSome) = true := by decide +kernel
/-- A grid over, its completion ring at the given count, its record wanted or not. -/
def finished (count : Byte) (noRecord : Bool) (siga : Nat := 0) (scope : SgScope := .die) : State :=
  (onQueue1 4 count).setGrid 0 { Grid.lone with q := 1, retired := 1, noRecord := noRecord, siga := siga, sigv := 1, scope := scope }
/-- A signal made, and what it comes to. -/
def signalled (f : State × Option (BitVec 10) → Bool) : Option (Except State (State × Option (BitVec 10))) → Bool
  | some (.ok q) => f q
  | _ => false
/-- The grid's signal can be made, and its record finds room or not. -/
def completing (s : State) (noRecord room : Bool) : Bool :=
  (s.grid? 0).any fun g => g.depMet && s.allRetired 0 g && s.gridQuiet g && g.scope == .die && !g.signalled && g.noRecord == noRecord &&
    signalled (fun q => (q.1.postCring g.vf g.q (g.doneRecord q.2)).isSome == room) (s.signal g)
theorem witness_GridCompletion : completing (finished 0 true) true true = true := by decide +kernel
theorem witness_GridCompletion_record : completing (finished 0 false) false true = true := by decide +kernel
theorem witness_GridCompletion_full : completing (finished 4 false 0x10900) false false = true := by decide +kernel
theorem witness_GridCompletion_due :
    (let s := finished 0 true 0 .pkg
     (s.grid? 0).any fun g => g.depMet && s.allRetired 0 g && g.scope == .pkg && g.due.isNone) = true := by decide +kernel

/-! ### Pre-emption, power, heat -/

/-- Convoy 0 in a state of its residence, with a save area at 0x10000 whose slot lies in a page of 2 MiB. -/
def preempted (st : ConvSt) : State :=
  cnv (fun c => { c with st := st }) ((base.setFn 0 { base.fn 0 with csa := [(0, 0x10000)] }).poke 0x4020 (leBytes 8 0x80007F))
/-- What a convoy's save needs: it is at rest. -/
def resting (s : State) : Bool :=
  (s.convoy? 0).any fun cv => cv.teardown.isNone && s.savePhase 0 == 5 && s.convoyQuiet 0 && s.enginesRest cv.cluster 0 &&
    (s.wavesOf 0).all fun p => p.2.copies == [] && p.2.sq == []
/-- The convoy's crew has a binding with a dirty line. -/
def bound (st : ConvSt) : State :=
  crw (fun c => { c with binds := [(1, { bind0 with present := [0], dirty := [0] })] })
    ((preempted st).setLineDir 0x10000 { base.lineDir 0x10000 with owner := some 0 })
theorem witness_PreemptionSteps :
    ((base.convoy? 0).any (fun cv => cv.teardown.isNone && cv.st == .resident) &&
     ([ConvSt.saved, .draining].all fun st => ((preempted st).convoy? 0).any fun cv => cv.teardown.isNone && cv.st == st) &&
     resting (preempted .flushing) && ((preempted .flushing).convoy? 0).any (fun cv => cv.st == .flushing) &&
     ([ConvSt.saving, .flushing].all fun st => ((bound st).convoy? 0).any (fun cv => cv.teardown.isNone && cv.st == st) &&
       (bound st).savePhase 0 == 3 && ((bound st).emptyStashes 0).isSome && (((bound st).wavesOf 0).all fun p => p.2.copies == [] && p.2.sq == []) &&
       ((wv (fun w => { w with sq := [entry1 .device 0x10100] }) (preempted st)).wavesOf 0).any fun p => p.2.sq != [])) = true := by
  decide +kernel
theorem witness_PreemptionSteps_save :
    (let s := { preempted .saving with crews := [], waves := [] }
     let s := cnv (fun c => { c with cmemBytes := 0 }) s
     resting s && (s.convoy? 0).any fun cv => cv.st == .saving && (s.firstBadWord 0 cv).isNone && s.handlers 0 == [] &&
       match s.saveTouch cv.vf (cv.cluster / 8) [] with
       | .done s2 =>
         let m := s2.toMilestones 0 (cv.cluster / 8) cv
         (match m.saveLines cv.vf (cv.cluster / 8) (m.savePieces 0 cv []) with
          | .done s3 => (s3.convoy? 0).isSome
          | _ => false)
       | _ => false) = true := by decide +kernel
/-- Cluster 0 changed. -/
def clu (f : Cluster → Cluster) (s : State := base) : State := s.setCluster 0 (f (s.cluster 0))
theorem witness_RailSteps :
    (decide ((base.die 0).code 56 = (base.cluster 0).fnow.toNat) && !(base.cluster 0).busy &&
     decide ((base.die 0).code 32 ≠ (base.cluster 0).fnow.toNat) &&
     (let s := clu (fun c => { c with busy := true }) { base with convoys := [] }
      (s.cluster 0).busy && s.convoys == []) &&
     decide (base.rlim.toNat < base.rlim.toNat + 1) && ((clu fun c => { c with servo := true }).cluster 0).servo &&
     decide (0 < base.mtgt.toNat) && decide (2 * base.mtgt.toNat < 33) &&
     ((List.range 8).map fun i => 8 * 0 + i).all (fun c => decide ((base.cluster c).freq.toNat ≤ 60) &&
       decide ((base.cluster c).fnow.toNat ≤ 60))) = true := by decide +kernel
/-- A die in a power state. -/
def dieAt (st : BitVec 2) (s : State := base) : State := s.setDie 0 { s.die 0 with state := st }
theorem witness_PowerSteps :
    ((let s := base
      let s1 := (s.setDie 0 { s.die 0 with gate := true, cmp := false, state := 1 }).preemptAll .shrink
        ((s.setDie 0 { s.die 0 with gate := true, cmp := false, state := 1 }).convoys.filter fun p => p.2.cluster / 8 == 0 && p.2.placed)
      (s.die 0).state == 0 && (s1.finishGate 0).isNone) &&
     ((dieAt 2).die 0).state == 2 && ((dieAt 3).die 0).state == 3 &&
     ((base.convoys.find? fun p => p.2.index == (1#64).toNat / 2 ^ 40 && p.2.vf == (1#64).toNat / 2 ^ 13 % 128 &&
        p.2.q == (1#64).toNat / 2 % 64 && (p.2.st == .resident || p.2.st == .draining)).any fun p => p.1 == 0) &&
     (base.preempt 0 .driver).any (fun t => (t.convoy? 0).isSome)) = true := by decide +kernel
theorem witness_PowerSteps_gated :
    (let s := dieAt 1 { base with convoys := [], waves := [], crews := [], dir := [] }
     (s.die 0).state == 1 && (s.finishGate 0).isSome) = true := by decide +kernel

/-! ### Translation, the host, the ports and the domain -/

/-- Function 0 changed. -/
def fn0 (f : Fn → Fn) (s : State := base) : State := s.setFn 0 (f (s.fn 0))
theorem witness_TranslationSteps :
    ((base.fn 0).inv.isNone && (base.fn 0).lwatch == [] &&
     ((fn0 fun f => { f with inv := some (0x20000, 0x21000) }).fn 0).inv == some (0x20000, 0x21000) &&
     !(fn0 fun f => { f with inv := some (0x20000, 0x21000) }).inUse 0 (0x20000, 0x21000) &&
     (wv fun w => { w with sq := [entry1 .device 0x10100] }).inUse 0 (0x10000, 0x11000) &&
     (0x8000000000010100#64).getLsbD 63 && (base.lookup 0 0 0x10100).any (fun x => x.cls == 0) &&
     ((farPages base).lookup 0 0 0x11040).any (fun x => x.cls != 0) && (0x8000000000011040#64).getLsbD 63) = true := by decide +kernel
theorem witness_HostSteps :
    (base.hostPlaces 0 0x10100 [7] == some [(0x10100, [7])] && base.hostPlaces 0 0x1013F [7] == some [(0x1013F, [7])] &&
     !base.memLost 0x10100 && !base.memHeld 0x10100 && base.canWrite (homeDie 0x10100) (lineOf 0x10100) &&
     base.hostPlaces 0 0x10100 (List.replicate 1 0) == some [(0x10100, List.replicate 1 0)] && (base.lineErr (lineOf 0x10100)).isNone &&
     base.inBar2 0 0x10100 8 && (base.fn 0).en && (base.fn 0).granule 0x10100 == some 0x10100 && !base.inBar2 0 (2 ^ 40) 8 &&
     (match base.readDevice (homeDie 0x10100) (lineOf 0x10100) with
      | .line _ b _ => b.length == 64
      | _ => false) && !(base.fn 1).en && ((fn0 fun f => { f with msixPend := [3] }).fn 0).msixPend.contains 3 && !(base.fn 0).msixPend.contains 3) =
      true := by decide +kernel
/-- Port 0 changed. -/
def port0 (f : Port → Port) (s : State := base) : State := s.setPort 0 (f (s.port 0))
/-- A flit of no messages, with the given type and number, and a good CRC or a bad one. -/
def flit (ty : BitVec 3) (seq : BitVec 12) (good : Bool) : Flit :=
  let f : Flit := { head := seq.setWidth 64 <<< 52 ||| ty.setWidth 64 <<< 32, slots := List.replicate 15 0, crc := 0 }
  { f with crc := if good then crc64 f.body else ~~~ crc64 f.body }
theorem witness_PortSteps :
    (let s := port0 fun p => { p with up := true, training := false }
     (s.port 0).up && !(flit 0 0 false).crcGood && (flit 0 0 true).crcGood && (flit 0 0 true).seq == (s.port 0).expect &&
       (flit 4 0 true).ftype == 4 && (flit 0 1 true).ftype == 0 && (flit 1 1 true).crcGood && (flit 1 1 true).ftype == 1 &&
       (flit 0 1 true).seq != (s.port 0).expect && (s.port 0).nak.isNone && (flit 2 0 true).crcGood && (flit 2 0 true).ftype == 2) =
      true := by decide +kernel
theorem witness_PortSteps_replay :
    (let s (n : Nat) := port0 fun p => { p with up := true, training := false, nak := some 0, unacked := [{ seq := 1, slots := [], replays := n }] }
     ((s 16).port 0).nak.isSome && [15, 16].all fun n => ((((s n).port 0).unacked.filter fun u => (u.seq - (flit 2 0 true).ack).toNat < 2048).all fun u =>
       decide (u.replays < 16)) == (n == 15)) = true := by decide +kernel
theorem witness_PortSteps_training :
    (let s := port0 fun p => { p with up := true, training := false }
     (s.port 0).unacked == [] && (s.port 0).resend == [] && !(s.port 0).training && !(s.port 0).stopped.getLsbD 4 && !(base.port 0).up &&
       (base.port 0).training && State.reset.waves == [] && (State.reset.port 0).training && (23 : Nat) < 24) = true := by decide +kernel
theorem witness_DomainSteps :
    (let tbl : List (Nat × Byte) := [(0x10404, 1), (0x10440, 1)]
     let s := lay tbl
     (0x10401#64).getLsbD 0 && match s.homeBytes 0 0x10400 0x40 with
       | some h => decide (fieldOf h 4 2 ≤ 256) && (s.homeBytes 0 0x10400 (0x40 + 8 * fieldOf h 4 2)).any fun b => s.groupBad 0 b
       | none => false) &&
     (let s := { base with peers := [(3, { live := true, mem := Img.empty })] }
      (s.peer 3).live && !s.declared.contains 3 && !(s.peers.any fun p => p.2.live && p.1 != 3 && p.1 < s.devId.toNat) &&
        (s.fns.all fun f => f.2.group.all fun g => !g.2.getLsbD 0)) &&
     !({ base with peers := [(3, { live := false, mem := Img.empty })] } : State).peers.any (fun p => p.2.live) = true := by
  decide +kernel

/-! ### Firmware and reliability -/

/-- Keystone and Quarry have started, and a mailbox command of function 0 waits. -/
def booted (op : BitVec 4) (s : State := base) : State :=
  let s := { s with fw := { s.fw with key := true, qry := true } }
  s.setFn 0 { s.fn 0 with fwstat := 1, fwcmd := op.setWidth 64 }
theorem witness_FirmwareSteps :
    ((booted 1).fw.key && (booted 1).fw.qry && !base.fw.key && (booted 1).mailBusy 0 1 && (booted 1).inService &&
     (let s := booted 1 { base with waves := [], convoys := [], grids := [] }
      let s := s.setFn 0 { s.fn 0 with en := false, fwlen := 16 }
      s.mailBusy 0 1 && !s.inService && (imageFault (s.hostBytes (s.mailAddr 0) (s.fn 0).fwlen.toNat) s.fw.floor).isSome) &&
     (booted 2).mailBusy 0 2 && (booted 3).mailBusy 0 3 && !((base.setDie 0 Die.reset).die 0).memReady &&
     !((base.setDie 0 Die.reset).die 0).memFail && (booted 1).fw.answers &&
     !({ base with fw := { base.fw with rcv := true } } : State).fw.answers) = true := by decide +kernel
/-- Function 0 asks for an UPDATE, out of service, with an image of one page: its header, and zeros. -/
def updating : State :=
  let s := booted 1 { base with waves := [], convoys := [], grids := [] }
  let s := s.setFn 0 { s.fn 0 with en := false, fwlen := 0x3000 }
  { s with hostMem := s.hostMem.writes (s.mailAddr 0) (leBytes 8 0x4C4947474C414B00 ++ leBytes 4 0 ++ leBytes 4 4096) }
/-- The image that is staged. -/
def staged : List Byte := updating.hostBytes (updating.mailAddr 0) (updating.fn 0).fwlen.toNat
/-- It is accepted where its hash is right and the fused key signs it: both functions are open (log 10). -/
theorem witness_FirmwareSteps_update (h1 : Config.sha3 (staged.drop 0x2000) = (staged.drop 0x10).take 0x40)
    (h2 : Config.signatureGood (staged.take 0x50 ++ (staged.drop 0x50).take 4627) = true) :
    (updating.mailBusy 0 1 = true ∧ updating.inService = false ∧ (updating.fn 0).fwlen.toNat ≤ 0x2000 + 2 ^ 26) ∧
    updating.hostBytes (updating.mailAddr 0) (updating.fn 0).fwlen.toNat = staged ∧ imageFault staged updating.fw.floor = none := by
  refine ⟨by decide +kernel, rfl, ?_⟩
  have h3 : headerGood staged = true := by decide +kernel
  have h4 : updating.fw.floor = 0 := by decide +kernel
  simp only [imageFault, h1, h2, h3, h4]
  simp
theorem witness_ReliabilitySteps :
    (!(base.core 0).fenced.getLsbD 127 && ((base.setCore 0 { base.core 0 with fenced := 1 }).core 0).fenced.getLsbD 0 &&
     (base.crew? (8 * 0 + 0)).any (fun c => decide (4095 < c.scratchBytes) && !c.bad.contains 4095) &&
     (base.convoy? 0).any (fun c => decide (4095 < c.cmemBytes) && !c.bad.contains 4095) &&
     !((base.stack (hbmStackOf 0)).busySwap.any fun y => y.1 == pchOf 0) &&
     ((base.setStack 0 { base.stack 0 with busySwap := [(0, 5, 64)] }).stack 0).busySwap == [(0, 5, 64)]) = true := by decide +kernel
theorem witness_ReliabilitySteps_due :
    (let s := base.setCore 0 { base.core 0 with due := [3] }
     (s.core 0).due.contains 3 && !(s.core 0).fenced.getLsbD 3 && !(base.core 0).due.contains 3 &&
       !(base.engine 0 0).slateBad.contains 0 && !(base.cluster 0).gravel.bad.contains 0) = true := by decide +kernel

/-! ### Words and steps -/

/-- The word is accepted, with an opcode of the range, and its instruction is well-formed. -/
def accepted (lo hi : Nat) (w : DWord) : Bool :=
  match decode w with
  | .ok i => (opOf i).any (fun n => lo ≤ n && n < hi) && i.wf && opAssigned (w.extractLsb' 56 8).toNat
  | .error _ => false
theorem witness_RoundTripUniformAndInteger :
    ([0x211C0550BB800000, 0x081E0400B8000000, 0x161C000000000000].all fun w => accepted 0 0x40 w) = true := by decide +kernel
theorem witness_RoundTripFloatAndMemory :
    ([0x438808050301E000, 0x6B5E0500B8DC1000].all fun w => accepted 0x40 0x80 w) = true := by decide +kernel
theorem witness_RoundTripEnginesAndSystem :
    ([0x801C020000000001, 0x841C800384800800, 0x8A1C000085000000].all fun w => accepted 0x80 0x100 w) = true := by decide +kernel
theorem witness_RoundTripCairn :
    ((decodeCairn 0x0000250B).any (fun i => i.cairnWord.isSome && i.wf) &&
     (decodeParcel 0x0001).any (fun i => Instr.wf (.cairnBase i true))) = true := by decide +kernel
theorem witness_AcceptedWordsAreEncodings :
    (accepted 0 0x100 0x211C0550BB800000 && (decodeCairn 0x0000250B).isSome) = true := by decide +kernel
/-- The wave's turn comes, with the word at its pc. -/
def turn (w : DWord) : State := { base.poke 0x10008 (leBytes 8 w.toNat) with agenda := [.wave id0], focus := .none }
/-- A turn of slice 0, with the word at its pc. -/
def turnC (w : Word) : State :=
  { base.withCairn w with agenda := [.cairn 0], focus := .none }
theorem witness_StepRuns :
    (let s := turn 0x081E0400B8000000
     let s0 : State := { s with agenda := [], focus := .wave id0 }
     s.powered && decide (s.fab < 256 * (s.leases + 1)) && decide (s.fab < 65536 * (s.windows + 1)) && s.agenda == [.wave id0] && (s0.ctx id0).any fun c => c.w.late.isNone && c.breakpoint.isNone && match c.fetchAt with
       | .ok (x, pa) =>
         let w := s0.codeWord c.cv.grid c.die pa
         s0.touchable x false && !s0.memHeld pa && (s0.lineErr (lineOf pa)).isNone && w == 0x081E0400B8000000 &&
           opAssigned (w.extractLsb' 56 8).toNat && classOf (w.extractLsb' 56 8).toNat == .uni && c.w.clause.isSome &&
           (decode w).toOption.isSome
       | .error _ => false) = true := by decide +kernel
theorem witness_StepRuns_cairn :
    ([(0x0000250B, 3), (0x00000001, 1)].all fun p => let s := turnC (BitVec.ofNat 32 p.1)
      s.agenda == [.cairn 0] && (s.slice 0).inv.any fun v => decide (s.fab - v.start < v.budget) && decide (s.slotUsed 0 v.slot < (s.invSlot 0 v).cap) &&
        decide (v.pc.toNat + 4 ≤ 256 * (s.invSlot 0 v).clen.toNat) && cairnValue s 0 v 2 % 4 == p.2 &&
        ((decodeCairn (BitVec.ofNat 32 (cairnValue s 0 v 4))).isSome || (decodeParcel (BitVec.ofNat 16 (cairnValue s 0 v 2))).isSome)) =
      true := by decide +kernel
/-- The fabric clock at which a lease step falls due, and that of the Cairn cores' next window. -/
theorem witness_StepRuns_due :
    decide (256 * (({ base with fab := 256 } : State).leases + 1) ≤ 256) && decide (65536 < 256 * (({ base with leases := 256 } : State).leases + 1)) &&
      decide (65536 * (base.windows + 1) ≤ 65536) = true := by decide +kernel
theorem witness_StepRuns_event :
    (isEvent (.storeDrain id0) && Instr.wf (.storeDrain id0) && isEvent .deviceReset && Instr.wf .deviceReset) = true := by decide +kernel
theorem witness_UnpoweredMachineWaits :
    (!({ base with powered := false } : State).powered && (Turn.wave id0 != .ev .deviceReset)) = true := by decide +kernel
theorem witness_NothingIsRefused :
    exec (.tail k0) State.reset = .fault .noWave ∧ exec (.clnBud 10) State.reset = .fault .noInvocation := ⟨rfl, rfl⟩
/-- The step runs KMOV, and memory is canonical before it. -/
theorem witness_MemoryStaysCanonical :
    let s := turn 0x081E0400B8000000
    s.agenda = [.wave id0] ∧ s.memWf = true ∧
      (∀ i u, waveTurn { s with agenda := [], focus := .wave id0 } id0 = .run i u → coreOnly i) ∧ ∃ t, step s = .next t := by
  refine ⟨by decide +kernel, by decide +kernel, ?_, ?_⟩
  · intro i u h
    have h2 : (match waveTurn { turn 0x081E0400B8000000 with agenda := [], focus := .wave id0 } id0 with
      | .run i _ => opOf i == some 8
      | _ => false) = true := by decide +kernel
    rw [h] at h2
    exact .inl ⟨8, by simpa using h2, by decide⟩
  · have h : (match step (turn 0x081E0400B8000000) with
      | .next _ => true
      | _ => false) = true := by decide +kernel
    split at h
    · exact ⟨_, ‹_›⟩
    · exact absurd h (by decide)
/-- A wave whose trap frame lies in a mapped page, and its handler in the code page. -/
def trapping : State :=
  let s := base.poke 0x4058 (leBytes 8 0x160007F)
  s.setFn 0 { s.fn 0 with csa := [(0, 0x10000)], trapb := 0x10000 }
theorem witness_TrapEntry :
    ((trapping.wave? id0).any (fun w => (trapping.convoy? 0).any fun cv => w.level == .kernel && (trapping.fn cv.vf).trapb != 0 &&
       match trapping.saveAddr cv.vf (dieOfCore w.core) (trapping.waveRecord cv id0 + 0x300) true with
       | .ok (x, pa) => trapping.touchable x true && (List.range 4).all fun j => trapping.canWrite (dieOfCore w.core) (lineOf (pa + 64 * j))
       | .error _ => false) &&
     (let s := base.setFn 0 { base.fn 0 with trapb := 0x10000 }
      (s.wave? id0).any fun w => (s.convoy? 0).any fun cv => w.level == .kernel && (s.fn cv.vf).trapb != 0 &&
        match s.saveAddr cv.vf (dieOfCore w.core) (s.waveRecord cv id0 + 0x300) true with
        | .ok _ => false
        | .error _ => true) && (base.fn 0).trapb == 0) = true := by decide +kernel
/-- An addition over the source, and whether its checks come to what is asked. -/
def adds (src : Desc) (f : Meta → Ctx → Bool) (s : State := base) : Bool :=
  on s fun c => (regOp (.vadd k (.v 1) (.v 2) (.desc src) .s32 false)).any fun o => f o.1 c
theorem witness_DecodeChecks :
    (adds (.v 32) (fun m c => (m.check c).isSome) &&
     adds (.idx 0 1) (fun m c => (m.check c).isNone && (threadFault c.w m.fields (c.acting m.ctl) fun _ => none).isSome) &&
     adds (.v 31) (fun m c => (m.check c).isNone && c.acting m.ctl == 0 && c.calm m.closer) (wv fun w => { w with active := 0 })) = true := by
  decide +kernel
theorem witness_PredicateSeven : (7 : Nat) < 128 ∧ k.pg = 7 := by decide
theorem witness_E2M1Values : (15 : Nat) < 16 ∧
    (({ fmt := 7, scl := 0, bytes := [0xF0], micro := [0x73] } : KOp).bytes[0]? = some 0xF0) := by decide
theorem witness_E3M5Values : (255 : Nat) < 256 ∧ ([0x7000000, 0x8000000, 0x9000000, 0].any fun x => imageS4 (x / 2 ^ 24) == some true) = true := by
  decide +kernel
/-- The corners of division. -/
theorem witness_CairnArithmetic : (0 : DWord) = 0 ∧ (1 : DWord) ≠ 0 ∧ ¬((1 : DWord).toInt = -2 ^ 63 ∧ (1 : DWord).toInt = -1) ∧
    (0x8000000000000000 : DWord).toInt = -2 ^ 63 ∧ (0xFFFFFFFFFFFFFFFF : DWord).toInt = -1 := by decide

/-! ### Decoding: words that the spec writes out, and words made from its tables -/

/-- The words decode to the instructions beside them. -/
def decodes (l : List (DWord × Instr)) : Bool := l.all fun p => (decode p.1).toOption == some p.2
/-- Inline integers. -/
def n0 : Desc := .inline 16
/-- UNI: 11 (worked example), 15, 16 and 17 (worked examples). -/
theorem test_decode_uniform : decodes [
    (0x081E0400B8000000, .kmov k (.k 2) (.desc n0) .s32), (0x083E0E0000000021, .kmov k (.k 7) (.lit 33) .s64),
    (0x081E1200A9800000, .kmov k (.k 9) (.desc (.special 3)) .s32),
    (0x091E050281800000, .kadd k (.k 2) (.k 2) (.desc (.k 3)) .s32 false), (0x023C01090000001B, .brc k .nz (.k 9) (.lit 27)),
    (0x0324000000000004, .brd { k with pg := 1 } (.lit 4)), (0x043C000000000004, .join k0 (.lit 4)),
    (0x073E1400FFFFFFED, .loop k (.k 10) (.lit 0xFFFFFFED)), (0x013C0000FFFFFFF4, .bra k (.lit 0xFFFFFFF4)),
    (0x161C000000000000, .tail k0)] = true := by decide +kernel
/-- VEC integer: 08 Table 8-5, 11 and 16. -/
theorem test_decode_integer : decodes [
    (0x211C0550BB800000, .vadd k (.v 2) (.special 0) (.desc (.inline 23)) .s32 false),
    (0x233C0602000003E8, .vmul k (.v 3) (.v 2) (.lit 1000) .s32 false false),
    (0x331C0201B8000200, .vcmp k 1 (.v 1) (.desc n0) .s32 .lt .set),
    (0x331C0753B8000800, .vcmp k 3 (.special 3) (.desc n0) .s32 .eq .and),
    (0x2D1C080282000001, .vbfx k (.v 4) (.v 2) (.desc (.k 4)) .n32),
    (0x371C0D7102000C01, .vscan k (.v 6) (.inline 17) (some (.v 4)) .n32 .add true false false),
    (0x371C401F00000401, .vscan k (.v 32) (.v 31) none .n32 .add true false false),
    (0x361C0A0400000001, .vmatch k (.v 5) (.v 4) .n32),
    (0x381C0500A8000101, .vaddr k (.v 2) (.k 0) (.desc (.special 0)) true 1),
    (0x2A3C080400000010, .vshl k (.v 4) (.v 4) (.lit 16) .s32 false)] = true := by decide +kernel
/-- VEC float: 08 Table 8-5, 09 Table 9-10, 12 and 17. -/
theorem test_decode_float : decodes [
    (0x438808050301E000, .fma { sw := true, onc := false, pg := 2, pn := true } (.v 4) (.v 5) (.v 6) (.v 7) .f .rn false),
    (0x401C080604000091, .fadd k (.v 4) (.v 6) (.desc (.v 8)) .d .rz true),
    (0x431C0C0581010000, .fma k (.v 6) (.v 5) (.k 2) (.v 4) .f .rn false),
    (0x581C0E0683800300, .fsrn k (.v 7) (.v 6) (.k 7) .bf16 .f false),
    (0x531C100201800200, .qblk k (.v 8) (.v 2) (.v 3) (.v 0) .e4m3 .f .rn),
    (0x541C1408B8800000, .dqblk k (.v 10) (.v 8) (.inline 17) .f .rn false)] = true := by decide +kernel
/-- The wave executes the instruction once. -/
def once : Ctl := { k with onc := true }
/-- MEM: 13 (worked example), 14 (worked example), 15, 16 and 17. -/
theorem test_decode_memory : decodes [
    (0x6B5E0500B8DC1000, .amdv once (.k 2) (.k 0) (.desc (.inline 17)) n0 { op := .cas, ty := 0, ch := 0, pkg := false }),
    (0x695E0901B8000000, .lddv once (.k 4) (.k 1) (.desc n0) { ty := .s32, ch := 0, tag := false, part := false }),
    (0x695E0100B8000002, .lddv once (.k 0) (.k 0) (.desc n0) { ty := .s64, ch := 0, tag := false, part := false }),
    (0x6A5E0304B8000000, .stdv once (.k 1) (.k 4) (.desc n0) (.v 0) { ty := .s32, ch := 0, tag := false }),
    (0x6A1C0407B8424807, .stdv k (.v 2) (.v 7) (.desc n0) (.k 9) { ty := .n16, ch := 0, tag := true }),
    (0x611C020200435800, .stscPush k 1 (.v 2) (.k 13) false 0 true),
    (0x601C3014B8000008, .ldsc k (.v 24) (.v 20) (.desc n0) { ty := .q, ch := 0, tag := false, part := false }),
    (0x620C100A03800001, .amsc { k with pg := 3 } (.v 8) (.v 10) (.desc (.v 7)) (.v 0) { op := .add, ty := 1, ch := 0, pkg := false }),
    (0x741C000000000040, .barw k0 false 0), (0x751E0700B8000003, .waitv k (.k 3) (.k 0) (.desc n0) .dv .eq false false)] = true := by
  decide +kernel
/-- MTX and GRV: 14 (worked example), 16 and 17. -/
theorem test_decode_engines : decodes [
    (0x801C020000000001, .mres k 1 (.eng 1) none), (0x801C020000000005, .mresGrv k 1), (0x811C000000000005, .mrelGrv k),
    (0x831C010482C18800, .mring k 1 (.k 4) (.k 5) (.k 6)), (0x821C070800000800, .mldb k 1 3 (.k 8) none),
    (0x861C8000BC000800, .mzero k 1 64 (.desc (.inline 24)) false), (0x841C800384800800, .mma k 1 .n8 64 3 (.k 9) none none),
    (0x841C000083800001, .mma k 0 .b16 0 0 (.k 7) none none), (0x871C810BBC430800, .mstc k 1 64 (.k 11) (.inline 24) (.k 12)),
    (0x891E140000000000, .mfnc k (.k 10)), (0x8A1C000085000000, .mwait k (.desc (.k 10))),
    (0x901C0008000000A8, .ggen k 0 (.v 8) 40 false true), (0x901C020A00000028, .ggen k 1 (.v 10) 40 false false),
    (0x961C020100000029, .greg k 1 1 41), (0x921C040000800000, .gand k 2 0 1 false), (0x993C000000000100, .glen k (.lit 256)),
    (0x9A1C0000B8000028, .gseed k 40 (.desc n0)), (0x981E100207000001, .gcmp k (.k 8) 2 (.v 14) true)] = true := by decide +kernel
/-- CPY and SYS: `COPY.DV.SC k1, k2, #15` and `SGNL.ADD.PKG k1, k2` (14 Table 14-6), `TRAP #2` of 17, and `SYSR k3, #10` (14 Table 14-7). -/
theorem test_decode_copy_and_system : decodes [
    (0xA01E0302BF800003, .copy k (.k 1) (.k 2) (.desc (.inline 31)) (.v 0) .dv .sc .none false),
    (0xA31C010181000100, .sgnl k (.k 1) (.k 2) false .pkg),
    (0xB004000000002002, .trap { k with pg := 1, pn := true } 2), (0xB21E06000000000A, .sysr k (.k 3) 10)] = true := by decide +kernel
/-- Xcairn from 07 Table 7-2: `cln.bud a0`, `cln.wr a1, 8(a0)`, `cln.atom.swap a0, a1, a2`; the base instructions `addi ra, zero, 1`
and `c.nop`. -/
theorem test_decode_cairn :
    (decodeCairn 0x0000250B == some (.clnBud 10) && decodeCairn 0x00B5042B == some (.clnWr 10 11 8) &&
     decodeCairn 0x10C5C52B == some (.clnAtom .swap 10 11 12) && decodeCairn 0x00100093 == some (.cairnBase (.opImm .addi 1 0 1) false) &&
     decodeParcel 0x0001 == some (.opImm .addi 0 0 0)) = true := by decide +kernel
/-- An unassigned opcode is one (09 R167). Words that the decoder refuses: a reserved TY and RM (R168, R170), a literal where none may stand
(08 R153), a field that holds no 0 (R152), cln.bud with an immediate and custom-0 funct3 3 (07 R130). -/
theorem test_refused_words :
    ([0x401C080604000094, 0x401C0806040000D1, 0x361C0A0400000201, 0x363C0A0400000001, 0x161C020000000000,
      0x1618000000000000].all (fun w : DWord => (decode w).toOption.isNone) &&
     [0x0010250B, 0x0000300B].all (fun w : Word => (decodeCairn w).isNone) && (decodeParcel 0).isNone &&
     decodes [(0x1F1C000000000000, .unassignedOpcode 0x1F1C000000000000)]) = true := by decide +kernel

/-! ### Ill-formed terms -/

/-- Every term is refused. -/
def illFormed (l : List Instr) : Bool := l.all fun i => !i.wf
/-- A negated guard. -/
def neg : Ctl := { k with pn := true }
/-- A plain load, store and atomic. -/
def ld0 : LdMods := { ty := .s32, ch := 0, tag := false, part := false }
def st0 : StMods := { ty := .s32, ch := 0, tag := false }
def am0 : AmMods := { op := .add, ty := 0, ch := 0, pkg := false }
/-- 08 R153: the literal form with a negated guard, a type or a modifier. -/
theorem test_ill_formed_literals : illFormed [
    .bra neg (.lit 0), .brc k .z (.k 0) (.lit 0), .kmov k (.k 0) (.lit 0) .s32, .kadd k (.k 0) (.k 0) (.lit 0) .s64 true,
    .ksub neg (.k 0) (.k 0) (.lit 0) .s64 false, .kcmp k (.k 0) (.k 0) (.lit 0) .s64 .ne, .rdlane k (.k 0) (.v 0) (.lit 0) true,
    .setiw neg (.k 0) (.lit 0), .vadd k (.v 0) (.v 0) (.lit 0) .n32 false, .vsub k (.v 0) (.v 0) (.lit 0) .s32 true,
    .vcmp k 0 (.v 0) (.lit 0) .s32 .eq .and, .vsel k (.v 0) (.v 0) (.lit 0) .s32 1 false, .vshfl k (.v 0) (.v 0) (.lit 0) .s32 .up false,
    .vaddr k (.v 0) (.v 0) (.lit 0) true 0, .fadd k (.v 0) (.v 0) (.lit 0) .d .rn false, .fmul k (.v 0) (.v 0) (.lit 0) .f .rz false,
    .fsgn k (.v 0) (.v 0) (.lit 0) .f .neg, .fcmp k 0 (.v 0) (.lit 0) .f .ne .set, .ldsc k (.v 0) (.k 0) (.lit 0) { ld0 with ty := .q },
    .stdv k (.k 0) (.v 0) (.lit 0) (.v 0) { st0 with ch := 1 }, .amdv k (.v 0) (.v 0) (.lit 0) (.v 0) { am0 with op := .min },
    .waitv k (.k 0) (.k 0) (.lit 0) .dv .eq false false, .pref k (.k 0) (.lit 0) true, .swb neg (.k 0) (.lit 0),
    .cctl k (.k 0) (.lit 0) .wbi, .mzero k 1 0 (.lit 1) false, .gseed k 1 (.lit 0), .glen neg (.lit 1),
    .copy k (.k 0) (.k 1) (.lit 0) (.v 0) .dv .sc .none false, .grid neg (.k 0) (.lit 0)] = true := by decide +kernel
/-- Modifiers that an instruction does not take, and unused fields that do not hold 0. -/
theorem test_ill_formed_modifiers : illFormed [
    .ksh k (.k 0) (.k 0) (.desc n0) .s32 .shr true, .vote k (.k 0) .any true false 0, .vmul k (.v 0) (.v 0) (.desc n0) .s32 true true,
    .vquo k (.v 0) (.v 0) (.desc n0) .s32 true true, .vscan k (.v 0) (.v 0) none .s32 .min false false true,
    .vaddr k (.v 0) (.v 0) (.desc n0) false 5, .fexp2 k (.v 0) (.v 0) .d .rn false, .flog2 k (.v 0) (.v 0) .d .rn,
    .ftrig k (.v 0) (.v 0) .d false .rn, .cvtf k (.v 0) (.v 0) (.fromCode .fp32) .f .rn false,
    .cvti k (.v 0) (.v 0) false .s32 .f .rn true, .qblk k (.v 0) (.v 0) (.v 0) (.v 0) .s4 .h .rn, .qblk k (.v 0) (.v 0) (.v 0) (.v 1) .int8 .f .rn,
    .qblk k (.v 0) (.v 0) (.v 0) (.v 0) .int8 .d .rn, .dqblk k (.v 0) (.v 0) (.v 0) .d .rn false, .fdot k (.v 0) (.v 0) (.v 0) (.v 0) .f .rn false,
    .fred k (.v 0) (.v 0) .f .min false .rz false, .fsrn k (.v 0) (.v 0) (.v 0) .fp64 .f false, .fsrn k (.v 0) (.v 0) (.v 0) .fp32 .f false,
    .fpack k (.v 0) (.v 0) (.v 0) .fp16 1 .f .rn false, .fpack k (.v 0) (.v 0) (.v 0) .e4m3 2 .f .rn false,
    .ldsc k (.v 0) (.k 0) (.desc n0) { ld0 with part := true }, .lddv k (.v 0) (.k 0) (.desc n0) { ld0 with tag := true },
    .stsc k (.k 0) (.v 0) (.desc n0) (.k 1) st0, .stscPush k 0 (.v 0) (.k 1) false 0 false,
    .amsc k (.v 0) (.v 0) (.desc n0) (.v 0) { am0 with pkg := true }, .amdv k (.v 0) (.v 0) (.desc n0) (.v 1) am0,
    .amdv k (.v 0) (.v 0) (.desc n0) (.v 0) { am0 with op := .incw }, .barw k0 true 8, .evpop k (.v 0) (.k 1) false false,
    .mma k 0 .b16 0 0 (.k 0) none (some (.k 1)), .copy k (.k 0) (.k 1) (.desc n0) (.k 2) .sc .sc .none false,
    .coll k (.k 0) (.k 1) (.k 2) (.k 3) .sum .f 1, .coll k (.k 0) (.k 1) (.k 2) (.k 3) .mean .s32 0] = true := by decide +kernel
/-- Base instructions with no such full-length or compressed encoding. -/
theorem test_ill_formed_cairn : illFormed [
    .cairnBase (.jal 0 1) false, .cairnBase (.branch .beq 0 0 1) false, .cairnBase (.shImm .slliw 1 1 32) false,
    .cairnBase (.lui 2 1) true, .cairnBase (.lui 1 0) true, .cairnBase (.jal 1 2) true, .cairnBase (.jalr 0 0 0) true,
    .cairnBase (.branch .blt 8 0 2) true, .cairnBase (.load .lb 8 8 0) true, .cairnBase (.load .lw 8 8 1) true,
    .cairnBase (.store .sh 8 8 0) true, .cairnBase (.store .sd 8 8 256) true, .cairnBase (.opImm .ori 8 8 0) true,
    .cairnBase (.opImm .addiw 0 0 0) true, .cairnBase (.opImm .addi 8 8 32) true, .cairnBase (.shImm .srli 1 1 1) true,
    .cairnBase (.opReg .add 1 1 0) true, .cairnBase (.opReg .sub 1 1 2) true, .cairnBase (.opReg .mul 8 8 8) true,
    .cairnBase (.auipc 1 0) true] = true := by decide +kernel
/-- Occurrences that name what the device does not have. -/
theorem test_ill_formed_steps : illFormed [
    .assayFillArrival 256 0 none, .leaseFill 256 0, .tickRebase 4, .remoteWriteApply 4 0,
    .peerRequestArrival { dev := 256, fn := 0, vf := 0, fpa := 0, op := .read 8 },
    .peerRequestArrival { dev := 0, fn := 0, vf := 0, fpa := 2 ^ 44, op := .read 8 }, .gravelOpComplete 32 0, .matrixKblock 0 4 ⟨0, []⟩,
    .matrixOpComplete 32 0, .tileTaskRelease 32, .tileTaskRetire 0 ⟨4, []⟩, .tileTaskFault 32 0 0 0, .handlerInvocation 192, .cairnBudgetExpiry 192,
    .cairnShareExhausted 0 8, .cairnRequestFill 192 0, .taskWaveDispatch 0 32, .taskGatherTimeout 0 32, .taskAging 0 32, .doorbell 65 0,
    .qerrClear 65 0, .queueEnable 0 64, .launchRecordAccept 65 0, .dependenceRelease 0 64, .placementBlockingTimeout 65 0,
    .starvationPreempt 0 64, .timeSliceExpiry 32 0, .wakeTableSweep 4, .freqWrite 32 0, .transitionTimeout 32, .servoStep 32 0 0,
    .frailWrite 4 true, .gateDie 4, .wakeDie 4, .selfRefreshEntry 8, .thermalMigrationStep [], .rationStep false (List.replicate 32 256),
    .invctlGo 65, .invalidationDone 65, .ptbrWrite 65 0, .lwatchEnable 0 16 0, .bar2Write 65 0 ⟨[], none⟩, .bar2Read 65 0 0, .cxlMemWrite 65 0 [],
    .cxlMemRead 65 0 0, .flitReceive 24 (flit 0 0 true), .trainingDone 24, .trainingTimeout 24, .failureDetect 256, .declarationApply 256,
    .groupEnable 0 16 0, .fwAttest 65, .fwReservedOp 65 0, .memoryTrainingDone 4, .memoryTrainingFail 4, .katInjection 0 128 true [true, true, true],
    .katInjection 0 0 true [], .scratchScrub (.slate 32 0 0), .scratchScrub (.gravel 0 96), .scratchScrub (.corrected 32 0 false), .scratchScrub (.outside 4 false 0), .scratchScrub (.scratch 0 8 0),
    .scratchScrub (.cmem 0 2), .hbmTransferReceive 1 [.good] none, .hbmTransferReceive 0 [] none, .hbmTransferReceive 0 [.parity 40] none,
    .laneSwapDone 8 0 .good none, .counterClear 4, .registerWrite 65 0 0, .keystoneConfiguration (.slot 192 0 0),
    .keystoneConfiguration (.granule 0 512 0), .keystoneConfiguration (.config 65 0), .keystoneConfiguration (.bind 0 256 none),
    .keystoneConfiguration (.accept 0 [(256, 0)]), .handlerCodeLoad 192 0 .differ, .msiXUnmask 0 66] = true := by decide +kernel

/-! One word for every other constructor, made from the encoding tables. -/

/-- UNI (11 Tables 11-2 and 11-5). -/
theorem test_decode_uniform_rest : (decodes [
    (0x001C000000000000, .nop k0),
    (0x051E060082000000, .call k (.k 3) (.desc (.k 4))),
    (0x061C000081800000, .ret k (.k 3)),
    (0x0A1E030281800003, .ksub k (.k 1) (.k 2) (.desc (.k 3)) .n64 false),
    (0x0B1E030281800082, .kmul k (.k 1) (.k 2) (.desc (.k 3)) .s64 true),
    (0x0C1E030281800001, .kand k (.k 1) (.k 2) (.desc (.k 3)) .n32),
    (0x0D1E030281800000, .kor k (.k 1) (.k 2) (.desc (.k 3)) .s32),
    (0x0E1E830281800000, .kxor k (.h 1) (.k 2) (.desc (.k 3)) .s32),
    (0x0F1E030281800303, .ksh k (.k 1) (.k 2) (.desc (.k 3)) .n64 .ror false),
    (0x101E030281800501, .kcmp k (.k 1) (.k 2) (.desc (.k 3)) .n32 .ge),
    (0x111E030281C10002, .ksel k (.k 1) (.k 2) (.k 3) (.k 4) .s64),
    (0x121E030281C10081, .kmad k (.k 1) (.k 2) (.k 3) (.k 4) .n32 true),
    (0x131E02050000000C, .vote k (.k 1) .ballot true true 5),
    (0x141E020281800001, .rdlane k (.k 1) (.v 2) (.desc (.k 3)) true)] && decodes [
    (0x151C030281800000, .wrlane k (.v 1) (.k 2) (.desc (.k 3)) false),
    (0x171C0102BC000000, .setiw k (.k 2) (.desc (.inline 24)))]) = true := by decide +kernel
/-- VEC integer (11 Table 11-7), VMOV in its three kinds. -/
theorem test_decode_integer_rest : (decodes [
    (0x201C020001000000, .vmov k (.reg (.v 1) (.desc (.v 2))) .s32),
    (0x201C040002800180, .vmov k (.toIdx 2 (.v 5) true) .s32),
    (0x201C0E0001800201, .vmov k (.fromIdx (.v 7) 3) .n32),
    (0x221C0350B9800000, .vsub k (.v 1) (.special 0) (.desc (.inline 19)) .s32 false),
    (0x241C040403020003, .vmad k (.v 2) (.v 4) (.v 6) (.v 8) .n64 false),
    (0x251C020201800100, .vquo k (.v 1) (.v 2) (.desc (.v 3)) .s32 true false),
    (0x261C020201800000, .vand k (.v 1) (.v 2) (.desc (.v 3)) .s32),
    (0x271C020201800001, .vor k (.v 1) (.v 2) (.desc (.v 3)) .n32),
    (0x281C0202C0800000, .vxor k (.v 1) (.v 2) (.desc (.idx 0 1)) .s32),
    (0x291C020201800000, .vbic k (.v 1) (.v 2) (.desc (.v 3)) .s32),
    (0x2B1C040403000002, .vshr k (.v 2) (.v 4) (.desc (.v 6)) .s64),
    (0x2C1C020201810100, .vfun k (.v 1) (.v 2) (.v 3) (.v 4) .s32 true),
    (0x2E1C020201810000, .vbfi k (.v 1) (.v 2) (.v 3) (.v 4) .s32),
    (0x2F1C020200000301, .vcnt k (.v 1) (.v 2) .brev .n32)] && decodes [
    (0x301C020201800000, .vmin k (.v 1) (.v 2) (.desc (.v 3)) .s32),
    (0x311C020201800001, .vmax k (.v 1) (.v 2) (.desc (.v 3)) .n32),
    (0x321C020201800080, .vabsd k (.v 1) (.v 2) (.desc (.v 3)) .s32 true),
    (0x341C020201800D00, .vsel k (.v 1) (.v 2) (.desc (.v 3)) .s32 5 true),
    (0x351C020201801300, .vshfl k (.v 1) (.v 2) (.desc (.v 3)) .s32 .xor true),
    (0x391C020201810001, .vprm k (.v 1) (.v 2) (.v 3) (.v 4) true)]) = true := by decide +kernel
/-- VEC float (12 Table 12-1). -/
theorem test_decode_float_rest : (decodes [
    (0x411C020201800042, .fsub k (.v 1) (.v 2) (.desc (.v 3)) .h .ra false),
    (0x421C020201800023, .fmul k (.v 1) (.v 2) (.desc (.v 3)) .b .rd false),
    (0x441C020201800000, .fmin k (.v 1) (.v 2) (.desc (.v 3)) .f),
    (0x451C020201800002, .fmax k (.v 1) (.v 2) (.desc (.v 3)) .h),
    (0x461C020201800200, .fsgn k (.v 1) (.v 2) (.desc (.v 3)) .f .xor),
    (0x471C080201801700, .fcmp k 4 (.v 2) (.desc (.v 3)) .f .ord .or),
    (0x481C020200000003, .fclass k (.v 1) (.v 2) .b),
    (0x491C020200000030, .frcp k (.v 1) (.v 2) .f .ru false),
    (0x4A1C020200000080, .frsq k (.v 1) (.v 2) .f .rn true),
    (0x4B1C040400000011, .fsqrt k (.v 2) (.v 4) .d .rz),
    (0x4C1C020201800000, .fdiv k (.v 1) (.v 2) (.desc (.v 3)) .f .rn false),
    (0x4D1C020200000000, .fexp2 k (.v 1) (.v 2) .f .rn false),
    (0x4E1C020200000002, .flog2 k (.v 1) (.v 2) .h .rn),
    (0x4F1C020200000100, .ftrig k (.v 1) (.v 2) .f true .rn)] && decodes [
    (0x501C020200000010, .frnd k (.v 1) (.v 2) .f .rz),
    (0x511C020200000400, .cvtf k (.v 1) (.v 2) (.toCode .e4m3) .f .rn false),
    (0x511C020200001600, .cvtf k (.v 1) (.v 2) (.fromCode .e2m1) .f .rn false),
    (0x521C040300000000, .cvti k (.v 2) (.v 3) false .s32 .f .rn false),
    (0x521C040400001200, .cvti k (.v 2) (.v 4) true .s64 .f .rn false),
    (0x551C020200000100, .hadm k (.v 1) (.v 2) .f true .rn false),
    (0x561C020201810003, .fdot k (.v 1) (.v 2) (.v 3) (.v 4) .b .rn false),
    (0x571C020200001200, .fred k (.v 1) (.v 2) .f .max true .rn false),
    (0x591C020201800C00, .fpack k (.v 1) (.v 2) (.v 3) .e4m3 1 .f .rn false)]) = true := by decide +kernel
/-- MEM (13 Tables 13-2 and 13-6; 09 Table 9-5). -/
theorem test_decode_memory_rest : (decodes [
    (0x611C0202BA000005, .stsc k (.v 1) (.v 2) (.desc (.inline 20)) (.v 0) { ty := .n8, ch := 0, tag := false }),
    (0x631C0202B8000016, .ldsh k (.v 1) (.v 2) (.desc n0) { ty := .s16, ch := 1, tag := false, part := false }),
    (0x641E0202B8414800, .stsh k (.k 1) (.v 2) (.desc n0) (.k 5) { ty := .s32, ch := 0, tag := true }),
    (0x651C030201801201, .amsh k (.v 1) (.k 2) (.desc (.v 3)) (.v 0) { op := .incw, ty := 1, ch := 0, pkg := false }),
    (0x663C0202FFFFFFFC, .ldcv k (.v 1) (.v 2) (.lit 0xFFFFFFFC) { ty := .s32, ch := 0, tag := false, part := false }),
    (0x671C0202B8000003, .stcv k (.v 1) (.v 2) (.desc n0) (.v 0) { ty := .n64, ch := 0, tag := false }),
    (0x681C020201800602, .amcv k (.v 1) (.v 2) (.desc (.v 3)) (.v 0) { op := .max, ty := 2, ch := 0, pkg := false }),
    (0x6B1C030201800D00, .amdv k (.v 1) (.k 2) (.desc (.v 3)) (.v 0) { op := .xor, ty := 0, ch := 0, pkg := true }),
    (0x6C1C0302B8000821, .ldpr k (.v 1) (.k 2) (.desc n0) { ty := .n32, ch := 2, tag := true, part := false }),
    (0x6D1E0202B8000000, .stpr k (.k 1) (.v 2) (.desc n0) (.v 0) { ty := .s32, ch := 0, tag := false }),
    (0x6E1C030201800E00, .ampr k (.v 1) (.k 2) (.desc (.v 3)) (.v 0) { op := .swap, ty := 0, ch := 0, pkg := false }),
    (0x6F1C0302B8001004, .ldhs k (.v 1) (.k 2) (.desc n0) { ty := .s8, ch := 0, tag := false, part := true }),
    (0x701E0202B8000007, .sths k (.k 1) (.v 2) (.desc n0) (.v 0) { ty := .n16, ch := 0, tag := false }),
    (0x711C030201800203, .amhs k (.v 1) (.k 2) (.desc (.v 3)) (.v 0) { op := .fadd, ty := 3, ch := 0, pkg := false })] && decodes [
    (0x721C000000000140, .fence k .dom),
    (0x731C000000000611, .waitc k .dom 17),
    (0x761C0101BC000001, .pref k (.k 1) (.desc (.inline 24)) true),
    (0x773C010100000040, .disc k (.k 1) (.lit 64)),
    (0x781C01018140C002, .smap k 2 (.k 1) (.k 2) (.k 3)),
    (0x781C000000000007, .smapUnb k 3),
    (0x791C010181000000, .swb k (.k 1) (.desc (.k 2))),
    (0x7A1C010181000002, .cctl k (.k 1) (.desc (.k 2)) .l1inv),
    (0x7B1E090100000003, .evpop k (.k 4) (.k 1) true true)]) = true := by decide +kernel
/-- MTX and GRV (14 Tables 14-2 and 14-5). -/
theorem test_decode_engines_rest : (decodes [
    (0x801C04008180000C, .mres k 2 .any (some (.k 3))),
    (0x811C000000000003, .mrel k 3),
    (0x821C0B0181001001, .mldb k 2 5 (.k 1) (some (.k 2))),
    (0x841FFE3F80C0983C, .mma k 3 .n8 511 63 (.k 1) (some 3) (some (.k 2))),
    (0x851C010100000802, .mcmt k 1 2 (.k 1)),
    (0x881C0F018140C801, .mldc k 1 7 (.k 1) (.k 2) (.k 3) true),
    (0x8B1C010100000000, .taskq k (.k 1)),
    (0x8C1C01018140C000, .tsten k (.k 1) (.k 2) (.k 3)),
    (0x8D1E032C00000800, .aownRd k 1 (.k 1) 300),
    (0x8D1E590100000801, .aownWr k 1 300 (.k 1)),
    (0x911C041F00000002, .gcnt k (.v 2) 31 .b),
    (0x931C020201800001, .gxnr k 1 2 3 true),
    (0x941C020201810000, .gmux k 1 2 3 4 false),
    (0x951C04030000001F, .gacc k (.v 2) 3 31)] && decodes [
    (0x973C020200000005, .gshf k 1 2 (.lit 5)),
    (0x9B1C020200000000, .gmov k 1 2),
    (0x9B1C030200000001, .gmovLd k 1 (.k 2)),
    (0x9B1E020200000002, .gmovSt k (.k 1) 2)]) = true := by decide +kernel
/-- CPY and SYS (14 Tables 14-6 and 14-7). -/
theorem test_decode_copy_and_system_rest : (decodes [
    (0xA01E030281C106D8, .copy k (.k 1) (.k 2) (.desc (.k 3)) (.k 4) .sc .dv .e4m3h32 true),
    (0xA11E030282000025, .cpy2 k (.k 1) (.k 2) (.k 4) .hs .pr),
    (0xA21C000202414000, .task k (.v 2) (.v 4) (.k 5)),
    (0xA31C010181000181, .sgnl k (.k 1) (.k 2) true .sys),
    (0xA43C010100000003, .grid k (.k 1) (.lit 3)),
    (0xA51C010182000000, .cmsg k (.k 1) (.k 4)),
    (0xA61C070182000001, .cbuf k 3 (.k 1) (.k 4) true),
    (0xA71E030281C10134, .coll k (.k 1) (.k 2) (.k 3) (.k 4) .bcast .s32 9),
    (0xB11C000000000000, .rte k0),
    (0xB31C010100000005, .sysw k 5 (.k 1)),
    (0xB41E030200000015, .probe k (.k 1) (.k 2) .hs .am),
    (0xB51C000000000000, .achk k)]) = true := by decide +kernel
/-- Xcairn (07 Table 7-2). -/
theorem test_decode_cairn_rest : (([
    (0x0102830B, .clnRd 6 5 16),
    (0x0030130B, .clnGet 6 3),
    (0x0020400B, .clnDone 2),
    (0x0090538B, .clnKeep 7 9),
    (0x0000600B, .clnDrop),
    (0x003110AB, .clnReq 1 2 3),
    (0x003120AB, .clnFwd 1 2 3),
    (0x0001302B, .clnRply 2),
    (0x003150AB, .clnEvq 1 2 3)] : List (Word × Instr)).all fun p => decodeCairn p.1 == some p.2) = true := by
  decide +kernel
/-- RV64IMC, Zicsr and Zifencei (07 R127), in full length and as parcels: `li a0, 5`, `ld a0, 8(a1)`, `mv a0, a1`, `add a0, a0, a1`,
`slli a0, a0, 2`, `ret`, `sd a0, 8(a1)`. -/
theorem test_decode_base : ((([
    (0x123452B7, .lui 5 0x12345),
    (0x00001297, .auipc 5 1),
    (0x008000EF, .jal 1 8),
    (0x004100E7, .jalr 1 2 4),
    (0x00208463, .branch .beq 1 2 8),
    (0x00833283, .load .ld 5 6 8),
    (0x00533423, .store .sd 6 5 8),
    (0x4210D093, .shImm .srai 1 1 33),
    (0x023130B3, .opReg .mulhu 1 2 3),
    (0x403100BB, .opReg .subw 1 2 3),
    (0x0FF0000F, .fence 0 0 0xFF),
    (0x0000100F, .fenceI 0 0 0),
    (0xC00022F3, .csrRead .cycle false 5)] : List (Word × RvInstr)).all fun p => decodeCairn p.1 == some (.cairnBase p.2 false)) &&
  (([
    (0x4515, .opImm .addi 10 0 5),
    (0x6588, .load .ld 10 11 8),
    (0x852E, .opReg .add 10 0 11),
    (0x952E, .opReg .add 10 10 11),
    (0x050A, .shImm .slli 10 10 2),
    (0x8082, .jalr 0 1 0),
    (0xE588, .store .sd 11 10 8)] : List (BitVec 16 × RvInstr)).all fun p => decodeParcel p.1 == some p.2)) = true := by
  decide +kernel

end Sys2Proof.Tests
end

section
/-!
PROOFS. The agent of each instruction (01 R15, 07 R129): an instruction whose agent is in focus has a next state; settles O8.
-/
namespace Sys2Proof.Machine

open Sys2Proof Sys2Proof.Ob

/-! ### Whose step an instruction is -/

/-- Who carries out an instruction: a wave, a Cairn core, or the device of its own accord (01 R15, 07 R129). -/
inductive Actor where
  | wave
  | cairn
  | device

/-- Kalgil words, clause headers and unassigned words are a wave's; Cairn words and parcels a Cairn core's; every other row of the
table is a step of the device. -/
def actor (i : Instr) : Actor :=
  match i with
  | .clauseHeaderDecode _ | .unassignedOpcode _ => .wave
  | .cairnBase _ _ => .cairn
  | _ => if i.fields.isSome then .wave else if i.cairnWord.isSome then .cairn else .device

/-- The agent that an instruction needs is the one in focus. -/
def inFocus (s : State) : Actor → Prop
  | .wave => Ctx.of s ≠ none
  | .cairn => ∃ n v, runsCairn s n v
  | .device => True

/-- The fault of an instruction whose agent is not in focus. -/
def Actor.absent : Actor → Option Fault
  | .wave => some .noWave
  | .cairn => some .noInvocation
  | .device => none

/-- An outcome is a next state, or the fault of an absent agent. -/
def Answers (s : State) (a : Actor) (o : Host.Outcome State Fault Refusal) : Prop :=
  (∃ t, o = .next t) ∨ ¬inFocus s a ∧ ∃ f, a.absent = some f ∧ o = .fault f

/-- A next state answers. -/
theorem answers_next (s t : State) (a : Actor) : Answers s a (.next t) := .inl ⟨t, rfl⟩

/-- An instruction of a wave has a next state where a wave is in focus. -/
theorem answers_instrEach (s : State) (m : Meta) (own : Ctx → Option (BitVec 10))
    (each : Ctx → Lanes → Nat → Option (BitVec 10 × Nat)) (body : Ctx → Lanes → Verdict) :
    Answers s .wave (instrEach s m own each body) := by
  unfold instrEach
  cases h : Ctx.of s with
  | none => exact .inr ⟨fun hf => hf h, _, rfl, rfl⟩
  | some c => exact answers_next ..

/-- A Cairn instruction has a next state where an invocation is in focus. -/
theorem answers_cairn (s : State) (len : Nat) (body : State → Nat → Invoc → CairnRes) : Answers s .cairn (cairn s len body) := by
  have absent (h : ∀ n v, ¬runsCairn s n v) : Answers s .cairn (.fault .noInvocation) :=
    .inr ⟨fun ⟨n, v, hr⟩ => h n v hr, _, rfl, rfl⟩
  unfold cairn
  cases hf : s.focus with
  | none => exact absent fun n v h => by simp [runsCairn, hf] at h
  | wave id => exact absent fun n v h => by simp [runsCairn, hf] at h
  | cairn n =>
    dsimp only
    cases hi : (s.slice n).inv with
    | none =>
      refine absent fun m v h => ?_
      obtain ⟨hm, hv⟩ := h
      cases hf.symm.trans hm
      cases hi.symm.trans hv
    | some v => dsimp only; split <;> exact answers_next ..

/-- A line instruction is a Cairn instruction. -/
theorem answers_lineInstr (s : State) (o : Invoc → DWord) (act : State → Nat → Invoc → Nat → CairnRes) :
    Answers s .cairn (lineInstr s o act) := answers_cairn ..

/-- 01 R15, 07 R129. Every instruction answers: with a next state, or with the fault of its absent agent. -/
theorem exec_answers (i : Instr) (s : State) : Answers s (actor i) (exec i s) := by
  cases i
  case vmov c op ty => cases op <;> exact answers_instrEach ..
  case cvti c d a toFloat ity ty rm sat => cases toFloat <;> exact answers_instrEach ..
  case unassignedOpcode w =>
    show Answers s .wave (execUnassignedOpcode w s)
    unfold execUnassignedOpcode
    cases h : Ctx.of s with
    | none => exact .inr ⟨fun hf => hf h, _, rfl, rfl⟩
    | some c => exact answers_next ..
  case clauseHeaderDecode w =>
    show Answers s .wave (execClauseHeaderDecode w s)
    unfold execClauseHeaderDecode
    cases h : Ctx.of s with
    | none => exact .inr ⟨fun hf => hf h, _, rfl, rfl⟩
    | some c =>
      dsimp only
      split
      · exact answers_next ..
      · split <;> exact answers_next ..
  case nop | bra | brc | brd | join | call | ret | loop | kmov | kadd | ksub | kmul | kand | kor | kxor | ksh | kcmp |
      ksel | kmad | vote | rdlane | wrlane | tail | setiw | vadd | vsub | vmul | vmad | vquo | vand | vor |
      vxor | vbic | vshl | vshr | vfun | vbfx | vbfi | vcnt | vmin | vmax | vabsd | vcmp | vsel | vshfl | vmatch |
      vscan | vaddr | vprm | fadd | fsub | fmul | fma | fmin | fmax | fsgn | fcmp | fclass | frcp | frsq | fsqrt |
      fdiv | fexp2 | flog2 | ftrig | frnd | cvtf | qblk | dqblk | hadm | fdot | fred | fsrn | fpack | ldsc |
      stsc | stscPush | amsc | ldsh | stsh | amsh | ldcv | stcv | amcv | lddv | stdv | amdv | ldpr | stpr | ampr |
      ldhs | sths | amhs | fence | waitc | barw | waitv | pref | disc | smap | smapUnb | swb | cctl | evpop | mres |
      mresGrv | mrel | mrelGrv | mldb | mring | mma | mcmt | mzero | mstc | mldc | mfnc | mwait | taskq | tsten |
      aownRd | aownWr | ggen | gcnt | gand | gxnr | gmux | gacc | greg | gshf | gcmp | glen | gseed | gmov | gmovLd |
      gmovSt | copy | cpy2 | task | sgnl | grid | cmsg | cbuf | coll | trap | rte | sysr | sysw | probe | achk =>
    exact answers_instrEach ..
  case clnRd | clnWr | clnAtom =>
    dsimp only [exec]
    exact answers_lineInstr ..
  case clnGet | clnBud | clnDone | clnKeep | clnReq | clnFwd | clnRply | clnEvq | cairnBase | clnDrop =>
    dsimp only [exec]
    exact answers_cairn ..
  all_goals exact answers_next ..

/-- An instruction whose agent is in focus has a next state. -/
theorem exec_next_of_inFocus {i : Instr} {s : State} (h : inFocus s (actor i)) : ∃ t, exec i s = .next t :=
  (exec_answers i s).resolve_right fun ⟨hn, _⟩ => hn h

/-- A fault tells that the agent whose absence it names is not in focus. -/
theorem not_inFocus_of_fault {i : Instr} {s : State} {f : Fault} (h : exec i s = .fault f) :
    (actor i).absent = some f ∧ ¬inFocus s (actor i) := by
  rcases exec_answers i s with ⟨t, ht⟩ | ⟨hn, g, hg, hf⟩
  · cases h.symm.trans ht
  · cases h.symm.trans hf
    exact ⟨hg, hn⟩

/-- Settles O8: every instruction's outcome is a next state or the fault of its absent agent (`exec_answers`). -/
theorem nothingIsRefused : Obligations.NothingIsRefused := by
  intro i s
  refine ⟨fun r h => ?_, fun h => ?_, fun h n v hr => ?_⟩
  · rcases exec_answers i s with ⟨t, ht⟩ | ⟨-, f, -, hf⟩
    · cases h.symm.trans ht
    · cases h.symm.trans hf
  · obtain ⟨ha, hn⟩ := not_inFocus_of_fault h
    cases hi : actor i with
    | wave => rw [hi] at hn; exact not_not.1 hn
    | cairn => rw [hi] at ha; cases ha
    | device => rw [hi] at ha; cases ha
  · obtain ⟨ha, hn⟩ := not_inFocus_of_fault h
    cases hi : actor i with
    | wave => rw [hi] at ha; cases ha
    | cairn => rw [hi] at hn; exact hn ⟨n, v, hr⟩
    | device => rw [hi] at ha; cases ha

end Sys2Proof.Machine
end

section
/-!
PROOFS. What the decoders give: Kalgil words are instructions of a wave, Cairn words of a Cairn core, and what an agenda admits is a step of
the device.
-/
namespace Sys2Proof.Machine

open Sys2Proof Sys2Proof.Ob

/-! ### What the decoders give -/

/-- Whatever the decoder accepts is a wave's instruction. -/
structure GivesWave (k : Dec) : Prop where
  actor_eq : ∀ i, k = .ok i → actor i = .wave

theorem givesWave_ok {i : Instr} (h : actor i = .wave) : GivesWave (.ok i) := ⟨fun _ e => by cases e; exact h⟩

theorem givesWave_error (e : DErr) : GivesWave (.error e) := ⟨fun _ h => by cases h⟩

theorem givesWave_ite {p : Prop} [Decidable p] {k l : Dec} (hk : GivesWave k) (hl : GivesWave l) :
    GivesWave (if p then k else l) := by
  split
  · exact hk
  · exact hl

theorem givesWave_req {b : Bool} {k : Dec} (h : GivesWave k) : GivesWave (req b k) :=
  givesWave_ite h (givesWave_error _)

theorem givesWave_sub {α : Type} {o : Option α} {k : α → Dec} (h : ∀ a, GivesWave (k a)) : GivesWave (sub o k) := by
  cases o with
  | none => exact givesWave_error _
  | some a => exact h a

theorem givesWave_noLit {v : View} {k : Dec} (h : GivesWave k) : GivesWave (v.noLit k) := by
  unfold View.noLit
  split
  · split <;> exact givesWave_error _
  · exact h

theorem givesWave_uni (v : View) (op : Nat) : GivesWave (v.uni op) := by
  unfold View.uni
  split <;> repeat' (intros; apply_rules only [givesWave_req, givesWave_sub, givesWave_noLit, givesWave_ok])
  all_goals rfl

theorem givesWave_vmov (v : View) : GivesWave v.vmov := by
  unfold View.vmov
  refine givesWave_req (givesWave_sub fun ty => ?_)
  split <;> apply_rules only [givesWave_req, givesWave_ok, givesWave_error]
  all_goals rfl

theorem givesWave_vecInt (v : View) (op : Nat) : GivesWave (v.vecInt op) := by
  unfold View.vecInt
  split <;> repeat' (intros; apply_rules only [givesWave_vmov, givesWave_req, givesWave_sub, givesWave_noLit, givesWave_ok])
  all_goals rfl

theorem givesWave_vecFloat (v : View) (op : Nat) : GivesWave (v.vecFloat op) := by
  unfold View.vecFloat
  split <;> repeat' (intros; apply_rules only [givesWave_req, givesWave_sub, givesWave_noLit, givesWave_ok])
  all_goals rfl

theorem givesWave_mem (v : View) (op : Nat) : GivesWave (v.mem op) := by
  unfold View.mem
  split <;> repeat' (intros; apply_rules only [givesWave_req, givesWave_sub, givesWave_noLit, givesWave_ite, givesWave_ok])
  all_goals rfl

theorem givesWave_mtx (v : View) (op : Nat) : GivesWave (v.mtx op) := by
  unfold View.mtx
  split <;> repeat' (intros; apply_rules only [givesWave_req, givesWave_sub, givesWave_noLit, givesWave_ite, givesWave_ok])
  all_goals rfl

theorem givesWave_grv (v : View) (op : Nat) : GivesWave (v.grv op) := by
  unfold View.grv
  split <;> repeat' (intros; apply_rules only [givesWave_req, givesWave_sub, givesWave_noLit, givesWave_ite, givesWave_ok])
  all_goals rfl

theorem givesWave_cpy (v : View) (op : Nat) : GivesWave (v.cpy op) := by
  unfold View.cpy
  split <;> repeat' (intros; apply_rules only [givesWave_req, givesWave_sub, givesWave_noLit, givesWave_ite, givesWave_ok])
  all_goals rfl

theorem givesWave_sys (v : View) (op : Nat) : GivesWave (v.sys op) := by
  unfold View.sys
  split <;> repeat' (intros; apply_rules only [givesWave_req, givesWave_sub, givesWave_noLit, givesWave_ite, givesWave_ok])
  all_goals rfl

/-- The decoder of 64-bit words gives instructions of a wave (08 Table 8-3). -/
theorem givesWave_decode (w : DWord) : GivesWave (decode w) := by
  unfold decode
  refine givesWave_ite ?_ (givesWave_ok rfl)
  unfold decodeFields
  apply_rules only [givesWave_ite, givesWave_uni, givesWave_vecInt, givesWave_vecFloat, givesWave_mem, givesWave_mtx, givesWave_grv,
    givesWave_cpy, givesWave_sys]

/-- The decoder of Cairn words gives instructions of a Cairn core (07 Table 7-2). -/
theorem actor_of_decodeCairn {w : Word} {i : Instr} (h : decodeCairn w = some i) : actor i = .cairn := by
  unfold decodeCairn at h
  split at h
  · unfold decodeCustom0 at h
    dsimp only at h
    repeat' split at h
    all_goals cases h <;> rfl
  · split at h
    · unfold decodeCustom1 at h
      dsimp only at h
      split at h
      case h_5 =>
        obtain ⟨op, -, rfl⟩ := Option.map_eq_some_iff.1 h
        rfl
      all_goals
        repeat' split at h
        all_goals cases h <;> rfl
    · obtain ⟨r, -, rfl⟩ := Option.map_eq_some_iff.1 h
      rfl

/-- A base instruction with a short form has a parcel (07 R127). -/
theorem parcel_isSome {r : RvInstr} (h : r.hasShort = true) : r.parcel.isSome = true := by
  cases r
  case load op rd rs1 imm => cases op <;> simp_all [RvInstr.hasShort, RvInstr.parcel, apply_ite Option.isSome]
  case store op rs1 rs2 imm => cases op <;> simp_all [RvInstr.hasShort, RvInstr.parcel, apply_ite Option.isSome]
  case opImm op rd rs1 imm => cases op <;> simp_all [RvInstr.hasShort, RvInstr.parcel, apply_ite Option.isSome]
  case shImm op rd rs1 sh => cases op <;> simp_all [RvInstr.hasShort, RvInstr.parcel]
  case opReg op rd rs1 rs2 => cases op <;> simp_all [RvInstr.hasShort, RvInstr.parcel]
  case lui | jal | jalr | branch => rfl
  case auipc | fence | fenceI | csrRead => cases h

/-- A well-formed row of the table that has no word and is no header is a step of the device. -/
theorem actor_of_isEvent {i : Instr} (he : isEvent i = true) (hw : i.wf = true) : actor i = .device := by
  have hn : encode i = none := by
    cases hc : encode i with
    | none => rfl
    | some c => simp [isEvent, hc] at he
  unfold actor
  split
  · simp [isEvent, hn] at he
  · cases hn
  · rename_i r short
    cases short with
    | true =>
      have hp : r.parcel.isSome = true := parcel_isSome hw
      rw [Option.map_eq_none_iff.1 (show r.parcel.map Code.parcel = none from hn)] at hp
      cases hp
    | false => cases hn
  · unfold encode at hn
    split at hn
    · cases hn
    · rename_i hb
      exact absurd rfl (hb _ _)
    · cases hf : i.fields with
      | some f => rw [hf] at hn; cases hn
      | none =>
        rw [hf] at hn
        rw [Option.map_eq_none_iff.1 hn]
        rfl

end Sys2Proof.Machine
end

section
/-!
PROOFS. What a fetch, and a write of device memory, leave of the agents: every wave that has a setting keeps one.
-/
namespace Sys2Proof.Machine

open Sys2Proof Sys2Proof.Ob

/-! ### Settings that a write leaves

A fetch may set ACC in a leaf, a write of device memory. It leaves every wave that has a setting with one. -/

/-- Focus, waves, crews, convoys and grids stand in the second state as in the first. -/
def sameAgents (s t : State) : Prop :=
  t.focus = s.focus ∧ t.waves = s.waves ∧ t.crews = s.crews ∧ t.convoys = s.convoys ∧ t.grids = s.grids

theorem sameAgents.trans {s t u : State} (h : sameAgents s t) (g : sameAgents t u) : sameAgents s u := by
  obtain ⟨h1, h2, h3, h4, h5⟩ := h
  obtain ⟨g1, g2, g3, g4, g5⟩ := g
  exact ⟨g1.trans h1, g2.trans h2, g3.trans h3, g4.trans h4, g5.trans h5⟩

/-- The focus stands, and a wave with a setting has one still. -/
def keepsSettings (s t : State) : Prop := t.focus = s.focus ∧ ∀ id, (s.ctx id).isSome = true → (t.ctx id).isSome = true

theorem keepsSettings.refl (s : State) : keepsSettings s s := ⟨rfl, fun _ => id⟩

theorem keepsSettings.trans {s t u : State} (h : keepsSettings s t) (g : keepsSettings t u) : keepsSettings s u :=
  ⟨g.1.trans h.1, fun id hs => g.2 id (h.2 id hs)⟩

/-- What keeps settings step by step keeps them through a fold. -/
theorem keepsSettings_foldl {α : Type} {f : State → α → State} (hf : ∀ s x, keepsSettings s (f s x)) (l : List α) (s : State) :
    keepsSettings s (l.foldl f s) := by
  induction l generalizing s with
  | nil => exact .refl s
  | cons x r ih => exact (hf s x).trans (ih _)

/-- A wave's setting, part by part. -/
theorem ctx_isSome_iff (s : State) (id : WaveId) : (s.ctx id).isSome = true ↔
    ∃ w cw cv g, s.wave? id = some w ∧ s.crew? (crewKeyOf id) = some cw ∧ s.convoy? id.conv = some cv ∧ s.grid? cv.grid = some g ∧
      (w.ended || cv.st == .saving || cv.st == .flushing || cv.st == .saved) = false := by
  unfold State.ctx
  cases s.wave? id with
  | none => simp
  | some w =>
    cases s.crew? (crewKeyOf id) with
    | none => simp
    | some cw =>
      cases s.convoy? id.conv with
      | none => simp
      | some cv =>
        cases hg : s.grid? cv.grid with
        | none => simp [hg]
        | some g => simp [hg]

/-- Settings are kept where waves stay as ended as they were, crews stay, and convoys stay in their state and grid. -/
theorem keepsSettings_of {s t : State} (hf : t.focus = s.focus) (hg : t.grids = s.grids)
    (hw : ∀ k w, look s.waves k = some w → ∃ w', look t.waves k = some w' ∧ w'.ended = w.ended)
    (hc : ∀ k c, look s.crews k = some c → ∃ c', look t.crews k = some c')
    (hv : ∀ k v, look s.convoys k = some v → ∃ v', look t.convoys k = some v' ∧ (v'.st, v'.grid) = (v.st, v.grid)) :
    keepsSettings s t := by
  refine ⟨hf, fun id h => ?_⟩
  obtain ⟨w, cw, cv, g, h1, h2, h3, h4, h5⟩ := (ctx_isSome_iff s id).1 h
  obtain ⟨w', hw', he⟩ := hw _ _ h1
  obtain ⟨cw', hc'⟩ := hc _ _ h2
  obtain ⟨cv', hv', hsg⟩ := hv _ _ h3
  obtain ⟨hst, hgr⟩ := Prod.mk.inj hsg
  refine (ctx_isSome_iff t id).2 ⟨w', cw', cv', g, hw', hc', hv', ?_, by rw [he, hst]; exact h5⟩
  rw [hgr]
  exact (congrArg (look · cv.grid) hg).trans h4

theorem sameAgents.keepsSettings {s t : State} (h : sameAgents s t) : keepsSettings s t := by
  obtain ⟨hf, hw, hc, hv, hg⟩ := h
  exact keepsSettings_of hf hg (fun k w e => ⟨w, hw ▸ e, rfl⟩) (fun k c e => ⟨c, hc ▸ e⟩) (fun k v e => ⟨v, hv ▸ e, rfl⟩)

/-- A map whose values change in place: an entry stays under its key, with what the change leaves of it. -/
theorem look_map_keeps {α β : Type} (g : α → β) {f : Nat × α → Nat × α} (hf : ∀ p, (f p).1 = p.1 ∧ g (f p).2 = g p.2)
    {m : NMap α} {k : Nat} {a : α} (h : look m k = some a) : ∃ a', look (m.map f) k = some a' ∧ g a' = g a := by
  induction m with
  | nil => cases h
  | cons p r ih =>
    have hk : f p = (p.1, (f p).2) := Prod.ext (hf p).1 rfl
    rw [List.map_cons, hk]
    simp only [look] at h ⊢
    split
    · rename_i e
      rw [if_pos e] at h
      cases h
      exact ⟨_, rfl, (hf p).2⟩
    · rename_i e
      rw [if_neg e] at h
      exact ih h

/-- Waves woken keep their settings, and saved convoys marked runnable theirs. -/
theorem keepsSettings_wakeLine (s : State) (d line : Nat) : keepsSettings s (wakeLine s d line) := by
  unfold wakeLine
  dsimp only
  split
  · refine keepsSettings_of rfl rfl (fun k w h => look_map_keeps Wave.ended ?_ h) (fun k c h => ⟨c, h⟩) (fun k v h => ⟨v, h, rfl⟩)
    rintro ⟨k, w⟩
    dsimp only
    repeat' split
    all_goals exact ⟨rfl, rfl⟩
  · refine keepsSettings_of rfl rfl (fun k w h => look_map_keeps Wave.ended ?_ h) (fun k c h => ⟨c, h⟩)
      (fun k v h => look_map_keeps (fun v => (v.st, v.grid)) ?_ h)
    · rintro ⟨k, w⟩
      dsimp only
      repeat' split
      all_goals exact ⟨rfl, rfl⟩
    · rintro ⟨k, v⟩
      dsimp only
      split <;> exact ⟨rfl, rfl⟩

/-- What stands posted for the watches on a line leaves every agent. -/
theorem sameAgents_watchWrite (s : State) (w : LineWrite) (who : Writer) : sameAgents s (s.watchWrite w who) := by
  have fold (l : List (Nat × Nat)) (s : State) (f : Nat × Nat → List Byte) :
      sameAgents s (l.foldl (fun s p => s.postEvent p.1 (f p)) s) := by
    induction l generalizing s with
    | nil => exact ⟨rfl, rfl, rfl, rfl, rfl⟩
    | cons p r ih => exact (show sameAgents s (s.postEvent p.1 (f p)) from ⟨rfl, rfl, rfl, rfl, rfl⟩).trans (ih _)
  exact fold _ s fun p => eventRecord 2 0 0 who.code 0 p.2 0 0 (byteMask w)

theorem sameAgents_sliceWrite (s : State) (line : Nat) (w : Writer) : sameAgents s (s.sliceWrite line w) := by
  have rebase (s : State) (d t : Nat) : sameAgents s (s.rebaseAt d t) := by
    unfold State.rebaseAt
    split <;> exact ⟨rfl, rfl, rfl, rfl, rfl⟩
  have h := rebase s (homeDie line) ((s.lineDir line).rts.toNat + 1)
  unfold State.sliceWrite
  generalize s.rebaseAt (homeDie line) ((s.lineDir line).rts.toNat + 1) = t at h
  refine h.trans ?_
  cases w <;> exact ⟨rfl, rfl, rfl, rfl, rfl⟩

/-- A write that takes its place in a die's order keeps the settings. -/
theorem keepsSettings_applyAt (s : State) (d : Nat) (w : LineWrite) (who : Writer) : keepsSettings s (s.applyAt d w who) := by
  have code : sameAgents s (if d = homeDie w.line then keepCode s d w else s) := by split <;> exact ⟨rfl, rfl, rfl, rfl, rfl⟩
  unfold State.applyAt
  dsimp only
  generalize (if d = homeDie w.line then keepCode s d w else s) = t at code
  have woken := code.keepsSettings.trans ((show sameAgents t (invalidateAssay (t.setDie d ((t.die d).apply t.hbm w)) d w.line) from
    ⟨rfl, rfl, rfl, rfl, rfl⟩).keepsSettings.trans (keepsSettings_wakeLine _ d w.line))
  generalize wakeLine (invalidateAssay (t.setDie d ((t.die d).apply t.hbm w)) d w.line) d w.line = u at woken
  refine woken.trans (sameAgents.keepsSettings ?_)
  split
  · have record (v : State) (h : sameAgents u v) : sameAgents u ((v.sliceWrite w.line who).watchWrite w who) :=
      h.trans ((sameAgents_sliceWrite v w.line who).trans (sameAgents_watchWrite _ w who))
    split
    · exact record _ ⟨rfl, rfl, rfl, rfl, rfl⟩
    · exact record _ ⟨rfl, rfl, rfl, rfl, rfl⟩
  · exact ⟨rfl, rfl, rfl, rfl, rfl⟩

/-- A write that leaves for the other dies keeps the settings. -/
theorem sameAgents_sendPkg (s : State) (d : Nat) (w : LineWrite) (a : Bool) : sameAgents s (s.sendPkg d w a) := ⟨rfl, rfl, rfl, rfl, rfl⟩

/-- A write applied at another die keeps the settings. -/
theorem keepsSettings_applyNow (s : State) (w : LineWrite) (e : Nat) : keepsSettings s (s.applyNow w e) := by
  have remote (i : Nat) : keepsSettings s (s.remoteApply i e) := by
    unfold State.remoteApply
    split
    · exact .refl s
    · exact (keepsSettings_applyAt ..).trans (sameAgents.keepsSettings ⟨rfl, rfl, rfl, rfl, rfl⟩)
  unfold State.applyNow
  split
  · exact remote _
  · exact .refl s

/-- A write that every die sees at once keeps the settings. -/
theorem keepsSettings_writeEverywhere (s : State) (d : Nat) (w : LineWrite) (who : Writer) :
    keepsSettings s (s.writeEverywhere d w who) :=
  ((keepsSettings_applyAt s d w who).trans (sameAgents_sendPkg ..).keepsSettings).trans
    (keepsSettings_foldl (fun s e => keepsSettings_applyNow s w e) _ _)

/-! ### The slices' requests -/

theorem sameAgents_enqueue (s : State) (n : Nat) (t : Trigger) : sameAgents s (s.enqueue n t).1 := by
  unfold State.enqueue
  dsimp only
  repeat' split
  all_goals exact ⟨rfl, rfl, rfl, rfl, rfl⟩

theorem sameAgents_setLineDir (s : State) (line : Nat) (l : LineDir) : sameAgents s (s.setLineDir line l) := ⟨rfl, rfl, rfl, rfl, rfl⟩

theorem sameAgents_l2Gone (s : State) (line : Nat) (b : Bool) : sameAgents s (s.l2Gone line b) := by
  unfold State.l2Gone
  split <;> exact ⟨rfl, rfl, rfl, rfl, rfl⟩

theorem sameAgents_exitRefresh (s : State) (line : Nat) : sameAgents s (s.exitRefresh line) := by
  unfold State.exitRefresh
  dsimp only
  split <;> exact ⟨rfl, rfl, rfl, rfl, rfl⟩

theorem sameAgents_writeBack (s : State) (line : Nat) : sameAgents s (s.writeBack line) := by
  have array (u : State) (h : sameAgents s u) : sameAgents s ((u.exitRefresh line).l2Gone line true) :=
    h.trans ((sameAgents_exitRefresh u line).trans (sameAgents_l2Gone _ line true))
  unfold State.writeBack
  dsimp only
  refine (array _ ?_).trans (sameAgents_setLineDir ..)
  exact ⟨rfl, rfl, rfl, rfl, rfl⟩

theorem sameAgents_evictNow (s : State) (line : Nat) : sameAgents s (s.evictNow line) := by
  unfold State.evictNow
  dsimp only
  split
  · exact (sameAgents_writeBack s line).trans (sameAgents_setLineDir ..)
  · exact (sameAgents_l2Gone s line false).trans (sameAgents_setLineDir ..)

theorem sameAgents_evict (s : State) (line : Nat) : sameAgents s (s.evict line) := by
  unfold State.evict
  dsimp only
  split
  · exact ⟨rfl, rfl, rfl, rfl, rfl⟩
  · split
    · split
      · exact (sameAgents_enqueue s _ _).trans (sameAgents_setLineDir ..)
      · exact (sameAgents_enqueue s _ _).trans (sameAgents_evictNow ..)
    · exact sameAgents_evictNow s line

theorem sameAgents_raiseFill (s : State) (line h q : Nat) : sameAgents s (s.raiseFill line h q) := by
  unfold State.raiseFill
  dsimp only
  split
  · exact sameAgents_enqueue ..
  · exact ⟨rfl, rfl, rfl, rfl, rfl⟩

theorem sameAgents_announce (s : State) (line va vf set h q : Nat) : sameAgents s (s.announce line va vf set h q) :=
  (sameAgents_setLineDir s line _).trans (sameAgents_raiseFill ..)

theorem sameAgents_makeRoom (s : State) (line : Nat) : sameAgents s (s.makeRoom line) := by
  unfold State.makeRoom
  split
  · exact ⟨rfl, rfl, rfl, rfl, rfl⟩
  · split
    · exact sameAgents_evict ..
    · exact ⟨rfl, rfl, rfl, rfl, rfl⟩

theorem sameAgents_install (s : State) (line va vf set h q : Nat) (b : Bool) : sameAgents s (s.install line va vf set h q b) := by
  unfold State.install
  dsimp only
  split
  · split
    · exact (sameAgents_setLineDir s line _).trans (sameAgents_announce ..)
    · exact sameAgents_setLineDir ..
  · have room := ((sameAgents_makeRoom s line).trans (sameAgents_exitRefresh _ line)).trans (sameAgents_setLineDir _ line
      { ((s.makeRoom line).exitRefresh line).lineDir line with
        present := true, requested := false, unannounced := !b, set := set, vf := vf, va := lineOf va, evicting := false,
        recent := ((s.makeRoom line).exitRefresh line).freeCtr })
    split
    · exact room.trans (sameAgents_raiseFill ..)
    · exact room

theorem sameAgents_checkedLine (s : State) (line va vf set q : Nat) : sameAgents s (s.checkedLine line va vf set q) := by
  have used : sameAgents s (s.prefetchUsed line) := by
    unfold State.prefetchUsed
    split <;> exact ⟨rfl, rfl, rfl, rfl, rfl⟩
  unfold State.checkedLine
  dsimp only
  refine used.trans ?_
  generalize s.prefetchUsed line = t
  split
  · split
    · exact (sameAgents_setLineDir t line _).trans (sameAgents_announce ..)
    · exact sameAgents_setLineDir ..
  · split
    · exact ⟨rfl, rfl, rfl, rfl, rfl⟩
    · split
      · split
        · exact (sameAgents_enqueue t _ _).trans (sameAgents_setLineDir ..)
        · exact (sameAgents_enqueue t _ _).trans (sameAgents_install ..)
      · exact sameAgents_install ..

/-! ### Stash lines given up, writes of agents, the leaf of a translation -/

/-- A stash line dropped leaves every crew. -/
theorem keepsSettings_dropStash (s : State) (line : Nat) : keepsSettings s (s.dropStash line) := by
  unfold State.dropStash
  split
  · exact (sameAgents_setLineDir ..).keepsSettings
  · refine keepsSettings_of rfl rfl (fun k w h => ⟨w, h, rfl⟩) (fun k c h => ?_) (fun k v h => ⟨v, h, rfl⟩)
    rename_i key old _ _
    by_cases e : k = key
    · subst e
      exact ⟨_, look_ins_self _ _ _⟩
    · exact ⟨c, (look_ins_ne _ _ e).trans h⟩

theorem keepsSettings_giveBack (s : State) (line : Nat) : keepsSettings s (s.giveBack line) := by
  unfold State.giveBack
  split
  · exact keepsSettings_dropStash ..
  · have dropped (t : State) (h : sameAgents s t) : keepsSettings s (t.dropStash line) :=
      h.keepsSettings.trans (keepsSettings_dropStash ..)
    dsimp only
    split
    · exact (dropped _ (sameAgents_checkedLine ..)).trans (keepsSettings_writeEverywhere ..)
    · exact dropped _ (sameAgents_checkedLine ..)

/-- A write of device memory keeps the settings. -/
theorem keepsSettings_devWrite (s : State) (d : Nat) (w : LineWrite) (who : Writer) : keepsSettings s (s.devWrite d w who) := by
  have written (t : State) : keepsSettings t ((t.applyAt d w who).sendPkg d w false) :=
    (keepsSettings_applyAt ..).trans (sameAgents_sendPkg ..).keepsSettings
  unfold State.devWrite
  dsimp only
  split
  · exact (keepsSettings_giveBack ..).trans (written _)
  · exact written s

/-- An access of a page keeps the settings: ACC and DTY set in its leaf, its translation cached (21 R362, R363). -/
theorem keepsSettings_touch_cache (s : State) (x : Xlat) (wr : Bool) (vf va : Nat) :
    keepsSettings s ((s.touch x wr).cache vf va x) := by
  have touched : keepsSettings s (s.touch x wr) := by
    unfold State.touch
    dsimp only
    split
    · exact .refl s
    · exact keepsSettings_devWrite ..
  refine touched.trans (sameAgents.keepsSettings ?_)
  unfold State.cache
  dsimp only
  split <;> exact ⟨rfl, rfl, rfl, rfl, rfl⟩

/-- A free value drawn keeps the settings. -/
theorem keepsSettings_draw (s : State) : keepsSettings s s.draw := sameAgents.keepsSettings ⟨rfl, rfl, rfl, rfl, rfl⟩

end Sys2Proof.Machine
end

section
/-!
PROOFS. The turn of every state comes to a step that can be made; settles O9.
-/
namespace Sys2Proof.Machine

open Sys2Proof Sys2Proof.Ob


/-! ### Every turn comes to a step that can be made -/

/-- What a turn comes to can be made: the agent of the instruction it names is in focus. -/
def Act.ready : Act → Prop
  | .run i t => inFocus t (actor i)
  | .due i t => inFocus t (actor i)
  | .done _ => True

theorem ready_run {i : Instr} {t : State} {a : Actor} (ha : actor i = a) (h : inFocus t a) : (Act.run i t).ready := by
  subst ha
  exact h

/-- A step of the device can be made in every state. -/
theorem ready_run_device {i : Instr} {t : State} (h : actor i = .device) : (Act.run i t).ready := ready_run h trivial

/-- A wave's word, decoded, is for the wave in focus. -/
theorem decodeWord_ready {c : Ctx} {t : State} {w : DWord} (h : inFocus t .wave) : (c.decodeWord t w).ready := by
  unfold Ctx.decodeWord
  cases c.w.clause with
  | none => exact ready_run rfl h
  | some cl =>
    dsimp only
    repeat' split
    · exact ready_run rfl h
    · trivial
    · rename_i i hi
      exact ready_run ((givesWave_decode w).actor_eq i hi) h
    · trivial
    · trivial

/-- What keeps the settings keeps a wave in focus. -/
theorem keepsSettings.inFocus_wave {s t : State} (h : keepsSettings s t) {id : WaveId} (hf : s.focus = .wave id)
    (hc : (s.ctx id).isSome = true) : inFocus t .wave := by
  have ht : Ctx.of t = t.ctx id := by
    unfold Ctx.of
    rw [h.1, hf]
  show Ctx.of t ≠ none
  rw [ht]
  exact Option.isSome_iff_ne_none.1 (h.2 id hc)

/-- A wave's turn comes to an instruction of that wave, or to a state. -/
theorem waveTurn_ready {s : State} {id : WaveId} (hf : s.focus = .wave id) : (waveTurn s id).ready := by
  unfold waveTurn
  cases hc : s.ctx id with
  | none => trivial
  | some c =>
    have fetched (x : Xlat) : keepsSettings s ((s.touch x false).cache c.vf c.w.pc.toNat x) := keepsSettings_touch_cache ..
    have some_ctx : (s.ctx id).isSome = true := by rw [hc]; rfl
    dsimp only
    split
    · trivial
    · split
      · split <;> trivial
      · split
        · trivial
        · split
          · trivial
          · split
            · trivial
            · refine decodeWord_ready ?_
              split
              · exact (fetched _).inFocus_wave hf some_ctx
              · exact ((fetched _).trans (keepsSettings_draw _)).inFocus_wave hf some_ctx

/-- A Cairn core's turn comes to an instruction of the invocation on it, to a step of the device, or to a state. -/
theorem cairnTurn_ready {s : State} {n : Nat} (hf : s.focus = .cairn n) : (cairnTurn s n).ready := by
  unfold cairnTurn
  cases hv : (s.slice n).inv with
  | none => trivial
  | some v =>
    have running : inFocus s .cairn := ⟨n, v, hf, hv⟩
    dsimp only
    split
    · exact ready_run_device rfl
    · split
      · exact ready_run_device rfl
      · split
        · trivial
        · split
          · split
            · exact ready_run rfl running
            · trivial
          · split
            · trivial
            · split
              · exact ready_run (actor_of_decodeCairn ‹_›) running
              · trivial

/-! ### The device's own steps are the device's -/

/-- A step that is offered, if any, is the device's. -/
def OffersDevice (o : Option Instr) : Prop := ∀ i, o = some i → actor i = .device

theorem offersDevice_none : OffersDevice none := fun _ h => by cases h

theorem offersDevice_some {i : Instr} (h : actor i = .device) : OffersDevice (some i) := fun _ e => by cases e; exact h

theorem offersDevice_ifSome {α : Type} (r : Option α) {i : Instr} (h : actor i = .device) : OffersDevice (ifSome r i) := by
  unfold ifSome
  split
  · exact offersDevice_some h
  · exact offersDevice_none

theorem offersDevice_orElse {o : Option Instr} {k : Unit → Option Instr} (ho : OffersDevice o) (hk : OffersDevice (k ())) :
    OffersDevice (o.orElse k) := by
  cases o with
  | none => exact hk
  | some i => exact ho

theorem offersDevice_map {α : Type} {o : Option α} {f : α → Instr} (h : ∀ a, actor (f a) = .device) : OffersDevice (o.map f) := by
  intro i hi
  obtain ⟨a, -, rfl⟩ := Option.map_eq_some_iff.1 hi
  exact h a

theorem offersDevice_findSome? {α : Type} {l : List α} {f : α → Option Instr} (h : ∀ a ∈ l, OffersDevice (f a)) :
    OffersDevice (l.findSome? f) := by
  intro i hi
  obtain ⟨a, ha, hf⟩ := List.exists_of_findSome?_eq_some hi
  exact h a ha i hf

theorem offersDevice_pkgStep (s : State) : OffersDevice s.pkgStep :=
  offersDevice_findSome? fun _ _ => offersDevice_map fun _ => rfl

theorem offersDevice_crewStep (s : State) (k : Nat) (c : Crew) : OffersDevice (s.crewStep k c) :=
  offersDevice_findSome? fun _ _ => offersDevice_ifSome _ rfl

theorem offersDevice_coreStep (s : State) (n : Nat) (c : Core) : OffersDevice (s.coreStep n c) :=
  offersDevice_findSome? fun _ _ => offersDevice_ifSome _ rfl

theorem offersDevice_missStep (s : State) (n : Nat) (c : Core) : OffersDevice (s.missStep n c) := offersDevice_map fun _ => rfl

theorem offersDevice_sliceStep (s : State) (n : Nat) (x : Slice) : OffersDevice (s.sliceStep n x) :=
  offersDevice_orElse (offersDevice_ifSome _ rfl) (offersDevice_findSome? fun _ _ => offersDevice_ifSome _ rfl)

theorem offersDevice_convoyStep (s : State) (k : Nat) (cv : Convoy) : OffersDevice (s.convoyStep k cv) := by
  unfold State.convoyStep
  split
  · exact offersDevice_ifSome _ rfl
  · exact offersDevice_ifSome _ rfl
  · exact offersDevice_ifSome _ rfl
  · exact offersDevice_none
  · exact offersDevice_none

theorem offersDevice_placeStep (s : State) : OffersDevice s.placeStep := by
  unfold State.placeStep
  split
  · exact offersDevice_ifSome _ rfl
  · exact offersDevice_ifSome _ rfl
  · exact offersDevice_none

theorem offersDevice_fnStep (s : State) (vf : Nat) (f : Fn) : OffersDevice (s.fnStep vf f) :=
  offersDevice_orElse (offersDevice_ifSome _ rfl) (offersDevice_findSome? fun _ _ =>
    offersDevice_orElse (offersDevice_ifSome _ rfl) (offersDevice_ifSome _ rfl))

/-- A die's gating or waking that comes to its end. -/
theorem offersDevice_gate (s : State) (d : Nat) : OffersDevice (if (s.die d).state = 1 then ifSome (s.finishGate d) (.gateDie d)
    else if (s.die d).state = 3 then some (.wakeDie d) else none) := by
  split
  · exact offersDevice_ifSome _ rfl
  · split
    · exact offersDevice_some rfl
    · exact offersDevice_none

theorem offersDevice_dueNow (s : State) : OffersDevice s.dueNow := by
  unfold State.dueNow
  split
  · exact offersDevice_some rfl
  · split
    · exact offersDevice_some rfl
    · exact offersDevice_none

/-! ### Every chance of the round -/

/-- Whatever a turn, if there is one, comes to can be made. -/
def TurnReady (o : Option Act) : Prop := ∀ a, o = some a → a.ready

theorem turnReady_none : TurnReady none := fun _ h => by cases h

theorem turnReady_done (o : Option State) : TurnReady (o.map .done) := by
  intro a ha
  obtain ⟨t, -, rfl⟩ := Option.map_eq_some_iff.1 ha
  trivial

theorem turnReady_run {o : Option Instr} (h : OffersDevice o) (t : State) : TurnReady (o.map fun i => .run i t) := by
  intro a ha
  obtain ⟨i, hi, rfl⟩ := Option.map_eq_some_iff.1 ha
  exact ready_run_device (h i hi)

theorem turnReady_orElse {o : Option Act} {k : Unit → Option Act} (ho : TurnReady o) (hk : TurnReady (k ())) :
    TurnReady (o.orElse k) := by
  cases o with
  | none => exact hk
  | some a => exact ho

theorem turnReady_chance {α : Type} (s : State) (r : Unit → Option α) {i : Instr} (h : actor i = .device) :
    TurnReady (chance s r i ()) := by
  unfold chance
  split
  · rintro _ ⟨⟩
    exact ready_run_device h
  · exact turnReady_none

/-- A round in which every chance comes to what can be made. -/
def RoundReady (l : List Chance) : Prop := ∀ f ∈ l, TurnReady (f ())

theorem roundReady_nil : RoundReady [] := fun _ h => by cases h

theorem roundReady_cons {f : Chance} {l : List Chance} (hf : TurnReady (f ())) (hl : RoundReady l) : RoundReady (f :: l) :=
  List.forall_mem_cons.2 ⟨hf, hl⟩

theorem roundReady_append {l m : List Chance} (hl : RoundReady l) (hm : RoundReady m) : RoundReady (l ++ m) :=
  List.forall_mem_append.2 ⟨hl, hm⟩

theorem roundReady_map {α : Type} {l : List α} {f : α → Chance} (h : ∀ a, TurnReady (f a ())) : RoundReady (l.map f) :=
  List.forall_mem_map.2 fun a _ => h a

theorem roundReady_flatMap {α : Type} {l : List α} {f : α → List Chance} (h : ∀ a, RoundReady (f a)) : RoundReady (l.flatMap f) := by
  intro c hc
  obtain ⟨a, -, ha⟩ := List.mem_flatMap.1 hc
  exact h a c ha

theorem roundReady_waveSteps (s : State) (k : Nat) (w : Wave) : RoundReady (s.waveSteps k w) := by
  unfold State.waveSteps
  have coll (o : Option State) (b : Prop) [Decidable b] : TurnReady (if b then none else o.map .done) := by
    split
    · exact turnReady_none
    · exact turnReady_done o
  exact roundReady_cons (turnReady_chance _ _ rfl) (roundReady_cons (turnReady_chance _ _ rfl)
    (roundReady_cons (turnReady_done _) (roundReady_cons (coll _ _) (roundReady_cons (turnReady_chance _ _ rfl)
    (roundReady_cons (turnReady_chance _ _ rfl) (roundReady_cons (turnReady_chance _ _ rfl) roundReady_nil))))))

theorem roundReady_clusterSteps (s : State) (n : Nat) (c : Cluster) : RoundReady (s.clusterSteps n c) := by
  have engine (e : Nat) : RoundReady
      [chance s (fun _ => s.kblockStep n e 128 []) (.matrixKblock n e ⟨128, []⟩), chance s (fun _ => s.matrixStep n e) (.matrixOpComplete n e),
       chance s (fun _ => s.tileRetire n e []) (.tileTaskRetire n ⟨e, []⟩)] :=
    roundReady_cons (turnReady_chance _ _ rfl) (roundReady_cons (turnReady_chance _ _ rfl)
      (roundReady_cons (turnReady_chance _ _ rfl) roundReady_nil))
  have timeout (b : Prop) [Decidable b] (t : State) : TurnReady (if b then some (.run (.transitionTimeout n) t) else none) := by
    split
    · rintro _ ⟨⟩
      exact ready_run_device rfl
    · exact turnReady_none
  exact roundReady_append (roundReady_cons (turnReady_chance _ _ rfl) (roundReady_flatMap engine))
    (roundReady_cons (turnReady_chance _ _ rfl) (roundReady_cons (timeout _ _) roundReady_nil))

/-- A core's chances: a reload of its assay cache, an answer to a miss slot, known-answer operations. -/
theorem roundReady_core (s t : State) (n : Nat) (c : Core) : RoundReady
    [fun _ => (s.coreStep n c).map fun i => .run i t, fun _ => (s.missStep n c).map fun i => .run i t,
     fun _ => (s.dueKat n c).map .done] :=
  roundReady_cons (turnReady_run (offersDevice_coreStep _ _ _) t) (roundReady_cons (turnReady_run (offersDevice_missStep _ _ _) t)
    (roundReady_cons (turnReady_done _) roundReady_nil))

/-- Everything that the device itself may do can be made. -/
theorem roundReady_chances (s : State) : RoundReady s.chances := by
  unfold State.chances
  repeat' apply roundReady_append
  · exact roundReady_cons (turnReady_done _) (roundReady_cons (turnReady_done _) (roundReady_cons (turnReady_done _)
      (roundReady_cons (turnReady_run (offersDevice_placeStep s) _) (roundReady_flatMap fun _ => roundReady_waveSteps _ _ _))))
  · exact roundReady_map fun _ => turnReady_run (offersDevice_convoyStep _ _ _) _
  · exact roundReady_map fun _ => turnReady_run (offersDevice_ifSome _ rfl) _
  · exact roundReady_map fun _ => turnReady_done _
  · exact roundReady_map fun _ => turnReady_run (offersDevice_fnStep _ _ _) _
  · exact roundReady_map fun _ => turnReady_run (offersDevice_crewStep _ _ _) _
  · exact roundReady_flatMap fun _ => roundReady_core _ _ _ _
  · exact roundReady_flatMap fun _ => roundReady_clusterSteps _ _ _
  · exact roundReady_map fun _ => turnReady_run (offersDevice_sliceStep _ _ _) _
  · exact roundReady_map fun _ => turnReady_run (offersDevice_gate _ _) _
  · exact roundReady_cons (turnReady_run (offersDevice_map fun _ => rfl) _) roundReady_nil

/-! ### Whose turn it is -/

/-- The focus names a wave that has a setting. -/
theorem inFocus_wave_iff (s : State) : inFocus s .wave ↔ ∃ id, s.focus = .wave id ∧ (s.ctx id).isSome = true := by
  show Ctx.of s ≠ none ↔ _
  unfold Ctx.of
  cases s.focus with
  | none => simp
  | wave id => simp [Option.isSome_iff_ne_none]
  | cairn n => simp

/-- The place in the device's round is nobody's focus. -/
theorem inFocus_devPos {t : State} {a : Actor} (k : Nat) (h : inFocus t a) : inFocus { t with devPos := k } a := by
  cases a with
  | wave =>
    obtain ⟨id, hf, hc⟩ := (inFocus_wave_iff t).1 h
    exact (sameAgents.keepsSettings ⟨rfl, rfl, rfl, rfl, rfl⟩ : keepsSettings t { t with devPos := k }).inFocus_wave hf hc
  | cairn => exact h
  | device => trivial

/-- The device's turn: a write that a die applies, or a chance of its round. -/
theorem deviceTurn_ready (s : State) : TurnReady s.deviceTurn := by
  unfold State.deviceTurn
  cases hp : s.pkgStep with
  | some i =>
    rintro _ ⟨⟩
    exact ready_run_device (offersDevice_pkgStep s i hp)
  | none =>
    intro a ha
    obtain ⟨b, hb, rfl⟩ := Option.map_eq_some_iff.1 ha
    obtain ⟨f, hf, hfb⟩ := List.exists_of_findSome?_eq_some hb
    have ready : b.ready := by
      refine roundReady_chances s f ?_ b hfb
      exact (List.mem_append.1 hf).elim List.mem_of_mem_drop List.mem_of_mem_take
    cases b with
    | run i t => exact inFocus_devPos _ ready
    | done t => trivial
    | due i t => exact ready

/-- The turn of the first wave that can run. -/
theorem waveFrom_ready (s : State) (lo : Nat) : TurnReady (s.waveFrom lo) := by
  intro a ha
  obtain ⟨p, -, rfl⟩ := Option.map_eq_some_iff.1 ha
  exact waveTurn_ready rfl

/-- The turn of the first running invocation. -/
theorem cairnFrom_ready (s : State) (lo : Nat) : TurnReady (s.cairnFrom lo) := by
  intro a ha
  obtain ⟨p, -, rfl⟩ := Option.map_eq_some_iff.1 ha
  exact cairnTurn_ready rfl

/-- The turn of the next agent that can do something; where there is none, the state stands. -/
theorem rotate_ready (s : State) : s.rotate.ready := by
  have standing {o : Option Act} (h : TurnReady o) : (o.getD (.done s)).ready := by
    cases o with
    | none => trivial
    | some a => exact h a rfl
  refine standing ?_
  split
  · exact turnReady_orElse (waveFrom_ready _ _) (turnReady_orElse (cairnFrom_ready _ _)
      (turnReady_orElse (deviceTurn_ready s) (waveFrom_ready _ _)))
  · exact turnReady_orElse (cairnFrom_ready _ _) (turnReady_orElse (deviceTurn_ready s)
      (turnReady_orElse (waveFrom_ready _ _) (cairnFrom_ready _ _)))
  · exact turnReady_orElse (waveFrom_ready _ _) (turnReady_orElse (cairnFrom_ready _ _) (deviceTurn_ready s))

/-- A well-formed step of the device is all that an agenda admits. -/
theorem actor_of_admits {s : State} {i : Instr} (h : s.admits i = true) : actor i = .device := by
  unfold State.admits at h
  simp only [Bool.and_eq_true] at h
  obtain ⟨⟨he, hw⟩, -⟩ := h
  exact actor_of_isEvent he hw

/-- What a turn comes to only where the supply is on. -/
theorem ready_powered {p : Prop} [Decidable p] {a : Act} {t : State} (h : a.ready) : (if p then a else .done t).ready := by
  split
  · exact h
  · trivial

/-- Whatever the state, its turn comes to what can be made: a step that is due, the head of the agenda, or the next agent's. -/
theorem turn_ready (s : State) : s.turn.ready := by
  unfold State.turn
  split
  · rename_i i hi
    refine ready_run_device (t := s) (offersDevice_dueNow s i ?_)
    split at hi
    · exact hi
    · cases hi
  · split
    · split
      · exact ready_run_device (actor_of_admits ‹_›)
      · trivial
    · exact ready_powered (waveTurn_ready rfl)
    · exact ready_powered (cairnTurn_ready rfl)
    · exact ready_powered (rotate_ready s)

/-- Settles O9: the turn comes to a state or to an instruction whose agent is in focus (`turn_ready`), and that instruction has a next
state (`exec_next_of_inFocus`). -/
theorem everyStepGoesOn : Obligations.EveryStepGoesOn := by
  intro s
  have h := turn_ready s
  unfold goesOn step
  cases ht : s.turn with
  | done t => rfl
  | run i t =>
    rw [ht] at h
    obtain ⟨u, hu⟩ := exec_next_of_inFocus h
    dsimp only
    rw [hu]
  | due i t =>
    rw [ht] at h
    obtain ⟨u, hu⟩ := exec_next_of_inFocus h
    dsimp only
    rw [hu]

end Sys2Proof.Machine
end

section
/-!
PROOFS. A write of an h register is recorded beside it; refutes O14.
-/
namespace Sys2Proof.Machine

open Sys2Proof Sys2Proof.Ob

/-! ### A write of an h register is recorded (02 R36)

`Crew.hAt` holds the assay cycle and the slot of an h register's last write: of several writes in one cycle the highest slot's stands.
A register instruction whose destination is an h register changes it, so more of the crew than `h` is new. -/

/-- KMOV h0, 5. -/
def moveToH0 : Instr := .kmov ⟨false, false, 7, false⟩ (.h 0) (.lit 5) .s64

/-- A wave of the lone grid, in focus, whose crew has written no h register. -/
def loneWave : State := { State.reset.withKalgil 0 with focus := .wave ⟨0, 0, 0⟩ }

/-- The crew's record of h writes in the state that an outcome gives. -/
def recordAfter : Host.Outcome State Fault Refusal → Option (NMap (Nat × Nat))
  | .next t => (t.crew? 0).map Crew.hAt
  | .fault _ => none
  | .refused _ => none

/-- KMOV h0 is a register instruction that runs on the lone wave, and nothing of its crew's h registers has been written. -/
theorem moveToH0_runs :
    (regOp moveToH0).any (fun o => (Ctx.of loneWave).any fun c => c.runs o.1 && c.crewKey == 0 && c.cw.hAt == []) = true := by
  decide +kernel

/-- After it the record names h0, cycle 0 and slot 0. -/
theorem recordAfter_moveToH0 : recordAfter (exec moveToH0 loneWave) = some [(0, 0, 0)] := by decide +kernel

/-- Refutes O14: KMOV to h0 on a lone wave also writes the crew's record of the write (`Crew.hAt`), which the frame's clause on the crew
holds unchanged. -/
theorem not_registerFrame : ¬Obligations.RegisterFrame := by
  intro frame
  obtain ⟨⟨m, d, wide⟩, ho, hctx⟩ := (Option.any_eq_true _ _).1 moveToH0_runs
  obtain ⟨c, hc, facts⟩ := (Option.any_eq_true _ _).1 hctx
  simp only [Bool.and_eq_true, beq_iff_eq] at facts
  obtain ⟨⟨runs, crew⟩, blank⟩ := facts
  have focused : inFocus loneWave (actor moveToH0) := fun h => by cases hc.symm.trans h
  obtain ⟨t, ht⟩ := exec_next_of_inFocus focused
  obtain ⟨-, -, -, -, -, ⟨cw, hcw, only, -⟩, -⟩ := frame _ m d wide _ t c ho hc runs ht
  have written : (t.crew? 0).map Crew.hAt = some [(0, 0, 0)] := by
    rw [← recordAfter_moveToH0, ht]
    rfl
  have kept : cw.hAt = [] := by rw [only]; exact blank
  rw [← crew, hcw, Option.map_some, kept] at written
  cases written

end Sys2Proof.Machine
end

section
/-!
PROOFS. Waves are woken, parked by the spin detector, made of tasks, and retire; settles O54.
-/
namespace Sys2Proof.Machine

open Sys2Proof Sys2Proof.Ob

/-! ### Events that one state answers -/

/-- An event that can happen has its new state. -/
theorem happens_some {s t : State} {r : Option State} (h : r = some t) : happens s r = .next t := by rw [h]; rfl

/-- An event that cannot happen leaves the state. -/
theorem happens_none {s : State} {r : Option State} (h : r = none) : happens s r = .next s := by rw [h]; rfl

/-! ### Waking and the spin detector -/

section
variable {s : State} {id : WaveId} {c : Ctx}

theorem reevaluate_eq (h : s.ctx id = some c) :
    s.reevaluate id = if c.w.wait.isSome && c.w.woken then some { s with agenda := .wave id :: s.agenda } else none := by
  simp only [State.reevaluate, h]

theorem wakeUp_eq (h : s.ctx id = some c) :
    s.wakeUp id = if c.w.wait.isSome then some (s.setWave id { c.w with woken := true }) else none := by
  simp only [State.wakeUp, h]

theorem spun_eq (h : s.ctx id = some c) :
    s.spun id = if 4096 ≤ c.w.spinCount && c.w.wait.isNone then
      some (s.setWave id { c.w with wait := some (.spin (lastLines c.w.spinPrev)), woken := false, spinCount := 0 }) else none := by
  simp only [State.spun, h]

theorem spinOver_eq (h : s.ctx id = some c) :
    s.spinOver id = if c.w.wait.elim false WaitRec.isSpin then some (s.setWave id { c.w with woken := true }) else none := by
  simp only [State.spinOver, h]

end

/-- 01 R28 to R31, 18 R324, R326. The steps of a wave that waits or spins. -/
theorem wakeAndSpin : WakeAndSpin := by
  intro s id c h
  refine ⟨fun hwait hwoken => happens_some ?_, fun hwait => happens_some ?_, fun hwait => ⟨happens_none ?_, happens_none ?_⟩,
    fun hcount hwait => happens_some ?_, fun hcount => happens_none ?_, fun l hwait => happens_some ?_⟩
  · rw [reevaluate_eq h, hwait, hwoken]; rfl
  · rw [wakeUp_eq h, hwait]; rfl
  · rw [wakeUp_eq h, hwait]; rfl
  · rw [reevaluate_eq h, hwait]; rfl
  · simp [spun_eq h, hcount, hwait]
  · simp [spun_eq h, hcount]
  · rw [spinOver_eq h, hwait]; rfl

/-! ### Tasks -/

/-- A wave of tasks is placed with up to 32 of one entry (01 R25). -/
theorem placeOne_tasks {s u : State} {gid cl slot : Nat} {g : Grid} {cores : List Nat} {e : DWord} (hg : s.grid? gid = some g)
    (hslot : s.freeSlot g.vf g.q = some slot) (he : s.pickEntry g.tasks = some e)
    (hu : State.startConvoy (s.setGrid gid { g with tasks := (gatherTasks e 32 g.tasks).2, placed := g.placed + 1, blocking := false })
      gid g g.placed cl slot 0 cores e (lanesFrom (List.range (gatherTasks e 32 g.tasks).1.length)) (gatherTasks e 32 g.tasks).1 = some u) :
    s.placeOne (.tasks gid) cl cores = some ((u.taskRoom g.vf g.tdesc).serve g).draw := by
  simp only [State.placeOne, hg, hslot, he, hu, Option.map_some]

/-- A dispatch places its grid's tasks where they are the next placement. -/
theorem dispatchTasks_next {s : State} {gid cl : Nat} {cores : List Nat} (h : s.nextPlacement = some (.tasks gid, cl, cores)) :
    s.dispatchTasks gid cl = s.placeOne (.tasks gid) cl cores := by
  simp only [State.dispatchTasks, h, and_self, if_true]

/-- A dispatch cannot happen where another placement, or none, is next. -/
theorem dispatchTasks_none {s : State} {gid cl : Nat} (h : ∀ cores, s.nextPlacement ≠ some (.tasks gid, cl, cores)) :
    s.dispatchTasks gid cl = none := by
  unfold State.dispatchTasks
  cases hn : s.nextPlacement with
  | none => rfl
  | some x =>
    obtain ⟨p, k, cores⟩ := x
    refine if_neg ?_
    rintro ⟨rfl, rfl⟩
    exact h cores hn

/-- The first task that is not aged becomes so, behind those that are. -/
theorem ageFirst_append {a b : List TaskRec} {t : TaskRec} (ha : a.all TaskRec.aged = true) (ht : t.aged = false) :
    ageFirst (a ++ t :: b) = some (a ++ { t with aged := true } :: b) := by
  induction a with
  | nil => simp [ageFirst, ht]
  | cons x r ih =>
    rw [List.all_cons, Bool.and_eq_true] at ha
    obtain ⟨hx, hr⟩ := ha
    simp [ageFirst, hx, ih hr]

/-- A grid's tasks age where the first unaged one does. -/
theorem ageTask_eq {s : State} {gid : Nat} {g : Grid} {l : List TaskRec} (hg : s.grid? gid = some g) (hl : ageFirst g.tasks = some l) :
    s.ageTask gid = some (s.setGrid gid { g with tasks := l }) := by
  simp only [State.ageTask, hg, hl, Option.map_some]

/-! ### Retirement -/

/-- The convoy's waves other than the given one that have not drained. -/
def undrainedOthers (s : State) (id : WaveId) : List (Nat × Wave) :=
  (s.wavesOf id.conv).filter fun p => p.1 != waveKey id && !p.2.drained

section
variable {s : State} {id : WaveId} {w : Wave} {cv : Convoy}

/-- A wave that has not ended does not retire. -/
theorem retireWave_running (hw : s.wave? id = some w) (hv : s.convoy? id.conv = some cv) (he : w.ended = false) :
    s.retireWave id = none := by
  simp [State.retireWave, hw, hv, he]

/-- A wave of a resident convoy whose work is over: its crew's stash lines with the crew's last wave, its tasks, and the convoy with the
convoy's last. -/
theorem retireWave_drained (hw : s.wave? id = some w) (hv : s.convoy? id.conv = some cv) (he : w.ended = true) (hd : w.drained = false)
    (hr : cv.st = .resident) (hover : s.drainedOf id w = true) :
    s.retireWave id = (if (undrainedOthers s id).all (fun p => (waveOfKey p.1).crew != id.crew) then s.emptyStash (crewKeyOf id)
      else some s).bind fun u => ((u.setWave id { w with drained := true }).tasksRetired cv.grid w.tasks.length).bind fun v =>
        if (undrainedOthers s id).isEmpty then v.retireConvoy id.conv else some v.unstall := by
  have goes : (!w.ended || w.drained || cv.st == .saved || cv.st == .flushing && cv.teardown.isNone) = false := by
    rw [he, hd, hr]
    rfl
  simp only [State.retireWave, hw, hv, goes, hover, Bool.not_true, Bool.false_eq_true, if_false]
  rfl

end

/-- The waves of a grid that carries no tasks leave OUTST. -/
theorem tasksRetired_of_plain {s : State} {gid n : Nat} {g : Grid} (hg : s.grid? gid = some g) (hp : g.taskgrid = false) :
    s.tasksRetired gid n = some s := by
  simp [State.tasksRetired, hg, hp]

/-- Another wave of the crew has not drained: the crew is not over, nor is the convoy. -/
theorem undrainedOthers_of_mem {s : State} {id : WaveId} {p : Nat × Wave} (hp : p ∈ s.wavesOf id.conv) (hne : p.1 ≠ waveKey id)
    (hd : p.2.drained = false) : p ∈ undrainedOthers s id :=
  List.mem_filter.2 ⟨hp, by simp [hne, hd]⟩

/-- No other wave of the convoy is undrained. -/
theorem undrainedOthers_eq_nil {s : State} {id : WaveId} (h : ∀ p ∈ s.wavesOf id.conv, p.1 = waveKey id ∨ p.2.drained = true) :
    undrainedOthers s id = [] := by
  refine List.filter_eq_nil_iff.2 fun p hp => ?_
  rcases h p hp with hk | hd
  · simp [hk]
  · simp [hd]

/-- A wave that leaves another of its crew behind drains alone. -/
theorem retireWave_of_crew {s : State} {id : WaveId} {w : Wave} {cv : Convoy} {g : Grid} (hw : s.wave? id = some w)
    (hv : s.convoy? id.conv = some cv) (he : w.ended = true) (hd : w.drained = false) (hr : cv.st = .resident)
    (hover : s.drainedOf id w = true) (hg : s.grid? cv.grid = some g) (hplain : g.taskgrid = false) {p : Nat × Wave}
    (hp : p ∈ undrainedOthers s id) (hcrew : (waveOfKey p.1).crew = id.crew) :
    s.retireWave id = some (s.setWave id { w with drained := true }).unstall := by
  have crew : ¬(undrainedOthers s id).all (fun p => (waveOfKey p.1).crew != id.crew) = true := fun h => by
    simpa [hcrew] using List.all_eq_true.1 h p hp
  have others : ¬(undrainedOthers s id).isEmpty = true := fun h => by
    rw [List.isEmpty_iff.1 h] at hp
    cases hp
  have tasks : (s.setWave id { w with drained := true }).tasksRetired cv.grid w.tasks.length =
      some (s.setWave id { w with drained := true }) := tasksRetired_of_plain (show _ from hg) hplain
  rw [retireWave_drained hw hv he hd hr hover, if_neg crew, Option.bind_some, tasks, Option.bind_some, if_neg others]

/-- The convoy's last wave takes the convoy with it. -/
theorem retireWave_last {s u v : State} {id : WaveId} {w : Wave} {cv : Convoy} (hw : s.wave? id = some w)
    (hv : s.convoy? id.conv = some cv) (he : w.ended = true) (hd : w.drained = false) (hr : cv.st = .resident)
    (hover : s.drainedOf id w = true) (hnil : undrainedOthers s id = []) (hu : s.emptyStash (crewKeyOf id) = some u)
    (ht : (u.setWave id { w with drained := true }).tasksRetired cv.grid w.tasks.length = some v) :
    s.retireWave id = v.retireConvoy id.conv := by
  rw [retireWave_drained hw hv he hd hr hover, hnil]
  simp only [List.all_nil, if_true, hu, Option.bind_some, ht, List.isEmpty_nil]

/-- 01 R25 to R27, 18 R316, R321. The steps of a task grid's waves, and retirement. -/
theorem taskSteps : TaskSteps := by
  intro s gid cl g hg
  refine ⟨fun cores slot e u hn hslot he => ?_, fun hn => ?_, fun a b t htasks ha ht => happens_some ?_, ?_, ?_, ?_⟩
  · intro q hu t
    have placed : s.dispatchTasks gid cl = some t := (dispatchTasks_next hn).trans (placeOne_tasks hg hslot he hu)
    exact ⟨happens_some placed, happens_some placed⟩
  · exact ⟨happens_none (dispatchTasks_none hn), happens_none (dispatchTasks_none hn)⟩
  · exact ageTask_eq hg (htasks ▸ ageFirst_append ha ht)
  · rintro id w cv hw hv he hd hr hover hplain rfl ⟨p, hp, hne, hpd, hcrew⟩
    exact happens_some (retireWave_of_crew hw hv he hd hr hover hg hplain (undrainedOthers_of_mem hp hne hpd) hcrew)
  · rintro id w cv u v hw hv he hd hr hover rfl hlast hu hret t ht
    exact happens_some ((retireWave_last hw hv he hd hr hover (undrainedOthers_eq_nil hlast) hu hret).trans ht)
  · intro id w cv hw hv he
    exact happens_none (retireWave_running hw hv he)

/-- Settles O54, from the steps of waves that wait or spin (`wakeAndSpin`) and those of tasks and retirement (`taskSteps`). -/
theorem wakeSteps : Obligations.WakeSteps := ⟨wakeAndSpin, taskSteps⟩

end Sys2Proof.Machine
end

section
/-!
PROOFS. Predicate p7 (02 R35), and the VEC forms that write index registers, predicates, addresses and matches; settles O18 and O26.
-/
namespace Sys2Proof.Machine

open Sys2Proof Sys2Proof.Ob

/-! ### Predicate p7 (02 R35) -/

@[simp] theorem getP_seven (w : Wave) : w.getP 7 = BitVec.allOnes 128 := if_pos rfl

@[simp] theorem setP_seven (w : Wave) (x : Lanes) : w.setP 7 x = w := if_pos rfl

theorem guard_seven (w : Wave) {k : Ctl} (h : k.pg = 7) : w.guard k = BitVec.allOnes 128 := if_pos h

/-- Settles O18: reads, writes and guards of p7 by `getP_seven`, `setP_seven` and `guard_seven`. -/
theorem predicateSeven : Obligations.PredicateSeven := by
  intro w x k t ht
  have every : (BitVec.allOnes 128).getLsbD t = true := by rw [BitVec.getLsbD_allOnes, decide_eq_true ht]
  refine ⟨?_, setP_seven w x, ?_, fun hpg => ?_⟩
  · rw [getP_seven, every]
  · rw [setP_seven]
  · rw [guard_seven w hpg, every]

/-! ### Instructions that write a destination or a predicate -/

section
variable {s : State} {c : Ctx} {m : Meta} {body : Ctx → Lanes → Verdict}

/-- An instruction that ends no region and whose body writes values to a destination, read in the setting that it commits in. -/
theorem instr_writes_dest {d : Desc} {wide : Bool} {values : Ctx → Lanes → List (Nat × DWord)} (h : Ctx.of s = some c)
    (hr : c.runs m = true) (hm : m.closer = false)
    (hb : ∀ c act, body c act = .ok (.of (c.dest d wide (values c act) c.s))) :
    instr s m noOwn body = .next (c.commit false none
      ((c.during false).dest d wide (values (c.during false) (c.acting m.ctl)) s)) := by
  have effect := instr_effect (own := noOwn) h hr rfl (hb _ _)
  rwa [hm, during_s, ctx_state h] at effect

/-- An instruction that ends no region and whose body writes the wave. -/
theorem instr_writes_wave {f : Ctx → Lanes → Wave} (h : Ctx.of s = some c) (hr : c.runs m = true) (hm : m.closer = false)
    (hb : ∀ c act, body c act = .ok (.of (c.put (f c act)))) :
    instr s m noOwn body = .next (c.commit false none (c.put (f (c.during false) (c.acting m.ctl)))) := by
  have effect := instr_effect (own := noOwn) h hr rfl (hb _ _)
  rwa [hm, during_put] at effect

/-- A comparison: in the acting threads the predicate becomes its old value combined with the outcome, elsewhere it keeps it (11 R213). -/
theorem instr_setPred {p : BitVec 3} {comb : Combine} {f : Ctx → Nat → Bool} (h : Ctx.of s = some c) (hr : c.runs m = true)
    (hm : m.closer = false) :
    instr s m noOwn (fun c act => c.setPred act p comb (f c)) = .next (c.commit false none (c.put (c.w.setP p.toNat
      (mergeLanes (c.acting m.ctl)
        (lanesWhere (c.acting m.ctl) fun t => comb.apply ((c.w.getP p.toNat).getLsbD t) (f (c.during false) t))
        (c.w.getP p.toNat))))) :=
  instr_writes_wave h hr hm fun _ _ => rfl

end

/-- Settles O26: a move to an index register writes the wave, the comparisons write a predicate (`instr_setPred`), an address and a
match write their destination. -/
theorem vectorForms : Obligations.VectorForms := by
  intro s c h
  refine ⟨?moveToIndex, ?compare, ?compareFloat, ?address, ?matching⟩
  case moveToIndex => exact fun k i b sat ty runs => instr_writes_wave h runs rfl fun _ _ => rfl
  case compare => exact fun k p a b ty cond comb runs => instr_setPred h runs rfl
  case compareFloat => exact fun k p a b ty cond comb runs => instr_setPred h runs rfl
  case address => exact fun k d a b uns sh runs => instr_writes_dest h runs rfl fun _ _ => rfl
  case matching => exact fun k d a ty runs => instr_writes_dest h runs rfl fun _ _ => rfl

end Sys2Proof.Machine
end

section
/-!
PROOFS. What the waves' own operations leave of memory: all of it, but for a trap's frame and the bits of a leaf, which keep its canonical
form (03 R49).
-/
namespace Sys2Proof.Machine

open Sys2Proof Sys2Proof.Ob

/-! ### Operations that touch no memory -/

theorem sameMemory.refl (s : State) : sameMemory s s := ⟨rfl, rfl, rfl⟩

theorem sameMemory_setWave (s : State) (id : WaveId) (w : Wave) : sameMemory s (s.setWave id w) := ⟨rfl, rfl, rfl⟩

theorem sameMemory_checked (s : State) (n : Nat) : sameMemory s (s.checked n) := ⟨rfl, rfl, rfl⟩

/-- The clocks that advance touch no memory. -/
theorem sameMemory_pass (s : State) : sameMemory s s.pass := ⟨rfl, rfl, rfl⟩

theorem sameMemory_stalled (s : State) (id : WaveId) : sameMemory s (s.stalled id) := by
  unfold State.stalled
  split <;> exact ⟨rfl, rfl, rfl⟩

theorem sameMemory_told (s : State) (line : Nat) : sameMemory s (s.told line) := by
  unfold State.told
  split
  · exact .refl s
  · split
    · exact ⟨rfl, rfl, rfl⟩
    · split <;> exact ⟨rfl, rfl, rfl⟩

theorem sameMemory_cache (s : State) (vf va : Nat) (x : Xlat) : sameMemory s (s.cache vf va x) := by
  unfold State.cache
  dsimp only
  split <;> exact ⟨rfl, rfl, rfl⟩

theorem sameMemory_rebaseAt (s : State) (d t : Nat) : sameMemory s (s.rebaseAt d t) := by
  unfold State.rebaseAt
  split <;> exact ⟨rfl, rfl, rfl⟩

/-- A grid that fails touches no memory. -/
theorem sameMemory_failGrid (s : State) (n : Nat) (f : LateF) (i : Nat) : sameMemory s (s.failGrid n f i) := by
  unfold State.failGrid
  split
  · exact .refl s
  · split <;> exact ⟨rfl, rfl, rfl⟩

/-- A convoy torn down touches no memory (19 R334). -/
theorem sameMemory_teardown (s : State) (n : Nat) (f : LateF) : sameMemory s (s.teardown n f) := by
  unfold State.teardown
  split
  · exact .refl s
  · split
    · exact .refl s
    · exact (sameMemory_failGrid ..).trans ⟨rfl, rfl, rfl⟩

/-- A late fault reported touches no memory (19 R329). -/
theorem sameMemory_reportLate (s : State) (key : Nat) (hnd : Bool) (f : LateF) : sameMemory s (s.reportLate key hnd f) := by
  unfold State.reportLate
  dsimp only
  split
  · exact .refl s
  · split
    · exact .refl s
    · split
      · exact sameMemory_failGrid ..
      · split
        · exact sameMemory_teardown ..
        · split <;> exact ⟨rfl, rfl, rfl⟩

theorem sameMemory_setBar (s : State) (conv : Nat) (crew : Option Nat) (id : Nat) (b : Bar) :
    sameMemory s (s.setBar conv crew id b) := by
  unfold State.setBar
  split <;> split <;> exact ⟨rfl, rfl, rfl⟩

/-- A wave that no longer counts as arrived touches no memory. -/
theorem sameMemory_unpark (s : State) (id : WaveId) (w : Wave) : sameMemory s (s.unpark id w) := by
  unfold State.unpark
  split
  · rename_i conv i gen _
    dsimp only
    generalize (if conv then none else some id.crew) = crew
    split
    · exact sameMemory_setBar ..
    · exact .refl s
  · exact .refl s

/-- The barriers checked as a wave ends touch no memory (01 R27). -/
theorem sameMemory_barsAfterTail (s : State) (id : WaveId) : sameMemory s (s.barsAfterTail id) := by
  have check (s : State) (conv : Nat) (crew : Option Nat) (i : Nat) : sameMemory s (s.barCheck conv crew i) := by
    unfold State.barCheck
    dsimp only
    split
    · exact .refl s
    · exact (sameMemory_setBar ..).trans ⟨rfl, rfl, rfl⟩
  exact (sameMemory_foldl (fun s i => check s id.conv (some id.crew) i) (List.range 16) s).trans
    (sameMemory_foldl (fun s i => check s id.conv none i) (List.range 8) _)

/-- Results written to a destination are no memory (02 Table 2-1). -/
theorem sameMemory_dest (c : Ctx) (d : Desc) (wide : Bool) (vals : List (Nat × DWord)) (s : State) :
    sameMemory s (c.dest d wide vals s) := by
  cases d with
  | v n => exact ⟨rfl, rfl, rfl⟩
  | idx i off => exact ⟨rfl, rfl, rfl⟩
  | special n => exact .refl s
  | inline n => exact .refl s
  | k n => unfold Ctx.dest; dsimp only; split <;> exact ⟨rfl, rfl, rfl⟩
  | h n => unfold Ctx.dest; dsimp only; split <;> exact ⟨rfl, rfl, rfl⟩

/-! ### Traps (19 R330) -/

/-- ACC and DTY set in a leaf keep the form (21 R362). -/
theorem touch_memWf {s : State} (x : Xlat) (wr : Bool) (hs : s.memWf = true) : (s.touch x wr).memWf = true := by
  unfold State.touch
  dsimp only
  split
  · exact hs
  · exact devWrite_memWf _ _ _ hs

/-- An access of a page keeps the form: its leaf's bits are set, its translation is cached. -/
theorem touch_cache_memWf {s : State} (x : Xlat) (wr : Bool) (vf va : Nat) (hs : s.memWf = true) :
    ((s.touch x wr).cache vf va x).memWf = true := (sameMemory_cache ..).memWf (touch_memWf x wr hs)

/-- A trap keeps the form: its frame is written line by line, or the convoy is torn down. -/
theorem trapEntry_memWf {s u : State} {id : WaveId} {w : Wave} {cv : Convoy} {t : Trap} (h : s.trapEntry id w cv t = some u)
    (hs : s.memWf = true) : u.memWf = true := by
  unfold State.trapEntry at h
  dsimp only at h
  generalize t.kind + (if t.part then 4 else 0) = flags at h
  split at h
  · cases h
    exact (sameMemory_teardown ..).memWf hs
  · split at h
    · cases h
      exact (sameMemory_teardown ..).memWf hs
    · split at h
      · cases h
      · cases h
        exact ((sameMemory_unpark _ id w).trans (sameMemory_setWave ..)).memWf
          (foldl_memWf (fun _ l => devWrite_memWf _ l _) _ (touch_cache_memWf _ true _ _ hs))

/-- A precise fault taken keeps the form. -/
theorem precise_memWf {c : Ctx} {s : State} {w : Wave} {f : Flt} {part : Bool} {dbg : Nat} (hc : c.s.memWf = true)
    (hs : s.memWf = true) : (c.precise s w f part dbg).memWf = true := by
  unfold Ctx.precise
  dsimp only
  split
  · exact trapEntry_memWf ‹_› hs
  · exact (sameMemory_stalled ..).memWf hc

/-- A late fault taken keeps the form. -/
theorem takeLate_memWf {s : State} (id : WaveId) (w : Wave) (cv : Convoy) (f : LateF) (hs : s.memWf = true) :
    (s.takeLate id w cv f).memWf = true := by
  unfold State.takeLate
  split
  · exact trapEntry_memWf ‹_› hs
  · exact (sameMemory_stalled ..).memWf hs

/-! ### Verdicts carried out -/

/-- Every state that a verdict names has the memory of the given one. -/
def Verdict.leaves (s : State) : Verdict → Prop
  | .ok e => sameMemory s e.s
  | .fail _ => True
  | .failAt t _ => sameMemory s t
  | .part e _ => sameMemory s e.s
  | .stall t => sameMemory s t
  | .park t _ => sameMemory s t
  | .over t => sameMemory s t

/-- A commit keeps the form, with the after-trap that may fall due (01 R18, 19 R338). -/
theorem finish_memWf {c : Ctx} {e : Eff} (closer : Bool) (hc : c.s.memWf = true) (he : e.s.memWf = true) :
    (c.finish closer e).memWf = true := by
  unfold Ctx.finish
  split
  · exact he
  · have moved (w : Wave) := ((sameMemory_setWave e.s c.id w).trans (sameMemory_checked _ c.w.core)).memWf he
    dsimp only
    split
    · exact moved _
    · split
      · exact trapEntry_memWf ‹_› (moved _)
      · exact (sameMemory_stalled ..).memWf hc

/-- A verdict that leaves memory is carried out with the form kept. -/
theorem settle_memWf {c : Ctx} {v : Verdict} (closer : Bool) (hc : c.s.memWf = true) (hv : v.leaves c.s) :
    (c.settle closer v).memWf = true := by
  have stalled {t : State} (ht : sameMemory c.s t) : (t.stalled c.id).memWf = true := (ht.trans (sameMemory_stalled ..)).memWf hc
  have waiting (p : Bool) {t : State} (ht : t.memWf = true) : (if p then c.s.stalled c.id else t).memWf = true := by
    split
    · exact stalled (.refl _)
    · exact ht
  match v, hv with
  | .fail f, _ =>
    refine precise_memWf hc ?_
    unfold Ctx.told
    split
    · split
      · exact (sameMemory_told ..).memWf hc
      · exact hc
    · exact hc
  | .failAt t f, hv => exact precise_memWf hc (hv.memWf hc)
  | .part e f, hv =>
    unfold Ctx.settle
    dsimp only
    split
    · exact precise_memWf hc (hv.memWf hc)
    · exact hv.memWf hc
  | .stall t, hv => exact stalled hv
  | .ok e, hv => exact waiting _ (finish_memWf closer hc (hv.memWf hc))
  | .park t r, hv =>
    refine waiting _ ?_
    split
    · exact (hv.trans (sameMemory_setWave ..)).memWf hc
    · exact hv.memWf hc
  | .over t, hv => exact waiting _ (hv.memWf hc)

/-! ### Instructions -/

/-- An outcome keeps the canonical form of memory. -/
def KeepsForm (s : State) (o : Host.Outcome State Fault Refusal) : Prop := s.memWf = true → ∀ t, o = .next t → t.memWf = true

theorem keepsForm_next {s t : State} (h : s.memWf = true → t.memWf = true) : KeepsForm s (.next t) := by
  rintro hs _ ⟨⟩
  exact h hs

/-- An instruction whose body leaves memory keeps its form, whether it commits, waits, traps or tears its convoy down. -/
theorem keepsForm_instrEach {s : State} {m : Meta} {own : Ctx → Option (BitVec 10)}
    {each : Ctx → Lanes → Nat → Option (BitVec 10 × Nat)} {body : Ctx → Lanes → Verdict}
    (hb : ∀ c act, (body c act).leaves c.s) : KeepsForm s (instrEach s m own each body) := by
  unfold instrEach
  cases h : Ctx.of s with
  | none => rintro - t ⟨⟩
  | some c =>
    refine keepsForm_next fun hs => ?_
    have hc : (c.during m.closer).s.memWf = true := by rw [during_s, ctx_state h]; exact hs
    unfold Ctx.run
    split
    · exact settle_memWf _ hc trivial
    · split
      · exact settle_memWf _ hc trivial
      · dsimp only
        split
        · exact settle_memWf _ hc trivial
        · split
          · exact settle_memWf _ hc (.refl _)
          · exact settle_memWf _ hc (hb _ _)

theorem keepsForm_instr {s : State} {m : Meta} {own : Ctx → Option (BitVec 10)} {body : Ctx → Lanes → Verdict}
    (hb : ∀ c act, (body c act).leaves c.s) : KeepsForm s (instr s m own body) := keepsForm_instrEach hb

end Sys2Proof.Machine
end

section
/-!
PROOFS. UNI and VEC instructions, clause headers and unassigned words keep memory in canonical form (03 R49), whatever they come to.
-/
namespace Sys2Proof.Machine

open Sys2Proof Sys2Proof.Ob

/-! ### Shapes of bodies -/

/-- A transfer of control leaves memory where the state of its effects does (11 R199). -/
theorem leaves_goto {s t : State} (h : sameMemory s t) (x : DWord) : (Ctx.goto t x).leaves s := by
  unfold Ctx.goto
  split
  · trivial
  · exact h

/-- A synchronous Gravel operation leaves memory where its own effect does (06 R119, R126). -/
theorem leaves_syncGrv {c : Ctx} {uses : List Nat} {body : State → (Nat → Bool) → Verdict}
    (hb : ∀ t keep, sameMemory c.s t → (body t keep).leaves c.s) : (c.syncGrv uses body).leaves c.s := by
  unfold Ctx.syncGrv
  dsimp only
  split
  · exact .refl _
  · split
    · have done := hb c.attempted.draw (fun e => c.s.free.testBit e) ⟨rfl, rfl, rfl⟩
      split
      · rename_i e he
        rw [he] at done
        exact sameMemory.trans done (sameMemory_reportLate ..)
      · exact done
    · exact hb _ _ ⟨rfl, rfl, rfl⟩

section
variable {s : State} {m : Meta} {own : Ctx → Option (BitVec 10)}

/-- An instruction whose effect is a destination written. -/
theorem keepsForm_dest {d : Desc} {wide : Bool} {vals : Ctx → Lanes → List (Nat × DWord)} :
    KeepsForm s (instr s m own fun c act => .ok (.of (c.dest d wide (vals c act) c.s))) :=
  keepsForm_instr fun _ _ => sameMemory_dest ..

/-- An instruction whose effect is its wave's own state. -/
theorem keepsForm_put {f : Ctx → Lanes → Wave} : KeepsForm s (instr s m own fun c act => .ok (.of (c.put (f c act)))) :=
  keepsForm_instr fun _ _ => sameMemory_setWave ..

end

/-! ### Instructions with several outcomes -/

theorem keepsForm_brc {k : Ctl} {cond : BrCond} {a : Desc} {t : SrcB} {s : State} : KeepsForm s (execBrc k cond a t s) := by
  refine keepsForm_instr fun c act => ?_
  split
  · exact leaves_goto (sameMemory_setWave ..) _
  · exact .refl _

theorem keepsForm_brd {k : Ctl} {t : SrcB} {s : State} : KeepsForm s (execBrd k t s) := by
  refine keepsForm_instr fun c act => ?_
  dsimp only
  split
  · trivial
  · split
    · exact leaves_goto (sameMemory_setWave ..) _
    · exact sameMemory_setWave ..

theorem keepsForm_join {k : Ctl0} {t : SrcB} {s : State} : KeepsForm s (execJoin k t s) := by
  refine keepsForm_instr fun c act => ?_
  split
  · trivial
  · split
    · exact sameMemory_setWave ..
    · exact leaves_goto (sameMemory_setWave ..) _

theorem keepsForm_loop {k : Ctl} {d : Desc} {t : SrcB} {s : State} : KeepsForm s (execLoop k d t s) := by
  refine keepsForm_instr fun c act => ?_
  dsimp only
  split
  · exact .refl _
  · split
    · exact sameMemory_dest ..
    · exact leaves_goto ((sameMemory_dest ..).trans (sameMemory_setWave ..)) _

theorem keepsForm_tail {k : Ctl0} {s : State} : KeepsForm s (execTail k s) := by
  refine keepsForm_instr fun c act => ?_
  have ended {t : State} (ht : sameMemory c.s t) (w : Wave) :
      sameMemory c.s (((t.setWave c.id w).barsAfterTail c.id).checked c.w.core) :=
    ht.trans (((sameMemory_setWave ..).trans (sameMemory_barsAfterTail ..)).trans (sameMemory_checked ..))
  dsimp only
  split
  · exact ended (sameMemory_failGrid ..) _
  · exact ended (.refl _) _

theorem keepsForm_rdlane {k : Ctl} {d va : Desc} {t : SrcB} {w64 : Bool} {s : State} : KeepsForm s (execRdlane k d va t w64 s) := by
  refine keepsForm_instr fun c act => ?_
  dsimp only
  split
  · trivial
  · exact sameMemory_dest ..

theorem keepsForm_wrlane {k : Ctl} {vd a : Desc} {t : SrcB} {w64 : Bool} {s : State} : KeepsForm s (execWrlane k vd a t w64 s) := by
  refine keepsForm_instr fun c act => ?_
  dsimp only
  split
  · trivial
  · exact sameMemory_dest ..

theorem keepsForm_setiw {k : Ctl} {a : Desc} {b : SrcB} {s : State} : KeepsForm s (execSetiw k a b s) := by
  refine keepsForm_instr fun c act => ?_
  dsimp only
  split
  · trivial
  · exact sameMemory_setWave ..

/-- Stochastic rounding draws its words from the Gravel engine, which is no memory (12 R236). -/
theorem keepsForm_fsrn {k : Ctl} {d a cls : Desc} {into : FCode} {ty : FTy} {sat : Bool} {s : State} :
    KeepsForm s (execFsrn k d a cls into ty sat s) := by
  refine keepsForm_instr fun c act => ?_
  dsimp only
  split
  · trivial
  · exact leaves_syncGrv fun t keep ht => (ht.trans ⟨rfl, rfl, rfl⟩).trans (sameMemory_dest ..)

/-! ### All instructions of the two classes -/

/-- The instruction has an opcode of the UNI and VEC classes, below 0x60 (09 Table 9-2). -/
def coreOp (i : Instr) : Bool := (opOf i).any fun n => n < 0x60

/-- An instruction whose second source may be a literal has the opcode of its fields, in either form (08 R153). -/
theorem op_lt_of_coreOp {i : Instr} {op : BitVec 8} {c : Ctl} {dst sa : BitVec 9} {b : SrcB} {sc : BitVec 9} {m : BitVec 13}
    (hf : i.fields = some (srcF op c dst sa b sc m)) (h : coreOp i = true) : op.toNat < 0x60 := by
  have hop : (srcF op c dst sa b sc m).op = op := by cases b <;> rfl
  simpa [coreOp, opOf, hf, hop] using h

/-- UNI and VEC instructions, the opcodes below 0x60, keep the form. -/
theorem exec_keepsForm {i : Instr} (s : State) (h : coreOp i = true) : KeepsForm s (exec i s) := by
  cases i
  case nop => exact keepsForm_instr fun _ _ => .refl _
  case bra => exact keepsForm_instr fun _ _ => leaves_goto (sameMemory_setWave ..) _
  case brc => exact keepsForm_brc
  case brd => exact keepsForm_brd
  case join => exact keepsForm_join
  case call => exact keepsForm_instr fun _ _ => leaves_goto (sameMemory_dest ..) _
  case ret => exact keepsForm_instr fun _ _ => leaves_goto (.refl _) _
  case loop => exact keepsForm_loop
  case tail => exact keepsForm_tail
  case rdlane => exact keepsForm_rdlane
  case wrlane => exact keepsForm_wrlane
  case setiw => exact keepsForm_setiw
  case vmov k op ty =>
    cases op with
    | reg d b => exact keepsForm_dest (d := d)
    | toIdx i b sat => exact keepsForm_put
    | fromIdx d i => exact keepsForm_dest (d := d)
  case cvtf k d a dir ty rm sat => cases dir <;> exact keepsForm_dest
  case cvti k d a toFloat ity ty rm sat => cases toFloat <;> exact keepsForm_dest
  case vcmp | fcmp => exact keepsForm_put
  case dqblk => exact keepsForm_instrEach fun _ _ => sameMemory_setWave ..
  case fsrn => exact keepsForm_fsrn
  case kmov | kadd | ksub | kmul | kand | kor | kxor | ksh | kcmp | ksel | kmad | vote | vadd | vsub | vmul | vmad | vquo | vand | vor |
      vxor | vbic | vshl | vshr | vfun | vbfx | vbfi | vcnt | vmin | vmax | vabsd | vsel | vshfl | vmatch | vscan | vaddr | vprm |
      fadd | fsub | fmul | fma | fmin | fmax | fsgn | fclass | frcp | frsq | fsqrt | fdiv | fexp2 | flog2 | ftrig | frnd | qblk | hadm |
      fdot | fred | fpack =>
    exact keepsForm_dest
  -- every other row has an opcode from 0x60 on, or none
  case ldsc | stsc | amsc | ldsh | stsh | amsh | ldcv | stcv | amcv | lddv | stdv | amdv | ldpr | stpr | ampr | ldhs | sths | amhs |
      waitv | pref | disc | swb | cctl | mzero | mwait | gshf | glen | gseed | copy | grid =>
    exact absurd (op_lt_of_coreOp rfl h) (by decide)
  all_goals exact (Bool.false_ne_true h).elim

/-- A clause header keeps the form: the clause is entered, the wave waits, or the header faults (08 R146 to R148). -/
theorem keepsForm_header (w : DWord) (s : State) : KeepsForm s (execClauseHeaderDecode w s) := by
  unfold execClauseHeaderDecode
  cases h : Ctx.of s with
  | none => rintro - t ⟨⟩
  | some c =>
    have hc : c.s = s := ctx_state h
    dsimp only
    split
    · exact keepsForm_next fun hs => settle_memWf _ (hc ▸ hs) trivial
    · split
      · exact keepsForm_next (sameMemory_stalled ..).memWf
      · exact keepsForm_next (hc ▸ (sameMemory_setWave ..).memWf)

/-- An unassigned word keeps the form: it faults (08 Table 8-3). -/
theorem keepsForm_unassigned (w : DWord) (s : State) : KeepsForm s (execUnassignedOpcode w s) := by
  unfold execUnassignedOpcode
  cases h : Ctx.of s with
  | none => rintro - t ⟨⟩
  | some c => exact keepsForm_next fun hs => settle_memWf _ (ctx_state h ▸ hs) trivial

/-- What runs on the core alone keeps the form. -/
theorem exec_keepsForm_of_coreOnly {i : Instr} (h : coreOnly i) (s : State) : KeepsForm s (exec i s) := by
  obtain ⟨n, ho, hn⟩ | ⟨w, rfl⟩ | ⟨w, rfl⟩ := h
  · exact exec_keepsForm s (by simpa [coreOp, ho] using hn)
  · exact keepsForm_header w s
  · exact keepsForm_unassigned w s

end Sys2Proof.Machine
end

section
/-!
PROOFS. A step of a wave that executes a UNI or VEC instruction, a clause header or an unassigned word keeps memory in canonical form;
settles O11. Reset leaves what the spec gives; settles O10.
-/
namespace Sys2Proof.Machine

open Sys2Proof Sys2Proof.Ob

/-! ### Steps that the fabric clock makes due -/

/-- A lease step touches no memory (03 R59). -/
theorem sameMemory_leaseStep (s : State) : sameMemory s s.leaseStep := by
  have bases (l : List Nat) (t : State) :
      sameMemory t (l.foldl (fun s c => s.rebaseAt (dieOfCore c) ((s.core c).tick.toNat + 1)) t) :=
    sameMemory_foldl (fun _ _ => sameMemory_rebaseAt ..) l t
  have ticks (l : List Nat) (t : State) : sameMemory t (l.foldl (fun s c => s.setCore c { s.core c with tick := (s.core c).tick + 1 }) t) :=
    sameMemory_foldl (fun s c => (⟨rfl, rfl, rfl⟩ : sameMemory s (s.setCore c _))) l t
  have counted : sameMemory s { s with leases := s.leases + 1 } := ⟨rfl, rfl, rfl⟩
  exact (counted.trans (bases allCores _)).trans (ticks allCores _)

/-- What the clock makes due keeps the form: a lease step, or a share window of the Cairn cores. -/
theorem due_keepsForm {s : State} {i : Instr} (h : s.dueNow = some i) : KeepsForm s (exec i s) := by
  have happening {p : Prop} [Decidable p] {t : State} (ht : sameMemory s t) : KeepsForm s (happens s (if p then some t else none)) := by
    refine keepsForm_next fun hs => ?_
    split
    · exact ht.memWf hs
    · exact hs
  unfold State.dueNow at h
  split at h
  · cases h
    exact happening (sameMemory_leaseStep s)
  · split at h
    · cases h
      exact happening ⟨rfl, rfl, rfl⟩
    · cases h

/-! ### A wave's turn -/

/-- A turn of an agent's own, whose state has memory in canonical form; what the clock makes due is none. -/
def Act.memWf : Act → Prop
  | .run _ t => t.memWf = true
  | .done t => t.memWf = true
  | .due _ _ => False

/-- The setting of a wave holds the state it was taken in. -/
theorem ctx_s {s : State} {id : WaveId} {c : Ctx} (h : s.ctx id = some c) : c.s = s := by
  unfold State.ctx at h
  repeat' split at h
  all_goals cases h
  rfl

/-- A word decoded keeps the form: it names an instruction, or its fault is taken (08 Table 8-3). -/
theorem decodeWord_memWf {c : Ctx} {s : State} (w : DWord) (hc : c.s.memWf = true) (hs : s.memWf = true) : (c.decodeWord s w).memWf := by
  unfold Ctx.decodeWord
  split
  · exact hs
  · dsimp only
    split
    · exact hs
    · split
      · exact precise_memWf hc hs
      · split
        · exact hs
        · exact precise_memWf hc hs
        · exact precise_memWf hc hs

/-- A wave's turn keeps the form, up to the instruction that it comes to. -/
theorem waveTurn_memWf {s : State} (id : WaveId) (hs : s.memWf = true) : (waveTurn s id).memWf := by
  unfold waveTurn
  cases h : s.ctx id with
  | none => exact hs
  | some c =>
    have hc : c.s.memWf = true := ctx_s h ▸ hs
    dsimp only
    split
    · exact takeLate_memWf _ _ _ _ hs
    · split
      · split
        · exact trapEntry_memWf ‹_› hs
        · exact (sameMemory_stalled ..).memWf hs
      · split
        · exact precise_memWf hc hs
        · split
          · exact (sameMemory_stalled ..).memWf hs
          · split
            · exact ((sameMemory_told ..).trans (sameMemory_reportLate ..)).memWf hs
            · refine decodeWord_memWf _ hc ?_
              split
              · exact touch_cache_memWf _ _ _ _ hs
              · exact touch_cache_memWf _ _ _ _ hs

/-- The turn of a wave that heads the agenda: what the clock makes due goes first, and an unpowered machine drops the entry. -/
theorem turn_of_wave {s : State} {id : WaveId} {r : List Turn} (h : s.agenda = .wave id :: r) :
    (∃ i, s.dueNow = some i ∧ s.turn = .due i s) ∨ s.turn = waveTurn { s with agenda := r, focus := .wave id } id ∨
      s.turn = .done { s with agenda := r } := by
  unfold State.turn
  rw [h]
  cases s.powered with
  | false => exact .inr (.inr rfl)
  | true =>
    cases hd : s.dueNow with
    | some i => exact .inl ⟨i, rfl, rfl⟩
    | none => exact .inr (.inl rfl)

/-- The clocks that advance keep the form. -/
theorem keepsForm_pass (s : State) : KeepsForm s (.next s.pass) := keepsForm_next (sameMemory_pass s).memWf

/-- What keeps the form keeps it once the clocks have advanced. -/
theorem keepsForm_afterRun {s : State} {o : Host.Outcome State Fault Refusal} (h : KeepsForm s o) : KeepsForm s (afterRun o) := by
  cases o with
  | next u => exact fun hs => keepsForm_pass u (h hs u rfl)
  | fault f => rintro - t ⟨⟩
  | refused f => rintro - t ⟨⟩

/-- Settles O11: what is due keeps the form (`due_keepsForm`), and so do a wave's turn (`waveTurn_memWf`) and the instruction it comes to
(`exec_keepsForm_of_coreOnly`); the clocks touch no memory. -/
theorem memoryStaysCanonical : Obligations.MemoryStaysCanonical := by
  intro s t id r hagenda hs hcore ht
  unfold step at ht
  rcases turn_of_wave hagenda with ⟨i, hi, hturn⟩ | hturn | hturn
  · rw [hturn] at ht
    exact due_keepsForm hi hs t ht
  · have own : (waveTurn { s with agenda := r, focus := .wave id } id).memWf := waveTurn_memWf id hs
    rw [hturn] at ht
    cases hact : waveTurn { s with agenda := r, focus := .wave id } id with
    | done u =>
      rw [hact] at own ht
      exact keepsForm_pass u own t ht
    | run i u =>
      rw [hact] at own ht
      exact keepsForm_afterRun (exec_keepsForm_of_coreOnly (hcore i u hact) u) own t ht
    | due i u =>
      rw [hact] at own
      exact own.elim
  · rw [hturn] at ht
    exact keepsForm_pass { s with agenda := r } hs t ht

/-! ### Reset (03 R49) -/

/-- Every die, listed or not, stands at its reset value. -/
theorem reset_die (d : Nat) : State.reset.die d = Die.reset := by
  unfold State.die State.reset
  rw [List.getElem?_replicate]
  split <;> rfl

/-- Settles O10: no map of the reset state lists anything, so functions, queues, views and device memory read their defaults. -/
theorem resetState : Obligations.ResetState := by
  refine ⟨rfl, rfl, rfl, fun _ => ⟨rfl, fun _ => rfl⟩, fun d a => ⟨?_, ?_⟩, rfl, rfl, rfl, rfl, rfl, rfl⟩
  · show State.reset.viewByte d a = 0
    unfold State.viewByte
    rw [reset_die]
    rfl
  · show State.reset.viewTag d a = 0
    unfold State.viewTag
    rw [reset_die]
    rfl

end Sys2Proof.Machine
end

section
/-!
PROOFS. A wave's stores are performed in their order (04 R64, R65, 13 R245): what STORE_DRAIN answers, by the space of the oldest store.
-/
namespace Sys2Proof.Machine

open Sys2Proof Sys2Proof.Ob

/-- A wave's oldest queued entry is a store, and nothing holds it back. -/
structure StoreHead (s : State) (id : WaveId) (w : Wave) (e : SqEntry) (r : List SqEntry) : Prop where
  wave : s.wave? id = some w
  free : s.holdsBack id.conv 3 = false
  queue : w.sq = e :: r
  kind : e.kind = .store

section
variable {s : State} {id : WaveId} {w : Wave} {e : SqEntry} {r : List SqEntry}

/-- No store is queued: none can be performed. -/
theorem drain_empty (hw : s.wave? id = some w) (hq : w.sq = []) : s.drain id = none := by
  simp only [State.drain, hw, hq, ite_self]

/-- The lines of a scratchpad store are written one after the other. -/
theorem drain_scratch (h : StoreHead s id w e r) (hs : e.space = .scratch) :
    s.drain id = some ((e.lines.foldl (fun s l => s.writeScratch (crewKeyOf id) l) s).popStore id) := by
  simp only [State.drain, h.wave, h.free, Bool.false_eq_true, if_false, h.queue, h.kind, hs]

/-- The lines of a store to convoy memory are written one after the other. -/
theorem drain_convoy (h : StoreHead s id w e r) (hs : e.space = .convoy) :
    s.drain id = some ((e.lines.foldl (fun s l => s.writeCmem id.conv l) s).popStore id) := by
  simp only [State.drain, h.wave, h.free, Bool.false_eq_true, if_false, h.queue, h.kind, hs]

/-- A DEVICE store takes its places in its die's order. -/
theorem drain_device (h : StoreHead s id w e r) (hs : e.space = .device) : s.drain id = s.drainDevice id w e := by
  simp only [State.drain, h.wave, h.free, Bool.false_eq_true, if_false, h.queue, h.kind, hs]

/-- A PEER store leaves as a DOM operation, and its messages enter their ports. -/
theorem drain_peer (h : StoreHead s id w e r) (hs : e.space = .peer) :
    s.drain id = some ((s.setWave id { w with sq := r, doms := w.doms ++ [.store e] }).unstall.sendMsgs id) := by
  simp only [State.drain, h.wave, h.free, Bool.false_eq_true, if_false, h.queue, h.kind, hs]

/-- A HOST store leaves as a DOM operation, the last of those that have left its die. -/
theorem drain_host (h : StoreHead s id w e r) (hs : e.space = .host) :
    s.drain id = some ((s.setWave id { w with sq := r, doms := w.doms ++ [.store e] }).unstall.leaveHost (dieOfCore w.core)
      (waveKey id)) := by
  simp only [State.drain, h.wave, h.free, Bool.false_eq_true, if_false, h.queue, h.kind, hs]

/-- A DEVICE store of one line is checked at the line's slice, takes its place, and is one of the lines that its wave wrote. -/
theorem drainDevice_single {l : LineWrite} {va set : Nat} {w1 : Wave} (hl : e.lines = [l]) (hi : e.info = [(va, set)])
    (hc : s.canWrite (dieOfCore w.core) l.line = true) (hm : s.memLost l.line = false)
    (h1 : ((s.checkedLine l.line va e.fn set 0).devWrite (dieOfCore w.core) l (.wave w.core)).wave? id = some w1) :
    s.drainDevice id w e = some ((((s.checkedLine l.line va e.fn set 0).devWrite (dieOfCore w.core) l (.wave w.core)).setWave id
      { w1 with wrote := w1.wrote ++ if w1.wrote.contains l.line then [] else [l.line] }).popStore id) := by
  have new : [l.line].filter (fun x => !w1.wrote.contains x) = if w1.wrote.contains l.line then [] else [l.line] := by
    rw [List.filter_singleton]
    cases w1.wrote.contains l.line <;> rfl
  simp only [State.drainDevice, SqEntry.pairs, hl, hi, List.zip_cons_cons, List.zip_nil_right, List.all_cons, List.all_nil, hc, Bool.and_self,
    Bool.not_true, Bool.false_eq_true, if_false, List.foldl_cons, List.foldl_nil, hm, h1, List.map_cons, List.map_nil, new]

end

/-- 04 R64, R65, 13 R245, 14 R256. STORE_DRAIN, by the space of the wave's oldest store. -/
theorem storesPerformed : StoresPerformed := by
  intro s id w hw
  refine ⟨fun hq => happens_none (drain_empty hw hq), fun e r hq hk hu => ?_⟩
  have h : StoreHead s id w e r := ⟨hw, hu, hq, hk⟩
  refine ⟨fun hs => happens_some (drain_scratch h hs), fun hs => happens_some (drain_convoy h hs), ?_,
    fun hs => happens_some (drain_peer h hs), fun hs => happens_some (drain_host h hs)⟩
  intro l va set hs hl hi hc hm s1 w1 h1
  exact happens_some ((drain_device h hs).trans (drainDevice_single hl hi hc hm h1))

end Sys2Proof.Machine
end

section
/-!
PROOFS. Lines that arrive at a stash, an assay cache or a main L1, the lease clock, and writes applied at a remote die; settles O50.
-/
namespace Sys2Proof.Machine

open Sys2Proof Sys2Proof.Ob

/-- A line's address is its own line. -/
theorem lineOf_of_aligned {a : Nat} (h : a % 64 = 0) : lineOf a = a := by unfold lineOf; omega

/-- Waves that look again change no line's record. -/
theorem lineDir_unstall (s : State) (line : Nat) : s.unstall.lineDir line = s.lineDir line := by
  unfold State.unstall
  split <;> rfl

/-! ### Stash fills (03 R52) -/

section
variable {s : State} {key line n o : Nat} {c : Crew} {b : Bind}

/-- A fill of a line that a stash owns has the owner give it up first. -/
theorem stashFillHere_owned {k : Nat} (hc : s.crew? key = some c) (hf : c.fillingAt line = some (n, b, o))
    (hp : (s.lineDir line).pinned = false) (hm : s.memHeld line = false) (hk : (s.pkg.any fun p => p.write.line == line) = false)
    (ho : (s.lineDir line).owner = some k) (hr : s.canRecall line = true) : s.stashFillHere key line = some (s.giveBack line) := by
  simp only [State.stashFillHere, hc, hf, hp, hm, hk, Bool.or_self, Bool.false_eq_true, if_false, ho, Option.isSome_some, if_true, hr]

/-- A line that no stash owns is the crew's once it has come. -/
theorem stashFillHere_owner (hc : s.crew? key = some c) (hf : c.fillingAt line = some (n, b, o))
    (hp : (s.lineDir line).pinned = false) (hm : s.memHeld line = false) (hk : (s.pkg.any fun p => p.write.line == line) = false)
    (ho : (s.lineDir line).owner = none) : ∃ t, s.stashFillHere key line = some t ∧ (t.lineDir line).owner = some key := by
  simp only [State.stashFillHere, hc, hf, hp, hm, hk, Bool.or_self, Bool.false_eq_true, if_false, ho, Option.isSome_none]
  refine ⟨_, rfl, ?_⟩
  rw [lineDir_unstall]
  exact congrArg LineDir.owner (lineDir_setLineDir _ line _)

end

/-! ### Assay fills (04 R85, R86) -/

/-- A copy that comes to a core's assay cache; a line of the cache may be named for its victim. -/
theorem assayFillHere_eq {s : State} {core line : Nat} {bad : Bool} (v : Option Nat)
    (hf : ((s.core core).fills.find? fun f => f.1 = line) = some (line, bad)) :
    s.assayFillHere core line (v.map Victim.assay) =
      (let held := v.elim (s.core core).assay fun v => (s.core core).assay.filter (· != lineOf v)
       let kept := if held.length < 1024 then held else held.drop 1
       some (s.setCore core { s.core core with
         fills := (s.core core).fills.filter fun f => f.1 != line
         assay := if bad || kept.contains line then kept else kept ++ [line] }).unstall) := by
  have room (l : List Nat) : (if assayLines ≤ l.length then l.drop 1 else l) = if l.length < 1024 then l else l.drop 1 := by
    simp only [assayLines, ← Nat.not_lt, ite_not]
  cases v <;> (simp only [State.assayFillHere, hf, Option.map_none, Option.map_some, room, Option.elim]; rfl)

/-! ### Leases (03 R58 to R60) -/

/-- A timestamp below the bound rebases nothing. -/
theorem rebaseAt_of_lt {s : State} {d t : Nat} (h : t < 0xF0000) : s.rebaseAt d t = s := if_neg (Nat.not_le.2 h)

/-- The later of two timestamps. -/
theorem toNat_later {n : Nat} (a b : BitVec n) : (if a.toNat < b.toNat then b else a).toNat = max a.toNat b.toNat := by
  split <;> omega

/-- A fill into a main L1: TICK comes up to the line's WTS, its RTS to the end of the lease, and a copy with that RTS is kept (03 R59). -/
theorem leaseFill_of_lt {s : State} {core line : Nat}
    (h : max (s.lineDir line).wts.toNat (s.core core).tick.toNat + (s.core core).lease.toNat < 0xF0000) :
    ((s.leaseFill core line).core core).tick.toNat = max (s.core core).tick.toNat (s.lineDir line).wts.toNat ∧
      ((s.leaseFill core line).lineDir line).rts.toNat = max (s.lineDir line).rts.toNat
        (max (s.core core).tick.toNat (s.lineDir line).wts.toNat + (s.core core).lease.toNat) ∧
      ((s.leaseFill core line).core core).miss = (s.core core).miss ∧
      ((s.core core).lease ≠ 0 → ∃ y ∈ ((s.leaseFill core line).core core).l1,
        y.line = line ∧ y.rts = ((s.leaseFill core line).lineDir line).rts) := by
  have kept (u : State) (k : Core) : (u.setCore core k).lineDir line = u.lineDir line := rfl
  simp only [State.leaseFill, rebaseAt_of_lt h, core_setCore, kept, lineDir_setLineDir, toNat_later]
  refine ⟨trivial, ?_, trivial, fun hl => ?_⟩
  · rw [BitVec.toNat_add, toNat_later, BitVec.toNat_setWidth]
    omega
  · rw [if_neg hl]
    exact ⟨_, List.mem_append_right _ (List.mem_singleton_self _), rfl, rfl⟩

/-- The slot of a line that has come is free; nothing else of its core changes. -/
theorem core_freeMiss (s : State) (core line : Nat) :
    (s.freeMiss core line).core core = { s.core core with miss := (s.core core).miss.filter fun m => m.line != line } :=
  core_setCore s core _

/-- A slot that is free again changes no line's record. -/
theorem lineDir_freeMiss (s : State) (core line q : Nat) : (s.freeMiss core line).lineDir q = s.lineDir q := rfl

/-- The answer to a main core's own request fills its L1 and frees the slot (03 R59, R62). -/
theorem leaseAnswer_main {s : State} {core line : Nat} (hp : (s.lineDir line).pinned = false) (hm : s.memHeld line = false)
    (h : mainFill s core line) : s.leaseAnswer core line = (s.leaseFill core line).freeMiss core line := by
  obtain ⟨m, hf, hk⟩ := h
  simp [State.leaseAnswer, hp, hm, hf, hk]

/-- No core's TICK is near the bound: no die rebases. -/
theorem foldl_rebaseAt_of_lt {s : State} (l : List Nat) (h : ∀ c ∈ l, (s.core c).tick.toNat + 1 < 0xF0000) :
    l.foldl (fun s c => s.rebaseAt (dieOfCore c) ((s.core c).tick.toNat + 1)) s = s := by
  induction l with
  | nil => rfl
  | cons c l ih =>
    obtain ⟨hc, hl⟩ := List.forall_mem_cons.1 h
    rw [List.foldl_cons, rebaseAt_of_lt hc, ih hl]

/-- A core's TICK one further. -/
def State.tickCore (s : State) (c : Nat) : State := s.setCore c { s.core c with tick := (s.core c).tick + 1 }

/-- TICKs that rise leave the lines' records, the waves and the count of lease steps. -/
theorem foldl_tickCore_frame (l : List Nat) (s : State) : (l.foldl State.tickCore s).dir = s.dir ∧
    (l.foldl State.tickCore s).waves = s.waves ∧ (l.foldl State.tickCore s).leases = s.leases := by
  induction l generalizing s with
  | nil => exact ⟨rfl, rfl, rfl⟩
  | cons c l ih => exact ih (s.tickCore c)

/-- Of the cores named once each, every TICK rises by one. -/
theorem core_foldl_tickCore {l : List Nat} (hl : l.Nodup) (s : State) (c : Nat) :
    (l.foldl State.tickCore s).core c = if c ∈ l then { s.core c with tick := (s.core c).tick + 1 } else s.core c := by
  induction l generalizing s with
  | nil => rfl
  | cons a l ih =>
    obtain ⟨ha, hl⟩ := List.nodup_cons.1 hl
    rw [List.foldl_cons, ih hl]
    by_cases hc : c = a
    · subst hc
      simp [State.tickCore, ha]
    · simp [State.tickCore, core_setCore_ne _ _ hc, hc]

/-- A lease step with no TICK near the bound raises every core's TICK by one and counts (00 R4, 03 R59). -/
theorem leaseStep_of_lt {s : State} (h : ∀ c, c < 256 → (s.core c).tick.toNat + 1 < 0xF0000) :
    s.leaseStep = allCores.foldl State.tickCore { s with leases := s.leases + 1 } := by
  have still := foldl_rebaseAt_of_lt (s := { s with leases := s.leases + 1 }) allCores fun c hc => h c (List.mem_range.1 hc)
  unfold State.leaseStep
  rw [still]
  rfl

/-- 03 R52, R58 to R60, 04 R66, R85, R86, 02 R44. Lines that arrive, the lease clock, remote writes. -/
theorem lineArrivals : LineArrivals := by
  intro s
  refine ⟨?_, ?_, ?_, fun die => rfl, ?_, ?_, ?_, ?_⟩
  · intro conv crew line c n b o ha hc hf hp hm hk
    have here : exec (.stashFillArrival conv crew line) s = happens s (s.stashFillHere (8 * conv + crew) (lineOf line)) := rfl
    rw [here, lineOf_of_aligned ha]
    refine ⟨fun k ho hr => happens_some (stashFillHere_owned hc hf hp hm hk ho hr), fun ho => ?_⟩
    obtain ⟨t, ht, owner⟩ := stashFillHere_owner hc hf hp hm hk ho
    exact ⟨t, happens_some ht, owner⟩
  · intro core line bad v ha hf
    have here : exec (.assayFillArrival core line (v.map Victim.assay)) s =
        happens s (s.assayFillHere core (lineOf line) (v.map Victim.assay)) := rfl
    rw [here, lineOf_of_aligned ha]
    exact happens_some (assayFillHere_eq v hf)
  · intro core line ha hp hm hf x k hlt
    obtain ⟨tick, rts, miss, copy⟩ := leaseFill_of_lt hlt
    have here : exec (.leaseFill core line) s = .next (s.leaseAnswer core (lineOf line)) := rfl
    rw [here, lineOf_of_aligned ha, leaseAnswer_main hp hm hf]
    refine ⟨(s.leaseFill core line).freeMiss core line, rfl, ?_⟩
    rw [core_freeMiss, lineDir_freeMiss]
    exact ⟨tick, rts, congrArg _ miss, copy⟩
  · intro h
    have early : s.leaseDue = false := decide_eq_false (Nat.not_le.2 h)
    exact happens_none (by rw [early]; rfl)
  · intro h hlt
    have due : s.leaseDue = true := decide_eq_true h
    obtain ⟨dir, waves, leases⟩ := foldl_tickCore_frame allCores { s with leases := s.leases + 1 }
    rw [← leaseStep_of_lt hlt] at dir waves leases
    refine ⟨s.leaseStep, happens_some (by rw [due]; rfl), dir, waves, leases, fun c hc => ?_⟩
    rw [leaseStep_of_lt hlt, core_foldl_tickCore (l := allCores) List.nodup_range, if_pos (show c ∈ allCores from List.mem_range.2 hc)]
    exact ⟨rfl, rfl⟩
  · intro d i h
    exact happens_some (by rw [h]; rfl)
  · intro d i h
    exact happens_none (by rw [h]; rfl)

/-- Settles O50: STORE_DRAIN by `storesPerformed`, the lines that arrive by `lineArrivals`. -/
theorem storeDrain : Obligations.StoreDrain := ⟨storesPerformed, lineArrivals⟩

end Sys2Proof.Machine
end

section
/-!
PROOFS. Requests and answers of other devices and of the host reach this device's memory and its waves (04 R72 to R76, 22 R372, R377 to
R379).
-/
namespace Sys2Proof.Machine

open Sys2Proof Sys2Proof.Ob

/-! ### Requests of other devices (22 R378, R379) -/

section
variable {s : State} {r : PeerReq} {pa : Nat}

/-- A PEER write takes its place in its home die's order where it is accepted. -/
theorem peerArrives_write {data : List Byte} {tag : Tag} (ht : s.peerTarget r = some pa) (hm : s.memLost pa = false)
    (ho : r.op = .write data tag) (hne : data ≠ []) (hfit : pa % 64 + data.length ≤ 64)
    (hc : s.canWrite (homeDie pa) (lineOf pa) = true) :
    s.peerArrives r = (s.devWrite (homeDie pa) (lineWrite pa data (some tag)) .peer).owe r (homeDie pa) (some (lineOf pa)) .ok [] := by
  have fits : (data.isEmpty || decide (64 < pa % 64 + data.length)) = false := by
    rw [decide_eq_false (Nat.not_lt.2 hfit), Bool.or_false, List.isEmpty_eq_false_iff]
    exact hne
  simp only [State.peerArrives, ht, hm, ho, fits, hc, Bool.not_true, Bool.false_eq_true, if_false]

/-- A PEER atomic reads and writes at its home in one step, and answers with the old value. -/
theorem peerArrives_atomic {op : AOp} {ty : BitVec 2} {b c : DWord} (ht : s.peerTarget r = some pa) (hm : s.memLost pa = false)
    (ho : r.op = .atomic op ty b c) (ha : pa % atomBytes op ty = 0) (hc : s.canWrite (homeDie pa) (lineOf pa) = true) :
    s.peerArrives r = (s.devWrite (homeDie pa) (lineWrite pa (leBytes (atomBytes op ty)
      (atomNew op ty (s.devVal (homeDie pa) pa (atomBytes op ty)) b.toNat c.toNat)) none) .peer).owe r (homeDie pa) (some (lineOf pa)) .ok
        (leBytes (atomBytes op ty) (s.devVal (homeDie pa) pa (atomBytes op ty))) := by
  simp only [State.peerArrives, ht, hm, ho, ha, hc, ne_eq, not_true_eq_false, Bool.not_true, Bool.false_eq_true, if_false]

/-- A PEER read answers with the bytes of the line at its home. -/
theorem peerArrives_read {n : Nat} {t : State} {b : List Byte} {tag : Tag} (ht : s.peerTarget r = some pa) (hm : s.memLost pa = false)
    (ho : r.op = .read n) (hl : s.readDevice (homeDie pa) (lineOf pa) = .line t b tag) :
    s.peerArrives r = t.owe r (homeDie pa) none .ok ((b.drop (pa % 64)).take n) := by
  simp only [State.peerArrives, ht, hm, ho, hl, Bool.false_eq_true, if_false]

/-- A request that is not accepted touches nothing. -/
theorem peerArrives_refused (ht : s.peerTarget r = none) : s.peerArrives r = s.owe r 0 none .unsupported [] := by
  simp only [State.peerArrives, ht]

end

/-! ### Answers to an access that waits (04 R74, R76) -/

section
variable {s : State} {id : WaveId} {w : Wave} {cv : Convoy} {f : FarReq} {line cls : Nat} {r : List (Nat × Nat)}

/-- The state once the answer for the first line of a wave's far access has come, in `v`: its bytes and tag stand as they are in `u`. -/
def answered (u v : State) (id : WaveId) (w : Wave) (cv : Convoy) (f : FarReq) (line cls : Nat) (r : List (Nat × Nat)) (st : FarStatus) :
    State :=
  v.draw.setWave id { w with stall := false, far := some { f with
    lines := r
    got := f.got ++ [{ line := line, status := st, bytes := (u.farLine cv.vf cls line).1, tag := (u.farLine cv.vf cls line).2 }] } }

/-- A wave that waits for no far access takes no answer. -/
theorem answer_none (hw : s.wave? id = some w) (hf : w.far = none) (sp : Space) (st : FarStatus) : s.answer id sp st = none := by
  simp only [State.answer, hw, hf]

/-- A message that has landed changes no convoy. -/
theorem convoy_landed (s : State) (m : CwMsg) (k : Nat) : (s.landed m).convoy? k = s.convoy? k := by
  unfold State.landed
  split <;> rfl

/-- A far access takes the answer for its first line; a load's die keeps the line as a copy. -/
theorem answer_first {sp : Space} (hw : s.wave? id = some w) (hv : s.convoy? id.conv = some cv) (hf : w.far = some f)
    (hl : f.lines = (line, cls) :: r) (hb : f.behind = 0) (hs : f.space = sp)
    (hp : sp = .peer → s.flying (.request (waveKey id) line) ≠ 0) (st : FarStatus) :
    s.answer id sp st = some (
      let u := s.landed (.request (waveKey id) line)
      answered u (if st = .ok ∧ f.atomic = false then u.keepCopy (dieOfCore w.core) cv.vf cls line (u.farLine cv.vf cls line) else u)
        id w cv f line cls r st) := by
  have goes : ¬((decide (f.space ≠ sp) || decide (0 < f.behind) || decide (sp = .peer) && decide (s.flying (.request (waveKey id) line) = 0)) =
      true) := by
    simp only [hs, hb, ne_eq, not_true_eq_false, decide_false, Nat.lt_irrefl, Bool.false_or, Bool.and_eq_true, decide_eq_true_eq, not_and]
    exact hp
  simp only [State.answer, hw, hf, hl, if_neg goes, convoy_landed, hv, Option.map_some, Option.getD_some, Bool.and_eq_true, decide_eq_true_eq,
    Bool.not_eq_true', answered]

end

/-! ### HOST stores in flight (22 R372) -/

section
variable {s : State} {id : WaveId} {w : Wave} {i : Nat} {e : SqEntry}

/-- The wave's operation at a place, a HOST store, is the next that the host interface ends. -/
structure HostTurn (s : State) (id : WaveId) (w : Wave) (i : Nat) (e : SqEntry) : Prop where
  wave : s.wave? id = some w
  free : s.holdsBack id.conv 4 = false
  first : (s.die (dieOfCore w.core)).hostOut.head? = some (waveKey id)
  next : hostNext w.doms = some (i, .store e)

/-- The die's oldest HOST write is the wave's, and nothing holds it back. -/
theorem HostTurn.goes (h : HostTurn s id w i e) :
    (s.holdsBack id.conv 4 || (s.die (dieOfCore w.core)).hostOut.head? != some (waveKey id)) = false := by
  rw [h.first, h.free]
  exact bne_self_eq_false _

/-- A HOST store becomes visible: its bytes stand in the host's memory. -/
theorem hostAck_visible (h : HostTurn s id w i e) : s.hostAck id none = some (State.setDoms { s.hostOver (dieOfCore w.core) 0 with
    hostMem := e.lines.foldl (fun m l => l.bytes.foldl (fun m p => m.write (l.line + p.1) p.2) m) (s.hostOver (dieOfCore w.core) 0).hostMem }
    id (setAt w.doms i .done)) := by
  simp only [State.hostAck, h.wave, h.goes, h.next, Bool.false_eq_true, if_false]

/-- A HOST store that fails ends with a late fault at its first line. -/
theorem hostAck_fault (h : HostTurn s id w i e) (c : BitVec 10) :
    s.hostAck id (some c) = some (((s.hostOver (dieOfCore w.core) 0).setDoms id (setAt w.doms i .done)).reportLate (waveKey id) e.hnd
      { cause := c, faddr := BitVec.ofNat 57 (e.info.headD (0, 0)).1 }) := by
  simp only [State.hostAck, h.wave, h.goes, h.next, Bool.false_eq_true, if_false]

end

/-! ### PEER stores and atomics in flight (04 R73, R76) -/

section
variable {s : State} {id : WaveId} {w : Wave}

/-- A list of one entry has that one at any place counted round it. -/
theorem getElem?_singleton_mod {α : Type} (x : α) (n : Nat) : [x][n % [x].length]? = some x := by
  rw [List.length_singleton, Nat.mod_one]; rfl

/-- The operations in flight, by place and line, that a PEER_RESPONSE may be for. -/
def answerable (s : State) (id : WaveId) (w : Wave) : List (Nat × Nat) :=
  if s.holdsBack id.conv 4 then []
  else ((peerNext w.doms).filter fun p => s.pageFirst (waveKey id) (lineAt w.doms p.1 p.2)) ++ atomNext w.doms .peer

/-- The one line of the one PEER store in flight, and how an answer ends it. -/
structure PeerTurn (s : State) (id : WaveId) (w : Wave) (e : SqEntry) (x : LineWrite) (va set : Nat) : Prop where
  wave : s.wave? id = some w
  free : s.holdsBack id.conv 4 = false
  doms : w.doms = [.store e]
  space : e.space = .peer
  lines : e.lines = [x]
  info : e.info = [(va, set)]
  sent : s.pageFirst (waveKey id) x.line = true

section
variable {e : SqEntry} {x : LineWrite} {va set : Nat}

/-- It is the first of its page, so it is the one that an answer is for. -/
theorem PeerTurn.next (h : PeerTurn s id w e x va set) : answerable s id w = [(0, 0)] := by
  have one : peerNext [.store e] = [(0, 0)] := by simp [peerNext, h.space, h.lines]
  have line : lineAt [.store e] 0 0 = x.line := by simp [lineAt, h.lines]
  have atom : atomNext [.store e] .peer = [] := by simp [atomNext]
  rw [answerable, h.free, h.doms, one, atom]
  simp [line, h.sent]

/-- Its store has no other line. -/
theorem PeerTurn.ended (h : PeerTurn s id w e x va set) : dropLine w.doms 0 0 = [.done] := by
  simp [dropLine, h.doms, h.lines, dropAt, setAt]

/-- The line is written at the other device, where the function is bound there. -/
theorem peerAck_written (h : PeerTurn s id w e x va set)
    (hb : ((s.draw.landed (.write (waveKey id) x.line)).boundFn e.fn (x.line / 2 ^ 44 % 256)).isSome = true) :
    s.peerAck id .ok = some (((s.draw.landed (.write (waveKey id) x.line)).writePeer e.fn x).setDoms id [.done]) := by
  have bound := Option.isNone_eq_false_iff.2 hb
  simp only [State.peerAck, h.wave, ← answerable.eq_1, h.next, getElem?_singleton_mod, h.ended]
  simp only [h.doms, h.lines, List.getElem?_cons_zero, bound, Bool.false_eq_true, if_false]

/-- A line that its target refuses, or whose port fails, ends with a late fault. -/
theorem peerAck_fault (h : PeerTurn s id w e x va set) {st : FarStatus} {c : BitVec 10}
    (hc : st = .unsupported ∧ c = cTranslate 4 7 ∨ st = .linkDown ∧ c = cMemerr 7 2) :
    s.peerAck id st = some (((s.draw.landed (.write (waveKey id) x.line)).setDoms id [.done]).reportLate (waveKey id) e.hnd
      { cause := c, faddr := BitVec.ofNat 57 va }) := by
  simp only [State.peerAck, h.wave, ← answerable.eq_1, h.next, getElem?_singleton_mod, h.ended]
  simp only [h.doms, h.lines, h.info, List.getElem?_cons_zero, Option.getD_some]
  obtain ⟨rfl, rfl⟩ | ⟨rfl, rfl⟩ := hc <;> rfl

end

/-- The one PEER atomic in flight is over with its answer, whatever that says. -/
theorem peerAck_atomic (hw : s.wave? id = some w) (hu : unheld s id 4) (hd : w.doms = [.atomic .peer]) (st : FarStatus) :
    s.peerAck id st = some (s.draw.setDoms id [.done]) := by
  have next : answerable s id w = [(0, 0)] := by
    rw [answerable, show s.holdsBack id.conv 4 = false from hu, hd]
    simp [peerNext, atomNext]
  have ended : dropLine w.doms 0 0 = [.done] := by simp [dropLine, hd, setAt]
  simp only [State.peerAck, hw, ← answerable.eq_1, next, getElem?_singleton_mod, ended]
  simp only [hd, List.getElem?_cons_zero]

end

/-- 04 R72 to R76, 22 R372, R377 to R379. Requests and answers from outside. -/
theorem farAnswersArrive : FarAnswersArrive := by
  intro s
  refine ⟨?_, ?_, ?_, ?_, ?_, ?_, ?_, ?_⟩
  · intro r pa data tag ht hm ho hne hfit hc
    exact congrArg _ (peerArrives_write ht hm ho hne hfit hc)
  · intro r pa op ty b c ht hm ho ha hc
    exact congrArg _ (peerArrives_atomic ht hm ho ha hc)
  · intro r pa n t b tag ht hm ho hl
    exact congrArg _ (peerArrives_read ht hm ho hl)
  · intro r ht
    exact congrArg _ (peerArrives_refused ht)
  · intro id w cv f st line cls r hw hv hf hl hb u l v t
    refine ⟨fun hs hp => happens_some ?_, fun hs => ⟨happens_some ?_, happens_some ?_⟩⟩
    · rw [answer_first hw hv hf hl hb hs (fun _ => hp)]; rfl
    · rw [answer_first hw hv hf hl hb hs nofun]; rfl
    · rw [answer_first hw hv hf hl hb hs nofun]; rfl
  · intro id w i e hw hf hu hfirst hn u t va
    have turn : HostTurn s id w i e := ⟨hw, hu, hfirst, hn⟩
    have waits := answer_none hw hf .host
    refine ⟨happens_some ?_, happens_some ?_, happens_some (hostAck_fault turn _)⟩
    · rw [waits]; exact hostAck_visible turn
    · rw [waits]; exact hostAck_fault turn _
  · intro id w e x va set hw hf hu hd hs hl hi hp u hb
    have turn : PeerTurn s id w e x va set := ⟨hw, hu, hd, hs, hl, hi, hp⟩
    have waits := answer_none hw hf .peer
    refine ⟨happens_some ?_, happens_some ?_, happens_some ?_⟩
    · rw [waits]; exact peerAck_written turn hb
    · rw [waits]; exact peerAck_fault turn (.inl ⟨rfl, rfl⟩)
    · rw [waits]; exact peerAck_fault turn (.inr ⟨rfl, rfl⟩)
  · intro id w hw hf hu hd st
    exact happens_some (by rw [answer_none hw hf]; exact peerAck_atomic hw hu hd st)

end Sys2Proof.Machine
end

section
/-!
PROOFS. Collectives, messages and late faults reach their waves (14 R284, R286, 22 R381, 04 R83, 19 R328, R329); settles O51.
-/
namespace Sys2Proof.Machine

open Sys2Proof Sys2Proof.Ob

/-! ### Collectives (14 R286, 22 R381) -/

/-- A wave's oldest DOM operation is a COLL. -/
structure CollHead (s : State) (id : WaveId) (w : Wave) (cv : Convoy) (o : CollOp') (h : Bool) (r : List DomOp) : Prop where
  wave : s.wave? id = some w
  convoy : s.convoy? id.conv = some cv
  doms : w.doms = .coll o h :: r

/-- The COLL at the head of a wave's DOM operations is over. -/
def collEnd (s : State) (id : WaveId) (o : CollOp') : State := domOver (s.collOver (waveKey id) o) id 0

section
variable {s : State} {id : WaveId} {w : Wave} {cv : Convoy} {o : CollOp'} {h : Bool} {r : List DomOp} {data : List (List Byte)}

/-- A COLL some message of which has not left by a port cannot complete. -/
theorem collStep_unasked (c : CollHead s id w cv o h r) (ha : ¬allAsked s id w cv o) (agree : Bool) : s.collStep id data agree = none := by
  have waits : ((s.collMsgs (waveKey id) cv.vf (dieOfCore w.core) o).any fun m => s.flying m.1 = 0) = true := by
    simpa [allAsked] using ha
  simp only [State.collStep, c.wave, c.convoy, c.doms, List.zipIdx_cons, List.findSome?_cons, waits, if_true]

variable (ha : allAsked s id w cv o)
include ha

/-- No message of the COLL is still to be sent. -/
theorem collMsgs_asked : ((s.collMsgs (waveKey id) cv.vf (dieOfCore w.core) o).any fun m => s.flying m.1 = 0) = false := by
  rw [List.any_eq_false]
  exact fun m hm => by simpa using ha m hm

/-- Members that disagree end the COLL with QUEUE/COLL-MISMATCH. -/
theorem collStep_mismatch (c : CollHead s id w cv o h r) : s.collStep id data false =
    some ((collEnd s id o).reportLate (waveKey id) h { cause := cQueue 7, faddr := 0 }) := by
  simp only [State.collStep, c.wave, c.convoy, c.doms, List.zipIdx_cons, List.findSome?_cons, collMsgs_asked ha, Bool.not_false,
    Bool.false_eq_true, if_false, if_true, collEnd, domOver]
  cases (s.collOver (waveKey id) o).wave? id <;> rfl

/-- A .BCAST whose root is no live member ends with QUEUE/GROUP. -/
theorem collStep_rootless (c : CollHead s id w cv o h r) (hop : o.op = .bcast)
    (hroot : ∀ m ∈ s.members cv.vf (dieOfCore w.core) o.table, m.1 ≠ o.root) :
    s.collStep id data true = some ((collEnd s id o).reportLate (waveKey id) h { cause := cQueue 6, faddr := 0 }) := by
  have gone : ((s.members cv.vf (dieOfCore w.core) o.table).any fun m => m.1 == o.root) = false := by
    rw [List.any_eq_false]
    exact fun m hm => by simpa using hroot m hm
  simp only [State.collStep, c.wave, c.convoy, c.doms, List.zipIdx_cons, List.findSome?_cons, collMsgs_asked ha, Bool.not_true,
    Bool.false_eq_true, if_false, hop, decide_true, gone, Bool.not_false, Bool.and_self, if_true, collEnd, domOver]
  cases (s.collOver (waveKey id) o).wave? id <;> rfl

/-- Members that agree, whose lines can be read and written: the result is written, and the COLL is over. -/
theorem collStep_result (c : CollHead s id w cv o h r) {src_ dst_ : List (Nat × Xlat × Nat)} {own : List (List Byte × Tag)} {t : State}
    (hroot : o.op = .bcast → ∃ m ∈ s.members cv.vf (dieOfCore w.core) o.table, m.1 = o.root)
    (hsrc : s.collLines cv.vf (dieOfCore w.core) h .engRead o.src
      (if o.op = .rsum then (s.members cv.vf (dieOfCore w.core) o.table).length * o.n else o.n) = .ok src_)
    (hdst : s.collLines cv.vf (dieOfCore w.core) h .engWrite o.dst
      (if o.op = .gath then (s.members cv.vf (dieOfCore w.core) o.table).length * o.n else o.n) = .ok dst_)
    (hown : State.readLines (dieOfCore w.core) s (src_.map fun p => p.2.2) = .ok (t, own))
    (hrd : ∀ p ∈ src_, t.touchable p.2.1 false = true)
    (hwr : ∀ p ∈ dst_, t.memLost p.2.2 = false ∧ t.touchable p.2.1 true = true ∧ t.canWrite (dieOfCore w.core) p.2.2 = true) :
    let self := (s.tableVal cv.vf (dieOfCore w.core) o.table 6 2).getD 0
    let mem := s.members cv.vf (dieOfCore w.core) o.table
    s.collStep id data true = some (collEnd (State.collWrite { t with freeCtr := t.freeCtr + o.n } cv.vf (dieOfCore w.core) (CollTy.tag o.ty)
      src_ dst_ (collResult o mem (fun m => if m.1 = self then own.flatMap Prod.fst else data[m.1]?.getD [])
        ((mem.findIdx? fun m => m.1 == self).getD 0) fun k => Config.free (t.freeCtr + k))) id o) := by
  have rooted : (decide (o.op = .bcast) && !((s.members cv.vf (dieOfCore w.core) o.table).any fun m => m.1 == o.root)) = false := by
    by_cases hop : o.op = .bcast
    · obtain ⟨m, hm, hr⟩ := hroot hop
      rw [List.any_eq_true.2 ⟨m, hm, by simpa using hr⟩, Bool.not_true, Bool.and_false]
    · rw [decide_eq_false hop, Bool.false_and]
  have here : (dst_.find? fun p => t.memLost p.2.2) = none := by
    rw [List.find?_eq_none]
    exact fun p hp => by simp [(hwr p hp).1]
  have reachable : (!(dst_.all fun p => t.touchable p.2.1 true && t.canWrite (dieOfCore w.core) p.2.2) ||
      !(src_.all fun p => t.touchable p.2.1 false)) = false := by
    rw [List.all_eq_true.2 hrd, List.all_eq_true.2 fun p hp => by rw [(hwr p hp).2.1, (hwr p hp).2.2]; rfl]
    rfl
  simp only [State.collStep, c.wave, c.convoy, c.doms, List.zipIdx_cons, List.findSome?_cons, collMsgs_asked ha, Bool.not_true,
    Bool.false_eq_true, if_false, rooted, hsrc, hdst, hown, here, reachable, collEnd, domOver]
  generalize State.collWrite _ _ _ _ _ _ _ = u
  cases (u.collOver (waveKey id) o).wave? id <;> rfl

end

/-! ### Messages (14 R284) -/

section
variable {s : State} {id : WaveId} {w : Wave} {cv : Convoy} {m : MsgOp}

/-- A trigger that joins a queue leaves the waves. -/
theorem wave_enqueue (s : State) (n : Nat) (t : Trigger) (id : WaveId) : (s.enqueue n t).1.wave? id = s.wave? id := by
  obtain ⟨-, waves, -⟩ := sameAgents_enqueue s n t
  exact congrArg (look · (waveKey id)) waves

/-- The wave's one message joins the queue of its home slice and is reported. -/
theorem messageStep_accepted (hw : s.wave? id = some w) (hv : s.convoy? id.conv = some cv) (hm : w.msgs = [m]) (hd : m.done = false)
    (hu : unheld s id 4) (hq : (s.slice (s.homeSlice m.pa)).queue.length < 64) :
    s.messageStep id = some ((s.draw.enqueue (s.homeSlice m.pa)
      (msgTrigger m.pa m.va cv.vf m.set 0 m.words (some (crewKeyOf id)))).1.setWave id { w with msgs := [], cMsg := w.cMsg - 1 }).unstall := by
  have ready : (w.msgs.zipIdx.filter fun p => !p.1.done && !s.holdsBack id.conv 4 &&
      decide ((s.slice (s.homeSlice p.1.pa)).queue.length < 64)) = [(m, 0)] := by
    rw [hm]
    simp [hd, hq, show s.holdsBack id.conv 4 = false from hu]
  have reported : ({ w with msgs := setAt w.msgs 0 { m with done := true } } : Wave).reportMsgs = { w with msgs := [], cMsg := w.cMsg - 1 } := by
    rw [hm]
    rfl
  have kept : (s.draw.enqueue (s.homeSlice m.pa) (msgTrigger m.pa m.va cv.vf m.set 0 m.words (some (crewKeyOf id)))).1.wave? id = some w :=
    (wave_enqueue ..).trans hw
  simp only [State.messageStep, hw, hv, ready, getElem?_singleton_mod, kept, reported]

/-- A message whose home slice has no room waits. -/
theorem messageStep_full (hw : s.wave? id = some w) (hv : s.convoy? id.conv = some cv) (hm : w.msgs = [m])
    (hq : 64 ≤ (s.slice (s.homeSlice m.pa)).queue.length) : s.messageStep id = none := by
  have none_ready : (w.msgs.zipIdx.filter fun p => !p.1.done && !s.holdsBack id.conv 4 &&
      decide ((s.slice (s.homeSlice p.1.pa)).queue.length < 64)) = [] := by
    rw [hm]
    simp [Nat.not_lt.2 hq]
  simp only [State.messageStep, hw, hv, none_ready, List.getElem?_nil]

end

/-! ### Late faults (19 R328, R329) -/

section
variable {s : State} {id : WaveId} {w : Wave} {cv : Convoy} {x : BitVec 10}

/-- A late fault that is held is taken at kernel level. -/
theorem lateStep_taken {f : LateF} (hw : s.wave? id = some w) (hv : s.convoy? id.conv = some cv) (hf : w.late = some f)
    (hl : w.level = .kernel) (hc : (s.ctx id).isSome = true) (a : BitVec 57) : s.lateStep id x a = some (s.takeLate id w cv f) := by
  simp only [State.lateStep, hw, hv, hf, hl, hc, if_true]

end

section
variable {x : BitVec 10} (ha : x.toNat / 64 ≠ 12) (hm : x.toNat / 64 ≠ 13)

include hm in
/-- A cause of another class is no memory error. -/
theorem memerrOf_eq_false (l : List Nat) : memerrOf l x = false := by
  simp [memerrOf, hm]

include ha in
/-- A cause of another class is no cause of the assay. -/
theorem ne_cAssay {n : Nat} (hn : n < 64) : x ≠ cAssay n := by
  rintro rfl
  rw [cAssay, causeOf, BitVec.toNat_ofNat] at ha
  omega

include ha hm

/-- No copy meets a cause outside the classes ASSAY and MEMERR (19 R340, R342). -/
theorem copyLate_eq_false : copyLate x = false := by
  simp [copyLate, ne_cAssay ha, memerrOf_eq_false hm]

/-- No DOM operation does. -/
theorem domOp_late_eq_none (o : DomOp) : o.late x = none := by
  cases o <;> simp [DomOp.late, domLate, collLate, ne_cAssay ha, memerrOf_eq_false hm]

/-- No Gravel operation does. -/
theorem gravelLate_eq_false : gravelLate x = false := by
  simp [gravelLate, ne_cAssay ha, memerrOf_eq_false hm]

/-- No matrix operation does. -/
theorem mOpKind_late_eq_false (o : MOpKind) : o.late x = false := by
  cases o <;> simp [MOpKind.late, ne_cAssay ha, memerrOf_eq_false hm]

/-- So the wave abandons nothing. -/
theorem abandonOne_none (s : State) (id : WaveId) (w : Wave) (a : BitVec 57) : s.abandonOne id w { cause := x, faddr := a } = none := by
  have copies : (w.copies.zipIdx.find? fun p => !p.1.left.isEmpty && copyLate x) = none := by
    simp [List.find?_eq_none, copyLate_eq_false ha hm]
  have doms : (w.doms.zipIdx.findSome? fun p => (p.1.late x).map fun h => (p.2, h)) = none := by
    simp [List.findSome?_eq_none_iff, domOp_late_eq_none ha hm]
  have unmet {α : Type} (l : Option α) : l.filter (fun _ => false) = none := by cases l <;> rfl
  simp only [State.abandonOne, copies, doms, gravelLate_eq_false ha hm, mOpKind_late_eq_false ha hm, Bool.and_false, unmet,
    Option.map_none, List.findSome?_eq_none_iff, implies_true]

end

/-- 14 R284, R286, 22 R381, 04 R83, 19 R328, R329. Collectives, messages and late faults. -/
theorem waveReports : WaveReports := by
  intro s id w cv hw hv
  refine ⟨?_, ?_, ?_, ?_, ?_, ?_⟩
  · intro o h r data hd ha d mem self
    have c : CollHead s id w cv o h r := ⟨hw, hv, hd⟩
    refine ⟨happens_some (collStep_mismatch ha c), fun hop hroot => happens_some (collStep_rootless ha c hop hroot), ?_⟩
    intro src_ dst_ own t hroot hsrc hdst hown hrd hwr of free out
    exact happens_some (collStep_result ha c hroot hsrc hdst hown hrd hwr)
  · intro o h r data agree hd ha
    exact happens_none (collStep_unasked ⟨hw, hv, hd⟩ ha agree)
  · intro m hm hd hu hq q w1 h1
    obtain rfl : w = w1 := Option.some.inj (hw.symm.trans ((wave_enqueue s.draw ..).symm.trans h1))
    exact happens_some (messageStep_accepted hw hv hm hd hu hq)
  · intro m hm hq
    exact happens_none (messageStep_full hw hv hm hq)
  · intro f x a hf hl hc
    exact happens_some (lateStep_taken hw hv hf hl hc a)
  · intro x a hf ha hm
    refine happens_none ?_
    simp only [State.lateStep, hw, hv, hf, Option.bind_some, abandonOne_none ha hm, Option.map_none]

/-- Settles O51: what arrives from outside by `farAnswersArrive`, what reaches waves by `waveReports`. -/
theorem farAnswers : Obligations.FarAnswers := ⟨farAnswersArrive, waveReports⟩

end Sys2Proof.Machine
end

section
/-!
PROOFS. A HOST store that is performed stands in its die's queue of HOST writes; refutes O15.
-/
namespace Sys2Proof.Machine

open Sys2Proof Sys2Proof.Ob

/-! ### A HOST store leaves its die (22 R372)

A HOST or PEER store writes no memory here. But the host interface issues a die's HOST writes in the order in which they left it, and
`Die.hostOut` keeps that order: the die of the storing wave is not as it was. -/

/-- The entry replaced in a list is the new one. -/
theorem getElem?_setAt_self {α : Type} {l : List α} {n : Nat} (x : α) (h : n < l.length) : (setAt l n x)[n]? = some x := by
  induction l generalizing n with
  | nil => cases h
  | cons a l ih =>
    cases n with
    | zero => rfl
    | succ n => exact ih (Nat.lt_of_succ_lt_succ h)

/-- The queue of HOST writes of a die that a write leaves. -/
theorem hostOut_leaveHost {s : State} {d : Nat} (key : Nat) (h : d < s.dies.length) :
    ((s.leaveHost d key).die d).hostOut = (s.die d).hostOut ++ [key] := by
  have left : (s.leaveHost d key).die d = { s.die d with hostOut := (s.die d).hostOut ++ [key] } := by
    rw [State.die, State.leaveHost, State.setDie, getElem?_setAt_self _ h]
    rfl
  rw [left]

/-- Waves that look again change no die. -/
theorem dies_unstall (s : State) : s.unstall.dies = s.dies := by
  unfold State.unstall
  split <;> rfl

/-- A HOST store that is performed changes the dies. -/
theorem drain_host_dies {s t : State} {id : WaveId} {w : Wave} {e : SqEntry} {r : List SqEntry} (h : StoreHead s id w e r)
    (hs : e.space = .host) (hd : dieOfCore w.core < s.dies.length) (ht : s.drain id = some t) : t.dies ≠ s.dies := by
  rw [drain_host h hs, Option.some_inj] at ht
  set u := (s.setWave id { w with sq := r, doms := w.doms ++ [.store e] }).unstall
  have dies : u.dies = s.dies := dies_unstall _
  intro same
  have still : (t.die (dieOfCore w.core)).hostOut = (u.die (dieOfCore w.core)).hostOut := by rw [State.die, State.die, same, dies]
  rw [← ht, hostOut_leaveHost _ (dies ▸ hd)] at still
  simp at still

/-- A store of one byte to the host. -/
def hostByte : SqEntry :=
  { kind := .store, space := .host, lines := [{ line := 0x1000, bytes := [(0, 7)], tag := none }], info := [(0x1000, 0)], fn := 0,
    mmio := false, hnd := false }

/-- The lone wave with that store in its queue. -/
def storingToHost : State :=
  (loneWave.wave? ⟨0, 0, 0⟩).elim loneWave fun w => loneWave.setWave ⟨0, 0, 0⟩ { w with sq := [hostByte] }

/-- Nothing holds the store back, and its wave's die is one of the device's. -/
theorem storingToHost_ready : (storingToHost.wave? ⟨0, 0, 0⟩).any (fun w => w.sq == [hostByte] && !storingToHost.holdsBack 0 3 &&
    decide (dieOfCore w.core < storingToHost.dies.length)) = true := by decide +kernel

/-- Refutes O15: a lone wave's HOST store of one byte, performed, is appended to its die's queue of HOST writes (`Die.hostOut`), and the
last clause of the frame holds the dies unchanged. -/
theorem not_storeFrame : ¬Obligations.StoreFrame := by
  intro frame
  obtain ⟨w, hw, facts⟩ := (Option.any_eq_true _ _).1 storingToHost_ready
  simp only [Bool.and_eq_true, beq_iff_eq, Bool.not_eq_true', decide_eq_true_eq] at facts
  obtain ⟨⟨hq, hu⟩, hd⟩ := facts
  have head : StoreHead storingToHost ⟨0, 0, 0⟩ w hostByte [] := ⟨hw, hu, hq, rfl⟩
  have performed := drain_host head rfl
  obtain ⟨-, -, -, far⟩ := frame _ _ _ _ _ _ hw hq rfl (happens_some performed)
  obtain ⟨-, dies, -⟩ := far (.inr rfl)
  exact drain_host_dies head rfl hd performed dies

end Sys2Proof.Machine
end

section
/-!
PROOFS. Engines and windows are reserved, released and owned (05 R92, R93, R106, 06 R124); settles O36.
-/
namespace Sys2Proof.Machine

open Sys2Proof Sys2Proof.Ob

/-! ### Instructions that wait, or fail a decode check of their own -/

section
variable {s : State} {c : Ctx} {m : Meta} {own : Ctx → Option (BitVec 10)} {body : Ctx → Lanes → Verdict}

/-- An instruction whose body waits at commit. -/
theorem instr_stalls {t : State} (h : Ctx.of s = some c) (hr : c.runs m = true) (ho : own (c.during m.closer) = none)
    (hb : body (c.during m.closer) (c.acting m.ctl) = .stall t) : instr s m own body = .next (t.stalled c.id) := by
  rw [instr_runs h hr ho, hb]
  rfl

/-- A fault that is no memory error tells no reader (25 R415). -/
theorem told_of_notMem {f : Flt} (hf : f.cause ∉ [cMemerr 0 0, cMemerr 0 2, cMemerr 1 0]) : c.told f = c.s := by
  simp only [List.mem_cons, List.not_mem_nil, or_false] at hf
  rw [Ctx.told, if_neg hf]

/-- An instruction that passes the common checks and fails its own traps precisely, whether or not any thread acts (08 Table 8-3). -/
theorem instr_traps {x : BitVec 10} (h : Ctx.of s = some c) (hm : m.check c = none) (ho : own (c.during m.closer) = some x)
    (hx : x ∉ [cMemerr 0 0, cMemerr 0 2, cMemerr 1 0]) :
    instr s m own body = .next (c.precise s c.w (.plain x) false) := by
  have told : (c.during m.closer).told (.plain x) = s := (told_of_notMem hx).trans (ctx_state (c := c) h)
  simp only [instr, instrEach, h, Ctx.run, during_check, hm, ho, Ctx.settle, told]
  rfl

end

/-! ### Who holds an engine -/

@[simp] theorem during_clusterNo (c : Ctx) (b : Bool) : (c.during b).clusterNo = c.clusterNo := rfl
@[simp] theorem during_engine (c : Ctx) (b : Bool) (e : Nat) : (c.during b).engine e = c.engine e := rfl
@[simp] theorem during_gravel (c : Ctx) (b : Bool) : (c.during b).gravel = c.gravel := rfl
@[simp] theorem during_reservable (c : Ctx) (b : Bool) (sel : MSel) : (c.during b).reservable sel = c.reservable sel := rfl

section
variable {s : State} {c : Ctx} {e : Nat}

theorem needEngine_of_held (h : (c.engine e).holder = some c.id.conv) : c.needEngine e = none := by
  rw [Ctx.needEngine, h, beq_self_eq_true, if_pos rfl]

theorem needEngine_of_not_held (h : (c.engine e).holder ≠ some c.id.conv) : c.needEngine e = some (cMatrix 0) := by
  rw [Ctx.needEngine, beq_eq_false_iff_ne.2 h]
  rfl

theorem needGravel_of_held (h : c.gravel.holder = some c.id.conv) : c.needGravel = none := by
  rw [Ctx.needGravel, h, beq_self_eq_true, if_pos rfl]

theorem needGravel_of_not_held (h : c.gravel.holder ≠ some c.id.conv) : c.needGravel = some (cStream 0) := by
  rw [Ctx.needGravel, beq_eq_false_iff_ne.2 h]
  rfl

/-- An engine without pages of a saved convoy has nothing to write (20 R352). -/
theorem slateWrite_of_empty {cl : Nat} (h : (s.engine cl e).slateOf = none) : s.slateWrite cl e = some s := by
  simp only [State.slateWrite, h]

/-! ### The engine that an MRES takes (05 R92) -/

theorem reservable_free {sel : MSel} {e : BitVec 2}
    (hs : sel = .eng e ∨ sel = .any ∧ ∀ j, j < e.toNat → (c.engine j).holder ≠ none) (hf : (c.engine e.toNat).holder = none) :
    c.reservable sel = some e.toNat := by
  rcases hs with rfl | ⟨rfl, lower⟩
  · exact if_pos (.inl hf)
  · refine List.find?_range_eq_some.2 ⟨by simpa using hf, List.mem_range.2 e.isLt, fun j hj => ?_⟩
    simpa [Option.isSome_iff_ne_none] using lower j hj

theorem reservable_held {e : BitVec 2} (hh : (c.engine e.toNat).holder = some c.id.conv) : c.reservable (.eng e) = some e.toNat :=
  if_pos (.inr hh)

theorem reservable_refused {sel : MSel}
    (hs : (∃ e : BitVec 2, sel = .eng e ∧ (c.engine e.toNat).holder ≠ none ∧ (c.engine e.toNat).holder ≠ some c.id.conv) ∨
      (sel = .any ∧ ∀ j, j < 4 → (c.engine j).holder ≠ none)) : c.reservable sel = none := by
  rcases hs with ⟨e, rfl, free, own⟩ | ⟨rfl, all⟩
  · exact if_neg (not_or.2 ⟨free, own⟩)
  · refine List.find?_eq_none.2 fun j hj => ?_
    simpa using all j (List.mem_range.1 hj)

end

/-- 05 R92, R93, 14 R266. MRES and MREL of a matrix engine. -/
theorem reserveEngine : ReserveEngine := by
  intro s c h
  obtain rfl := ctx_state h
  refine ⟨fun k pd sel r runs => ⟨fun e hs free slate => ?_, fun e held => ?_, fun refused => ?_⟩,
    fun k e runs held => ⟨fun idle => ?_, fun busy => ?_⟩⟩
  · have foreign : (c.engine e.toNat).holder ≠ some c.id.conv := ne_of_eq_of_ne free nofun
    have written : c.s.slateWrite c.clusterNo e.toNat = some c.s := slateWrite_of_empty slate
    refine instr_effect h runs rfl ?_
    simp only [during_reservable, during_engine, during_id, during_s, during_clusterNo, reservable_free hs free, if_neg foreign, written]
    rfl
  · refine instr_effect h runs rfl ?_
    simp only [during_reservable, during_engine, during_id, reservable_held held]
    exact if_pos held
  · refine instr_effect h runs rfl ?_
    simp only [during_reservable, reservable_refused refused]
    rfl
  · exact instr_effect h runs (needEngine_of_held held) (if_pos (by simpa using idle))
  · exact instr_stalls h runs (needEngine_of_held held) (if_neg (by simpa using busy))

/-- 06 R124. MRES.GRV and MREL.GRV. -/
theorem reserveGravel : ReserveGravel := by
  intro s c h
  obtain rfl := ctx_state h
  refine ⟨fun k pd runs => ⟨fun free => ?_, fun held => ?_, fun o other foreign => ?_⟩,
    fun k runs held => ⟨fun idle => ?_, fun busy => ?_⟩⟩
  · have foreign : c.gravel.holder ≠ some c.id.conv := ne_of_eq_of_ne free nofun
    exact instr_effect h runs rfl ((if_neg foreign).trans (if_neg (by simp [free])))
  · exact instr_effect h runs rfl (if_pos held)
  · have foreign : c.gravel.holder ≠ some c.id.conv := by simpa [other] using foreign
    exact instr_effect h runs rfl ((if_neg foreign).trans (if_pos (by simp [other])))
  · exact instr_effect h runs (needGravel_of_held held) (if_pos (by simpa using idle))
  · exact instr_stalls h runs (needGravel_of_held held) (if_neg (by simpa using busy))

/-! ### Owners of windows (05 R106, 14 R274) -/

/-- AOWN looks for its privilege before the reservation. -/
theorem aownOwn_of_kernel {c : Ctx} {e : BitVec 2} (hk : c.hnd = false) : c.aownOwn e = some (cProtect 4) := by
  rw [Ctx.aownOwn, hk]
  rfl

theorem aownOwn_of_hnd {c : Ctx} {e : BitVec 2} (hh : c.hnd = true) : c.aownOwn e = c.needEngine e.toNat := by
  rw [Ctx.aownOwn, hh]
  rfl

/-- 05 R106, 14 R274. AOWN. -/
theorem windowOwners : WindowOwners := by
  intro k e w s c h
  obtain rfl := ctx_state h
  refine ⟨fun r runs hnd held => ?_, fun a runs hnd held => ?_, fun r check kernel => ?_, fun a check kernel => ?_⟩
  · exact instr_effect h runs ((aownOwn_of_hnd hnd).trans (needEngine_of_held held)) rfl
  · exact instr_effect h runs ((aownOwn_of_hnd hnd).trans (needEngine_of_held held)) rfl
  · exact instr_traps h check (aownOwn_of_kernel kernel) (by decide)
  · exact instr_traps h check (aownOwn_of_kernel kernel) (by decide)

/-- Settles O36: engines by `reserveEngine` and `reserveGravel`, windows by `windowOwners`. -/
theorem reservations : Obligations.Reservations := ⟨reserveEngine, reserveGravel, windowOwners⟩

end Sys2Proof.Machine
end

section
/-!
PROOFS. An engine that the convoy does not hold (05 R93, 14 R266, R274, 06 R124); settles O37.
-/
namespace Sys2Proof.Machine

open Sys2Proof Sys2Proof.Ob

/-- The cause of an instruction that names an engine, or the Gravel engine, that its convoy does not hold. -/
def Ctx.lacks (c : Ctx) : Option Nat → Option (BitVec 10)
  | some e => c.needEngine e
  | none => c.needGravel

/-- A first check that fails is the one reported. -/
theorem firstOf_of_some {a b : Option (BitVec 10)} {x : BitVec 10} (h : a = some x) : firstOf a b = some x := by
  rw [h]
  rfl

/-- An instruction with the common checks of `m` looks for the reservation of engine `e` (none: Gravel) before any check of its own. -/
def LooksFor (i : Instr) (e : Option Nat) (m : Meta) (s : State) : Prop :=
  ∃ (m' : Meta) (own : Ctx → Option (BitVec 10)) (body : Ctx → Lanes → Verdict),
    exec i s = instr s m' own body ∧ m'.check = m.check ∧ ∀ c x, c.lacks e = some x → own c = some x

/-- The instructions of the table look for their reservation first. -/
theorem looksFor_of_needs {i : Instr} {e : Option Nat} {m : Meta} (h : needs i = some (e, m)) (s : State) : LooksFor i e m s := by
  cases i
  case mrel | mring | mcmt | mzero | mstc | mldc | mrelGrv | glen | gseed | gmovLd =>
    cases h
    exact ⟨_, _, _, rfl, rfl, fun _ _ hx => hx⟩
  case mldb | mma | greg | gand | gxnr | gmux | gshf | gmov | gmovSt =>
    cases h
    exact ⟨_, _, _, rfl, rfl, fun _ _ hx => firstOf_of_some hx⟩
  all_goals cases h

/-- An instruction without its reservation traps precisely, once the checks of Table 8-3 that come earlier have passed. -/
theorem exec_unreserved {i : Instr} {e : Option Nat} {m : Meta} {s : State} {c : Ctx} {x : BitVec 10} (hi : LooksFor i e m s)
    (h : Ctx.of s = some c) (hm : m.check c = none) (hx : c.lacks e = some x) (hn : x ∉ [cMemerr 0 0, cMemerr 0 2, cMemerr 1 0]) :
    exec i s = .next (c.precise s c.w (.plain x) false) := by
  obtain ⟨m', own, body, he, hc, ho⟩ := hi
  rw [he]
  exact instr_traps h (hc ▸ hm) (ho _ _ hx) hn

/-- Settles O37: what the table names by `looksFor_of_needs`, AOWN in a handler by its own checks. -/
theorem notReserved : Obligations.NotReserved := by
  refine ⟨fun i e m s c hi h check => ⟨?matrix, ?gravel⟩,
    fun k e r a n s c h hnd foreign => ⟨fun check => ?read, fun check => ?write⟩⟩
  case matrix =>
    rintro n rfl foreign
    exact exec_unreserved (looksFor_of_needs hi s) h check (needEngine_of_not_held foreign) (by decide)
  case gravel =>
    rintro rfl foreign
    exact exec_unreserved (looksFor_of_needs hi s) h check (needGravel_of_not_held foreign) (by decide)
  case read => exact instr_traps h check ((aownOwn_of_hnd hnd).trans (needEngine_of_not_held foreign)) (by decide)
  case write => exact instr_traps h check ((aownOwn_of_hnd hnd).trans (needEngine_of_not_held foreign)) (by decide)

end Sys2Proof.Machine
end

section
/-!
PROOFS. Matrix instructions issue their operations (05 R94 to R105, 14 R267 to R271); settles O38.
-/
namespace Sys2Proof.Machine

open Sys2Proof Sys2Proof.Ob

/-! ### Operations that join an engine's list (05 R102, R103) -/

section
variable {s t : State} {c : Ctx} {e : Nat} {f : Engine → Engine} {op : MOpKind}

/-- What an issue does depends on what becomes of the engine as it stands. -/
theorem issueMtx_congr {g : Engine → Engine} (hf : f (s.engine c.clusterNo e) = g (s.engine c.clusterNo e)) :
    c.issueMtx s e f op = c.issueMtx s e g op := by
  simp only [Ctx.issueMtx, hf]

/-- With the engine held and room on it, and stores performed where the operation accesses memory, the operation is issued. -/
theorem issueMtx_of_room (hr : mtxRoom c e = true) (hq : op.moves = true → c.w.sq = []) :
    c.issueMtx s e f op = .ok (.of (issuedMtx c s e f op)) := by
  simp only [mtxRoom, Bool.and_eq_true, decide_eq_true_eq] at hr
  obtain ⟨-, few⟩ := hr
  have stores : (op.moves && !c.w.sq.isEmpty) = false := by
    cases hm : op.moves with
    | false => rfl
    | true => rw [hq hm]; rfl
  rw [Ctx.issueMtx, if_neg (Nat.not_le.2 few), if_neg (by rw [stores]; exact Bool.false_ne_true)]
  rfl

theorem held_of_room (hr : mtxRoom c e = true) : c.needEngine e = none := by
  simp only [mtxRoom, Bool.and_eq_true, beq_iff_eq] at hr
  obtain ⟨held, -⟩ := hr
  exact needEngine_of_held held

/-- An instruction whose body issues an operation commits with the operation in the engine's list. -/
theorem instr_issues {m : Meta} {own : Ctx → Option (BitVec 10)} {body : Ctx → Lanes → Verdict} (h : Ctx.of s = some c)
    (hr : c.runs m = true) (hm : m.closer = false) (ho : own (c.during false) = none) (room : mtxRoom c e = true)
    (hq : op.moves = true → c.w.sq = [])
    (hb : body (c.during false) (c.acting m.ctl) = (c.during false).issueMtx t e f op) :
    instr s m own body = .next (c.commit false none (issuedMtx (c.during false) t e f op)) := by
  have effect := instr_effect (body := body) (own := own) h hr (hm.symm ▸ ho) (hm.symm ▸ hb.trans (issueMtx_of_room room hq))
  rwa [hm] at effect

end

@[simp] theorem during_crewKey (c : Ctx) (b : Bool) : (c.during b).crewKey = c.crewKey := rfl
@[simp] theorem wide_ctl (k : Ctl) (l : List Field) : (Meta.wide k l).ctl = { k with onc := true } := rfl

/-! ### Lines of a range (05 R94, 14 R271) -/

theorem length_goodLines_le (c : Ctx) (k : Access) (vas : List Nat) : (goodLines c k vas).length ≤ vas.length :=
  List.length_filterMap_le ..

/-- A range all of whose lines pass their checks. -/
theorem rangeLines_good {c : Ctx} {k : Access} {vas : List Nat} (h : (goodLines c k vas).length = vas.length) :
    c.rangeLines k vas = .ok (goodLines c k vas) := by
  induction vas with
  | nil => rfl
  | cons va r ih =>
    cases hl : c.locate .device k 64 va with
    | error x =>
      have skipped : goodLines c k (va :: r) = goodLines c k r := by simp only [goodLines, List.filterMap_cons, hl]
      have fewer := length_goodLines_le c k r
      rw [skipped, List.length_cons] at h
      omega
    | ok p =>
      have added : goodLines c k (va :: r) = (va, p) :: goodLines c k r := by simp only [goodLines, List.filterMap_cons, hl]
      rw [added, List.length_cons, List.length_cons, Nat.add_right_cancel_iff] at h
      simp only [Ctx.rangeLines, hl, added, ih h]

theorem length_linePairs (l : List (Nat × Place)) : (linePairs l).length = l.length := List.length_map ..

theorem length_windowVas (a n stride : Nat) : (windowVas a n stride).length = 64 * n := by
  rw [windowVas, List.length_map, List.length_range]

/-! ### Slate and ring (05 R94, R97, R104) -/

/-- 05 R94, R97, R104, 14 R267, R268. MLDB, MRING and MCMT. -/
theorem slateAndRing : SlateAndRing := by
  intro s c h
  obtain rfl := ctx_state h
  refine ⟨?mldb, ?mring, ?mcmt⟩
  case mldb =>
    intro k e page addr saddr runs room even stores
    have even_page : ¬(saddr.isSome && decide (page.toNat % 2 = 1)) = true := by
      simp only [Bool.and_eq_true, decide_eq_true_eq, not_and]
      exact fun hs => by rw [even hs]; decide
    dsimp only
    intro aligned scaleAligned good touch
    refine instr_issues h runs rfl ?_ room (fun _ => stores) ?_
    · rw [show (c.during false).needEngine e.toNat = none from held_of_room room, if_neg even_page]
      rfl
    · simp only [wide_ctl, aligned, scaleAligned, rangeLines_good good, touch, during_s, ne_eq, not_true_eq_false, if_false, Bool.not_true,
        Bool.false_eq_true]
      rfl
  case mring =>
    intro k e base cnt sbase runs room
    dsimp only
    intro fault empty idle pushing
    have drained : ((c.engine e.toNat).ring.elim false fun r => r.head != r.tail) = false := by
      cases hr : (c.engine e.toNat).ring with
      | none => rfl
      | some r => simpa using empty r hr
    refine instr_issues h runs rfl (held_of_room room) room nofun ?_
    simp only [wide_ctl, fault, during_engine, during_s, during_crewKey, drained, idle, Bool.false_or]
    exact (if_neg (ne_true_of_eq_false pushing)).trans (issueMtx_congr rfl)
  case mcmt =>
    intro k e g cond runs room
    exact instr_issues h runs rfl (held_of_room room) room nofun rfl

/-! ### MMA (05 R98 to R101, R104) -/

/-- Windows in range, owned, of the class's mode and without another group's shadow, and room for the group's new shadows. -/
theorem mmaCheck_eq_none {c : Ctx} {e : Nat} {cls : MCls} {wins : List Nat} {sh : Option Nat}
    (hw : ∀ w ∈ wins, w ≤ 511 ∧ (c.engine e).ownerOf w = c.ctxid ∧ (c.engine e).mode64.getLsbD w = (cls == .d64) ∧
      (c.engine e).shadowed w sh = false)
    (hs : ∀ g, sh = some g → (c.engine e).shadows.length + ((c.engine e).newShadows g wins).length ≤ 32) :
    c.mmaCheck e cls wins sh = none := by
  simp only [imp_and, forall_and] at hw
  obtain ⟨inRange, mine, ofClass, unshadowed⟩ := hw
  have range : (wins.any fun w => decide (511 < w)) = false := by simpa using inRange
  have owned : c.notOwned e wins = none := by simpa [Ctx.notOwned] using mine
  have modes : (wins.any fun w => (c.engine e).mode64.getLsbD w != (cls == .d64)) = false := by simpa using ofClass
  have clear : (wins.any fun w => (c.engine e).shadowed w sh) = false := by simpa using unshadowed
  simp only [Ctx.mmaCheck, range, owned, modes, clear, Bool.false_eq_true, if_false]
  cases sh with
  | none => rfl
  | some g => exact if_neg (Nat.not_lt.2 (hs g rfl))

/-- 05 R98 to R101, R104, 14 R269. MMA. -/
theorem matrixMultiply : MatrixMultiply := by
  intro k e cls w0 page m sh boff s c h
  obtain rfl := ctx_state h
  intro runs room
  dsimp only
  intro bound data notScale low high wins shadows bands
  have size : ¬((c.during false).read32 (leader (c.acting { k with onc := true })) m).toNat = 0 ∧
      ¬256 < ((c.during false).read32 (leader (c.acting { k with onc := true })) m).toNat := ⟨by omega, by omega⟩
  refine instr_issues h runs rfl ?_ room nofun ?_
  · rw [show (c.during false).needEngine e.toNat = none from held_of_room room]
    simp [firstOf, bound, data, notScale]
  · have checked := mmaCheck_eq_none (c := c.during false) wins shadows
    simp only [wide_ctl, size, or_self, if_false, checked]
    cases boff with
    | none => rfl
    | some d =>
      simp only [bands d rfl]
      rfl

/-! ### Windows that move (05 R105, 14 R270, R271) -/

/-- A mode set alone. -/
theorem getLsbD_setMode (m : BitVec 512) {i w : Nat} (d64 : Bool) (hw : w < 512) :
    (if d64 then m ||| (1#512 <<< i) else m &&& ~~~(1#512 <<< i)).getLsbD w = if w = i then d64 else m.getLsbD w := by
  have bit : (1#512 <<< i).getLsbD w = decide (w = i) := by
    rw [BitVec.getLsbD_shiftLeft]
    simp only [BitVec.getLsbD_one]
    by_cases h : w = i
    · simp [h]
      omega
    · simp [h, hw]
      omega
  cases d64 with
  | true =>
    rw [if_pos rfl, BitVec.getLsbD_or, bit]
    by_cases h : w = i <;> simp [h]
  | false =>
    rw [if_neg Bool.false_ne_true, BitVec.getLsbD_and, BitVec.getLsbD_not, bit]
    by_cases h : w = i <;> simp [h, hw]

/-- The modes of windows after MZERO and MLDC (05 R101, R105). -/
theorem getLsbD_setModes (x : Engine) (w0 n : Nat) (d64 : Bool) {w : Nat} (hw : w < 512) :
    (x.setModes w0 n d64).mode64.getLsbD w = if w0 ≤ w ∧ w < w0 + n then d64 else x.mode64.getLsbD w := by
  unfold Engine.setModes
  induction n with
  | zero => rw [if_neg (by omega)]; rfl
  | succ n ih =>
    simp only [List.range_succ, List.foldl_append, List.foldl_cons, List.foldl_nil]
    rw [getLsbD_setMode _ _ hw, ih]
    by_cases last : w = w0 + n
    · rw [if_pos last, if_pos (by omega)]
    · rw [if_neg last]
      exact if_congr (by omega) rfl rfl

/-- The operands of MSTC and MLDC that pass the checks before the windows' (14 R271). -/
theorem moveFault_eq_none {a n stride : Nat} (hn : 1 ≤ n) (hm : n ≤ 64) (hd : stride % 64 = 0) (hs : 128 * n ≤ stride)
    (hl : stride < 2 ^ 24) (ha : a % 64 = 0) : moveFault a n stride = none := by
  rw [moveFault, if_neg (by omega), if_neg (by omega), if_neg (by omega)]

/-- MSTC and MLDC over windows that pass their checks, with lines that pass theirs, issue their operation. -/
theorem moveInstr_issues {c : Ctx} {k : Ctl} {e : BitVec 2} {w0 : BitVec 9} {addr n stride : Desc} {acc : Access}
    {f : Nat → Engine → Engine} {op : Engine → Nat → List (Nat × Nat) → MOpKind} (h : Ctx.of c.s = some c)
    (runs : c.runs (.wide k [src addr 2, src n, src stride]) = true) (room : mtxRoom c e.toNat = true) (stores : c.w.sq = []) :
    let c' := c.during false
    let act := c.acting { k with onc := true }
    let a := (c'.addr act addr).toNat
    let m := (c'.read32 (leader act) n).toNat
    let st := (c'.read32 (leader act) stride).toNat
    let l := goodLines c' acc (windowVas a m st)
    moveFault a m st = none → c'.winCheck e.toNat w0.toNat m = none → l.length = 64 * m → c'.touchables l (acc == .store) = true →
    moveInstr c.s k e w0 addr n stride acc f op = .next (c.commit false none
      (issuedMtx c' (c.s.touches c.vf l (acc == .store)) e.toNat (f m) (op (c.engine e.toNat) m (linePairs l)))) := by
  dsimp only
  intro operands windows good touch
  refine instr_issues h runs rfl (held_of_room room) room (fun _ => stores) ?_
  simp only [wide_ctl, operands, windows, rangeLines_good (good.trans (length_windowVas ..).symm), touch, Bool.not_true, Bool.false_eq_true,
    if_false]
  rfl

/-- 05 R105, 14 R270, R271. MZERO, MSTC and MLDC. -/
theorem windowMoves : WindowMoves := by
  intro s c h
  obtain rfl := ctx_state h
  refine ⟨?mzero, ?moves, ?modes⟩
  case mzero =>
    intro k e w0 n d64 runs room
    dsimp only
    intro acts some_ windows
    refine instr_issues h runs rfl (held_of_room room) room nofun ?_
    simp only [wide_ctl, acts, Nat.ne_of_gt some_, windows, false_and, if_false]
    rfl
  case moves =>
    intro k e w0 addr n stride runs room
    dsimp only
    intro atLeast atMost lines wide short aligned windows stores
    have operands := moveFault_eq_none atLeast atMost lines wide short aligned
    refine ⟨fun good touch => ?_, fun d64 good touch => ?_⟩
    · have issued := moveInstr_issues (w0 := w0) (acc := .store) (f := fun _ x => x)
        (op := fun x m l => .mstc w0.toNat ((List.range m).map fun j => x.mode64.getLsbD (w0.toNat + j)) l (List.range l.length))
        h runs room stores operands windows good touch
      simp only [length_linePairs] at issued
      exact issued
    · have issued := moveInstr_issues (w0 := w0) (acc := .load) (f := fun m x => x.setModes w0.toNat m d64)
        (op := fun _ _ l => .mldc w0.toNat l (List.range l.length)) h runs room stores operands windows good touch
      simp only [length_linePairs] at issued
      exact issued
  case modes => exact fun x w0 n d64 w hw _ => getLsbD_setModes x w0 n d64 hw

/-- Settles O38: Slate and ring by `slateAndRing`, MMA by `matrixMultiply`, windows by `windowMoves`. -/
theorem matrixIssue : Obligations.MatrixIssue := ⟨slateAndRing, matrixMultiply, windowMoves⟩

end Sys2Proof.Machine
end

section
/-!
PROOFS. The lines of copies (14 R278 to R280, 04 R82).
-/
namespace Sys2Proof.Machine

open Sys2Proof Sys2Proof.Ob

/-! ### Failed attempts (05 R110, 06 R126, 19 R340) -/

theorem persists_of_le {n : Nat} (h : 5 ≤ n) : persists n = true := decide_eq_true h

theorem persists_of_lt {n : Nat} (h : n < 5) : persists n = false := decide_eq_false (Nat.not_le.2 h)

/-- The fault after the fifth failed attempt counts in PRST (25 R407). -/
theorem prst_countCopy {s : State} {cl fails : Nat} (h : 5 ≤ fails) :
    ((s.countCopy cl fails).cluster cl).prst = upTo (s.cluster cl).prst 1 := by
  rw [State.countCopy, cluster_setCluster, Cluster.countFault, if_pos (persists_of_le h)]

/-! ### One line of a wave's only copy -/

/-- A wave has one copy outstanding, whose next line is `l` of row `r`. -/
structure CopyHead (s : State) (id : WaveId) (w : Wave) (cv : Convoy) (op : CopyOp) (r l crew : Nat) (rest : List (Nat × Nat × Nat)) :
    Prop where
  wave : s.wave? id = some w
  convoy : s.convoy? id.conv = some cv
  copies : w.copies = [op]
  left : op.left = (r, l, crew) :: rest

section
variable {s : State} {id : WaveId} {w : Wave} {cv : Convoy} {op : CopyOp} {r l crew fails : Nat} {rest : List (Nat × Nat × Nat)}
  {rd wr : FarStatus}

/-- The first of all lines that are left is that copy's first. -/
theorem CopyHead.first (c : CopyHead s id w cv op r l crew rest) :
    let all := w.copies.zipIdx.flatMap fun (o, i) => (List.range o.left.length).map fun j => (i, j)
    all[0 % all.length]? = some (0, 0) := by
  simp [c.copies, c.left, List.range_succ_eq_map]

/-- The fifth failed attempt ends the copy with ASSAY/COPY. -/
theorem copyStep_persists (c : CopyHead s id w cv op r l crew rest) (hf : 5 ≤ fails) : s.copyStep id 0 fails rd wr =
    some ((s.countCopy (clusterOfCore w.core) fails).copyFails id 0
      { cause := cAssay 2, faddr := BitVec.ofNat 57 (op.dst + r * op.dstStride + 64 * l) }) := by
  simp only [State.copyStep, c.wave, c.convoy, c.first]
  simp only [c.copies, List.getElem?_cons_zero, c.left, persists_of_le hf, if_true]

/-- The lines that one destination line is made of (14 R279). -/
def CopyOp.sources (op : CopyOp) (r l : Nat) : List Nat :=
  (List.range (srcSpan op.cv / 64)).map fun n => op.src + r * op.srcStride + srcSpan op.cv * l + 64 * n

/-- A source line that cannot be read ends the copy with its cause and its own address. -/
theorem copyStep_unread {u : State} {cause : BitVec 10} {va : Nat} (c : CopyHead s id w cv op r l crew rest) (hf : fails < 5)
    (hr : State.copyReads id w cv.vf op rd (s.countCopy (clusterOfCore w.core) fails) (op.sources r l) = .error (.bad u cause, va)) :
    s.copyStep id 0 fails rd wr = some (u.copyFails id 0 { cause := cause, faddr := BitVec.ofNat 57 va }) := by
  rw [CopyOp.sources] at hr
  simp only [State.copyStep, c.wave, c.convoy, c.first]
  simp only [c.copies, List.getElem?_cons_zero, c.left, persists_of_lt hf, Bool.false_eq_true, if_false, hr]

/-- A destination line that cannot be written ends it likewise. -/
theorem copyStep_unwritten {u v : State} {src_ : List (List Byte × Tag)} {cause : BitVec 10}
    (c : CopyHead s id w cv op r l crew rest) (hf : fails < 5)
    (hr : State.copyReads id w cv.vf op rd (s.countCopy (clusterOfCore w.core) fails) (op.sources r l) = .ok (u, src_))
    (hw : u.copyWrite id w cv.vf op wr crew (op.dst + r * op.dstStride + 64 * l) (convertLine op.cv src_).1 (convertLine op.cv src_).2 =
      .bad v cause) :
    s.copyStep id 0 fails rd wr =
      some (v.copyFails id 0 { cause := cause, faddr := BitVec.ofNat 57 (op.dst + r * op.dstStride + 64 * l) }) := by
  rw [CopyOp.sources] at hr
  simp only [State.copyStep, c.wave, c.convoy, c.first]
  simp only [c.copies, List.getElem?_cons_zero, c.left, persists_of_lt hf, Bool.false_eq_true, if_false, hr, hw]

/-- A destination line that is written leaves the others to the copy. -/
theorem copyStep_written {u v : State} {src_ : List (List Byte × Tag)} {w2 : Wave} (c : CopyHead s id w cv op r l crew rest)
    (hf : fails < 5)
    (hr : State.copyReads id w cv.vf op rd (s.countCopy (clusterOfCore w.core) fails) (op.sources r l) = .ok (u, src_))
    (hw : u.copyWrite id w cv.vf op wr crew (op.dst + r * op.dstStride + 64 * l) (convertLine op.cv src_).1 (convertLine op.cv src_).2 =
      .done v)
    (h2 : v.wave? id = some w2) (hc : w2.copies = [op]) :
    s.copyStep id 0 fails rd wr = some (v.setCopies id [{ op with left := rest }]) := by
  rw [CopyOp.sources] at hr
  simp only [State.copyStep, c.wave, c.convoy, c.first]
  simp only [c.copies, List.getElem?_cons_zero, c.left, persists_of_lt hf, Bool.false_eq_true, if_false, hr, hw, h2, hc, setAt, dropAt]

end

/-- 14 R278 to R280, 04 R82, 19 R331. COPY_COMPLETE. -/
theorem copyLines : CopyLines := by
  intro s id w cv op r l crew fails rd wr rest hw hv hc hl
  have head : CopyHead s id w cv op r l crew rest := ⟨hw, hv, hc, hl⟩
  exact ⟨fun hf => ⟨happens_some (copyStep_persists head hf), prst_countCopy hf⟩,
    fun _ _ _ _ hf hr hd h2 h2c => happens_some (copyStep_written head hf hr hd h2 h2c),
    fun _ _ _ hf hr => happens_some (copyStep_unread head hf hr),
    fun _ _ _ _ hf hr hd => happens_some (copyStep_unwritten head hf hr hd)⟩

end Sys2Proof.Machine
end

section
/-!
PROOFS. The oldest operation of a Gravel engine (06 R118 to R120, R126).
-/
namespace Sys2Proof.Machine

open Sys2Proof Sys2Proof.Ob

/-- The oldest operation of a Gravel engine, whose convoy does not hold it back. -/
structure GravelHead (s : State) (cl : Nat) (o : Machine.GOp) (r : List Machine.GOp) : Prop where
  ops : (s.cluster cl).gravel.ops = o :: r
  ready : s.holdsBack (waveOfKey o.wave).conv 4 = false

/-- No register or generator state that it reads is uncorrectable. -/
def readsGood (s : State) (cl : Nat) (o : Machine.GOp) : Prop := ∀ x ∈ o.op.reads, x ∉ (s.cluster cl).gravel.bad

section
variable {s : State} {cl fails : Nat} {o : Machine.GOp} {r : List Machine.GOp}

/-- An operation that reads an uncorrectable register writes nothing, and faults late (06 R126). -/
theorem gravelStep_bad (h : GravelHead s cl o r) (hb : ∃ x ∈ o.op.reads, x ∈ (s.cluster cl).gravel.bad) :
    s.gravelStep cl fails = some ((s.gravelPop cl o id).reportLate o.wave o.hnd { cause := cMemerr 6 0, faddr := 0 }) := by
  have bad : o.op.reads.any (s.cluster cl).gravel.bad.contains = true := by simpa using hb
  simp only [State.gravelStep, h.ops, h.ready, bad, Bool.false_eq_true, if_false,
    if_true]
  rfl

section
variable (h : GravelHead s cl o r) (hg : readsGood s cl o)
include hg

theorem reads_uncorrectable_eq_false : o.op.reads.any (s.cluster cl).gravel.bad.contains = false := by
  simpa [readsGood] using hg

include h

/-- Streams computed from streams, or drawn: the destination takes them. -/
theorem gravelStep_result {gd : Nat} {l : List Nat} (hr : (s.cluster cl).gravel.result o.op = some (gd, l)) :
    let u := s.countGravel cl fails
    s.gravelStep cl fails = some (if persists fails then
      (u.gravelPop cl o fun g => g.setBits gd (mixBits u.free (g.bitsOf gd) l)).draw.reportLate o.wave o.hnd { cause := cAssay 1, faddr := 0 }
      else u.gravelPop cl o fun g => g.setBits gd l) := by
  cases hop : o.op
  case ld | st | seed =>
    rw [hop] at hr
    cases hr
  case put | and | xnr | mux | shf | mov =>
    have good := reads_uncorrectable_eq_false hg
    rw [hop] at hr good
    simp only [State.gravelStep, h.ops, h.ready, hop, good, hr, Bool.false_eq_true, if_false]
    cases persists fails <;> rfl

/-- A generator is seeded (06 R117). -/
theorem gravelStep_seed {cls : Nat} {v : Word} (hop : o.op = .seed cls v) (hf : fails < 5) :
    s.gravelStep cl fails = some ((s.countGravel cl fails).gravelPop cl o fun g => g.seed cls v) := by
  have good := reads_uncorrectable_eq_false hg
  rw [hop] at good
  simp only [State.gravelStep, h.ops, h.ready, hop, good, persists_of_lt hf, Bool.false_and, Bool.false_eq_true, if_false]

/-- A register takes the streams and the tag of its image (06 R120). -/
theorem gravelStep_load {gd : Nat} {lines : List (Nat × Nat)} {t : State} {l : List (List Byte × Tag)} {q : GReg}
    (hop : o.op = .ld gd lines) (hf : fails < 5)
    (hr : State.readLines (cl / 8) (s.countGravel cl fails) (lines.map Prod.fst) = .ok (t, l)) (hl : ∀ x ∈ l, fmtOf x.2 = 0x10)
    (hq : imageReg (t.cluster cl).gravel.len (l.map Prod.fst).flatten = some (some q)) :
    s.gravelStep cl fails = some (t.gravelPop cl o fun g =>
      { g with g := ins g.g gd q, bad := (t.cluster cl).gravel.bad.filter (· != gd) }) := by
  have good := reads_uncorrectable_eq_false hg
  rw [hop] at good
  have image : (l.any fun p => fmtOf p.2 != 0x10) = false := by simpa using fun a b m => hl (a, b) m
  simp only [State.gravelStep, h.ops, h.ready, hop, good, Bool.false_eq_true, if_false, hr, State.gravelLoad, image, hq, persists_of_lt hf,
    Bool.not_false, if_true, Option.elim_some]

/-- The lines of a register's image are written (06 R120). -/
theorem gravelStep_store {gs : Nat} {m : DWord} {sh : BitVec 12} {x : Bool} {lines : List (Nat × Nat)} (hop : o.op = .st gs m sh x lines)
    (hf : fails < 5) (hm : ∀ p ∈ lines, (s.countGravel cl fails).memLost p.1 = false)
    (hw : ∀ p ∈ lines, (s.countGravel cl fails).canWrite (cl / 8) p.1 = true) :
    let u := s.countGravel cl fails
    let b := streamBytes (u.cluster cl).gravel.len ((u.cluster cl).gravel.bitsOf gs) ++ tagRecord m sh x false (u.cluster cl).gravel.len
    s.gravelStep cl fails = some (State.gravelPop (lines.zipIdx.foldl (fun (s : State) p =>
      s.devWrite (cl / 8) (lineWrite p.1.1 ((b.drop (64 * p.2)).take 64) (some 0x1000)) .gravel) u) cl o id) := by
  have good := reads_uncorrectable_eq_false hg
  rw [hop] at good
  have here : (lines.find? fun p => (s.countGravel cl fails).memLost p.1) = none := by
    simpa using fun a b m => hm (a, b) m
  have writable : (lines.all fun p => (s.countGravel cl fails).canWrite (cl / 8) p.1) = true := List.all_eq_true.2 hw
  simp only [State.gravelStep, h.ops, h.ready, hop, good, Bool.false_eq_true, if_false, State.gravelStore, here, writable, Bool.not_true,
    persists_of_lt hf]

end

end

end Sys2Proof.Machine
end

section
/-!
PROOFS. The operation at the head of a matrix engine (05 R101 to R105, R110, R111).
-/
namespace Sys2Proof.Machine

open Sys2Proof Sys2Proof.Ob

/-- The oldest operation of a matrix engine, with its windows its context's there and nothing that holds it back. -/
structure EngineHead (s : State) (cl e : Nat) (o : MOp) (r : List MOp) : Prop where
  ops : (s.engine cl e).ops = o :: r
  tile : (s.engine cl e).tile = none
  ready : s.holdsBack (waveOfKey o.wave).conv 5 = false
  home : atHome s cl e o

section
variable {s : State} {cl e : Nat} {o : MOp} {r : List MOp}

/-- An operation whose windows are there takes none (20 R351). -/
theorem windowStep_of_home (h : atHome s cl e o) (fails : State → LateF → State) : s.windowStep cl e o fails = none := by
  cases hc : (s.engine cl e).holder.bind s.convoy? with
  | none => simp only [State.windowStep, hc]
  | some cv =>
    have all : ((s.engine cl e).winsOf o.op).all (fun w => (s.engine cl e).ownerOf w == cv.ctxid) = true := by
      simpa using h cv hc
    simp only [State.windowStep, hc, all, if_true]

variable (h : EngineHead s cl e o r)
include h

/-- MRING binds at its commit and completes at once (05 R97). -/
theorem matrixStep_mring (hop : o.op = .mring) : s.matrixStep cl e = some (s.matrixDone cl e o r) := by
  simp only [State.matrixStep, h.tile, h.ops, h.ready, windowStep_of_home h.home, hop, Option.isSome_none, Bool.false_eq_true, if_false]

/-- MZERO leaves its windows zero (05 R101). -/
theorem matrixStep_mzero {w0 n : Nat} (hop : o.op = .mzero w0 n) :
    s.matrixStep cl e = some ((s.setEngine cl e ((s.engine cl e).winZero w0 n)).matrixDone cl e o r) := by
  simp only [State.matrixStep, h.tile, h.ops, h.ready, windowStep_of_home h.home, hop, Option.isSome_none, Bool.false_eq_true, if_false]

/-- An MCMT takes over its group's shadows where it commits, and drops them; a fault of the group's is reported then (05 R105). -/
theorem matrixStep_mcmt {g : Nat} {commit : Bool} (hop : o.op = .mcmt g commit) :
    let x := s.engine cl e
    let u := (s.setEngine cl e ((if commit then x.commitGroup g else x).freeGroup g)).matrixDone cl e o r
    s.matrixStep cl e = some (if commit then (x.groupFault g).elim u fun f => u.reportLate o.wave o.hnd f else u) := by
  simp only [State.matrixStep, h.tile, h.ops, h.ready, windowStep_of_home h.home, hop, Option.isSome_none, Bool.false_eq_true, if_false]

/-- An MMA completes after its last pass; until then its K-blocks are steps of their own (05 R109). -/
theorem matrixStep_mma {q : Mma} (hop : o.op = .mma q) :
    s.matrixStep cl e = if passesOf q.cls ≤ q.pass then some (s.matrixDone cl e o r) else none := by
  simp only [State.matrixStep, h.tile, h.ops, h.ready, windowStep_of_home h.home, hop, Option.isSome_none, Bool.false_eq_true, if_false]

end

/-- 06 R118 to R120, R126, 05 R101 to R105, R110, R111. GRAVEL_OP_COMPLETE and MATRIX_OP_COMPLETE. -/
theorem engineOperations : EngineOperations := by
  intro s cl
  refine ⟨fun o r fails hops hready => ?gravel, fun e o r hops htile hready hhome => ?matrix⟩
  case gravel =>
    have head : GravelHead s cl o r := ⟨hops, hready⟩
    intro g s0
    refine ⟨fun bad => happens_some (gravelStep_bad head bad), fun good => ⟨fun gd l hr => ⟨fun hf => ?_, fun hf => ?_⟩,
      fun cls v hop hf => happens_some (gravelStep_seed head good hop hf),
      fun gd lines t l q hop hf hr hl hq => happens_some (gravelStep_load head good hop hf hr hl hq),
      fun gs m sh x lines hop hf hm hw => happens_some (gravelStep_store head good hop hf hm hw)⟩⟩
    · refine happens_some ((gravelStep_result head good hr).trans ?_)
      rw [persists_of_lt hf]
      rfl
    · refine happens_some ((gravelStep_result head good hr).trans ?_)
      rw [persists_of_le hf]
      rfl
  case matrix =>
    have head : EngineHead s cl e o r := ⟨hops, htile, hready, hhome⟩
    refine ⟨fun hop => happens_some (matrixStep_mring head hop), fun w0 n hop => happens_some (matrixStep_mzero head hop),
      fun g hop => happens_some (matrixStep_mcmt head hop), fun g hop hf => ?_, fun g f hop hf => ?_,
      fun q hop past => happens_some ((matrixStep_mma head hop).trans (if_pos past)),
      fun q hop more => happens_none ((matrixStep_mma head hop).trans (if_neg (Nat.not_le.2 more)))⟩
    · refine happens_some ((matrixStep_mcmt head hop).trans ?_)
      rw [hf]
      rfl
    · refine happens_some ((matrixStep_mcmt head hop).trans ?_)
      rw [hf]
      rfl

end Sys2Proof.Machine
end

section
/-!
PROOFS. The K-blocks of an MMA (05 R98 to R100, R109, R110).
-/
namespace Sys2Proof.Machine

open Sys2Proof Sys2Proof.Ob

/-- An MMA at the head of an engine, bound to its ring, whose next K-block takes rows whose entries are read. -/
structure BlockHead (s : State) (cl e k rows : Nat) (o : MOp) (rest : List MOp) (r : Machine.Ring) (q : Mma)
    (l : List (KOp × List Tag)) : Prop where
  ops : (s.engine cl e).ops = o :: rest
  ring : (s.engine cl e).ring = some r
  holder : (s.engine cl e).holder = some k
  tile : (s.engine cl e).tile = none
  mma : o.op = .mma q
  pass : q.pass < passesOf q.cls
  ready : s.holdsBack k 5 = false
  home : atHome s cl e o
  some_ : q.rowsNext r rows ≠ 0
  entries : s.ringRows k r q (List.range (q.rowsNext r rows)) = (l, none)

/-- The engine that a K-block works on, with the shadows of its MMA.SH (05 R104). -/
def blockEngine (s : State) (cl e : Nat) (q : Mma) : Engine :=
  q.sh.elim (s.engine cl e) fun g => (s.engine cl e).openShadows g (coveredWins q.cls q.w0 q.m)

section
variable {s : State} {cl e k rows fails : Nat} {tries : List KTry} {o : MOp} {rest : List MOp} {r : Machine.Ring} {q : Mma} {y : Engine}
  {l : List (KOp × List Tag)} (h : BlockHead s cl e k rows o rest r q l)
include h

/-- A K-block that faults, or that persists in failing its check, ends the MMA (05 R110). -/
theorem kblockStep_fault {c : BitVec 10} (hb : (blockEngine s cl e q).kblock q l tries = (fails, y, some c)) :
    s.kblockStep cl e rows tries =
      some (((s.countMatrix cl fails).setEngine cl e y).mmaFails cl e o q.sh { cause := c, faddr := 0 }) := by
  rw [blockEngine] at hb
  simp only [State.kblockStep, h.ops, h.ring, h.holder, h.mma, h.tile, h.ready, windowStep_of_home h.home, h.entries, hb,
    Nat.not_le.2 h.pass, h.some_, Option.isSome_none, decide_false, Bool.or_self, Bool.false_eq_true, if_false]

/-- A K-block that passes moves the MMA on, and frees its rows' entries after their last block (05 R98, R99). -/
theorem kblockStep_done (hb : (blockEngine s cl e q).kblock q l tries = (fails, y, none)) :
    let n := q.rowsNext r rows
    let u := (s.countMatrix cl fails).setEngine cl e { y with
      ops := { o with op := .mma (q.next n).1 } :: rest, ring := some (if (q.next n).2 then r.pops n else r) }
    s.kblockStep cl e rows tries = some (if (q.next n).2 then (u.wakeRing k e).unstall else u) := by
  rw [blockEngine] at hb
  simp only [State.kblockStep, h.ops, h.ring, h.holder, h.mma, h.tile, h.ready, windowStep_of_home h.home, h.entries, hb,
    Nat.not_le.2 h.pass, h.some_, Option.isSome_none, decide_false, Bool.or_self, Bool.false_eq_true, if_false]

end

/-- Where an MMA goes on after a K-block that was not its rows' last. -/
theorem next_of_more {q : Mma} {n : Nat} (h : ¬kblocksOf q.cls ≤ q.kb + 1) : q.next n = ({ q with kb := q.kb + 1, grp := n }, false) :=
  if_pos (Nat.lt_of_not_le h)

/-- Where it goes on after its rows' last: at the next rows, or at the next pass. -/
theorem next_of_last {q : Mma} {n : Nat} (h : kblocksOf q.cls ≤ q.kb + 1) : q.next n =
    (if q.row + n < q.m then { q with row := q.row + n, kb := 0, grp := 0 } else { q with pass := q.pass + 1, row := 0, kb := 0, grp := 0 },
      true) := by
  rw [Mma.next, if_neg (Nat.not_lt.2 h)]
  split <;> rfl

/-- 05 R98 to R100, R109, R110. MATRIX_KBLOCK. -/
theorem matrixBlocks : MatrixBlocks := by
  intro s cl e k rows fails tries o rest r q y l hops hring hholder htile hmma hpass hready hhome n hn hl x
  have head : BlockHead s cl e k rows o rest r q l := ⟨hops, hring, hholder, htile, hmma, hpass, hready, hhome, hn, hl⟩
  refine ⟨fun hb => happens_some ((kblockStep_done head hb).trans ?_), fun c hb => happens_some (kblockStep_fault head hb)⟩
  by_cases last : kblocksOf q.cls ≤ q.kb + 1
  · simp only [next_of_last last, last, not_true_eq_false, if_true, if_false]
    rfl
  · simp only [next_of_more last, last, not_false_eq_true, if_true, if_false, Bool.false_eq_true]
    rfl

end Sys2Proof.Machine
end

section
/-!
PROOFS. Tile tasks (05 R107, R108, 18 R317); settles O52.
-/
namespace Sys2Proof.Machine

open Sys2Proof Sys2Proof.Ob

/-! ### A task that is released -/

/-- The oldest released task takes the lowest free engine, with the windows that its tile covers. -/
theorem tileRelease_eq {s u v : State} {cl e : Nat} {t : TileTask} {r : List TileTask} (hq : (s.cluster cl).tileReady = t :: r)
    (he : e < 4) (hf : s.engineFree cl e = true) (ht : (s.engine cl e).tile = none)
    (lower : ∀ j, j < e → s.engineFree cl j = false ∨ (s.engine cl j).tile ≠ none) (hu : s.slateRoom cl e = some u)
    (hv : u.takeWindows cl e t.ctx (coveredWins t.cls 0 t.m) = some (v, none)) :
    let w := v.setCluster cl { v.cluster cl with tileReady := r }
    s.tileRelease cl = some ((w.setEngine cl e { w.engine cl e with tile := some t }).wakeTiles cl).unstall := by
  have lowest : ((List.range 4).find? fun e => s.engineFree cl e && (s.engine cl e).tile.isNone) = some e := by
    refine List.find?_range_eq_some.2 ⟨by rw [hf, ht]; rfl, List.mem_range.2 he, fun j hj => ?_⟩
    rcases lower j hj with busy | running
    · rw [busy]; rfl
    · rw [Option.isNone_eq_false_iff.2 (Option.isSome_iff_ne_none.2 running), Bool.and_false]; rfl
  simp only [State.tileRelease, hq, lowest, hu, hv, Option.bind_some]

/-! ### A task that retires -/

section
variable {s : State} {cl e : Nat} {t : TileTask}

/-- Lines of C that can be written have no fault to report. -/
theorem tileRetire_stores {r : TileOut} (ht : (s.engine cl e).tile = some t) (hs : t.stored = false)
    (hr : s.tileResult cl e t (fun _ => []) = .ok r) (hf : r.fault = none) :
    let u := (r.fails.foldl (fun s n => s.countMatrix cl n) r.s).setEngine cl e r.x
    let v := State.tilePut u cl t u r.out
    u.tileBad cl t (r.out.map Prod.fst) = none → (∀ va ∈ r.out.map Prod.fst, u.tileMay cl t va = true) →
    s.tileRetire cl e [] = some (if t.done = 0 then v.tileLeave cl e t
      else v.setEngine cl e { v.engine cl e with tile := some { t with stored := true } }) := by
  dsimp only
  intro writable may
  have all := List.all_eq_true.2 may
  simp only [State.tileRetire, ht, hs, List.find?_nil, Option.map_none, Option.getD_none, hr, hf, writable, all, Bool.not_true,
    Bool.false_eq_true, if_false]

/-- A stored task raises the word at DONE, in its turn, and leaves. -/
theorem tileRetire_done {x : Xlat} {pa : Nat} (ht : (s.engine cl e).tile = some t) (hs : t.stored = true)
    (ha : s.tileAdr cl t .engWrite t.done = .ok (x, pa)) (hl : s.memLost pa = false) (hx : s.touchable x true = true)
    (hu : s.untouched x true = false) (hr : s.atomReady (cl / 8) (lineOf pa) false = true) :
    let v := (s.touch x true).cache (vfOf t.ctx) t.done x
    s.tileRetire cl e [] = some ((v.writeFrom (homeDie pa) (cl / 8) (lineWrite pa (leBytes 4 (v.devVal (homeDie pa) pa 4 + 1)) none)
      .matrix).tileLeave cl e t) := by
  have good : s.tileBad cl t [t.done] = none := by
    simp only [State.tileBad, List.findSome?_cons, List.findSome?_nil, ha, hl, Bool.false_eq_true, if_false]
  simp only [State.tileRetire, ht, hs, if_true, State.tileDone, good, ha, hx, hu, hr, Bool.not_true, Bool.false_eq_true, if_false]

/-- A stored task whose word cannot be written ends with its fault. -/
theorem tileRetire_bad {f : LateF} (ht : (s.engine cl e).tile = some t) (hs : t.stored = true)
    (hb : s.tileBad cl t [t.done] = some f) : s.tileRetire cl e [] = s.tileFault cl e t f := by
  simp only [State.tileRetire, ht, hs, if_true, State.tileDone, hb]

/-- One line of C is written with the tag of its class. -/
theorem tilePut_single {u : State} {va : Nat} {b : List Byte} {x : Xlat} {pa : Nat} (ha : s.tileAdr cl t .engWrite va = .ok (x, pa)) :
    State.tilePut s cl t u [(va, b)] = (((u.touch x true).cache (vfOf t.ctx) va x).checkedLine pa va (vfOf t.ctx) x.set 1).devWrite
      (cl / 8) (lineWrite pa b (some (if t.cls = .d64 then 0x0600 else 0x0500))) .matrix := by
  simp only [State.tilePut, List.foldl_cons, List.foldl_nil, ha]

/-- A task of a grid that posts no record leaves its engine, and its grid fails. -/
theorem tileFault_noRecord {g : Grid} {f : LateF} (hg : s.grid? t.grid = some g) (hn : g.noRecord = true) :
    s.tileFault cl e t f =
      some (((s.setEngine cl e { s.engine cl e with tile := none }).unstall).failGrid t.grid f t.conv) := by
  simp only [State.tileFault, hg, Option.elim_some, hn, if_true]

/-! ### A task that leaves its engine -/

/-- An engine that runs a task is one of its cluster's. -/
theorem engine_lt_of_tile (ht : (s.engine cl e).tile = some t) : e < (s.cluster cl).engines.length := by
  by_contra out
  rw [State.engine, List.getElem?_eq_none (Nat.le_of_not_lt out)] at ht
  cases ht

/-- The engine just set. -/
theorem engine_setEngine (x : Engine) (h : e < (s.cluster cl).engines.length) : (s.setEngine cl e x).engine cl e = x := by
  simp only [State.engine, State.setEngine, cluster_setCluster, getElem?_setAt_self x h, Option.getD_some]

/-- Waves that look again change no cluster. -/
theorem cluster_unstall (s : State) (cl : Nat) : s.unstall.cluster cl = s.cluster cl := by
  unfold State.unstall
  split <;> rfl

theorem tile_tileLeave (ht : (s.engine cl e).tile = some t) : ((s.tileLeave cl e t).engine cl e).tile = none := by
  have left := engine_setEngine { s.engine cl e with tile := none } (engine_lt_of_tile ht)
  rw [State.engine] at left ⊢
  rw [State.tileLeave, cluster_unstall, cluster_setCluster]
  exact congrArg Engine.tile left

/-- Its tile is marked on its context's board. -/
theorem retired_tileLeave : (lookD ((s.tileLeave cl e t).cluster cl).boards t.ctx.toNat Board.fresh).retired =
    (lookD (s.cluster cl).boards t.ctx.toNat Board.fresh).retired ++ [(t.x, t.y)] := by
  have boards (x : Engine) : ((s.setEngine cl e x).cluster cl).boards = (s.cluster cl).boards := by
    rw [State.setEngine, cluster_setCluster]
  rw [State.tileLeave, cluster_unstall, cluster_setCluster]
  simp only [Cluster.promote, boards, lookD, look_ins_self, Option.getD_some]

end

/-- 05 R107, R108, 18 R317. TILE_TASK_RELEASE, TILE_TASK_RETIRE and TILE_TASK_FAULT. -/
theorem tileSteps : TileSteps := by
  intro s cl
  refine ⟨?release, ?stores, ?done, ?leaves, ?line, ?faults, ?noRecord⟩
  case release => exact fun t r e u v hq he hf ht lower hu hv => happens_some (tileRelease_eq hq he hf ht lower hu hv)
  case stores =>
    intro e t r ht hs hr hf u hb hm v
    exact happens_some (tileRetire_stores ht hs hr hf hb hm)
  case done => exact fun e t x pa ht hs ha hl hx hu hr => happens_some (tileRetire_done ht hs ha hl hx hu hr)
  case leaves => exact fun e t ht => ⟨tile_tileLeave ht, retired_tileLeave⟩
  case line => exact fun t u va b x pa ha => tilePut_single ha
  case faults =>
    intro e t f u ht hu
    refine ⟨fun assay => happens_some ?_, fun hs hb => happens_some ((tileRetire_bad ht hs hb).trans hu)⟩
    simp only [ht, decide_eq_true assay, Bool.true_or, if_true]
    exact hu
  case noRecord => exact fun e t f g ht hg hn => tileFault_noRecord hg hn

/-- Settles O52: copies by `copyLines`, the oldest operations by `engineOperations`, K-blocks by `matrixBlocks`, tile tasks by
`tileSteps`. -/
theorem engines : Obligations.Engines := ⟨copyLines, engineOperations, matrixBlocks, tileSteps⟩

end Sys2Proof.Machine
end

section
/-!
PROOFS. GRV instructions that write a stream register or a generator join the engine's list (06 R118, R121, R122, 14 R275, R276).
-/
namespace Sys2Proof.Machine

open Sys2Proof Sys2Proof.Ob

/-! ### Some thread acts -/

theorem oneLane_ne_zero {t : Nat} (h : t < 128) : oneLane t ≠ 0 := by
  intro none_
  have bit : (oneLane t).getLsbD t = true := by simp [oneLane, h]
  rw [none_] at bit
  simp at bit

theorem lowest_eq_some {l : Lanes} (h : l ≠ 0) : ∃ t < 128, lowest l = some t := by
  cases ht : lowest l with
  | some t => exact ⟨t, List.mem_range.1 (List.mem_of_find?_eq_some ht), rfl⟩
  | none =>
    refine absurd (BitVec.eq_of_getLsbD_eq fun t less => ?_) h
    simpa using List.find?_eq_none.1 ht t (List.mem_range.2 less)

@[simp] theorem guard_onc (w : Wave) (k : Ctl) (b : Bool) : w.guard { k with onc := b } = w.guard k := rfl

/-- An instruction that acts once acts as its leader. -/
theorem acting_leader {c : Ctx} {k : Ctl} {t : Nat} (kernel : ¬c.hnd = true) (first : lowest (c.w.active &&& c.w.guard k) = some t) :
    c.acting { k with onc := true } = oneLane t := by
  simp only [Ctx.acting, if_neg kernel, if_true, guard_onc, first]

/-- Where some thread acts, a leader does (14 R263). -/
theorem acting_onc_ne_zero {c : Ctx} {k : Ctl} (h : c.acting k ≠ 0) : c.acting { k with onc := true } ≠ 0 := by
  by_cases handler : c.hnd = true
  · rw [Ctx.acting, if_pos handler]
    decide
  · by_cases once : k.onc = true
    · rwa [← once]
    · rw [Ctx.acting, if_neg handler, if_neg once] at h
      obtain ⟨t, less, first⟩ := lowest_eq_some h
      rw [acting_leader handler first]
      exact oneLane_ne_zero less

/-! ### What an issue asks for (06 R114, R121, R124) -/

theorem firstOf_of_none {a b : Option (BitVec 10)} (h : a = none) : firstOf a b = b := by
  rw [h]
  rfl

theorem needV_of_isV {d : Desc} (h : isV d = true) : needV d = none := if_pos h

section
variable {c : Ctx} {reads : List Nat} {gd : Option Nat}

/-- What `grvRoom` says, part by part. -/
theorem grvRoom_iff : grvRoom c reads gd = true ↔ c.gravel.holder = some c.id.conv ∧ (∀ r ∈ reads, look c.gravel.g r ≠ none) ∧
    c.w.cGrv ≠ 63 ∧ ∀ r ∈ reads ++ gd.toList, c.gravel.loading r = false := by
  simp only [grvRoom, Bool.and_eq_true, beq_iff_eq, List.all_eq_true, Option.isSome_iff_ne_none, decide_eq_true_eq, Bool.not_eq_true',
    and_assoc]

theorem grvOwn_of_set (held : c.gravel.holder = some c.id.conv) (set_ : ∀ r ∈ reads, look c.gravel.g r ≠ none) :
    c.grvOwn reads = none := by
  have found : (reads.any fun r => (look c.gravel.g r).isNone && !c.gravel.loading r) = false := by
    simpa using fun r hr unset => absurd unset (set_ r hr)
  rw [Ctx.grvOwn, needGravel_of_held held, Gravel.unset, found]
  rfl

theorem grvOwn_of_room (room : grvRoom c reads gd = true) : c.grvOwn reads = none := by
  obtain ⟨held, set_, -, -⟩ := grvRoom_iff.1 room
  exact grvOwn_of_set held set_

theorem needGravel_of_room (room : grvRoom c reads gd = true) : c.needGravel = none := needGravel_of_held (grvRoom_iff.1 room).1

/-- A register read that is not set, nor being loaded (06 R114). -/
theorem grvOwn_of_unset {r : Nat} (held : c.gravel.holder = some c.id.conv) (hr : r ∈ reads) (unset : look c.gravel.g r = none)
    (idle : c.gravel.loading r = false) : c.grvOwn reads = some (cStream 1) := by
  have found : (reads.any fun r => (look c.gravel.g r).isNone && !c.gravel.loading r) = true :=
    List.any_eq_true.2 ⟨r, hr, by rw [unset, idle]; rfl⟩
  rw [Ctx.grvOwn, needGravel_of_held held, Gravel.unset, found]
  rfl

/-- With room, the operation is issued. -/
theorem issueGrv_of_room {s : State} {tag : Option (Nat × DWord × BitVec 12 × Bool)} {op : GOpKind}
    (room : grvRoom c reads (tag.map Prod.fst) = true) : c.issueGrv s reads tag op = .ok (.of (issuedGrv c s tag op)) := by
  obtain ⟨-, -, few, idle⟩ := grvRoom_iff.1 room
  have pending : ((reads ++ tag.toList.map Prod.fst).any fun r => c.gravel.loading r) = false := by
    rw [← Option.toList_map]
    exact List.any_eq_false.2 fun r hr => ne_true_of_eq_false (idle r hr)
  rw [Ctx.issueGrv, pending, decide_eq_false few]
  rfl

/-! ### Correlated operands (06 R121, R122) -/

theorem clash_of_uncorrelated {pairs : List (Nat × Nat)} {cor : Bool} (apart : uncorrelated c (if cor then [] else pairs) = true) :
    c.gravel.clash cor pairs = none := by
  cases cor with
  | true => rfl
  | false =>
    refine if_neg (ne_true_of_eq_false (List.any_eq_false.2 fun p hp => ?_))
    have unlike : correlated (c.gravel.reg p.1) (c.gravel.reg p.2) = false := by simpa using List.all_eq_true.1 apart p hp
    simp [unlike]

/-- Correlated registers whose tags are known clash. -/
theorem clash_of_correlated {pairs : List (Nat × Nat)} {cor : Bool} (alike : uncorrelated c (if cor then [] else pairs) = false)
    (known : ∀ p ∈ pairs, c.gravel.loading p.1 = false ∧ c.gravel.loading p.2 = false) :
    c.gravel.clash cor pairs = some (cStream 2) := by
  cases cor with
  | true => cases alike
  | false =>
    obtain ⟨p, hp, both⟩ := List.all_eq_false.1 alike
    obtain ⟨first, second⟩ := known p hp
    refine if_pos (List.any_eq_true.2 ⟨p, hp, ?_⟩)
    simpa [first, second] using both

end

/-! ### Instructions that issue an operation (06 R118) -/

/-- The outcome of an instruction with room that issues `o`: the issue at its commit, or the trap of correlated operands. -/
def GrvAnswers (c : Ctx) (o : GrvIssue) (r : Host.Outcome State Fault Refusal) : Prop :=
  (o.good = true → uncorrelated c o.pairs = true → r = .next (c.commit o.m.closer none
    (issuedGrv (c.during o.m.closer) (o.drawn.elim c.s fun g => c.s.setGravel c.clusterNo g) o.tag o.op))) ∧
  (uncorrelated c o.pairs = false → c.w.cGrv = 0 → r = .next (c.precise c.s c.w (.plain (cStream 2)) false))

@[simp] theorem wide_closer (k : Ctl) (l : List Field) : (Meta.wide k l).closer = false := rfl

section
variable {c : Ctx} {o : GrvIssue} {own : Ctx → Option (BitVec 10)} {body : Ctx → Lanes → Verdict}

/-- An instruction whose body fails traps precisely. -/
theorem instr_fails {s : State} {m : Meta} {x : BitVec 10} (h : Ctx.of s = some c) (hr : c.runs m = true)
    (ho : own (c.during m.closer) = none) (hb : body (c.during m.closer) (c.acting m.ctl) = .fail (.plain x))
    (hx : x ∉ [cMemerr 0 0, cMemerr 0 2, cMemerr 1 0]) :
    instr s m own body = .next (c.precise s c.w (.plain x) false) := by
  have told : (c.during m.closer).told (.plain x) = s := (told_of_notMem hx).trans (ctx_state (c := c) h)
  rw [instr_runs h hr ho, hb]
  simp only [Ctx.settle, told]
  rfl

/-- An instruction that checks no pairs. -/
theorem grvAnswers_of_issue (h : Ctx.of c.s = some c) (runs : c.runs o.m = true) (room : grvRoom c o.reads o.gd = true)
    (pairs : o.pairs = []) (tag : o.gd = o.tag.map Prod.fst) (ho : o.good = true → own (c.during o.m.closer) = none)
    (hb : o.good = true → body (c.during o.m.closer) (c.acting o.m.ctl) =
      (c.during o.m.closer).issueGrv (o.drawn.elim c.s fun g => c.s.setGravel c.clusterNo g) o.reads o.tag o.op) :
    GrvAnswers c o (instr c.s o.m own body) := by
  refine ⟨fun good _ => instr_effect h runs (ho good) ?_, fun alike => ?_⟩
  · exact (hb good).trans (issueGrv_of_room (tag ▸ room))
  · rw [pairs] at alike
    cases alike

/-- A gate as the table lists it. -/
def gateIssue (c : Ctx) (k : Ctl) (gd : BitVec 5) (reads : List Nat) (pairs : List (Nat × Nat)) (cor : Bool) (op : GOpKind) :
    GrvIssue :=
  { m := { Meta.wide k [] with always := true }, good := c.acting k != 0, reads := reads, gd := some gd.toNat,
    pairs := if cor then [] else pairs, tag := c.gravel.tagOf gd.toNat reads, op := op }

/-- A gate, whose pairs are of registers that it reads. -/
theorem grvAnswers_of_gate {k : Ctl} {gd : BitVec 5} {reads : List Nat} {pairs : List (Nat × Nat)} {cor : Bool} {op : GOpKind}
    (h : Ctx.of c.s = some c) (runs : c.runs { Meta.wide k [] with always := true } = true)
    (room : grvRoom c reads (some gd.toNat) = true) (read : ∀ p ∈ pairs, p.1 ∈ reads ∧ p.2 ∈ reads) :
    GrvAnswers c (gateIssue c k gd reads pairs cor op) (gateInstr c.s k gd reads pairs cor op) := by
  have own : (c.during false).grvOwn reads = none := grvOwn_of_room room
  refine ⟨fun good apart => instr_effect h runs own ?issue, fun alike idle => ?trap⟩
  case issue =>
    have acts : c.acting { k with onc := true } ≠ 0 := acting_onc_ne_zero (by simpa [gateIssue] using good)
    have clear : (c.during false).gravel.clash cor pairs = none := clash_of_uncorrelated apart
    simp only [wide_ctl, wide_closer, clear]
    exact (if_neg acts).trans (issueGrv_of_room (c := c.during false) (tag := c.gravel.tagOf gd.toNat reads) room)
  case trap =>
    obtain ⟨-, -, -, known⟩ := grvRoom_iff.1 room
    have met : (c.during false).gravel.clash cor pairs = some (cStream 2) := clash_of_correlated alike fun p hp =>
      ⟨known _ (List.mem_append_left _ (read p hp).1), known _ (List.mem_append_left _ (read p hp).2)⟩
    refine instr_fails h runs own ?_ (by decide)
    simp only [wide_closer, met, during_w, idle, if_true]

end

/-- GGEN and GREG draw their words once the engine's earlier operations are performed (06 R115). -/
theorem generate_of_idle {c : Ctx} (idle : c.gravel.ops.isEmpty = true) (gd cls : Nat) (reads thr : List Nat) :
    c.generate gd cls reads thr =
      c.issueGrv (c.s.setGravel c.clusterNo (c.gravel.words cls (64 * c.gravel.len)).2) reads (oneClass gd cls)
        (.put gd ((32 + cls) :: reads) (comparedBits c.gravel.len (c.gravel.words cls (64 * c.gravel.len)).1 thr)) := by
  rw [Ctx.generate, idle]
  rfl

/-- 06 R118. Every instruction of the table answers as its entry says. -/
theorem exec_grvAnswers {i : Instr} {c : Ctx} {o : GrvIssue} {b : Bool} (hi : gOp (c.during b) i = some o) (hc : o.m.closer = b)
    (h : Ctx.of c.s = some c) (runs : c.runs o.m = true) (room : grvRoom c o.reads o.gd = true) : GrvAnswers c o (exec i c.s) := by
  have reserved : (c.during b).needGravel = none := needGravel_of_room room
  have set_ : (c.during b).grvOwn o.reads = none := grvOwn_of_room room
  cases i
  case ggen k gd vn cls bip x =>
    cases hi
    obtain rfl : true = b := hc
    refine grvAnswers_of_issue h runs room rfl rfl (fun good => ?own) fun good => ?body
    case own =>
      obtain ⟨direct, -⟩ := Bool.and_eq_true_iff.1 good
      exact (firstOf_of_none (needV_of_isV direct)).trans reserved
    case body =>
      obtain ⟨-, idle⟩ := Bool.and_eq_true_iff.1 good
      exact generate_of_idle (c := c.during true) idle ..
  case greg k gd gs cls =>
    cases hi
    obtain rfl : true = b := hc
    exact grvAnswers_of_issue h runs room rfl rfl (fun _ => set_) fun idle => generate_of_idle (c := c.during true) idle ..
  case gand | gxnr | gmux =>
    cases hi
    obtain rfl : false = b := hc
    exact grvAnswers_of_gate h runs room (by simp)
  case gshf k gd gs r =>
    cases hi
    obtain rfl : false = b := hc
    refine grvAnswers_of_issue h runs room rfl rfl (fun _ => set_) fun good => ?_
    simp only [Bool.and_eq_true, bne_iff_ne, decide_eq_true_eq] at good
    obtain ⟨⟨acts, some_⟩, less⟩ := good
    exact (if_neg fun bad => bad.2.elim (Nat.ne_of_gt some_) (Nat.not_le.2 less)).trans (if_neg acts)
  case gseed =>
    cases hi
    obtain rfl : false = b := hc
    exact grvAnswers_of_issue h runs room rfl rfl (fun _ => reserved) fun _ => rfl
  case gmov =>
    cases hi
    obtain rfl : false = b := hc
    exact grvAnswers_of_issue h runs room rfl rfl (fun _ => set_) fun _ => rfl
  all_goals cases hi

/-- An instruction of the table that reads registers looks for its reservation, then for those registers. -/
theorem exec_reads {i : Instr} {s : State} {c : Ctx} {o : GrvIssue} {r : Nat} (hi : gOp c i = some o) (hr : r ∈ o.reads) :
    ∃ body, exec i s = instr s o.m (fun c => c.grvOwn o.reads) body := by
  cases i
  case ggen | gseed =>
    cases hi
    cases hr
  case greg | gand | gxnr | gmux | gshf | gmov =>
    cases hi
    exact ⟨_, rfl⟩
  all_goals cases hi

/-- 06 R118, R121, R122, 14 R275, R276. GRV instructions that issue an operation. -/
theorem gravelOperations : GravelOperations := by
  intro i s c h
  obtain rfl := ctx_state h
  refine ⟨fun o hi runs room => ?issues, fun o r hi hr check held unset idle => ?unset⟩
  case issues =>
    rcases hi with ⟨hi, closer⟩ | ⟨hi, closer⟩
    · exact exec_grvAnswers hi closer h runs room
    · exact exec_grvAnswers hi closer h runs room
  case unset =>
    obtain ⟨body, eq⟩ := exec_reads (s := c.s) hi hr
    rw [eq]
    exact instr_traps h check (grvOwn_of_unset (c := c.during o.m.closer) held hr unset idle) (by decide)

end Sys2Proof.Machine
end

section
/-!
PROOFS. Images of stream registers, and the synchronous GRV instructions (06 R119, R120, R126, 14 R276); settles O40.
-/
namespace Sys2Proof.Machine

open Sys2Proof Sys2Proof.Ob

/-! ### Images (06 R120) -/

theorem length_lineVas (a n : Nat) : (lineVas a n).length = n := by rw [lineVas, List.length_map, List.length_range]

/-- GMOV.LD and GMOV.ST with an aligned image whose lines pass their checks, after the wave's stores. -/
theorem imageInstr_issues {c : Ctx} {k : Ctl} {ka : Desc} {own : Ctx → Option (BitVec 10)} {acc : Access} {reads : List Nat}
    {op : Ctx → List (Nat × Nat) → GOpKind} (h : Ctx.of c.s = some c) (runs : c.runs (.wide k [src ka 2]) = true)
    (stores : c.w.sq = []) (room : grvRoom c reads none = true) (ho : own (c.during false) = none) :
    let c' := c.during false
    let a := (c'.addr (c.acting { k with onc := true }) ka).toNat
    let l := goodLines c' acc (lineVas a (c.gravel.len / 8 + 1))
    a % 64 = 0 → l.length = c.gravel.len / 8 + 1 → c'.touchables l (acc == .store) = true →
    imageInstr c.s k ka own acc reads op = .next (c.commit false none
      (issuedGrv c' (c.s.touches c.vf l (acc == .store)) none (op c' (linePairs l)))) := by
  dsimp only
  intro aligned good touch
  refine instr_effect h runs ho ?_
  simp only [wide_ctl, wide_closer, during_gravel, during_w, aligned, rangeLines_good (good.trans (length_lineVas ..).symm), touch,
    stores, ne_eq, not_true_eq_false, if_false, List.isEmpty_nil, Bool.not_true, Bool.or_self, Bool.false_eq_true]
  exact issueGrv_of_room (c := c.during false) (tag := none) room

/-- 06 R120, 14 R276. GMOV.LD and GMOV.ST. -/
theorem gravelImages : GravelImages := by
  intro k g ka s c h
  obtain rfl := ctx_state h
  intro runs
  dsimp only
  intro aligned stores
  refine ⟨fun good touch room => ?load, fun good touch room => ?store⟩
  case load => exact imageInstr_issues h runs stores room (needGravel_of_room room) aligned good touch
  case store => exact imageInstr_issues h runs stores room (grvOwn_of_room room) aligned good touch

/-! ### Synchronous instructions (06 R119, R126) -/

/-- Once the engine's operations have completed, with no uncorrectable register and no persisting mismatch, the effect is made whole. -/
theorem syncGrv_of_sound {c : Ctx} {uses : List Nat} {body : State → (Nat → Bool) → Verdict} (idle : c.gravel.ops = [])
    (passed : persists c.gravel.fails = false) (sound : ∀ r ∈ uses, r ∉ c.gravel.bad) :
    c.syncGrv uses body = body c.attempted fun _ => false := by
  have kept : uses.any c.gravel.bad.contains = false := List.any_eq_false.2 fun r hr => by simpa using sound r hr
  simp only [Ctx.syncGrv, idle, kept, passed]
  rfl

theorem getLsbD_oneBit {n e : Nat} (h : e < 64) : (1#64 <<< n).getLsbD e = decide (e = n) := by
  rw [BitVec.getLsbD_shiftLeft, BitVec.getLsbD_one, decide_eq_true h]
  by_cases same : e = n
  · simp [same]
  · simp [same]
    omega

/-- An element's bit in the mask of the elements that a choice names. -/
theorem getLsbD_lanes64 (f : Nat → Bool) {e : Nat} (h : e < 64) : (lanes64 f).getLsbD e = f e := by
  have bit (n : Nat) : ((List.range n).foldl (fun m e => if f e then m ||| (1#64 <<< e) else m) 0).getLsbD e =
      (decide (e < n) && f e) := by
    induction n with
    | zero => simp
    | succ n ih =>
      simp only [List.range_succ, List.foldl_append, List.foldl_cons, List.foldl_nil, apply_ite (BitVec.getLsbD · e), BitVec.getLsbD_or,
        getLsbD_oneBit h, ih]
      rcases Nat.lt_trichotomy e n with less | rfl | more
      · simp [less, Nat.lt_succ_of_lt less, Nat.ne_of_lt less]
      · simp
      · simp [Nat.not_lt.2 (Nat.succ_le_of_lt more), Nat.not_lt_of_gt more, Nat.ne_of_gt more]
  rw [lanes64, bit, decide_eq_true h, Bool.true_and]

/-- A mask written but for the elements that keep their old value. -/
theorem getLsbD_keepLanes (keep f : Nat → Bool) (old : DWord) {e : Nat} (h : e < 64) :
    ((lanes64 f &&& ~~~lanes64 keep) ||| (old &&& lanes64 keep)).getLsbD e = if keep e then old.getLsbD e else f e := by
  simp only [BitVec.getLsbD_or, BitVec.getLsbD_and, BitVec.getLsbD_not, getLsbD_lanes64 _ h, decide_eq_true h]
  cases keep e <;> simp

/-- The registers that GACC adds up. -/
theorem mem_gaccRegs {ga n r : Nat} : r ∈ (List.range (n + 1)).map (fun i => ga + i) ↔ ga ≤ r ∧ r ≤ ga + n := by
  simp only [List.mem_map, List.mem_range]
  exact ⟨fun ⟨i, hi, eq⟩ => by omega, fun ⟨low, high⟩ => ⟨r - ga, by omega, by omega⟩⟩

/-- 06 R119, R126. GCNT, GACC, GCMP and GLEN. -/
theorem gravelCounts : GravelCounts := by
  intro s c h held idle passed
  obtain rfl := ctx_state h
  have own {reads : List Nat} (set_ : ∀ r ∈ reads, look c.gravel.g r ≠ none) : (c.during false).grvOwn reads = none :=
    grvOwn_of_set held set_
  have done {uses : List Nat} {body : State → (Nat → Bool) → Verdict} (sound : ∀ r ∈ uses, r ∉ c.gravel.bad) :
      (c.during false).syncGrv uses body = body (c.during false).attempted fun _ => false := syncGrv_of_sound idle passed sound
  refine ⟨?gcnt, ?gacc, ?gcmp, ?glen⟩
  case gcnt =>
    intro k vd gs kind runs direct set_ sound
    refine instr_effect h runs ?_ (done (by simpa using sound))
    exact (firstOf_of_none (needV_of_isV direct)).trans (own (by simpa using set_))
  case gacc =>
    intro k vd ga n runs direct inRange regs
    have member {r : Nat} (hr : r ∈ (List.range (n.toNat + 1)).map fun i => ga.toNat + i) :
        r < 32 ∧ look c.gravel.g r ≠ none ∧ r ∉ c.gravel.bad := by
      obtain ⟨low, high⟩ := mem_gaccRegs.1 hr
      exact ⟨by omega, regs r low high⟩
    refine instr_effect h runs ?own ((done fun r hr => ?sound).trans ?sum)
    case own =>
      refine (firstOf_of_none (needV_of_isV direct)).trans ((firstOf_of_none (own fun r hr => ?set_)).trans (if_neg ?inBank))
      case set_ =>
        obtain ⟨-, set_, -⟩ := member (List.mem_of_mem_filter hr)
        exact set_
      case inBank =>
        refine ne_true_of_eq_false (List.any_eq_false.2 fun r hr => ?_)
        obtain ⟨inBank, -, -⟩ := member hr
        simpa using Nat.le_of_lt_succ inBank
    case sound =>
      obtain ⟨-, -, sound⟩ := member hr
      exact sound
    case sum =>
      simp only [Ctx.putSome, List.foldl_map]
      rfl
  case gcmp =>
    intro k r gs vn first runs direct set_ sound
    have checks : firstOf (needK (.k r)) (firstOf (needV vn) ((c.during false).grvOwn [gs.toNat])) = none :=
      (firstOf_of_none rfl).trans ((firstOf_of_none (needV_of_isV direct)).trans (own (by simpa using set_)))
    refine ⟨_, instr_effect h runs checks (done (by simpa using sound)), ?first, ?mask⟩
    case first =>
      rintro rfl
      rfl
    case mask =>
      rintro rfl e less
      exact getLsbD_keepLanes (fun _ => false) _ _ less
  case glen =>
    intro k l runs acts
    dsimp only
    intro length
    refine instr_effect h runs (needGravel_of_held (c := c.during false) held)
      ((if_neg fun bad => ?_).trans ((if_neg acts).trans (done nofun)))
    rw [decide_eq_true (by simpa using length)] at bad
    exact absurd bad.2 Bool.false_ne_true

/-- Settles O40: what issues an operation by `gravelOperations`, images by `gravelImages`, counts by `gravelCounts`. -/
theorem gravel : Obligations.Gravel := ⟨gravelOperations, gravelImages, gravelCounts⟩

end Sys2Proof.Machine
end

section
/-!
PROOFS. The Cairn cores' encodings: the fields of RV64 words, values put together again from their fields, words of 32 bits, parcels of 16.
-/
namespace Sys2Proof.Laws

open Sys2Proof Sys2Proof.Ob
open BitVec (extractLsb'_append_eq_of_add_le extractLsb'_append_eq_of_le extractLsb'_append_extractLsb'_eq_extractLsb' extractLsb'_eq_self
  extractLsb'_append_eq_left extractLsb'_append_eq_right extractLsb'_append_eq_ite extractLsb'_toNat)

/-! ### Fields of the RV64 words (07 R127) -/

/-- The fields of an R-type word (07 R127). -/
@[simp] theorem rvR_fields (f7 : BitVec 7) (rs2 rs1 : BitVec 5) (f3 : BitVec 3) (rd : BitVec 5) (opc : BitVec 7) :
    (rvR f7 rs2 rs1 f3 rd opc).extractLsb' 0 7 = opc ∧ (rvR f7 rs2 rs1 f3 rd opc).extractLsb' 7 5 = rd ∧
    (rvR f7 rs2 rs1 f3 rd opc).extractLsb' 12 3 = f3 ∧ (rvR f7 rs2 rs1 f3 rd opc).extractLsb' 15 5 = rs1 ∧
    (rvR f7 rs2 rs1 f3 rd opc).extractLsb' 20 5 = rs2 ∧ (rvR f7 rs2 rs1 f3 rd opc).extractLsb' 25 7 = f7 := by
  simp (disch := decide) only [rvR, extractLsb'_append_eq_of_add_le, extractLsb'_append_eq_of_le, Nat.reduceSub, extractLsb'_eq_self, and_self]

/-- The fields of an I-type word, and those of its immediate that a shift has. -/
@[simp] theorem rvI_fields (imm : BitVec 12) (rs1 : BitVec 5) (f3 : BitVec 3) (rd : BitVec 5) (opc : BitVec 7) :
    (rvI imm rs1 f3 rd opc).extractLsb' 0 7 = opc ∧ (rvI imm rs1 f3 rd opc).extractLsb' 7 5 = rd ∧
    (rvI imm rs1 f3 rd opc).extractLsb' 12 3 = f3 ∧ (rvI imm rs1 f3 rd opc).extractLsb' 15 5 = rs1 ∧
    (rvI imm rs1 f3 rd opc).extractLsb' 20 12 = imm ∧ (rvI imm rs1 f3 rd opc).extractLsb' 20 6 = imm.extractLsb' 0 6 ∧
    (rvI imm rs1 f3 rd opc).extractLsb' 26 6 = imm.extractLsb' 6 6 ∧ (rvI imm rs1 f3 rd opc).extractLsb' 25 7 = imm.extractLsb' 5 7 := by
  simp (disch := decide) only [rvI, extractLsb'_append_eq_of_add_le, extractLsb'_append_eq_of_le, Nat.reduceSub, extractLsb'_eq_self, and_self]

/-- The fields of an S-type word. -/
@[simp] theorem rvS_fields (imm : BitVec 12) (rs2 rs1 : BitVec 5) (f3 : BitVec 3) (opc : BitVec 7) :
    (rvS imm rs2 rs1 f3 opc).extractLsb' 0 7 = opc ∧ (rvS imm rs2 rs1 f3 opc).extractLsb' 7 5 = imm.extractLsb' 0 5 ∧
    (rvS imm rs2 rs1 f3 opc).extractLsb' 12 3 = f3 ∧ (rvS imm rs2 rs1 f3 opc).extractLsb' 15 5 = rs1 ∧
    (rvS imm rs2 rs1 f3 opc).extractLsb' 20 5 = rs2 ∧ (rvS imm rs2 rs1 f3 opc).extractLsb' 25 7 = imm.extractLsb' 5 7 := by
  simp (disch := decide) only [rvS, extractLsb'_append_eq_of_add_le, extractLsb'_append_eq_of_le, Nat.reduceSub, extractLsb'_eq_self, and_self]

/-- The fields of a B-type word. -/
@[simp] theorem rvB_fields (off : BitVec 13) (rs2 rs1 : BitVec 5) (f3 : BitVec 3) (opc : BitVec 7) :
    (rvB off rs2 rs1 f3 opc).extractLsb' 0 7 = opc ∧ (rvB off rs2 rs1 f3 opc).extractLsb' 7 1 = off.extractLsb' 11 1 ∧
    (rvB off rs2 rs1 f3 opc).extractLsb' 8 4 = off.extractLsb' 1 4 ∧ (rvB off rs2 rs1 f3 opc).extractLsb' 12 3 = f3 ∧
    (rvB off rs2 rs1 f3 opc).extractLsb' 15 5 = rs1 ∧ (rvB off rs2 rs1 f3 opc).extractLsb' 20 5 = rs2 ∧
    (rvB off rs2 rs1 f3 opc).extractLsb' 25 6 = off.extractLsb' 5 6 ∧ (rvB off rs2 rs1 f3 opc).extractLsb' 31 1 = off.extractLsb' 12 1 := by
  simp (disch := decide) only [rvB, extractLsb'_append_eq_of_add_le, extractLsb'_append_eq_of_le, Nat.reduceSub, extractLsb'_eq_self, and_self]

/-- The fields of a J-type word. -/
@[simp] theorem rvJ_fields (off : BitVec 21) (rd : BitVec 5) (opc : BitVec 7) :
    (rvJ off rd opc).extractLsb' 0 7 = opc ∧ (rvJ off rd opc).extractLsb' 7 5 = rd ∧
    (rvJ off rd opc).extractLsb' 12 8 = off.extractLsb' 12 8 ∧
    (rvJ off rd opc).extractLsb' 20 1 = off.extractLsb' 11 1 ∧ (rvJ off rd opc).extractLsb' 21 10 = off.extractLsb' 1 10 ∧
    (rvJ off rd opc).extractLsb' 31 1 = off.extractLsb' 20 1 := by
  simp (disch := decide) only [rvJ, extractLsb'_append_eq_of_add_le, extractLsb'_append_eq_of_le, Nat.reduceSub, extractLsb'_eq_self, and_self]

/-- The fields of a U-type word. -/
@[simp] theorem rvU_fields (imm : BitVec 20) (rd : BitVec 5) (opc : BitVec 7) :
    BitVec.extractLsb' (n := 32) 0 7 (imm ++ rd ++ opc) = opc ∧ BitVec.extractLsb' (n := 32) 7 5 (imm ++ rd ++ opc) = rd ∧
    BitVec.extractLsb' (n := 32) 12 20 (imm ++ rd ++ opc) = imm := by
  simp (disch := decide) only [extractLsb'_append_eq_of_add_le, extractLsb'_append_eq_of_le, Nat.reduceSub, extractLsb'_eq_self, and_self]

/-! ### Values put together from their fields -/

/-- A field over zeros reaches down to bit 0 where the bits below it are zero. -/
theorem extractLsb'_append_zero {w m n : Nat} {x : BitVec w} (h : x.extractLsb' 0 m = 0#m) :
    x.extractLsb' m n ++ 0#m = x.extractLsb' 0 (n + m) := by
  rw [← h, extractLsb'_append_extractLsb'_eq_extractLsb' (Nat.zero_add m).symm]

/-- Zeros over a field widen it where the bits above it are zero. -/
theorem zero_append_extractLsb' {w m s n : Nat} {x : BitVec w} (h : x.toNat < 2 ^ (s + n)) :
    0#m ++ x.extractLsb' s n = x.extractLsb' s (m + n) := by
  have hz : x.extractLsb' (s + n) m = 0#m := field_eq x _ _ (by simp [Nat.div_eq_of_lt h])
  rw [← hz, extractLsb'_append_extractLsb'_eq_extractLsb' rfl]

theorem extractLsb'_eq_zero_of_bit {w i : Nat} {x : BitVec w} (h : x.getLsbD i = false) : x.extractLsb' i 1 = 0#1 := by
  refine (BitVec.eq_zero_or_eq_one _).resolve_right fun e => ?_
  rw [BitVec.getLsbD_eq_extractLsb', e] at h
  cases h

theorem extractLsb'_eq_zero_of_mod {w m : Nat} {x : BitVec w} (h : x.toNat % 2 ^ m = 0) : x.extractLsb' 0 m = 0#m :=
  field_eq x 0 _ (by simpa using h)

/-- The low k + 1 bits of a value that k bits and a sign hold give the value back. -/
theorem signExtend_extractLsb' {w k : Nat} {x : BitVec w} (hw : k < w) (lo : -2 ^ k ≤ x.toInt) (hi : x.toInt < 2 ^ k) :
    (x.extractLsb' 0 (k + 1)).signExtend w = x := by
  apply BitVec.eq_of_toInt_eq
  rw [BitVec.toInt_signExtend_of_le hw, BitVec.toInt_extractLsb', Nat.shiftRight_zero]
  have hd : 2 ^ (k + 1) ∣ 2 ^ w := Nat.pow_dvd_pow 2 hw
  rw [← Int.bmod_bmod_of_dvd hd, ← BitVec.toInt_eq_toNat_bmod]
  have e : ((2 ^ (k + 1) : Nat) : Int) = 2 * 2 ^ k := by push_cast; ring
  exact Int.bmod_eq_of_le (by omega) (by omega)

/-- The low n bits of a value that n bits hold give the value back. -/
theorem setWidth_extractLsb' {w n : Nat} {x : BitVec w} (h : x.toNat < 2 ^ n) : (x.extractLsb' 0 n).setWidth w = x := by
  apply BitVec.eq_of_toNat_eq
  rw [BitVec.toNat_setWidth, extractLsb'_toNat, Nat.shiftRight_zero, Nat.mod_eq_of_lt h, Nat.mod_eq_of_lt x.isLt]

/-! ### Words of 32 bits (07 R127, R130) -/

@[simp] theorem rvOp_code (x : RvOp) : RvOp.ofCode x.code.1 x.code.2.1 x.code.2.2 = some x := by cases x <;> rfl

/-- A shift's immediate is its code over its amount. -/
theorem shiftImm_fields (c sh : BitVec 6) : (c ++ sh).extractLsb' 0 6 = sh ∧ (c ++ sh).extractLsb' 6 6 = c :=
  ⟨extractLsb'_append_eq_right, extractLsb'_append_eq_left⟩

/-- A word shift's amount has five bits, and its code the bit above them too. -/
theorem shiftImm_wordCode {c sh : BitVec 6} (h : sh.getLsbD 5 = false) : (c ++ sh).extractLsb' 5 7 = c ++ 0#1 := by
  rw [extractLsb'_append_eq_ite, dif_pos (by decide), dif_neg (by decide)]
  simp [extractLsb'_eq_zero_of_bit h]

/-- A base instruction that fits its word is what the word decodes to. -/
theorem decodeRv_word (i : RvInstr) (h : i.fits = true) : decodeRv i.word = some i := by
  cases i with
  | lui | auipc | jalr | load | fence | fenceI => simp [decodeRv, RvInstr.word]
  | csrRead csr clear rd => cases clear <;> simp [decodeRv, RvInstr.word]
  | opImm op rd rs1 imm => cases op <;> simp [decodeRv, RvInstr.word]
  | store op rs1 rs2 imm =>
    simp [decodeRv, RvInstr.word, -Nat.reduceAdd, extractLsb'_append_extractLsb'_eq_extractLsb']
  | branch op rs1 rs2 off =>
    have h0 := extractLsb'_append_zero (n := 12) (extractLsb'_eq_zero_of_bit (Bool.not_eq_true' _ ▸ h))
    simp [decodeRv, RvInstr.word, -Nat.reduceAdd, extractLsb'_append_extractLsb'_eq_extractLsb', h0]
  | jal rd off =>
    have h0 := extractLsb'_append_zero (n := 20) (extractLsb'_eq_zero_of_bit (Bool.not_eq_true' _ ▸ h))
    simp [decodeRv, RvInstr.word, -Nat.reduceAdd, extractLsb'_append_extractLsb'_eq_extractLsb', h0]
  | shImm op rd rs1 sh =>
    cases op with
    | slli | srli | srai => simp [decodeRv, RvInstr.word, shiftImm_fields]
    | slliw | srliw | sraiw => simp [decodeRv, RvInstr.word, shiftImm_fields, shiftImm_wordCode (Bool.not_eq_true' _ ▸ h)]
  | opReg op rd rs1 rs2 =>
    have hc := rvOp_code op
    cases hw : op.code.2.2 <;> rw [hw] at hc <;> simp [decodeRv, RvInstr.word, hw, hc]

/-- A base instruction's word has neither of the custom opcodes. -/
theorem word_opcode_not_custom (i : RvInstr) : i.word.extractLsb' 0 7 ≠ custom0 ∧ i.word.extractLsb' 0 7 ≠ custom1 := by
  cases i with
  | opImm op => cases op <;> simp [RvInstr.word, custom0, custom1]
  | shImm op => cases op <;> simp [RvInstr.word, custom0, custom1]
  | opReg op => cases h : op.code.2.2 <;> simp [RvInstr.word, custom0, custom1, h]
  | _ => simp [RvInstr.word, custom0, custom1]

/-- A well-formed instruction that has a Cairn word is what the word decodes to. -/
theorem decodeCairn_cairnWord {i : Instr} {w : Word} (h : i.cairnWord = some w) (hw : i.wf = true) : decodeCairn w = some i := by
  cases i with
  | clnRd | clnGet | clnBud | clnDone | clnKeep | clnDrop =>
    cases h
    simp [decodeCairn, custom0, decodeCustom0]
  | clnReq | clnFwd | clnRply | clnAtom | clnEvq =>
    cases h
    simp [decodeCairn, custom0, custom1, decodeCustom1]
  | clnWr =>
    cases h
    simp [decodeCairn, custom0, custom1, decodeCustom1, -Nat.reduceAdd, extractLsb'_append_extractLsb'_eq_extractLsb']
  | cairnBase r short =>
    cases short with
    | true => cases h
    | false =>
      cases h
      obtain ⟨h0, h1⟩ := word_opcode_not_custom r
      simp [decodeCairn, h0, h1, decodeRv_word r hw]
  | _ => cases h

/-- An instruction that has a Cairn word is encoded in it. -/
theorem encode_of_cairnWord {i : Instr} {w : Word} (h : i.cairnWord = some w) : encode i = some (.cairn w) := by
  cases i with
  | cairnBase r short =>
    cases short with
    | true => cases h
    | false => exact congrArg (Option.map Code.cairn) h
  | clnRd | clnGet | clnBud | clnDone | clnKeep | clnDrop | clnWr | clnReq | clnFwd | clnRply | clnAtom | clnEvq =>
    exact congrArg (Option.map Code.cairn) h
  | _ => cases h

/-! ### Parcels of 16 bits (07 R127) -/

/-- A register of the three-bit fields comes back from its field. -/
theorem rvc3_extractLsb' {r : BitVec 5} (h : rvcReg r = true) : rvc3 (r.extractLsb' 0 3) = r := by
  revert r; decide

/-- The stack pointer has no three-bit field. -/
theorem ne_two_of_rvcReg {r : BitVec 5} (h : rvcReg r = true) : r ≠ 2#5 := by
  revert r; decide

/-- C.LUI. -/
theorem decodeParcel_lui {rd : BitVec 5} {imm : BitVec 20} (h : (RvInstr.lui rd imm).hasShort = true) :
    (RvInstr.lui rd imm).parcel.bind decodeParcel = some (RvInstr.lui rd imm) := by
  simp [RvInstr.hasShort] at h
  obtain ⟨hrd, ⟨hne, hlo⟩, hhi⟩ := h
  have hs := signExtend_extractLsb' (k := 5) (by decide) hlo hhi
  have hz : imm.extractLsb' 0 (1 + 5) ≠ 0#6 := fun e => hne (by rw [← hs, e]; rfl)
  simp (disch := decide) [-Nat.reduceAdd, RvInstr.parcel, decodeParcel, extractLsb'_append_eq_of_add_le, extractLsb'_append_eq_of_le,
    extractLsb'_append_extractLsb'_eq_extractLsb', hrd, hs, hz]

/-- C.J. -/
theorem decodeParcel_jal {rd : BitVec 5} {off : BitVec 21} (h : (RvInstr.jal rd off).hasShort = true) :
    (RvInstr.jal rd off).parcel.bind decodeParcel = some (RvInstr.jal rd off) := by
  simp [RvInstr.hasShort] at h
  obtain ⟨⟨⟨rfl, h0⟩, hlo⟩, hhi⟩ := h
  have hs := signExtend_extractLsb' (k := 11) (by decide) hlo hhi
  have hz := extractLsb'_append_zero (n := 11) (extractLsb'_eq_zero_of_bit h0)
  simp (disch := decide) [-Nat.reduceAdd, RvInstr.parcel, decodeParcel, extractLsb'_append_eq_of_add_le, extractLsb'_append_eq_of_le,
    extractLsb'_append_extractLsb'_eq_extractLsb', hs, hz]

/-- C.JR and C.JALR. -/
theorem decodeParcel_jalr {rd rs1 : BitVec 5} {imm : BitVec 12} (h : (RvInstr.jalr rd rs1 imm).hasShort = true) :
    (RvInstr.jalr rd rs1 imm).parcel.bind decodeParcel = some (RvInstr.jalr rd rs1 imm) := by
  simp [RvInstr.hasShort] at h
  obtain ⟨⟨rfl | rfl, h0⟩, rfl⟩ := h <;>
    simp (disch := decide) [-Nat.reduceAdd, RvInstr.parcel, decodeParcel, extractLsb'_append_eq_of_add_le, extractLsb'_append_eq_of_le,
      h0]

/-- C.BEQZ and C.BNEZ. -/
theorem decodeParcel_branch {op : RvBr} {rs1 rs2 : BitVec 5} {off : BitVec 13} (h : (RvInstr.branch op rs1 rs2 off).hasShort = true) :
    (RvInstr.branch op rs1 rs2 off).parcel.bind decodeParcel = some (RvInstr.branch op rs1 rs2 off) := by
  simp [RvInstr.hasShort] at h
  obtain ⟨⟨⟨⟨⟨hop, rfl⟩, hr⟩, h0⟩, hlo⟩, hhi⟩ := h
  have hs := signExtend_extractLsb' (k := 8) (by decide) hlo hhi
  have hz := extractLsb'_append_zero (n := 8) (extractLsb'_eq_zero_of_bit h0)
  rcases hop with rfl | rfl <;>
    simp (disch := decide) [-Nat.reduceAdd, RvInstr.parcel, decodeParcel, extractLsb'_append_eq_of_add_le, extractLsb'_append_eq_of_le,
      extractLsb'_append_extractLsb'_eq_extractLsb', hs, hz, rvc3_extractLsb' hr]

/-- C.LWSP, C.LDSP, C.LW and C.LD. -/
theorem decodeParcel_load {op : RvLd} {rd rs1 : BitVec 5} {imm : BitVec 12} (h : (RvInstr.load op rd rs1 imm).hasShort = true) :
    (RvInstr.load op rd rs1 imm).parcel.bind decodeParcel = some (RvInstr.load op rd rs1 imm) := by
  cases op with
  | lw =>
    simp [RvInstr.hasShort] at h
    rcases h with ⟨⟨⟨rfl, hd⟩, hi⟩, hm⟩ | ⟨⟨⟨hr, hd⟩, hi⟩, hm⟩
    · have hz := extractLsb'_append_zero (n := 10) (extractLsb'_eq_zero_of_mod (m := 2) hm)
      have hh := zero_append_extractLsb' (m := 4) (s := 6) (n := 2) hi
      simp (disch := decide) [-Nat.reduceAdd, RvInstr.parcel, decodeParcel, extractLsb'_append_eq_of_add_le, extractLsb'_append_eq_of_le,
        extractLsb'_append_extractLsb'_eq_extractLsb', hz, hh, hd]
    · have hz := extractLsb'_append_zero (n := 10) (extractLsb'_eq_zero_of_mod (m := 2) hm)
      have hh := zero_append_extractLsb' (m := 5) (s := 6) (n := 1) hi
      simp (disch := decide) [-Nat.reduceAdd, RvInstr.parcel, decodeParcel, extractLsb'_append_eq_of_add_le, extractLsb'_append_eq_of_le,
        extractLsb'_append_extractLsb'_eq_extractLsb', hz, hh, rvc3_extractLsb' hd, rvc3_extractLsb' hr, ne_two_of_rvcReg hr]
  | ld =>
    simp [RvInstr.hasShort] at h
    rcases h with ⟨⟨⟨rfl, hd⟩, hi⟩, hm⟩ | ⟨⟨⟨hr, hd⟩, hi⟩, hm⟩
    · have hz := extractLsb'_append_zero (n := 9) (extractLsb'_eq_zero_of_mod (m := 3) hm)
      have hh := zero_append_extractLsb' (m := 3) (s := 6) (n := 3) hi
      simp (disch := decide) [-Nat.reduceAdd, RvInstr.parcel, decodeParcel, extractLsb'_append_eq_of_add_le, extractLsb'_append_eq_of_le,
        extractLsb'_append_extractLsb'_eq_extractLsb', hz, hh, hd]
    · have hz := extractLsb'_append_zero (n := 9) (extractLsb'_eq_zero_of_mod (m := 3) hm)
      have hh := zero_append_extractLsb' (m := 4) (s := 6) (n := 2) hi
      simp (disch := decide) [-Nat.reduceAdd, RvInstr.parcel, decodeParcel, extractLsb'_append_eq_of_add_le, extractLsb'_append_eq_of_le,
        extractLsb'_append_extractLsb'_eq_extractLsb', hz, hh, rvc3_extractLsb' hd, rvc3_extractLsb' hr, ne_two_of_rvcReg hr]
  | lb | lh | lbu | lhu | lwu => cases h

/-- C.SWSP, C.SDSP, C.SW and C.SD. -/
theorem decodeParcel_store {op : RvSt} {rs1 rs2 : BitVec 5} {imm : BitVec 12} (h : (RvInstr.store op rs1 rs2 imm).hasShort = true) :
    (RvInstr.store op rs1 rs2 imm).parcel.bind decodeParcel = some (RvInstr.store op rs1 rs2 imm) := by
  cases op with
  | sw =>
    simp [RvInstr.hasShort] at h
    rcases h with ⟨⟨rfl, hi⟩, hm⟩ | ⟨⟨⟨hr, hd⟩, hi⟩, hm⟩
    · have hz := extractLsb'_append_zero (n := 10) (extractLsb'_eq_zero_of_mod (m := 2) hm)
      have hh := zero_append_extractLsb' (m := 4) (s := 6) (n := 2) hi
      simp (disch := decide) [-Nat.reduceAdd, RvInstr.parcel, decodeParcel, extractLsb'_append_eq_of_add_le, extractLsb'_append_eq_of_le,
        extractLsb'_append_extractLsb'_eq_extractLsb', hz, hh]
    · have hz := extractLsb'_append_zero (n := 10) (extractLsb'_eq_zero_of_mod (m := 2) hm)
      have hh := zero_append_extractLsb' (m := 5) (s := 6) (n := 1) hi
      simp (disch := decide) [-Nat.reduceAdd, RvInstr.parcel, decodeParcel, extractLsb'_append_eq_of_add_le, extractLsb'_append_eq_of_le,
        extractLsb'_append_extractLsb'_eq_extractLsb', hz, hh, rvc3_extractLsb' hd, rvc3_extractLsb' hr, ne_two_of_rvcReg hr]
  | sd =>
    simp [RvInstr.hasShort] at h
    rcases h with ⟨⟨rfl, hi⟩, hm⟩ | ⟨⟨⟨hr, hd⟩, hi⟩, hm⟩
    · have hz := extractLsb'_append_zero (n := 9) (extractLsb'_eq_zero_of_mod (m := 3) hm)
      have hh := zero_append_extractLsb' (m := 3) (s := 6) (n := 3) hi
      simp (disch := decide) [-Nat.reduceAdd, RvInstr.parcel, decodeParcel, extractLsb'_append_eq_of_add_le, extractLsb'_append_eq_of_le,
        extractLsb'_append_extractLsb'_eq_extractLsb', hz, hh]
    · have hz := extractLsb'_append_zero (n := 9) (extractLsb'_eq_zero_of_mod (m := 3) hm)
      have hh := zero_append_extractLsb' (m := 4) (s := 6) (n := 2) hi
      simp (disch := decide) [-Nat.reduceAdd, RvInstr.parcel, decodeParcel, extractLsb'_append_eq_of_add_le, extractLsb'_append_eq_of_le,
        extractLsb'_append_extractLsb'_eq_extractLsb', hz, hh, rvc3_extractLsb' hd, rvc3_extractLsb' hr, ne_two_of_rvcReg hr]
  | sb | sh => cases h

/-- C.SLLI, C.SRLI and C.SRAI. -/
theorem decodeParcel_shImm {op : RvShI} {rd rs1 : BitVec 5} {sh : BitVec 6} (h : (RvInstr.shImm op rd rs1 sh).hasShort = true) :
    (RvInstr.shImm op rd rs1 sh).parcel.bind decodeParcel = some (RvInstr.shImm op rd rs1 sh) := by
  cases op with
  | slli =>
    simp [RvInstr.hasShort] at h
    obtain rfl := h
    simp (disch := decide) [-Nat.reduceAdd, RvInstr.parcel, decodeParcel, extractLsb'_append_eq_of_add_le, extractLsb'_append_eq_of_le,
      extractLsb'_append_extractLsb'_eq_extractLsb']
  | srli | srai =>
    simp [RvInstr.hasShort] at h
    obtain ⟨rfl, hr⟩ := h
    simp (disch := decide) [-Nat.reduceAdd, RvInstr.parcel, decodeParcel, extractLsb'_append_eq_of_add_le, extractLsb'_append_eq_of_le,
      extractLsb'_append_extractLsb'_eq_extractLsb', rvc3_extractLsb' hr]
  | slliw | srliw | sraiw => cases h

/-- C.MV, C.ADD and the operations of two three-bit registers. -/
theorem decodeParcel_opReg {op : RvOp} {rd rs1 rs2 : BitVec 5} (h : (RvInstr.opReg op rd rs1 rs2).hasShort = true) :
    (RvInstr.opReg op rd rs1 rs2).parcel.bind decodeParcel = some (RvInstr.opReg op rd rs1 rs2) := by
  cases op with
  | add =>
    simp [RvInstr.hasShort] at h
    obtain ⟨h2, hs⟩ := h
    by_cases h0 : rs1 = 0#5
    · subst h0
      simp (disch := decide) [-Nat.reduceAdd, RvInstr.parcel, decodeParcel, extractLsb'_append_eq_of_add_le, extractLsb'_append_eq_of_le,
        h2]
    · obtain rfl := hs.resolve_right h0
      simp (disch := decide) [-Nat.reduceAdd, RvInstr.parcel, decodeParcel, extractLsb'_append_eq_of_add_le, extractLsb'_append_eq_of_le,
        h2, h0]
  | sub | xor | or | and | subw | addw =>
    simp [RvInstr.hasShort] at h
    obtain ⟨⟨rfl, hd⟩, h2⟩ := h
    simp (disch := decide) [-Nat.reduceAdd, RvInstr.parcel, decodeParcel, extractLsb'_append_eq_of_add_le, extractLsb'_append_eq_of_le,
      rvc3_extractLsb' hd, rvc3_extractLsb' h2]
  | _ => cases h

/-- C.ADDI and C.LI: an immediate of six bits. -/
theorem decodeParcel_addi_low {rd rs1 : BitVec 5} {imm : BitVec 12} (hr : rs1 = rd ∨ rs1 = 0#5)
    (hs : (imm.extractLsb' 0 6).signExtend 12 = imm) :
    (RvInstr.opImm .addi rd rs1 imm).parcel.bind decodeParcel = some (.opImm .addi rd rs1 imm) := by
  by_cases he : rs1 = rd
  · subst he
    simp (disch := decide) [-Nat.reduceAdd, RvInstr.parcel, decodeParcel, extractLsb'_append_eq_of_add_le, extractLsb'_append_eq_of_le,
      extractLsb'_append_extractLsb'_eq_extractLsb', hs]
  · obtain rfl := hr.resolve_left he
    simp (disch := decide) [-Nat.reduceAdd, RvInstr.parcel, decodeParcel, extractLsb'_append_eq_of_add_le, extractLsb'_append_eq_of_le,
      extractLsb'_append_extractLsb'_eq_extractLsb', hs, he]

/-- C.ADDI16SP, where the immediate is not one of six bits. -/
theorem decodeParcel_addi16sp {imm : BitVec 12} (hn : (imm.extractLsb' 0 6).signExtend 12 ≠ imm) (hm : 16 ∣ imm.toInt)
    (hlo : -512 ≤ imm.toInt) (hhi : imm.toInt < 512) :
    (RvInstr.opImm .addi 2 2 imm).parcel.bind decodeParcel = some (.opImm .addi 2 2 imm) := by
  have hs := signExtend_extractLsb' (k := 9) (by decide) hlo hhi
  have h4 : imm.extractLsb' 0 4 = 0#4 := extractLsb'_eq_zero_of_mod (by rw [BitVec.toInt_eq_toNat_cond] at hm; omega)
  have hz : imm.extractLsb' 0 10 ≠ 0#10 := fun e => by
    have e0 : imm = 0 := by rw [← hs, e]; rfl
    exact hn (by rw [e0]; rfl)
  simp (disch := decide) [-Nat.reduceAdd, RvInstr.parcel, decodeParcel, extractLsb'_append_eq_of_add_le, extractLsb'_append_eq_of_le,
    extractLsb'_append_extractLsb'_eq_extractLsb', hs, hn, h4, hz, extractLsb'_append_zero (n := 6) h4]

/-- C.ADDI4SPN. -/
theorem decodeParcel_addi4spn {rd : BitVec 5} {imm : BitVec 12} (hr : rvcReg rd = true) (hne : imm ≠ 0#12) (hi : imm.toNat < 1024)
    (hm : imm.toNat % 4 = 0) :
    (RvInstr.opImm .addi rd 2 imm).parcel.bind decodeParcel = some (.opImm .addi rd 2 imm) := by
  have hw : (imm.extractLsb' 0 (8 + 2)).setWidth 12 = imm := setWidth_extractLsb' hi
  have hz : imm.extractLsb' 0 (8 + 2) ≠ 0#10 := fun e => hne (by rw [← hw, e]; rfl)
  have h2 := extractLsb'_append_zero (n := 8) (extractLsb'_eq_zero_of_mod (m := 2) hm)
  have he := ne_two_of_rvcReg hr
  simp (disch := decide) [-Nat.reduceAdd, RvInstr.parcel, decodeParcel, extractLsb'_append_eq_of_add_le, extractLsb'_append_eq_of_le,
    extractLsb'_append_extractLsb'_eq_extractLsb', he, he.symm, h2, hw, hz, rvc3_extractLsb' hr]

/-- C.ADDI and its special forms, C.ADDIW, C.LI and C.ANDI. -/
theorem decodeParcel_opImm {op : RvOpI} {rd rs1 : BitVec 5} {imm : BitVec 12} (h : (RvInstr.opImm op rd rs1 imm).hasShort = true) :
    (RvInstr.opImm op rd rs1 imm).parcel.bind decodeParcel = some (RvInstr.opImm op rd rs1 imm) := by
  cases op with
  | addi =>
    by_cases hl : (rs1 = rd ∨ rs1 = 0#5) ∧ (imm.extractLsb' 0 6).signExtend 12 = imm
    · exact decodeParcel_addi_low hl.1 hl.2
    · simp [RvInstr.hasShort] at h
      rcases h with (⟨⟨hr, hlo⟩, hhi⟩ | ⟨⟨⟨⟨⟨rfl, rfl⟩, -⟩, hm⟩, hlo⟩, hhi⟩) | ⟨⟨⟨⟨rfl, hr⟩, hne⟩, hi⟩, hm⟩
      · exact absurd ⟨hr, signExtend_extractLsb' (k := 5) (by decide) hlo hhi⟩ hl
      · exact decodeParcel_addi16sp (fun e => hl ⟨.inl rfl, e⟩) hm hlo hhi
      · exact decodeParcel_addi4spn hr hne hi hm
  | addiw =>
    simp [RvInstr.hasShort] at h
    obtain ⟨⟨⟨hd, rfl⟩, hlo⟩, hhi⟩ := h
    have hs := signExtend_extractLsb' (k := 5) (by decide) hlo hhi
    simp (disch := decide) [-Nat.reduceAdd, RvInstr.parcel, decodeParcel, extractLsb'_append_eq_of_add_le, extractLsb'_append_eq_of_le,
      extractLsb'_append_extractLsb'_eq_extractLsb', hd, hs]
  | andi =>
    simp [RvInstr.hasShort] at h
    obtain ⟨⟨⟨rfl, hr⟩, hlo⟩, hhi⟩ := h
    have hs := signExtend_extractLsb' (k := 5) (by decide) hlo hhi
    simp (disch := decide) [-Nat.reduceAdd, RvInstr.parcel, decodeParcel, extractLsb'_append_eq_of_add_le, extractLsb'_append_eq_of_le,
      extractLsb'_append_extractLsb'_eq_extractLsb', hs, rvc3_extractLsb' hr]
  | slti | sltiu | xori | ori => cases h

/-- A base instruction that has a short form is what its parcel decodes to. -/
theorem decodeParcel_parcel (i : RvInstr) (h : i.hasShort = true) : i.parcel.bind decodeParcel = some i := by
  cases i with
  | lui => exact decodeParcel_lui h
  | jal => exact decodeParcel_jal h
  | jalr => exact decodeParcel_jalr h
  | branch => exact decodeParcel_branch h
  | load => exact decodeParcel_load h
  | store => exact decodeParcel_store h
  | opImm => exact decodeParcel_opImm h
  | shImm => exact decodeParcel_shImm h
  | opReg => exact decodeParcel_opReg h
  | auipc | fence | fenceI | csrRead => cases h

/-- Settles O4: words of 32 bits by `decodeCairn_cairnWord`, parcels by `decodeParcel_parcel`. -/
theorem roundTripCairn : Obligations.RoundTripCairn := by
  refine ⟨fun i w h hw => ⟨.cairn w, encode_of_cairnWord h, decodeCairn_cairnWord h hw⟩, fun i h => ?_⟩
  obtain ⟨p, hp, hd⟩ := Option.bind_eq_some_iff.1 (decodeParcel_parcel i h)
  exact ⟨.parcel p, congrArg (Option.map Code.parcel) hp, congrArg (Option.map fun r => Instr.cairnBase r true) hd⟩

end Sys2Proof.Laws
end

section
/-!
PROOFS. The RV64 base of a Cairn core: the register operations as arithmetic, and what each instruction leaves.
-/
namespace Sys2Proof.Machine

open Sys2Proof Sys2Proof.Ob

/-! ### Register operations (07 R127) -/

theorem mulhu_add_mul (a b : DWord) :
    (rvOp .mulhu a b).toNat * 2 ^ 64 + (rvOp .mul a b).toNat = a.toNat * b.toNat := by
  have h : a.toNat * b.toNat / 2 ^ 64 < 2 ^ 64 := by
    rw [Nat.div_lt_iff_lt_mul (by decide)]
    exact Nat.mul_lt_mul'' a.isLt b.isLt
  simp only [rvOp, BitVec.toNat_ofNat, BitVec.toNat_mul, Nat.mod_eq_of_lt h]
  exact Nat.div_add_mod' _ _

/-- A signed product p whose high half fits is that half over the low half. -/
theorem ofInt_high_add_low {p : Int} {x : DWord} (hx : x = BitVec.ofInt 64 p) (lo : -2 ^ 127 ≤ p) (hi : p < 2 ^ 127) :
    (BitVec.ofInt 64 (p / 2 ^ 64)).toInt * 2 ^ 64 + x.toNat = p := by
  have hh : (BitVec.ofInt 64 (p / 2 ^ 64)).toInt = p / 2 ^ 64 := by
    rw [BitVec.toInt_ofInt]
    exact Int.bmod_eq_of_le (by omega) (by omega)
  have hl : (x.toNat : Int) = p % 2 ^ 64 := by
    rw [hx, BitVec.toNat_ofInt]
    omega
  rw [hh, hl]
  omega

theorem mul_eq_ofInt (a b : DWord) : a * b = BitVec.ofInt 64 (a.toInt * b.toInt) := by
  rw [BitVec.ofInt_mul]
  simp

theorem toInt_range (a : DWord) : -2 ^ 63 ≤ a.toInt ∧ a.toInt < 2 ^ 63 := ⟨BitVec.le_toInt a, BitVec.toInt_lt⟩

theorem mulh_add_mul (a b : DWord) :
    (rvOp .mulh a b).toInt * 2 ^ 64 + (rvOp .mul a b).toNat = a.toInt * b.toInt := by
  obtain ⟨la, ha⟩ := toInt_range a
  obtain ⟨lb, hb⟩ := toInt_range b
  exact ofInt_high_add_low (mul_eq_ofInt a b) (by nlinarith) (by nlinarith)

theorem mulhsu_add_mul (a b : DWord) :
    (rvOp .mulhsu a b).toInt * 2 ^ 64 + (rvOp .mul a b).toNat = a.toInt * b.toNat := by
  obtain ⟨la, ha⟩ := toInt_range a
  have hb : (b.toNat : Int) < 2 ^ 64 := by exact_mod_cast b.isLt
  refine ofInt_high_add_low ?_ (by nlinarith) (by nlinarith)
  rw [BitVec.ofInt_mul]
  simp [rvOp]


theorem sra_toInt (a b : DWord) : (rvOp .sra a b).toInt = a.toInt / 2 ^ (b.toNat % 64) := by
  simp [rvOp, BitVec.toInt_sshiftRight, Int.shiftRight_eq_div_pow]

/-- Divisions by zero (07 R127). -/
theorem div_by_zero (a : DWord) : rvOp .div a 0 = BitVec.allOnes 64 ∧ rvOp .divu a 0 = BitVec.allOnes 64 ∧
    rvOp .rem a 0 = a ∧ rvOp .remu a 0 = a := ⟨rfl, rfl, rfl, rfl⟩

theorem divu_remu_toNat (a : DWord) {b : DWord} (h : b ≠ 0) :
    (rvOp .divu a b).toNat = a.toNat / b.toNat ∧ (rvOp .remu a b).toNat = a.toNat % b.toNat := by
  simp only [rvOp, rvDivu, rvRemu, if_neg h]
  exact ⟨BitVec.toNat_udiv, BitVec.toNat_umod⟩

theorem div_rem_toInt {a b : DWord} (h : b ≠ 0) (ho : ¬(a.toInt = -2 ^ 63 ∧ b.toInt = -1)) :
    (rvOp .div a b).toInt = a.toInt.tdiv b.toInt ∧ (rvOp .rem a b).toInt = a.toInt.tmod b.toInt := by
  have hn : a ≠ BitVec.intMin 64 ∨ b ≠ -1#64 := by
    by_contra hc
    obtain ⟨rfl, rfl⟩ : a = BitVec.intMin 64 ∧ b = -1#64 := by simpa [not_or] using hc
    exact ho (by decide)
  simp only [rvOp, rvDiv, rvRem, if_neg h]
  exact ⟨BitVec.toInt_sdiv_of_ne_or_ne a b hn, BitVec.toInt_srem a b⟩

theorem div_rem_overflow {a b : DWord} (ha : a.toInt = -2 ^ 63) (hb : b.toInt = -1) : rvOp .div a b = a ∧ rvOp .rem a b = 0 := by
  obtain rfl : a = BitVec.intMin 64 := BitVec.eq_of_toInt_eq (ha.trans (by decide))
  obtain rfl : b = -1#64 := BitVec.eq_of_toInt_eq (hb.trans (by decide))
  decide

theorem addiw_eq_addw (a b : DWord) : rvOpI .addiw a b = rvOp .addw a b :=
  congrArg (BitVec.signExtend 64) (BitVec.extractLsb'_add (by decide))

/-- Settles O49, operation by operation; the high products by `mulh_add_mul` and its kin, the divisions by `div_rem_toInt`. -/
theorem cairnArithmetic : Obligations.CairnArithmetic := by
  intro a b
  refine ⟨BitVec.toNat_add a b, ?sub, ?sll, ?srl, sra_toInt a b, ?slt, ?sltu, ?xor, ?or, ?and, mulhu_add_mul a b, mulh_add_mul a b,
    mulhsu_add_mul a b, fun h => h ▸ div_by_zero a, divu_remu_toNat a, div_rem_toInt, fun h => div_rem_overflow h.1 h.2,
    rfl, rfl, rfl, addiw_eq_addw a b⟩
  case sub => rw [← BitVec.toNat_add]; simp [rvOp]
  case sll => simp [rvOp, Nat.shiftLeft_eq]
  case srl => simp [rvOp, Nat.shiftRight_eq_div_pow]
  case slt => simp only [rvOp]; split <;> rfl
  case sltu => simp only [rvOp]; split <;> rfl
  case xor => exact fun i => BitVec.getLsbD_xor
  case or => exact fun i => BitVec.getLsbD_or
  case and => exact fun i => BitVec.getLsbD_and

end Sys2Proof.Machine
end

section
/-!
PROOFS. What an instruction of a Cairn core answers, by what its body answers; the RV64 base (07 R127 to R129); settles O48.
-/
namespace Sys2Proof.Machine

open Sys2Proof Sys2Proof.Ob

/-! ### From a body to the outcome -/

section
variable {s : State} {n : Nat} {v : Invoc} {len : Nat} {body : State → Nat → Invoc → CairnRes}

/-- A body that goes on retires at the next instruction. -/
theorem cairn_go {t : State} {w : Invoc} (h : runsCairn s n v) (hb : body s n v = .go t w) :
    cairn s len body = .next (retired s t n w (w.pc + BitVec.ofNat 64 len)) := by
  simp only [cairn, h.1, h.2, hb]
  rfl

/-- A body that transfers control retires at its target. -/
theorem cairn_jump {t : State} {w : Invoc} {pc : DWord} (h : runsCairn s n v) (hb : body s n v = .jump t w pc) :
    cairn s len body = .next (retired s t n w pc) := by
  simp only [cairn, h.1, h.2, hb]
  rfl

/-- A body that meets a cause aborts the invocation. -/
theorem cairn_abort {c : Nat} (h : runsCairn s n v) (hb : body s n v = .abort c) : cairn s len body = .next (s.abort n v c) := by
  simp only [cairn, h.1, h.2, hb]

/-- A body that ends the invocation answers the state it left. -/
theorem cairn_over {t : State} (h : runsCairn s n v) (hb : body s n v = .over t) : cairn s len body = .next t := by
  simp only [cairn, h.1, h.2, hb]

end

/-! ### The data window (07 R128) -/

theorem dataFault_eq_none {t : Slot} {off bytes : Nat} (hb : off + bytes ≤ 256 * t.dlen.toNat) (ha : off % bytes = 0) :
    t.dataFault off bytes = none := by
  rw [Slot.dataFault, if_neg (Nat.not_lt.2 hb), if_neg (not_not.2 ha)]

theorem dataFault_bound {t : Slot} {off bytes : Nat} (hb : 256 * t.dlen.toNat < off + bytes) : t.dataFault off bytes = some 4 :=
  if_pos hb

theorem dataFault_misaligned {t : Slot} {off bytes : Nat} (hb : off + bytes ≤ 256 * t.dlen.toNat) (ha : off % bytes ≠ 0) :
    t.dataFault off bytes = some 5 := by
  rw [Slot.dataFault, if_neg (Nat.not_lt.2 hb), if_pos ha]

/-! ### The base instructions -/

/-- The length of a word or a parcel, as the pc counts it. -/
theorem ofNat_length (short : Bool) : BitVec.ofNat 64 (if short then 2 else 4) = if short then 2 else 4 := by cases short <;> rfl

section
variable {s : State} {n : Nat} {v : Invoc} {i : RvInstr} {short : Bool}

theorem exec_cairnBase_go {t : State} {w : Invoc} (h : runsCairn s n v)
    (hb : rvStep i (if short then 2 else 4) s n v = .go t w) :
    exec (.cairnBase i short) s = .next (retired s t n w (w.pc + if short then 2 else 4)) :=
  (cairn_go h hb).trans (by rw [ofNat_length])

theorem exec_cairnBase_jump {t : State} {w : Invoc} {pc : DWord} (h : runsCairn s n v)
    (hb : rvStep i (if short then 2 else 4) s n v = .jump t w pc) :
    exec (.cairnBase i short) s = .next (retired s t n w pc) := cairn_jump h hb

theorem exec_cairnBase_abort {c : Nat} (h : runsCairn s n v) (hb : rvStep i (if short then 2 else 4) s n v = .abort c) :
    exec (.cairnBase i short) s = .next (s.abort n v c) := cairn_abort h hb

end

/-- A branch goes to its target or on. -/
theorem exec_branch {s : State} {n : Nat} {v : Invoc} {short : Bool} (h : runsCairn s n v) (op : RvBr) (rs1 rs2 : BitVec 5)
    (off : BitVec 13) : exec (.cairnBase (.branch op rs1 rs2 off) short) s = .next (retired s s n v
      (if rvTaken op (v.get rs1) (v.get rs2) then v.pc + off.signExtend 64 else v.pc + if short then 2 else 4)) := by
  cases ht : rvTaken op (v.get rs1) (v.get rs2) with
  | true => exact exec_cairnBase_jump h (by simp only [rvStep, ht, if_true])
  | false => exact exec_cairnBase_go h (by simp only [rvStep, ht, Bool.false_eq_true, if_false])

/-- Settles O48: each form by what `rvStep` answers, loads and stores by the check of the data window. -/
theorem cairnBase : Obligations.CairnBase := by
  intro s n v short h
  refine ⟨fun rd imm => exec_cairnBase_go h rfl, fun rd imm => exec_cairnBase_go h rfl, fun rd off => ?jal, fun rd rs1 imm => ?jalr,
    exec_branch h, fun op rd rs1 imm => exec_cairnBase_go h rfl, fun op rd rs1 sh => exec_cairnBase_go h rfl,
    fun op rd rs1 rs2 => exec_cairnBase_go h rfl, fun op rd rs1 imm => ⟨fun hb ha => ?load, fun hb => ?loadBound, fun hb ha => ?loadAlign⟩,
    fun op rs1 rs2 imm => ⟨fun hb ha => ?store, fun hb => ?storeBound, fun hb ha => ?storeAlign⟩,
    fun _ _ _ => exec_cairnBase_go h rfl, fun _ _ _ => exec_cairnBase_go h rfl, fun csr op rd => exec_cairnBase_go h rfl⟩
  case jal => exact exec_cairnBase_jump h (by rw [rvStep, ofNat_length])
  case jalr => exact exec_cairnBase_jump h (by rw [rvStep, ofNat_length])
  case load | store => exact exec_cairnBase_go h (by simp only [rvStep, dataFault_eq_none hb ha])
  case loadBound | storeBound => exact exec_cairnBase_abort h (by simp only [rvStep, dataFault_bound hb])
  case loadAlign | storeAlign => exact exec_cairnBase_abort h (by simp only [rvStep, dataFault_misaligned hb ha])

end Sys2Proof.Machine
end

section
/-!
PROOFS. The Xcairn instructions: lines (07 R131), the trigger record and the end of an invocation (R131, R135), requests and messages
(R132, R133, R141); settles O47.
-/
namespace Sys2Proof.Machine

open Sys2Proof Sys2Proof.Ob

/-! ### Whose meaning an instruction has -/

theorem exec_clnRd (rd rs1 : BitVec 5) (imm : BitVec 12) (s : State) : exec (.clnRd rd rs1 imm) s = execClnRd rd rs1 imm s := rfl
theorem exec_clnGet (rd : BitVec 5) (imm : BitVec 12) (s : State) : exec (.clnGet rd imm) s = execClnGet rd imm s := rfl
theorem exec_clnBud (rd : BitVec 5) (s : State) : exec (.clnBud rd) s = execClnBud rd s := rfl
theorem exec_clnDone (a : BitVec 12) (s : State) : exec (.clnDone a) s = execClnDone a s := rfl
theorem exec_clnKeep (rd : BitVec 5) (p : BitVec 12) (s : State) : exec (.clnKeep rd p) s = execClnKeep rd p s := rfl
theorem exec_clnWr (rs1 rs2 : BitVec 5) (imm : BitVec 12) (s : State) : exec (.clnWr rs1 rs2 imm) s = execClnWr rs1 rs2 imm s := rfl
theorem exec_clnReq (rd rs1 rs2 : BitVec 5) (s : State) : exec (.clnReq rd rs1 rs2) s = execClnReq rd rs1 rs2 s := rfl
theorem exec_clnFwd (rd rs1 rs2 : BitVec 5) (s : State) : exec (.clnFwd rd rs1 rs2) s = execClnFwd rd rs1 rs2 s := rfl
theorem exec_clnRply (rs1 : BitVec 5) (s : State) : exec (.clnRply rs1) s = execClnRply rs1 s := rfl
theorem exec_clnAtom (op : ClnAtom) (rd rs1 rs2 : BitVec 5) (s : State) : exec (.clnAtom op rd rs1 rs2) s = execClnAtom op rd rs1 rs2 s := rfl
theorem exec_clnEvq (rd rs1 rs2 : BitVec 5) (s : State) : exec (.clnEvq rd rs1 rs2) s = execClnEvq rd rs1 rs2 s := rfl
theorem exec_clnDrop (s : State) : exec .clnDrop s = execClnDrop s := rfl

/-! ### Line instructions (07 R131) -/

section
variable {s : State} {n : Nat} {v : Invoc} {o : Invoc → DWord} {act : State → Nat → Invoc → Nat → CairnRes}

/-- A line instruction comes to its access once the target line is fetched. -/
theorem lineInstr_go {s1 t : State} {v1 w : Invoc} (h : runsCairn s n v) (hk : v.trig.kind ≠ .miss) (hb : (o v).toNat ≤ 56)
    (ha : (o v).toNat % 8 = 0) (hf : s.fetchTarget v = some (s1, v1)) (hact : act s1 n v1 (v1.trig.line + (o v1).toNat) = .go t w) :
    lineInstr s o act = .next (retiredNext s t n w) := by
  refine cairn_go h ?_
  have hl : lineFault v (o v) = none := by
    rw [lineFault, if_neg hk, if_neg (by omega)]
  simp only [hl, hf, hact]

/-- Under MISS there is no line. -/
theorem lineInstr_miss (h : runsCairn s n v) (hk : v.trig.kind = .miss) : lineInstr s o act = .next (s.abort n v 6) :=
  cairn_abort h (by simp only [lineFault, if_pos hk])

/-- An offset outside the line's words aborts. -/
theorem lineInstr_offset (h : runsCairn s n v) (hk : v.trig.kind ≠ .miss) (hb : 56 < (o v).toNat ∨ (o v).toNat % 8 ≠ 0) :
    lineInstr s o act = .next (s.abort n v 7) := cairn_abort h (by simp only [lineFault, if_neg hk, if_pos hb])

end

/-- The fetch of the target line leaves the registers and the trigger. -/
theorem fetchTarget_keeps {s s1 : State} {v v1 : Invoc} (h : s.fetchTarget v = some (s1, v1)) : v1.x = v.x ∧ v1.trig = v.trig := by
  unfold State.fetchTarget at h
  split at h
  · cases h; exact ⟨rfl, rfl⟩
  · split at h
    · cases h
    · cases h; exact ⟨rfl, rfl⟩

/-- A register reads the same in invocations with the same registers. -/
theorem get_congr {v w : Invoc} (h : w.x = v.x) (r : BitVec 5) : w.get r = v.get r := by simp only [Invoc.get, h]

/-- Line instructions have their effect, or abort (07 R131). -/
theorem cairnLines : Ob.CairnLines := by
  intro i o wr f s n v hi h
  cases i with
  | clnRd rd rs1 imm =>
    cases hi
    rw [exec_clnRd]
    refine ⟨fun s1 v1 hk hb ha hf _ hs => ?_, fun hk => lineInstr_miss h hk, fun hk hb => lineInstr_offset h hk hb⟩
    refine lineInstr_go h hk hb ha hf ?_
    simp only [get_congr (fetchTarget_keeps hf).1, dieOfSlice, hs rfl, Bool.not_true, Bool.false_eq_true, if_false]
  | clnWr rs1 rs2 imm =>
    cases hi
    rw [exec_clnWr]
    refine ⟨fun s1 v1 hk hb ha hf hw _ => ?_, fun hk => lineInstr_miss h hk, fun hk hb => lineInstr_offset h hk hb⟩
    refine lineInstr_go h hk hb ha hf ?_
    simp only [get_congr (fetchTarget_keeps hf).1, hw rfl, Bool.not_true, Bool.false_eq_true, if_false]
  | clnAtom op rd rs1 rs2 =>
    cases hi
    rw [exec_clnAtom]
    refine ⟨fun s1 v1 hk hb ha hf hw _ => ?_, fun hk => lineInstr_miss h hk, fun hk hb => lineInstr_offset h hk hb⟩
    refine lineInstr_go h hk hb ha hf ?_
    simp only [get_congr (fetchTarget_keeps hf).1, dieOfSlice, hw rfl, Bool.not_true, Bool.false_eq_true, if_false]
  | _ => cases hi

/-! ### The trigger record, the end of the invocation (07 R131, R135) -/

/-- cln.keep: a priority out of range, a MSG, a change staged, a slice with its share of kept lines. -/
theorem clnKeep_cases {s : State} {n : Nat} {v : Invoc} (h : runsCairn s n v) (rd : BitVec 5) (p : BitVec 12) :
    (3 < p.toNat → exec (.clnKeep rd p) s = .next (s.abort n v 12)) ∧
    (p.toNat ≤ 3 → v.trig.kind = .msg → exec (.clnKeep rd p) s = .next (retiredNext s s n (v.set rd 0))) ∧
    (p.toNat ≤ 3 → v.trig.kind ≠ .msg → (p = 0 ∨ s.keptLines n v.trig.vf v.trig.line < 8192) →
      exec (.clnKeep rd p) s = .next (retiredNext s s n { v.set rd 0 with keep := some (p.extractLsb' 0 2) })) ∧
    (p.toNat ≤ 3 → v.trig.kind ≠ .msg → p ≠ 0 → 8192 ≤ s.keptLines n v.trig.vf v.trig.line →
      exec (.clnKeep rd p) s = .next (retiredNext s s n (v.set rd 1))) := by
  rw [exec_clnKeep]
  refine ⟨fun hp => cairn_abort h (if_pos hp), fun hp hk => cairn_go h ?_, fun hp hk hc => cairn_go h ?_,
    fun hp hk h0 hc => cairn_go h ?_⟩
  · rw [if_neg (Nat.not_lt.2 hp), if_pos hk]
  · have hn : ¬(p ≠ 0 ∧ keepCap ≤ s.keptLines n v.trig.vf v.trig.line) := fun ⟨h0, hl⟩ =>
      hc.elim h0 fun hlt => absurd hl (Nat.not_le.2 hlt)
    rw [if_neg (Nat.not_lt.2 hp), if_neg hk, if_neg hn]
  · rw [if_neg (Nat.not_lt.2 hp), if_neg hk, if_pos ⟨h0, hc⟩]

/-- The trigger's fields, the budget, the staged changes and the end of an invocation (07 R131, R135, Table 7-6). -/
theorem cairnInvocation : Ob.CairnInvocation := by
  intro s n v h
  simp only [exec_clnGet, exec_clnBud, exec_clnDone, exec_clnDrop]
  refine ⟨fun rd imm hi => cairn_go h (if_neg (Nat.not_le.2 hi)), fun rd imm hi => cairn_abort h (if_pos hi),
    fun rd => cairn_go h rfl, cairn_over h rfl, cairn_over h rfl, fun a ha => cairn_abort h ?doneCode,
    fun rd p => (clnKeep_cases h rd p).1, fun rd p => (clnKeep_cases h rd p).2.1, fun rd p => (clnKeep_cases h rd p).2.2.1,
    fun rd p => (clnKeep_cases h rd p).2.2.2, fun hk => cairn_go h ?drop, fun hk => cairn_go h ?dropMsg⟩
  case doneCode =>
    obtain ⟨k, hk⟩ := Nat.exists_eq_add_of_le ha
    rw [hk, Nat.add_comm]
    rfl
  case drop => rw [if_neg hk]
  case dropMsg => rw [if_pos hk]

/-! ### Requests, messages and records (07 R132, R133, R141) -/

/-- A part of a window's bytes is the window of that part. -/
theorem window_part (s : State) (n : Nat) (t : Slot) (off : Nat) {bytes k m : Nat} (h : k + m ≤ bytes) :
    ((s.window n t off bytes).drop k).take m = s.window n t (off + k) m := by
  apply List.ext_getElem
  · simp only [State.window, List.length_take, List.length_drop, List.length_map, List.length_range]
    omega
  · intro i h1 h2
    simp only [State.window, List.getElem_take, List.getElem_drop, List.getElem_map, List.getElem_range, Nat.add_assoc]

/-- The four words of a message, read from the data window one by one. -/
theorem window_words (s : State) (n : Nat) (t : Slot) (off : Nat) :
    ((List.range 4).map fun j => BitVec.ofNat 64 (fieldOf (s.window n t off 32) (8 * j) 8)) =
      (List.range 4).map fun j => (BitVec.ofNat 64 (leVal (s.window n t (off + 8 * j) 8)) : DWord) := by
  refine List.map_congr_left fun j hj => ?_
  have := List.mem_range.1 hj
  rw [fieldOf, window_part _ _ _ _ (by omega)]

/-- Requests, messages, replies and records (07 R132, R133, R141). -/
theorem cairnRequests : Ob.CairnRequests := by
  intro s n v h
  simp only [exec_clnReq, exec_clnFwd, exec_clnRply, exec_clnEvq]
  refine ⟨fun rd rs1 rs2 hf => cairn_abort h (if_pos hf), fun rd rs1 rs2 hf => ⟨fun hx => cairn_go h ?reqNoXlate, fun x hx =>
    ⟨fun hl => cairn_go h ?reqThere, fun hl hq => cairn_go h ?reqFull, fun hl hq ht => cairn_go h ?req⟩⟩,
    fun rd rs1 rs2 x hb ha hx ht hq => cairn_go h ?fwd,
    fun rd rs1 rs2 => ⟨fun hb => cairn_abort h (if_pos hb), fun hb ha => cairn_abort h ?fwdAlign, fun hb ha hx => cairn_go h ?fwdNoXlate⟩,
    fun rs1 hk hr hf hb ha => cairn_go h ?rply, fun rs1 hn => cairn_abort h (if_pos ?rplyNone),
    fun rd rs1 rs2 => ⟨fun he => cairn_go h (if_pos he), fun s1 he hb hp hw ha => cairn_go h ?evq⟩⟩
  case reqNoXlate => simp only [hf, hx, ne_eq, not_true_eq_false, if_false]
  case reqThere => simp only [hf, hx, hl, ne_eq, not_true_eq_false, if_false, if_true]
  case reqFull => simp only [hf, hx, hl, hq, ne_eq, not_true_eq_false, Bool.false_eq_true, if_false, if_true]
  case req =>
    simp only [hf, hx, hl, Nat.not_le.2 hq, ht, ne_eq, not_true_eq_false, Bool.false_eq_true, Bool.not_true, if_false]
  case fwd =>
    simp only [Nat.not_lt.2 hb, ha, hx, ht, window_words, ne_eq, not_true_eq_false, Bool.not_true, Bool.false_eq_true, if_false]
    rw [if_pos hq]
  case fwdAlign => rw [if_neg (Nat.not_lt.2 hb), if_pos ha]
  case fwdNoXlate => simp only [Nat.not_lt.2 hb, ha, hx, ne_eq, not_true_eq_false, if_false]
  case rply =>
    simp only [hk, hr, hf, Nat.not_lt.2 hb, ha, ne_eq, not_true_eq_false, Bool.false_eq_true, or_self, if_false]
  case rplyNone => exact hn
  case evq =>
    have hp' : s.posts.any (Post.isFor v.trig.vf) = false := hp
    simp only [Nat.not_le.2 he, hb, hp', hw, ha, Bool.or_self, Bool.false_eq_true, if_false]

/-- Settles O47: lines by `cairnLines`, the invocation by `cairnInvocation`, requests and messages by `cairnRequests`. -/
theorem xcairn : Obligations.Xcairn := ⟨cairnLines, cairnInvocation, cairnRequests⟩

end Sys2Proof.Machine
end

section
/-!
PROOFS. The steps of an L2 slice that serves triggers (07 R132, R133, R136, R139, R140, R143); settles O19 and O53.
-/
namespace Sys2Proof.Machine

open Sys2Proof Sys2Proof.Ob

/-! ### HANDLER_INVOCATION (07 R136) -/

/-- The invocation that a trigger starts in a slot: x1 to x31 zero, the PC at the entry (07 R129). -/
def entered (s : State) (i : Nat) (t : Trigger) (desc : List Byte) (e : Nat) : Invoc :=
  { slot := i, trig := t, arg := BitVec.ofNat 64 (fieldOf desc 0x18 8), budget := budgetOf (fieldOf desc 0x10 2), start := s.fab,
    instret := 0, pc := BitVec.ofNat 64 e, x := [], keep := none, drop := false, evqs := 0, replied := false, forwarded := false,
    fetched := false }

/-- Registers of an invocation just entered hold zero (07 R129). -/
theorem get_entered (s : State) (i : Nat) (t : Trigger) (desc : List Byte) (e : Nat) (r : BitVec 5) : (entered s i t desc e).get r = 0 := by
  unfold Invoc.get
  split <;> rfl

/-- Waves that may go on leave the fabric clock. -/
theorem fab_unstall (s : State) : s.unstall.fab = s.fab := by
  unfold State.unstall
  split <;> rfl

/-- A pinned line leaves the slices. -/
@[simp] theorem slice_pin (s : State) (line : Nat) (b : Bool) (n : Nat) : (s.pin line b).slice n = s.slice n := rfl

section
variable {s s1 : State} {n : Nat} {t : Trigger} {r : List Trigger} (hi : (s.slice n).inv = none) (hq : (s.slice n).queue = t :: r)
  (h1 : (s.setSlice n { s.slice n with queue := r }).unstall = s1)
include hi hq h1

/-- A message that has lost its page is answered with status 5. -/
theorem invoke_lost (hl : s1.trigLost n t = true) : s.invoke n = some (s1.replyTo t.token 5 n []) := by
  simp only [hi] at h1
  simp only [State.invoke, hi, hq, h1, hl, if_true]

/-- A trigger of set 0 has no handler. -/
theorem invoke_unset (hl : s1.trigLost n t = false) (h0 : t.set = 0) : s.invoke n = some (s1.trigAbsent n t) := by
  simp only [hi] at h1
  simp only [State.invoke, hi, hq, h1, hl, h0, Bool.false_eq_true, if_false, if_true]

section
variable {i : Nat} {k : Slot} (hl : s1.trigLost n t = false) (h0 : t.set ≠ 0) (hs : (s.slice n).slotOf t.vf = some i)
  (hk : (s.slice n).slots[i]? = some k)
include hl h0 hs hk

/-- A trigger whose slot has used its share takes its default action. -/
theorem invoke_unshared (hu : shareUsed s1 n i k) : s.invoke n = some (s1.trigUnshared n i t) := by
  have hc : Slot.cap k ≤ s1.slotUsed n i := hu
  simp only [hi] at h1
  simp only [State.invoke, hi, hq, h1, hl, h0, hs, hk, hc, Bool.false_eq_true, if_false, if_true]

/-- A trigger with a handler enters it. -/
theorem invoke_entered {desc : List Byte} {e : Nat} (hu : ¬shareUsed s1 n i k) (hd : s1.setDesc n t.vf t.set = some desc)
    (he : entryOf desc t.kind = some e) : ∃ u, s.invoke n = some u ∧ (u.slice n).inv = some (entered s1 i t desc e) := by
  have hc : ¬Slot.cap k ≤ s1.slotUsed n i := hu
  simp only [hi] at h1
  simp only [State.invoke, hi, hq, h1, hl, h0, hs, hk, hc, hd, he, Bool.false_eq_true, if_false, Option.some.injEq, exists_eq_left']
  split
  · rw [slice_pin, slice_setSlice]; rfl
  · rw [slice_setSlice]; rfl

end
end

/-! ### Budgets, shares, windows (07 R139, R140) -/

/-- An invocation is aborted once it has reached its budget, and not before. -/
theorem cairnBudgetExpiry_cases {s : State} {n : Nat} {v : Invoc} (hv : (s.slice n).inv = some v) :
    (v.budget ≤ s.fab - v.start → exec (.cairnBudgetExpiry n) s = .next (s.abort n v 0)) ∧
    (s.fab - v.start < v.budget → exec (.cairnBudgetExpiry n) s = .next s) := by
  have he : exec (.cairnBudgetExpiry n) s = execCairnBudgetExpiry n s := rfl
  simp only [he, execCairnBudgetExpiry, hv]
  exact ⟨fun h => happens_some (if_pos h), fun h => happens_none (if_neg (Nat.not_le.2 h))⟩

/-- The invocation of a slot that has used its share is aborted. -/
theorem shareOut_used {s : State} {n : Nat} {v : Invoc} {k : Slot} (hv : (s.slice n).inv = some v)
    (hk : (s.slice n).slots[v.slot]? = some k) (hu : shareUsed s n v.slot k) :
    s.shareOut n v.slot = some ((s.setSlice n { s.slice n with
      slots := setAt (s.slice n).slots v.slot { k with spent := true } }).abort n v 1) := by
  have hc : v.slot = v.slot ∧ Slot.cap k ≤ s.slotUsed n v.slot := ⟨rfl, hu⟩
  unfold State.shareOut
  simp only [hv, hk, hc, and_self, if_true]

/-- A window begins when it is due (07 R140). -/
theorem cairnShareWindow_cases (s : State) :
    (65536 * (s.windows + 1) ≤ s.fab → exec .cairnShareWindow s = .next s.shareWindow) ∧
    (s.fab < 65536 * (s.windows + 1) → exec .cairnShareWindow s = .next s) :=
  ⟨fun h => happens_some (if_pos (decide_eq_true h)), fun h => happens_none (if_neg (by simpa [State.windowDue] using h))⟩

/-! ### Requests and slots (07 R132, R143) -/

/-- A requested line is installed unless it is there (07 R132). -/
theorem requestFill_cases {s : State} {n i : Nat} {r : CairnReq} (hr : (s.slice n).reqs[i]? = some r) (hm : s.memHeld r.line = false) :
    let s1 := s.setSlice n { s.slice n with reqs := dropAt (s.slice n).reqs i }
    ((s1.lineDir r.line).present = false →
      s.requestFill n i = some (s1.install r.line r.va r.vf r.set (r.hops + 1) 3 (r.chain && decide (r.hops < 15)))) ∧
    ((s1.lineDir r.line).present = true → s.requestFill n i = some s1) := by
  unfold State.requestFill
  simp only [hr, hm, Bool.false_eq_true, if_false]
  exact ⟨fun h => if_neg (by rw [h]; decide), fun h => if_pos h⟩

/-- What comes to a slot (07 R143). -/
theorem slotEvent_cases {s : State} {n i : Nat} {k : Slot} (hk : (s.slice n).slots[i]? = some k) :
    (∀ code : List Byte, s.slotEvent n i (.load code) = some (s.setSlice n { s.slice n with
      code := (code.take (256 * k.clen.toNat)).zipIdx.foldl (fun m p => put 0 m (256 * k.cbase.toNat + p.2) p.1) (s.slice n).code
      slots := setAt (s.slice n).slots i { k with dead := false } })) ∧
    ((s.slice n).inv = none → s.slotEvent n i .uncorrectable =
      some (s.setSlice n { s.slice n with slots := setAt (s.slice n).slots i { k with dead := true } })) ∧
    (∀ v, (s.slice n).inv = some v → v.slot = i → s.slotEvent n i .differ = some (s.abort n v 9)) := by
  refine ⟨fun code => ?_, fun hi => ?_, fun v hv hs => ?_⟩
  · simp only [State.slotEvent, hk]
  · simp only [State.slotEvent, State.lockstep, hi, hk, Option.map_some]
  · simp only [State.slotEvent, State.lockstep, hv, hs, Option.elim_some, beq_self_eq_true, if_true]

/-- Settles O19: the registers of an invocation just entered are zero (`get_entered`). -/
theorem handlerEntry : Obligations.HandlerEntry := by
  intro s n t r i k desc e hi hq h0 hs hk s1 hu hl hd he
  obtain ⟨u, h, hv⟩ := invoke_entered hi hq rfl hl h0 hs hk hu hd he
  exact ⟨u, _, happens_some h, hv, rfl, get_entered s1 i t desc e⟩

/-- Settles O53: triggers by what `State.invoke` answers, the other steps by their cases. -/
theorem cairnSteps : Obligations.CairnSteps := by
  intro s n
  refine ⟨fun t r hi hq => ⟨fun hm h3 hx => ?lost, fun h0 hl => happens_some (invoke_unset hi hq rfl hl h0), fun i k h0 hl hs hk =>
    ⟨fun hu => happens_some (invoke_unshared hi hq rfl hl h0 hs hk hu), fun desc e hu hd he => ?entry⟩⟩,
    fun v hv => ⟨(cairnBudgetExpiry_cases hv).1, (cairnBudgetExpiry_cases hv).2, fun k hk hu => happens_some (shareOut_used hv hk hu)⟩,
    (cairnShareWindow_cases s).1, (cairnShareWindow_cases s).2,
    fun i r hr hm => ⟨fun h => happens_some ((requestFill_cases hr hm).1 h), fun h => happens_some ((requestFill_cases hr hm).2 h)⟩,
    fun i k hk => ⟨fun code => happens_some ((slotEvent_cases hk).1 code), fun h => happens_some ((slotEvent_cases hk).2.1 h),
      fun v hv hs => happens_some ((slotEvent_cases hk).2.2 v hv hs)⟩⟩
  case lost =>
    refine happens_some (invoke_lost hi hq rfl ?_)
    simp only [State.trigLost, hm, h3, hx, beq_self_eq_true, Option.isNone_none, Bool.and_self]
  case entry =>
    obtain ⟨u, h, hv⟩ := invoke_entered hi hq rfl hl h0 hs hk hu hd he
    exact ⟨u, happens_some h, _, hv, rfl, rfl, rfl, rfl, fab_unstall _⟩

end Sys2Proof.Machine
end

section
/-!
PROOFS. The decoder's pieces: slices of words, codes and the values they stand for, and the checks of 08 Table 8-3 read as equivalences.
-/
namespace Sys2Proof.Laws

open Sys2Proof

/-! ### Slices of concatenations -/

/-- A slice within the lower part of a concatenation. -/
@[simp] theorem slice_append_low {w v s n : Nat} (x : BitVec w) (y : BitVec v) (h : s + n ≤ v) :
    (HAppend.hAppend (γ := BitVec (no_index (w + v))) x y).extractLsb' s n = y.extractLsb' s n :=
  BitVec.extractLsb'_append_eq_of_add_le h

/-- A slice within the upper part of a concatenation. -/
@[simp] theorem slice_append_high {w v s n : Nat} (x : BitVec w) (y : BitVec v) (h : v ≤ s) :
    (HAppend.hAppend (γ := BitVec (no_index (w + v))) x y).extractLsb' s n = x.extractLsb' (s - v) n :=
  BitVec.extractLsb'_append_eq_of_le h

@[simp] theorem bit_append_low {w v i : Nat} (x : BitVec w) (y : BitVec v) (h : i < no_index (w + v)) (hi : i < v) :
    (HAppend.hAppend (γ := BitVec (no_index (w + v))) x y)[i]'h = y[i] := by
  rw [BitVec.getElem_append, dif_pos hi]

@[simp] theorem bit_append_high {w v i : Nat} (x : BitVec w) (y : BitVec v) (h : i < no_index (w + v)) (hi : v ≤ i) :
    (HAppend.hAppend (γ := BitVec (no_index (w + v))) x y)[i]'h = x[i - v]'(by have h : i < w + v := h; omega) := by
  rw [BitVec.getElem_append, dif_neg (Nat.not_lt.2 hi)]

/-- A slice of one bit. -/
@[simp] theorem slice_one {w i : Nat} {x : BitVec w} (h : i < w) : x.extractLsb' i 1 = BitVec.ofBool x[i] := by
  ext j hj
  obtain rfl : j = 0 := by omega
  simp [h]

/-- A slice of a slice. -/
@[simp] theorem slice_slice {w s l t k : Nat} {x : BitVec w} (h : t + k ≤ l) :
    (x.extractLsb' s l).extractLsb' t k = x.extractLsb' (s + t) k := by
  ext j hj
  rw [BitVec.getElem_extractLsb', BitVec.getElem_extractLsb', BitVec.getLsbD_extractLsb', decide_eq_true (by omega), Bool.true_and,
    Nat.add_assoc]

/-- A slice cut in two. -/
theorem slice_split {w : Nat} (x : BitVec w) (s l k : Nat) : x.extractLsb' s (k + l) = x.extractLsb' (s + l) k ++ x.extractLsb' s l :=
  (BitVec.extractLsb'_append_extractLsb'_eq_extractLsb' rfl).symm

/-- A value is a concatenation when its slices are the parts. -/
theorem append_eq_iff {n w : Nat} {a : BitVec n} {b : BitVec w} {x : BitVec (n + w)} :
    @Eq (BitVec (no_index (n + w))) (HAppend.hAppend (γ := BitVec (no_index (n + w))) a b) x ↔
      a = x.extractLsb' w n ∧ b = x.extractLsb' 0 w := by
  constructor
  · rintro rfl
    exact ⟨BitVec.extractLsb'_append_eq_left.symm, BitVec.extractLsb'_append_eq_right.symm⟩
  · rintro ⟨rfl, rfl⟩
    rw [BitVec.extractLsb'_append_extractLsb'_eq_extractLsb' (Nat.zero_add w).symm, BitVec.extractLsb'_eq_self]

theorem zero_append_inj {n w : Nat} {x y : BitVec w} : 0#n ++ x = 0#n ++ y ↔ x = y := by
  constructor
  · intro h
    simpa [BitVec.extractLsb'_append_eq_right] using congrArg (·.extractLsb' 0 w) h
  · rintro rfl
    rfl

/-- Form A's four sub-fields determine it, and it them (09 Table 9-5). -/
theorem formA_inj {xf xf' : BitVec 5} {sat sat' : Bool} {rm rm' : BitVec 3} {ty ty' : BitVec 4} :
    formA xf sat rm ty = formA xf' sat' rm' ty' ↔ xf = xf' ∧ sat = sat' ∧ rm = rm' ∧ ty = ty' := by
  constructor
  · intro h
    exact ⟨by simpa using congrArg (·.extractLsb' 8 5) h, by simpa using congrArg (·.getLsbD 7) h,
      by simpa using congrArg (·.extractLsb' 4 3) h, by simpa using congrArg (·.extractLsb' 0 4) h⟩
  · rintro ⟨rfl, rfl, rfl, rfl⟩
    rfl

/-! ### Codes -/

/-- A descriptor field is the code of the operand that it names (02 R33). -/
@[simp] theorem code_desc_ofCode (c : BitVec 9) : (Desc.ofCode c).code = c := by revert c; decide +kernel

@[simp] theorem iTy_ofCode_eq_some {c x} : ITy.ofCode c = some x ↔ c = x.code := by cases x <;> revert c <;> decide
@[simp] theorem fTy_ofCode_eq_some {c x} : FTy.ofCode c = some x ↔ c = x.code := by cases x <;> revert c <;> decide
@[simp] theorem mTy_ofCode_eq_some {c x} : MTy.ofCode c = some x ↔ c = x.code := by cases x <;> revert c <;> decide
@[simp] theorem rM_ofCode_eq_some {c x} : RM.ofCode c = some x ↔ c = x.code := by cases x <;> revert c <;> decide
@[simp] theorem cond_ofCode_eq_some {c x} : Cond.ofCode c = some x ↔ c = x.code := by cases x <;> revert c <;> decide
@[simp] theorem combine_ofCode_eq_some {c x} : Combine.ofCode c = some x ↔ c = x.code := by cases x <;> revert c <;> decide
@[simp] theorem shKind_ofCode_eq_some {c x} : ShKind.ofCode c = some x ↔ c = x.code := by cases x <;> revert c <;> decide
@[simp] theorem cntOp_ofCode_eq_some {c x} : CntOp.ofCode c = some x ↔ c = x.code := by cases x <;> revert c <;> decide
@[simp] theorem scanOp_ofCode_eq_some {c x} : ScanOp.ofCode c = some x ↔ c = x.code := by cases x <;> revert c <;> decide
@[simp] theorem redOp_ofCode_eq_some {c x} : RedOp.ofCode c = some x ↔ c = x.code := by cases x <;> revert c <;> decide
@[simp] theorem sgnOp_ofCode_eq_some {c x} : SgnOp.ofCode c = some x ↔ c = x.code := by cases x <;> revert c <;> decide
@[simp] theorem fCode_ofCode_eq_some {c x} : FCode.ofCode c = some x ↔ c = x.code := by cases x <;> revert c <;> decide
@[simp] theorem qFmt_ofCode_eq_some {c x} : QFmt.ofCode c = some x ↔ c = x.code := by cases x <;> revert c <;> decide
@[simp] theorem aOp_ofCode_eq_some {c x} : AOp.ofCode c = some x ↔ c = x.code := by cases x <;> revert c <;> decide
@[simp] theorem scope_ofCode_eq_some {c x} : Scope.ofCode c = some x ↔ c = x.code := by cases x <;> revert c <;> decide
@[simp] theorem sgScope_ofCode_eq_some {c x} : SgScope.ofCode c = some x ↔ c = x.code := by cases x <;> revert c <;> decide
@[simp] theorem ctr_ofCode_eq_some {c x} : Ctr.ofCode c = some x ↔ c = x.code := by cases x <;> revert c <;> decide
@[simp] theorem wvSpace_ofCode_eq_some {c x} : WvSpace.ofCode c = some x ↔ c = x.code := by cases x <;> revert c <;> decide
@[simp] theorem ccOp_ofCode_eq_some {c x} : CcOp.ofCode c = some x ↔ c = x.code := by cases x <;> revert c <;> decide
@[simp] theorem mCls_ofCode_eq_some {c x} : MCls.ofCode c = some x ↔ c = x.code := by cases x <;> revert c <;> decide
@[simp] theorem gCntKind_ofCode_eq_some {c x} : GCntKind.ofCode c = some x ↔ c = x.code := by cases x <;> revert c <;> decide
@[simp] theorem cpSpace_ofCode_eq_some {c x} : CpSpace.ofCode c = some x ↔ c = x.code := by cases x <;> revert c <;> decide
@[simp] theorem cpConv_ofCode_eq_some {c x} : CpConv.ofCode c = some x ↔ c = x.code := by cases x <;> revert c <;> decide
@[simp] theorem collOp_ofCode_eq_some {c x} : CollOp.ofCode c = some x ↔ c = x.code := by cases x <;> revert c <;> decide
@[simp] theorem prSpace_ofCode_eq_some {c x} : PrSpace.ofCode c = some x ↔ c = x.code := by cases x <;> revert c <;> decide
@[simp] theorem prKind_ofCode_eq_some {c x} : PrKind.ofCode c = some x ↔ c = x.code := by cases x <;> revert c <;> decide
@[simp] theorem clnAtom_ofCode_eq_some {c x} : ClnAtom.ofCode c = some x ↔ c = x.code := by cases x <;> revert c <;> decide
@[simp] theorem rvBr_ofCode_eq_some {c x} : RvBr.ofCode c = some x ↔ c = x.code := by cases x <;> revert c <;> decide
@[simp] theorem rvLd_ofCode_eq_some {c x} : RvLd.ofCode c = some x ↔ c = x.code := by cases x <;> revert c <;> decide
@[simp] theorem rvSt_ofCode_eq_some {c x} : RvSt.ofCode c = some x ↔ c = x.code := by cases x <;> revert c <;> decide

@[simp] theorem code_brCond_ofCode (c : BitVec 2) : (BrCond.ofCode c).code = c := by revert c; decide
@[simp] theorem code_voteOp_ofCode (c : BitVec 2) : (VoteOp.ofCode c).code = c := by revert c; decide
@[simp] theorem code_shflMode_ofCode (c : BitVec 2) : (ShflMode.ofCode c).code = c := by revert c; decide
@[simp] theorem code_fCond_ofCode (c : BitVec 3) : (FCond.ofCode c).code = c := by revert c; decide
@[simp] theorem code_collTy_ofCode (c : BitVec 2) : (CollTy.ofCode c).code = c := by revert c; decide

/-- CVTF under DIR 1 has a narrow format (12 R228). -/
theorem cvtDir_ofCode_eq_some {x : BitVec 5} {d : CvtDir} :
    CvtDir.ofCode x = some d ↔ x = d.code ∧ ∀ f, d = .fromCode f → f.narrow = true := by
  rcases d with f | f <;> cases f <;> simp <;> revert x <;> decide

/-- CVTI's integer type has two bits in XF (12 Table 12-1). -/
@[simp] theorem iTy_ofCode_low (x : ITy) : ITy.ofCode (0#2 ++ x.code.extractLsb' 0 2) = some x := by cases x <;> rfl

/-- FSRN's and FPACK's format has three bits in XF (12 R230, R236). -/
@[simp] theorem fCode_ofCode_low (x : FCode) : FCode.ofCode (0#1 ++ x.code.extractLsb' 0 3) = some x := by cases x <;> rfl

theorem desc_code_eq_zero {d : Desc} : d.code = 0#9 ↔ d = .v 0 := by
  constructor
  · intro h
    rw [← desc_code d, h]
    decide
  · rintro rfl
    rfl

/-- An unused descriptor field holds 0 (08 R152). -/
@[simp] theorem unused_iff {d : Desc} : d.unused = true ↔ d.code = 0#9 := by simp [Desc.unused, desc_code_eq_zero]

/-! ### Codes of MOD 0 (08 R153) -/

@[simp] theorem zero_eq_shKind_code {x : ShKind} : 0#5 = x.code ↔ x = .shl := by cases x <;> decide
@[simp] theorem zero_eq_cond_code {x : Cond} : 0#3 = x.code ↔ x = .eq := by cases x <;> decide
@[simp] theorem zero_eq_combine_code {x : Combine} : 0#2 = x.code ↔ x = .set := by cases x <;> decide
@[simp] theorem zero_eq_sgnOp_code {x : SgnOp} : 0#5 = x.code ↔ x = .copy := by cases x <;> decide
@[simp] theorem zero_eq_iTy_code {x : ITy} : 0#4 = x.code ↔ x = .s32 := by cases x <;> decide
@[simp] theorem zero_eq_fTy_code {x : FTy} : 0#4 = x.code ↔ x = .f := by cases x <;> decide
@[simp] theorem zero_eq_rM_code {x : RM} : 0#3 = x.code ↔ x = .rn := by cases x <;> decide
@[simp] theorem zero_eq_mTy_code {x : MTy} : 0#4 = x.code ↔ x = .s32 := by cases x <;> decide
@[simp] theorem zero_eq_aOp_code {x : AOp} : 0#4 = x.code ↔ x = .add := by cases x <;> decide
@[simp] theorem zero_eq_wvSpace_code {x : WvSpace} : 0#3 = x.code ↔ x = .sc := by cases x <;> decide
@[simp] theorem zero_eq_ccOp_code {x : CcOp} : 0#2 = x.code ↔ x = .wb := by cases x <;> decide
@[simp] theorem zero_eq_cpSpace_code {x : CpSpace} : 0#3 = x.code ↔ x = .sc := by cases x <;> decide
@[simp] theorem zero_eq_cpConv_code {x : CpConv} : 0#4 = x.code ↔ x = .none := by cases x <;> decide
@[simp] theorem iTy_code_eq_zero {x : ITy} : x.code = 0#4 ↔ x = .s32 := by cases x <;> decide
@[simp] theorem fTy_code_eq_zero {x : FTy} : x.code = 0#4 ↔ x = .f := by cases x <;> decide
@[simp] theorem rM_code_eq_zero {x : RM} : x.code = 0#3 ↔ x = .rn := by cases x <;> decide
@[simp] theorem brCond_ofCode_zero : BrCond.ofCode 0#2 = .nz := rfl
@[simp] theorem shflMode_ofCode_zero : ShflMode.ofCode 0#2 = .idx := rfl
@[simp] theorem fCond_ofCode_zero : FCond.ofCode 0#3 = .eq := rfl

/-! ### When a check of the decoder accepts (08 Table 8-3) -/

@[simp] theorem req_eq_ok {b : Bool} {k : Dec} {i : Instr} : req b k = .ok i ↔ b = true ∧ k = .ok i := by
  cases b <;> simp [req]

@[simp] theorem sub_eq_ok {α : Type} {o : Option α} {k : α → Dec} {i : Instr} : sub o k = .ok i ↔ ∃ a, o = some a ∧ k a = .ok i := by
  cases o <;> simp [sub]

@[simp] theorem noLit_eq_ok {v : View} {k : Dec} {i : Instr} : v.noLit k = .ok i ↔ v.lit = none ∧ k = .ok i := by
  unfold View.noLit
  cases v.lit with
  | none => simp
  | some w => rcases k with (_ | _) | _ <;> simp

/-- A field whose upper bits must be zero holds a value of its lower bits (14 R263). -/
theorem req_low_eq_ok {n w : Nat} {x : BitVec (n + w)} {k : BitVec w → Dec} {i : Instr} :
    req (x.extractLsb' w n == 0) (k (x.extractLsb' 0 w)) = .ok i ↔ ∃ y, x = 0#n ++ y ∧ k y = .ok i := by
  rw [req_eq_ok, beq_iff_eq]
  constructor
  · rintro ⟨hx, hk⟩
    exact ⟨_, (append_eq_iff.2 ⟨hx.symm, rfl⟩).symm, hk⟩
  · rintro ⟨y, rfl, hk⟩
    rw [BitVec.extractLsb'_append_eq_left, BitVec.extractLsb'_append_eq_right]
    exact ⟨rfl, hk⟩

@[simp] theorem greg_eq_ok {x : BitVec 9} {k : BitVec 5 → Dec} {i : Instr} : View.greg x k = .ok i ↔ ∃ g, x = gfld g ∧ k g = .ok i :=
  req_low_eq_ok (n := 4)

@[simp] theorem page_eq_ok {x : BitVec 9} {k : BitVec 6 → Dec} {i : Instr} : View.page x k = .ok i ↔ ∃ p, x = pfld p ∧ k p = .ok i :=
  req_low_eq_ok (n := 3)

@[simp] theorem pred_eq_ok {x : BitVec 9} {k : BitVec 3 → Dec} {i : Instr} : View.pred x k = .ok i ↔ ∃ p, x = prfld p ∧ k p = .ok i :=
  req_low_eq_ok (n := 6)

@[simp] theorem gfld_inj {x y : BitVec 5} : gfld x = gfld y ↔ x = y := zero_append_inj

@[simp] theorem pfld_inj {x y : BitVec 6} : pfld x = pfld y ↔ x = y := zero_append_inj

@[simp] theorem prfld_inj {x y : BitVec 3} : prfld x = prfld y ↔ x = y := zero_append_inj

/-- BARW's convoy barriers are 0 to 7 (13 Table 13-6). -/
theorem bit_three_eq_false {x : BitVec 4} : x[3] = false ↔ x.toNat < 8 := by revert x; decide

/-- VADDR's shift is at most 4 (11 Table 11-7). -/
theorem toNat_le_four {x : BitVec 5} : x.toNat ≤ 4 ↔ x.extractLsb' 3 2 = 0#2 ∧ (x.extractLsb' 0 3).toNat ≤ 4 := by
  revert x; decide

end Sys2Proof.Laws
end

section
/-!
PROOFS. Every well-formed Kalgil instruction comes back from its word: what the decoder reads of an encoder's fields (08 Table 8-2, R153);
settles O1, O2 and O3.
-/
namespace Sys2Proof.Laws

open Sys2Proof Sys2Proof.Ob

/-! ### The view of an encoder's fields -/

/-- SB of a second source, absent in the literal form (08 R153). -/
def sbOf : SrcB → BitVec 9
  | .desc d => d.code
  | .lit _ => 0

/-- The literal of a second source (08 R153). -/
def litOf : SrcB → Option Word
  | .desc _ => none
  | .lit w => some w

@[simp] theorem regF_op (op : BitVec 8) (c : Ctl) (dst sa sb sc : BitVec 9) (m : BitVec 13) : (regF op c dst sa sb sc m).op = op := rfl

@[simp] theorem srcF_op (op : BitVec 8) (c : Ctl) (dst sa : BitVec 9) (b : SrcB) (sc : BitVec 9) (m : BitVec 13) :
    (srcF op c dst sa b sc m).op = op := by
  cases b <;> rfl

/-- A second source that fits is read with the word's fields: a literal form has SC and MOD 0 anyway (08 R153). -/
theorem srcF_view {op : BitVec 8} {c : Ctl} {dst sa sc : BitVec 9} {b : SrcB} {m : BitVec 13} {plain : Bool} (h : b.fits c plain = true)
    (hp : plain = true → sc = 0 ∧ m = 0) : (srcF op c dst sa b sc m).view = ⟨c, dst, sa, sbOf b, sc, m, litOf b⟩ := by
  cases b with
  | desc d => rfl
  | lit w =>
    obtain ⟨hn, hpl⟩ := Bool.and_eq_true_iff.1 h
    obtain ⟨rfl, rfl⟩ := hp hpl
    obtain ⟨sw, onc, pg, pn⟩ := c
    cases pn with
    | false => rfl
    | true => cases hn

section
variable (c : Ctl) (dst sa sb sc : BitVec 9) (m : BitVec 13) (l : Option Word)

@[simp] theorem view_d : (View.mk c dst sa sb sc m l).d = Desc.ofCode dst := rfl
@[simp] theorem view_a : (View.mk c dst sa sb sc m l).a = Desc.ofCode sa := rfl
@[simp] theorem view_bd : (View.mk c dst sa sb sc m l).bd = Desc.ofCode sb := rfl
@[simp] theorem view_e : (View.mk c dst sa sb sc m l).e = Desc.ofCode sc := rfl
@[simp] theorem view_c0 : (View.mk c dst sa sb sc m l).c0 = ⟨c.sw, c.onc⟩ := rfl
@[simp] theorem view_noGuard : (View.mk c dst sa sb sc m l).noGuard = (c.pg == 7 && !c.pn) := rfl
@[simp] theorem view_xf : (View.mk c dst sa sb sc m l).xf = m.extractLsb' 8 5 := rfl
@[simp] theorem view_sat : (View.mk c dst sa sb sc m l).sat = m.getLsbD 7 := rfl
@[simp] theorem view_rmc : (View.mk c dst sa sb sc m l).rmc = m.extractLsb' 4 3 := rfl
@[simp] theorem view_rm : (View.mk c dst sa sb sc m l).rm = RM.ofCode (m.extractLsb' 4 3) := rfl
@[simp] theorem view_tyc : (View.mk c dst sa sb sc m l).tyc = m.extractLsb' 0 4 := rfl
@[simp] theorem view_ity : (View.mk c dst sa sb sc m l).ity = ITy.ofCode (m.extractLsb' 0 4) := rfl
@[simp] theorem view_fty : (View.mk c dst sa sb sc m l).fty = FTy.ofCode (m.extractLsb' 0 4) := rfl
@[simp] theorem view_eng : (View.mk c dst sa sb sc m l).eng = m.extractLsb' 11 2 := rfl
@[simp] theorem view_ch : (View.mk c dst sa sb sc m l).ch = m.extractLsb' 4 2 := rfl

@[simp] theorem view_b (b : SrcB) : (View.mk c dst sa (sbOf b) sc m (litOf b)).b = b := by
  cases b <;> simp [View.b, litOf, sbOf]
end

/-! ### From the decoder of a view to the word -/

/-- The decoder of a view, by opcode (`decodeFields` of the fields that have it). -/
def readView (v : View) (op : Nat) : Dec :=
  if op < 0x20 then v.uni op
  else if op < 0x40 then v.vecInt op
  else if op < 0x60 then v.vecFloat op
  else if op < 0x80 then v.mem op
  else if op < 0x90 then v.mtx op
  else if op < 0xA0 then v.grv op
  else if op < 0xB0 then v.cpy op
  else v.sys op

theorem decodeFields_eq (f : Fields) : decodeFields f = readView f.view f.op.toNat := rfl

/-- An instruction that has fields is encoded as their word. -/
theorem encode_of_fields {i : Instr} {f : Fields} (h : i.fields = some f) : encode i = some (.kalgil f.pack) := by
  unfold encode
  split
  · cases h
  · cases h
  · rw [h]

theorem comesBack_of_fields {i : Instr} {f : Fields} (hf : i.fields = some f) (ha : opAssigned f.op.toNat = true)
    (hd : readView f.view f.op.toNat = .ok i) : comesBack i :=
  ⟨_, encode_of_fields hf, decode_fields f i ha hd⟩

/-- An instruction without literal form. -/
theorem comesBack_of_regF {i : Instr} {op : BitVec 8} {c : Ctl} {dst sa sb sc : BitVec 9} {m : BitVec 13}
    (hf : i.fields = some (regF op c dst sa sb sc m)) (ha : opAssigned op.toNat = true)
    (hd : readView ⟨c, dst, sa, sb, sc, m, none⟩ op.toNat = .ok i) : comesBack i :=
  comesBack_of_fields hf ha hd

/-- An instruction whose second source may be a literal; `plain` says that its modifiers are those of MOD 0. -/
theorem comesBack_of_srcF {i : Instr} {op : BitVec 8} {c : Ctl} {dst sa sc : BitVec 9} {b : SrcB} {m : BitVec 13} {plain : Bool}
    (hf : i.fields = some (srcF op c dst sa b sc m)) (ha : opAssigned op.toNat = true) (h : b.fits c plain = true)
    (hp : plain = true → sc = 0 ∧ m = 0) (hd : readView ⟨c, dst, sa, sbOf b, sc, m, litOf b⟩ op.toNat = .ok i) : comesBack i := by
  refine comesBack_of_fields hf ?_ ?_
  · rwa [srcF_op]
  · rwa [srcF_op, srcF_view h hp]

/-- What the decoder of a K instruction sees in a view: its literal form has MOD 0 and computes at .S64 all the same (08 R153). -/
structure ReadsK (v : View) (c : Ctl) (dst sa : BitVec 9) (b : SrcB) (xf : BitVec 5) (sat : Bool) (ty : ITy) : Prop where
  c_eq : v.c = c
  dst_eq : v.dst = dst
  sa_eq : v.sa = sa
  b_eq : v.b = b
  sc_eq : v.sc = 0
  xf_eq : v.xf = xf
  sat_eq : v.sat = sat
  rmc_eq : v.rmc = 0
  kty_eq : v.kty = some ty

theorem srcF_readsK {op : BitVec 8} {c : Ctl} {dst sa : BitVec 9} {b : SrcB} {xf : BitVec 5} {sat : Bool} {ty : ITy} {plain : Bool}
    (h : b.fitsK c ty plain = true) (hp : plain = true → xf = 0 ∧ sat = false) :
    ReadsK (srcF op c dst sa b 0 (modI xf sat ty)).view c dst sa b xf sat ty := by
  cases b with
  | desc d => constructor <;> simp [srcF, regF, Fields.view, modI, View.kty, View.b]
  | lit w =>
    obtain ⟨hn, h⟩ := Bool.and_eq_true_iff.1 h
    obtain ⟨hpl, hty⟩ := Bool.and_eq_true_iff.1 h
    obtain ⟨rfl, rfl⟩ := hp hpl
    obtain rfl := beq_iff_eq.1 hty
    obtain ⟨sw, onc, pg, pn⟩ := c
    cases pn with
    | false => constructor <;> simp [srcF, Fields.view, View.kty, View.b]
    | true => cases hn

/-- An instruction of the K registers whose second source may be a literal. -/
theorem comesBack_of_srcF_k {i : Instr} {op : BitVec 8} {c : Ctl} {dst sa : BitVec 9} {b : SrcB} {xf : BitVec 5} {sat : Bool} {ty : ITy}
    {plain : Bool} (hf : i.fields = some (srcF op c dst sa b 0 (modI xf sat ty))) (ha : opAssigned op.toNat = true)
    (h : b.fitsK c ty plain = true) (hp : plain = true → xf = 0 ∧ sat = false)
    (hd : ∀ v, ReadsK v c dst sa b xf sat ty → readView v op.toNat = .ok i) : comesBack i := by
  refine comesBack_of_fields hf ?_ ?_
  · rwa [srcF_op]
  · rw [srcF_op]
    exact hd _ (srcF_readsK h hp)

/-- A load (09 Table 9-5, form ML). -/
theorem comesBack_load {op : BitVec 8} {part : Bool} {mk : Ctl → Desc → Desc → SrcB → LdMods → Instr} {c : Ctl} {d base : Desc} {off : SrcB}
    {m : LdMods} (hf : (mk c d base off m).fields = some (ldF op c d base off m)) (ha : opAssigned op.toNat = true)
    (h : m.fits c off part = true) (hr : ∀ v, readView v op.toNat = v.load part mk) : comesBack (mk c d base off m) := by
  obtain ⟨hm, hb⟩ := Bool.and_eq_true_iff.1 h
  refine comesBack_of_srcF hf ha hb (by simp; rintro rfl; rfl) ?_
  simpa [hr, View.load, LdMods.code, and_comm, or_comm (a := part = true)] using hm

/-- A store (09 Table 9-5, form MS without PUSH). -/
theorem comesBack_store {op : BitVec 8} {mk : Ctl → Desc → Desc → SrcB → Desc → StMods → Instr} {c : Ctl} {base data tag : Desc} {off : SrcB}
    {m : StMods} (hf : (mk c base data off tag m).fields = some (stF op c base data off tag m)) (ha : opAssigned op.toNat = true)
    (h : m.fits c off tag = true) (hr : ∀ v : View, v.m.getLsbD 12 = false → readView v op.toNat = v.store mk) :
    comesBack (mk c base data off tag m) := by
  obtain ⟨hm, hb⟩ := Bool.and_eq_true_iff.1 h
  refine comesBack_of_srcF hf ha hb ?_ ?_
  · simp
    rintro rfl
    exact ⟨by simpa using hm, rfl⟩
  · rw [hr _ (by simp [StMods.code])]
    simpa [View.store, StMods.code] using hm

/-- An atomic (09 Table 9-5, form MA). -/
theorem comesBack_atomic {op : BitVec 8} {pkg : Bool} {mk : Ctl → Desc → Desc → SrcB → Desc → AmMods → Instr} {c : Ctl} {d addr cmp : Desc}
    {b : SrcB} {m : AmMods} (hf : (mk c d addr b cmp m).fields = some (amF op c d addr b cmp m)) (ha : opAssigned op.toNat = true)
    (h : m.fits c b cmp pkg = true) (hr : ∀ v, readView v op.toNat = v.atomic pkg mk) : comesBack (mk c d addr b cmp m) := by
  obtain ⟨hm, hb⟩ := Bool.and_eq_true_iff.1 h
  refine comesBack_of_srcF hf ha hb ?_ ?_
  · simp
    rintro rfl
    exact ⟨by simpa using hm, rfl⟩
  · have hs : (m.op.code ++ bit1 m.pkg ++ 0#2).extractLsb' 0 3 = bit1 m.pkg ++ 0#2 := (slice_split _ 0 2 1).trans (by simp)
    obtain ⟨o, ty, ch, p⟩ := m
    cases p <;> simp_all [View.atomic, AmMods.code]

/-- The opcode that an instruction's number names is that of its fields. -/
theorem fields_of_opOf {i : Instr} {n : Nat} {p : Nat → Bool} (h : opOf i = some n) (hp : p n = true) :
    (i.fields.any fun f => p f.op.toNat) = true := by
  obtain ⟨f, hf, rfl⟩ := Option.map_eq_some_iff.1 h
  rw [hf]
  exact hp

/-! ### The instructions, by class (09 Table 9-1) -/

/-- UNI and VEC integer. -/
theorem comesBack_of_op_lt {i : Instr} (h : (i.fields.any fun f => f.op.toNat < 0x40) = true) (hw : i.wf = true) : comesBack i := by
  cases i
  case nop | ret | tail =>
    exact comesBack_of_regF rfl rfl (by simp [readView, View.uni, Ctl0.full])
  case bra | brd | join | call | loop | setiw =>
    exact comesBack_of_srcF rfl rfl hw (by simp) (by simp [readView, View.uni, Ctl0.full])
  case brc =>
    exact comesBack_of_srcF rfl rfl hw (by simp; rintro rfl; rfl) (by simp [readView, View.uni])
  case kmov | kand | kor | kxor =>
    refine comesBack_of_srcF_k rfl rfl hw (by simp) fun v ⟨_, _, _, _, _, _, _, _, _⟩ => ?_
    simp [readView, View.uni, View.kArith, View.d, View.a, *]
  case kadd | ksub | kmul =>
    refine comesBack_of_srcF_k rfl rfl hw (by simp) fun v ⟨_, _, _, _, _, _, _, _, _⟩ => ?_
    simp [readView, View.uni, View.kArithS, View.d, View.a, *]
  case ksh =>
    obtain ⟨hs, hb⟩ := Bool.and_eq_true_iff.1 hw
    refine comesBack_of_srcF_k rfl rfl hb (by simp; rintro rfl rfl; exact ⟨rfl, rfl⟩) fun v ⟨_, _, _, _, _, _, _, _, _⟩ => ?_
    simp_all [readView, View.uni, View.d, View.a]
  case kcmp =>
    refine comesBack_of_srcF_k rfl rfl hw (by simp; rintro rfl; rfl) fun v ⟨_, _, _, _, _, _, _, _, _⟩ => ?_
    simp [readView, View.uni, View.d, View.a, *]
  case ksel | kmad =>
    exact comesBack_of_regF rfl rfl (by simp [readView, View.uni, modI])
  case vote =>
    exact comesBack_of_regF rfl rfl (by simpa [readView, View.uni, Instr.wf] using hw)
  case rdlane | wrlane =>
    exact comesBack_of_srcF rfl rfl hw (by simp; rintro rfl; rfl) (by simp [readView, View.uni])
  case vmov c op ty =>
    cases op with
    | reg d b => exact comesBack_of_srcF rfl rfl hw (by simp; rintro rfl; rfl) (by simp [readView, View.vecInt, View.vmov, modI])
    | toIdx i b sat => exact comesBack_of_regF rfl rfl (by simp [readView, View.vecInt, View.vmov, modI])
    | fromIdx d i => exact comesBack_of_regF rfl rfl (by simp [readView, View.vecInt, View.vmov, modI])
  case vadd | vsub | vshl | vabsd =>
    exact comesBack_of_srcF rfl rfl hw (by simp; rintro rfl rfl; rfl) (by simp [readView, View.vecInt, View.vArithS, modI])
  case vmul | vquo =>
    obtain ⟨hs, hb⟩ := Bool.and_eq_true_iff.1 hw
    exact comesBack_of_srcF rfl rfl hb (by simp; rintro rfl rfl rfl; rfl) (by simpa [readView, View.vecInt, View.vArithX, modI] using hs)
  case vand | vor | vxor | vbic | vshr | vbfx | vmin | vmax =>
    exact comesBack_of_srcF rfl rfl hw (by simp; rintro rfl; rfl) (by simp [readView, View.vecInt, View.vArith, modI])
  case vmad | vbfi | vfun | vcnt | vmatch | vprm =>
    exact comesBack_of_regF rfl rfl (by simp [readView, View.vecInt, modI])
  case vcmp | vsel | vshfl =>
    exact comesBack_of_srcF rfl rfl hw (by simp; rintro rfl rfl rfl; rfl) (by simp [readView, View.vecInt, modI])
  case vscan c d a key ty op excl all sat =>
    refine comesBack_of_regF rfl rfl ?_
    cases key <;> simpa [readView, View.vecInt, modI, optCode, Instr.wf] using hw
  case vaddr =>
    obtain ⟨hs, hb⟩ := Bool.and_eq_true_iff.1 hw
    exact comesBack_of_srcF rfl rfl hb (by simp; rintro rfl rfl; rfl) (by simpa [readView, View.vecInt, toNat_le_four] using hs)
  all_goals simp [Instr.fields, ldF, stF, amF] at h

/-- VEC float and MEM. -/
theorem comesBack_of_op_mid {i : Instr} (h : (i.fields.any fun f => 0x40 ≤ f.op.toNat && f.op.toNat < 0x80) = true) (hw : i.wf = true) :
    comesBack i := by
  cases i
  case fadd | fsub | fmul | fdiv =>
    exact comesBack_of_srcF rfl rfl hw (by simp; rintro rfl rfl rfl; rfl) (by simp [readView, View.vecFloat, View.fArith, modF])
  case fma =>
    exact comesBack_of_regF rfl rfl (by simp [readView, View.vecFloat, modF])
  case fmin | fmax =>
    exact comesBack_of_srcF rfl rfl hw (by simp; rintro rfl; rfl) (by simp [readView, View.vecFloat, modF, RM.code])
  case fsgn =>
    exact comesBack_of_srcF rfl rfl hw (by simp; rintro rfl rfl; rfl) (by simp [readView, View.vecFloat, modF, RM.code])
  case fcmp =>
    exact comesBack_of_srcF rfl rfl hw (by simp; rintro rfl rfl rfl; rfl) (by simp [readView, View.vecFloat, modF, RM.code])
  case fclass | frcp | frsq | fsqrt | frnd | hadm =>
    exact comesBack_of_regF rfl rfl (by simp [readView, View.vecFloat, View.fOne, modF])
  case fexp2 | flog2 | ftrig | cvti | fred =>
    exact comesBack_of_regF rfl rfl (by simpa [readView, View.vecFloat, View.fOne, modF, Instr.wf] using hw)
  case cvtf c d a dir ty rm sat =>
    refine comesBack_of_regF rfl rfl ?_
    simp [readView, View.vecFloat, View.fOne, modF, cvtDir_ofCode_eq_some]
    rintro f rfl
    exact hw
  case qblk | dqblk | fdot | fpack =>
    exact comesBack_of_regF rfl rfl (by simpa [readView, View.vecFloat, modF, Instr.wf] using hw)
  case fsrn =>
    exact comesBack_of_regF rfl rfl (by simpa [readView, View.vecFloat, modF, RM.code, Instr.wf] using hw)
  case ldsc | ldsh | ldcv | lddv | ldpr | ldhs =>
    exact comesBack_load rfl rfl hw fun _ => rfl
  case stsc c base data off tag m =>
    refine comesBack_store rfl rfl hw fun v hv => ?_
    exact show (if v.m.getLsbD 12 = true then v.push else v.store .stsc) = _ from if_neg (ne_true_of_eq_false hv)
  case stsh | stcv | stdv | stpr | sths =>
    exact comesBack_store rfl rfl hw fun _ _ => rfl
  case stscPush =>
    exact comesBack_of_regF rfl rfl (by simpa [readView, View.mem, View.push, Instr.wf] using hw)
  case amsc | amsh | amcv | amdv | ampr | amhs =>
    exact comesBack_atomic rfl rfl hw fun _ => rfl
  case fence | waitc | smap | smapUnb =>
    exact comesBack_of_regF rfl rfl (by simp [readView, View.mem])
  case barw c conv id =>
    refine comesBack_of_regF rfl rfl ?_
    cases conv with
    | false => simp [readView, View.mem, Ctl0.full]
    | true => simpa [readView, View.mem, Ctl0.full, bit_three_eq_false, Instr.wf] using hw
  case waitv =>
    exact comesBack_of_srcF rfl rfl hw (by simp; rintro rfl rfl rfl rfl; rfl) (by simp [readView, View.mem])
  case disc | swb =>
    exact comesBack_of_srcF rfl rfl hw (by simp) (by simp [readView, View.mem])
  case cctl | pref =>
    exact comesBack_of_srcF rfl rfl hw (by simp; rintro rfl; rfl) (by simp [readView, View.mem])
  case evpop =>
    exact comesBack_of_regF rfl rfl (by simpa [readView, View.mem, Instr.wf] using hw)
  case vmov c op ty => cases op <;> simp [Instr.fields] at h
  all_goals simp [Instr.fields] at h

/-- MTX, GRV, CPY and SYS. -/
theorem comesBack_of_le_op {i : Instr} (h : (i.fields.any fun f => 0x80 ≤ f.op.toNat) = true) (hw : i.wf = true) : comesBack i := by
  cases i
  case mres c pd sel kd =>
    refine comesBack_of_regF rfl rfl ?_
    cases kd <;> cases sel <;> simp [readView, View.mtx, optCode, MSel.code]
  case mresGrv | mrel | mrelGrv | mring | mcmt | mstc | mldc | mfnc | taskq | tsten | aownRd | aownWr =>
    exact comesBack_of_regF rfl rfl (by simp [readView, View.mtx])
  case mldb c e page addr saddr =>
    refine comesBack_of_regF rfl rfl ?_
    cases saddr <;> simp [readView, View.mtx, optCode]
  case mma c e cls w0 page m sh boff =>
    refine comesBack_of_regF rfl rfl ?_
    cases boff with
    | none => cases sh <;> simp [readView, View.mtx, optCode]
    | some d => cases sh <;> simpa [readView, View.mtx, optCode, Instr.wf] using hw
  case mzero =>
    exact comesBack_of_srcF rfl rfl hw (by simp; rintro rfl rfl; rfl) (by simp [readView, View.mtx])
  case mwait =>
    exact comesBack_of_srcF rfl rfl hw (by simp) (by simp [readView, View.mtx])
  case ggen | gcnt | gmux | gacc | greg | gcmp | gmov | gmovLd | gmovSt =>
    exact comesBack_of_regF rfl rfl (by simp [readView, View.grv])
  case gand | gxnr =>
    exact comesBack_of_regF rfl rfl (by simp [readView, View.grv, View.gTwo])
  case gshf | glen =>
    exact comesBack_of_srcF rfl rfl hw (by simp) (by simp [readView, View.grv])
  case gseed =>
    exact comesBack_of_srcF rfl rfl hw (by simp; rintro rfl; rfl) (by simp [readView, View.grv])
  case copy =>
    obtain ⟨hm, hb⟩ := Bool.and_eq_true_iff.1 hw
    refine comesBack_of_srcF rfl rfl hb ?_ (by simpa [readView, View.cpy] using hm)
    simp
    rintro rfl rfl rfl rfl
    exact ⟨by simpa using hm, rfl⟩
  case cpy2 | task | sgnl | cmsg | cbuf =>
    exact comesBack_of_regF rfl rfl (by simp [readView, View.cpy])
  case grid =>
    exact comesBack_of_srcF rfl rfl hw (by simp) (by simp [readView, View.cpy])
  case coll =>
    exact comesBack_of_regF rfl rfl (by simpa [readView, View.cpy, Instr.wf] using hw)
  case trap | rte | sysr | sysw | probe | achk =>
    exact comesBack_of_regF rfl rfl (by simp [readView, View.sys, Ctl0.full])
  case vmov c op ty => cases op <;> simp [Instr.fields] at h
  all_goals simp [Instr.fields, ldF, stF, amF] at h

/-- Settles O1: what each UNI and VEC integer instruction's fields read as (`comesBack_of_op_lt`). -/
theorem roundTripUniformAndInteger : Obligations.RoundTripUniformAndInteger :=
  fun _ _ h hn hw => comesBack_of_op_lt (fields_of_opOf (p := (· < 0x40)) h (decide_eq_true hn)) hw

/-- Settles O2: what each VEC float and MEM instruction's fields read as (`comesBack_of_op_mid`). -/
theorem roundTripFloatAndMemory : Obligations.RoundTripFloatAndMemory :=
  fun _ n h hl hn hw => comesBack_of_op_mid (fields_of_opOf (p := fun n => 0x40 ≤ n && n < 0x80) h (by simp [hl, hn])) hw

/-- Settles O3: what each MTX, GRV, CPY and SYS instruction's fields read as (`comesBack_of_le_op`). -/
theorem roundTripEnginesAndSystem : Obligations.RoundTripEnginesAndSystem :=
  fun _ _ h hl hw => comesBack_of_le_op (fields_of_opOf (p := (0x80 ≤ ·)) h (decide_eq_true hl)) hw

end Sys2Proof.Laws
end

section
/-!
PROOFS. A 64-bit word that decodes is the encoding of the well-formed instruction it decodes to (08 R152, R157, 09 R167 to R174), by class.
-/
namespace Sys2Proof.Laws

open Sys2Proof Sys2Proof.Ob

/-! ### The fields that a view was read from -/

@[simp] theorem code_d (v : View) : v.d.code = v.dst := code_desc_ofCode _
@[simp] theorem code_a (v : View) : v.a.code = v.sa := code_desc_ofCode _
@[simp] theorem code_bd (v : View) : v.bd.code = v.sb := code_desc_ofCode _
@[simp] theorem code_e (v : View) : v.e.code = v.sc := code_desc_ofCode _

/-- The guard of an instruction that uses none (08 R152). -/
@[simp] theorem full_c0 {v : View} (h : v.c.pg = 7#3) (hn : v.c.pn = false) : v.c0.full = v.c := by
  show (⟨v.c.sw, v.c.onc, 7#3, false⟩ : Ctl) = v.c
  rw [← h, ← hn]

/-- MOD is form A of its sub-fields (09 Table 9-5). -/
theorem mod_eq_formA (v : View) : v.m = formA v.xf v.sat v.rmc v.tyc := by
  symm
  simp [formA, View.xf, View.sat, View.rmc, View.tyc, append_eq_iff]

/-- The type of a K instruction (08 R153). -/
theorem kty_eq_some {v : View} {ty : ITy} : v.kty = some ty ↔ (v.lit.isSome = true → ty = .s64) ∧ (v.lit = none → v.tyc = ty.code) := by
  unfold View.kty
  cases v.lit with
  | none => simp [View.ity]
  | some w => simp [eq_comm]

/-- The literal form has no MOD and no PN (08 R153). -/
def LitPlain (v : View) : Prop := v.lit.isSome = true → v.m = 0 ∧ v.c.pn = false

theorem litPlain_view (f : Fields) : LitPlain f.view := by
  obtain ⟨op, sw, onc, pg, dst, sa, low⟩ := f
  cases low with
  | lit w => exact fun _ => ⟨rfl, rfl⟩
  | reg sb sc pn m => exact fun h => nomatch h

/-- A word with a MOD other than 0 has no literal. -/
theorem lit_eq_none_of_mod {v : View} (hv : LitPlain v) (h : v.m ≠ 0) : v.lit = none := by
  cases hl : v.lit with
  | none => rfl
  | some w => exact absurd (hv (by rw [hl]; rfl)).1 h

/-- What a literal form shows of MOD's sub-fields. -/
structure ModZero (v : View) : Prop where
  isSome : v.lit.isSome = true
  m_eq : v.m = 0
  xf_eq : v.xf = 0
  sat_eq : v.sat = false
  rmc_eq : v.rmc = 0
  tyc_eq : v.tyc = 0

/-- The second source that is read fits, where MOD 0 gives the modifiers that a literal form may have. -/
theorem fits_b {v : View} (hv : LitPlain v) {plain : Bool} (h : ModZero v → plain = true) : v.b.fits v.c plain = true := by
  unfold View.b
  cases hl : v.lit with
  | none => rfl
  | some w =>
    obtain ⟨hm, hn⟩ := hv (by rw [hl]; rfl)
    have hp : plain = true := h (by constructor <;> simp [hl, hm, View.xf, View.sat, View.rmc, View.tyc])
    simp [SrcB.fits, hn, hp]

/-- The fields that a view was read from, under an opcode. -/
def fieldsOf (v : View) (op : BitVec 8) : Fields := srcF op v.c v.dst v.sa v.b v.sc v.m

theorem fieldsOf_view (f : Fields) : fieldsOf f.view f.op = f := by
  obtain ⟨op, sw, onc, pg, dst, sa, low⟩ := f
  cases low with
  | lit w => rfl
  | reg sb sc pn m => simp [fieldsOf, Fields.view, View.b, View.bd, srcF, regF]

/-- A well-formed instruction whose fields are those that the view was read from. -/
structure Encodes (v : View) (op : BitVec 8) (i : Instr) : Prop where
  wf : i.wf = true
  fields : i.fields = some (fieldsOf v op)

/-- An instruction whose second source may be a literal; the literal stands for SB, SC and MOD. -/
theorem encodes_srcF {i : Instr} {v : View} {op : BitVec 8} {c : Ctl} {dst sa sc : BitVec 9} {m : BitVec 13} (hw : i.wf = true)
    (hf : i.fields = some (srcF op c dst sa v.b sc m))
    (h : c = v.c ∧ dst = v.dst ∧ sa = v.sa ∧ (v.lit = none → sc = v.sc ∧ m = v.m)) : Encodes v op i := by
  refine ⟨hw, hf.trans ?_⟩
  obtain ⟨rfl, rfl, rfl, hm⟩ := h
  unfold fieldsOf View.b
  cases hl : v.lit with
  | some w => rfl
  | none =>
    obtain ⟨rfl, rfl⟩ := hm hl
    rfl

/-- An instruction without literal form. -/
theorem encodes_regF {i : Instr} {v : View} {op : BitVec 8} {c : Ctl} {dst sa sb sc : BitVec 9} {m : BitVec 13} (hl : v.lit = none)
    (hw : i.wf = true) (hf : i.fields = some (regF op c dst sa sb sc m))
    (h : c = v.c ∧ dst = v.dst ∧ sa = v.sa ∧ sb = v.sb ∧ sc = v.sc ∧ m = v.m) : Encodes v op i := by
  refine ⟨hw, hf.trans ?_⟩
  obtain ⟨rfl, rfl, rfl, rfl, rfl, rfl⟩ := h
  simp [fieldsOf, View.b, hl, srcF]

/-! ### UNI (11 Tables 11-2 and 11-5) -/

theorem encodes_kArith {v : View} (hv : LitPlain v) {op : BitVec 8} {mk : Ctl → Desc → Desc → SrcB → ITy → Instr} {i : Instr}
    (h : v.kArith mk = .ok i) (hw : ∀ c d a b ty, (mk c d a b ty).wf = b.fitsK c ty true) {sa : Desc → BitVec 9} (ha : sa v.a = v.sa)
    (hf : ∀ c d a b ty, (mk c d a b ty).fields = some (srcF op c d.code (sa a) b 0 (modI 0 false ty))) : Encodes v op i := by
  simp [View.kArith, and_assoc, kty_eq_some] at h
  obtain ⟨hsc, hx, hr, hs, ty, hl, ht, rfl⟩ := h
  refine encodes_srcF ((hw ..).trans (fits_b hv fun ⟨_, _, _, _, _, _⟩ => by simp_all)) (hf ..) ?_
  simp +contextual [modI, mod_eq_formA v, *]

theorem encodes_kArithS {v : View} (hv : LitPlain v) {op : BitVec 8} {mk : Ctl → Desc → Desc → SrcB → ITy → Bool → Instr} {i : Instr}
    (h : v.kArithS mk = .ok i) (hw : ∀ c d a b ty sat, (mk c d a b ty sat).wf = b.fitsK c ty !sat)
    (hf : ∀ c d a b ty sat, (mk c d a b ty sat).fields = some (srcF op c d.code a.code b 0 (modI 0 sat ty))) : Encodes v op i := by
  simp [View.kArithS, and_assoc, kty_eq_some] at h
  obtain ⟨hsc, hx, hr, ty, hl, ht, rfl⟩ := h
  refine encodes_srcF ((hw ..).trans (fits_b hv fun ⟨_, _, _, _, _, _⟩ => by simp_all)) (hf ..) ?_
  simp +contextual [modI, mod_eq_formA v, *]

theorem encodes_uni {v : View} (hv : LitPlain v) {n : Nat} (hn : n < 0x18) {i : Instr} (h : v.uni n = .ok i) :
    Encodes v (BitVec.ofNat 8 n) i := by
  unfold View.uni at h
  split at h
  case h_1 | h_23 => -- NOP, TAIL
    simp [and_assoc, View.noGuard] at h
    obtain ⟨hd, ha, hb, hs, hg, hp, hm, hl, rfl⟩ := h
    exact encodes_regF hl rfl rfl (by simp [*])
  case h_2 | h_4 => -- BRA, BRD
    simp [and_assoc] at h
    obtain ⟨hd, ha, hs, hm, rfl⟩ := h
    exact encodes_srcF (fits_b hv fun _ => rfl) rfl (by simp [*])
  case h_3 => -- BRC
    simp [and_assoc] at h
    obtain ⟨hd, hs, hm, rfl⟩ := h
    exact encodes_srcF (fits_b hv fun ⟨_, _, _, _, _, _⟩ => by simp_all) rfl (by simp [*, append_eq_iff])
  case h_5 => -- JOIN
    simp [and_assoc, View.noGuard] at h
    obtain ⟨hd, ha, hs, hg, hp, hm, rfl⟩ := h
    have hb : v.b.fits v.c0.full true = true := by
      rw [full_c0 hg hp]
      exact fits_b hv fun _ => rfl
    exact encodes_srcF hb rfl (by simp [*])
  case h_6 | h_8 => -- CALL, LOOP
    simp [and_assoc] at h
    obtain ⟨ha, hs, hm, rfl⟩ := h
    exact encodes_srcF (fits_b hv fun _ => rfl) rfl (by simp [*])
  case h_7 => -- RET
    simp [and_assoc] at h
    obtain ⟨hd, ha, hs, hm, hl, rfl⟩ := h
    exact encodes_regF hl rfl rfl (by simp [*])
  case h_9 => -- KMOV
    obtain ⟨ha, h⟩ := req_eq_ok.1 h
    exact encodes_kArith hv h (fun _ _ _ _ _ => rfl) (sa := fun _ => 0) (beq_iff_eq.1 ha).symm fun _ _ _ _ _ => rfl
  case h_10 | h_11 | h_12 => -- KADD, KSUB, KMUL
    exact encodes_kArithS hv h (fun _ _ _ _ _ _ => rfl) fun _ _ _ _ _ _ => rfl
  case h_13 | h_14 | h_15 => -- KAND, KOR, KXOR
    exact encodes_kArith hv h (fun _ _ _ _ _ => rfl) (code_a v) fun _ _ _ _ _ => rfl
  case h_16 => -- KSH
    simp [and_assoc, kty_eq_some] at h
    obtain ⟨hs, hr, ty, hl, ht, k, hk, hsat, rfl⟩ := h
    have hb : v.b.fitsK v.c ty (k == .shl && !v.sat) = true := fits_b hv fun ⟨_, _, _, _, _, _⟩ => by simp_all
    exact encodes_srcF (Bool.and_eq_true_iff.2 ⟨by simpa using hsat, hb⟩) rfl (by simp +contextual [modI, mod_eq_formA v, *])
  case h_17 => -- KCMP
    simp [and_assoc, kty_eq_some] at h
    obtain ⟨hs, hr, hsat, hx, ty, hl, ht, cond, hc, rfl⟩ := h
    refine encodes_srcF (fits_b hv fun ⟨_, _, _, _, _, _⟩ => by simp_all) rfl ?_
    simp +contextual [modI, mod_eq_formA v, formA_inj, append_eq_iff, *]
  case h_18 => -- KSEL
    simp [and_assoc, View.ity] at h
    obtain ⟨hl, hx, hr, hsat, ty, ht, rfl⟩ := h
    exact encodes_regF hl rfl rfl (by simp [modI, mod_eq_formA v, *])
  case h_19 => -- KMAD
    simp [and_assoc, View.ity] at h
    obtain ⟨hl, hx, hr, ty, ht, rfl⟩ := h
    exact encodes_regF hl rfl rfl (by simp [modI, mod_eq_formA v, *])
  case h_20 => -- VOTE
    simp [and_assoc] at h
    obtain ⟨p, hp, hb, hs, hm, hl, ho, rfl⟩ := h
    exact encodes_regF hl (by simpa [Instr.wf] using ho) rfl (by simp [append_eq_iff, *])
  case h_21 | h_22 => -- RDLANE, WRLANE
    simp [and_assoc] at h
    obtain ⟨hs, hm, rfl⟩ := h
    exact encodes_srcF (fits_b hv fun ⟨_, _, _, _, _, _⟩ => by simp_all) rfl (by simp [append_eq_iff, *])
  case h_24 => -- SETIW
    obtain rfl : n = 0x17 := by simp only [imp_false] at *; omega
    simp [and_assoc] at h
    obtain ⟨hd, hs, hm, rfl⟩ := h
    exact encodes_srcF (fits_b hv fun _ => rfl) rfl (by simp [*])

/-! ### VEC integer (11 Table 11-7) -/

theorem encodes_vArith {v : View} (hv : LitPlain v) {op : BitVec 8} {mk : Ctl → Desc → Desc → SrcB → ITy → Instr} {i : Instr}
    (h : v.vArith mk = .ok i) (hw : ∀ c d a b ty, (mk c d a b ty).wf = b.fitsV c ty true)
    (hf : ∀ c d a b ty, (mk c d a b ty).fields = some (srcF op c d.code a.code b 0 (modI 0 false ty))) : Encodes v op i := by
  simp [View.vArith, and_assoc, View.ity] at h
  obtain ⟨hsc, hx, hr, hs, ty, ht, rfl⟩ := h
  refine encodes_srcF ((hw ..).trans (fits_b hv fun ⟨_, _, _, _, _, _⟩ => by simp_all)) (hf ..) ?_
  simp [modI, mod_eq_formA v, *]

theorem encodes_vArithS {v : View} (hv : LitPlain v) {op : BitVec 8} {mk : Ctl → Desc → Desc → SrcB → ITy → Bool → Instr} {i : Instr}
    (h : v.vArithS mk = .ok i) (hw : ∀ c d a b ty sat, (mk c d a b ty sat).wf = b.fitsV c ty !sat)
    (hf : ∀ c d a b ty sat, (mk c d a b ty sat).fields = some (srcF op c d.code a.code b 0 (modI 0 sat ty))) : Encodes v op i := by
  simp [View.vArithS, and_assoc, View.ity] at h
  obtain ⟨hsc, hx, hr, ty, ht, rfl⟩ := h
  refine encodes_srcF ((hw ..).trans (fits_b hv fun ⟨_, _, _, _, _, _⟩ => by simp_all)) (hf ..) ?_
  simp [modI, mod_eq_formA v, *]

/-- VMOV's three kinds (11 R210); those of an index register have a MOD other than 0, so no literal form. -/
theorem encodes_vmov {v : View} (hv : LitPlain v) {i : Instr} (h : v.vmov = .ok i) : Encodes v 0x20 i := by
  have noLit (hx : v.xf ≠ 0) : v.lit = none := lit_eq_none_of_mod hv fun hm => hx (by simp [View.xf, hm])
  simp [View.vmov, and_assoc, View.ity] at h
  obtain ⟨ha, hsc, hr, ty, ht, h⟩ := h
  split at h
  case h_1 hx =>
    have hx : v.xf = 0 := BitVec.eq_of_toNat_eq hx
    simp at h
    obtain ⟨hs, rfl⟩ := h
    exact encodes_srcF (fits_b hv fun ⟨_, _, _, _, _, _⟩ => by simp_all) rfl (by simp [modI, mod_eq_formA v, *])
  case h_2 hx =>
    have hx : v.xf = 1 := BitVec.eq_of_toNat_eq hx
    simp at h
    obtain ⟨hi, rfl⟩ := h
    exact encodes_regF (noLit (by rw [hx]; decide)) rfl rfl (by simp [modI, mod_eq_formA v, append_eq_iff, *])
  case h_3 hx =>
    have hx : v.xf = 2 := BitVec.eq_of_toNat_eq hx
    simp at h
    obtain ⟨⟨hs, hi⟩, rfl⟩ := h
    exact encodes_regF (noLit (by rw [hx]; decide)) rfl rfl (by simp [modI, mod_eq_formA v, append_eq_iff, *])
  case h_4 => cases h

theorem encodes_vecInt {v : View} (hv : LitPlain v) {n : Nat} (h0 : 0x20 ≤ n) (hn : n < 0x3A) {i : Instr} (h : v.vecInt n = .ok i) :
    Encodes v (BitVec.ofNat 8 n) i := by
  unfold View.vecInt at h
  split at h
  case h_1 => exact encodes_vmov hv h
  case h_2 | h_3 | h_11 | h_19 => -- VADD, VSUB, VSHL, VABSD
    exact encodes_vArithS hv h (fun _ _ _ _ _ _ => rfl) fun _ _ _ _ _ _ => rfl
  case h_4 | h_6 => -- VMUL, VQUO
    simp [View.vArithX, and_assoc, View.ity] at h
    obtain ⟨hsc, hx, hr, hs, ty, ht, rfl⟩ := h
    have hb : v.b.fitsV v.c ty (!v.xf.getLsbD 0 && !v.sat) = true := fits_b hv fun ⟨_, _, _, _, _, _⟩ => by simp_all
    refine encodes_srcF (Bool.and_eq_true_iff.2 ⟨by simpa using hs, hb⟩) rfl ?_
    simp [modI, mod_eq_formA v, formA_inj, append_eq_iff, *]
  case h_5 => -- VMAD
    simp [and_assoc, View.ity] at h
    obtain ⟨hl, hx, hr, ty, ht, rfl⟩ := h
    exact encodes_regF hl rfl rfl (by simp [modI, mod_eq_formA v, *])
  case h_7 | h_8 | h_9 | h_10 | h_12 | h_14 | h_17 | h_18 => -- VAND, VOR, VXOR, VBIC, VSHR, VBFX, VMIN, VMAX
    exact encodes_vArith hv h (fun _ _ _ _ _ => rfl) fun _ _ _ _ _ => rfl
  case h_13 => -- VFUN
    simp [and_assoc, View.ity] at h
    obtain ⟨hl, hx, hr, hs, ty, ht, rfl⟩ := h
    exact encodes_regF hl rfl rfl (by simp [modI, mod_eq_formA v, formA_inj, append_eq_iff, *])
  case h_15 => -- VBFI
    simp [and_assoc, View.ity] at h
    obtain ⟨hl, hx, hr, hs, ty, ht, rfl⟩ := h
    exact encodes_regF hl rfl rfl (by simp [modI, mod_eq_formA v, *])
  case h_16 => -- VCNT
    simp [and_assoc, View.ity] at h
    obtain ⟨hb, hsc, hl, hr, hs, ty, ht, o, ho, rfl⟩ := h
    exact encodes_regF hl rfl rfl (by simp [modI, mod_eq_formA v, *])
  case h_20 => -- VCMP
    simp [and_assoc, View.ity] at h
    obtain ⟨p, hp, hsc, hr, hs, ty, ht, cond, hc, comb, hb, rfl⟩ := h
    refine encodes_srcF (fits_b hv fun ⟨_, _, _, _, _, _⟩ => by simp_all) rfl ?_
    simp [modI, mod_eq_formA v, formA_inj, append_eq_iff, *]
  case h_21 | h_22 => -- VSEL, VSHFL
    simp [and_assoc, View.ity] at h
    obtain ⟨hsc, hr, hs, hx, ty, ht, rfl⟩ := h
    refine encodes_srcF (fits_b hv fun ⟨_, _, _, _, _, _⟩ => by simp_all) rfl ?_
    simp [modI, mod_eq_formA v, formA_inj, append_eq_iff, *]
  case h_23 => -- VMATCH
    simp [and_assoc, View.ity] at h
    obtain ⟨hb, hsc, hl, hx, hr, hs, ty, ht, rfl⟩ := h
    exact encodes_regF hl rfl rfl (by simp [modI, mod_eq_formA v, *])
  case h_24 => -- VSCAN
    simp [and_assoc, View.ity] at h
    obtain ⟨hsc, hl, hr, hb, ty, ht, o, ho, hs, rfl⟩ := h
    refine encodes_regF hl (by simpa [Instr.wf] using hs) rfl ?_
    cases hx : v.xf[3] <;> simp_all [modI, mod_eq_formA v, formA_inj, append_eq_iff, optCode]
  case h_25 => -- VADDR
    simp [and_assoc] at h
    obtain ⟨hsc, hr, hs, hx, ht, rfl⟩ := h
    obtain ⟨hz, hle⟩ := toNat_le_four.1 hx
    have hb : v.b.fits v.c (!v.tyc.getLsbD 0 && v.xf.extractLsb' 0 3 == 0) = true := fits_b hv fun ⟨_, _, _, _, _, _⟩ => by simp_all
    refine encodes_srcF (Bool.and_eq_true_iff.2 ⟨by simpa using hle, hb⟩) rfl ?_
    simp [mod_eq_formA v, formA_inj, append_eq_iff, *]
  case h_26 => -- VPRM
    obtain rfl : n = 0x39 := by simp only [imp_false] at *; omega
    simp [and_assoc] at h
    obtain ⟨hl, hx, hr, hs, ht, rfl⟩ := h
    exact encodes_regF hl rfl rfl (by simp [mod_eq_formA v, formA_inj, append_eq_iff, *])

/-! ### VEC float (12 Table 12-1) -/

theorem encodes_fArith {v : View} (hv : LitPlain v) {op : BitVec 8} {mk : Ctl → Desc → Desc → SrcB → FTy → RM → Bool → Instr} {i : Instr}
    (h : v.fArith mk = .ok i) (hw : ∀ c d a b ty rm sat, (mk c d a b ty rm sat).wf = b.fitsF c ty rm !sat)
    (hf : ∀ c d a b ty rm sat, (mk c d a b ty rm sat).fields = some (srcF op c d.code a.code b 0 (modF 0 sat rm ty))) : Encodes v op i := by
  simp [View.fArith, and_assoc, View.fty, View.rm] at h
  obtain ⟨hsc, hx, ty, ht, rm, hr, rfl⟩ := h
  refine encodes_srcF ((hw ..).trans (fits_b hv fun ⟨_, _, _, _, _, _⟩ => by simp_all)) (hf ..) ?_
  simp [modF, mod_eq_formA v, *]

/-- An instruction of one source: what is left of its checks once SB, SC, L, TY and RM have passed. -/
theorem fOne_eq_ok {v : View} {k : FTy → RM → Dec} {i : Instr} :
    v.fOne k = .ok i ↔ v.sb = 0 ∧ v.sc = 0 ∧ v.lit = none ∧ ∃ ty, v.tyc = ty.code ∧ ∃ rm, v.rmc = rm.code ∧ k ty rm = .ok i := by
  simp [View.fOne, and_assoc, View.fty, View.rm]

theorem encodes_vecFloat {v : View} (hv : LitPlain v) {n : Nat} (h0 : 0x40 ≤ n) (hn : n < 0x5A) {i : Instr} (h : v.vecFloat n = .ok i) :
    Encodes v (BitVec.ofNat 8 n) i := by
  unfold View.vecFloat at h
  split at h
  case h_1 | h_2 | h_3 | h_13 => -- FADD, FSUB, FMUL, FDIV
    exact encodes_fArith hv h (fun _ _ _ _ _ _ _ => rfl) fun _ _ _ _ _ _ _ => rfl
  case h_4 => -- FMA
    simp [View.fty, View.rm] at h
    obtain ⟨hl, hx, ty, ht, rm, hr, rfl⟩ := h
    exact encodes_regF hl rfl rfl (by simp [modF, mod_eq_formA v, *])
  case h_5 | h_6 => -- FMIN, FMAX
    simp [and_assoc, View.fty] at h
    obtain ⟨hsc, hx, hr, hs, ty, ht, rfl⟩ := h
    exact encodes_srcF (fits_b hv fun ⟨_, _, _, _, _, _⟩ => by simp_all) rfl (by simp [modF, RM.code, mod_eq_formA v, *])
  case h_7 => -- FSGN
    simp [and_assoc, View.fty] at h
    obtain ⟨hsc, hr, hs, ty, ht, o, ho, rfl⟩ := h
    exact encodes_srcF (fits_b hv fun ⟨_, _, _, _, _, _⟩ => by simp_all) rfl (by simp [modF, RM.code, mod_eq_formA v, *])
  case h_8 => -- FCMP
    simp [and_assoc, View.fty] at h
    obtain ⟨p, hp, hsc, hr, hs, ty, ht, comb, hc, rfl⟩ := h
    refine encodes_srcF (fits_b hv fun ⟨_, _, _, _, _, _⟩ => by simp_all) rfl ?_
    simp [modF, RM.code, mod_eq_formA v, formA_inj, append_eq_iff, *]
  case h_9 => -- FCLASS
    simp [fOne_eq_ok, and_assoc] at h
    obtain ⟨hb, hsc, hl, ty, ht, hr, hx, hs, rfl⟩ := h
    exact encodes_regF hl rfl rfl (by simp [modF, mod_eq_formA v, *])
  case h_10 | h_11 => -- FRCP, FRSQ
    simp [fOne_eq_ok] at h
    obtain ⟨hb, hsc, hl, ty, ht, rm, hr, hx, rfl⟩ := h
    exact encodes_regF hl rfl rfl (by simp [modF, mod_eq_formA v, *])
  case h_12 | h_17 => -- FSQRT, FRND
    simp [fOne_eq_ok, and_assoc] at h
    obtain ⟨hb, hsc, hl, ty, ht, rm, hr, hx, hs, rfl⟩ := h
    exact encodes_regF hl rfl rfl (by simp [modF, mod_eq_formA v, *])
  case h_14 => -- FEXP2
    simp [fOne_eq_ok, and_assoc] at h
    obtain ⟨hb, hsc, hl, ty, ht, rm, hr, hx, hty, rfl⟩ := h
    exact encodes_regF hl (by simpa [Instr.wf] using hty) rfl (by simp [modF, mod_eq_formA v, *])
  case h_15 => -- FLOG2
    simp [fOne_eq_ok, and_assoc] at h
    obtain ⟨hb, hsc, hl, ty, ht, rm, hr, hx, hty, hs, rfl⟩ := h
    exact encodes_regF hl (by simpa [Instr.wf] using hty) rfl (by simp [modF, mod_eq_formA v, *])
  case h_16 => -- FTRIG
    simp [fOne_eq_ok, and_assoc] at h
    obtain ⟨hb, hsc, hl, ty, ht, rm, hr, hx, hty, hs, rfl⟩ := h
    exact encodes_regF hl (by simpa [Instr.wf] using hty) rfl (by simp [modF, mod_eq_formA v, formA_inj, append_eq_iff, *])
  case h_18 => -- CVTF
    simp [fOne_eq_ok, and_assoc, cvtDir_ofCode_eq_some] at h
    obtain ⟨hb, hsc, hl, ty, ht, rm, hr, dir, hx, hd, rfl⟩ := h
    refine encodes_regF hl ?_ rfl (by simp [modF, mod_eq_formA v, *])
    cases dir with
    | toCode f => rfl
    | fromCode f => exact hd f rfl
  case h_19 => -- CVTI
    simp [fOne_eq_ok, and_assoc] at h
    obtain ⟨hb, hsc, hl, ty, ht, rm, hr, hx, hs, ity, hi, rfl⟩ := h
    refine encodes_regF hl (by simpa [Instr.wf] using hs) rfl ?_
    simp [modF, mod_eq_formA v, formA_inj, append_eq_iff, ← hi, hb, hsc, ht, hr, hx]
  case h_20 => -- QBLK
    simp [View.fty, View.rm] at h
    obtain ⟨hl, ty, ht, rm, hr, fmt, hx, ⟨hs, hfmt⟩, rfl⟩ := h
    refine encodes_regF hl ?_ rfl (by simp [modF, mod_eq_formA v, *])
    simpa [Instr.wf] using hfmt
  case h_21 => -- DQBLK
    simp [View.fty, View.rm] at h
    obtain ⟨hsc, hl, hx, ty, ht, rm, hr, hty, rfl⟩ := h
    exact encodes_regF hl (by simpa [Instr.wf] using hty) rfl (by simp [modF, mod_eq_formA v, *])
  case h_22 => -- HADM
    simp [fOne_eq_ok] at h
    obtain ⟨hb, hsc, hl, ty, ht, rm, hr, hx, rfl⟩ := h
    exact encodes_regF hl rfl rfl (by simp [modF, mod_eq_formA v, formA_inj, append_eq_iff, *])
  case h_23 => -- FDOT
    simp [View.fty, View.rm] at h
    obtain ⟨hl, hx, ty, ht, rm, hr, hty, rfl⟩ := h
    exact encodes_regF hl (by simpa [Instr.wf] using hty) rfl (by simp [modF, mod_eq_formA v, *])
  case h_24 => -- FRED
    simp [fOne_eq_ok] at h
    obtain ⟨hb, hsc, hl, ty, ht, rm, hr, hx, o, ho, hs, rfl⟩ := h
    exact encodes_regF hl (by simpa [Instr.wf] using hs) rfl (by simp [modF, mod_eq_formA v, formA_inj, append_eq_iff, *])
  case h_25 => -- FSRN
    simp [and_assoc, View.fty] at h
    obtain ⟨hsc, hl, hr, hx, ty, ht, dst, hd, hty, hdst, rfl⟩ := h
    refine encodes_regF hl (by simpa [Instr.wf] using ⟨hty, hdst⟩) rfl ?_
    simp [modF, RM.code, mod_eq_formA v, formA_inj, append_eq_iff, ← hd, hsc, hr, hx, ht]
  case h_26 => -- FPACK
    obtain rfl : n = 0x59 := by simp only [imp_false] at *; omega
    simp [View.fty, View.rm] at h
    obtain ⟨hsc, hl, ty, ht, rm, hr, dst, hd, hpos, rfl⟩ := h
    refine encodes_regF hl (by simpa [Instr.wf] using hpos) rfl ?_
    simp [modF, mod_eq_formA v, formA_inj, append_eq_iff, ← hd, hsc, ht, hr]

/-! ### MEM (13 Tables 13-2 and 13-6) -/

theorem encodes_load {v : View} (hv : LitPlain v) {op : BitVec 8} {part : Bool} {mk : Ctl → Desc → Desc → SrcB → LdMods → Instr} {i : Instr}
    (h : v.load part mk = .ok i) (hw : ∀ c d a b m, (mk c d a b m).wf = m.fits c b part)
    (hf : ∀ c d a b m, (mk c d a b m).fields = some (ldF op c d a b m)) : Encodes v op i := by
  simp [View.load, and_assoc, View.tyc, View.ch] at h
  obtain ⟨hsc, hz, hp, ty, ht, htag, rfl⟩ := h
  refine encodes_srcF ((hw ..).trans ?_) (hf ..) (by simp [LdMods.code, append_eq_iff, *])
  simp only [LdMods.fits, Bool.and_eq_true]
  exact ⟨⟨by simpa using htag, by simpa using hp.symm⟩, fits_b hv fun ⟨_, _, _, _, _, _⟩ => by simp_all⟩

theorem encodes_store {v : View} (hv : LitPlain v) {op : BitVec 8} {mk : Ctl → Desc → Desc → SrcB → Desc → StMods → Instr} {i : Instr}
    (h : v.store mk = .ok i) (hw : ∀ c d a b e m, (mk c d a b e m).wf = m.fits c b e)
    (hf : ∀ c d a b e m, (mk c d a b e m).fields = some (stF op c d a b e m)) : Encodes v op i := by
  simp [View.store, and_assoc, View.tyc, View.ch] at h
  obtain ⟨hz, hp, htag, ty, ht, rfl⟩ := h
  refine encodes_srcF ((hw ..).trans ?_) (hf ..) (by simp [StMods.code, append_eq_iff, *])
  simp only [StMods.fits, Bool.and_eq_true]
  exact ⟨by simpa using htag, fits_b hv fun ⟨_, _, _, _, _, _⟩ => by simp_all⟩

/-- STSC.PUSH: bit 12 of MOD is set, so there is no literal form. -/
theorem encodes_push {v : View} (hv : LitPlain v) (hm : v.m.getLsbD 12 = true) {i : Instr} (h : v.push = .ok i) : Encodes v 0x61 i := by
  have hl : v.lit = none := lit_eq_none_of_mod hv fun h0 => by simp [h0] at hm
  simp [View.push, and_assoc, View.tyc, View.ch] at h
  obtain ⟨hz, hd, hb, htag, ht, rfl⟩ := h
  exact encodes_regF hl (by simpa [Instr.wf] using htag) rfl (by simp_all [append_eq_iff])

/-- SCOPE of an atomic: 0, or 4 where .PKG is accepted (09 R173). -/
theorem atomicScope {m : BitVec 13} {pkg : Bool} (h : m.extractLsb' 6 3 = 0#3 ∨ pkg = true ∧ m.extractLsb' 6 3 = 4#3) :
    m.extractLsb' 6 2 = 0#2 ∧ (m[8] = false ∨ pkg = true) := by
  have hs : m.extractLsb' 6 3 = BitVec.ofBool m[8] ++ m.extractLsb' 6 2 := (slice_split m 6 2 1).trans (by simp)
  rw [hs] at h
  rcases h with h | ⟨rfl, h⟩
  · have := append_eq_iff.1 h
    cases hb : m[8] <;> simp_all
  · have := append_eq_iff.1 h
    simp_all

theorem encodes_atomic {v : View} (hv : LitPlain v) {op : BitVec 8} {pkg : Bool} {mk : Ctl → Desc → Desc → SrcB → Desc → AmMods → Instr}
    {i : Instr} (h : v.atomic pkg mk = .ok i) (hw : ∀ c d a b e m, (mk c d a b e m).wf = m.fits c b e pkg)
    (hf : ∀ c d a b e m, (mk c d a b e m).fields = some (amF op c d a b e m)) : Encodes v op i := by
  simp [View.atomic, and_assoc, View.tyc, View.ch] at h
  obtain ⟨ht, hscope, o, ho, hincw, hcas, rfl⟩ := h
  obtain ⟨hz, hpkg⟩ := atomicScope hscope
  refine encodes_srcF ((hw ..).trans ?_) (hf ..) (by simp [AmMods.code, append_eq_iff, *])
  simp only [AmMods.fits, Bool.and_eq_true]
  exact ⟨⟨⟨by simpa using hpkg, by simpa using hincw⟩, by simpa using hcas⟩, fits_b hv fun ⟨_, _, _, _, _, _⟩ => by simp_all⟩

/-- BARW, of the crew (SCOPE 1) or the convoy (SCOPE 2). -/
theorem encodes_barw {v : View} {i : Instr} (h : v.mem 0x74 = .ok i) : Encodes v 0x74 i := by
  simp [View.mem, and_assoc, View.noGuard] at h
  obtain ⟨hd, ha, hb, hs, hg, hp, hl, hz, hz', h⟩ := h
  have scope {k : BitVec 3} (hk : v.m.extractLsb' 6 3 = k) : v.m.extractLsb' 4 9 = 0#4 ++ k ++ 0#2 := by
    symm
    simp [append_eq_iff, *]
  split at h
  case isTrue hk =>
    cases h
    have hk := scope hk
    exact encodes_regF hl rfl rfl (by simp [append_eq_iff, *])
  case isFalse =>
    simp [and_assoc] at h
    obtain ⟨hk, hid, rfl⟩ := h
    have hk := scope hk
    refine encodes_regF hl ?_ rfl (by simp [append_eq_iff, *])
    simpa [Instr.wf] using bit_three_eq_false.1 (show (v.m.extractLsb' 0 4)[3] = false by simpa using hid)

theorem encodes_mem {v : View} (hv : LitPlain v) {n : Nat} (h0 : 0x60 ≤ n) (hn : n < 0x7C) {i : Instr} (h : v.mem n = .ok i) :
    Encodes v (BitVec.ofNat 8 n) i := by
  have hmem := h
  unfold View.mem at h
  split at h
  case h_1 | h_4 | h_7 | h_10 | h_13 | h_16 => -- LDSC, LDSH, LDCV, LDDV, LDPR, LDHS
    exact encodes_load hv h (fun _ _ _ _ _ => rfl) fun _ _ _ _ _ => rfl
  case h_2 => -- STSC
    split at h
    case isTrue hm => exact encodes_push hv hm h
    case isFalse => exact encodes_store hv h (fun _ _ _ _ _ _ => rfl) fun _ _ _ _ _ _ => rfl
  case h_5 | h_8 | h_11 | h_14 | h_17 => -- STSH, STCV, STDV, STPR, STHS
    exact encodes_store hv h (fun _ _ _ _ _ _ => rfl) fun _ _ _ _ _ _ => rfl
  case h_3 | h_6 | h_9 | h_12 | h_15 | h_18 => -- AMSC, AMSH, AMCV, AMDV, AMPR, AMHS
    exact encodes_atomic hv h (fun _ _ _ _ _ _ => rfl) fun _ _ _ _ _ _ => rfl
  case h_19 | h_20 => -- FENCE, WAITC
    simp [and_assoc] at h
    obtain ⟨hd, ha, hb, hs, hl, hz, hz', s, hc, rfl⟩ := h
    exact encodes_regF hl rfl rfl (by simp [append_eq_iff, *])
  case h_21 => exact encodes_barw hmem
  case h_22 => -- WAITV
    simp [and_assoc] at h
    obtain ⟨hs, hz, hz', sp, hsp, cond, hc, rfl⟩ := h
    exact encodes_srcF (fits_b hv fun ⟨_, _, _, _, _, _⟩ => by simp_all) rfl (by simp [append_eq_iff, *])
  case h_23 => -- PREF
    simp [and_assoc] at h
    obtain ⟨hd, hs, hz, rfl⟩ := h
    exact encodes_srcF (fits_b hv fun ⟨_, _, _, _, _, _⟩ => by simp_all) rfl (by simp [append_eq_iff, *])
  case h_24 | h_26 => -- DISC, SWB
    simp [and_assoc] at h
    obtain ⟨hd, hs, hm, rfl⟩ := h
    exact encodes_srcF (fits_b hv fun _ => rfl) rfl (by simp [*])
  case h_25 => -- SMAP
    simp at h
    obtain ⟨hd, hl, hz, h⟩ := h
    have bitTwo {b : Bool} (hb : v.m[2] = b) : v.m.extractLsb' 2 11 = 0#10 ++ BitVec.ofBool b :=
      (slice_split v.m 2 1 10).trans (by simp [hz, hb])
    split at h
    case isTrue hm =>
      simp [and_assoc] at h
      obtain ⟨ha, hb, hs, rfl⟩ := h
      have hm := bitTwo hm
      exact encodes_regF hl rfl rfl (by simp [append_eq_iff, *])
    case isFalse hm =>
      cases h
      have hm := bitTwo (Bool.eq_false_of_not_eq_true hm)
      exact encodes_regF hl rfl rfl (by simp [append_eq_iff, *])
  case h_27 => -- CCTL
    simp [and_assoc] at h
    obtain ⟨hd, hs, hz, o, ho, rfl⟩ := h
    exact encodes_srcF (fits_b hv fun ⟨_, _, _, _, _, _⟩ => by simp_all) rfl (by simp [append_eq_iff, *])
  case h_28 => -- EVPOP
    obtain rfl : n = 0x7B := by simp only [imp_false] at *; omega
    simp [and_assoc] at h
    obtain ⟨hb, hs, ha, hl, hz, rfl⟩ := h
    exact encodes_regF hl (by simpa [Instr.wf] using ha) rfl (by simp [append_eq_iff, *])

end Sys2Proof.Laws
end

section
/-!
PROOFS. The words of MTX, GRV, CPY and SYS (08 R152, 14 R263), and every 64-bit word that is accepted.
-/
namespace Sys2Proof.Laws

open Sys2Proof Sys2Proof.Ob

/-! ### MTX (14 Table 14-2) -/

/-- MOD of MRES: bit 3 says that KD is there, the low bits select the engine. -/
theorem mresMod_eq {m : BitVec 13} {kd : Bool} {sel : BitVec 3} :
    0#9 ++ bit1 kd ++ sel = m ↔ m.extractLsb' 4 9 = 0#9 ∧ m[3] = kd ∧ sel = BitVec.ofBool m[2] ++ m.extractLsb' 0 2 := by
  have hs : m.extractLsb' 0 3 = BitVec.ofBool m[2] ++ m.extractLsb' 0 2 := (slice_split m 0 2 1).trans (by simp)
  have hb {x y : Bool} : BitVec.ofBool x = BitVec.ofBool y ↔ y = x := by cases x <;> cases y <;> decide
  simp [append_eq_iff, and_assoc, hs, hb, eq_comm (a := 0#9)]

/-- MRES of an engine, of any engine (bit 2 of MOD) or of the Gravel engine (code 5). -/
theorem encodes_mres {v : View} {i : Instr} (h : v.mtx 0x80 = .ok i) : Encodes v 0x80 i := by
  simp [View.mtx, and_assoc] at h
  obtain ⟨pd, hd, ha, hs, hb, hl, hz, h⟩ := h
  have hkd : (optCode (if v.m[3] then some v.bd else none)) = v.sb := by
    cases hk : v.m[3] <;> simp_all [optCode]
  have hsome : (if v.m[3] then some v.bd else none).isSome = v.m[3] := by
    cases v.m[3] <;> rfl
  split at h
  case isTrue h2 =>
    split at h
    case isTrue he =>
      cases h
      exact encodes_regF hl rfl rfl (by simp [mresMod_eq, MSel.code, *])
    case isFalse =>
      simp at h
      obtain ⟨⟨he, hk⟩, rfl⟩ := h
      have hm : 5#13 = v.m := (mresMod_eq (kd := false) (sel := 5)).2 (by simp [*])
      exact encodes_regF hl rfl rfl (by simp_all)
  case isFalse h2 =>
    cases h
    exact encodes_regF hl rfl rfl (by simp [mresMod_eq, MSel.code, *])

/-- MREL of an engine, or of the Gravel engine (code 5). -/
theorem encodes_mrel {v : View} {i : Instr} (h : v.mtx 0x81 = .ok i) : Encodes v 0x81 i := by
  simp [View.mtx, and_assoc] at h
  obtain ⟨hd, ha, hb, hs, hl, hz, h⟩ := h
  have hm : v.m = (0#10 ++ BitVec.ofBool v.m[2]) ++ v.m.extractLsb' 0 2 := by
    symm
    simp [append_eq_iff, hz]
  split at h
  case isTrue h2 =>
    simp at h
    obtain ⟨he, rfl⟩ := h
    rw [h2, he] at hm
    exact encodes_regF hl rfl rfl (by simp [*])
  case isFalse h2 =>
    cases h
    rw [Bool.eq_false_of_not_eq_true h2] at hm
    exact encodes_regF hl rfl rfl ⟨rfl, hd.symm, ha.symm, hb.symm, hs.symm, hm.symm⟩

theorem encodes_mtx {v : View} (hv : LitPlain v) {n : Nat} (h0 : 0x80 ≤ n) (hn : n < 0x8E) {i : Instr} (h : v.mtx n = .ok i) :
    Encodes v (BitVec.ofNat 8 n) i := by
  have hmtx := h
  unfold View.mtx at h
  split at h
  case h_1 => exact encodes_mres hmtx
  case h_2 => exact encodes_mrel hmtx
  case h_3 => -- MLDB
    simp [and_assoc] at h
    obtain ⟨p, hd, hs, hb, hl, hz, rfl⟩ := h
    cases hm : v.m[0] <;> exact encodes_regF hl rfl rfl (by simp_all [append_eq_iff, View.eng, optCode])
  case h_4 => -- MRING
    simp at h
    obtain ⟨hd, hl, hz, rfl⟩ := h
    exact encodes_regF hl rfl rfl (by simp [append_eq_iff, View.eng, *])
  case h_5 => -- MMA
    simp [and_assoc] at h
    obtain ⟨p, ha, hl, hz, hboff, hsh, cls, hc, hn8, rfl⟩ := h
    have hw : ((if v.m[5] then some v.e else none).isNone || cls == .n8) = true := by
      cases h5 : v.m[5] <;> simp_all
    refine encodes_regF hl (by simpa [Instr.wf] using hw) rfl ?_
    cases h2 : v.m[2] <;> cases h5 : v.m[5] <;> simp_all [append_eq_iff, View.eng, optCode]
  case h_6 => -- MCMT
    simp [and_assoc] at h
    obtain ⟨hd, hb, hs, hl, hz, rfl⟩ := h
    exact encodes_regF hl rfl rfl (by simp [append_eq_iff, View.eng, *])
  case h_7 => -- MZERO
    simp [and_assoc] at h
    obtain ⟨ha, hs, hz, rfl⟩ := h
    exact encodes_srcF (fits_b hv fun ⟨_, _, _, _, _, _⟩ => by simp_all [View.eng]) rfl (by simp [append_eq_iff, View.eng, *])
  case h_8 | h_9 => -- MSTC, MLDC
    simp at h
    obtain ⟨hl, hz, rfl⟩ := h
    exact encodes_regF hl rfl rfl (by simp [append_eq_iff, View.eng, *])
  case h_10 | h_12 => -- MFNC, TASKQ
    simp [and_assoc] at h
    obtain ⟨h1, h2, h3, hl, hm, rfl⟩ := h
    exact encodes_regF hl rfl rfl (by simp [*])
  case h_11 => -- MWAIT
    simp [and_assoc] at h
    obtain ⟨hd, ha, hs, hm, rfl⟩ := h
    exact encodes_srcF (fits_b hv fun _ => rfl) rfl (by simp [*])
  case h_13 => -- TSTEN
    simp at h
    obtain ⟨hd, hl, hm, rfl⟩ := h
    exact encodes_regF hl rfl rfl (by simp [*])
  case h_14 => -- AOWN
    obtain rfl : n = 0x8D := by simp only [imp_false] at *; omega
    simp [and_assoc] at h
    obtain ⟨hb, hs, hl, hz, h⟩ := h
    have low : v.m.extractLsb' 0 11 = 0#10 ++ BitVec.ofBool v.m[0] := (slice_split v.m 0 1 10).trans (by simp [hz])
    split at h
    case isTrue hm =>
      cases h
      rw [hm] at low
      exact encodes_regF hl rfl rfl (by simp [append_eq_iff, View.eng, *])
    case isFalse hm =>
      cases h
      rw [Bool.eq_false_of_not_eq_true hm] at low
      exact encodes_regF hl rfl rfl (by simp [append_eq_iff, View.eng, *])

/-! ### GRV (14 Table 14-5) -/

theorem encodes_grv {v : View} (hv : LitPlain v) {n : Nat} (h0 : 0x90 ≤ n) (hn : n < 0x9C) {i : Instr} (h : v.grv n = .ok i) :
    Encodes v (BitVec.ofNat 8 n) i := by
  unfold View.grv at h
  split at h
  case h_1 => -- GGEN
    simp [and_assoc] at h
    obtain ⟨gd, hd, hb, hs, hl, hz, rfl⟩ := h
    exact encodes_regF hl rfl rfl (by simp [append_eq_iff, *])
  case h_2 => -- GCNT
    simp [and_assoc] at h
    obtain ⟨gs, ha, hb, hs, hl, hz, k, hk, rfl⟩ := h
    exact encodes_regF hl rfl rfl (by simp [append_eq_iff, *])
  case h_3 | h_4 => -- GAND, GXNR
    simp [View.gTwo] at h
    obtain ⟨gd, hd, ga, ha, gb, hb, hs, hl, hz, rfl⟩ := h
    exact encodes_regF hl rfl rfl (by simp [append_eq_iff, *])
  case h_5 => -- GMUX
    simp at h
    obtain ⟨gd, hd, ga, ha, gb, hb, gs, hs, hl, hz, rfl⟩ := h
    exact encodes_regF hl rfl rfl (by simp [append_eq_iff, *])
  case h_6 => -- GACC
    simp [and_assoc] at h
    obtain ⟨ga, ha, hb, hs, hl, hz, rfl⟩ := h
    exact encodes_regF hl rfl rfl (by simp [append_eq_iff, *])
  case h_7 => -- GREG
    simp [and_assoc] at h
    obtain ⟨gd, hd, gs, ha, hb, hs, hl, hz, rfl⟩ := h
    exact encodes_regF hl rfl rfl (by simp [append_eq_iff, *])
  case h_8 => -- GSHF
    simp [and_assoc] at h
    obtain ⟨gd, hd, gs, ha, hs, hm, rfl⟩ := h
    exact encodes_srcF (fits_b hv fun _ => rfl) rfl (by simp [*])
  case h_9 => -- GCMP
    simp at h
    obtain ⟨gs, ha, hs, hl, hz, rfl⟩ := h
    exact encodes_regF hl rfl rfl (by simp [append_eq_iff, *])
  case h_10 => -- GLEN
    simp [and_assoc] at h
    obtain ⟨hd, ha, hs, hm, rfl⟩ := h
    exact encodes_srcF (fits_b hv fun _ => rfl) rfl (by simp [*])
  case h_11 => -- GSEED
    simp [and_assoc] at h
    obtain ⟨hd, ha, hs, hz, rfl⟩ := h
    exact encodes_srcF (fits_b hv fun ⟨_, _, _, _, _, _⟩ => by simp_all) rfl (by simp [append_eq_iff, *])
  case h_12 => -- GMOV between g registers, from one (code 2) and into one (code 1)
    obtain rfl : n = 0x9B := by simp only [imp_false] at *; omega
    simp [and_assoc] at h
    obtain ⟨hb, hs, h⟩ := h
    have mod_eq {k : BitVec 2} (hk : v.m.extractLsb' 0 2 = k) (hz : v.m.extractLsb' 2 11 = 0#11) : v.m = 0#11 ++ k := by
      symm
      simp [append_eq_iff, hk, hz]
    split at h
    case isTrue hk =>
      simp at h
      obtain ⟨gd, hd, hl, hz, rfl⟩ := h
      have hm := mod_eq hk hz
      exact encodes_regF hl rfl rfl (by simp [*])
    case isFalse =>
      split at h
      case isTrue hk =>
        simp at h
        obtain ⟨gs, ha, hl, hz, rfl⟩ := h
        have hm := mod_eq hk hz
        exact encodes_regF hl rfl rfl (by simp [*])
      case isFalse =>
        simp at h
        obtain ⟨gd, hd, gs, ha, hl, hm, rfl⟩ := h
        exact encodes_regF hl rfl rfl (by simp [*])

/-! ### CPY and SYS (14 Tables 14-6 and 14-7) -/

theorem encodes_cpy {v : View} (hv : LitPlain v) {n : Nat} (h0 : 0xA0 ≤ n) (hn : n < 0xA8) {i : Instr} (h : v.cpy n = .ok i) :
    Encodes v (BitVec.ofNat 8 n) i := by
  unfold View.cpy at h
  split at h
  case h_1 => -- COPY
    simp [and_assoc] at h
    obtain ⟨htag, hz, dsp, hd, ssp, hs, cv, hc, rfl⟩ := h
    have hb : v.b.fits v.c (dsp == .sc && ssp == .sc && cv == .none && !v.m.getLsbD 10) = true :=
      fits_b hv fun ⟨_, _, _, _, _, _⟩ => by simp_all
    exact encodes_srcF (Bool.and_eq_true_iff.2 ⟨by simpa using htag, hb⟩) rfl (by simp [append_eq_iff, *])
  case h_2 => -- CPY2
    simp at h
    obtain ⟨hs, hl, hz, dsp, hd, ssp, hss, rfl⟩ := h
    exact encodes_regF hl rfl rfl (by simp [append_eq_iff, *])
  case h_3 => -- TASK
    simp at h
    obtain ⟨hd, hl, hm, rfl⟩ := h
    exact encodes_regF hl rfl rfl (by simp [*])
  case h_4 => -- SGNL
    simp [and_assoc] at h
    obtain ⟨hd, hs, hl, hz, hz', s, hc, rfl⟩ := h
    exact encodes_regF hl rfl rfl (by simp [append_eq_iff, *])
  case h_5 => -- GRID
    simp [and_assoc] at h
    obtain ⟨hd, hs, hm, rfl⟩ := h
    exact encodes_srcF (fits_b hv fun _ => rfl) rfl (by simp [*])
  case h_6 => -- CMSG
    simp [and_assoc] at h
    obtain ⟨hd, hs, hl, hm, rfl⟩ := h
    exact encodes_regF hl rfl rfl (by simp [*])
  case h_7 => -- CBUF
    simp at h
    obtain ⟨pd, hd, hs, hl, hz, rfl⟩ := h
    exact encodes_regF hl rfl rfl (by simp [append_eq_iff, *])
  case h_8 => -- COLL
    obtain rfl : n = 0xA7 := by simp only [imp_false] at *; omega
    simp [and_assoc] at h
    obtain ⟨hl, o, ho, hroot, hty, rfl⟩ := h
    exact encodes_regF hl (by simpa [Instr.wf] using ⟨hroot, hty⟩) rfl (by simp [append_eq_iff, *])

theorem encodes_sys {v : View} {n : Nat} (h0 : 0xB0 ≤ n) (hn : n < 0xB6) {i : Instr} (h : v.sys n = .ok i) :
    Encodes v (BitVec.ofNat 8 n) i := by
  unfold View.sys at h
  split at h
  case h_1 => -- TRAP
    simp [and_assoc] at h
    obtain ⟨hd, ha, hb, hs, hl, hz, rfl⟩ := h
    exact encodes_regF hl rfl rfl (by simp [append_eq_iff, *])
  case h_2 => -- RTE
    simp [and_assoc, View.noGuard] at h
    obtain ⟨hd, ha, hb, hs, hg, hp, hl, hm, rfl⟩ := h
    exact encodes_regF hl rfl rfl (by simp [*])
  case h_3 | h_4 => -- SYSR, SYSW
    simp [and_assoc] at h
    obtain ⟨h1, h2, h3, hl, hz, rfl⟩ := h
    exact encodes_regF hl rfl rfl (by simp [append_eq_iff, *])
  case h_5 => -- PROBE
    simp [and_assoc] at h
    obtain ⟨hb, hs, hl, hz, sp, hsp, k, hk, rfl⟩ := h
    exact encodes_regF hl rfl rfl (by simp [append_eq_iff, *])
  case h_6 => -- ACHK
    obtain rfl : n = 0xB5 := by simp only [imp_false] at *; omega
    simp [and_assoc] at h
    obtain ⟨hd, ha, hb, hs, hl, hm, rfl⟩ := h
    exact encodes_regF hl rfl rfl (by simp [*])

end Sys2Proof.Laws
end

section
/-!
PROOFS. A word of 64 bits is the word of its fields, and what the decoder makes of them is well formed (08 R152).
-/
namespace Sys2Proof.Laws

open Sys2Proof Sys2Proof.Ob

theorem pack_unpack (w : DWord) : (Fields.unpack w).pack = w := by
  unfold Fields.unpack Fields.pack
  cases hl : w.getLsbD 53 <;> simp_all [append_eq_iff, Low.bits, Low.isLit]

/-- An accepted view of an assigned opcode encodes the instruction, class by class (09 Table 9-1). -/
theorem encodes_of_readView {v : View} (hv : LitPlain v) {n : Nat} (ha : opAssigned n = true) {i : Instr} (h : readView v n = .ok i) :
    Encodes v (BitVec.ofNat 8 n) i := by
  simp [opAssigned] at ha
  unfold readView at h
  split at h
  · exact encodes_uni hv (by omega) h
  split at h
  · exact encodes_vecInt hv (by omega) (by omega) h
  split at h
  · exact encodes_vecFloat hv (by omega) (by omega) h
  split at h
  · exact encodes_mem hv (by omega) (by omega) h
  split at h
  · exact encodes_mtx hv (by omega) (by omega) h
  split at h
  · exact encodes_grv hv (by omega) (by omega) h
  split at h
  · exact encodes_cpy hv (by omega) (by omega) h
  · exact encodes_sys (by omega) (by omega) h

theorem encode_of_decode {w : DWord} {i : Instr} (ha : opAssigned (w.extractLsb' 56 8).toNat = true) (h : decode w = .ok i) :
    i.wf = true ∧ encode i = some (.kalgil w) := by
  have hd : readView (Fields.unpack w).view (Fields.unpack w).op.toNat = .ok i := by
    rw [← decodeFields_eq, ← h]
    exact (if_pos ha).symm
  obtain ⟨hw, hf⟩ := encodes_of_readView (litPlain_view _) ha hd
  rw [BitVec.ofNat_toNat, BitVec.setWidth_eq] at hf
  have hf := hf.trans (congrArg some (fieldsOf_view (Fields.unpack w)))
  exact ⟨hw, (encode_of_fields hf).trans (by rw [pack_unpack])⟩

end Sys2Proof.Laws
end

section
/-!
PROOFS. A Cairn core's word of 32 bits that decodes is the word of the well-formed instruction it decodes to (07 R127), format by format.
-/
namespace Sys2Proof.Laws

open Sys2Proof Sys2Proof.Ob
open BitVec (eq_of_toNat_eq)

/-! ### A word is its fields put together, format by format -/

/-- Format I. -/
theorem rvI_eq {w : Word} {imm : BitVec 12} {rs1 rd : BitVec 5} {f3 : BitVec 3} {opc : BitVec 7} (ho : w.extractLsb' 0 7 = opc)
    (h3 : w.extractLsb' 12 3 = f3) (hd : w.extractLsb' 7 5 = rd) (h1 : w.extractLsb' 15 5 = rs1) (hi : w.extractLsb' 20 12 = imm) :
    rvI imm rs1 f3 rd opc = w := by
  subst ho h3 hd h1 hi
  simp [rvI, append_eq_iff]

/-- Format R. -/
theorem rvR_eq {w : Word} {f7 : BitVec 7} {rs2 rs1 rd : BitVec 5} {f3 : BitVec 3} {opc : BitVec 7} (ho : w.extractLsb' 0 7 = opc)
    (h3 : w.extractLsb' 12 3 = f3) (h7 : w.extractLsb' 25 7 = f7) (hd : w.extractLsb' 7 5 = rd) (h1 : w.extractLsb' 15 5 = rs1)
    (h2 : w.extractLsb' 20 5 = rs2) : rvR f7 rs2 rs1 f3 rd opc = w := by
  subst ho h3 h7 hd h1 h2
  simp [rvR, append_eq_iff]

/-- Format S. -/
theorem rvS_eq {w : Word} {f3 : BitVec 3} {opc : BitVec 7} (ho : w.extractLsb' 0 7 = opc) (h3 : w.extractLsb' 12 3 = f3) :
    rvS (w.extractLsb' 25 7 ++ w.extractLsb' 7 5) (w.extractLsb' 20 5) (w.extractLsb' 15 5) f3 opc = w := by
  subst ho h3
  simp [rvS, append_eq_iff]

/-- Format B. -/
theorem rvB_eq {w : Word} {f3 : BitVec 3} {opc : BitVec 7} (ho : w.extractLsb' 0 7 = opc) (h3 : w.extractLsb' 12 3 = f3) :
    rvB (w.extractLsb' 31 1 ++ w.extractLsb' 7 1 ++ w.extractLsb' 25 6 ++ w.extractLsb' 8 4 ++ 0#1) (w.extractLsb' 20 5) (w.extractLsb' 15 5)
      f3 opc = w := by
  subst ho h3
  simp [rvB, append_eq_iff]

/-- Format J. -/
theorem rvJ_eq {w : Word} {opc : BitVec 7} (ho : w.extractLsb' 0 7 = opc) :
    rvJ (w.extractLsb' 31 1 ++ w.extractLsb' 12 8 ++ w.extractLsb' 20 1 ++ w.extractLsb' 21 10 ++ 0#1) (w.extractLsb' 7 5) opc = w := by
  subst ho
  simp [rvJ, append_eq_iff]

/-- Format U. -/
theorem rvU_eq {w : Word} {opc : BitVec 7} (ho : w.extractLsb' 0 7 = opc) : w.extractLsb' 12 20 ++ w.extractLsb' 7 5 ++ opc = w := by
  subst ho
  simp [append_eq_iff]

/-! ### The fields of a shift -/

/-- The immediate of a shift is its code above the amount. -/
theorem shiftImm_eq {w : Word} {c : BitVec 6} (h : w.extractLsb' 26 6 = c) : w.extractLsb' 20 12 = c ++ w.extractLsb' 20 6 :=
  h ▸ slice_split w 20 6 6

/-- A 32-bit shift has the code in the seven upper bits: the amount's bit 5 is 0. -/
theorem wordShift_of_funct7 {w : Word} {c : BitVec 6} (h : w.extractLsb' 25 7 = c ++ 0#1) :
    w.extractLsb' 26 6 = c ∧ (!(w.extractLsb' 20 6).getLsbD 5) = true := by
  have hs := congrArg (·.extractLsb' 1 6) h
  have hb := congrArg (·[0]) h
  simp at hs hb
  exact ⟨hs, by simp [hb]⟩

/-! ### Codes that no function of one value gives -/

theorem code_of_rvCsr_ofCode {c : BitVec 12} {x : RvCsr} (h : RvCsr.ofCode c = some x) : c = x.code := by
  unfold RvCsr.ofCode at h
  split at h <;> cases h
  all_goals exact eq_of_toNat_eq ‹_›

theorem code_of_rvOp_ofCode {f7 : BitVec 7} {f3 : BitVec 3} {b : Bool} {op : RvOp} (h : RvOp.ofCode f7 f3 b = some op) :
    op.code = (f7, f3, b) := by
  unfold RvOp.ofCode at h
  split at h <;> cases h
  all_goals
    rename_i h7 h3
    exact Prod.ext (eq_of_toNat_eq h7.symm) (Prod.ext (eq_of_toNat_eq h3.symm) rfl)

/-! ### The words of 07 Table 7-2 and of the RV64 base -/

theorem cairnWord_of_decodeCustom0 {w : Word} {i : Instr} (ho : w.extractLsb' 0 7 = custom0) (h : decodeCustom0 w = some i) :
    i.wf = true ∧ i.cairnWord = some w := by
  unfold decodeCustom0 at h
  dsimp only at h
  split at h
  case h_1 hf =>
    cases h
    exact ⟨rfl, congrArg some (rvI_eq ho (eq_of_toNat_eq hf) rfl rfl rfl)⟩
  case h_2 hf =>
    obtain ⟨h1, ⟨⟩⟩ := Option.ite_none_right_eq_some.1 h
    exact ⟨rfl, congrArg some (rvI_eq ho (eq_of_toNat_eq hf) rfl h1 rfl)⟩
  case h_3 hf =>
    obtain ⟨⟨h1, hi⟩, ⟨⟩⟩ := Option.ite_none_right_eq_some.1 h
    exact ⟨rfl, congrArg some (rvI_eq ho (eq_of_toNat_eq hf) rfl h1 hi)⟩
  case h_4 hf =>
    obtain ⟨⟨hd, h1⟩, ⟨⟩⟩ := Option.ite_none_right_eq_some.1 h
    exact ⟨rfl, congrArg some (rvI_eq ho (eq_of_toNat_eq hf) hd h1 rfl)⟩
  case h_5 hf =>
    obtain ⟨h1, ⟨⟩⟩ := Option.ite_none_right_eq_some.1 h
    exact ⟨rfl, congrArg some (rvI_eq ho (eq_of_toNat_eq hf) rfl h1 rfl)⟩
  case h_6 hf =>
    obtain ⟨⟨hd, h1, hi⟩, ⟨⟩⟩ := Option.ite_none_right_eq_some.1 h
    exact ⟨rfl, congrArg some (rvI_eq ho (eq_of_toNat_eq hf) hd h1 hi)⟩
  case h_7 => cases h

theorem cairnWord_of_decodeCustom1 {w : Word} {i : Instr} (ho : w.extractLsb' 0 7 = custom1) (h : decodeCustom1 w = some i) :
    i.wf = true ∧ i.cairnWord = some w := by
  unfold decodeCustom1 at h
  dsimp only at h
  split at h
  case h_1 hf =>
    cases h
    exact ⟨rfl, congrArg some (rvS_eq ho (eq_of_toNat_eq hf))⟩
  case h_2 hf | h_3 hf | h_6 hf =>
    obtain ⟨h7, ⟨⟩⟩ := Option.ite_none_right_eq_some.1 h
    exact ⟨rfl, congrArg some (rvR_eq ho (eq_of_toNat_eq hf) h7 rfl rfl rfl)⟩
  case h_4 hf =>
    obtain ⟨⟨h7, hd, h2⟩, ⟨⟩⟩ := Option.ite_none_right_eq_some.1 h
    exact ⟨rfl, congrArg some (rvR_eq ho (eq_of_toNat_eq hf) h7 hd rfl h2)⟩
  case h_5 hf =>
    obtain ⟨op, h7, rfl⟩ := Option.map_eq_some_iff.1 h
    exact ⟨rfl, congrArg some (rvR_eq ho (eq_of_toNat_eq hf) (clnAtom_ofCode_eq_some.1 h7) rfl rfl rfl)⟩
  case h_7 => cases h

theorem word_of_decodeRv {w : Word} {i : RvInstr} (h : decodeRv w = some i) : i.fits = true ∧ i.word = w := by
  unfold decodeRv at h
  dsimp only at h
  split at h
  case h_1 ho | h_2 ho =>
    cases h
    exact ⟨rfl, rvU_eq (eq_of_toNat_eq ho)⟩
  case h_3 ho =>
    cases h
    exact ⟨by simp [RvInstr.fits], rvJ_eq (eq_of_toNat_eq ho)⟩
  case h_4 ho =>
    obtain ⟨h3, ⟨⟩⟩ := Option.ite_none_right_eq_some.1 h
    exact ⟨rfl, rvI_eq (eq_of_toNat_eq ho) h3 rfl rfl rfl⟩
  case h_5 ho =>
    obtain ⟨op, h3, rfl⟩ := Option.map_eq_some_iff.1 h
    exact ⟨by simp [RvInstr.fits], rvB_eq (eq_of_toNat_eq ho) (rvBr_ofCode_eq_some.1 h3)⟩
  case h_6 ho =>
    obtain ⟨op, h3, rfl⟩ := Option.map_eq_some_iff.1 h
    exact ⟨rfl, rvI_eq (eq_of_toNat_eq ho) (rvLd_ofCode_eq_some.1 h3) rfl rfl rfl⟩
  case h_7 ho =>
    obtain ⟨op, h3, rfl⟩ := Option.map_eq_some_iff.1 h
    exact ⟨rfl, rvS_eq (eq_of_toNat_eq ho) (rvSt_ofCode_eq_some.1 h3)⟩
  case h_8 ho =>
    split at h
    case h_1 h3 | h_3 h3 | h_4 h3 | h_5 h3 | h_7 h3 =>
      cases h
      exact ⟨rfl, rvI_eq (eq_of_toNat_eq ho) (eq_of_toNat_eq h3) rfl rfl rfl⟩
    case h_2 h3 =>
      obtain ⟨h6, ⟨⟩⟩ := Option.ite_none_right_eq_some.1 h
      exact ⟨rfl, rvI_eq (eq_of_toNat_eq ho) (eq_of_toNat_eq h3) rfl rfl (shiftImm_eq h6)⟩
    case h_6 h3 =>
      split at h
      case isTrue h6 =>
        cases h
        exact ⟨rfl, rvI_eq (eq_of_toNat_eq ho) (eq_of_toNat_eq h3) rfl rfl (shiftImm_eq h6)⟩
      case isFalse =>
        obtain ⟨h6, ⟨⟩⟩ := Option.ite_none_right_eq_some.1 h
        exact ⟨rfl, rvI_eq (eq_of_toNat_eq ho) (eq_of_toNat_eq h3) rfl rfl (shiftImm_eq h6)⟩
    case h_8 =>
      cases h
      have h3 : w.extractLsb' 12 3 = 7 := eq_of_toNat_eq (by
        have hlt := (w.extractLsb' 12 3).isLt
        show _ = 7
        simp only [imp_false] at *
        omega)
      exact ⟨rfl, rvI_eq (eq_of_toNat_eq ho) h3 rfl rfl rfl⟩
  case h_9 ho =>
    split at h
    case h_1 h3 =>
      cases h
      exact ⟨rfl, rvI_eq (eq_of_toNat_eq ho) (eq_of_toNat_eq h3) rfl rfl rfl⟩
    case h_2 h3 =>
      obtain ⟨h7, ⟨⟩⟩ := Option.ite_none_right_eq_some.1 h
      obtain ⟨h6, h5⟩ := wordShift_of_funct7 (c := 0#6) h7
      exact ⟨h5, rvI_eq (eq_of_toNat_eq ho) (eq_of_toNat_eq h3) rfl rfl (shiftImm_eq h6)⟩
    case h_3 h3 =>
      split at h
      case isTrue h7 =>
        cases h
        obtain ⟨h6, h5⟩ := wordShift_of_funct7 (c := 0#6) h7
        exact ⟨h5, rvI_eq (eq_of_toNat_eq ho) (eq_of_toNat_eq h3) rfl rfl (shiftImm_eq h6)⟩
      case isFalse =>
        obtain ⟨h7, ⟨⟩⟩ := Option.ite_none_right_eq_some.1 h
        obtain ⟨h6, h5⟩ := wordShift_of_funct7 (c := 16#6) h7
        exact ⟨h5, rvI_eq (eq_of_toNat_eq ho) (eq_of_toNat_eq h3) rfl rfl (shiftImm_eq h6)⟩
    case h_4 => cases h
  case h_10 ho | h_11 ho =>
    obtain ⟨op, hc, rfl⟩ := Option.map_eq_some_iff.1 h
    have hc := code_of_rvOp_ofCode hc
    exact ⟨rfl, by rw [RvInstr.word, hc]; exact rvR_eq (eq_of_toNat_eq ho) rfl rfl rfl rfl rfl⟩
  case h_12 ho =>
    split at h
    case isTrue h3 =>
      cases h
      exact ⟨rfl, rvI_eq (eq_of_toNat_eq ho) h3 rfl rfl rfl⟩
    case isFalse =>
      obtain ⟨h3, ⟨⟩⟩ := Option.ite_none_right_eq_some.1 h
      exact ⟨rfl, rvI_eq (eq_of_toNat_eq ho) h3 rfl rfl rfl⟩
  case h_13 ho =>
    obtain ⟨⟨h3, h1⟩, h⟩ := Option.ite_none_right_eq_some.1 h
    obtain ⟨csr, hc, rfl⟩ := Option.map_eq_some_iff.1 h
    refine ⟨rfl, rvI_eq (eq_of_toNat_eq ho) ?_ rfl h1 (code_of_rvCsr_ofCode hc)⟩
    rcases h3 with h3 | h3 <;> simp [h3]
  case h_14 => cases h

theorem cairnWord_of_decodeCairn {w : Word} {i : Instr} (h : decodeCairn w = some i) : i.wf = true ∧ i.cairnWord = some w := by
  unfold decodeCairn at h
  split at h
  case isTrue ho => exact cairnWord_of_decodeCustom0 ho h
  case isFalse =>
    split at h
    case isTrue ho => exact cairnWord_of_decodeCustom1 ho h
    case isFalse =>
      obtain ⟨r, hr, rfl⟩ := Option.map_eq_some_iff.1 h
      obtain ⟨hf, rfl⟩ := word_of_decodeRv hr
      exact ⟨hf, rfl⟩

/-- Settles O5: class by class from the checks of the decoder, `encode_of_decode`; a Cairn core's by format, `cairnWord_of_decodeCairn`. -/
theorem acceptedWordsAreEncodings : Obligations.AcceptedWordsAreEncodings := by
  refine ⟨fun w i => encode_of_decode, fun w i h => ?_⟩
  obtain ⟨hw, hc⟩ := cairnWord_of_decodeCairn h
  exact ⟨hw, encode_of_cairnWord hc⟩

end Sys2Proof.Laws
end

section
/-!
PROOFS. The checks of 08 Table 8-3, steps 5 to 8, on the register instructions; settles O13.
-/
namespace Sys2Proof.Machine

open Sys2Proof Sys2Proof.Ob

/-- Every register instruction has the common checks alone before its body, and needs an acting thread (08 Table 8-3). -/
theorem exec_regOp {i : Instr} {m : Meta} {d : Desc} {wide : Bool} (h : regOp i = some (m, d, wide)) :
    m.always = false ∧ ∃ body : Ctx → Lanes → Verdict, ∀ s, exec i s = instr s m noOwn body := by
  cases i
  case vmov k op ty =>
    cases op
    case toIdx => cases h
    case reg | fromIdx =>
      cases h
      exact ⟨rfl, _, fun _ => rfl⟩
  case vscan k d a key ty op excl all sat =>
    cases key <;>
    · cases h
      exact ⟨rfl, _, fun _ => rfl⟩
  case cvtf k d a dir ty rm sat =>
    cases dir <;>
    · cases h
      exact ⟨rfl, _, fun _ => rfl⟩
  case cvti k d a toFloat ity ty rm sat =>
    cases toFloat
    case false => cases h
    case true =>
      cases h
      exact ⟨rfl, _, fun _ => rfl⟩
  case kmov | kadd | ksub | kmul | kand | kor | kxor | ksh | kcmp | ksel | kmad | vadd | vsub | vmul | vmad | vquo | vand | vor | vxor |
      vbic | vshl | vshr | vfun | vbfx | vbfi | vcnt | vmin | vmax | vabsd | vsel | vprm | vshfl | fadd | fsub | fmul | fdiv | fma |
      fmin | fmax | fsgn | fclass | frcp | frsq | fsqrt | fexp2 | flog2 | ftrig | frnd | fpack | fdot =>
    cases h
    exact ⟨rfl, _, fun _ => rfl⟩
  all_goals cases h

/-- A memory error's cause, of which the reader is told (25 R415). -/
def tellsReader : List (BitVec 10) := [cMemerr 0 0, cMemerr 0 2, cMemerr 1 0]

/-! ### The causes of steps 5, 6 and 8 are no memory errors -/

theorem field_check_cause {f : Field} {hnd : Bool} {v k : Nat} {x : BitVec 10} (h : f.check hnd v k = some x) : x ∉ tellsReader := by
  obtain ⟨d, dst, regs, free⟩ := f
  cases d with
  | v | k | special | inline =>
    simp only [Field.check] at h
    repeat' split at h
    all_goals cases h
    all_goals decide
  | h | idx =>
    simp only [Field.check] at h
    split at h
    · cases h
      decide
    · cases h

theorem firstBad_cause {hnd : Bool} {v k : Nat} {x : BitVec 10} {l : List Field} (h : firstBad hnd v k l = some x) : x ∉ tellsReader := by
  induction l with
  | nil => cases h
  | cons f r ih =>
    unfold firstBad at h
    split at h
    case h_1 hf =>
      cases h
      exact field_check_cause hf
    case h_2 => exact ih h

theorem meta_check_cause {m : Meta} {c : Ctx} {x : BitVec 10} (h : m.check c = some x) : x ∉ tellsReader := by
  unfold Meta.check at h
  split at h
  · cases h
    decide
  split at h
  · cases h
    decide
  split at h
  · cases h
    decide
  · exact firstBad_cause h

theorem field_index_cause {f : Field} {w : Wave} {t : Nat} {x : BitVec 10 × Nat} (h : f.index w t = some x) : x.1 ∉ tellsReader := by
  unfold Field.index at h
  split at h
  · dsimp only at h
    split at h
    · cases h
      exact (by decide : cOperand 2 ∉ tellsReader)
    split at h
    · cases h
      exact (by decide : cOperand 1 ∉ tellsReader)
    · cases h
  · cases h

/-- A thread's fault comes from an indexed operand where the instruction has no check of its own (02 R37). -/
theorem threadFault_cause {w : Wave} {fields : List Field} {act : Lanes} {f : Flt} (h : threadFault w fields act (fun _ => none) = some f) :
    f.cause ∉ tellsReader := by
  unfold threadFault at h
  dsimp only at h
  split at h
  · cases h
  case h_2 t cause x r hb =>
    cases h
    have mem : (t, cause, x) ∈ (t, cause, x) :: r := List.mem_cons_self ..
    rw [← hb] at mem
    obtain ⟨u, -, hu⟩ := List.mem_filterMap.1 mem
    split at hu
    case h_1 y hy =>
      obtain ⟨g, -, hg⟩ := List.exists_of_findSome?_eq_some hy
      cases hu
      exact field_index_cause hg
    case h_2 => cases hu

/-! ### What a failed check, and an empty acting set, come to -/

section
variable {s : State} {c : Ctx} {m : Meta} {own : Ctx → Option (BitVec 10)} {body : Ctx → Lanes → Verdict}

/-- An instruction that fails a common check traps precisely. -/
theorem instr_of_check {x : BitVec 10} (h : Ctx.of s = some c) (hm : m.check c = some x) :
    instr s m own body = .next (c.precise s c.w (.plain x) false) := by
  have told : (c.during m.closer).told (.plain x) = s := (told_of_notMem (meta_check_cause hm)).trans (ctx_state (c := c) h)
  simp only [instr, instrEach, h, Ctx.run, during_check, hm, Ctx.settle, told]
  rfl

/-- An instruction that fails the check of a thread traps precisely. -/
theorem instr_of_threadFault {f : Flt} (h : Ctx.of s = some c) (hm : m.check c = none)
    (hf : threadFault c.w m.fields (c.acting m.ctl) (fun _ => none) = some f) :
    instr s m noOwn body = .next (c.precise s c.w f false) := by
  have told : (c.during m.closer).told f = s := (told_of_notMem (threadFault_cause hf)).trans (ctx_state (c := c) h)
  simp only [instr, instrEach, h, Ctx.run, during_check, hm, noOwn, during_w, during_acting, hf, Ctx.settle, told]
  rfl

/-- No thread acts: no thread fails, and the instruction commits with no effect (01 R15). -/
theorem instr_of_no_thread (h : Ctx.of s = some c) (hm : m.check c = none) (ha : c.acting m.ctl = 0) (hn : m.always = false)
    (hc : c.calm m.closer = true) : instr s m noOwn body = .next (c.commit m.closer none s) := by
  have hl : lanesOf (0 : Lanes) = [] := by simp [lanesOf]
  have hf : threadFault c.w m.fields (0 : Lanes) (fun _ => none) = none := by
    simp only [threadFault, hl, List.filterMap_nil]
  simp only [instr, instrEach, h, Ctx.run, during_check, hm, noOwn, during_w, during_acting, ha, hf, hn]
  rw [decide_true, Bool.not_false, Bool.true_and, if_pos rfl, settle_ok hc rfl rfl]
  exact congrArg (fun t => Host.Outcome.next (c.commit m.closer none t)) (ctx_state (c := c) h)

end

/-! ### Step 6 on a register field (02 R34) -/

theorem field_check_v {f : Field} {n : BitVec 8} {k : Nat} (v kr : Nat) (hd : f.d = .v n) (hk : k = 0 ∨ f.free = true) :
    f.check (k == 1) v kr = if v ≤ n.toNat then some (cOperand 0) else if n.toNat % f.regs ≠ 0 then some (cOperand 1) else none := by
  have hp : ((k == 1) && true && !f.free) = false := by
    rcases hk with rfl | hf
    · rfl
    · rw [hf, Bool.not_true, Bool.and_false]
  simp only [Field.check, hd, hp, Bool.false_eq_true, if_false]

theorem field_check_k {f : Field} {n : BitVec 6} (hnd : Bool) (v kr : Nat) (hd : f.d = .k n) :
    f.check hnd v kr = if (if hnd then max kr 16 else kr) ≤ n.toNat then some (cOperand 0) else none := by
  simp only [Field.check, hd, Bool.and_false, Bool.false_and, Bool.false_eq_true, if_false]

/-- Settles O13: a register instruction is its common checks and a body (`exec_regOp`), so what the checks find decides. -/
theorem decodeChecks : Obligations.DecodeChecks := by
  intro i m d wide s c hr h
  obtain ⟨hn, body, he⟩ := exec_regOp hr
  rw [he]
  exact ⟨fun _ hx => instr_of_check h hx, fun _ hm hf => instr_of_threadFault h hm hf, fun hm ha hc => instr_of_no_thread h hm ha hn hc,
    fun _ _ _ v kr hd hk => field_check_v v kr hd hk, fun _ _ hnd v kr hd => field_check_k hnd v kr hd⟩

end Sys2Proof.Machine
end

section
/-!
PROOFS. Clause headers open a clause, wait or fault; unassigned words fault (08 R146 to R149, 09 R167); settles O45.
-/
namespace Sys2Proof.Machine

open Sys2Proof Sys2Proof.Ob

/-! ### The faults of a header (08 R147) -/

theorem engOf_eq_none_iff {n : Nat} : engOf n = none ↔ 7 ≤ n := by
  unfold engOf
  split
  case h_8 =>
    simp only [imp_false, true_iff] at *
    omega
  all_goals decide

theorem headerFault_of_reserved_eng {w : DWord} (h : 7 ≤ (w.extractLsb' 60 4).toNat) : headerFault w = some (cInstr 5) := by
  rw [headerFault, engOf_eq_none_iff.2 h]
  rfl

theorem headerFault_of_reserved_wsel {w : DWord} (h : (w.extractLsb' 60 4).toNat < 7) (hs : 6 ≤ (w.extractLsb' 53 3).toNat) :
    headerFault w = some (cInstr 6) := by
  have he : (engOf (w.extractLsb' 60 4).toNat).isNone = false := by
    rw [Option.isNone_eq_false_iff, Option.isSome_iff_ne_none, ne_eq, engOf_eq_none_iff]
    omega
  have hw : decide (5 < (w.extractLsb' 53 3).toNat) = true := decide_eq_true hs
  simp only [headerFault, he, hw, Bool.true_or, Bool.false_eq_true, if_false, if_true]

/-! ### What a header and an unassigned word come to -/

section
variable {s : State} {c : Ctx}

/-- A fault that tells no reader traps at the word itself. -/
theorem settle_fail {x : BitVec 10} (h : Ctx.of s = some c) (hx : x ∉ tellsReader) :
    c.settle false (.fail (.plain x)) = c.precise s c.w (.plain x) false := by
  have told : c.told (.plain x) = s := (told_of_notMem hx).trans (ctx_state h)
  rw [Ctx.settle, told]

theorem exec_header_opens {w : DWord} (h : Ctx.of s = some c) (hf : headerFault w = none) (hr : c.headerReady w = true) :
    exec (.clauseHeaderDecode w) s =
      .next (c.put { c.w with pc := c.w.pc + 8, clause := clauseOf c.w.pc w, skipBreak := none, stall := false }) := by
  simp only [exec, execClauseHeaderDecode, h, hf, hr, Bool.not_true, Bool.false_eq_true, if_false]

theorem exec_header_waits {w : DWord} (h : Ctx.of s = some c) (hf : headerFault w = none) (hr : c.headerReady w = false) :
    exec (.clauseHeaderDecode w) s = .next (s.stalled c.id) := by
  simp only [exec, execClauseHeaderDecode, h, hf, hr, Bool.not_false, if_true]

theorem exec_header_faults {w : DWord} {x : BitVec 10} (h : Ctx.of s = some c) (hf : headerFault w = some x) (hx : x ∉ tellsReader) :
    exec (.clauseHeaderDecode w) s = .next (c.precise s c.w (.plain x) false) := by
  simp only [exec, execClauseHeaderDecode, h, hf, settle_fail h hx]

theorem exec_unassigned {w : DWord} (h : Ctx.of s = some c) :
    exec (.unassignedOpcode w) s = .next (c.precise s c.w (.plain (cInstr 0)) false) := by
  simp only [exec, execUnassignedOpcode, h, settle_fail h (by decide : cInstr 0 ∉ tellsReader)]

end

/-- Settles O45, by what the header's fault and its wait are. -/
theorem headersAndUnassigned : Obligations.HeadersAndUnassigned := fun _ _ _ h =>
  ⟨exec_header_opens h, exec_header_waits h, fun he => exec_header_faults h (headerFault_of_reserved_eng he) (by decide),
    fun he hs => exec_header_faults h (headerFault_of_reserved_wsel he hs) (by decide), exec_unassigned h⟩

end Sys2Proof.Machine
end

section
/-!
PROOFS. Which instruction a step runs (08 R158, Table 8-3, 07 R127, 04 R69), and an unpowered machine's wait; settles O7.
-/
namespace Sys2Proof.Machine

open Sys2Proof Sys2Proof.Ob

/-! ### From a turn to the step -/

theorem step_of_run {s t : State} {i : Instr} (h : s.turn = .run i t) : step s = afterRun (exec i t) := by
  rw [step, h]
  rfl

theorem step_of_done {s t : State} (h : s.turn = .done t) : step s = .next t.pass := by
  rw [step, h]

theorem step_of_due {s t : State} {i : Instr} (h : s.turn = .due i t) : step s = exec i t := by
  rw [step, h]

/-! ### The turn, by the supply, what is due, and the agenda's head -/

section
variable {s : State} {r : List Turn}

theorem dueNow_of_lease (h : 256 * (s.leases + 1) ≤ s.fab) : s.dueNow = some .leaseStep :=
  if_pos (decide_eq_true h)

theorem dueNow_of_window (hl : s.fab < 256 * (s.leases + 1)) (hw : 65536 * (s.windows + 1) ≤ s.fab) :
    s.dueNow = some .cairnShareWindow := by
  have lease : s.leaseDue = false := decide_eq_false (Nat.not_le.2 hl)
  have window : s.windowDue = true := decide_eq_true hw
  simp only [State.dueNow, lease, window, Bool.false_eq_true, if_false, if_true]

theorem dueNow_eq_none (hl : s.fab < 256 * (s.leases + 1)) (hw : s.fab < 65536 * (s.windows + 1)) : s.dueNow = none := by
  have lease : s.leaseDue = false := decide_eq_false (Nat.not_le.2 hl)
  have window : s.windowDue = false := decide_eq_false (Nat.not_le.2 hw)
  simp only [State.dueNow, lease, window, Bool.false_eq_true, if_false]

theorem turn_of_due {i : Instr} (hp : s.powered = true) (h : s.dueNow = some i) : s.turn = .due i s := by
  simp only [State.turn, hp, if_true, h]

theorem turn_wave (hp : s.powered = true) (hd : s.dueNow = none) {id : WaveId} (h : s.agenda = .wave id :: r) :
    s.turn = waveTurn { s with agenda := r, focus := .wave id } id := by
  simp only [State.turn, hp, if_true, hd, h]

theorem turn_cairn (hp : s.powered = true) (hd : s.dueNow = none) {n : Nat} (h : s.agenda = .cairn n :: r) :
    s.turn = cairnTurn { s with agenda := r, focus := .cairn n } n := by
  simp only [State.turn, hp, if_true, hd, h]

theorem turn_event (hp : s.powered = true) (hd : s.dueNow = none) {i : Instr} (h : s.agenda = .ev i :: r) (he : isEvent i = true)
    (hw : i.wf = true) : s.turn = .run i { s with agenda := r } := by
  have admitted : s.admits i = true := by rw [State.admits, he, hw, hp, Bool.true_or, Bool.and_self, Bool.and_self]
  simp only [State.turn, hp, if_true, hd, h, admitted]

theorem turn_unpowered_nil (hp : s.powered = false) (h : s.agenda = []) : s.turn = .done s := by
  simp only [State.turn, hp, Bool.false_eq_true, if_false, h]

/-- Without supply the agenda's head is dropped, unless it is a device reset. -/
theorem turn_unpowered_cons (hp : s.powered = false) {t : Turn} (h : s.agenda = t :: r) (ht : t ≠ .ev .deviceReset) :
    s.turn = .done { s with agenda := r } := by
  cases t with
  | wave id => simp only [State.turn, hp, Bool.false_eq_true, if_false, h]
  | cairn n => simp only [State.turn, hp, Bool.false_eq_true, if_false, h]
  | ev i =>
    have other : (i == .deviceReset) = false := beq_eq_false_iff_ne.2 fun hi => ht (congrArg Turn.ev hi)
    have refused : s.admits i = false := by rw [State.admits, hp, other, Bool.or_self, Bool.and_false]
    simp only [State.turn, hp, Bool.false_eq_true, if_false, h, refused]

theorem turn_unpowered_reset (hp : s.powered = false) (h : s.agenda = .ev .deviceReset :: r) :
    s.turn = .run .deviceReset { s with agenda := r } := by
  have admitted : s.admits .deviceReset = true := by
    rw [State.admits, beq_self_eq_true, Bool.or_true, Bool.and_true]
    decide
  simp only [State.turn, hp, Bool.false_eq_true, if_false, h, admitted, if_true]

end

/-! ### A wave's word -/

/-- A word of the open clause's class, or of the uniform one, that decodes is the instruction to run (08 Table 8-3, steps 1 to 4). -/
theorem decodeWord_eq_run {c : Ctx} {s : State} {w : DWord} {cl : Clause} {i : Instr} (hc : c.w.clause = some cl)
    (ha : opAssigned (w.extractLsb' 56 8).toNat = true)
    (hk : classOf (w.extractLsb' 56 8).toNat = .uni ∨ classOf (w.extractLsb' 56 8).toNat = cl.eng) (hd : decode w = .ok i) :
    c.decodeWord s w = .run i s := by
  have class_ok : (classOf (w.extractLsb' 56 8).toNat != .uni && classOf (w.extractLsb' 56 8).toNat != cl.eng) = false := by
    rcases hk with h | h
    · rw [h, bne_self_eq_false, Bool.false_and]
    · rw [h, bne_self_eq_false, Bool.and_false]
  simp only [Ctx.decodeWord, hc, ha, Bool.not_true, class_ok, Bool.false_eq_true, if_false, hd]

/-- A wave with no trap pending whose word can be fetched comes to that word, decoded. -/
theorem waveTurn_of_fetches {s : State} {id : WaveId} {c : Ctx} {x : Xlat} {pa : Nat} (hc : s.ctx id = some c)
    (hl : c.w.late = none ∨ c.w.level = .handler) (hb : c.breakpoint = none) (hf : fetches s c x pa) :
    waveTurn s id = c.decodeWord (fetched s c x pa) (s.codeWord c.cv.grid c.die pa) := by
  obtain ⟨place, touch, read, noErr⟩ := hf
  unfold waveTurn
  rw [hc]
  dsimp only
  split
  case h_1 f hlate hlevel =>
    rcases hl with h | h
    · cases hlate.symm.trans h
    · cases hlevel.symm.trans h
  case h_2 =>
    simp only [hb, place, touch, read, noErr, Bool.not_true, Bool.or_self, Bool.false_eq_true, if_false]
    rfl

/-! ### A Cairn core's parcel and word -/

/-- Two bytes at a Cairn core's pc. -/
theorem cairnValue_two (s : State) (n : Nat) (v : Invoc) : cairnValue s n v 2 =
    (lookD (s.slice n).code (256 * (s.invSlot n v).cbase.toNat + v.pc.toNat + 0) 0).toNat +
      256 * (lookD (s.slice n).code (256 * (s.invSlot n v).cbase.toNat + v.pc.toNat + 1) 0).toNat := by
  rfl

/-- Four bytes there are two and two. -/
theorem cairnValue_four (s : State) (n : Nat) (v : Invoc) : cairnValue s n v 4 = cairnValue s n v 2 + 65536 *
    ((lookD (s.slice n).code (256 * (s.invSlot n v).cbase.toNat + v.pc.toNat + 2) 0).toNat +
      256 * (lookD (s.slice n).code (256 * (s.invSlot n v).cbase.toNat + v.pc.toNat + 3) 0).toNat) := by
  have bytes (a b c d : Byte) : leVal [a, b, c, d] = leVal [a, b] + 65536 * (c.toNat + 256 * d.toNat) := by
    simp only [leVal]
    omega
  exact bytes ..

section
variable {s : State} {n : Nat} {v : Invoc} (hv : (s.slice n).inv = some v) (hb : s.cyclesOf v < v.budget)
  (hs : s.slotUsed n v.slot < (s.invSlot n v).cap)
include hv hb hs

/-- The two low bits are not 11: a parcel (07 R127). -/
theorem cairnTurn_parcel {i : RvInstr} (hl : v.pc.toNat + 2 ≤ 256 * (s.invSlot n v).clen.toNat) (h3 : cairnValue s n v 2 % 4 ≠ 3)
    (hd : decodeParcel (BitVec.ofNat 16 (cairnValue s n v 2)) = some i) : cairnTurn s n = .run (.cairnBase i true) s := by
  rw [cairnValue_two] at h3 hd
  unfold cairnTurn
  simp only [hv]
  rw [if_neg (Nat.not_le.2 hb), if_neg (Nat.not_le.2 hs), if_neg (Nat.not_lt.2 hl), if_pos h3, hd]

/-- The two low bits are 11: a word of four bytes. -/
theorem cairnTurn_word {i : Instr} (hl : v.pc.toNat + 4 ≤ 256 * (s.invSlot n v).clen.toNat) (h3 : cairnValue s n v 2 % 4 = 3)
    (hd : decodeCairn (BitVec.ofNat 32 (cairnValue s n v 4)) = some i) : cairnTurn s n = .run i s := by
  rw [cairnValue_four] at hd
  rw [cairnValue_two] at h3 hd
  unfold cairnTurn
  simp only [hv]
  rw [if_neg (Nat.not_le.2 hb), if_neg (Nat.not_le.2 hs), if_neg (by omega), if_neg (not_not.2 h3), if_neg (Nat.not_lt.2 hl), hd]

end

/-! ### O7 -/

theorem stepRuns : StepRuns := by
  intro s r hp
  refine ⟨fun hl => step_of_due (turn_of_due hp (dueNow_of_lease hl)), fun hl hw => step_of_due (turn_of_due hp (dueNow_of_window hl hw)),
    fun hl hw => ?_⟩
  have hd := dueNow_eq_none hl hw
  refine ⟨fun id c x pa cl i ha => ?_, fun n v ha => ?_, fun i ha he hwf => step_of_run (turn_event hp hd ha he hwf)⟩
  · intro s0 w op hc hlate hb hf hcl hop hk hdec
    exact step_of_run (((turn_wave hp hd ha).trans (waveTurn_of_fetches hc hlate hb hf)).trans (decodeWord_eq_run hcl hop hk hdec))
  · intro s0 t hv hbud hshare
    exact ⟨fun i hlen h3 hdec => step_of_run ((turn_cairn hp hd ha).trans (cairnTurn_word (s := s0) hv hbud hshare hlen h3 hdec)),
      fun i hlen h3 hdec => step_of_run ((turn_cairn hp hd ha).trans (cairnTurn_parcel (s := s0) hv hbud hshare hlen h3 hdec))⟩

theorem unpoweredMachineWaits : UnpoweredMachineWaits := fun _ hp =>
  ⟨fun h => step_of_done (turn_unpowered_nil hp h), fun _ _ h ht => step_of_done (turn_unpowered_cons hp h ht),
    fun _ h => step_of_run (turn_unpowered_reset hp h)⟩

/-- Settles O7: the turn is what is due, else what the agenda's head fetches (`stepRuns`); without supply it is a reset or nothing. -/
theorem stepRunsTheInstruction : Obligations.StepRunsTheInstruction := ⟨stepRuns, unpoweredMachineWaits⟩

end Sys2Proof.Machine
end

section
/-!
PROOFS. The number formats E2M1 and E3M5 and the engine's integers of an S4 line (10 R180, R181, R188); settles O16 and O17.
-/
namespace Sys2Proof.Machine

open Sys2Proof Sys2Proof.Ob

/-! ### E2M1 (10 R180) -/

/-- The value of an E2M1 code by its fields: sign c / 8, exponent c / 2 % 4 of bias 1, one fraction bit (10 Table 10-1). -/
theorem value_e2m1 (c : Nat) : FCode.e2m1.fmt.value c =
    if c / 2 % 4 = 0 then .fin (c / 8 % 2 == 1) (c % 2) (-1) else .fin (c / 8 % 2 == 1) (2 + c % 2) ((c / 2 % 4 : Nat) - 2) := by
  have exponent : c % 8 / 2 = c / 2 % 4 := by omega
  have fraction : c % 8 % 2 = c % 2 := by omega
  have unbias (x : Int) : x - 1 - 1 = x - 2 := by omega
  simp [Fmt.value, FCode.fmt, Fmt.isNan, Fmt.isInf, Fmt.magOf, Fmt.signOf, Fmt.top, Fmt.bias, exponent, fraction, unbias]

/-- The sixteen codes have the values of Table 10-2. -/
theorem value_e2m1_table {c : Nat} (hc : c < 16) : ∃ m e, FCode.e2m1.fmt.value c = .fin (decide (8 ≤ c)) m e ∧
    m * 2 ^ (e + 1).toNat = [0, 1, 2, 3, 4, 6, 8, 12][c % 8]?.getD 0 * 2 ^ (-(e + 1)).toNat := by
  have sign : (c / 8 % 2 == 1) = decide (8 ≤ c) := by revert c; decide
  rw [value_e2m1, sign]
  by_cases subnormal : c / 2 % 4 = 0
  · exact ⟨_, _, if_pos subnormal, by revert c; decide⟩
  · exact ⟨_, _, if_neg subnormal, by revert c; decide⟩

/-- A list of pairs laid end to end holds the j-th pair at places 2 j and 2 j + 1. -/
theorem getElem?_flatMap_pair {α β : Type} (f g : α → β) (l : List α) (j : Nat) :
    (l.flatMap fun a => [f a, g a])[2 * j]? = l[j]?.map f ∧ (l.flatMap fun a => [f a, g a])[2 * j + 1]? = l[j]?.map g := by
  induction l generalizing j with
  | nil => simp
  | cons a l ih =>
    cases j with
    | zero => simp
    | succ j => simpa [Nat.mul_succ] using ih j

/-- The engine's integers of the two codes of a byte, the low four bits first (10 R188). -/
theorem scaled4_byte (o : KOp) {j : Nat} {b : Byte} (h : o.bytes[j]? = some b) :
    o.scaled4[2 * j]? = some ((e3m5 ((o.micro[2 * j / 8]?).getD 0) : Int) * e2m1Twice (b.toNat % 16)) ∧
    o.scaled4[2 * j + 1]? = some ((e3m5 ((o.micro[(2 * j + 1) / 8]?).getD 0) : Int) * e2m1Twice (b.toNat / 16)) := by
  obtain ⟨low, high⟩ := getElem?_flatMap_pair (fun b : Byte => b.toNat % 16) (fun b => b.toNat / 16) o.bytes j
  simp [KOp.scaled4, List.getElem?_zipIdx, low, high, h]

/-- Settles O16: the values by `value_e2m1_table`, the engine's integers by `scaled4_byte`. -/
theorem e2M1Values : Obligations.E2M1Values :=
  ⟨by decide, fun _ => value_e2m1_table, fun _ _ _ => scaled4_byte _⟩

/-! ### E3M5 (10 R181) -/

/-- The elements of an S4 image word are its four low codes times its micro-scale. -/
theorem imageValues_of_s4 {x : Nat} (h : imageS4 (x / 2 ^ 24) = some true) : imageValues x = (List.range 4).map fun j =>
    (FCode.e2m1.fmt.value (x / 16 ^ j % 16)).mul (.fin false (e3m5 (x / 2 ^ 16 % 256)) (-7)) := by
  unfold imageValues
  simp only [h]

/-- Settles O17: the integer of a code is as R181 has it by definition, an image's elements by `imageValues_of_s4`. -/
theorem e3M5Values : Obligations.E3M5Values :=
  ⟨fun _ _ => rfl, by decide, fun _ => imageValues_of_s4, by decide, by decide⟩

end Sys2Proof.Machine
end

section
/-!
PROOFS. K instructions compute once, as the leader; VEC integer instructions compute in every acting thread (11 R204, R207, R209 to
R217); settles O20 and O21.
-/
namespace Sys2Proof.Machine

open Sys2Proof Sys2Proof.Ob

/-! ### Each instruction's body, by its table -/

/-- A K instruction is its common checks and one result of the leader (11 R204). -/
theorem exec_uOp {i : Instr} {o : UOp} (h : uOp i = some o) : o.m.closer = false ∧ ∀ s,
    exec i s = instr s o.m noOwn fun c act => c.uniI act o.d o.ty o.sat (o.x c (leader act)) := by
  cases i
  case kmov | kadd | ksub | kmul | kand | kor | kxor | ksh | kcmp | ksel | kmad =>
    cases h
    exact ⟨rfl, fun _ => rfl⟩
  all_goals cases h

/-- The quotient and the remainder of R211, each with its case of a divisor 0. -/
theorem quoRem_part (ty : ITy) (rem : Bool) (a b : Int) : (if rem then (quoRem ty a b).2 else (quoRem ty a b).1) =
    if b = 0 then (if rem then a else if ty.signed then -1 else 2 ^ ty.bits - 1)
    else if rem then a - Int.tdiv a b * b else Int.tdiv a b := by
  unfold quoRem
  by_cases hb : b = 0
  · simp only [if_pos hb]
  · simp only [if_neg hb]

/-- An operation of two sources whose result the table writes as `g`. -/
theorem vecOp2_congr {f g : DWord → DWord → Int} (hfg : ∀ x y, f x y = g x y) (s : State) (k : Ctl) (d a : Desc) (b : SrcB) (ty : ITy)
    (sat : Bool) : vecOp2 s k d a b ty sat f = vecOp2 s k d a b ty sat g :=
  congrArg _ (funext₂ hfg)

/-- A VEC integer instruction is its common checks and one result per acting thread (11 R209). -/
theorem exec_vOp {i : Instr} {o : VOp} (h : vOp i = some o) : o.m.closer = false ∧ ∀ s,
    exec i s = instr s o.m noOwn fun c act => c.eachI act o.d o.ty o.sat (o.x c act) := by
  cases i
  case vmov k op ty =>
    cases op
    case toIdx => cases h
    case reg | fromIdx =>
      cases h
      exact ⟨rfl, fun _ => rfl⟩
  case vscan k d a key ty op excl all sat =>
    cases key <;>
    · cases h
      exact ⟨rfl, fun _ => rfl⟩
  case vquo k d a b ty rem sat =>
    cases h
    exact ⟨rfl, fun s => vecOp2_congr (fun x y => quoRem_part ty rem (ty.val x) (ty.val y)) s k d a b ty sat⟩
  case vmin k d a b ty =>
    cases h
    have less (x y : DWord) := (min_comm (ty.val x) (ty.val y)).trans (min_def_lt (ty.val y) (ty.val x))
    exact ⟨rfl, fun s => vecOp2_congr less s k d a b ty false⟩
  case vmax k d a b ty =>
    cases h
    exact ⟨rfl, fun s => vecOp2_congr (fun x y => max_def_lt (ty.val x) (ty.val y)) s k d a b ty false⟩
  case vabsd k d a b ty sat =>
    cases h
    exact ⟨rfl, fun s => vecOp2_congr (fun x y => (Int.abs_eq_natAbs (ty.val x - ty.val y)).symm) s k d a b ty sat⟩
  case vadd | vsub | vmul | vmad | vand | vor | vxor | vbic | vshl | vshr | vfun | vbfx | vbfi | vcnt | vsel | vprm | vshfl =>
    cases h
    exact ⟨rfl, fun _ => rfl⟩
  all_goals cases h

/-! ### The result, finished and written -/

/-- Settles O20: the leader's one result (`exec_uOp`) is written to the destination. -/
theorem uniformArithmetic : Obligations.UniformArithmetic := by
  intro i o s c ho h runs
  obtain ⟨hm, he⟩ := exec_uOp ho
  rw [he]
  exact instr_writes_dest h runs hm fun _ _ => rfl

/-- Settles O21: one result per acting thread (`exec_vOp`) is written to the destination. -/
theorem vectorInteger : Obligations.VectorInteger := by
  intro i o s c ho h runs
  obtain ⟨hm, he⟩ := exec_vOp ho
  rw [he]
  exact instr_writes_dest h runs hm fun _ _ => rfl

end Sys2Proof.Machine
end

section
/-!
PROOFS. VOTE, RDLANE, WRLANE and SETIW (11 R205, R206, R208); settles O24 and O25.
-/
namespace Sys2Proof.Machine

open Sys2Proof Sys2Proof.Ob

/-! ### Votes and lanes (11 R205, R206) -/

/-- What VOTE writes: its operation over the threads on which it acts and those of them in which the predicate holds (11 R205). -/
def Ctx.vote (c : Ctx) (k : Ctl) (op : VoteOp) (hi neg : Bool) (n : BitVec 3) : DWord :=
  voteResult op hi (c.acting { k with onc := false })
    (c.acting { k with onc := false } &&& if neg then ~~~ c.w.getP n.toNat else c.w.getP n.toNat)

theorem during_vote (c : Ctx) (b : Bool) (k : Ctl) (op : VoteOp) (hi neg : Bool) (n : BitVec 3) :
    (c.during b).vote k op hi neg n = c.vote k op hi neg n := by
  simp only [Ctx.vote, during_acting, during_w]

/-- VOTE writes its result as the leader. -/
theorem exec_vote {s : State} {c : Ctx} {k : Ctl} {d : Desc} {op : VoteOp} {hi neg : Bool} {n : BitVec 3} (h : Ctx.of s = some c)
    (runs : c.runs { Meta.uni k [dst d 2] with noHnd := n != 7 } = true) :
    exec (.vote k d op hi neg n) s = .next (c.commit false none ((c.during false).dest d true
      [(leader (c.acting { k with onc := true }), c.vote k op hi neg n)] s)) := by
  rw [← during_vote c false]
  exact instr_writes_dest (values := fun c act => [(leader act, c.vote k op hi neg n)]) h runs rfl fun _ _ => rfl

/-- Settles O24: VOTE by `exec_vote`; RDLANE and WRLANE write where the thread that they name exists. -/
theorem votesAndLanes : Obligations.VotesAndLanes := by
  intro s c h
  obtain rfl := ctx_state h
  refine ⟨?vote, ?readLane, ?writeLane⟩
  case vote => exact fun k d op hi neg n runs => exec_vote h runs
  case readLane =>
    intro k d r t w64 runs act x inside
    exact instr_effect (own := fun _ => none) h runs rfl (if_neg (not_le.2 inside))
  case writeLane =>
    intro k r a t w64 runs act x inside
    exact instr_effect (own := fun _ => none) h runs rfl (if_neg (not_le.2 inside))

/-! ### The index window (11 R208) -/

/-- With no index window every index is outside it (02 R37, 11 R208). -/
theorem index_of_no_window {f : Field} {n : BitVec 2} {off : BitVec 5} {w : Wave} (t : Nat) (hd : f.d = .idx n off) (hw : w.iwl = 0) :
    (f.index w t).map Prod.fst = some (cOperand 2) := by
  simp [Field.index, hd, hw]

/-- Settles O25: SETIW writes the window or fails as a + b compares with V; no window holds no index (`index_of_no_window`). -/
theorem setIndexWindow : Obligations.SetIndexWindow := by
  intro k a b s c h runs act x y
  refine ⟨fun fits => ?_, fun exceeds => ?_, fun f n off t hd hw => index_of_no_window t hd hw⟩
  · exact instr_effect (own := noOwn) h runs rfl (if_neg (not_lt.2 fits))
  · exact instr_fails (own := noOwn) h runs rfl (if_pos exceeds) (by decide)

end Sys2Proof.Machine
end

section
/-!
PROOFS. Control transfers, reconvergence, their faults and the end of a wave (11 R199 to R203, 01 R27, 19 R334); settles O23.
-/
namespace Sys2Proof.Machine

open Sys2Proof Sys2Proof.Ob

/-! ### The target of a transfer (11 R199) -/

theorem targetFault_of_good {t : DWord} (h : goodTarget (some t) = true) : targetFault t = none := by
  simp only [goodTarget, Bool.and_eq_true, beq_iff_eq] at h
  obtain ⟨aligned, canonical⟩ := h
  rw [targetFault, if_neg (not_not.2 aligned), if_neg (not_not.2 canonical)]

theorem targetFault_of_bad {t : DWord} (h : goodTarget (some t) = false) :
    targetFault t = some (if t.extractLsb' 0 3 ≠ 0 then cAlign 1 else cProtect 0) := by
  rw [targetFault]
  by_cases aligned : t.extractLsb' 0 3 = 0
  · have canonical : t.extractLsb' 57 7 ≠ 0 := by simpa [goodTarget, aligned] using h
    rw [if_neg (not_not.2 aligned), if_neg (not_not.2 aligned), if_pos canonical]
  · rw [if_pos aligned, if_pos aligned]

theorem goto_of_good {s : State} {t : DWord} (h : goodTarget (some t) = true) : Ctx.goto s t = .ok { Eff.of s with dest := some t } := by
  rw [Ctx.goto, targetFault_of_good h]

theorem goto_of_bad {s : State} {t : DWord} (h : goodTarget (some t) = false) :
    Ctx.goto s t = .fail (.plain (if t.extractLsb' 0 3 ≠ 0 then cAlign 1 else cProtect 0)) := by
  rw [Ctx.goto, targetFault_of_bad h]

/-! ### What a control instruction's body answers (11 R200, R201) -/

/-- The answer of a control instruction's body: its effect, with the transfer, if any, to a checked target. -/
def controlVerdict (s : State) : Option DWord → Verdict
  | some t => Ctx.goto s t
  | none => .ok (.of s)

theorem controlVerdict_of_good {s : State} {dest : Option DWord} (h : goodTarget dest = true) :
    controlVerdict s dest = .ok { Eff.of s with dest := dest } := by
  cases dest with
  | none => rfl
  | some t => exact goto_of_good h

/-- The setting's wave is the one that its state holds. -/
theorem ctx_wave {s : State} {c : Ctx} (h : Ctx.of s = some c) : c.s.wave? c.id = some c.w := by
  unfold Ctx.of State.ctx at h
  repeat' split at h
  all_goals cases h
  assumption

theorem ins_ins {α : Type} (m : NMap α) (n : Nat) (x y : α) : ins (ins m n x) n y = ins m n y := by
  induction m with
  | nil => simp [ins]
  | cons p r ih =>
    obtain ⟨i, a⟩ := p
    rcases lt_trichotomy n i with lt | rfl | gt
    · simp [ins, lt]
    · simp [ins]
    · simp [ins, gt.not_gt, gt.ne, ih]

/-- Of two writes of a wave the later stands. -/
@[simp] theorem setWave_setWave (s : State) (id : WaveId) (w w' : Wave) : (s.setWave id w).setWave id w' = s.setWave id w' := by
  simp only [State.setWave, ins_ins]

/-- A k register written with one result, in a state that holds the setting's wave. -/
theorem dest_k {c : Ctx} (hw : c.s.wave? c.id = some c.w) (r : BitVec 6) (wide : Bool) (t : Nat) (x : DWord) :
    c.dest (.k r) wide [(t, x)] c.s = c.put (c.w.setK r.toNat x) := by
  simp only [Ctx.dest, hw, Option.getD_some, List.getLast?_singleton]
  rfl

/-- The same, and then the wave changed once more. -/
theorem dest_k_then {c : Ctx} (hw : c.s.wave? c.id = some c.w) (r : BitVec 6) (wide : Bool) (t : Nat) (x : DWord) (f : Wave → Wave) :
    (c.dest (.k r) wide [(t, x)] c.s).setWave c.id (f (((c.dest (.k r) wide [(t, x)] c.s).wave? c.id).getD c.w)) =
      c.put (f (c.w.setK r.toNat x)) := by
  rw [dest_k hw, Ctx.put, wave_setWave, setWave_setWave]
  rfl

/-- BRD's entry and active set, whichever of the paths have threads (11 R201). -/
theorem split_eq_afterBrd (c : Ctx) (taken : Lanes) :
    c.w.split c.nextHeader taken (c.w.active &&& ~~~ taken) = afterBrd c taken := by
  unfold Wave.split afterBrd
  by_cases falls : taken = 0
  · simp only [falls, ne_eq, not_true_eq_false, if_false, if_true]
  · simp only [falls, ne_eq, not_false_eq_true, if_false, if_true]

/-- An instruction ends no region and is the checks of `o` and a body that, in the setting that it commits in, answers the effect and
the transfer of `o`. -/
def AnswersAs (c : Ctx) (i : Instr) (o : COp) : Prop :=
  o.m.closer = false ∧ ∃ own body, (∀ s, exec i s = instr s o.m own body) ∧ own c = none ∧
    body c (c.acting o.m.ctl) = controlVerdict o.s o.dest

section
variable {c : Ctx} {o : COp}

theorem brc_answers {k : Ctl} {cond : BrCond} {a : Desc} {t : SrcB} (h : cOp c (.brc k cond a t) = some o) :
    AnswersAs c (.brc k cond a t) o := by
  simp only [cOp] at h
  split at h
  case isTrue taken =>
    cases h
    exact ⟨rfl, _, _, fun _ => rfl, rfl, if_pos taken⟩
  case isFalse falls =>
    cases h
    exact ⟨rfl, _, _, fun _ => rfl, rfl, if_neg falls⟩

/-- A BRD with room on the stack goes to its target where some thread takes it. -/
theorem brd_answers {k : Ctl} {t : SrcB} (h : cOp c (.brd k t) = some o) : AnswersAs c (.brd k t) o := by
  simp only [cOp] at h
  split at h
  case isTrue full => cases h
  case isFalse room =>
    cases h
    refine ⟨rfl, _, _, fun _ => rfl, rfl, (if_neg room).trans ?_⟩
    simp only [split_eq_afterBrd]
    by_cases falls : c.w.active &&& c.w.guard k = 0
    · rw [if_neg (not_not.2 falls), if_pos falls]
      rfl
    · rw [if_pos falls, if_neg falls]
      rfl

/-- A LOOP leaves its counter at 0, counts it down to 0 and falls through, or counts it down and goes back. -/
theorem loop_answers (hw : c.s.wave? c.id = some c.w) {k : Ctl} {r : BitVec 6} {t : SrcB} (h : cOp c (.loop k (.k r) t) = some o) :
    AnswersAs c (.loop k (.k r) t) o := by
  simp only [cOp] at h
  by_cases done : c.w.getK r.toNat = 0
  · rw [if_pos done] at h
    cases h
    exact ⟨rfl, _, _, fun _ => rfl, rfl, if_pos done⟩
  rw [if_neg done] at h
  by_cases final : c.w.getK r.toNat = 1
  · rw [if_pos final] at h
    cases h
    have left : c.w.getK r.toNat - 1 = 0 := sub_eq_zero.2 final
    have counted (u : Nat) : c.dest (.k r) true [(u, c.w.getK r.toNat - 1)] c.s = c.put (c.w.setK r.toNat 0) := by
      rw [dest_k hw, left]
    refine ⟨rfl, _, _, fun _ => rfl, rfl, (if_neg done).trans ((if_pos left).trans ?_)⟩
    exact congrArg (fun u => Verdict.ok (.of u)) (counted _)
  · rw [if_neg final] at h
    cases h
    have left : c.w.getK r.toNat - 1 ≠ 0 := sub_ne_zero.2 final
    refine ⟨rfl, _, _, fun _ => rfl, rfl, (if_neg done).trans ((if_neg left).trans ?_)⟩
    exact congrArg (Ctx.goto · _) (dest_k_then hw r true _ _ (·.spin _))

theorem answers_of_cOp (hw : c.s.wave? c.id = some c.w) {i : Instr} (h : cOp c i = some o) : AnswersAs c i o := by
  cases i
  case nop | bra | call | ret =>
    cases h
    exact ⟨rfl, _, _, fun _ => rfl, rfl, rfl⟩
  case brc => exact brc_answers h
  case brd => exact brd_answers h
  case loop k d t =>
    cases d
    case k => exact loop_answers hw h
    all_goals cases h
  all_goals cases h

end

/-! ### What the instruction comes to -/

section
variable {s : State} {c : Ctx}

/-- An instruction whose body answers an effect on the state and a transfer. -/
theorem instr_transfers {m : Meta} {own : Ctx → Option (BitVec 10)} {body : Ctx → Lanes → Verdict} {t : State} {dest : Option DWord}
    (h : Ctx.of s = some c) (hr : c.runs m = true) (ho : own (c.during m.closer) = none)
    (hb : body (c.during m.closer) (c.acting m.ctl) = .ok { Eff.of t with dest := dest }) :
    instr s m own body = .next (c.commit m.closer dest t) := instr_commits h hr ho hb rfl rfl

theorem controlTransfers : ControlTransfers := by
  intro i o s c h ho runs good
  obtain ⟨hm, own, body, he, noFault, hb⟩ := answers_of_cOp (c := c.during false) (ctx_wave h : c.s.wave? c.id = _) ho
  rw [← hm] at noFault hb
  rw [he, instr_transfers h runs noFault (hb.trans (controlVerdict_of_good good)), hm]

/-- A transfer to a target that is misaligned or not canonical faults precisely (11 R199, 19 R340). -/
theorem exec_of_bad_target {i : Instr} {o : COp} {t : DWord} (h : Ctx.of s = some c) (ho : cOp (c.during false) i = some o)
    (runs : c.runs o.m = true) (ht : o.dest = some t) (bad : goodTarget o.dest = false) :
    exec i s = .next (c.precise s c.w (.plain (if t.extractLsb' 0 3 ≠ 0 then cAlign 1 else cProtect 0)) false) := by
  obtain ⟨hm, own, body, he, noFault, hb⟩ := answers_of_cOp (c := c.during false) (ctx_wave h : c.s.wave? c.id = _) ho
  rw [← hm] at noFault hb
  rw [ht] at hb bad
  rw [he]
  exact instr_fails h runs noFault (hb.trans (goto_of_bad bad)) (by split <;> decide)

theorem joinReconverges : JoinReconverges := by
  intro k t e r s c h runs stack
  refine ⟨fun pending => ?_, fun empty good => ?_⟩
  · refine instr_transfers (own := noOwn) h runs rfl ?_
    simp only [during_w, stack]
    exact if_pos pending
  · refine instr_transfers (own := noOwn) h runs rfl ?_
    simp only [during_w, stack]
    exact (if_neg (not_not.2 empty)).trans (goto_of_good good)

theorem controlFaults : ControlFaults := by
  intro s c h
  refine ⟨fun k t runs full => ?_, fun k t runs empty => ?_, fun _ _ _ => exec_of_bad_target h⟩
  · exact instr_fails (own := noOwn) h runs rfl (if_pos full) (by decide)
  · refine instr_fails (own := noOwn) h runs rfl ?_ (by decide)
    simp only [during_w, empty]

/-- A body that has settled the wave's own state, with nothing that holds its commit back. -/
theorem settle_over {b : Bool} {t : State} (hc : c.calm b = true) : (c.during b).settle b (.over t) = t := by
  simp only [Ctx.calm, Bool.and_eq_true, Bool.or_eq_true, Bool.not_eq_true'] at hc
  obtain ⟨free, -⟩ := hc
  have waits : (!c.hnd && (b || c.explicitMile) && !c.quiet) = false := by
    rcases free with (h | h) | h <;> simp [h]
  simp only [Ctx.settle, during_hnd, during_explicit, during_quiet, waits, Bool.false_eq_true, if_false]

theorem tailEndsWave : TailEndsWave := by
  intro k s c h runs
  obtain ⟨-, -, -, calm⟩ := (runs_iff _ _ _).1 runs
  refine (instr_runs (own := noOwn) h runs rfl).trans (congrArg Host.Outcome.next ((settle_over calm).trans ?_))
  simp only [during_s, during_id, during_w, during_cv, during_hnd, during_advance, ctx_state h]

end

/-- Settles O23: transfers by what each body answers (`answers_of_cOp`), JOIN by its entry, TAIL by the state it leaves. -/
theorem control : Obligations.Control := ⟨controlTransfers, joinReconverges, controlFaults, tailEndsWave⟩

end Sys2Proof.Machine
end

section
/-!
PROOFS. The VEC floating-point instructions of one thread, over a pass or a span, and over an image (12 R219 to R236, 10 R191, R192);
settles O22, O27 and O28.
-/
namespace Sys2Proof.Machine

open Sys2Proof Sys2Proof.Ob

/-! ### Instructions of one thread (12 Table 12-1) -/

/-- A floating-point instruction of one thread is its common checks and one pattern per acting thread (12 R219). -/
theorem exec_fOp {i : Instr} {o : FOp} (h : fOp i = some o) : o.m.closer = false ∧ ∀ s,
    exec i s = instr s o.m noOwn fun c act => c.eachF act o.d o.f (o.x c) := by
  cases i
  case cvtf k d a dir ty rm sat =>
    cases dir <;>
    · cases h
      exact ⟨rfl, fun _ => rfl⟩
  case cvti k d a toFloat ity ty rm sat =>
    cases toFloat
    case false => cases h
    case true =>
      cases h
      exact ⟨rfl, fun _ => rfl⟩
  case fadd | fsub | fmul | fdiv | fma | fmin | fmax | fsgn | fclass | frcp | frsq | fsqrt | fexp2 | flog2 | ftrig | frnd | fpack |
      fdot =>
    cases h
    exact ⟨rfl, fun _ => rfl⟩
  all_goals cases h

/-- Settles O22: one pattern per acting thread (`exec_fOp`) is written to the destination. -/
theorem vectorFloat : Obligations.VectorFloat := by
  intro i o s c ho h runs
  obtain ⟨hm, he⟩ := exec_fOp ho
  rw [he]
  exact instr_writes_dest h runs hm fun _ _ => rfl

/-! ### Conversion to an integer, the Hadamard transform, the reduction, the expansion of an image -/

/-- Settles O27: CVTI, HADM and FRED (SAT at each node, as assumption log 51 has it) write one value per acting thread to the
destination; DQBLK checks its threads one by one and writes the wave. -/
theorem floatForms : Obligations.FloatForms := by
  intro s c h
  refine ⟨?toInteger, ?hadamard, ?reduction, ?expansion⟩
  case toInteger => exact fun k d a ity ty rm sat runs => instr_writes_dest h runs rfl fun _ _ => rfl
  case hadamard => exact fun k d a ty h32 rm sat runs => instr_writes_dest h runs rfl fun _ _ => rfl
  case reduction => exact fun k d a ty op all rm sat runs => instr_writes_dest h runs rfl fun _ _ => rfl
  case expansion =>
    intro k r a b ty rm sat runs
    exact instrEach_commits (each := fun c _ t => (dqblkFault c.w (.v r) (c.read32 t a).toNat).map fun x => (x, 0)) (e := .of _) h runs
      rfl rfl rfl rfl

/-! ### Quantisation (12 R231, R232) -/

/-- 12 R231, R232. QBLK: its one check of its own, that an S4 format's sources are v registers, passes. -/
theorem quantiseBlock : QuantiseBlock := by
  intro k d a b e q ty rm s c h n c' act runs direct elems image
  obtain rfl := ctx_state h
  have sources : ¬(q.isS4 && !(isV a && isV b)) = true := by
    cases s4 : q.isS4
    case false => exact Bool.false_ne_true
    case true =>
      obtain ⟨ha, hb⟩ := direct s4
      rw [ha, hb]
      exact Bool.false_ne_true
  exact instr_effect (own := fun _ => if q.isS4 && !(isV a && isV b) then some (cOperand 5) else none) h runs (if_neg sources) rfl

/-! ### Stochastic rounding (12 R236) -/

/-- The set of listed threads holds those of the list. -/
theorem getLsbD_lanesFrom (l : List Nat) {t : Nat} (h : t < 128) : (lanesFrom l).getLsbD t = decide (t ∈ l) := by
  have bit (m : Lanes) : (l.foldl (fun m t => m ||| (1#128 <<< t)) m).getLsbD t = (m.getLsbD t || decide (t ∈ l)) := by
    induction l generalizing m with
    | nil => simp
    | cons n l ih =>
      have own : (1#128 <<< n).getLsbD t = decide (t = n) := by
        rw [← BitVec.twoPow_eq, BitVec.getLsbD_twoPow]
        by_cases same : n = t
        · simp [same, h]
        · simp [same, Ne.symm same]
      simp [ih, own, Bool.or_assoc]
  simpa only [lanesFrom, BitVec.ofNat_eq_ofNat, BitVec.getLsbD_zero, Bool.false_or] using bit 0

/-- A set of threads is that of its members. -/
theorem lanesFrom_lanesOf (act : Lanes) : lanesFrom (lanesOf act) = act := by
  refine BitVec.eq_of_getLsbD_eq fun t ht => ?_
  rw [getLsbD_lanesFrom _ ht]
  simp [lanesOf, ht]

/-- 06 R119, R126, 12 R236. FSRN's engine is free (`syncGrv_of_sound`), and no acting thread keeps its old value. -/
theorem stochasticRounding : StochasticRounding := by
  intro k d a cls into ty sat s c h runs held idle c' n inRange sound passed
  refine instr_effect h runs (needGravel_of_held (c := c.during true) held) ((if_neg (not_lt.2 inRange)).trans ?_)
  have turn : ∀ r ∈ [32 + n], r ∉ c.gravel.bad := by simpa using sound
  refine (syncGrv_of_sound (c := c.during true) idle passed turn).trans ?_
  simp only [Bool.not_false, List.filter_true, lanesFrom_lanesOf]
  rfl

/-- Settles O28: QBLK by `quantiseBlock`, FSRN by what its engine's turn comes to (`stochasticRounding`). -/
theorem quantise : Obligations.Quantise := ⟨quantiseBlock, stochasticRounding⟩

end Sys2Proof.Machine
end

section
/-!
PROOFS. Words that the spec works out bit by bit (08 Table 8-5, 11 Table 11-8, 13 Table 13-8, 09 Table 9-11); settles O6.
-/
namespace Sys2Proof.Machine

open Sys2Proof Sys2Proof.Ob

/-- Settles O6: the decoder evaluated on each word. -/
theorem specWords : Obligations.SpecWords := by
  unfold Obligations.SpecWords
  decide +kernel

end Sys2Proof.Machine
end

section
/-!
PROOFS. Loads, near and far (13 R240 to R243, 04 R64, R74, R76); settles O29 and O30.
-/
namespace Sys2Proof.Machine

open Sys2Proof Sys2Proof.Ob

/-! ### The accesses of threads (13 R240, R241) -/

section
variable {act : Lanes} {adr : Nat → Int} {place : Nat → Int → Except (BitVec 10) Place}

/-- A thread's access passes, or its check names the cause and the address. -/
theorem eachOf_eq_none {t : Nat} : eachOf adr place t = none ↔ ∃ p, place t (adr t) = .ok p := by
  rw [eachOf]
  cases place t (adr t) <;> simp

/-- As many accesses as threads: every thread's access passes. -/
theorem place_ok_of_length (h : (accsOf act adr place).length = (lanesOf act).length) :
    ∀ t ∈ lanesOf act, ∃ p, place t (adr t) = .ok p := by
  intro t ht
  have some_ := List.filterMap_length_eq_length.1 h t ht
  cases hp : place t (adr t) with
  | ok p => exact ⟨p, rfl⟩
  | error e => rw [hp] at some_; cases some_

/-- Every thread's access passes: as many accesses as threads. -/
theorem length_accsOf (h : ∀ t ∈ lanesOf act, ∃ p, place t (adr t) = .ok p) : (accsOf act adr place).length = (lanesOf act).length := by
  refine List.filterMap_length_eq_length.2 fun t ht => ?_
  obtain ⟨p, hp⟩ := h t ht
  rw [hp]
  rfl

/-- Thread checks that find nothing pass in every acting thread. -/
theorem each_of_threadFault {w : Wave} {fields : List Field} {each : Nat → Option (BitVec 10 × Nat)}
    (h : threadFault w fields act each = none) : ∀ t ∈ lanesOf act, each t = none := by
  intro t ht
  unfold threadFault at h
  dsimp only at h
  split at h
  · next none_ =>
    have passes := List.filterMap_eq_nil_iff.1 none_ t ht
    split at passes
    · cases passes
    · simpa using passes
  · cases h

end

/-- A set of threads that is not empty has a thread. -/
theorem lanesOf_ne_nil {act : Lanes} (h : act ≠ 0) : lanesOf act ≠ [] := by
  intro empty
  rw [← lanesFrom_lanesOf act, empty] at h
  exact h rfl

/-! ### A load whose accesses pass comes to its body -/

/-- An instruction that runs carries out what its body answers. -/
theorem instrEach_answers {s : State} {c : Ctx} {m : Meta} {own : Ctx → Option (BitVec 10)}
    {each : Ctx → Lanes → Nat → Option (BitVec 10 × Nat)} {body : Ctx → Lanes → Verdict} {v : Verdict} (h : Ctx.of s = some c)
    (hr : c.runs m (each (c.during m.closer) (c.acting m.ctl)) = true) (ho : own (c.during m.closer) = none)
    (hb : body (c.during m.closer) (c.acting m.ctl) = v) :
    instrEach s m own each body = .next ((c.during m.closer).settle m.closer v) := hb ▸ instrEach_runs h hr ho

/-- The six loads are one instruction in six spaces. -/
theorem exec_ldOp {i : Instr} {sp : Space} {k : Ctl} {d base : Desc} {off : SrcB} {m : LdMods}
    (h : ldOp i = some (sp, k, d, base, off, m)) (s : State) : exec i s = loadInstr s k sp d base off m := by
  cases i
  case ldsc | ldsh | ldcv | lddv | ldpr | ldhs =>
    cases h
    rfl
  all_goals cases h

/-- No milestone is due to an instruction that runs, nor a step trap. -/
theorem calm_of_runs {c : Ctx} {m : Meta} {each : Nat → Option (BitVec 10 × Nat)} (h : c.runs m each = true) : c.calm m.closer = true := by
  obtain ⟨-, -, -, calm⟩ := (runs_iff _ _ _).1 h
  exact calm

/-- A body that commits, with no trap cause and no watchpoint matched, comes to the commit. -/
theorem next_of_ok {c : Ctx} {b : Bool} {v : Verdict} {e : Eff} (calm : c.calm b = true) (hv : v = .ok e) (hs : e.soft = none)
    (hh : e.hits = []) : Host.Outcome.next ((c.during b).settle b v) =
      (.next (c.commit b e.dest e.s) : Host.Outcome State Fault Refusal) := by
  rw [hv, settle_ok calm hs hh]

@[simp] theorem plain_closer (k : Ctl) (l : List Field) : (Meta.plain k l).closer = false := rfl

/-- An instruction whose body has an effect on the state alone and matches no watchpoint. -/
theorem instrEach_effect {s t : State} {c : Ctx} {m : Meta} {own : Ctx → Option (BitVec 10)}
    {each : Ctx → Lanes → Nat → Option (BitVec 10 × Nat)} {body : Ctx → Lanes → Verdict} {hits : List (Nat × Nat × Lanes)}
    (h : Ctx.of s = some c) (hr : c.runs m (each (c.during m.closer) (c.acting m.ctl)) = true) (ho : own (c.during m.closer) = none)
    (hb : body (c.during m.closer) (c.acting m.ctl) = .ok { Eff.of t with hits := hits }) (hh : hits = []) :
    instrEach s m own each body = .next (c.commit m.closer none t) := instrEach_commits h hr ho hb rfl hh

/-- A body that has settled the wave's own state. -/
theorem next_of_over {c : Ctx} {b : Bool} {v : Verdict} {t : State} (calm : c.calm b = true) (hv : v = .over t) :
    Host.Outcome.next ((c.during b).settle b v) = (.next t : Host.Outcome State Fault Refusal) := by
  rw [hv, settle_over calm]

/-! ### A load's body, in its parts (13 R242, 19 R337) -/

/-- The checks of a load's threads. -/
def Ctx.ldThreads (c : Ctx) (sp : Space) (base : Desc) (off : SrcB) (m : LdMods) (act : Lanes) : List LdAcc :=
  (lanesOf act).map fun t =>
    { t := t, x := c.memAddr sp t base (some off), r := c.loadPlace sp m (c.memAddr sp t base (some off)) }

/-- The accesses that pass. -/
def passed (l : List LdAcc) : List (Nat × Int × Place) := l.filterMap fun a => match a.r with
  | .ok p => some (a.t, a.x, p)
  | .error _ => none

/-- The accesses that fail, with their causes. -/
def failed (l : List LdAcc) : List (Nat × Int × BitVec 10) := l.filterMap fun a => match a.r with
  | .ok _ => none
  | .error e => some (a.t, a.x, e)

/-- The threads that a load still acts on (19 R337). -/
def Ctx.toLoad (c : Ctx) (m : LdMods) (act : Lanes) : Lanes := match m.part, c.w.replay with
  | true, some l => act &&& l
  | _, _ => act

/-- What a load does with the accesses that pass and those that fail. -/
def Ctx.loadThose (c : Ctx) (sp : Space) (d : Desc) (m : LdMods) (good : List (Nat × Int × Place))
    (bad : List (Nat × Int × BitVec 10)) : Verdict :=
  if bad.all fun b => partCause b.2.2 then c.loadBody sp d m good bad
  else match bad with
    | [] => .ok (.of c.s)
    | b :: _ => .fail { cause := b.2.2, faddr := BitVec.ofNat 57 (faddrOf b.2.1), flane := lanesFrom (bad.map Prod.fst) }

theorem toLoad_acting (c : Ctx) (k : Ctl) (m : LdMods) : c.toLoad m (c.acting k) = ldAct c k m := by
  unfold Ctx.toLoad ldAct
  cases m.part <;> cases c.w.replay <;> rfl

section
variable {c : Ctx} {sp : Space} {k : Ctl} {d base : Desc} {off : SrcB} {m : LdMods}

/-- The accesses of a load's threads. -/
abbrev Ctx.ldAccs (c : Ctx) (sp : Space) (k : Ctl) (base : Desc) (off : SrcB) (m : LdMods) : List (Nat × Int × Place) :=
  accsOf (ldAct c k m) (fun t => (c.during false).memAddr sp t base (some off)) fun _ x => (c.during false).loadPlace sp m x

/-- The check of a load's thread; a .PART load has none ahead of its body (19 R337). -/
abbrev Ctx.ldEach (c : Ctx) (sp : Space) (base : Desc) (off : SrcB) (m : LdMods) : Nat → Option (BitVec 10 × Nat) :=
  if m.part then fun _ => none
  else eachOf (fun t => (c.during false).memAddr sp t base (some off)) fun _ x => (c.during false).loadPlace sp m x

/-- Of accesses that all pass none fails. -/
theorem failed_eq_nil {act : Lanes} (all : ∀ t ∈ lanesOf act, ∃ p, c.loadPlace sp m (c.memAddr sp t base (some off)) = .ok p) :
    failed (c.ldThreads sp base off m act) = [] := by
  rw [failed, Ctx.ldThreads, List.filterMap_map, List.filterMap_eq_nil_iff]
  intro t ht
  obtain ⟨p, hp⟩ := all t ht
  simp only [Function.comp, hp]

/-- A load all of whose accesses pass comes to its body with them. -/
theorem loadInstr_runs (h : Ctx.of c.s = some c) (runs : c.runs (ldMeta sp k d base off m) (c.ldEach sp base off m) = true)
    (own : (c.during false).loadOwn sp d base off m = none)
    (all : (c.ldAccs sp k base off m).length = (lanesOf (ldAct c k m)).length) :
    loadInstr c.s k sp d base off m =
      .next ((c.during false).settle false ((c.during false).loadBody sp d m (c.ldAccs sp k base off m) [])) := by
  have checks : (fun t => if m.part then none else eachOf (fun t => (c.during false).memAddr sp t base (some off))
      (fun _ x => (c.during false).loadPlace sp m x) t) = c.ldEach sp base off m := by
    unfold Ctx.ldEach
    cases m.part <;> rfl
  have accs : passed ((c.during false).ldThreads sp base off m (ldAct c k m)) = c.ldAccs sp k base off m := by
    rw [passed, Ctx.ldThreads, List.filterMap_map]
    rfl
  have body : (c.during false).loadThose sp d m (passed ((c.during false).ldThreads sp base off m (c.toLoad m (c.acting k))))
      (failed ((c.during false).ldThreads sp base off m (c.toLoad m (c.acting k)))) =
      (c.during false).loadBody sp d m (c.ldAccs sp k base off m) [] := by
    rw [toLoad_acting, failed_eq_nil (place_ok_of_length all), accs]
    rfl
  exact instrEach_answers h (checks ▸ runs) own body

/-! ### Near loads (03 R58, R61, 04 R64) -/

/-- Lines that are there to be read, with slots for their requests. -/
theorem nearRead_ready {c : Ctx} {tag : Bool} {bytes : Nat} {places : List (Nat × Place)} {s t : State}
    (free : (places.all fun p => !(if tag then c.w.queuedDisc p.2 else c.w.mustDrain p.2 bytes)) = true)
    (stash : c.stashFill (places.map Prod.snd) = .none) (readable : (places.all fun p => c.readable p.2) = true)
    (touch : c.touchables places false = true) (slots : c.mainRequests tag c.s places = (s, none))
    (filled : c.assayRead s places = (t, true)) : c.nearRead tag bytes places = .ready t := by
  have drained : (places.any fun p => if tag then c.w.queuedDisc p.2 else c.w.mustDrain p.2 bytes) = false := by
    simpa [List.any_eq_false] using free
  simp only [Ctx.nearRead, drained, stash, readable, touch, slots, filled, Bool.false_eq_true, if_false, Bool.not_true, Bool.or_self]

/-- A near load whose lines are there to be read, with slots for its requests, has its effect. -/
theorem loadBody_near {c : Ctx} {good : List (Nat × Int × Place)} (near : isFar sp = false) (some_ : good ≠ [])
    (there : (good.all fun a => !(if m.tag then c.w.queuedDisc a.2.2 else c.w.mustDrain a.2.2 (ldBytes m)) && c.readable a.2.2) = true)
    (stash : c.stashFill (good.map fun a => a.2.2) = .none) (touch : c.touchables (placesOf good) false = true)
    (slots : (c.mainRequests m.tag c.s (placesOf good)).2 = none)
    (filled : (c.assayRead (c.mainRequests m.tag c.s (placesOf good)).1 (placesOf good)).2 = true) :
    let s' := (c.assayRead (c.mainRequests m.tag c.s (placesOf good)).1 (placesOf good)).1.touches c.vf (placesOf good) false
    c.loadBody sp d m good [] = .ok (c.loadDone sp d m
      (c.claims s' (good.filterMap fun a => c.lineBytes s' m a.2.2)) good (good.map fun a => (a.1, c.loadVal s' m a.2.2))) := by
  have ready := nearRead_ready (c := c) (tag := m.tag) (bytes := ldBytes m) (places := placesOf good)
    (by simpa [placesOf] using fun t x p hp => (by simpa using List.all_eq_true.1 there _ hp : _ ∧ _).1)
    (by rw [placesOf, List.map_map]; exact stash)
    (by simpa [placesOf] using fun t x p hp => (by simpa using List.all_eq_true.1 there _ hp : _ ∧ _).2)
    touch (Prod.ext rfl slots) (Prod.ext rfl filled)
  simp only [Ctx.loadBody, List.isEmpty_eq_false_iff.2 some_, near, Bool.not_false, Bool.false_eq_true, if_false, if_true, Ctx.loadNear,
    ← placesOf.eq_1, ready, List.isEmpty_nil]

end

/-- Settles O29: a near load's accesses pass (`loadInstr_runs`), and its lines are there (`loadBody_near`). -/
theorem nearLoads : Obligations.NearLoads := by
  intro i sp k d base off m s c op near h
  obtain rfl := ctx_state h
  dsimp only
  intro runs own some_ all there stash touch slots filled unwatched
  rw [exec_ldOp op]
  have body := loadBody_near (c := c.during false) (d := d) near some_ there stash touch slots filled
  exact (loadInstr_runs h runs own all).trans (next_of_ok (calm_of_runs runs) body rfl unwatched)

/-! ### Far loads (04 R74, R76) -/

/-- No store of its own wave holds back a far load's accesses. -/
theorem unblocked {c : Ctx} {good : List (Nat × Int × Place)} (h : (good.all fun a => !c.w.farBlocked a.2.2) = true) :
    ((placesOf good).any fun p => c.w.farBlocked p.2) = false := by
  simpa [placesOf, List.any_eq_false] using h

/-- Whether the die holds copies of all the lines that the accesses name (04 R74). -/
def Ctx.heldCopies (c : Ctx) (good : List (Nat × Int × Place)) : Bool := good.all fun a => match a.2.2 with
  | .far adr x => (c.s.farCopy c.die c.vf x (lineOf adr)).isSome
  | _ => true

section
variable {c : Ctx} {sp : Space} {d : Desc} {m : LdMods} {good : List (Nat × Int × Place)}

/-- LDHS.TAG reads nothing and gives 0 (03 R57). -/
theorem loadFar_hostTag (touch : c.touchables (placesOf good) false = true) (tagged : (m.tag && sp == .host) = true) :
    c.loadFar sp d m good =
      .done (c.loadDone sp d m (c.s.touches c.vf (placesOf good) false) good (good.map fun a => (a.1, 0))) := by
  simp only [Ctx.loadFar, ← placesOf.eq_1, touch, tagged, Bool.not_true, Bool.false_eq_true, if_false, if_true]

section
variable (touch : c.touchables (placesOf good) false = true) (untagged : (m.tag && sp == .host) = false)
  (free : (good.all fun a => !c.w.farBlocked a.2.2) = true)
include touch untagged free

/-- What a far load comes to past its first checks: it is served by copies, or asks, or has asked. -/
theorem loadFar_eq : c.loadFar sp d m good =
    if c.heldCopies good && c.w.far.isNone && decide (c.s.free % 2 = 0) then
      .done (c.loadFarDone sp d m (c.s.touches c.vf (placesOf good) false) good fun x l =>
        (c.s.farCopy c.die c.vf x l).getD ([], 0))
    else match c.w.far with
      | none => .ask (c.askFar sp false (good.map fun a => a.2.2))
      | some f => if f.lines.isEmpty then .answered f else .ask c.s := by
  simp only [Ctx.loadFar, ← placesOf.eq_1, touch, untagged, unblocked free, Bool.not_true, Bool.false_eq_true, if_false]
  rw [show (placesOf good).map Prod.snd = good.map fun a => a.2.2 from by rw [placesOf, List.map_map]; rfl]
  rfl

/-- A far load with an answer for each line that it asked for has its answers. -/
theorem loadFar_answered {f : FarReq} (far : c.w.far = some f) (lines : f.lines = []) : c.loadFar sp d m good = .answered f := by
  rw [loadFar_eq touch untagged free]
  simp only [far, lines, Option.isNone_some, Bool.and_false, Bool.false_and, Bool.false_eq_true, if_false, List.isEmpty_nil, if_true]

/-- A far load that lacks an answer waits. -/
theorem loadFar_waits {f : FarReq} (far : c.w.far = some f) (lines : f.lines ≠ []) : c.loadFar sp d m good = .ask c.s := by
  rw [loadFar_eq touch untagged free]
  simp only [far, List.isEmpty_eq_false_iff.2 lines, Option.isNone_some, Bool.and_false, Bool.false_and, Bool.false_eq_true, if_false]

/-- A far load some of whose lines have no copy asks for every line. -/
theorem loadFar_asks (far : c.w.far = none) (held : c.heldCopies good = false) :
    c.loadFar sp d m good = .ask (c.askFar sp false (good.map fun a => a.2.2)) := by
  rw [loadFar_eq touch untagged free]
  simp only [far, held, Bool.false_and, Bool.false_eq_true, if_false]

/-- A far load all of whose lines have copies asks, or is served by them, as a free value says (log 87). -/
theorem loadFar_held (far : c.w.far = none) (held : c.heldCopies good = true) :
    c.loadFar sp d m good = .ask (c.askFar sp false (good.map fun a => a.2.2)) ∨
      c.loadFar sp d m good = .done (c.loadFarDone sp d m (c.s.touches c.vf (placesOf good) false) good fun x l =>
        (c.s.farCopy c.die c.vf x l).getD ([], 0)) := by
  rw [loadFar_eq touch untagged free]
  simp only [far, held, Option.isNone_none, Bool.true_and, decide_eq_true_eq]
  by_cases even : c.s.free % 2 = 0
  · exact .inr (if_pos even)
  · exact .inl (if_neg even)

end

/-! ### What a far load answers -/

section
variable (far : isFar sp = true) (some_ : good ≠ [])
include far some_

/-- The body of a far load is its far access. -/
theorem loadBody_far : c.loadBody sp d m good [] = match c.loadFar sp d m good with
    | .done e => .ok e
    | .wait s => .stall s
    | .ask s => .over s
    | .answered f =>
      let failed := good.filterMap fun a => (c.farFault f a.2.2).map fun x => (a.1, a.2.1, x)
      let came := good.filter fun a => (c.farFault f a.2.2).isNone
      if failed.isEmpty || m.part then
        let e := c.loadFarDone sp d m (c.s.touches c.vf (placesOf came) false) came fun _ l =>
          ((f.answerAt l).map fun r => (r.bytes, r.tag)).getD ([], 0)
        if failed.isEmpty then .ok e else .part e (fltOf failed)
      else .fail (fltOf failed) := by
  simp only [Ctx.loadBody, List.isEmpty_eq_false_iff.2 some_, far, Bool.not_true, Bool.false_eq_true, if_false, List.isEmpty_nil, if_true,
    List.nil_append]
  cases c.loadFar sp d m good <;> rfl

theorem loadBody_of_done {e : Eff} (h : c.loadFar sp d m good = .done e) : c.loadBody sp d m good [] = .ok e := by
  rw [loadBody_far far some_, h]

theorem loadBody_of_ask {t : State} (h : c.loadFar sp d m good = .ask t) : c.loadBody sp d m good [] = .over t := by
  rw [loadBody_far far some_, h]

variable {f : FarReq} (answered : c.loadFar sp d m good = .answered f)
include answered

/-- Answers none of which tells of a failure give each thread its value. -/
theorem loadBody_came (ok : (good.all fun a => (c.farFault f a.2.2).isNone) = true) :
    c.loadBody sp d m good [] = .ok (c.loadFarDone sp d m (c.s.touches c.vf (placesOf good) false) good fun _ l =>
      ((f.answerAt l).map fun r => (r.bytes, r.tag)).getD ([], 0)) := by
  have failed : (good.filterMap fun a => (c.farFault f a.2.2).map fun x => (a.1, a.2.1, x)) = [] := by
    rw [List.filterMap_eq_nil_iff]
    intro a ha
    rw [Option.isNone_iff_eq_none.1 (List.all_eq_true.1 ok a ha)]
    rfl
  rw [loadBody_far far some_, answered]
  dsimp only
  rw [failed, List.filter_eq_self.2 (List.all_eq_true.1 ok)]
  rfl

/-- Failing answers fault a load that is not .PART. -/
theorem loadBody_failed (whole : m.part = false) :
    let bad := good.filterMap fun a => (c.farFault f a.2.2).map fun x => (a.1, a.2.1, x)
    bad ≠ [] → c.loadBody sp d m good [] = .fail (fltOf bad) := by
  intro bad hbad
  rw [loadBody_far far some_, answered]
  dsimp only
  exact if_neg (by rw [whole, Bool.or_false]; exact ne_true_of_eq_false (List.isEmpty_eq_false_iff.2 hbad))

end

end

/-- 13 R242, 04 R74, R76. Answers that all succeed. -/
theorem farLoadAnswers : FarLoadAnswers := by
  intro i sp k d base off m s c f op far untagged h
  obtain rfl := ctx_state h
  dsimp only
  intro runs own some_ all free touch hf lines ok unwatched
  rw [exec_ldOp op]
  have answered := loadFar_answered (c := c.during false) (d := d) touch untagged free hf lines
  exact (loadInstr_runs h runs own all).trans (next_of_ok (calm_of_runs runs) (loadBody_came far some_ answered ok) rfl unwatched)

/-- Threads act in an instruction that runs and needs one, and each passes its own check. -/
theorem threads_of_runs {c : Ctx} {m : Meta} {k : Ctl} {adr : Nat → Int} {place : Nat → Int → Except (BitVec 10) Place}
    (runs : c.runs m (eachOf adr place) = true) (needs : m.always = false) (ctl : m.ctl = k) :
    accsOf (c.acting k) adr place ≠ [] ∧ (accsOf (c.acting k) adr place).length = (lanesOf (c.acting k)).length := by
  subst ctl
  obtain ⟨-, passes, acts, -⟩ := (runs_iff _ _ _).1 runs
  have all := length_accsOf fun t ht => eachOf_eq_none.1 (each_of_threadFault passes t ht)
  refine ⟨fun none_ => lanesOf_ne_nil (acts.resolve_right (ne_true_of_eq_false needs)) ?_, all⟩
  rwa [none_, eq_comm, List.length_nil, List.length_eq_zero_iff] at all

/-- 13 R241, R242, 04 R74, R76, 22 R372, 03 R57. The other ends of a far load. -/
theorem farLoadsAsk : FarLoadsAsk := by
  intro i sp k d base off m s c op far whole h
  obtain rfl := ctx_state h
  dsimp only
  intro runs own touch
  have same : ldAct c k m = c.acting k := by rw [ldAct, whole]; rfl
  have each : c.ldEach sp base off m =
      eachOf (fun t => (c.during false).memAddr sp t base (some off)) fun _ x => (c.during false).loadPlace sp m x := by
    rw [Ctx.ldEach, whole]; rfl
  obtain ⟨some_, all⟩ := threads_of_runs runs rfl (k := k) rfl
  have calm : c.calm false = true := calm_of_runs runs
  have body := loadInstr_runs (k := k) (d := d) (base := base) (off := off) h (each.symm ▸ runs) own
    (by rw [Ctx.ldAccs, same]; exact all)
  rw [Ctx.ldAccs, same] at body
  rw [exec_ldOp op, body]
  refine ⟨fun tagged unwatched => ?tag, fun untagged free =>
    ⟨fun none_ lacks => ?asks, fun none_ held unwatched => ?held, fun f hf lines => ?waits, fun f hf lines bad => ?fails⟩⟩
  case tag => exact next_of_ok calm (loadBody_of_done far some_ (loadFar_hostTag touch tagged)) rfl unwatched
  case asks => exact next_of_over calm (loadBody_of_ask far some_ (loadFar_asks touch untagged free none_ lacks))
  case held =>
    refine (loadFar_held (c := c.during false) (d := d) touch untagged free none_ held).imp (fun asks => ?_) fun served => ?_
    · exact next_of_over calm (loadBody_of_ask far some_ asks)
    · exact next_of_ok calm (loadBody_of_done far some_ served) rfl unwatched
  case waits => exact next_of_over calm (loadBody_of_ask far some_ (loadFar_waits touch untagged free hf lines))
  case fails =>
    rw [loadBody_failed far some_ (loadFar_answered touch untagged free hf lines) whole bad]
    rfl

/-- Settles O30: answers that succeed by `farLoadAnswers`, the other ends by `farLoadsAsk`. -/
theorem farLoads : Obligations.FarLoads := ⟨farLoadAnswers, farLoadsAsk⟩

end Sys2Proof.Machine
end

section
/-!
PROOFS. Stores and STSC.PUSH join the store queue (13 R244 to R246, 05 R98); settles O31.
-/
namespace Sys2Proof.Machine

open Sys2Proof Sys2Proof.Ob

/-- The six stores are one instruction in six spaces. -/
theorem exec_stOp {i : Instr} {sp : Space} {k : Ctl} {base data : Desc} {off : SrcB} {tag : Desc} {m : StMods}
    (h : stOp i = some (sp, k, base, data, off, tag, m)) (s : State) : exec i s = storeInstr s k sp base data off tag m := by
  cases i
  case stsc | stsh | stcv | stdv | stpr | sths =>
    cases h
    rfl
  all_goals cases h

/-- A store's own check asks a .Q for v registers. -/
theorem storeOwn_of_direct {m : StMods} {data : Desc} (h : m.ty = .q → isV data = true) :
    (if m.ty == .q && !isV data then some (cOperand 5) else none) = none := by
  refine if_neg fun bad => ?_
  obtain ⟨q, indirect⟩ := Bool.and_eq_true_iff.1 bad
  rw [h (by simpa using q)] at indirect
  cases indirect

/-- 13 R244, R245, 04 R64, R72, R74, R76. A store enters its wave's queue whole. -/
theorem storesJoinTheQueue : StoresJoinTheQueue := by
  intro i sp k base data off tag m s c op h
  obtain rfl := ctx_state h
  dsimp only
  intro runs direct room touch unwatched
  have goes : ¬(!(c.during false).touchables (placesOf (accsOf (c.acting k) (fun t => (c.during false).memAddr sp t base (some off))
      fun t x => (c.during false).storePlace sp m t tag x)) true || (isFar sp && decide (c.w.cDom = 63))) = true := by
    rw [touch]
    simpa using room
  rw [exec_stOp op]
  exact instrEach_effect h runs (storeOwn_of_direct direct) (if_neg goes) unwatched

/-- 05 R98, 13 R246. STSC.PUSH appends its entries. -/
theorem pushEntries : PushEntries := by
  intro k e data tag uns ch tagged r s c h runs held ring room
  obtain rfl := ctx_state h
  dsimp only
  have mine : (c.during false).ownRing e.toNat = some r := ring
  refine instrEach_effect h runs ?own ?body rfl
  case own =>
    simp only [plain_closer, needEngine_of_held (c := c.during false) held, mine]
    rfl
  case body =>
    simp only [plain_closer, mine]
    exact if_neg (Nat.not_lt.2 room)

/-- Settles O31: the six stores by `storesJoinTheQueue`, STSC.PUSH by `pushEntries`. -/
theorem stores : Obligations.Stores := ⟨storesJoinTheQueue, pushEntries⟩

end Sys2Proof.Machine
end

section
/-!
PROOFS. Accesses that fail their checks (13 R240, R241, 19 R331, 03 R46), and atomics (13 R247 to R249, 04 R79, R80); settles O32 and O33.
-/
namespace Sys2Proof.Machine

open Sys2Proof Sys2Proof.Ob

/-- The six atomics are one instruction in six spaces. -/
theorem exec_amOp {i : Instr} {sp : Space} {k : Ctl} {d addr : Desc} {b : SrcB} {cmp : Desc} {m : AmMods}
    (h : amOp i = some (sp, k, d, addr, b, cmp, m)) (s : State) : exec i s = atomInstr s k sp d addr b cmp m := by
  cases i
  case amsc | amsh | amcv | amdv | ampr | amhs =>
    cases h
    rfl
  all_goals cases h

/-- Only the host's atomics ask for an operation that is carried there (13 R249). -/
theorem atomOwn_of_carried {sp : Space} {op : AOp} (h : sp = .host → hostOp op = true) :
    (if sp == .host && !hostOp op then some (cAtomic 0) else none) = none := by
  refine if_neg fun bad => ?_
  obtain ⟨host, other⟩ := Bool.and_eq_true_iff.1 bad
  rw [h (by simpa using host)] at other
  cases other

/-! ### Faults of checks (13 R241, 19 R331) -/

section
variable {s : State} {c : Ctx} {m : Meta} {own : Ctx → Option (BitVec 10)} {each : Ctx → Lanes → Nat → Option (BitVec 10 × Nat)}
  {body : Ctx → Lanes → Verdict}

/-- Threads that fail their checks fault the instruction whole. -/
theorem instrEach_threads_fault {f : Flt} (h : Ctx.of s = some c) (hm : m.check c = none) (ho : own (c.during m.closer) = none)
    (hf : threadFault c.w m.fields (c.acting m.ctl) (each (c.during m.closer) (c.acting m.ctl)) = some f) :
    instrEach s m own each body = .next ((c.during m.closer).precise ((c.during m.closer).told f) c.w f false) := by
  simp only [instrEach, h, Ctx.run, during_check, hm, ho, during_acting, during_w, hf]
  rfl

/-- An instruction that fails a decode check of its own traps precisely. -/
theorem instrEach_traps {x : BitVec 10} (h : Ctx.of s = some c) (hm : m.check c = none) (ho : own (c.during m.closer) = some x)
    (hx : x ∉ tellsReader) : instrEach s m own each body = .next (c.precise s c.w (.plain x) false) := by
  have told : (c.during m.closer).told (.plain x) = s := (told_of_notMem hx).trans (ctx_state (c := c) h)
  simp only [instrEach, h, Ctx.run, during_check, hm, ho, Ctx.settle, told]
  rfl

end

/-- 13 R240, R241, 19 R331, R340. Loads, stores and atomics whose checks fail in some thread. -/
theorem accessChecks : AccessChecks := by
  intro s c f h
  refine ⟨fun i sp k d base off m op whole check own fails => ?load, fun i sp k base data off tag m op check direct fails => ?store,
    fun i sp k d addr b cmp m op check carried fails => ?atomic⟩
  case load =>
    rw [exec_ldOp op]
    refine instrEach_threads_fault h check own (Eq.trans (congrArg _ ?_) fails)
    rw [whole]
    rfl
  case store =>
    rw [exec_stOp op]
    exact instrEach_threads_fault h check (storeOwn_of_direct direct) fails
  case atomic =>
    rw [exec_amOp op]
    exact instrEach_threads_fault h check (atomOwn_of_carried carried) fails

/-- 03 R46. Natural alignment. -/
theorem naturalAlignment : NaturalAlignment := by
  intro c sp k n x hn
  refine ⟨fun misaligned => if_pos misaligned, fun aligned low j hj => ?_⟩
  simp only [List.mem_cons, List.not_mem_nil, or_false] at hn
  rcases hn with rfl | rfl | rfl | rfl | rfl <;> omega

/-- Settles O32: the checks of accesses by `accessChecks`, alignment by `naturalAlignment`. -/
theorem accessFaults : Obligations.AccessFaults := ⟨accessChecks, naturalAlignment⟩

/-! ### Atomics that are performed (13 R247, R248, 04 R71, R79, R80) -/

/-- The answers that a far atomic has received; one of a near space needs none. -/
def FarReady (c : Ctx) (sp : Space) (accs : List (Nat × Int × Place)) : Prop :=
  isFar sp = true → c.w.cDom ≠ 63 ∧ ∃ f, c.w.far = some f ∧ f.lines = [] ∧ (accs.all fun a => (c.farFault f a.2.2).isNone) = true

/-- An atomic whose stores are drained, leaves touched, stash lines present and lines free at their home is performed. -/
theorem atomBody_performed {c : Ctx} {sp : Space} {d : Desc} {m : AmMods} {accs : List (Nat × Int × Place)} {args : Nat → Nat × Nat}
    (drained : c.w.sq = []) (touch : c.touchables (placesOf accs) true = true)
    (touched : (accs.all fun a => !c.s.untouched' a.2.2) = true) (stash : c.stashFill (accs.map fun a => a.2.2) = .none)
    (lines : ((devLines accs).all fun l => (c.s.lineDir l).owner.isNone && c.s.atomReady c.die l m.pkg) = true)
    (far : FarReady c sp accs) : c.atomBody sp d m accs args = c.atomDone sp d m accs args := by
  have marked : ((placesOf accs).any fun p => c.s.untouched' p.2) = false := by
    simpa [placesOf, List.any_eq_false] using touched
  have places : c.stashFill ((placesOf accs).map Prod.snd) = .none := by
    rw [placesOf, List.map_map]
    exact stash
  simp only [List.all_eq_true, Bool.and_eq_true] at lines
  have unowned : ((devLines accs).find? fun l => (c.s.lineDir l).owner.isSome) = none :=
    List.find?_eq_none.2 fun l hl => by simpa using (lines l hl).1
  have ready : ((devLines accs).all fun l => c.s.atomReady c.die l m.pkg) = true := List.all_eq_true.2 fun l hl => (lines l hl).2
  simp only [Ctx.atomBody, ← placesOf.eq_1, drained, touch, marked, places, unowned, ready, List.isEmpty_nil, Bool.not_true, Bool.or_self,
    Bool.false_eq_true, if_false]
  cases isfar : isFar sp with
  | false => rfl
  | true =>
    obtain ⟨room, f, hf, got, ok⟩ := far isfar
    have came : (accs.filterMap fun a => (c.farFault f a.2.2).map fun x => (a.1, a.2.1, x)) = [] := by
      rw [List.filterMap_eq_nil_iff]
      intro a ha
      rw [Option.isNone_iff_eq_none.1 (List.all_eq_true.1 ok a ha)]
      rfl
    simp only [room, hf, got, came, List.isEmpty_nil, Bool.not_true, Bool.false_eq_true, if_false]

/-- 13 R247, R248, 04 R71, R79, R80. Atomics. -/
theorem atomicOps : AtomicOps := by
  intro i sp k d addr b cmp m s c op h
  obtain rfl := ctx_state h
  dsimp only
  intro runs carried drained touch touched stash lines far unwatched
  rw [exec_amOp op]
  exact instrEach_effect h runs (atomOwn_of_carried carried)
    (atomBody_performed (c := c.during true) drained touch touched stash lines far) unwatched

/-- 13 R249, 19 R340. AMHS. -/
theorem hostAtomicOps : HostAtomicOps := by
  intro k d addr b cmp m s c h check ⟨add, swap, cas⟩
  refine instrEach_traps (own := fun _ => if Space.host == .host && !hostOp m.op then some (cAtomic 0) else none) h check (if_pos ?_)
    (by decide)
  cases hop : m.op <;> simp_all [hostOp]

/-- Settles O33: what an atomic does by `atomicOps`, what the host does not carry by `hostAtomicOps`. -/
theorem atomics : Obligations.Atomics := ⟨atomicOps, hostAtomicOps⟩

end Sys2Proof.Machine
end

section
/-!
PROOFS. Cache instructions, stash bindings (13 R255 to R259, 03 R51 to R54) and copies (14 R278 to R280); settles O35 and O41.
-/
namespace Sys2Proof.Machine

open Sys2Proof Sys2Proof.Ob

@[simp] theorem uni_closer (k : Ctl) (l : List Field) : (Meta.uni k l).closer = false := rfl
@[simp] theorem uni_ctl (k : Ctl) (l : List Field) : (Meta.uni k l).ctl = { k with onc := true } := rfl

/-- What comes of a check that passes. -/
theorem ite_not_of_true {α : Type} {b : Bool} {x y : α} (h : b = true) : (if !b then x else y) = y := by
  rw [h]
  rfl

/-- A range of whole lines of at most 2^20 bytes passes its check. -/
theorem rangeFault_eq_none {a n : Nat} (ha : a % 64 = 0) (hn : n % 64 = 0) (hl : n ≤ 2 ^ 20) : rangeFault a n = none := by
  rw [rangeFault, if_neg (by omega), if_neg (by omega)]

/-- 13 R256 to R259. PREF, DISC, SWB and CCTL. -/
theorem cacheInstructions : CacheInstructions := by
  intro s c h
  obtain rfl := ctx_state h
  refine ⟨fun k base off l1 runs => ?pref, fun k base off => ?disc, fun k a n runs => ?swb, fun k a n op runs => ?cctl⟩
  case pref => exact instr_effect h runs rfl rfl
  case disc =>
    dsimp only
    intro runs touch unwatched
    exact instrEach_effect h runs rfl (ite_not_of_true touch) unwatched
  case swb =>
    dsimp only
    intro aligned whole short
    refine instr_effect h runs rfl ?_
    simp only [uni_closer, uni_ctl, rangeFault_eq_none aligned whole short]
    rfl
  case cctl =>
    dsimp only
    intro aligned whole short touch
    refine instr_effect h runs rfl ?_
    simp only [uni_closer, uni_ctl, rangeFault_eq_none aligned whole short]
    exact ite_not_of_true touch

/-- 13 R255, 03 R51, R52, R54. SMAP and SMAP.UNB. -/
theorem stashBindings : StashBindings := by
  intro s c h
  obtain rfl := ctx_state h
  refine ⟨fun k slot g o n runs => ?bind, fun k slot b runs bound present filling drained home => ?unbind, fun k slot runs free => ?unset⟩
  case bind =>
    dsimp only
    intro passes touch
    refine instr_effect h runs rfl ?_
    simp only [uni_closer, uni_ctl, passes]
    exact ite_not_of_true touch
  case unbind =>
    refine instr_effect h runs rfl ?_
    simp only [uni_closer, during_cw, during_s, during_crewKey, bound, present, filling, drained, home, List.isEmpty_nil, Bool.not_true,
      Bool.or_self, Bool.false_eq_true, if_false]
  case unset =>
    refine instr_fails h runs rfl ?_ (by decide)
    simp only [uni_closer, during_cw, free]

/-- Settles O35: cache instructions by `cacheInstructions`, bindings by `stashBindings`. -/
theorem caches : Obligations.Caches := ⟨cacheInstructions, stashBindings⟩

/-! ### Copies (14 R278 to R280, 04 R82) -/

/-- With room in CPY and the wave's stores performed, a copy joins the wave's. -/
theorem issueCopy_of_room {c : Ctx} (room : copyRoom c = true) (op : CopyOp) : c.issueCopy op = .ok (.of (issuedCopy c op)) := by
  simp only [copyRoom, Bool.and_eq_true, decide_eq_true_eq] at room
  obtain ⟨less, drained⟩ := room
  refine if_neg ?_
  simp [less, drained]

theorem copyLines_one_row (crews : List Nat) (n : Nat) :
    Ob.copyLines crews 1 n = crews.flatMap fun i => (List.range (n / 64)).map fun j => (0, j, i) := by
  simp [Ob.copyLines]

theorem copyLines_one_crew (crew rows n : Nat) :
    Ob.copyLines [crew] rows n = (List.range rows).flatMap fun r => (List.range (n / 64)).map fun j => (r, j, crew) := by
  simp [Ob.copyLines]

/-- An even register with the next one makes a pair (14 R277). -/
theorem needPair_of_even {c : Ctx} {r : BitVec 6} (even : r.toNat % 2 = 0) (inRange : r.toNat + 1 < c.w.kregs) :
    c.needPair (.k r) = none := by
  have there : ¬(if c.hnd then max c.w.kregs 16 else c.w.kregs) ≤ r.toNat + 1 := by split <;> omega
  simp only [Ctx.needPair, even, there, ne_eq, not_true_eq_false, if_false]

@[simp] theorem kGroup_fst (c : Ctx) (b : Bool) (r : BitVec 6) : ((c.during b).kGroup (.k r) 2)[0]?.getD 0 = c.w.getK r.toNat := rfl
@[simp] theorem kGroup_snd (c : Ctx) (b : Bool) (r : BitVec 6) : ((c.during b).kGroup (.k r) 2)[1]?.getD 0 = c.w.getK (r.toNat + 1) := rfl

/-- Rows of a copy that pass its checks (14 R278). -/
theorem rows_pass {row rows ds ss : Nat} (hr : row % 64 = 0) (hd : ds % 64 = 0) (hs : ss % 64 = 0) (least : 64 ≤ row) (one : 1 ≤ rows)
    (most : rows ≤ 65536) (size : row * rows ≤ 2 ^ 20) (apart : row ≤ ds) :
    ¬(row % 64 ≠ 0 ∨ ds % 64 ≠ 0 ∨ ss % 64 ≠ 0 ∨ row < 64 ∨ rows = 0 ∨ 65536 < rows ∨ 2 ^ 20 < row * rows ∨ ds < row) := by
  omega

/-- Settles O41: the operands pass, and the copy joins the wave's (`issueCopy_of_room`). -/
theorem copies : Obligations.Copies := by
  intro s c h room
  obtain rfl := ctx_state h
  refine ⟨fun k d a n mask dsp ssp cv mc runs => ?copy, fun k d a r dsp ssp runs even inRange => ?cpy2⟩
  case copy =>
    dsimp only
    intro acts passes
    refine instr_effect h runs rfl ?_
    refine (if_neg acts).trans ?_
    dsimp only [Meta.wide, Meta.uni, Meta.plain]
    rw [passes]
    refine (issueCopy_of_room (c := c.during false) room _).trans ?_
    rw [copyLines_one_row]
    rfl
  case cpy2 =>
    dsimp only
    intro hr hd hs least one most size apart ha hb dstIn srcIn
    refine instr_effect h runs (needPair_of_even (c := c.during false) even inRange) ?_
    refine (if_neg (rows_pass hr hd hs least one most size apart)).trans ((if_neg (not_not.2 ha)).trans ((if_neg (not_not.2 hb)).trans ?_))
    dsimp only [Meta.wide, Meta.uni, Meta.plain]
    simp only [kGroup_fst, kGroup_snd, during_cw, during_cv, during_id, dstIn, srcIn]
    refine (issueCopy_of_room (c := c.during false) room _).trans ?_
    rw [copyLines_one_crew]
    rfl

end Sys2Proof.Machine
end

section
/-!
PROOFS. System registers and probes (14 R287 to R291, 02 R43, R44), TRAP and RTE (19 R330, R335, R336); settles O44 and O46.
-/
namespace Sys2Proof.Machine

open Sys2Proof Sys2Proof.Ob

@[simp] theorem during_vf (c : Ctx) (b : Bool) : (c.during b).vf = c.vf := rfl
@[simp] theorem during_die (c : Ctx) (b : Bool) : (c.during b).die = c.die := rfl

/-! ### System registers -/

/-- A system register that exists passes the check of its number (14 R287). -/
theorem sysNumber_passes {n : BitVec 6} {b : Option (BitVec 10)} (h : n.toNat ≤ 15) :
    firstOf (if 15 < n.toNat then some (cInstr 9) else none) b = b := by
  rw [if_neg (Nat.not_lt.2 h)]
  rfl

/-- What a kernel may read, as the statement has it (02 Table 2-5). -/
theorem kernelReads_iff (n : Nat) : kernelReads n = true ↔ 6 ≤ n ∧ n ≤ 10 ∨ 12 ≤ n := by
  simp [kernelReads]

/-- SYSW in a handler, to a register that takes the value, puts the wave that has it (02 R44). -/
theorem exec_sysw_of_setSys {s : State} {c : Ctx} {k : Ctl} {n : BitVec 6} {a : Desc} {w : Wave} (h : Ctx.of s = some c)
    (runs : c.runs (.wide k [src a 2]) = true) (hnd : c.hnd = true) (number : n.toNat ≤ 15) (writes : handlerWrites n.toNat = true)
    (takes : c.w.setSys n.toNat ((c.during false).addr (c.acting { k with onc := true }) a) = some w) :
    exec (.sysw k n a) s = .next (c.commit false none (c.put w)) := by
  have passes : (!(c.hnd && handlerWrites n.toNat)) = false := by rw [hnd, writes]; rfl
  refine instr_effect h runs ?_ ?_
  · rw [sysNumber_passes number]
    exact if_neg (ne_true_of_eq_false passes)
  · simp only [wide_closer, wide_ctl, during_w, takes, during_put]

/-- 14 R287, R289, R291, 02 R43, R44. SYSR, SYSW and ACHK. -/
theorem systemRegisterAccess : SystemRegisterAccess := by
  intro s c h
  obtain rfl := ctx_state h
  refine ⟨fun k r n runs hn allowed notPc => ?read, fun k r n check kernel hidden => ?readTraps, fun k n a runs hnd => ?write,
    fun k n a check hn kernel => ?writeTraps, fun k runs => ?achk⟩
  case read =>
    have readable : (!c.hnd && !kernelReads n.toNat) = false := by
      rcases allowed with hnd | reads
      · rw [hnd]
        rfl
      · rw [(kernelReads_iff _).2 (reads.imp_left id), Bool.not_true, Bool.and_false]
    refine instr_effect h runs ?_ ?_
    · rw [sysNumber_passes hn]
      exact if_neg (ne_true_of_eq_false readable)
    · simp only [notPc, if_false]
      rfl
  case readTraps =>
    have number : n.toNat ≤ 15 ∧ ¬(6 ≤ n.toNat ∧ n.toNat ≤ 10 ∨ 12 ≤ n.toNat) := by
      rcases hidden with low | rfl
      · omega
      · decide
    have unreadable : (!c.hnd && !kernelReads n.toNat) = true := by
      rw [kernel, eq_false_of_ne_true (mt (kernelReads_iff _).1 number.2)]
      rfl
    refine instr_traps h check ?_ (by decide)
    rw [sysNumber_passes number.1]
    exact if_pos unreadable
  case write =>
    refine ⟨?epc, ?flaneLow, ?flaneHigh, ?mile, ?milepc, ?iwb, ?iwl⟩
    case iwb =>
      rintro rfl fits
      exact exec_sysw_of_setSys h runs hnd (by decide) rfl (if_neg (Nat.not_lt.2 fits))
    case iwl =>
      rintro rfl fits
      exact exec_sysw_of_setSys h runs hnd (by decide) rfl (if_neg (Nat.not_lt.2 fits))
    all_goals
      rintro rfl
      exact exec_sysw_of_setSys h runs hnd (by decide) rfl rfl
  case writeTraps =>
    refine instr_traps h check ?_ (by decide)
    rw [sysNumber_passes hn]
    refine if_pos ?_
    rw [during_hnd, kernel]
    rfl
  case achk => exact instr_effect h runs rfl rfl

/-! ### PROBE (14 R290, Table 14-8) -/

section
variable {c : Ctx} {a : Nat} {sp : Space} {k : Access}

theorem probe_of_missing (h : 2 ^ 57 ≤ a ∨ 2 ^ 56 ≤ a ∧ c.hnd = false ∨ c.s.lookup c.vf c.die a = none) : c.probe a sp k = 0 := by
  unfold Ctx.probe
  split
  · rfl
  · next inRange =>
    have unmapped : c.s.lookup c.vf c.die a = none := by
      simp only [Bool.or_eq_true, Bool.and_eq_true, decide_eq_true_eq, Bool.not_eq_true', not_or, not_and] at inRange
      obtain ⟨below, level⟩ := inRange
      rcases h with high | ⟨high, kernel⟩ | none
      · exact absurd high below
      · exact absurd kernel (level high)
      · exact none
    rw [unmapped]

theorem probe_of_found {x : Xlat} (below : a < 2 ^ 57) (level : a < 2 ^ 56 ∨ c.hnd = true) (found : c.s.lookup c.vf c.die a = some x) :
    c.probe a sp k =
      let b (v : Bool) (n : Nat) : Nat := if v then 2 ^ n else 0
      if sp.accepts x.cls && k.permits x then
        BitVec.ofNat 64 (2 ^ 13 * x.psz + 2 ^ 7 * x.set + 2 ^ 4 * x.cls + b x.pat 3 + b x.pw 2 + b x.pr 1 + 1)
      else 0 := by
  have inRange : ¬(decide (2 ^ 57 ≤ a) || (decide (2 ^ 56 ≤ a) && !c.hnd)) = true := by
    simp only [Bool.or_eq_true, Bool.and_eq_true, decide_eq_true_eq, Bool.not_eq_true', not_or, not_and, Bool.not_eq_false]
    exact ⟨Nat.not_le.2 below, fun high => level.resolve_left (Nat.not_lt.2 high)⟩
  rw [Ctx.probe, if_neg inRange, found]
  dsimp only
  cases sp.accepts x.cls <;> cases k.permits x <;> rfl

end

/-- PROBE writes its result in the lowest acting thread. -/
theorem exec_probe {s : State} {c : Ctx} {k : Ctl} {r : BitVec 6} {addr : Desc} (sp : PrSpace) (kind : PrKind) (h : Ctx.of s = some c)
    (runs : c.runs (.wide k [dst (.k r), src addr 2]) = true) :
    exec (.probe k (.k r) addr sp kind) s = .next (c.commit false none ((c.during false).dest (.k r) true
      [(leader (c.acting { k with onc := true }), (c.during false).probe ((c.during false).addr (c.acting { k with onc := true }) addr).toNat
        (PrSpace.space sp) (PrKind.access kind))] s)) :=
  instr_effect h runs rfl (ctx_state h ▸ rfl)

/-- 14 R290, Table 14-8. PROBE. -/
theorem probes : Probes := by
  intro k r addr sp kind s c h
  obtain rfl := ctx_state h
  intro runs
  dsimp only
  refine ⟨fun missing => ?missing, fun x below level found => ?found⟩
  case missing => rw [exec_probe sp kind h runs, probe_of_missing (c := c.during false) missing]
  case found => rw [exec_probe sp kind h runs, probe_of_found (c := c.during false) below level found]

/-- Settles O44: registers by `systemRegisterAccess`, PROBE by `probes`. -/
theorem systemRegisters : Obligations.SystemRegisters := ⟨systemRegisterAccess, probes⟩

/-! ### TRAP and RTE -/

/-- A body that raises a TRAP in a state of the wave's that is not held back, outside the handler, enters the trap after the
instruction (19 R330, R338). -/
theorem settle_soft {c : Ctx} {b : Bool} {e : Eff} {w : Wave} {x : BitVec 10} {t : State} (calm : c.calm b = true)
    (kernel : c.hnd = false) (hw : e.s.wave? c.id = some w) (soft : e.soft = some x) (hits : e.hits = [])
    (entered : ((e.s.setWave c.id (c.move e.dest (c.advance b w))).checked c.w.core).trapEntry c.id (c.move e.dest (c.advance b w)) c.cv
      { kind := 2, cause := x, faddr := 0, flane := 0, part := false, dbg := 0, epc := (c.move e.dest (c.advance b w)).pc,
        hdr := ((c.move e.dest (c.advance b w)).clause.map Clause.addr).getD (c.move e.dest (c.advance b w)).pc } = some t) :
    (c.during b).settle b (.ok e) = t := by
  simp only [Ctx.calm, kernel, Bool.false_or, Bool.and_eq_true, Bool.or_eq_true, Bool.not_eq_true'] at calm
  obtain ⟨free, unstepped⟩ := calm
  have waits : (!c.hnd && (b || c.explicitMile) && !c.quiet) = false := by
    rcases free with h | h <;> simp [h]
  simp only [Ctx.settle, during_hnd, during_explicit, during_quiet, waits, Bool.false_eq_true, if_false]
  unfold Ctx.finish
  simp only [during_id, during_move, during_advance, during_w, during_hnd, hw, soft, hits, kernel, unstepped, Bool.not_false,
    Bool.true_and, Bool.false_eq_true, if_false, List.foldl_nil, Option.isSome_some, if_true, Option.elim_none]
  exact (congrArg (fun r => match r with | some s => s | none => c.s.stalled c.id) entered)

/-- 19 R330, R336, 14 R288. TRAP. -/
theorem softwareTrap : SoftwareTrap := by
  intro k n s c w h runs kernel hw t
  obtain rfl := ctx_state h
  intro w' entered
  refine (instr_runs (own := noOwn) h runs rfl).trans (congrArg Host.Outcome.next ?_)
  exact settle_soft (calm_of_runs runs) kernel hw rfl rfl entered

/-- 19 R335. RTE. -/
theorem returnFromTrap : ReturnFromTrap := by
  intro k s c h
  obtain rfl := ctx_state h
  refine ⟨fun b runs hnd aligned drained frame => ?returns, fun check kernel => ?kernel⟩
  case returns =>
    have passes : (if !c.hnd then some (cProtect 4) else if c.w.epc.extractLsb' 0 3 != 0 then some (cAlign 2) else none) = none := by
      rw [hnd, aligned]
      rfl
    refine (instr_runs h runs passes).trans ?_
    refine next_of_over (calm_of_runs runs) ?_
    refine (ite_not_of_true (by rw [during_w, drained]; rfl)).trans ?_
    simp only [wide_closer, during_w, during_s, during_vf, during_die, frame]
    rfl
  case kernel =>
    refine instr_traps h check ?_ (by decide)
    rw [during_hnd, kernel]
    rfl

/-- Settles O46: TRAP by `softwareTrap`, RTE by `returnFromTrap`. -/
theorem traps : Obligations.Traps := ⟨softwareTrap, returnFromTrap⟩

end Sys2Proof.Machine
end

section
/-!
PROOFS. TASK and GRID (14 R281, R283, 18 R308, R309, R316), signals, messages, rings and collectives (14 R282, R284 to R286); settles O42
and O43.
-/
namespace Sys2Proof.Machine

open Sys2Proof Sys2Proof.Ob

/-! ### What leaves the active set, and what takes a line at its home -/

/-- A body that parks its wave in a state that holds it, with nothing that holds the commit back. -/
theorem next_of_park {c : Ctx} {b : Bool} {v : Verdict} {t : State} {r : WaitRec} {w : Wave} (calm : c.calm b = true)
    (hv : v = .park t r) (hw : t.wave? c.id = some w) : Host.Outcome.next ((c.during b).settle b v) =
      (.next (t.setWave c.id { w with wait := some r, woken := false, stall := false }) : Host.Outcome State Fault Refusal) := by
  simp only [Ctx.calm, Bool.and_eq_true, Bool.or_eq_true, Bool.not_eq_true'] at calm
  obtain ⟨free, -⟩ := calm
  have waits : (!c.hnd && (b || c.explicitMile) && !c.quiet) = false := by
    rcases free with (h | h) | h <;> simp [h]
  simp only [hv, Ctx.settle, during_hnd, during_explicit, during_quiet, during_id, waits, hw, Bool.false_eq_true, if_false]

/-- An access at a line that is free at its home, its leaf's ACC and DTY set, goes on. -/
theorem atLine_free {c : Ctx} {va : Nat} {p : Place} {pkg : Bool} {go : Unit → Verdict} (touch : c.touchables [(va, p)] true = true)
    (touched : c.s.untouched' p = false) (unowned : (c.s.lineDir (lineOf p.adr)).owner = none)
    (ready : c.s.atomReady c.die (lineOf p.adr) pkg = true) : c.atLine va p pkg go = go () := by
  simp only [Ctx.atLine, touch, touched, unowned, ready, Option.isSome_none, Bool.not_true, Bool.false_eq_true, if_false]

/-! ### TASK -/

/-- 14 R281, 18 R316. TASK. -/
theorem taskSubmission : TaskSubmission := by
  intro k entry arg r s c gid s1 args h
  obtain rfl := ctx_state h
  dsimp only
  intro runs grid ready loaded
  have own : (if c.acting k ≠ 0 ∧ (c.s.taskGrid c.vf (c.w.getK r.toNat).toNat).isNone then some (cQueue 4) else none) = none := by
    rw [grid]
    exact if_neg fun bad => by cases bad.2
  have unheld : ¬(!c.hnd && !c.quiet) = true := by
    rw [← Bool.not_or, ready]
    decide
  have live : (c.during true).s.taskGrid (c.during true).vf (((c.during true).kGroup (.k r) 1).headD 0).toNat = some gid := grid
  have chunks : (c.during true).loadChunks ((lanesOf (c.acting k)).drop (c.during true).taken)
      (((lanesOf (c.acting k)).drop (c.during true).taken).map fun t => (((c.during true).read64 t arg false).toNat, 32)) =
        .ok (s1, args, []) := loaded
  refine ⟨fun all => ?all, fun short full w hw => ?full⟩
  case all =>
    refine instrEach_effect (hits := []) h runs own ?_ rfl
    dsimp only [Meta.plain]
    rw [live]
    dsimp only
    refine (if_neg unheld).trans ?_
    rw [chunks]
    exact if_pos all
  case full =>
    refine (instrEach_runs h runs own).trans (next_of_park (calm_of_runs runs) ?_ hw)
    dsimp only [Meta.plain]
    rw [live]
    dsimp only
    refine (if_neg unheld).trans ?_
    rw [chunks]
    exact (if_neg short).trans (if_pos full)

/-! ### GRID -/

/-- A queue that is not enabled, in its registers or at the device, turns a GRID away. -/
theorem gridAppend_of_disabled {c : Ctx} {s : State} {n : Nat} {b : List Byte} (up : s.fw.rcv = false)
    (off : (lookD (s.fn c.vf).queues n Queue.reset).en = false ∨ (lookD (s.fn c.vf).queues n Queue.reset).dev = false) :
    c.gridAppend s n b = .fail (.plain (cQueue 5)) := by
  refine (if_neg (ne_true_of_eq_false up)).trans (if_pos ?_)
  rcases off with off | off <;> simp [off]

/-- A GRID finds its queue enabled, with its descriptor at `pa`, on a line that is free at its home (18 R308). -/
structure GridMeets (c : Ctx) (s : State) (n pa : Nat) : Prop where
  up : s.fw.rcv = false
  below : n < 64
  en : (lookD (s.fn c.vf).queues n Queue.reset).en = true
  dev : (lookD (s.fn c.vf).queues n Queue.reset).dev = true
  desc : s.queueDesc c.vf c.die n = some pa
  unowned : (s.lineDir (lineOf pa)).owner = none
  ready : s.atomReady c.die (lineOf pa) false = true
  readable : s.lineErr (lineOf pa) = none

theorem GridMeets.enabled {c : Ctx} {s : State} {n pa : Nat} (m : GridMeets c s n pa) :
    (64 ≤ n ∨ (!(lookD (s.fn c.vf).queues n Queue.reset).en) = true ∨ (!(lookD (s.fn c.vf).queues n Queue.reset).dev) = true) = False := by
  simp [m.en, m.dev, m.below]

/-- The address of the record that TL names (18 R308). -/
def Ctx.recordAt (c : Ctx) (s : State) (n pa : Nat) : Nat :=
  let x := lookD (s.fn c.vf).queues n Queue.reset
  x.base + 128 * (s.devVal (homeDie pa) (pa + 8) 8 % x.size)

/-- The state with a record in its place and TL one higher. -/
def Ctx.appended (c : Ctx) (s : State) (n pa : Nat) (xl : Xlat) (slot : Nat) (b : List Byte) : State :=
  let x := lookD (s.fn c.vf).queues n Queue.reset
  let h := homeDie pa
  let hd := s.devVal h pa 8
  let tl := s.devVal h (pa + 8) 8
  let s := (linesOf slot none 2 b).foldl (fun s w => s.writeFrom h c.die w (.wave c.w.core)) (s.cache c.vf (c.recordAt s n pa) xl)
  let s := s.atomWrite c.die c.w.core (pa + 8) 8 (tl + 1) false
  let f := s.fn c.vf
  let s := s.setFn c.vf { f with queues := ins f.queues n { x with hd := hd, tail := (tl + 1) % 2 ^ 64 } }
  (s.setWave c.id ((s.wave? c.id).getD c.w).noSpin).markSubmitted c.id.conv

section
variable {c : Ctx} {s : State} {n pa : Nat} {b : List Byte}

/-- A descriptor whose EN is clear turns a GRID away. -/
theorem gridAppend_of_cleared (m : GridMeets c s n pa) (off : s.devVal (homeDie pa) (pa + 0x1D) 1 % 2 = 0) :
    c.gridAppend s n b = .fail (.plain (cQueue 5)) := by
  simp only [Ctx.gridAppend, m.up, m.enabled, m.desc, m.unowned, m.ready, m.readable, off, Bool.false_eq_true,
    if_false, Bool.not_true, Option.isSome_none, if_true]

/-- With room in the queue and its line at hand, the record is in its place. -/
theorem gridAppend_of_room {xl : Xlat} {slot : Nat} (m : GridMeets c s n pa) (on : s.devVal (homeDie pa) (pa + 0x1D) 1 % 2 = 1)
    (room : (s.devVal (homeDie pa) (pa + 8) 8 + 2 ^ 64 - s.devVal (homeDie pa) pa 8) % 2 ^ 64 <
      (lookD (s.fn c.vf).queues n Queue.reset).size)
    (there : s.saveAddr c.vf c.die (c.recordAt s n pa) true = .ok (xl, slot)) (touch : s.touchable xl true = true)
    (touched : s.untouched xl true = false)
    (writes : ([slot, slot + 64].all fun l => s.canWrite (homeDie pa) l && s.abreast (homeDie pa) l c.die) = true) :
    c.gridAppend s n b = .ok (.of (c.appended s n pa xl slot b)) := by
  have set : ¬s.devVal (homeDie pa) (pa + 0x1D) 1 % 2 = 0 := by omega
  rw [Ctx.recordAt] at there
  simp only [Ctx.gridAppend, m.up, m.enabled, m.desc, m.unowned, m.ready, m.readable, set, Nat.not_le.2 room, there,
    touch, touched, writes, Bool.false_eq_true, if_false, Bool.not_true, Option.isSome_none]
  rfl

end

/-- A GRID of an acting thread with a record that it can read. -/
theorem exec_grid {k : Ctl} {rec_ : Desc} {q : SrcB} {c : Ctx} {s1 : State} {b0 b1 : List Byte} (h : Ctx.of c.s = some c)
    (runs : c.runs { Meta.wide k (src rec_ 2 :: srcB q) with last := true, closer := true, always := true } = true)
    (acts : c.acting { k with onc := true } ≠ 0)
    (below : ((c.during true).readB32 (leader (c.acting { k with onc := true })) q).toNat < 64)
    (loaded : (c.during true).loadChunks [leader (c.acting { k with onc := true }), leader (c.acting { k with onc := true })]
      [(((c.during true).addr (c.acting { k with onc := true }) rec_).toNat, 64),
        (((c.during true).addr (c.acting { k with onc := true }) rec_).toNat + 64, 64)] = .ok (s1, [b0, b1], []))
    (ready : (c.hnd || c.quiet) = true) (told : s1.pkg.length = c.s.pkg.length) :
    exec (.grid k rec_ q) c.s = .next ((c.during true).settle true
      (match c.gridAppend s1 ((c.during true).readB32 (leader (c.acting { k with onc := true })) q).toNat (b0 ++ b1) with
        | .ok e => .ok { e with hits := [] }
        | v => v)) := by
  have unheld : ¬(!c.hnd && !c.quiet) = true := by
    rw [← Bool.not_or, ready]
    decide
  refine instrEach_answers (own := noOwn) h runs rfl ?_
  refine (if_neg fun bad => absurd bad.2 (Nat.not_le.2 below)).trans ((if_neg acts).trans ?_)
  dsimp only [Meta.wide, Meta.uni, Meta.plain]
  rw [loaded]
  refine (if_neg unheld).trans ((if_neg (not_not.2 told)).trans ?_)
  rw [List.flatten_cons, List.flatten_cons, List.flatten_nil, List.append_nil]
  rfl

/-- 14 R283, 18 R308, R309, 23 R387. GRID. -/
theorem gridLaunch : GridLaunch := by
  intro k rec_ q s c s1 b0 b1 h
  obtain rfl := ctx_state h
  dsimp only
  intro runs acts
  have settle_bad : Host.Outcome.next ((c.during true).settle true (.fail (.plain (cQueue 5)))) =
      (.next ((c.during true).precise c.s c.w (.plain (cQueue 5)) false) : Host.Outcome State Fault Refusal) := by
    rw [Ctx.settle, told_of_notMem (c := c.during true) (by decide)]
    rfl
  refine ⟨fun high => ?high, fun below loaded ready told => ⟨fun recovery => ?ignored, fun up off => ?disabled,
    fun pa up en dev desc unowned free readable => ⟨fun off => ?cleared, fun on room xl slot there touch touched writes => ?appended⟩⟩⟩
  case high =>
    exact instr_fails (c := c) (own := noOwn) h runs rfl (if_pos ⟨.inl acts, high⟩) (by decide)
  case ignored =>
    rw [exec_grid h runs acts below loaded ready told, Ctx.gridAppend, if_pos recovery]
    exact next_of_ok (calm_of_runs runs) rfl rfl rfl
  case disabled =>
    rw [exec_grid h runs acts below loaded ready told, gridAppend_of_disabled up off]
    exact settle_bad
  case cleared =>
    rw [exec_grid h runs acts below loaded ready told, gridAppend_of_cleared ⟨up, below, en, dev, desc, unowned, free, readable⟩ off]
    exact settle_bad
  case appended =>
    rw [exec_grid h runs acts below loaded ready told,
      gridAppend_of_room ⟨up, below, en, dev, desc, unowned, free, readable⟩ on room there touch touched writes]
    exact next_of_ok (calm_of_runs runs) rfl rfl rfl

/-- Settles O42: TASK by `taskSubmission`, GRID by `gridLaunch`. -/
theorem submission : Obligations.Submission := ⟨taskSubmission, gridLaunch⟩

/-! ### Signals and messages -/

/-- 14 R282, 04 R83. SGNL. -/
theorem signals : Signals := by
  intro k addr b set scope s c p h
  obtain rfl := ctx_state h
  dsimp only
  intro runs located drained quiet fence touch touched unowned ready good unwatched
  have fenced : (c.during true).fenceReady (SgScope.fence scope) = true := by cases scope <;> exact fence
  have free : ¬(!c.w.sq.isEmpty || !c.quiet || !(c.during true).fenceReady (SgScope.fence scope)) = true := by
    rw [drained, quiet, fenced]
    decide
  refine instrEach_effect (own := noOwn) (each := fun _ _ _ => none) h runs rfl ?_ unwatched
  dsimp only [Meta.wide, Meta.uni, Meta.plain]
  rw [located]
  refine (if_neg free).trans ((atLine_free touch touched unowned ready).trans ?_)
  rw [good]
  cases scope <;> rfl

/-- A multiple of 4 with the three after it makes a quad (14 R277). -/
theorem needQuad_of_aligned {c : Ctx} {r : BitVec 6} (aligned : r.toNat % 4 = 0) (inRange : r.toNat + 3 < c.w.kregs) :
    c.needQuad (.k r) = none := by
  have there : ¬(if c.hnd then max c.w.kregs 16 else c.w.kregs) ≤ r.toNat + 3 := by split <;> omega
  simp only [Ctx.needQuad, aligned, there, ne_eq, not_true_eq_false, if_false]

section
variable {c : Ctx} {k : Ctl} {act : Lanes} {pd : BitVec 3} {nb : Bool} {hdr : Nat} {p q : Place} {r : List Byte} {x : RingHdr}

/-- CBUF finds its ring's header on a line that is free at its home (14 R285). -/
structure RingMeets (c : Ctx) (hdr : Nat) (p : Place) (x : RingHdr) : Prop where
  drained : c.w.sq = []
  touch : c.touchables [(hdr, p)] true = true
  touched : c.s.untouched' p = false
  unowned : (c.s.lineDir (lineOf p.adr)).owner = none
  ready : c.s.atomReady c.die (lineOf p.adr) false = true
  good : c.badAt p 64 = none
  there : c.s.ringHdr (homeDie p.adr) p.adr = some x

/-- On a full ring CBUF.NB writes its predicate alone. -/
theorem pushRing_of_full (m : RingMeets c hdr p x) (full : x.size ≤ x.count) : c.pushRing k act pd true hdr p r =
    .ok (.of ((c.writePred c.s k pd false).markSubmitted c.id.conv)) := by
  refine (if_neg (by rw [m.drained]; decide)).trans ((atLine_free m.touch m.touched m.unowned m.ready).trans ?_)
  rw [m.good, m.there]
  exact (if_pos full).trans (if_pos rfl)

/-- The address of the record at TAIL (18 R324). -/
def RingHdr.recordAt (x : RingHdr) : Nat := x.base + 32 * (x.tail % x.size)

/-- The state with a record in a ring and TAIL one higher. -/
def Ctx.pushed (c : Ctx) (hdr : Nat) (p q : Place) (x : RingHdr) (r : List Byte) : State :=
  let s := (c.s.touches c.vf [(hdr, p)] true).touches c.vf [(x.recordAt, q)] true
  let s := s.writeFrom (homeDie p.adr) c.die (lineWrite q.adr r none) (.wave c.w.core)
  let s := s.atomWrite c.die c.w.core (p.adr + 8) 8 (x.tail + 1) false
  (s.setWave c.id ((s.wave? c.id).getD c.w).noSpin).markSubmitted c.id.conv

/-- With room in the ring and the record's line at hand, the record is in its place. -/
theorem pushRing_of_room (m : RingMeets c hdr p x) (room : x.count < x.size)
    (located : c.locate .device .atomic 32 x.recordAt = .ok q) (touch : c.touchables [(x.recordAt, q)] true = true)
    (touched : c.s.untouched' q = false) (kept : c.s.memLost q.adr = false) (writes : c.s.canWrite (homeDie p.adr) (lineOf q.adr) = true)
    (abreast : c.s.abreast (homeDie p.adr) (lineOf q.adr) c.die = true) : c.pushRing k act pd nb hdr p r =
      .ok { Eff.of (c.writePred (c.pushed hdr p q x r) k pd true) with
        hits := c.watchHits .device false true 8 [(leader act, hdr + 8)] ++ c.watchHits .device false true 32 [(leader act, x.recordAt)] } := by
  have free : ¬(!c.s.canWrite (homeDie p.adr) (lineOf q.adr) || !c.s.abreast (homeDie p.adr) (lineOf q.adr) c.die) = true := by
    rw [writes, abreast]
    decide
  rw [RingHdr.recordAt] at located
  refine (if_neg (by rw [m.drained]; decide)).trans ((atLine_free m.touch m.touched m.unowned m.ready).trans ?_)
  rw [m.good, m.there]
  refine (if_neg (Nat.not_le.2 room)).trans ?_
  dsimp only
  rw [located]
  refine (ite_not_of_true touch).trans ((if_neg (ne_true_of_eq_false touched)).trans ?_)
  exact (if_neg (ne_true_of_eq_false kept)).trans (if_neg free)

end

/-- 14 R284, R285, 18 R324, R325. CMSG and CBUF. -/
theorem messagesAndRings : MessagesAndRings := by
  intro k addr r s c h aligned inRange
  obtain rfl := ctx_state h
  dsimp only
  refine ⟨fun p runs located room drained touch => ?cmsg, fun pd nb p x runs whole head located drained touch touched unowned ready
    good hdr => ⟨fun full nonblocking => ?full, fun q room located' touch' touched' there writes abreast unwatched unwatched' => ?push⟩⟩
  case cmsg =>
    have free : ¬(c.w.cMsg = 63 || !c.w.sq.isEmpty || !(c.during true).touchables
        [(((c.during true).addr (c.acting { k with onc := true }) addr).toNat, p)] false) = true := by
      simp [room, drained, touch]
    refine instr_effect h runs (needQuad_of_aligned (c := c.during true) aligned inRange) ?_
    dsimp only [Meta.wide, Meta.uni, Meta.plain]
    rw [located]
    exact if_neg free
  case full =>
    subst nonblocking
    refine instr_effect h runs (needQuad_of_aligned (c := c.during false) aligned inRange) ?_
    refine (if_neg (not_not.2 whole)).trans ((if_neg head).trans ?_)
    dsimp only [Meta.wide, Meta.uni, Meta.plain, predMeta]
    rw [located]
    exact pushRing_of_full (c := c.during false) ⟨drained, touch, touched, unowned, ready, good, hdr⟩ full
  case push =>
    refine instrEach_effect (each := fun _ _ _ => none) h runs (needQuad_of_aligned (c := c.during false) aligned inRange) ?_
      (List.append_eq_nil_iff.2 ⟨unwatched, unwatched'⟩)
    refine (if_neg (not_not.2 whole)).trans ((if_neg head).trans ?_)
    dsimp only [Meta.wide, Meta.uni, Meta.plain, predMeta]
    rw [located]
    exact pushRing_of_room (c := c.during false) ⟨drained, touch, touched, unowned, ready, good, hdr⟩ room located' touch' touched' there
      writes abreast

@[simp] theorem kGroup_head (c : Ctx) (b : Bool) (r : BitVec 6) : ((c.during b).kGroup (.k r) 1).headD 0 = c.w.getK r.toNat := rfl

/-- 14 R286, 22 R380. COLL. -/
theorem collectives : Collectives := by
  intro k d a n r op ty root s c h
  obtain rfl := ctx_state h
  dsimp only
  intro runs whole least most ha hb
  have size (m : Nat) (whole : m % 64 = 0) (least : 64 ≤ m) (most : m ≤ 2 ^ 30) : ¬(m % 64 ≠ 0 ∨ m < 64 ∨ 2 ^ 30 < m) := by omega
  refine ⟨fun other => ?other, fun xl pa gid seq live rank there group sequence room drained touch touched unowned ready good => ?joins⟩
  case other =>
    exact instr_fails (c := c) h runs rfl ((if_neg (size _ whole least most)).trans ((if_neg (not_not.2 ha)).trans
      ((if_neg (not_not.2 hb)).trans (if_pos (by rw [Bool.not_eq_true']; exact other))))) (by decide)
  case joins =>
    refine instr_effect h runs rfl ?_
    refine (if_neg (size _ whole least most)).trans ((if_neg (not_not.2 ha)).trans ((if_neg (not_not.2 hb)).trans ?_))
    have member : ¬(op = .bcast ∧ (!c.s.rankLive c.vf c.die (c.w.getK r.toNat).toNat root.toNat) = true) := by
      rintro ⟨bcast, dead⟩
      rw [rank bcast] at dead
      cases dead
    have free : ¬(decide (c.w.cDom = 63) || !c.w.sq.isEmpty) = true := by
      simp [room, drained]
    have reached : c.touchables [((c.w.getK r.toNat).toNat, .device pa xl)] true = true :=
      (Bool.and_true _).trans touch
    refine (ite_not_of_true live).trans ((if_neg member).trans ?_)
    dsimp only [Meta.wide, Meta.uni, Meta.plain]
    simp only [during_s, during_vf, during_die, kGroup_head, there, group, sequence]
    refine (if_neg free).trans ((atLine_free (c := c.during true) reached touched unowned ready).trans ?_)
    rw [good]
    rfl

/-- Settles O43: SGNL by `signals`, CMSG and CBUF by `messagesAndRings`, COLL by `collectives`. -/
theorem messages : Obligations.Messages := ⟨signals, messagesAndRings, collectives⟩

end Sys2Proof.Machine
end

section
/-!
PROOFS. Queues, acceptance, placement and completion of grids (18 R307 to R315, R320, R321); refutes O55 by a state.
-/
namespace Sys2Proof.Machine

open Sys2Proof Sys2Proof.Ob

/-! ### A kernel descriptor that lies over the record's leaf

The checks of a launch record (18 R312) read the memory that the device finds as it reads the record. The statement reads it after ACC has been
set in the leaf of the record's page (21 R362), and the two differ where a record names the words of that leaf as its kernel descriptor: ENTRY is
then the leaf itself, and CODE + ENTRY, the last whole word of a page before, lies across two pages after, of which the second is not mapped. -/

/-- Function 0's page 0x10000 with ACC clear in its leaf, and the table of leaves at 0x20000; behind that leaf, the other nonzero bytes of a
kernel descriptor; at 0x10100 a launch record of one convoy, with KDESC 0x20080 and CODE 0x10FF7 less the leaf, at the head of queue 1. -/
def leafAsDescriptor : State :=
  let s := ((State.reset.withKalgil 0).poke 0x5080 (leBytes 8 0x800000000001005F ++ [1, 1, 31, 16])).poke 0x5100 (leBytes 8 0x800000000000507F)
  let s := s.poke 0x10100 (leBytes 8 0x20080 ++ leBytes 8 0x8000000000000F98 ++ List.replicate 12 0 ++ leBytes 4 1)
  s.setQueue 0 1 { Queue.reset with en := true, base := 0x10100, size := 1, tail := 1 }

/-- What stands at the head of its queue. -/
def leafRecord : List Byte := (leafAsDescriptor.homeBytes 0 0x10100 128).getD []

theorem leafRecord_atHead : leafAsDescriptor.homeBytes 0 0x10100 128 = some leafRecord := by decide +kernel

/-- A property of the state that reading a range has left. -/
def SaveRes.leaves (f : State → Bool) : SaveRes → Bool
  | .done t => f t
  | _ => false

theorem exists_of_leaves {r : SaveRes} {f : State → Bool} (h : r.leaves f = true) : ∃ t, r = .done t ∧ f t = true := by
  cases r with
  | done t => exact ⟨t, rfl, h⟩
  | wait => cases h
  | bad e va => cases h

/-- The record is read; what is read then rejects it, ACC having been set in the leaf, and no grid has been made. -/
theorem leafRecord_read : (leafAsDescriptor.saveTouch 0 0 [(0x10100, 128)]).leaves (fun t =>
    t.rejects 0 (leafAsDescriptor.queue 0 1) (Record.of leafRecord) == some 2 && t.pkg.length != leafAsDescriptor.pkg.length &&
      t.nextGrid == 1) = true := by
  decide +kernel

/-- The next grid's number in the state that an answer goes on with. -/
def gridsAfter : Host.Outcome State Fault Refusal → Nat
  | .next t => t.nextGrid
  | _ => 0

/-- The model accepts the record. -/
theorem leafRecord_accepted : gridsAfter (exec (.launchRecordAccept 0 1) leafAsDescriptor) = 2 := by decide +kernel

theorem leafRecord_ready : (leafAsDescriptor.queue 0 1).en = true ∧ (leafAsDescriptor.queue 0 1).hd ≠ (leafAsDescriptor.queue 0 1).tail ∧
    (leafAsDescriptor.queue 0 1).head = none ∧ (leafAsDescriptor.homeAbreast 0 0x10100 128) = true := by
  decide +kernel

/-- Refutes O55: of `leafAsDescriptor` the statement's first clause of acceptance asks for the state in which ACC is set and nothing else, the
record being rejected as it is read there; the model has checked the record as it stood, and accepts it. -/
theorem not_launch : ¬Obligations.Launch := by
  rintro ⟨-, acceptance, -, -⟩
  obtain ⟨enabled, waiting, idle, abreast⟩ := leafRecord_ready
  obtain ⟨t, read, after⟩ := exists_of_leaves leafRecord_read
  simp only [Bool.and_eq_true, beq_iff_eq, bne_iff_ne] at after
  obtain ⟨⟨rejected, written⟩, fresh⟩ := after
  obtain ⟨first, -⟩ := acceptance leafAsDescriptor 0 1 leafRecord t enabled waiting idle abreast leafRecord_atHead read
  have accepted := leafRecord_accepted
  rw [first 2 rejected written, gridsAfter, fresh] at accepted
  cases accepted

end Sys2Proof.Machine
end

section
/-!
PROOFS. Who is released, blocked, pre-empted, saved or flushed (18 R313, R314, R325, 20 R346 to R349, R354, 21 R368); settles O56.
-/
namespace Sys2Proof.Machine

open Sys2Proof Sys2Proof.Ob

/-! ### The scheduler's own steps -/

/-- 18 R313, R314, R325, 21 R368. Dependences, blocking, starvation, time slices and resident waits. -/
theorem schedulerSteps : SchedulerSteps := by
  intro s vf q gid g there atHead
  have head (places : s.mayPlace g = true) : s.headGrid vf q = some (gid, g) := by
    simp only [State.headGrid, atHead, Option.bind_some, there, places, if_true]
  refine ⟨fun pa dep unmet plain => ⟨fun reached => ?released, fun short => ?waits⟩, fun places => ?blocked, fun k t places full => ?starved,
    fun cl k t shared waiting long most young act => ?sliced, fun k cv t hcv live parked pend act => ?switched, fun die => rfl⟩
  case released =>
    refine happens_some ?_
    simp only [State.release?, atHead, there, dep, unmet, plain, Nat.not_lt.2 reached, Bool.false_or, decide_false, Bool.false_eq_true,
      if_false]
  case waits =>
    refine happens_none ?_
    simp only [State.release?, atHead, there, dep, unmet, short, Bool.false_or, decide_true, if_true]
  case blocked => exact happens_some (by rw [head places]; rfl)
  case starved =>
    intro low least young act
    refine happens_some ?_
    simp only [State.starve, head places, full, Option.isSome_none, Bool.false_eq_true, if_false]
    exact (congrArg (Option.bind · _) young).trans act
  case sliced =>
    have holds : ¬((s.fn vf).mode != 0 || !decide (s.heldFrom vf cl + 2 ^ 16 * (s.fn vf).sliceOf ≤ s.fab) || !s.waitsFor cl (· != vf) ||
        !(s.fns.all fun p => (s.residents p.1 cl).isEmpty ||
          decide (s.usageOn p.1 cl * (s.fn vf).weightOf ≤ s.usageOn vf cl * (s.fn p.1).weightOf))) = true := by
      have held : s.heldFrom vf cl + 2 ^ 16 * (s.fn vf).sliceOf ≤ s.fab := long
      rw [shared, waiting, most, decide_eq_true held]
      decide
    refine happens_some ((if_neg holds).trans ?_)
    rw [young]
    exact act
  case switched =>
    refine happens_some ?_
    have some_ : (s.liveWaves k).isEmpty = false := by simpa using live
    simp only [State.waitSwitch, hcv, some_, parked, pend, Bool.not_true, Bool.or_self, Bool.false_eq_true, if_false, act]

/-! ### Pre-emption (20 R346 to R349, R354) -/

section
variable {s : State} {k : Nat} {cv : Convoy}

/-- A convoy with a copy or a store of a wave still to be performed does not come to rest. -/
theorem quiesce_of_pending (h : ∃ p ∈ s.wavesOf k, p.2.copies ≠ [] ∨ p.2.sq ≠ []) : s.quiesce k cv = none := by
  refine if_pos ?_
  simpa using h

theorem performed_of_all (h : ∀ p ∈ s.wavesOf k, p.2.copies = [] ∧ p.2.sq = []) :
    ¬((s.wavesOf k).any fun p => !p.2.copies.isEmpty || !p.2.sq.isEmpty) = true := by
  simpa using fun n w hw => h (n, w) hw

/-- Once these are performed, its stash lines are given up. -/
theorem quiesce_of_stashes {t : State} (h : ∀ p ∈ s.wavesOf k, p.2.copies = [] ∧ p.2.sq = []) (phase : s.savePhase k = 3)
    (empty : s.emptyStashes k = some t) : s.quiesce k cv = some (some t) := by
  rw [State.quiesce, if_neg (performed_of_all h), if_pos phase, empty]
  rfl

/-- A convoy at rest has nothing more to wait for. -/
theorem quiesce_of_atRest (h : atRest s k cv) : s.quiesce k cv = some none := by
  obtain ⟨-, -, phase, quiet, engines, performed⟩ := h
  rw [State.quiesce, if_neg (performed_of_all performed), if_neg (by rw [phase]; decide), quiet, engines]
  rfl

/-- A convoy at rest that is flushing is queued again and gone from its cluster. -/
theorem flushConvoy_of_atRest (rest : atRest s k cv) (st : cv.st = .flushing) : s.flushConvoy k =
    some ((((s.requeue k cv).releaseEngines k cv false).leaveCluster k cv).removeConvoy k).unstall := by
  obtain ⟨hcv, up, -⟩ := id rest
  simp only [State.flushConvoy, hcv, up, st, quiesce_of_atRest rest, Option.isSome_none, bne_self_eq_false, Bool.or_self, Bool.false_eq_true,
    if_false]

/-- A convoy at rest that is saving, with no bad word and no wave in its handler, is saved once its images are written. -/
theorem saveConvoy_of_atRest {s2 s3 : State} {cv3 : Convoy} (rest : atRest s k cv) (st : cv.st = .saving)
    (whole : s.firstBadWord k cv = none) (noHandler : s.handlers k = []) (read : s.saveTouch cv.vf (cv.cluster / 8) [] = .done s2)
    (written : (s2.toMilestones k (cv.cluster / 8) cv).saveLines cv.vf (cv.cluster / 8)
      ((s2.toMilestones k (cv.cluster / 8) cv).savePieces k cv []) = .done s3) (last : s3.convoy? k = some cv3) :
    s.saveConvoy k = some (s3.nowSaved k cv3) := by
  obtain ⟨hcv, up, -⟩ := id rest
  simp only [State.saveConvoy, hcv, up, st, quiesce_of_atRest rest, whole, noHandler, List.filterMap_nil, read, written, last,
    Option.isSome_none, bne_self_eq_false, Bool.or_self, Bool.false_eq_true, if_false]

/-- What a convoy that is saving does before it rests. -/
theorem saveConvoy_of_quiesce {t : State} (hcv : s.convoy? k = some cv) (up : cv.teardown = none) (st : cv.st = .saving)
    (rest : s.quiesce k cv = some (some t)) : s.saveConvoy k = some t := by
  simp only [State.saveConvoy, hcv, up, st, rest, Option.isSome_none, bne_self_eq_false, Bool.or_self, Bool.false_eq_true, if_false]

/-- What a convoy that is flushing does before it rests. -/
theorem flushConvoy_of_quiesce {t : State} (hcv : s.convoy? k = some cv) (up : cv.teardown = none) (st : cv.st = .flushing)
    (rest : s.quiesce k cv = some (some t)) : s.flushConvoy k = some t := by
  simp only [State.flushConvoy, hcv, up, st, rest, Option.isSome_none, bne_self_eq_false, Bool.or_self, Bool.false_eq_true, if_false]

/-- Neither a save nor a flush goes on while the convoy has something to wait for. -/
theorem saveConvoy_of_waiting (hcv : s.convoy? k = some cv) (rest : s.quiesce k cv = none) : s.saveConvoy k = none := by
  simp only [State.saveConvoy, hcv, rest, ite_self]

theorem flushConvoy_of_waiting (hcv : s.convoy? k = some cv) (rest : s.quiesce k cv = none) : s.flushConvoy k = none := by
  simp only [State.flushConvoy, hcv, rest, ite_self]

end

/-- 20 R346 to R349, R354. -/
theorem preemptionSteps : PreemptionSteps := by
  intro s k cv
  refine ⟨fun why hcv up st => ?request, fun why hcv up st => ?refused, fun hcv up st => ?timeout,
    fun s2 s3 cv3 rest st whole noHandler read written last => ?saved, fun rest st => ?flushed,
    fun s1 hcv up performed phase empty => ⟨fun st => ?saveStash, fun st => ?flushStash⟩, fun hcv up st pending => ?waits⟩
  case request => exact happens_some (by simp [State.preempt, hcv, up, st])
  case refused => exact happens_none (by simp [State.preempt, hcv, up, st])
  case timeout => exact happens_some (by simp [hcv, up, st])
  case saved => exact happens_some (saveConvoy_of_atRest rest st whole noHandler read written last)
  case flushed => exact happens_some (flushConvoy_of_atRest rest st)
  case saveStash => exact happens_some (saveConvoy_of_quiesce hcv up st (quiesce_of_stashes performed phase empty))
  case flushStash => exact happens_some (flushConvoy_of_quiesce hcv up st (quiesce_of_stashes performed phase empty))
  case waits =>
    exact ⟨happens_none (saveConvoy_of_waiting hcv (quiesce_of_pending pending)),
      happens_none (flushConvoy_of_waiting hcv (quiesce_of_pending pending))⟩

/-- Settles O56: the scheduler's steps by `schedulerSteps`, pre-emption by `preemptionSteps`. -/
theorem scheduling : Obligations.Scheduling := ⟨schedulerSteps, preemptionSteps⟩

end Sys2Proof.Machine
end

section
/-!
PROOFS. A package keeps its four dies: what gating writes leaves the number of dies as it was.
-/
namespace Sys2Proof.Machine

open Sys2Proof Sys2Proof.Ob

theorem length_setAt {α : Type} (l : List α) (n : Nat) (x : α) : (setAt l n x).length = l.length := by
  induction l generalizing n with
  | nil => rfl
  | cons y r ih =>
    cases n with
    | zero => rfl
    | succ n => exact congrArg Nat.succ (ih n)

/-- The number of dies. -/
def State.dieCount (s : State) : Nat := s.dies.length

theorem dieCount_of {s t : State} (h : t.dies = s.dies) : t.dieCount = s.dieCount := congrArg List.length h

/-- What keeps the dies step by step keeps them through a fold. -/
theorem dieCount_foldl {α : Type} {f : State → α → State} (hf : ∀ s x, (f s x).dieCount = s.dieCount) (l : List α) (s : State) :
    (l.foldl f s).dieCount = s.dieCount := by
  induction l generalizing s with
  | nil => rfl
  | cons x r ih => exact (ih _).trans (hf s x)

/-! ### State operations -/

section
variable (s : State)

@[simp] theorem dieCount_setDie (d : Nat) (x : Die) : (s.setDie d x).dieCount = s.dieCount := length_setAt ..
@[simp] theorem dieCount_setCore (n : Nat) (x : Core) : (s.setCore n x).dieCount = s.dieCount := rfl
@[simp] theorem dieCount_setCores (l : NMap Core) : ({ s with cores := l } : State).dieCount = s.dieCount := rfl
@[simp] theorem dieCount_setSlice (n : Nat) (x : Slice) : (s.setSlice n x).dieCount = s.dieCount := rfl
@[simp] theorem dieCount_setLineDir (line : Nat) (x : LineDir) : (s.setLineDir line x).dieCount = s.dieCount := rfl
@[simp] theorem dieCount_setWave (id : WaveId) (w : Wave) : (s.setWave id w).dieCount = s.dieCount := rfl
@[simp] theorem dieCount_setConvoy (k : Nat) (x : Convoy) : (s.setConvoy k x).dieCount = s.dieCount := rfl
@[simp] theorem dieCount_setGrid (k : Nat) (x : Grid) : (s.setGrid k x).dieCount = s.dieCount := rfl
@[simp] theorem dieCount_setEngine (cl e : Nat) (x : Engine) : (s.setEngine cl e x).dieCount = s.dieCount := rfl
@[simp] theorem dieCount_setFn (vf : Nat) (f : Fn) : (s.setFn vf f).dieCount = s.dieCount := rfl
@[simp] theorem dieCount_postEvent (vf : Nat) (r : List Byte) : (s.postEvent vf r).dieCount = s.dieCount := rfl

/-! ### Lines of device memory -/

@[simp] theorem dieCount_exitRefresh (line : Nat) : (s.exitRefresh line).dieCount = s.dieCount := by
  unfold State.exitRefresh
  dsimp only
  split
  · exact dieCount_setDie ..
  · rfl

@[simp] theorem dieCount_l2Gone (line : Nat) (b : Bool) : (s.l2Gone line b).dieCount = s.dieCount := by
  unfold State.l2Gone
  split <;> rfl

@[simp] theorem dieCount_writeBack (line : Nat) : (s.writeBack line).dieCount = s.dieCount :=
  (dieCount_setLineDir ..).trans ((dieCount_l2Gone ..).trans ((dieCount_exitRefresh ..).trans List.length_mapIdx))

@[simp] theorem dieCount_evictNow (line : Nat) : (s.evictNow line).dieCount = s.dieCount := by
  unfold State.evictNow
  dsimp only
  split
  · exact dieCount_writeBack ..
  · exact dieCount_l2Gone ..

/-! ### The slices' requests -/

@[simp] theorem dieCount_enqueue (n : Nat) (t : Trigger) : (s.enqueue n t).1.dieCount = s.dieCount := by
  unfold State.enqueue
  dsimp only
  repeat' split
  all_goals rfl

@[simp] theorem dieCount_evict (line : Nat) : (s.evict line).dieCount = s.dieCount := by
  unfold State.evict
  dsimp only
  repeat' split
  · rfl
  · exact dieCount_enqueue ..
  · exact (dieCount_evictNow ..).trans (dieCount_enqueue ..)
  · exact dieCount_evictNow ..

@[simp] theorem dieCount_raiseFill (line h q : Nat) : (s.raiseFill line h q).dieCount = s.dieCount := by
  unfold State.raiseFill
  dsimp only
  split
  · exact dieCount_enqueue ..
  · rfl

@[simp] theorem dieCount_announce (line va vf set h q : Nat) : (s.announce line va vf set h q).dieCount = s.dieCount :=
  dieCount_raiseFill ..

@[simp] theorem dieCount_makeRoom (line : Nat) : (s.makeRoom line).dieCount = s.dieCount := by
  unfold State.makeRoom
  repeat' split
  · rfl
  · exact dieCount_evict ..
  · rfl

@[simp] theorem dieCount_install (line va vf set h q : Nat) (b : Bool) : (s.install line va vf set h q b).dieCount = s.dieCount := by
  have room : ((s.makeRoom line).exitRefresh line).dieCount = s.dieCount := (dieCount_exitRefresh ..).trans (dieCount_makeRoom ..)
  unfold State.install
  dsimp only
  repeat' split
  · exact dieCount_announce ..
  · rfl
  · exact (dieCount_raiseFill ..).trans room
  · exact room

@[simp] theorem dieCount_checkedLine (line va vf set q : Nat) : (s.checkedLine line va vf set q).dieCount = s.dieCount := by
  have used : (s.prefetchUsed line).dieCount = s.dieCount := by
    unfold State.prefetchUsed
    split <;> rfl
  unfold State.checkedLine
  dsimp only
  refine Eq.trans ?_ used
  generalize s.prefetchUsed line = t
  repeat' split
  · exact dieCount_announce ..
  · rfl
  · rfl
  · exact dieCount_enqueue ..
  · exact (dieCount_install ..).trans (dieCount_enqueue ..)
  · exact dieCount_install ..

theorem dieCount_defaultAction (t : Trigger) : (s.defaultAction t).dieCount = s.dieCount := by
  unfold State.defaultAction
  cases t.kind with
  | miss => exact dieCount_install ..
  | evict => exact dieCount_evictNow ..
  | fill | msg => rfl

/-! ### Writes -/

theorem dieCount_wakeLine (d line : Nat) : (wakeLine s d line).dieCount = s.dieCount := by
  unfold wakeLine
  dsimp only
  split <;> rfl

theorem dieCount_sliceWrite (line : Nat) (w : Writer) : (s.sliceWrite line w).dieCount = s.dieCount := by
  have rebase (d t : Nat) : (s.rebaseAt d t).dieCount = s.dieCount := by
    unfold State.rebaseAt
    split <;> rfl
  have h := rebase (homeDie line) ((s.lineDir line).rts.toNat + 1)
  unfold State.sliceWrite
  generalize s.rebaseAt (homeDie line) ((s.lineDir line).rts.toNat + 1) = t at h
  refine Eq.trans ?_ h
  cases w <;> rfl

theorem dieCount_watchWrite (w : LineWrite) (who : Writer) : (s.watchWrite w who).dieCount = s.dieCount := by
  have posted (f : Nat × Nat → List Byte) (l : List (Nat × Nat)) : (l.foldl (fun s p => s.postEvent p.1 (f p)) s).dieCount = s.dieCount :=
    dieCount_foldl (fun s p => dieCount_postEvent s p.1 (f p)) l s
  exact posted (fun p => eventRecord 2 0 0 who.code 0 p.2 0 0 (byteMask w)) _

@[simp] theorem dieCount_applyAt (d : Nat) (w : LineWrite) (who : Writer) : (s.applyAt d w who).dieCount = s.dieCount := by
  have code : (if d = homeDie w.line then keepCode s d w else s).dieCount = s.dieCount := by split <;> rfl
  unfold State.applyAt
  dsimp only
  generalize (if d = homeDie w.line then keepCode s d w else s) = t at code
  have woken := (dieCount_wakeLine (invalidateAssay (t.setDie d ((t.die d).apply t.hbm w)) d w.line) d w.line).trans
    ((dieCount_setDie t d ((t.die d).apply t.hbm w)).trans code)
  generalize wakeLine (invalidateAssay (t.setDie d ((t.die d).apply t.hbm w)) d w.line) d w.line = u at woken
  repeat' split
  · exact ((dieCount_watchWrite ..).trans (dieCount_sliceWrite ..)).trans woken
  · exact ((dieCount_watchWrite ..).trans (dieCount_sliceWrite ..)).trans woken
  · exact woken

@[simp] theorem dieCount_sendPkg (d : Nat) (w : LineWrite) (a : Bool) : (s.sendPkg d w a).dieCount = s.dieCount := dieCount_setDie ..

theorem dieCount_applyNow (w : LineWrite) (e : Nat) : (s.applyNow w e).dieCount = s.dieCount := by
  have remote (i : Nat) : (s.remoteApply i e).dieCount = s.dieCount := by
    unfold State.remoteApply
    split
    · rfl
    · exact (dieCount_setDie ..).trans (dieCount_applyAt ..)
  unfold State.applyNow
  split
  · exact remote _
  · rfl

@[simp] theorem dieCount_writeEverywhere (d : Nat) (w : LineWrite) (who : Writer) :
    (s.writeEverywhere d w who).dieCount = s.dieCount :=
  (dieCount_foldl (fun s e => dieCount_applyNow s w e) _ _).trans ((dieCount_sendPkg ..).trans (dieCount_applyAt ..))

theorem dieCount_dropStash (line : Nat) : (s.dropStash line).dieCount = s.dieCount := by
  unfold State.dropStash
  split <;> rfl

theorem dieCount_giveBack (line : Nat) : (s.giveBack line).dieCount = s.dieCount := by
  unfold State.giveBack
  split
  · exact dieCount_dropStash ..
  · have dropped (k : Nat) (c : Crew) : ((s.stashRequest line k c).dropStash line).dieCount = s.dieCount :=
      (dieCount_dropStash ..).trans (dieCount_checkedLine ..)
    dsimp only
    split
    · exact (dieCount_writeEverywhere ..).trans (dropped ..)
    · exact dropped ..

@[simp] theorem dieCount_devWrite (d : Nat) (w : LineWrite) (who : Writer) : (s.devWrite d w who).dieCount = s.dieCount := by
  refine ((dieCount_sendPkg ..).trans (dieCount_applyAt ..)).trans ?_
  split
  · exact dieCount_giveBack ..
  · rfl

theorem dieCount_touch (x : Xlat) (wr : Bool) : (s.touch x wr).dieCount = s.dieCount := by
  unfold State.touch
  dsimp only
  split
  · rfl
  · exact dieCount_devWrite ..

theorem dieCount_cache (vf va : Nat) (x : Xlat) : (s.cache vf va x).dieCount = s.dieCount := by
  unfold State.cache
  dsimp only
  split <;> rfl

/-! ### Images and late faults -/

/-- The lines of an image. -/
theorem dieCount_saveLines {vf d : Nat} {l : List Piece} {t : State} (h : s.saveLines vf d l = .done t) : t.dieCount = s.dieCount := by
  unfold State.saveLines at h
  split at h
  · cases h
  · dsimp only at h
    split at h
    · cases h
    · cases h
      refine dieCount_foldl (fun u p => ?_) _ _
      split
      · exact (dieCount_devWrite ..).trans ((dieCount_cache ..).trans (dieCount_touch ..))
      · rfl

theorem dieCount_failGrid (gid : Nat) (f : LateF) (i : Nat) : (s.failGrid gid f i).dieCount = s.dieCount := by
  unfold State.failGrid
  repeat' split
  all_goals rfl

theorem dieCount_teardown (k : Nat) (f : LateF) : (s.teardown k f).dieCount = s.dieCount := by
  unfold State.teardown
  repeat' split
  · rfl
  · rfl
  · exact dieCount_failGrid ..

theorem dieCount_reportLate (key : Nat) (hnd : Bool) (f : LateF) : (s.reportLate key hnd f).dieCount = s.dieCount := by
  unfold State.reportLate
  dsimp only
  repeat' split
  · rfl
  · rfl
  · exact dieCount_failGrid ..
  · exact dieCount_teardown ..
  · rfl
  · rfl

end

/-! ### Gating (24 R399) -/

section
variable {s t : State}

theorem dieCount_slateWrite {cl e : Nat} (h : s.slateWrite cl e = some t) : t.dieCount = s.dieCount := by
  unfold State.slateWrite at h
  dsimp only at h
  split at h
  · cases h
    rfl
  · split at h
    · cases h
      rfl
    · split at h
      · cases h
      · next u hs =>
        cases h
        have image := dieCount_saveLines s hs
        split
        · exact (dieCount_reportLate ..).trans image
        · exact image
      · cases h
        rfl

theorem dieCount_windowLost (cl e w : Nat) (cause : BitVec 10) (va : Nat) : (s.windowLost cl e w cause va).dieCount = s.dieCount := rfl

theorem dieCount_spillWindow {cl e w : Nat} (h : s.spillWindow cl e w = some t) : t.dieCount = s.dieCount := by
  unfold State.spillWindow at h
  dsimp only at h
  split at h
  · cases h
  · split at h
    · cases h
      exact dieCount_windowLost ..
    · split at h
      · cases h
        exact dieCount_windowLost ..
      · split at h
        · cases h
        · split at h
          · cases h
          · next u hs =>
            cases h
            have image := dieCount_saveLines s hs
            exact image
          · cases h
            exact dieCount_windowLost ..

/-- A step of a fold over what may have to wait: it goes on from a state, with as many dies. -/
def KeepsDies {α : Type} (f : Option State → α → Option State) : Prop :=
  ∀ o x t, f o x = some t → ∃ s, o = some s ∧ t.dieCount = s.dieCount

theorem KeepsDies.foldl {α : Type} {f : Option State → α → Option State} (hf : KeepsDies f) :
    KeepsDies fun (o : Option State) (l : List α) => l.foldl f o := by
  intro o l t h
  induction l generalizing o with
  | nil => exact ⟨t, h, rfl⟩
  | cons x r ih =>
    obtain ⟨u, hu, same⟩ := ih _ h
    obtain ⟨s, hs, step⟩ := hf o x u hu
    exact ⟨s, hs, same.trans step⟩

theorem KeepsDies.bind {α : Type} {f : α → State → Option State} (hf : ∀ x s t, f x s = some t → t.dieCount = s.dieCount) :
    KeepsDies fun (o : Option State) x => o.bind (f x) := by
  intro o x t h
  obtain ⟨s, hs, step⟩ := Option.bind_eq_some_iff.1 h
  exact ⟨s, hs, hf x s t step⟩

/-- The Slate pages and windows of one engine given up. -/
def giveUpEngine (cl e : Nat) (s : State) : Option State :=
  (s.slateWrite cl e).bind fun s =>
    ((s.engine cl e).owner.map Prod.fst).foldl (fun (s : Option State) w => s.bind fun s => s.spillWindow cl e w) (some s)

theorem dieCount_giveUpEngine {cl e : Nat} (h : giveUpEngine cl e s = some t) : t.dieCount = s.dieCount := by
  obtain ⟨u, written, spilled⟩ := Option.bind_eq_some_iff.1 h
  obtain ⟨v, hv, same⟩ := (KeepsDies.bind fun _ _ _ => dieCount_spillWindow).foldl _ _ _ spilled
  cases hv
  exact same.trans (dieCount_slateWrite written)

theorem dieCount_giveUpEngines {d : Nat} (h : s.giveUpEngines d = some t) : t.dieCount = s.dieCount := by
  have engines (cl : Nat) : KeepsDies fun (o : Option State) e => o.bind (giveUpEngine cl e) :=
    .bind fun _ _ _ => dieCount_giveUpEngine
  have clusters : KeepsDies fun (o : Option State) cl => (List.range 4).foldl (fun o e => o.bind (giveUpEngine cl e)) o :=
    fun o cl t => (engines cl).foldl o _ t
  obtain ⟨u, hu, same⟩ := clusters.foldl _ _ _ h
  cases hu
  exact same

theorem dieCount_handOver (n : Nat) (r : Trigger) : (s.handOver n r).dieCount = s.dieCount := by
  have queued := dieCount_enqueue s n r
  unfold State.handOver
  split
  · next u hu =>
    rw [hu] at queued
    exact queued
  · next u hu =>
    rw [hu] at queued
    split
    · rfl
    · exact (dieCount_defaultAction ..).trans queued

theorem dieCount_handTriggers (gated : Bool) (l : List Nat) : (s.handTriggers gated l).dieCount = s.dieCount := by
  unfold State.handTriggers
  refine dieCount_foldl (fun s n => ?_) l s
  dsimp only
  refine (dieCount_foldl (fun s r => ?_) _ _).trans (dieCount_setSlice ..)
  exact dieCount_handOver ..

/-- A die that is switched off has its state among as many dies. -/
theorem finishGate_eq {d : Nat} (h : s.finishGate d = some t) : ∃ u : State, u.dieCount = s.dieCount ∧
    t = u.setDie d { u.die d with state := 2 } := by
  unfold State.finishGate at h
  dsimp only at h
  split at h
  · cases h
  · split at h
    · cases h
    · next u hu =>
      refine ⟨_, ?_, (Option.some.inj h).symm⟩
      refine (dieCount_setCores ..).trans ((dieCount_foldl (fun s n => ?_) _ _).trans ?_)
      · exact dieCount_setSlice ..
      · refine (dieCount_handTriggers ..).trans ((dieCount_foldl (fun s p => ?_) _ _).trans (dieCount_giveUpEngines hu))
        exact dieCount_writeBack ..

/-- What is set of a die of the package is its. -/
theorem die_setDie_self {d : Nat} (x : Die) (h : d < s.dieCount) : (s.setDie d x).die d = x := by
  show (setAt s.dies d x)[d]?.getD Die.reset = x
  rw [getElem?_setAt_self x h]
  rfl

/-- A die that is gating is one of the package. -/
theorem lt_dieCount_of_state {d : Nat} (h : (s.die d).state ≠ 0) : d < s.dieCount := by
  refine Nat.not_le.1 fun out => h ?_
  show (s.dies[d]?.getD Die.reset).state = 0
  rw [List.getElem?_eq_none out]
  rfl

end

end Sys2Proof.Machine
end

section
/-!
PROOFS. Frequency, rails, gated dies, heat and rationing (20 R355, 24 R392 to R404); settles O57.
-/
namespace Sys2Proof.Machine

open Sys2Proof Sys2Proof.Ob

/-! ### Frequency and rails -/

/-- On a package without convoys, a transition under way ends. -/
theorem transition_of_empty {s : State} {cl : Nat} (busy : (s.cluster cl).busy = true) (empty : s.convoys = []) :
    s.transition cl = some (s.endTransition cl) := by
  have same : ({ s with convoys := [] } : State) = s := by rw [← empty]
  simp only [State.transition, busy, empty, List.map_nil, same, State.onCluster, List.filter_nil, List.foldl_nil, List.isEmpty_nil,
    Bool.not_true, Bool.false_eq_true, if_false, if_true]

/-- 20 R355, 24 R392 to R397. Frequency, the servo and the fixed rail. -/
theorem railSteps : RailSteps := by
  intro s cl
  refine ⟨fun code => ⟨fun runs => ?stays, fun idle differs => ?starts⟩, fun idle => ?rests, fun busy empty => ?ends,
    fun m r => ?servo, fun d => rfl, fun d low => ?lowered⟩
  case stays =>
    refine congrArg Host.Outcome.next (if_pos ?_)
    rw [Bool.or_eq_true, decide_eq_true_eq]
    exact runs
  case starts =>
    refine congrArg Host.Outcome.next (if_neg ?_)
    rw [Bool.or_eq_true, decide_eq_true_eq, not_or]
    exact ⟨ne_true_of_eq_false idle, differs⟩
  case rests => exact happens_none (if_pos (by rw [idle]; rfl))
  case ends => exact happens_some (transition_of_empty busy empty)
  case servo =>
    intro c lo hi idle
    have steps : exec (.servoStep cl m r) s = .next (s.setCluster cl { c with vnow := BitVec.ofNat 8 (min (max
        (if s.rlim.toNat < r then c.vnow.toNat + 4
          else if c.servo ∧ m < s.mtgt.toNat then c.vnow.toNat - 1
          else if c.servo ∧ 2 * s.mtgt.toNat < m then c.vnow.toNat + 1
          else if !c.servo then max (c.vnow.toNat - 1) c.vset.toNat
          else c.vnow.toNat) lo) hi) }) :=
      congrArg (fun x => Host.Outcome.next (s.setCluster cl x)) (if_neg (ne_true_of_eq_false idle))
    refine ⟨fun limit => ?_, fun within servo low => ?_, fun within servo high => ?_⟩
    · rw [steps, if_pos limit]
    · rw [steps, if_neg (Nat.not_lt.2 within), if_pos ⟨servo, low⟩]
    · rw [steps, if_neg (Nat.not_lt.2 within), if_neg (by omega), if_pos ⟨servo, high⟩]
  case lowered =>
    have none60 : (clustersOf d).filter (fun cl => 60 < (s.cluster cl).freq.toNat) = [] := by
      rw [List.filter_eq_nil_iff]
      intro c hc
      have h := List.all_eq_true.1 low c hc
      simp only [Bool.and_eq_true, decide_eq_true_eq] at h ⊢
      omega
    have still : ((clustersOf d).any fun cl => 60 < (s.cluster cl).fnow.toNat) = false := by
      rw [List.any_eq_false]
      intro c hc
      have h := List.all_eq_true.1 low c hc
      simp only [Bool.and_eq_true, decide_eq_true_eq] at h ⊢
      omega
    refine congrArg Host.Outcome.next ?_
    simp only [none60, List.foldl_nil, ite_self, still]
    rfl

/-! ### Power states and heat -/

/-- Over-power lowers the ration by four steps, whatever the clusters' heat (24 R404). -/
theorem ration_of_overPower (s : State) :
    let n := max 4 ((if s.tration = 0 then 32 else s.tration.toNat) - 4)
    s.ration true = ({ s with allHot := true, tration := BitVec.ofNat 6 n } : State).writeRation n := by
  have zero : (s.tration.toNat = 0) = (s.tration = 0) := propext (BitVec.toNat_eq (y := 0)).symm
  simp only [State.ration, Bool.or_true, if_true, zero]

/-- 24 R399 to R404. -/
theorem powerSteps : PowerSteps := by
  intro s d
  refine ⟨fun x hx on => ?gates, fun gating t ends => ⟨?offNext, ?off⟩, fun off => ?wakes, fun waking => ⟨?woken, ?held⟩, fun on => ?awake,
    fun n => rfl, fun val k cv cv1 t odd names act there => ?saves, fun val even => ?noSave, fun temps => rfl, fun temps => ?ration⟩
  case gates =>
    intro s1 unfinished
    subst hx
    refine happens_some ((if_pos on).trans ?_)
    exact congrArg (fun o : Option State => some (o.getD s1)) unfinished
  case offNext =>
    refine happens_some ((if_neg ?_).trans ((if_pos gating).trans ends))
    rw [gating]
    decide
  case off =>
    obtain ⟨u, count, rfl⟩ := finishGate_eq ends
    have inPackage : d < u.dieCount := count ▸ lt_dieCount_of_state (by rw [gating]; decide)
    rw [die_setDie_self _ inPackage]
  case wakes =>
    refine happens_some ((if_neg ?_).trans (if_neg ?_)) <;> rcases off with off | off <;> rw [off] <;> decide
  case woken => exact happens_some ((if_neg (by rw [waking]; decide)).trans (if_pos waking))
  case held =>
    exact happens_some ((if_neg (by rw [waking]; decide)).trans ((if_neg (by rw [waking]; decide)).trans (if_pos waking)))
  case awake => exact happens_none (if_pos on)
  case saves =>
    refine happens_some ((if_neg (by rw [odd]; decide)).trans ?_)
    rw [names]
    dsimp only
    rw [act, Option.map_some, there]
  case noSave => exact happens_none (if_pos even)
  case ration =>
    exact congrArg Host.Outcome.next (ration_of_overPower _)

/-- Settles O57: frequency and rails by `railSteps`, power states and heat by `powerSteps`. -/
theorem powerAndRails : Obligations.PowerAndRails := ⟨railSteps, powerSteps⟩

end Sys2Proof.Machine
end

section
/-!
PROOFS. Invalidation and line watches (21 R358, R365, 19 R339), and what the host reads and writes (22 R370, R371, R373, 00 R7, 25 R407);
settles O58.
-/
namespace Sys2Proof.Machine

open Sys2Proof Sys2Proof.Ob

/-! ### Translations and watches -/

/-- A function without line watches has none that an invalidation clears. -/
theorem watchGone_of_none {s : State} {vf : Nat} (h : (s.fn vf).lwatch = []) (n : Nat) (r : Nat × Nat) : s.watchGone vf n r = s := by
  refine if_pos ?_
  rw [h]
  simp [lookD, look]

/-- 21 R365, R358, 19 R339. -/
theorem translationSteps : TranslationSteps := by
  intro s vf
  dsimp only
  refine ⟨fun idle => ?starts, fun busy => ?busy, fun r hr unwatched => ⟨fun used => ?waits, fun free => ?done⟩, fun val => rfl,
    fun n val x on found => ⟨fun device => ?armed, fun other => ?fails⟩⟩
  case starts => exact congrArg Host.Outcome.next (if_neg (by rw [idle]; decide))
  case busy => exact congrArg Host.Outcome.next (if_pos (Option.isSome_iff_ne_none.2 busy))
  case waits =>
    refine happens_none ?_
    simp only [State.invalidated, hr, used, if_true]
  case done =>
    refine happens_some ?_
    simp only [State.invalidated, hr, free, Bool.false_eq_true, if_false]
    refine congrArg some (List.foldl_fixed' (fun n => watchGone_of_none ?_ n r) _)
    rw [fn_setFn]
    exact unwatched
  case armed =>
    refine congrArg Host.Outcome.next ((if_neg (by rw [on]; decide)).trans ?_)
    rw [found]
    exact if_pos device
  case fails =>
    refine congrArg Host.Outcome.next ((if_neg (by rw [on]; decide)).trans ?_)
    rw [found]
    exact if_neg other

/-! ### The host's accesses -/

section
variable {s : State} {vf fpa : Nat} {self : Instr}

/-- No place of a function that is off. -/
theorem hostPlaces_of_off {b : List Byte} (off : (s.fn vf).en = false) : s.hostPlaces vf fpa b = none := if_pos (by rw [off]; rfl)

theorem hostWrite_of_off {b : List Byte} (off : (s.fn vf).en = false) : s.hostWrite vf fpa b self = s.answered .unsupported := by
  rw [State.hostWrite, hostPlaces_of_off off]

theorem hostReads_of_off {n : Nat} {cxl : Bool} (off : (s.fn vf).en = false) :
    s.hostReads vf fpa n cxl self = s.answered .unsupported := by
  rw [State.hostReads, hostPlaces_of_off off]

theorem hostAtomic_of_off {b : List Byte} {op : HostAtomic} (off : (s.fn vf).en = false) :
    s.hostAtomic vf fpa b op self = s.answered .unsupported := by
  simp only [State.hostAtomic, off, Bool.false_and, Bool.false_eq_true, if_false]

/-- A write of bytes of one line, of memory that is there and can be written. -/
theorem hostWrite_of_line {b : List Byte} {pa : Nat} (place : s.hostPlaces vf fpa b = some [(pa, b)]) (kept : s.memLost pa = false)
    (writes : s.canWrite (homeDie pa) (lineOf pa) = true) :
    s.hostWrite vf fpa b self = s.devWrite (homeDie pa) (lineWrite pa b (some 0)) .host := by
  simp only [State.hostWrite, place, List.any_cons, List.any_nil, List.all_cons, List.all_nil, kept, writes, Bool.or_self, Bool.and_self,
    Bool.not_true, Bool.false_eq_true, if_false, List.foldl_cons, List.foldl_nil]

theorem hostAtomic_of_line {b : List Byte} {op : HostAtomic} {pa : Nat} (on : (s.fn vf).en = true) (aligned : fpa % b.length = 0)
    (place : (s.fn vf).granule fpa = some pa) (kept : s.memLost pa = false) (writes : s.canWrite (homeDie pa) (lineOf pa) = true) :
    s.hostAtomic vf fpa b op self = (s.devWrite (homeDie pa) (lineWrite pa (leBytes b.length (HostAtomic.apply op b.length
      (s.devVal (homeDie pa) pa b.length) (leVal b))) (some 0)) .host).answered (.data (leBytes b.length (s.devVal (homeDie pa) pa b.length))) := by
  simp only [State.hostAtomic, on, aligned, decide_true, Bool.and_self, if_true, place, kept, writes, Bool.not_true, Bool.false_eq_true,
    if_false]

/-- A line joins those that the host has copies of, once. -/
theorem newLine (l : List Nat) (x : Nat) : ([x].filter fun y => !l.contains y).eraseDups = if l.contains x then [] else [x] := by
  cases h : l.contains x
  · rw [List.filter_cons_of_pos (by rw [h]; rfl)]
    rfl
  · rw [List.filter_cons_of_neg (by rw [h]; decide)]
    rfl

section
variable {n pa : Nat} (place : s.hostPlaces vf fpa (List.replicate n 0) = some [(pa, List.replicate n 0)]) (kept : s.memLost pa = false)
include place kept

/-- A BAR2 read of one line, of memory that is there and good, reads device memory. -/
theorem hostReads_of_line (held : s.memHeld pa = false) (good : s.lineErr (lineOf pa) = none) : s.hostReads vf fpa n false self =
    s.answered (.data ((List.range n).map fun i => s.hbm.byte (pa + i))) := by
  simp only [State.hostReads, place, List.any_cons, List.any_nil, kept, State.bar2Read, held, good, Option.isSome_none, Bool.false_and,
    Bool.or_self, Bool.false_eq_true, if_false, List.flatMap_cons, List.flatMap_nil, List.append_nil, List.length_replicate]

/-- A CXL.mem read of one line leaves a copy of it with the host. -/
theorem hostReads_of_cxl_line {t : State} {b : List Byte} {tag : Tag} (read : s.readDevice (homeDie pa) (lineOf pa) = .line t b tag) :
    s.hostReads vf fpa n true self = { t with
      hostRead := .data ((b.drop (pa % 64)).take n)
      hostLines := t.hostLines ++ if t.hostLines.contains (lineOf pa) then [] else [lineOf pa] } := by
  simp only [State.hostReads, place, List.any_cons, List.any_nil, kept, State.cxlRead, State.cxlBytes, read, Bool.or_self, if_true,
    Bool.false_eq_true, if_false, List.append_nil, List.length_replicate, List.map_cons, List.map_nil, newLine]

end

end

/-- Register r of core n stands in the range of the cores' counters (25 Table 25-2). -/
theorem coreReg_place {n r : Nat} (hn : n < 256) (hr : r < 0x80) :
    (¬(0x1800 ≤ coreReg n r ∧ coreReg n r < 0x1A00) ∧ 0x2000 ≤ coreReg n r ∧ coreReg n r < 0xA000) ∧
      (coreReg n r - 0x2000) / 0x80 = n ∧ coreReg n r % 0x80 = r := by
  unfold coreReg
  omega

theorem clearCounter_chk {s : State} {n : Nat} (hn : n < 256) :
    s.clearCounter (coreReg n 0) = s.setCore n { s.core n with chk := 0 } := by
  obtain ⟨⟨stack, core⟩, index, reg⟩ := coreReg_place hn (r := 0) (by decide)
  rw [State.clearCounter, if_neg stack, if_pos core]
  dsimp only
  rw [index, reg]
  rfl

/-- FENCE0 ignores writes (25 R407). -/
theorem clearCounter_fence {s : State} {n : Nat} (hn : n < 256) : s.clearCounter (coreReg n 0x38) = s.setCore n (s.core n) := by
  obtain ⟨⟨stack, core⟩, index, reg⟩ := coreReg_place hn (r := 0x38) (by decide)
  rw [State.clearCounter, if_neg stack, if_pos core]
  dsimp only
  rw [index, reg]
  rfl

/-- 22 R370, R371, R373, 00 R7, 25 R407. -/
theorem hostSteps : HostSteps := by
  intro s vf fpa
  refine ⟨fun data pa place kept writes => ⟨fun inside => ?bar2, ?cxl⟩, fun data op pa inside on aligned place kept writes => ?atomic,
    fun n pa place kept => ⟨fun inside held good => ?read, fun t b tag read => ?cxlRead⟩, fun n off => ?noRead, fun n off => ?noCxl,
    fun data a off => ⟨?noWrite, ?noCxlWrite⟩, fun val => rfl, fun val => rfl, fun val => ⟨rfl, fun virtual => ?errb⟩,
    fun n hn => ⟨?chk, ?fence⟩, fun v => ⟨fun pending => ?sent, fun idle => ?plain⟩⟩
  case bar2 => exact congrArg Host.Outcome.next ((ite_not_of_true inside).trans (hostWrite_of_line place kept writes))
  case cxl => exact congrArg Host.Outcome.next (hostWrite_of_line place kept writes)
  case atomic =>
    refine congrArg Host.Outcome.next ((ite_not_of_true inside).trans ((hostAtomic_of_line on aligned place kept writes).trans ?_))
    cases op <;> rfl
  case read => exact congrArg Host.Outcome.next ((ite_not_of_true inside).trans (hostReads_of_line place kept held good))
  case cxlRead => exact congrArg Host.Outcome.next (hostReads_of_cxl_line place kept read)
  case noRead =>
    refine congrArg Host.Outcome.next ?_
    rcases off with off | outside
    · rw [hostReads_of_off off, ite_self]
      rfl
    · exact if_pos (by rw [outside]; rfl)
  case noCxl => exact congrArg Host.Outcome.next (hostReads_of_off off)
  case noWrite =>
    refine congrArg Host.Outcome.next ?_
    cases a with
    | some op => exact (congrArg (ite _ _) (hostAtomic_of_off off)).trans (ite_self _)
    | none => exact (congrArg (ite _ _) (hostWrite_of_off off)).trans (ite_self _)
  case noCxlWrite => exact congrArg Host.Outcome.next (hostWrite_of_off off)
  case errb => exact congrArg Host.Outcome.next (if_neg virtual)
  case chk => exact congrArg Host.Outcome.next (clearCounter_chk hn)
  case fence => exact congrArg Host.Outcome.next (clearCounter_fence hn)
  case sent => exact congrArg (fun f => Host.Outcome.next (s.setFn vf f)) (if_pos pending)
  case plain => exact congrArg (fun f => Host.Outcome.next (s.setFn vf f)) (if_neg (ne_true_of_eq_false idle))

/-- Settles O58: translations and watches by `translationSteps`, the host by `hostSteps`. -/
theorem translationAndHost : Obligations.TranslationAndHost := ⟨translationSteps, hostSteps⟩

end Sys2Proof.Machine
end

section
/-!
PROOFS. Causeway ports (22 R374 to R377), groups and devices declared lost (22 R380, R382); settles O59.
-/
namespace Sys2Proof.Machine

open Sys2Proof Sys2Proof.Ob

/-! ### Flits -/

section
variable {p : Port} {f : Flit}

/-- What a port takes of every flit whose CRC is good: STOP, and ACK (22 R375). -/
def Port.heard (p : Port) (f : Flit) : Port := { p.acked f.ack with stopped := f.stop }

theorem receive_of_bad (h : f.crcGood = false ∨ 4 ≤ f.ftype.toNat) : p.receive f = p.refuses := by
  refine if_pos ?_
  rcases h with h | h <;> simp [h]

/-- A good flit is heard first. -/
theorem receive_of_good (good : f.crcGood = true) (ty : f.ftype.toNat < 4) : p.receive f =
    if f.ftype = 2 then (p.heard f).replay else if f.ftype = 3 then p.heard f
    else if f.seq ≠ p.expect then if p.nak.isSome then p.heard f else (p.heard f).refuses
    else if f.ftype = 0 then (p.heard f).accepts f else p.heard f := by
  refine if_neg ?_
  simp [good, ty]

/-- A payload flit in sequence. -/
theorem receive_of_expected (good : f.crcGood = true) (ty : f.ftype = 0) (seq : f.seq = p.expect) :
    p.receive f = (p.heard f).accepts f := by
  rw [receive_of_good good (by rw [ty]; decide), if_neg (by rw [ty]; decide), if_neg (by rw [ty]; decide), if_neg (not_not.2 seq),
    if_pos ty]

/-- A payload or an idle flit out of sequence. -/
theorem receive_of_strange (good : f.crcGood = true) (ty : f.ftype = 0 ∨ f.ftype = 1) (seq : f.seq ≠ p.expect) :
    p.receive f = if p.nak.isSome then p.heard f else (p.heard f).refuses := by
  have small : f.ftype.toNat < 4 ∧ f.ftype ≠ 2 ∧ f.ftype ≠ 3 := by rcases ty with ty | ty <;> rw [ty] <;> decide
  obtain ⟨lt, not2, not3⟩ := small
  rw [receive_of_good good lt, if_neg not2, if_neg not3, if_pos seq]

/-- A NAK. -/
theorem receive_of_nak (good : f.crcGood = true) (ty : f.ftype = 2) : p.receive f = (p.heard f).replay := by
  rw [receive_of_good good (by rw [ty]; decide), if_pos ty]

theorem replay_of_fresh (h : ∀ u ∈ p.unacked, u.replays < 16) : p.replay =
    { p with unacked := p.unacked.map (fun q => { q with replays := q.replays + 1 }), resend := p.unacked.map Sent.seq } := by
  refine if_neg ?_
  simpa using h

theorem replay_of_worn (h : ∃ u ∈ p.unacked, 16 ≤ u.replays) : p.replay = { p with training := true, up := false, resend := [] } := by
  refine if_pos ?_
  simpa using h

end

/-! ### A port that goes down -/

/-- With no wave, no message is lost. -/
theorem lostMsg_of_noWaves {s : State} (h : s.waves = []) (m : CwMsg) : s.lostMsg m = s := by
  have none_ (id : WaveId) : s.wave? id = none := by rw [State.wave?, h]; rfl
  cases m <;> simp only [State.lostMsg, none_]

/-- A port that is down, with nothing on it. -/
def Port.downed (p : Port) : Port :=
  { p with up := false, training := false, unacked := [], resend := [], nak := none, nakDue := false, msgs := [], flood := [] }

/-- The routes without a port. -/
def routesWithout (routes : NMap (BitVec 24)) (n : Nat) : NMap (BitVec 24) :=
  (routes.map fun r => (r.1, r.2 &&& ~~~ (1#24 <<< n))).filter fun r => r.2 != 0

theorem unstall_of_noWaves {s : State} (h : s.waves = []) : s.unstall = s := by
  refine if_neg ?_
  rw [h]
  decide

theorem portDown_of_noWaves {s : State} (n : Nat) (h : s.waves = []) :
    s.portDown n = { s.setPort n (s.port n).downed with routes := routesWithout s.routes n } := by
  have lost : (s.port n).msgs.foldl State.lostMsg (s.setPort n (s.port n).downed) = s.setPort n (s.port n).downed :=
    List.foldl_fixed' (lostMsg_of_noWaves (s := s.setPort n (s.port n).downed) h) _
  have copies : (s.waves.map Prod.fst).foldl (fun (s : State) k => s.lostCopies n k) (s.setPort n (s.port n).downed) =
      s.setPort n (s.port n).downed := by
    rw [h]
    rfl
  exact (congrArg (fun u : State => ({ u with routes := routesWithout u.routes n } : State).unstall)
    ((congrArg ((s.port n).msgs.foldl State.lostMsg) copies).trans lost)).trans (unstall_of_noWaves h)

/-- What is found in a map stands in it. -/
theorem mem_of_look {α : Type} {m : NMap α} {k : Nat} {a : α} (h : look m k = some a) : (k, a) ∈ m := by
  induction m with
  | nil => cases h
  | cons p r ih =>
    rw [look] at h
    split at h
    · next e =>
      cases h
      exact e ▸ List.mem_cons_self
    · exact List.mem_cons_of_mem _ (ih h)

/-- No route is left by a port that the routes are without. -/
theorem getLsbD_routesWithout {routes : NMap (BitVec 24)} {n dev : Nat} {r : BitVec 24} (h : look (routesWithout routes n) dev = some r)
    (hn : n < 24) : r.getLsbD n = false := by
  obtain ⟨old, -, same⟩ := List.mem_map.1 (List.mem_of_mem_filter (mem_of_look h))
  obtain ⟨-, rfl⟩ := Prod.mk.inj same
  simp [hn]

/-! ### Heartbeats -/

/-- A port's heartbeat, where it can start one (22 R382). -/
def State.heartbeat (s : State) (n : Nat) : State :=
  match s.tell n .heartbeat [] with
  | some s => { s with heartbeats := s.heartbeats + 1 }
  | none => s

theorem opens_iff (p : Port) : p.opens 4 = true ↔
    p.up = true ∧ p.stopped.getLsbD 4 = false ∧ p.resend = [] ∧ p.unacked.length < 2048 := by
  rw [Port.opens, Bool.and_eq_true, Bool.and_eq_true, Bool.and_eq_true, Bool.not_eq_true', List.isEmpty_iff, decide_eq_true_eq]
  tauto

/-- What heartbeats leave of a port: the next number is taken, where one can start. -/
def Beaten (p q : Port) : Prop :=
  (p.opens 4 = false → q = p) ∧ (p.opens 4 = true → q.next = p.next + 1 ∧ q.unacked.length = p.unacked.length + 1)

theorem heartbeat_of_open {s : State} {n : Nat} (h : (s.port n).opens 4 = true) : s.heartbeat n =
    { s.setPort n ((s.port n).start .heartbeat (msgSlots 4 (s.port n).next.toNat s.freeCtr [])) with heartbeats := s.heartbeats + 1 } := by
  have told : s.tell n .heartbeat [] =
      some (s.setPort n ((s.port n).start .heartbeat (msgSlots 4 (s.port n).next.toNat s.freeCtr []))) := if_pos h
  rw [State.heartbeat, told]
  rfl

theorem heartbeat_of_closed {s : State} {n : Nat} (h : (s.port n).opens 4 = false) : s.heartbeat n = s := by
  have silent : s.tell n .heartbeat [] = none := if_neg (ne_true_of_eq_false h)
  rw [State.heartbeat, silent]

theorem heartbeat_beaten (s : State) (n : Nat) : Beaten (s.port n) ((s.heartbeat n).port n) := by
  refine ⟨fun closed => by rw [heartbeat_of_closed closed], fun opens => ?_⟩
  rw [heartbeat_of_open opens]
  have self := port_setPort s n ((s.port n).start .heartbeat (msgSlots 4 (s.port n).next.toNat s.freeCtr []))
  show ((s.setPort n _).port n).next = _ ∧ ((s.setPort n _).port n).unacked.length = _
  rw [self]
  exact ⟨rfl, List.length_append⟩

/-- A heartbeat leaves device memory, the waves and every other port. -/
theorem heartbeat_frame (s : State) (n : Nat) :
    (s.heartbeat n).hbm = s.hbm ∧ (s.heartbeat n).waves = s.waves ∧ ∀ i, i ≠ n → (s.heartbeat n).port i = s.port i := by
  cases h : (s.port n).opens 4 with
  | false => rw [heartbeat_of_closed h]; exact ⟨rfl, rfl, fun _ _ => rfl⟩
  | true =>
    rw [heartbeat_of_open h]
    exact ⟨rfl, rfl, fun i hi => congrArg (·.getD Port.reset) (look_ins_ne _ _ hi)⟩

/-- The heartbeats of a list of ports. -/
theorem heartbeats_frame (l : List Nat) (s : State) :
    (l.foldl State.heartbeat s).hbm = s.hbm ∧ (l.foldl State.heartbeat s).waves = s.waves ∧
      ∀ i, i ∉ l → (l.foldl State.heartbeat s).port i = s.port i := by
  induction l generalizing s with
  | nil => exact ⟨rfl, rfl, fun _ _ => rfl⟩
  | cons n r ih =>
    obtain ⟨hbm, waves, ports⟩ := ih (s.heartbeat n)
    obtain ⟨hbm1, waves1, ports1⟩ := heartbeat_frame s n
    refine ⟨hbm.trans hbm1, waves.trans waves1, fun i hi => ?_⟩
    obtain ⟨other, rest⟩ := not_or.1 (mt List.mem_cons.2 hi)
    exact (ports i rest).trans (ports1 i other)

theorem heartbeats_beaten {l : List Nat} (once : l.Nodup) {s : State} {i : Nat} (hi : i ∈ l) :
    Beaten (s.port i) ((l.foldl State.heartbeat s).port i) := by
  induction l generalizing s with
  | nil => cases hi
  | cons n r ih =>
    obtain ⟨apart, once⟩ := List.nodup_cons.1 once
    rcases List.mem_cons.1 hi with rfl | later
    · obtain ⟨-, -, ports⟩ := heartbeats_frame r (s.heartbeat i)
      exact (ports i apart).symm ▸ heartbeat_beaten s i
    · obtain ⟨-, -, ports⟩ := heartbeat_frame s n
      have other : i ≠ n := fun e => apart (e ▸ later)
      exact ports i other ▸ ih once later

/-- 22 R374 to R377. -/
theorem portSteps : PortSteps := by
  intro s n
  dsimp only
  refine ⟨fun f up => ⟨fun bad => ?bad, fun good ty seq => ?accepted, fun good ty seq => ⟨fun fresh => ?refused, fun again => ?dropped⟩,
      fun good ty => ⟨fun fresh => ?replayed, fun worn => ?retrained⟩⟩,
    fun f down => ?down, fun training => ?trained, fun training => ?failed, fun empty => ?gone, fun idle => ⟨?idleDone, ?idleTimeout⟩, ?hearts⟩
  case bad =>
    refine happens_some ((if_pos up).trans ?_)
    rw [receive_of_bad bad]
    rfl
  case accepted =>
    refine happens_some ((if_pos up).trans ?_)
    rw [receive_of_expected good ty seq]
    rfl
  case refused =>
    refine happens_some ((if_pos up).trans ?_)
    rw [receive_of_strange good ty seq, fresh]
    rfl
  case dropped =>
    refine happens_some ((if_pos up).trans ?_)
    rw [receive_of_strange good ty seq, if_pos again]
    rfl
  case replayed =>
    refine happens_some ((if_pos up).trans ?_)
    rw [receive_of_nak good ty, replay_of_fresh (p := (s.port n).heard f) fresh]
    rfl
  case retrained =>
    refine happens_some ((if_pos up).trans ?_)
    rw [receive_of_nak good ty, replay_of_worn (p := (s.port n).heard f) worn]
    rfl
  case down => exact happens_none (if_neg (ne_true_of_eq_false down))
  case trained => exact happens_some (if_pos training)
  case failed => exact happens_some (if_pos training)
  case gone =>
    rw [portDown_of_noWaves n empty]
    refine ⟨?_, ?_, fun dev r found hn => getLsbD_routesWithout found hn⟩
    · exact congrArg Port.up (port_setPort s n (s.port n).downed)
    · exact congrArg Port.training (port_setPort s n (s.port n).downed)
  case idleDone => exact happens_none (if_neg (ne_true_of_eq_false idle))
  case idleTimeout => exact happens_none (if_neg (ne_true_of_eq_false idle))
  case hearts =>
    obtain ⟨hbm, waves, -⟩ := heartbeats_frame (List.range 24) s
    have beaten (hn : n < 24) := heartbeats_beaten List.nodup_range (s := s) (List.mem_range.2 hn)
    refine ⟨(List.range 24).foldl State.heartbeat s, rfl, hbm, waves, fun hn closed => ?_, fun hn up going sent room => ?_⟩
    · refine (beaten hn).1 (eq_false_of_ne_true fun opens => ?_)
      obtain ⟨up, going, sent, room⟩ := (opens_iff _).1 opens
      rcases closed with h | h | h | h
      · rw [up] at h
        cases h
      · rw [going] at h
        cases h
      · exact h sent
      · exact absurd room (Nat.not_lt.2 h)
    · exact (beaten hn).2 ((opens_iff _).2 ⟨up, going, sent, room⟩)

/-! ### The domain -/

/-- Where no group register is set, no table is repaired. -/
theorem repairTables_of_unregistered {s : State} {dev : Nat} {l : List (Nat × DWord)} (h : ∀ x ∈ l, x.2.getLsbD 0 = false) :
    l.foldl (fun (s : Option State) x => s.bind fun s => s.repairTable x.1 x.2 dev) (some s) = some s := by
  induction l with
  | nil => rfl
  | cons x r ih =>
    have same : s.repairTable x.1 x.2 dev = some s := if_pos (by rw [h x List.mem_cons_self]; rfl)
    rw [List.foldl_cons, Option.bind_some, same]
    exact ih fun y hy => h y (List.mem_cons_of_mem _ hy)

/-- 22 R380, R382. -/
theorem domainSteps : DomainSteps := by
  intro s vf j dev
  refine ⟨fun val off => ?off, fun val h b => ?bad, fun live fresh lowest => ?declared, fun dead => ?dead, fun unregistered first => ?applied⟩
  case off => exact congrArg Host.Outcome.next (if_pos (by rw [off]; rfl))
  case bad =>
    intro tbl on head size table wrong
    refine congrArg Host.Outcome.next ((if_neg (by rw [on]; decide)).trans ?_)
    simp only [tbl] at head table
    simp only [head, Option.getD_some, Option.bind_some, Nat.not_lt.2 size, if_false, table, wrong, if_true]
    rfl
  case declared =>
    refine happens_some ((if_neg ?_).trans rfl)
    rw [live, fresh, lowest]
    decide
  case dead => exact happens_none (if_pos (by rw [dead]; rfl))
  case applied =>
    refine happens_some ((if_neg ?_).trans ?_)
    · intro later
      simp only [Bool.and_eq_true, List.contains_iff_mem, bne_iff_ne] at later
      exact later.2 (first later.1)
    · rw [repairTables_of_unregistered]
      · rfl
      · intro x hx
        obtain ⟨f, hf, registers⟩ := List.mem_flatMap.1 hx
        obtain ⟨g, hg, rfl⟩ := List.mem_map.1 registers
        simpa using List.all_eq_true.1 (List.all_eq_true.1 unregistered f hf) g hg

/-- Settles O59: ports by `portSteps`, the domain by `domainSteps`. -/
theorem portsAndDomain : Obligations.PortsAndDomain := ⟨portSteps, domainSteps⟩

end Sys2Proof.Machine
end

section
/-!
PROOFS. Reset, power, the mailbox, training and Keystone (23 R384 to R390); known-answer tests, scrubs, HBM transfers and lane swaps
(25 R408 to R416); settles O60.
-/
namespace Sys2Proof.Machine

open Sys2Proof Sys2Proof.Ob

/-! ### Firmware -/

/-- A Keystone image whose signature is bad starts nothing. -/
theorem boot_of_badKeystone {f : Firmware} (bad : Config.signatureGood f.keystone = false) :
    f.boot = { f with running := [], svn := 0, key := false, qry := false, rcv := true } :=
  if_pos (by rw [bad]; rfl)

/-- The state after a good image has been written and started. -/
def State.updated (s : State) (b : List Byte) : State :=
  State.mailDone { s with
    fw := ({ s.fw with slotImage := b } : Firmware).start b
    dies := s.dies.map fun x => { x with cmp := x.cmp || x.state == 0 } } 0 2

section
variable {s : State} (busy : s.mailBusy 0 1 = true)
include busy

theorem fwUpdate_of_inService (serves : s.inService = true) : exec .fwUpdate s = .next (s.mailDone 0 6) :=
  happens_some ((ite_not_of_true busy).trans (if_pos serves))

variable (idle : s.inService = false) (fits : (s.fn 0).fwlen.toNat ≤ 0x2000 + 2 ^ 26)
include idle fits

/-- An UPDATE outside service is decided by the check of the staged image. -/
theorem fwUpdate_of_idle : exec .fwUpdate s =
    .next (match imageFault (s.hostBytes (s.mailAddr 0) (s.fn 0).fwlen.toNat) s.fw.floor with
      | some st => s.mailDone 0 st
      | none => s.updated (s.hostBytes (s.mailAddr 0) (s.fn 0).fwlen.toNat)) := by
  refine happens_some ((ite_not_of_true busy).trans ((if_neg (ne_true_of_eq_false idle)).trans ?_))
  simp only [if_neg (Nat.not_lt.2 fits)]
  cases imageFault (s.hostBytes (s.mailAddr 0) (s.fn 0).fwlen.toNat) s.fw.floor <;> rfl

end

theorem fwReservedOp_of_busy {s : State} {vf : Nat} {op : BitVec 4} (busy : s.mailBusy vf op.toNat = true)
    (out : 3 ≤ op.toNat ∨ op = 1 ∧ vf ≠ 0) : exec (.fwReservedOp vf op) s = .next (s.mailDone vf 7) := by
  refine happens_some (if_pos ?_)
  rw [busy, Bool.true_and]
  exact decide_eq_true out.symm

/-- A die whose memory is still to be trained. -/
theorem trained_of_untrained {s : State} {d : Nat} (notReady : (s.die d).memReady = false) (notFailed : (s.die d).memFail = false)
    (good : Bool) : s.trained d good = some (s.setDie d { s.die d with memReady := good, memFail := !good }).releaseHeld :=
  if_neg (by rw [notReady, notFailed]; decide)

/-- 23 R384 to R390. -/
theorem firmwareSteps : FirmwareSteps := by
  intro s
  refine ⟨⟨_, rfl, rfl, rfl, rfl, rfl, rfl, rfl⟩, fun bad => ?keystone, ⟨_, rfl, rfl, rfl, rfl, rfl, rfl⟩, fun key qry => ?timeout,
    fun stopped => ?stopped, fun busy serves => fwUpdate_of_inService busy serves, fun busy idle st fits fault => ?rejected,
    fun b busy idle fits staged good => ?updated, fun vf busy => happens_some (ite_not_of_true busy),
    fun vf op busy out => fwReservedOp_of_busy busy out, fun d notReady notFailed => ?training, fun answers id => ?config,
    fun answers vf pairs => ?config', fun silent w => ?silent⟩
  case keystone =>
    rw [boot_of_badKeystone bad]
    exact ⟨rfl, rfl, rfl⟩
  case timeout => exact happens_some (if_pos (by rw [key, qry]; rfl))
  case stopped => exact happens_none (if_neg (by rw [stopped]; exact Bool.false_ne_true))
  case rejected =>
    rw [fwUpdate_of_idle busy idle fits, fault]
    rfl
  case updated =>
    subst staged
    rw [fwUpdate_of_idle busy idle fits, good]
    exact ⟨_, rfl, rfl, congrArg Fn.fwstat (fn_setFn _ 0 _), rfl, rfl, rfl⟩
  case training =>
    exact ⟨happens_some (trained_of_untrained notReady notFailed true), happens_some (trained_of_untrained notReady notFailed false)⟩
  case config => exact happens_some (if_pos answers)
  case config' => exact happens_some (if_pos answers)
  case silent => exact happens_none (if_neg (ne_true_of_eq_false silent))

/-! ### Known-answer tests -/

section
variable {s : State} {core lane : Nat}

theorem kat_of_fenced (good : Bool) (l : List Bool) (fenced : (s.core core).fenced.getLsbD lane = true) :
    s.kat core lane good l = none :=
  if_pos fenced

theorem kat_of_due (good : Bool) (l : List Bool) (whole : (s.core core).fenced.getLsbD lane = false)
    (due : lane ∈ (s.core core).due) : s.kat core lane good l = some (s.retest core lane l) :=
  (if_neg (ne_true_of_eq_false whole)).trans (if_pos (List.contains_iff_mem.2 due))

/-- Of a lane to which nothing is due, the first operation decides. -/
theorem kat_of_notDue (good : Bool) (l : List Bool) (whole : (s.core core).fenced.getLsbD lane = false)
    (due : lane ∉ (s.core core).due) : s.kat core lane good l =
      if good then some (s.setCore core { s.core core with katRun := bump (s.core core).katRun 1 })
      else some ((s.setCore core
        { s.core core with katRun := bump (s.core core).katRun 1, katFail := bump (s.core core).katFail 1 }).retest core lane l) :=
  (if_neg (ne_true_of_eq_false whole)).trans (if_neg fun h => due (List.contains_iff_mem.1 h))

end

/-! ### Scrubs -/

section
variable {s : State} {off : Nat}

theorem markScratch_of_new {k crew : Nat} {c : Crew} (there : s.crew? (8 * k + crew) = some c) (inside : off < c.scratchBytes)
    (new : off ∉ c.bad) : s.markScratch k crew off = some (s.setCrew (8 * k + crew) { c with bad := c.bad ++ [off] }) := by
  unfold State.markScratch
  rw [there]
  exact (if_neg (Nat.not_le.2 inside)).trans (if_neg fun h => new (List.contains_iff_mem.1 h))

theorem markCmem_of_new {k : Nat} {cv : Convoy} (there : s.convoy? k = some cv) (inside : off < cv.cmemBytes) (new : off ∉ cv.bad) :
    s.markCmem k off = some (s.setConvoy k { cv with bad := cv.bad ++ [off] }) := by
  unfold State.markCmem
  rw [there]
  exact (if_neg (Nat.not_le.2 inside)).trans (if_neg fun h => new (List.contains_iff_mem.1 h))

theorem markBad_slate_of_new {x : Engine} (cl e : Nat) (new : off ∉ x.slateBad) :
    x.markBad (.slate cl e off) = { x with slateBad := x.slateBad ++ [off] } :=
  congrArg (fun l => { x with slateBad := l }) (if_neg fun h => new (List.contains_iff_mem.1 h))

end

/-! ### HBM transfers -/

section
variable {s : State} {line : Nat} (rd : Option WaveId)
  (free : ((s.stack (hbmStackOf line)).busySwap.any fun y => y.1 == pchOf line) = false)
include free

/-- A first attempt that is good. -/
theorem transfer_of_good : s.transfer line [.good] rd =
    some (s.setStack (hbmStackOf line) { s.stack (hbmStackOf line) with lrty := bump (s.stack (hbmStackOf line)).lrty 0 }) :=
  if_neg (ne_true_of_eq_false free)

/-- Five attempts that a lane spoils. -/
theorem transfer_of_fiveParity (l : Nat) : s.transfer line (List.replicate 5 (.parity l)) rd =
    some ((s.setStack (hbmStackOf line) { s.stack (hbmStackOf line) with
      llast := BitVec.ofNat 64 (256 * pchOf line + l)
      lrty := bump (s.stack (hbmStackOf line)).lrty 4
      llim := bump (s.stack (hbmStackOf line)).llim 1 }).transferFailed line [l, l, l, l, l] rd) :=
  if_neg (ne_true_of_eq_false free)

end

/-- The one swap in progress ends and its retry is good. -/
theorem swapDone_of_good {s : State} {n pch line lane : Nat} (rd : Option WaveId)
    (one : (s.stack n).busySwap = [(pch, lane, line)]) : s.swapDone n pch .good rd =
      some (s.setStack n { s.stack n with busySwap := [], lrty := bump (s.stack n).lrty 1 }).releaseHeld := by
  have found : (s.stack n).busySwap.find? (fun y => y.1 == pch) = some (pch, lane, line) := by simp [one]
  have rest : (s.stack n).busySwap.filter (· != (pch, lane, line)) = [] := by simp [one]
  unfold State.swapDone
  simp only [found, rest]
  rfl

/-- 25 R408 to R416. -/
theorem reliabilitySteps : ReliabilitySteps := by
  intro s
  refine ⟨fun core lane whole due => ⟨fun l => ?_, ?_, ?_⟩, fun core lane l whole due => happens_some (kat_of_due true l whole due),
    fun core lane => ⟨rfl, rfl⟩, fun core lane g l fenced => happens_none (kat_of_fenced g l fenced), rfl,
    fun k crew off c there inside new => ?scratch, fun k off cv there inside new => ?cmem, fun cl e off new => ?slate,
    fun cl r new => ?gravel, fun line rd free => ⟨?_, fun l => ?_⟩, fun n pch line lane rd one => ?_⟩
  · exact happens_some (kat_of_notDue true l whole due)
  · exact happens_some (kat_of_notDue false [true, true, true] whole due)
  · exact happens_some (kat_of_notDue false [true, false, true] whole due)
  case scratch => exact happens_some (congrArg (Option.map _) (markScratch_of_new there inside new))
  case cmem => exact happens_some (congrArg (Option.map _) (markCmem_of_new there inside new))
  case slate => exact happens_some (congrArg (fun x => some (s.setEngine cl e x)) (markBad_slate_of_new cl e new))
  case gravel =>
    exact happens_some (congrArg (fun g => some (s.setGravel cl g)) (if_neg fun h => new (List.contains_iff_mem.1 h)))
  · exact happens_some (transfer_of_good rd free)
  · exact happens_some (transfer_of_fiveParity rd free l)
  · exact happens_some (swapDone_of_good rd one)

/-- Settles O60: the firmware by `firmwareSteps`, tests, scrubs and transfers by `reliabilitySteps`. -/
theorem firmwareAndReliability : Obligations.FirmwareAndReliability := ⟨firmwareSteps, reliabilitySteps⟩

end Sys2Proof.Machine
end
